-- ==== Sys2Proof/Word.lean ====
section
/-! DEFINITION. The word types of the machine (00_scope R2: little-endian, bit 0 least significant). -/
namespace Sys2Proof

/-- One byte. -/
abbrev Byte := BitVec 8
/-- A scalar, address or system register value. -/
abbrev Word := BitVec 64
/-- A 128-byte unit: a vector register, a cache line, a stream unit (03_core R72). -/
abbrev Line := BitVec 1024
/-- A 384-bit bundle (04_encoding R87). -/
abbrev Bundle := BitVec 384

/-- `bits(v, lo + len - 1, lo)` of 00_scope R8. -/
abbrev field {n : Nat} (v : BitVec n) (lo len : Nat) : BitVec len := v.extractLsb' lo len

end Sys2Proof
end

