-- ==== Sys2Proof/Config.lean ====
section
/-! DEFINITION. What one implementation fixes, and the free values: constants without a body, so that nothing can be
proved about what they are. The spec leaves each of them open; notes/assumptions/2.md says so of the free values. -/
namespace Sys2Proof.Config

/-- Free value number `k` (counter `freeNext` of the state), as a natural number. Log entry 2. -/
opaque freeNat : Nat → Nat
/-- Free value number `k`, as a word. Log entry 2. -/
opaque freeWord : Nat → BitVec 64

/-- The physical byte behind view offset `off` of a TRANSPOSE aperture whose NSRC is 0, where R179 divides by 0. Log entry 99. -/
opaque transposeZero : Nat → Nat

/-- Entries an engine queue holds beyond its first (09_ordering R195 gives no depth). Log entry 12. -/
opaque queueExtra : Nat

/-- SHAKE256 with 64 bytes of output (15_system R316); the function itself is not in the spec. Log entry 13. -/
opaque shake256 : List (BitVec 8) → BitVec 512
/-- The identity key's ML-DSA-65 signature over a report (15_system R316). Log entry 13. -/
opaque identitySign : List (BitVec 8) → List (BitVec 8)
/-- Whether an ML-DSA-65 signature (second) over an image (first) verifies (15_system R315). Log entry 13. -/
opaque signatureOk : List (BitVec 8) → List (BitVec 8) → Bool

/-! Typical latencies in cycles (01_package, Typical latencies). They guide scheduling and bind nothing. Log entry 11. -/

/-- Load-to-use time of an L1 hit. -/
def latL1 : Nat := 8
/-- L2 with the home slice on the core's own die, a ring neighbour, the diagonal partner. -/
def latL2 (hops : Nat) : Nat := if hops = 0 then 48 else if hops = 1 then 80 else 112
/-- HBM on an L2 miss. -/
def latHbm : Nat := 280
/-- Host memory, about 1.2 µs. -/
def latHost : Nat := 960
/-- A cluster-space access: the spec gives no figure; the tile store's own latency is used. -/
def latCluster : Nat := 5
/-- A flash page read, 6 µs. -/
def flashNs : Nat := 6000

end Sys2Proof.Config
end

