-- ==== Sys2Proof/Machine/Memory.lean ====
section
/-! DEFINITION. Memory as one list of bytes in canonical form, the keys of its regions, and byte order (00_scope R2).
Keys rise strictly and no listed byte is 0; an unlisted byte reads 0 (R321 leaves it undefined: DESIGN CHOICE, log entry 3). -/
namespace Sys2Proof.Machine

/-- All bytes of the package and of host memory. -/
abbrev Memory := List Host.Cell

/-- The byte at a key: what is listed, else 0. -/
def Memory.get (m : Memory) (k : Nat) : Byte :=
  match m.find? (fun c => c.1 == k) with
  | some c => c.2
  | none => 0#8

/-- The entries of bytes written from `k`: a byte of 0 has none. -/
def cellsAt : Nat → List Byte → Memory
  | _, [] => []
  | k, b :: bs => if b = 0#8 then cellsAt (k + 1) bs else (k, b) :: cellsAt (k + 1) bs

/-- Write `n` bytes at rising keys from `k`, those past the list 0, keeping the canonical form: writing 0 removes the entry. -/
def Memory.put (m : Memory) (k n : Nat) (bs : List Byte) : Memory :=
  m.filter (fun c => decide (c.1 < k)) ++ cellsAt k bs ++ m.filter (fun c => decide (k + max n bs.length ≤ c.1))

/-- Keys above `lo` rise strictly and no byte is 0. -/
def Memory.wfFrom : Option Nat → Memory → Bool
  | _, [] => true
  | lo, c :: m => (match lo with | none => true | some l => decide (l < c.1)) && decide (c.2 ≠ 0#8) && Memory.wfFrom (some c.1) m

/-- The canonical form: strictly rising keys, no entry equal to what an unlisted key reads as. -/
def Memory.wf (m : Memory) : Bool := Memory.wfFrom none m

/-! ## Byte order -/

/-- The number whose little-endian bytes these are (R2). -/
def leNat : List Byte → Nat
  | [] => 0
  | b :: bs => b.toNat + 256 * leNat bs

/-- The `n` little-endian bytes of a number. -/
def leBytes : Nat → Nat → List Byte
  | 0, _ => []
  | n + 1, x => BitVec.ofNat 8 x :: leBytes n (x / 256)

/-- The bytes of a 128-byte unit, lowest first. -/
def lineBytes (l : Line) : List Byte := leBytes 128 l.toNat

/-- The 128-byte unit with these bytes. -/
def lineOf (bs : List Byte) : Line := BitVec.ofNat 1024 (leNat bs)

/-- The 8-byte word with these bytes. -/
def wordOf (bs : List Byte) : Word := BitVec.ofNat 64 (leNat bs)

/-! ## Keys. Physical addresses are 52 bits (R20); the other tiers lie above them. -/

/-- Tile store byte `off` of a core (2 MiB each, R16). -/
def tileKey (core off : Nat) : Nat := 2 ^ 52 + core * 2 ^ 21 + off
/-- B-plane byte `byte` of 64-byte unit `unit` of column `col` (16 KiB per column, R132). -/
def bplaneKey (core col unit byte : Nat) : Nat := 2 ^ 53 + core * 2 ^ 22 + col * 16384 + unit * 64 + byte
/-- Byte `byte` of accumulator row `row` (1,024 bytes per row, R139). -/
def accKey (core row byte : Nat) : Nat := 2 ^ 54 + core * 2 ^ 20 + row * 1024 + byte
/-- A helper core's private address (R46): 0 to 0xFFFF the instruction store, 0x1_0000 to 0x1_3FFF the data. -/
def privKey (core : Nat) (outfall : Bool) (addr : Nat) : Nat := 2 ^ 55 + (core * 2 + outfall.toNat) * 2 ^ 17 + addr

/-! ## Physical ranges (R20) -/

/-- HBM4E. -/
def isHbm (pa : Nat) : Bool := decide (pa < 2 ^ 39)
/-- The flash logical space. -/
def isFlash (pa : Nat) : Bool := decide (2 ^ 48 ≤ pa) && decide (pa < 2 ^ 48 + 7 * 2 ^ 40)
/-- Host memory behind either port. -/
def isHost (pa : Nat) : Bool := decide (2 ^ 51 ≤ pa) && decide (pa < 2 ^ 52)
/-- Everything else is reserved. -/
def isReservedPa (pa : Nat) : Bool := !(isHbm pa || isFlash pa || isHost pa)

/-- Home die of a physical address (R21): the die wired to its stack. -/
def homeDie (pa : Nat) : Nat := pa / 4096 % 8 / 2
/-- Home slice on the home die (R21). -/
def homeSlice (pa : Nat) : Nat := (pa / 128 % 16) ^^^ (pa / 32768 % 16)

/-! ## Tables -/

/-- The entry of a table, or its default. -/
def Tab.get {α : Type} (t : List (Nat × α)) (k : Nat) (dflt : α) : α :=
  match t.find? (fun e => e.1 == k) with
  | some e => e.2
  | none => dflt

/-- Replace or add an entry. -/
def Tab.set {α : Type} : List (Nat × α) → Nat → α → List (Nat × α)
  | [], k, x => [(k, x)]
  | e :: t, k, x => if e.1 = k then (k, x) :: t else e :: Tab.set t k x

/-- Remove an entry. -/
def Tab.erase {α : Type} (t : List (Nat × α)) (k : Nat) : List (Nat × α) := t.filter (fun e => e.1 != k)

/-- The `i`-th member of a vector of `n + 1`, taken modulo its length. -/
def nth {α : Type} {n : Nat} (v : Vector α (n + 1)) (i : Nat) : α := v.get (Fin.ofNat (n + 1) i)

/-- Replace the `i`-th member, taken modulo the length. -/
def setNth {α : Type} {n : Nat} (v : Vector α (n + 1)) (i : Nat) (x : α) : Vector α (n + 1) :=
  v.set (Fin.ofNat (n + 1) i).val x (Fin.ofNat (n + 1) i).isLt

end Sys2Proof.Machine
end

