-- ==== Sys2Proof/Syntax.lean ====
section
/-! DEFINITION. The instructions and steps of the machine: one constructor per row of spec/opcode_table.json.
Slot-word rows carry the operand fields of their encoding; rows without an encoding are the machine's own steps and carry
what they act on; the core and context they act for, like those of a slot, are the focus of the state (Machine/State.lean).
The rows without operands stand last. A row of the outside world (a host write, a received cell, a measured temperature) carries what arrives. -/
namespace Sys2Proof

/-- An immediate with a short field of `n` bits and a long form of 32 bits in the next slot (04_encoding R89). -/
inductive Imm (n : Nat) where
  | short (m : BitVec n)
  | long (w : BitVec 32)
  deriving DecidableEq, Repr

/-- The immediate of format X: IMM10, or imm32 with the U bit in IMM10[0] (04_encoding R90). -/
inductive XImm where
  | short (m : BitVec 10)
  | long (u : Bool) (w : BitVec 32)
  deriving DecidableEq, Repr

/-- The position class under which a slot word is decoded (03_core R53, R54). INT stands twice: only slot s1 holds
branches (04_encoding R94). -/
inductive SlotClass where
  | ctrl | int1 | int2 | mem | vec | mtx | scl | flow
  deriving DecidableEq, Repr

/-- Two-operand integer operations of RV64IM, Zba and Zbb (02_execution R46; the operations are the RISC-V standard's,
PRESUMED, log entry 10). A name ending in W works on 32 bits and sign-extends. -/
inductive RvAlu where
  | add | sub | sll | slt | sltu | xor | srl | sra | or | and
  | addW | subW | sllW | srlW | sraW
  | mul | mulh | mulhsu | mulhu | div | divu | rem | remu
  | mulW | divW | divuW | remW | remuW
  | addUw | sh1add | sh2add | sh3add | sh1addUw | sh2addUw | sh3addUw | sllUw
  | andn | orn | xnor | max | maxu | min | minu | rol | ror | rolW | rorW
  deriving DecidableEq, Repr

/-- One-operand operations of Zbb. -/
inductive RvUnary where
  | clz | ctz | cpop | clzW | ctzW | cpopW | sextB | sextH | zextH | orcB | rev8
  deriving DecidableEq, Repr

/-- Branch conditions. -/
inductive RvCond where
  | eq | ne | lt | ge | ltu | geu
  deriving DecidableEq, Repr

/-- Atomic operations of the A extension. -/
inductive RvAmo where
  | swap | add | xor | and | or | min | max | minu | maxu
  deriving DecidableEq, Repr

/-- CSR operations of Zicsr. -/
inductive RvCsr where
  | rw | rs | rc
  deriving DecidableEq, Repr

/-- The ordinary instructions of a helper core (02_execution R46). Access sizes are log2 of the bytes. -/
inductive RvInstr where
  | lui (rd : BitVec 5) (imm : BitVec 20)
  | auipc (rd : BitVec 5) (imm : BitVec 20)
  | jal (rd : BitVec 5) (off : BitVec 21)
  | jalr (rd rs1 : BitVec 5) (off : BitVec 12)
  | branch (c : RvCond) (rs1 rs2 : BitVec 5) (off : BitVec 13)
  | load (size : BitVec 2) (zx : Bool) (rd rs1 : BitVec 5) (off : BitVec 12)
  | store (size : BitVec 2) (rs1 rs2 : BitVec 5) (off : BitVec 12)
  | opImm (op : RvAlu) (rd rs1 : BitVec 5) (imm : BitVec 12)
  | op (op : RvAlu) (rd rs1 rs2 : BitVec 5)
  | unary (op : RvUnary) (rd rs1 : BitVec 5)
  | lr (dbl : Bool) (rd rs1 : BitVec 5)
  | sc (dbl : Bool) (rd rs1 rs2 : BitVec 5)
  | amo (op : RvAmo) (dbl : Bool) (rd rs1 rs2 : BitVec 5)
  | csr (op : RvCsr) (isImm : Bool) (rd rs1 : BitVec 5) (csr : BitVec 12)
  | fence
  | illegal
  | fetchFault (addr : BitVec 64)
  deriving DecidableEq, Repr

/-- A received network cell (11_routing R239): the sender's member index in a group, its message, the cell's place, and
what the transport says of the message (rows, bytes per row). -/
structure Cell where
  part : Nat
  group : Nat
  sender : Nat
  ncell : BitVec 24
  cell : BitVec 24
  msg : BitVec 32
  nrows : Nat
  rowBytes : Nat
  payload : List (BitVec 8)
  deriving DecidableEq, Repr

/-- A firmware image with its security version and its signature (R315). -/
structure BootImage where
  bytes : List (BitVec 8)
  version : Nat
  signature : List (BitVec 8)
  deriving DecidableEq, Repr

/-- Where an attestation report goes: the DOE mailbox of a port, or MCTP (R316). -/
inductive ReportRoute where
  | doe (port : Nat)
  | mctp
  deriving DecidableEq, Repr

/-- A request for an attestation report: the requester's nonce, and the way of the answer (R316). -/
structure ReportRequest where
  nonce : List (BitVec 8)
  via : ReportRoute
  deriving DecidableEq, Repr

/-- One page of a model install: the logical page and where in host memory its 16 KiB lie (15_system R309 names no layout of
the host buffer). -/
structure FlashPage where
  lpage : Nat
  src : Nat
  deriving DecidableEq, Repr

/-- One constructor per row of spec/opcode_table.json. -/
inductive Instr where
  /-- ABS (R380): Writes the absolute value of sA to sD, modulo 2^64. -/
  | abs (d : BitVec 6) (a : BitVec 6)
  /-- ADD (R380): Adds sA and sB modulo 2^64 into sD. -/
  | add (d : BitVec 6) (a : BitVec 6) (b : BitVec 6)
  /-- ADD_I (R380): Adds sA and a sign-extended 10-bit immediate into sD. -/
  | addI (d : BitVec 6) (a : BitVec 6) (m : XImm)
  /-- ADDA (R380): Adds aA and sB into address register aD. -/
  | adda (d : BitVec 4) (a : BitVec 4) (b : BitVec 6)
  /-- ADDA_I (R380): Adds aA and a sign-extended immediate into address register aD. -/
  | addaI (d : BitVec 4) (a : BitVec 4) (m : XImm)
  /-- AND (R380): Bitwise AND of sA and sB into sD. -/
  | and (d : BitVec 6) (a : BitVec 6) (b : BitVec 6)
  /-- AND_I (R380): Bitwise AND of sA and an immediate into sD. -/
  | andI (d : BitVec 6) (a : BitVec 6) (m : XImm)
  /-- ANDN (R380): Writes sA AND NOT sB into sD. -/
  | andn (d : BitVec 6) (a : BitVec 6) (b : BitVec 6)
  /-- ANDN_I (R380): Writes sA AND NOT an immediate into sD. -/
  | andnI (d : BitVec 6) (a : BitVec 6) (m : XImm)
  /-- BFI (R380): Inserts the low bits of sA into sD at the field given by sB. -/
  | bfi (d : BitVec 6) (a : BitVec 6) (b : BitVec 6)
  /-- BFX (R380): Extracts the field given by sB from sA, zero-extended, into sD. -/
  | bfx (d : BitVec 6) (a : BitVec 6) (b : BitVec 6)
  /-- CLZ (R380): Counts leading zero bits of sA into sD. -/
  | clz (d : BitVec 6) (a : BitVec 6)
  /-- CTZ (R380): Counts trailing zero bits of sA into sD. -/
  | ctz (d : BitVec 6) (a : BitVec 6)
  /-- POPC (R441): Counts the one bits of sA into sD. -/
  | popc (d : BitVec 6) (a : BitVec 6)
  /-- SUB (R441): Subtracts sB from sA modulo 2^64 into sD. -/
  | sub (d : BitVec 6) (a : BitVec 6) (b : BitVec 6)
  /-- SUB_I (R441): Subtracts a sign-extended immediate from sA into sD. -/
  | subI (d : BitVec 6) (a : BitVec 6) (m : XImm)
  /-- MUL (R441): Writes the low 64 bits of sA times sB into sD. -/
  | mul (d : BitVec 6) (a : BitVec 6) (b : BitVec 6)
  /-- MUL_I (R441): Writes the low 64 bits of sA times an immediate into sD. -/
  | mulI (d : BitVec 6) (a : BitVec 6) (m : XImm)
  /-- MULH (R441): Writes the high 64 bits of the signed or unsigned 128-bit product into sD. -/
  | mulh (d : BitVec 6) (a : BitVec 6) (b : BitVec 6) (u : BitVec 1)
  /-- MULH_I (R441): Writes the high 64 bits of the signed product of sA and an immediate into sD. -/
  | mulhI (d : BitVec 6) (a : BitVec 6) (m : XImm)
  /-- MAD (R441): Adds sA times sB to sD, low 64 bits. -/
  | mad (d : BitVec 6) (a : BitVec 6) (b : BitVec 6)
  /-- MAD_I (R441): Adds sA times an immediate to sD, low 64 bits. -/
  | madI (d : BitVec 6) (a : BitVec 6) (m : XImm)
  /-- DIV (R406): Writes the quotient of sA by sB, signed or unsigned, on the unpipelined divider. -/
  | div (d : BitVec 6) (a : BitVec 6) (b : BitVec 6) (u : BitVec 1)
  /-- DIV_I (R406): Writes the signed quotient of sA by an immediate. -/
  | divI (d : BitVec 6) (a : BitVec 6) (m : XImm)
  /-- REM (R441): Writes the remainder of sA by sB, signed or unsigned, paired with DIV. -/
  | rem (d : BitVec 6) (a : BitVec 6) (b : BitVec 6) (u : BitVec 1)
  /-- REM_I (R441): Writes the signed remainder of sA by an immediate. -/
  | remI (d : BitVec 6) (a : BitVec 6) (m : XImm)
  /-- OR (R441): Bitwise OR of sA and sB into sD. -/
  | or (d : BitVec 6) (a : BitVec 6) (b : BitVec 6)
  /-- OR_I (R441): Bitwise OR of sA and an immediate into sD. -/
  | orI (d : BitVec 6) (a : BitVec 6) (m : XImm)
  /-- XOR (R481): Bitwise XOR of sA and sB into sD. -/
  | xor (d : BitVec 6) (a : BitVec 6) (b : BitVec 6)
  /-- XOR_I (R481): Bitwise XOR of sA and an immediate into sD. -/
  | xorI (d : BitVec 6) (a : BitVec 6) (m : XImm)
  /-- SHL (R441): Shifts sA left by bits 5:0 of sB. -/
  | shl (d : BitVec 6) (a : BitVec 6) (b : BitVec 6)
  /-- SHL_I (R441): Shifts sA left by an immediate amount. -/
  | shlI (d : BitVec 6) (a : BitVec 6) (m : BitVec 10)
  /-- SHR (R441): Shifts sA right logically by bits 5:0 of sB. -/
  | shr (d : BitVec 6) (a : BitVec 6) (b : BitVec 6)
  /-- SHR_I (R441): Shifts sA right logically by an immediate amount. -/
  | shrI (d : BitVec 6) (a : BitVec 6) (m : BitVec 10)
  /-- SRA (R441): Shifts sA right arithmetically by bits 5:0 of sB. -/
  | sra (d : BitVec 6) (a : BitVec 6) (b : BitVec 6)
  /-- SRA_I (R441): Shifts sA right arithmetically by an immediate amount. -/
  | sraI (d : BitVec 6) (a : BitVec 6) (m : BitVec 10)
  /-- ROL (R441): Rotates sA left by bits 5:0 of sB. -/
  | rol (d : BitVec 6) (a : BitVec 6) (b : BitVec 6)
  /-- ROL_I (R441): Rotates sA left by an immediate amount. -/
  | rolI (d : BitVec 6) (a : BitVec 6) (m : BitVec 10)
  /-- MIN (R441): Writes the signed or unsigned minimum of sA and sB. -/
  | min (d : BitVec 6) (a : BitVec 6) (b : BitVec 6) (u : BitVec 1)
  /-- MIN_I (R441): Writes the signed minimum of sA and an immediate. -/
  | minI (d : BitVec 6) (a : BitVec 6) (m : XImm)
  /-- MAX (R441): Writes the signed or unsigned maximum of sA and sB. -/
  | max (d : BitVec 6) (a : BitVec 6) (b : BitVec 6) (u : BitVec 1)
  /-- MAX_I (R441): Writes the signed maximum of sA and an immediate. -/
  | maxI (d : BitVec 6) (a : BitVec 6) (m : XImm)
  /-- CMP (R389): Compares sA with sB under the condition and writes predicate pD. -/
  | cmp (c : BitVec 2) (p : BitVec 4) (a : BitVec 6) (b : BitVec 6) (u : BitVec 1)
  /-- CMP_I (R389): Compares sA signed with an immediate and writes predicate pD. -/
  | cmpI (c : BitVec 2) (p : BitVec 4) (a : BitVec 6) (m : XImm)
  /-- SEL (R441): Writes sA or sB to sD according to predicate pF. -/
  | sel (d : BitVec 6) (a : BitVec 6) (b : BitVec 6) (f : BitVec 4)
  /-- SEL_I (R441): Writes sA or a 6-bit immediate to sD according to predicate pF. -/
  | selI (d : BitVec 6) (a : BitVec 6) (m : BitVec 6) (f : BitVec 4)
  /-- MOV (R441): Copies sA to sD. -/
  | mov (d : BitVec 6) (a : BitVec 6)
  /-- MOVI (R94): Writes a sign-extended 16-bit constant to sD, or to its high half with H set. -/
  | movi (d : BitVec 6) (h : BitVec 1) (m : Imm 16)
  /-- MOVA_TO_A (R442): Copies scalar register sA to address register aD. -/
  | movaToA (d : BitVec 4) (a : BitVec 6)
  /-- MOVA_TO_S (R442): Copies address register aA to scalar register sD. -/
  | movaToS (d : BitVec 6) (a : BitVec 4)
  /-- PLOG (R442): Combines predicates pA and pB by and, or, xor or andn into pD. -/
  | plog (d : BitVec 4) (a : BitVec 4) (b : BitVec 4) (o : BitVec 2)
  /-- SEXT (R441): Sign-extends the low n bits of sA into sD. -/
  | sext (d : BitVec 6) (a : BitVec 6) (n : BitVec 7)
  /-- MSTAT (R443): Reads the array's per-tile status file into sD as an interlocked result. -/
  | mstat (d : BitVec 6)
  /-- MSTAT_CLR (R443): Reads the per-tile status file and clears the NANINF and SAT bits it returned. -/
  | mstatClr (d : BitVec 6)
  /-- BR (R386): Relative branch with two delay slots, in slot s0. -/
  | br (o : Imm 23)
  /-- BR_S1 (R386): Relative branch with two delay slots, issued from slot s1. -/
  | brS1 (o : Imm 23)
  /-- BRX (R386): Branch to the code address in sA, in slot s0. -/
  | brx (a : BitVec 6)
  /-- BRX_S1 (R386): Branch to the code address in sA, issued from slot s1. -/
  | brxS1 (a : BitVec 6)
  /-- CALL (R386): Relative branch that writes the return code address to s62, in slot s0. -/
  | call (o : Imm 23)
  /-- CALL_S1 (R386): Relative call issued from slot s1. -/
  | callS1 (o : Imm 23)
  /-- CALLX (R386): Branch to sA writing the return code address to s62, in slot s0. -/
  | callx (a : BitVec 6)
  /-- CALLX_S1 (R386): Register call issued from slot s1. -/
  | callxS1 (a : BitVec 6)
  /-- LOOP (R433): Sets up 1 to 6 nested loop levels over the following body from a loop descriptor. -/
  | loop (l : BitVec 6) (c : BitVec 6)
  /-- LOOPM (R433): Sets up nested loop levels with a modulo-scheduled innermost level. -/
  | loopm (l : BitVec 6) (c : BitVec 6)
  /-- LEXIT (R434): Ends loop level L and its inner levels at once. -/
  | lexit (l : BitVec 3)
  /-- BARR (R40): Joins or opens the barrier episode for a rill mask and blocks until it completes. -/
  | barr (m : BitVec 16)
  /-- HWAIT (R213): Waits on a weight handle's arrival mask or READY, acquiring at package scope. -/
  | hwait (h : BitVec 6) (m : BitVec 2)
  /-- VWAIT (R478): Blocks until a tile's VER reaches sV, then acquires. -/
  | vwait (a : BitVec 4) (v : BitVec 6)
  /-- MWAIT (R448): Blocks until the global 8-byte word at aA differs from sV, then acquires. -/
  | mwait (a : BitVec 4) (v : BitVec 6)
  /-- TRAP (R461): Takes class S trap TRAP with INFO holding the immediate. -/
  | trapImm (i : BitVec 16)
  /-- FENCE (R413): Orders earlier and later accesses as acquire, release or full at a scope. -/
  | fence (k : BitVec 2) (s : BitVec 3)
  /-- FENCE_R (R413): Range fence whose cache effects cover only lines in the range. -/
  | fenceR (k : BitVec 2) (s : BitVec 3) (a : BitVec 4) (l : BitVec 6)
  /-- QFENCE (R197): Places a marker in the named engine queues ordering their entries. -/
  | qfence (m : BitVec 8)
  /-- MFSR (R444): Reads a system register into sD, landing in 2 cycles. -/
  | mfsr (d : BitVec 6) (k : BitVec 6)
  /-- MTSR (R445): Writes a system register from sA with the per-register effects of R445. -/
  | mtsr (a : BitVec 6) (k : BitVec 6)
  /-- EST (R411): Writes the rill's KEST from sA. -/
  | est (a : BitVec 6)
  /-- EST_I (R411): Writes the rill's KEST from a 16-bit immediate. -/
  | estI (m : Imm 16)
  /-- LD (R427): Scalar load of 1 to 8 bytes from the tile store, cluster space or global memory. -/
  | ld (d : BitVec 6) (a : BitVec 4) (m : BitVec 2) (s : BitVec 2) (w : BitVec 2) (z : BitVec 1) (x : Imm 6)
  /-- ST (R457): Scalar store of 1 to 8 bytes. -/
  | st (d : BitVec 6) (a : BitVec 4) (m : BitVec 2) (s : BitVec 2) (w : BitVec 2) (x : Imm 6)
  /-- VLD (R475): Loads 128 bytes into a vector register. -/
  | vld (d : BitVec 5) (a : BitVec 4) (m : BitVec 2) (s : BitVec 2) (x : Imm 6)
  /-- VST (R475): Stores a vector register's 128 bytes. -/
  | vst (d : BitVec 5) (a : BitVec 4) (m : BitVec 2) (s : BitVec 2) (x : Imm 6)
  /-- VLDX (R476): Gathers elements from addresses aA plus element offsets in vB. -/
  | vldx (d : BitVec 5) (a : BitVec 4) (b : BitVec 5) (w : BitVec 2) (s : BitVec 2) (e : BitVec 1) (q : BitVec 3)
  /-- VSTX (R476): Scatters elements to addresses aA plus element offsets in vB. -/
  | vstx (d : BitVec 5) (a : BitVec 4) (b : BitVec 5) (w : BitVec 2) (s : BitVec 2) (e : BitVec 1) (q : BitVec 3)
  /-- LDA (R430): Acquire load at a scope, read at the home slice. -/
  | lda (d : BitVec 6) (a : BitVec 4) (s : BitVec 2) (w : BitVec 2) (z : BitVec 1) (c : BitVec 3) (o : BitVec 3)
  /-- STL (R459): Release store at a scope, written at the home slice. -/
  | stl (d : BitVec 6) (a : BitVec 4) (s : BitVec 2) (w : BitVec 2) (c : BitVec 3) (o : BitVec 3)
  /-- STL_R (R459): Range release store whose cache cleaning covers only the named range. -/
  | stlR (d : BitVec 6) (a : BitVec 4) (rp : BitVec 5) (w : BitVec 2) (c : BitVec 3)
  /-- ATOM (R383): Atomic read-modify-write returning the old value, with optional acquire and release. -/
  | atom (d : BitVec 5) (b : BitVec 5) (a : BitVec 3) (o : BitVec 4) (w : BitVec 1) (r : BitVec 2) (s : BitVec 3)
  /-- UPD (R465): Non-returning global update combined through update-only lines. -/
  | upd (b : BitVec 6) (a : BitVec 4) (o : BitVec 4) (w : BitVec 2)
  /-- CMNT (R388): Cleans, invalidates or both the lines of a range at L1, L2 or system level. -/
  | cmnt (o : BitVec 2) (v : BitVec 2) (a : BitVec 4) (l : BitVec 6)
  /-- ALLOC (R187): Allocates a block of class c, trapping ALLOCX when none is free. -/
  | alloc (d : BitVec 6) (c : BitVec 3)
  /-- ALLOC_NF (R187): Allocates a block of class c, clearing pN instead of trapping when none is free. -/
  | allocNf (d : BitVec 6) (p : BitVec 4) (c : BitVec 3)
  /-- FREE (R419): Returns the block at aN to class c as a release. -/
  | free (a : BitVec 4) (c : BitVec 3)
  /-- VADD (R467): Element-wise add. -/
  | vadd (d : BitVec 5) (a : BitVec 5) (b : BitVec 5) (e : BitVec 1) (q : BitVec 3) (t : BitVec 4)
  /-- VSUB (R467): Element-wise subtract. -/
  | vsub (d : BitVec 5) (a : BitVec 5) (b : BitVec 5) (e : BitVec 1) (q : BitVec 3) (t : BitVec 4)
  /-- VMUL (R467): Element-wise multiply. -/
  | vmul (d : BitVec 5) (a : BitVec 5) (b : BitVec 5) (e : BitVec 1) (q : BitVec 3) (t : BitVec 4)
  /-- VFMA (R467): Element-wise fused multiply-add into vD with one rounding. -/
  | vfma (d : BitVec 5) (a : BitVec 5) (b : BitVec 5) (e : BitVec 1) (q : BitVec 3) (t : BitVec 4)
  /-- VMIN (R467): Element-wise minimum. -/
  | vmin (d : BitVec 5) (a : BitVec 5) (b : BitVec 5) (e : BitVec 1) (q : BitVec 3) (t : BitVec 4)
  /-- VMAX (R467): Element-wise maximum. -/
  | vmax (d : BitVec 5) (a : BitVec 5) (b : BitVec 5) (e : BitVec 1) (q : BitVec 3) (t : BitVec 4)
  /-- VABS (R467): Element-wise absolute value. -/
  | vabs (d : BitVec 5) (a : BitVec 5) (e : BitVec 1) (q : BitVec 3) (t : BitVec 4)
  /-- VNEG (R467): Element-wise negation. -/
  | vneg (d : BitVec 5) (a : BitVec 5) (e : BitVec 1) (q : BitVec 3) (t : BitVec 4)
  /-- VCMP (R468): Element-wise compare writing a byte mask. -/
  | vcmp (c : BitVec 2) (d : BitVec 3) (a : BitVec 5) (b : BitVec 5) (e : BitVec 1) (q : BitVec 3) (t : BitVec 4)
  /-- VSEL (R468): Selects each element from vA or vB under a mask. -/
  | vsel (d : BitVec 5) (a : BitVec 5) (b : BitVec 5) (q : BitVec 3) (t : BitVec 4)
  /-- VAND (R468): Bitwise AND of vectors. -/
  | vand (d : BitVec 5) (a : BitVec 5) (b : BitVec 5) (e : BitVec 1) (q : BitVec 3) (t : BitVec 4)
  /-- VOR (R468): Bitwise OR of vectors. -/
  | vor (d : BitVec 5) (a : BitVec 5) (b : BitVec 5) (e : BitVec 1) (q : BitVec 3) (t : BitVec 4)
  /-- VXOR (R468): Bitwise XOR of vectors. -/
  | vxor (d : BitVec 5) (a : BitVec 5) (b : BitVec 5) (e : BitVec 1) (q : BitVec 3) (t : BitVec 4)
  /-- VSHL (R468): Per-element left shift. -/
  | vshl (d : BitVec 5) (a : BitVec 5) (b : BitVec 5) (e : BitVec 1) (q : BitVec 3) (t : BitVec 4)
  /-- VSHR (R468): Per-element right shift, arithmetic or logical by type. -/
  | vshr (d : BitVec 5) (a : BitVec 5) (b : BitVec 5) (e : BitVec 1) (q : BitVec 3) (t : BitVec 4)
  /-- VCVT (R472): Converts elements between types under R121. -/
  | vcvt (d : BitVec 5) (a : BitVec 5) (h : BitVec 1) (u : BitVec 4) (e : BitVec 1) (q : BitVec 3) (t : BitVec 4)
  /-- VQNT (R473): Quantises one block of values to an MX block with scale and status. -/
  | vqnt (d : BitVec 5) (a : BitVec 5) (f : BitVec 3) (q : BitVec 3) (t : BitVec 4)
  /-- VDQ (R473): Dequantises one MX block to values. -/
  | vdq (d : BitVec 5) (a : BitVec 5) (f : BitVec 3) (q : BitVec 3) (t : BitVec 4)
  /-- VFN (R474): Applies exp, recip, rsqrt, tanh, gelu or relu per element, correctly rounded. -/
  | vfn (d : BitVec 5) (a : BitVec 5) (f : BitVec 3) (e : BitVec 1) (q : BitVec 3) (t : BitVec 4)
  /-- VRED (R477): Tree reduction of the elements into element 0. -/
  | vred (d : BitVec 5) (a : BitVec 5) (o : BitVec 3) (e : BitVec 1) (q : BitVec 3) (t : BitVec 4)
  /-- VSCAN (R477): Inclusive prefix operation over the elements. -/
  | vscan (d : BitVec 5) (a : BitVec 5) (o : BitVec 3) (e : BitVec 1) (q : BitVec 3) (t : BitVec 4)
  /-- VPERM (R469): Permutes elements of vA by indices in vB. -/
  | vperm (d : BitVec 5) (a : BitVec 5) (b : BitVec 5) (e : BitVec 1) (q : BitVec 3) (w : BitVec 2)
  /-- VBCST (R469): Broadcasts sA to every element. -/
  | vbcst (d : BitVec 5) (a : BitVec 6) (w : BitVec 2)
  /-- VBCST_I (R469): Broadcasts a sign-extended 9-bit immediate to every element. -/
  | vbcstI (d : BitVec 5) (w : BitVec 2) (m : Imm 9)
  /-- VGET (R469): Moves one vector element to sD. -/
  | vget (d : BitVec 6) (a : BitVec 5) (w : BitVec 2) (i : BitVec 7) (u : BitVec 1)
  /-- VPUT (R469): Moves sA into one vector element. -/
  | vput (d : BitVec 5) (a : BitVec 6) (w : BitVec 2) (i : BitVec 7)
  /-- VDOT (R470): Sums pairwise products into wider accumulating elements. -/
  | vdot (d : BitVec 5) (a : BitVec 5) (b : BitVec 5) (e : BitVec 1) (q : BitVec 3) (t : BitVec 4)
  /-- VCMUL (R470): Complex element-wise product in CF32 or CBF16. -/
  | vcmul (d : BitVec 5) (a : BitVec 5) (b : BitVec 5) (e : BitVec 1) (q : BitVec 3) (t : BitVec 4)
  /-- QLOG (R452): Mask register logic. -/
  | qlog (d : BitVec 3) (a : BitVec 3) (b : BitVec 3) (o : BitVec 3)
  /-- XFMA (R480): Adds the exact product of sA and sB to the exact accumulator. -/
  | xfma (a : BitVec 6) (b : BitVec 6) (t : BitVec 1)
  /-- XADD (R480): Adds sA exactly to the exact accumulator. -/
  | xadd (a : BitVec 6) (t : BitVec 1)
  /-- XRND (R480): Rounds the exact accumulator once to FP64 or FP32 into sD. -/
  | xrnd (d : BitVec 6) (r : BitVec 3) (t : BitVec 1)
  /-- XSGN (R127): Writes the exact sign and zero test of the accumulator to two predicates. -/
  | xsgn (n : BitVec 4) (m : BitVec 4)
  /-- MMODE (R130): Sets the array mode and B source and clears the A latch. -/
  | mmode (m : BitVec 3) (b : BitVec 2)
  /-- MPUSH (R131): Loads the A latch from a stream. -/
  | mpush (n : BitVec 4)
  /-- MPUSH_V (R131): Loads the A latch from a vector register or pair. -/
  | mpushV (v : BitVec 5)
  /-- MSHIFT (R134): Performs one array beat at B-plane address G, optionally reloading A from a stream. -/
  | mshift (z : BitVec 1) (t : BitVec 1) (n : BitVec 4) (i : BitVec 1) (b : BitVec 8)
  /-- MACC_SET (R136): Writes the emerging foot into columns of an accumulator row. -/
  | maccSet (i : BitVec 1) (r : BitVec 10) (c : BitVec 4) (d : BitVec 4)
  /-- MACC_ADD (R136): Adds the emerging foot into columns of an accumulator row. -/
  | maccAdd (i : BitVec 1) (r : BitVec 10) (c : BitVec 4) (d : BitVec 4)
  /-- MACC_ARM_SET (R137): Arms automatic set accumulation over a row range. -/
  | maccArmSet (s : BitVec 6) (c : BitVec 4) (d : BitVec 4)
  /-- MACC_ARM_ADD (R137): Arms automatic add accumulation over a row range. -/
  | maccArmAdd (s : BitVec 6) (c : BitVec 4) (d : BitVec 4)
  /-- MDRAIN (R141): Reads an accumulator row out, converted, to a stream or vector group. -/
  | mdrain (f : BitVec 2) (k : BitVec 1) (d : BitVec 4) (i : BitVec 1) (r : BitVec 10)
  /-- MZERO (R140): Sets 1 to 64 accumulator rows to +0 and clears their poison. -/
  | mzero (i : BitVec 1) (r : BitVec 10) (n : BitVec 6)
  /-- MXCP_OUT (R142): Copies accumulator rows to memory. -/
  | mxcpOut (s : BitVec 2) (a : BitVec 4) (r : BitVec 10) (n : BitVec 6) (off : Option (BitVec 32))
  /-- MXCP_IN (R142): Copies accumulator rows from memory. -/
  | mxcpIn (s : BitVec 2) (a : BitVec 4) (r : BitVec 10) (n : BitVec 6) (off : Option (BitVec 32))
  /-- SCL_A (R138): Stages the 16 left scale latches from a vector. -/
  | sclA (s : BitVec 5)
  /-- SCL_B (R138): Stages half a segment's top scale latches from a vector. -/
  | sclB (s : BitVec 5) (e : BitVec 4) (h : BitVec 1)
  /-- SCLI_A (R138): Stages every left latch with an immediate code. -/
  | scliA (grp : BitVec 4) (c : Imm 8)
  /-- SCLI_B (R138): Stages a segment's top latches with an immediate code. -/
  | scliB (seg : BitVec 4) (c : Imm 8)
  /-- GSET (R421): Writes a stream register's BASE and LAYOUT and clears POS. -/
  | gset (d : BitVec 4) (b : BitVec 6) (l : BitVec 6)
  /-- GLDD (R421): Loads a stream register from 24 bytes of global memory. -/
  | gldd (d : BitVec 4) (a : BitVec 4)
  /-- GADV (R421): Advances a stream's position by sN units. -/
  | gadv (d : BitVec 4) (n : BitVec 6)
  /-- CPY (R394): Places a copy engine entry on copy queue Q. -/
  | cpy (q : BitVec 2) (x : BitVec 4) (c : BitVec 6)
  /-- CPY_NET (R394): Places a network send copy entry on copy queue Q, supervisor only. -/
  | cpyNet (q : BitVec 2) (x : BitVec 4) (c : BitVec 6)
  /-- DFT_FWD (R157): Enqueues a forward transform entry on the DFT queue. -/
  | dftFwd (p : BitVec 1) (d : BitVec 4) (s : BitVec 4) (c : BitVec 6)
  /-- DFT_INV (R157): Enqueues an inverse transform entry on the DFT queue. -/
  | dftInv (p : BitVec 1) (d : BitVec 4) (s : BitVec 4) (c : BitVec 6)
  /-- HREQ (R210): Places a handle request entry on the handle queue. -/
  | hreq (h : BitVec 6) (e : BitVec 6) (c : BitVec 6)
  /-- HREL (R215): Places a handle release entry on the handle queue. -/
  | hrel (h : BitVec 6)
  /-- HQRY (R214): Reads a handle record's word 0 as an interlocked result. -/
  | hqry (d : BitVec 6) (h : BitVec 6)
  /-- ROUTE (R230): Places a top-k routing entry on the router queue. -/
  | route (a : BitVec 4) (c : BitVec 6)
  /-- RCNT (R235): Places a routing counter snapshot entry on the router queue. -/
  | rcnt (a : BitVec 4) (b : BitVec 6) (c : BitVec 6)
  /-- PUB_OPEN (R245): Claims a tile's non-current payload slot, blocking on pins and stopping RESTART pinners. -/
  | pubOpen (d : BitVec 6) (a : BitVec 4)
  /-- PUB_CLOSE (R246): Publishes the open slot as the next version and re-fires consumers. -/
  | pubClose (a : BitVec 4) (l : BitVec 2)
  /-- SETTLE (R247): Ends refinement of a tile, dropping any open slot. -/
  | settle (a : BitVec 4)
  /-- SETTLE_PUB (R247): Publishes the open slot as the final version. -/
  | settlePub (a : BitVec 4) (l : BitVec 2)
  /-- PIN (R248): Pins a tile's current version and returns its state word. -/
  | pin (d : BitVec 6) (a : BitVec 4)
  /-- UNPIN (R463): Releases a pin taken by PIN. -/
  | unpin (v : BitVec 6) (a : BitVec 4)
  /-- SPAWN (R43): Starts a sibling rill in an idle context of the same core. -/
  | spawn (c : BitVec 2) (e : BitVec 6) (m : BitVec 4) (f : BitVec 6)
  /-- ENQ_C (R409): Claims a reach queue slot and copies a course header into it as a release. -/
  | enqC (l : BitVec 4) (q : BitVec 6)
  /-- ENQ_R (R269): Appends a tile record to a listed reach's ring. -/
  | enqR (p : BitVec 4) (l : BitVec 4) (r : BitVec 4)
  /-- ENQ_X (R269): Closes a listed reach's list. -/
  | enqX (l : BitVec 4)
  /-- DEPDEC (R403): Decrements the dependence counter of a reach named by immediate index. -/
  | depdec (i : BitVec 8)
  /-- DEPDEC_S (R403): Decrements the dependence counter of a reach named by sI. -/
  | depdecS (s : BitVec 6)
  /-- FLGET (R418): Takes one flume entry into a vector register. -/
  | flget (v : BitVec 5) (f : BitVec 4)
  /-- FLPUT (R418): Appends a vector register as one flume entry. -/
  | flput (v : BitVec 5) (f : BitVec 4)
  /-- FLWAIT (R418): Blocks until sN flume entries are present, then acquires. -/
  | flwait (f : BitVec 4) (n : BitVec 6)
  /-- FLDROP (R418): Discards up to sN flume entries. -/
  | fldrop (f : BitVec 4) (n : BitVec 6)
  /-- COLL (R390): Places a collective entry on the collective queue. -/
  | coll (x : BitVec 4) (c : BitVec 6)
  /-- TSTAMP (R462): Reads the package timestamp into sD. -/
  | tstamp (d : BitVec 6)
  /-- MON_ARM (R446): Arms a monitor unit, clearing MIN, MAX and bins. -/
  | monArm (u : BitVec 6) (a : BitVec 4)
  /-- MON_STOP (R446): Stops a monitor unit. -/
  | monStop (u : BitVec 6) (a : BitVec 4)
  /-- MON_SNAP (R447): Writes a 280-byte snapshot of a monitor unit to memory. -/
  | monSnap (u : BitVec 6) (a : BitVec 4)
  /-- IX_CPY (R425): Helper places a copy entry from a private descriptor. -/
  | ixCpy (t : BitVec 5) (s : BitVec 5) (d : BitVec 5)
  /-- IX_HREQ (R216): Helper places a handle request entry. -/
  | ixHreq (t : BitVec 5) (s : BitVec 5) (d : BitVec 5)
  /-- IX_HWAIT (R216): Helper stalls until a handle condition holds or cannot, returning word 0. -/
  | ixHwait (t : BitVec 5) (s : BitVec 5) (d : BitVec 5)
  /-- IX_QFENCE (R425): Helper places queue markers. -/
  | ixQfence (t : BitVec 5) (s : BitVec 5) (d : BitVec 5)
  /-- IX_FLGET (R425): Helper takes a flume entry to a tile store unit. -/
  | ixFlget (t : BitVec 5) (s : BitVec 5) (d : BitVec 5)
  /-- IX_FLPUT (R425): Helper appends a tile store unit to a flume. -/
  | ixFlput (t : BitVec 5) (s : BitVec 5) (d : BitVec 5)
  /-- IX_FLWAIT (R425): Helper stalls until enough flume entries are present. -/
  | ixFlwait (t : BitVec 5) (s : BitVec 5) (d : BitVec 5)
  /-- IX_FLDROP (R425): Helper discards flume entries. -/
  | ixFldrop (t : BitVec 5) (s : BitVec 5) (d : BitVec 5)
  /-- IDLE_RUN (R82): An idle-run code word issues n+1 empty bundles. -/
  | idleRun (n : BitVec 8)
  /-- BUDGET_EXHAUSTED (R271): A braid instance's budget counter reaches 0, or its grace after a deadline runs out and it is killed. -/
  | budgetExhausted (inst : Nat)
  /-- REACH_DEADLINE (R276): The timestamp reaches a reach's deadline and the scheduler cancels, settles, closes and signals its instances. -/
  | reachDeadline (part course reach : Nat)
  /-- EXTERN (R295): Hub firmware delivers an EXTERN trap to a named context. -/
  | externTrap (value : BitVec 64)
  /-- COURSE_START (R259): The scheduler takes a valid reach queue slot and starts its course, reading and checking reach records. -/
  | courseStart (part queue : Nat)
  /-- SELECT (R263): The distributor selects one ready reach and its iteration to place. -/
  | selectReach (part : Nat)
  /-- PLACE (R37): All rills of a braid instance are bound to contexts in one cycle, or a frozen one resumes. -/
  | placeInst (part : Nat)
  /-- DICT_LOAD (R85): A core's dictionary store loads a kernel's image before its rills become ready. -/
  | dictLoad (core part : Nat) (sigOk : Bool)
  /-- BPLANE_LOG_REPLAY (R299): The copy engine replays a resumed instance's B-plane log before its rills issue. -/
  | bplaneLogReplay (inst bcore : Nat)
  /-- FREEZE (R298): All rills of an instance are frozen and its state saved once started work drains. -/
  | freezeInst (inst : Nat)
  /-- TOKEN_AGE (R266): A ready reach waiting a full 10 µs gains one priority token. -/
  | tokenAge (part course reach : Nat)
  /-- INSTANCE_COMPLETE (R48): A braid instance completes once rills ended, helpers stopped and entries performed. -/
  | instanceComplete (inst : Nat)
  /-- REACH_COMPLETE (R281): A reach completes: race clock raised, record and signal written, successors decremented. -/
  | reachComplete (part course reach : Nat)
  /-- COURSE_COMPLETE (R281): A settled course writes its record, its signal, raises MSI-X and frees its tags. -/
  | courseComplete (part course : Nat)
  /-- PAGE_READ (R212): A flash page read completes and its page is written to DEST. -/
  | pageRead (handle page : Nat) (corrected : Option Nat)
  /-- PAGE_RECONSTRUCT (R224): A page that failed LDPC is rebuilt from its stripe. -/
  | pageReconstruct (handle page : Nat) (members : List (Option Nat))
  /-- DISTURB_LIMIT (R221): A block's read-disturb count reaches HH_DISTURB_LIM and it is queued for relocation. -/
  | disturbLimit (stack block : Nat)
  /-- RELOCATION_COPY (R221): The translation layer copies a block's valid pages to a fresh block. -/
  | relocationCopy (stack block : Nat) (corrected : List (Option Nat))
  /-- MAP_SWITCH (R221): The map for a relocated block switches in one atomic action. -/
  | mapSwitch (stack block : Nat)
  /-- BLOCK_ERASE (R221): The old block is erased once its started reads finish. -/
  | blockErase (stack block : Nat) (ok : Bool)
  /-- WEAR_LEVEL (R222): A block far below the highest erase count is relocated. -/
  | wearLevel (stack block : Nat)
  /-- HEALTH_COPY (R227): The flash health block is copied to each partition's health area every 1 ms or after a change. -/
  | healthCopy (stack : Nat)
  /-- LINEAR (R396): A LINEAR copy entry moves rows unit by unit. -/
  | copyLinear (queue : Nat)
  /-- BFILL (R397): A BFILL copy entry fills the issuing core's B-plane and logs the fill. -/
  | copyBfill (queue : Nat)
  /-- TOFLUME (R396): A TOFLUME copy entry appends source units to a flume. -/
  | copyToFlume (queue : Nat)
  /-- FROMFLUME (R396): A FROMFLUME copy entry takes flume entries into destination rows. -/
  | copyFromFlume (queue : Nat)
  /-- NETSEND (R398): A NETSEND entry sends rows as cells with metadata to another package. -/
  | netSend (queue : Nat)
  /-- ALL_REDUCE (R392): An all-reduce takes effect once every member's entry has arrived. -/
  | allReduce (part group : Nat) (seq : BitVec 64)
  /-- ALL_GATHER (R392): An all-gather takes effect once every member's entry has arrived. -/
  | allGather (part group : Nat) (seq : BitVec 64)
  /-- ALL_TO_ALL (R392): An all-to-all takes effect once every member's entry has arrived. -/
  | allToAll (part group : Nat) (seq : BitVec 64)
  /-- COLL_TIMEOUT (R393): A collective lacks members TIMEOUT ns after the first arrival and completes TIMEOUT. -/
  | collTimeout (part group : Nat) (seq : BitVec 64)
  /-- CELL_RECEIVE (R240): The receiving engine writes a cell's payload at its place. -/
  | cellReceive (cell : Cell)
  /-- METADATA_DELIVER (R240): A metadata entry is delivered to the receive ring once its cells are written. -/
  | metadataDeliver (part group sender : Nat) (msg : BitVec 32) (entry : BitVec 128)
  /-- MERGE_WINDOW_CLOSE (R182): An L2 miss's 64-cycle merge window closes. -/
  | mergeWindowClose (line : Nat)
  /-- L1_EVICT (R184): An L1 line is evicted, writing dirty bytes or merging update-only elements to L2. -/
  | l1Evict (core line : Nat)
  /-- L2_EVICT (R201): An L2 line is evicted and the slice's floor rises to its S stamp. -/
  | l2Evict (line : Nat)
  /-- CREATE (R309): Reads a partition descriptor, creates the partition, locks features and enqueues the boot course. -/
  | createPart (part port : Nat)
  /-- DESTROY (R309): Kills every instance of the partition and frees its clusters. -/
  | destroyPart (part port : Nat)
  /-- SWAPOUT (R301): Freezes the partition and saves its core state to shadow storage. -/
  | swapOut (part port : Nat)
  /-- SWAPIN (R301): Restores a swapped partition from shadow storage. -/
  | swapIn (part port : Nat)
  /-- REMAP (R171): Invalidates every TLB holding the partition's translations. -/
  | remapPart (part port : Nat)
  /-- INSTALL (R223): Writes model pages to flash from a host buffer. -/
  | installModel (part port : Nat) (pages : List FlashPage)
  /-- RESET (R309): Destroys a partition after an uncontained error and clears its owner. -/
  | resetPart (part port : Nat)
  /-- SETGRP (R391): Loads the partition's collective group table. -/
  | setGroups (part port : Nat)
  /-- FEAT_ACCEPT_WRITE (R312): A host write to FEAT_ACCEPT, kept per port until CREATE and ignored once locked. -/
  | featAcceptWrite (part port offset : Nat) (bytes : List (BitVec 8))
  /-- DISTURB_LIM_WRITE (R228): A host write to HH_DISTURB_LIM sets the relocation limit, at least 16. -/
  | disturbLimWrite (stack : Nat) (value : BitVec 32)
  /-- REGISTER_WRITE (R306): A host write to any other BAR0 register or mailbox word. -/
  | registerWrite (port offset : Nat) (bytes : List (BitVec 8))
  /-- POWER_UP (R315): Boot verifies firmware, trains HBM, starts flash and offers features. -/
  | powerUp (rom : List (BitVec 8)) (control : BootImage) (flash : List BootImage)
  /-- POWER_CHECK (R320): Every 100 µs firmware compares power and temperature and steps the arithmetic clock. -/
  | powerCheck (milliwatts : Nat) (milliC : List Nat)
  /-- THERMAL_TRIP (R320): A die reaches 110 °C and the package powers off. -/
  | thermalTrip (die : Nat)
  /-- LINK_FAIL (R13): A ring link fails and traffic is rerouted the other way. -/
  | linkFail (link : Nat)
  /-- CHANNEL_FAIL (R18): An HBM channel fails and is replaced by the spare, or the stack leaves service. -/
  | channelFail (stack : Nat)
  /-- RAIL_FAIL (R313): A network rail is taken out of service and its cells move to other rails. -/
  | railFail (rail : Nat)
  /-- CORE_ERROR (R303): A core error retires the core and freezes every instance on it. -/
  | coreError (core : Nat) (damaged : Bool)
  /-- SPARE_TAKEOVER (R15): A spare core takes over a retired core's logical number. -/
  | spareTakeover (core : Nat)
  /-- MON_SAMPLE (R318): A monitor unit takes a sample from its source. -/
  | monSample (source : BitVec 8) (watched : BitVec 16) (value : Nat)
  /-- ATTESTATION_REPORT (R316): Returns a signed attestation report over SPDM. -/
  | attestationReport (request : ReportRequest)
  /-- FIRMWARE_UPDATE (R319): A PLDM firmware update is staged for the next power-up. -/
  | firmwareUpdate (image : BootImage)
  /-- HELPER_INSTRUCTION (R46): The intake or outfall core executes one ordinary RV64IMAC instruction of its private program, including CSR reads and private-data loads and stores, or raises its exception. -/
  | helperInstruction (op : RvInstr) (len : BitVec 3)
  /-- CHANNEL_REPLACED (R18): Hub firmware finishes replacing a failed HBM channel with the spare and releases the held traffic of the stack, so that accesses issued during the hold complete. -/
  | channelReplaced (stack : Nat)
  /-- CELL_ACKNOWLEDGE (R398): The receiving engine's acknowledgement of every cell and metadata entry of a message arrives, and the sender writes the NETSEND completion, with REFUSED if the message was refused. -/
  | cellAcknowledge (message : Nat) (refused : Bool)
  /-- RET (R454): Branches to the code address in s62 with two delay slots. -/
  | ret
  /-- END (R407): Ends the executing rill; its context idles once its in-flight results land. -/
  | endRill
  /-- YIELD (R482): Switches to the next ready context, keeping the yielding one ready. -/
  | yield
  /-- RFT (R294): Returns from a trap per the frame's RESUME, replaying, skipping or redirecting. -/
  | rft
  /-- XCLR (R480): Clears the exact accumulator. -/
  | xclr
  /-- FOOT_EMERGE (R137): A beat's foot result emerges six owner bundles later and an armed tag applies it as a MACC. -/
  | footEmerge
  /-- MACC_OFF (R137): Disarms automatic accumulation. -/
  | maccOff
  /-- LATCH_ACTIVATE (R138): A staged scale latch write reaches the active copy three owner bundles later. -/
  | latchActivate
  /-- ECALL (R47): Ends the helper core's program. -/
  | ecall
  /-- EBREAK (R47): Stops the helper core and raises AUXFAULT. -/
  | ebreak
  /-- AUXFAULT (R47): A helper fault is delivered as a class A trap to a rill at its next bundle boundary. -/
  | auxfault
  /-- CONTEXT_SWITCH (R28): The core spends one cycle switching to the next ready context. -/
  | contextSwitch
  /-- RESULT_LAND (R55): A fixed-latency or interlocked result lands in its destination register. -/
  | resultLand
  /-- BUDGET (R295): BUDGET is delivered as a class A trap to each unended rill at its next bundle boundary. -/
  | budgetTrap
  /-- DEADLINE (R295): DEADLINE is delivered as a class A trap to each running rill at its next bundle boundary. -/
  | deadlineTrap
  /-- HREQ_ENTRY (R210): A handle request entry is performed: new request, merge or drop. -/
  | hreqEntry
  /-- HREL_ENTRY (R215): A handle release entry cancels unstarted reads and makes the handle EMPTY. -/
  | hrelEntry
  /-- DFT_FWD_ENTRY (R158): A forward transform entry is performed and its completion written. -/
  | dftFwdEntry
  /-- DFT_INV_ENTRY (R158): An inverse transform entry is performed and its completion written. -/
  | dftInvEntry
  /-- ROUTE_ENTRY (R232): A ROUTE entry chooses each token's experts and writes route records. -/
  | routeEntry
  /-- RCNT_ENTRY (R236): An RCNT entry snapshots and clears a routing counter bank atomically. -/
  | rcntEntry
  /-- POWER_DOWN (R321): The main rails drop and all volatile state is lost. -/
  | powerDown
  /-- UNSUPPORTED_PACKET (R313): A received packet of an unsupported Ultra Ethernet service is dropped and counted in the hub's health log. -/
  | unsupportedPacket
  deriving DecidableEq, Repr

end Sys2Proof
end

