-- ==== Sys2Proof/Machine/State.lean ====
section
/-! DEFINITION. The state of the package as plain data, and its value at reset (15_system R315, R321).
Everything the spec gives the machine has a field here; bytes of every tier are in the one list `mem` (keys in
Machine/Memory.lean). Tables list only entries that differ from their default. -/
namespace Sys2Proof.Machine

/-- Why a step stops for good. Raised by `step` alone; safe (the spec describes no step without power). -/
inductive Fault where
  /-- The package has no power and nothing on its input list restores it (R320, R321). Raised by step; safe. -/
  | poweredOff
  deriving DecidableEq, Repr

/-- Why an instruction has no meaning here. -/
inductive Refusal where
  /-- Raised by an arm of exec whose meaning is not written; safe. No arm is left that raises it. -/
  | notModelled (mnemonic : String)
  deriving DecidableEq, Repr

/-- A table from numbers to data; a number not listed has the table's default. -/
abbrev Tab (α : Type) := List (Nat × α)

/-! ## Registers of a context (03_core R71 to R79) -/

/-- A stream register (R73): BASE, LAYOUT, and POS with ROW[63:32] and COL[31:0]. -/
structure Stream where
  base : Word
  layout : Word
  pos : Word
  deriving DecidableEq, Repr

/-- Context states (02_execution R27). -/
inductive CtxState where
  | idle | reserved | ready | blocked | frozen
  deriving DecidableEq, Repr

/-- What an in-flight result lands in: the KINDs of R288 in their order. -/
inductive ResKind where
  | sReg | aReg | pReg | vReg | qReg | gReg | gPos | sysReg | xaccOp | flagsOnly | gBase
  deriving DecidableEq, Repr

/-- A result that has not landed (R55, R288). `land` is its landing cycle; in a context that has not presented a bundle since
it resumed, the cycles still to go. -/
structure InFlight where
  land : Nat
  seqNo : Nat
  slot : Nat
  kind : ResKind
  reg : Nat
  flags : BitVec 8
  xtra : Word
  value : Line
  interlocked : Bool
  deriving DecidableEq, Repr

/-- One level of the loop sequencer (R66, R290). `total` is the trip count read at the LOOP's issue. -/
structure LoopLevel where
  total : Nat
  left : Nat
  first : Nat
  last : Nat
  modulo : Bool
  handler : Bool
  stages : Nat
  ii : Nat
  inc0 : BitVec 4
  inc1 : BitVec 4
  amt0 : BitVec 32
  amt1 : BitVec 32
  ldi : Nat
  pass : Nat
  deriving DecidableEq, Repr

/-- A bundle as fetched, with its code address and that of the bundle after it (R66 replay buffer). -/
structure Fetched where
  addr : Word
  bundle : Bundle
  isIdle : Bool
  next : Option Word
  deriving DecidableEq, Repr

/-- The loop sequencer of a context; no level active: no loop (R66 to R70). -/
structure LoopSeq where
  start : Word
  offset : Nat
  bodyLen : Nat
  levels : List LoopLevel
  replay : Tab Fetched
  deriving DecidableEq, Repr

/-- Why a context is blocked (R29). `seen` says that a write which ends the wait has been performed (R245, R448). -/
inductive BlockReason where
  | queue (q : Nat)
  | qfence (mask : Nat)
  | flumeRoom (core off : Nat)
  | flumeEntries (core off need : Nat)
  | handle (h : Nat) (mask : BitVec 2)
  | version (header ver : Nat)
  | memWord (addr : Nat) (value : Word) (seen : Bool)
  | viewWord (part aperture off : Nat) (value : Word) (seen : Bool)
  | viewList (part aperture off : Nat)
  | barrier (mask : BitVec 16)
  | pinned (header slot : Nat) (count : BitVec 8) (seen : Bool)
  | ring (desc : Nat)
  | list (desc : Nat)
  deriving DecidableEq, Repr

/-- A class A event held for a context (R293, R295). -/
inductive HeldEvent where
  | budget
  | deadline
  | aux (outfall : Bool) (mcause mtval mepc : Word)
  | external (value : Word)
  deriving DecidableEq, Repr

/-- What RFT left to issue in place of the bundle at PC (R294): the replay of one slot or an empty micro-bundle, after which the
bundle after PC follows; or the bundle at PC as an empty one. -/
inductive Micro where
  | slot (n : Nat) (hdr : Word) (w : BitVec 32) (ext : Option (BitVec 32)) (ops : List Line)
  | empty
  | skip
  deriving DecidableEq, Repr

/-- An in-flight entry of the frame as it was written (R288): whether the faulting bundle left it, and its slot or its place among the others. -/
structure EntryMark where
  kind : ResKind
  reg : Nat
  rem : Nat
  mine : Bool
  order : Nat
  deriving DecidableEq, Repr

/-- A barrier episode that has completed for a rill whose BARR at `pc` has yet to issue (R40). -/
structure BarrierPass where
  pc : Word
  mask : BitVec 16
  clock : BitVec 32
  deriving DecidableEq, Repr

/-- A hardware context (R27, R71). `trapBr`, `trapTgt`, `trapLevels`, `trapSlots`, `trapNext`, `trapMicro` and `trapStalled` keep of the last trap entry
what its frame has no field for; `trapCut` says that RFT found no level where the entry had some. -/
structure Ctx where
  st : CtxState
  inst : Nat
  rill : Nat
  s : Vector Word 64
  a : Vector Word 16
  p : BitVec 16
  v : Vector Line 32
  q : Vector (BitVec 128) 8
  g : Vector Stream 16
  xacc : BitVec 4352
  xclass : BitVec 2
  pc : Word
  brPend : Bool
  brTgt : Word
  brFrom : Word
  dsRem : Nat
  tgtFrom : Option Word
  loop : LoopSeq
  kstat : Word
  ktsoa : Word
  kframe : Word
  kvec : Word
  kdead : Word
  kest : Word
  ktok : Word
  krnd : Word
  kclk : BitVec 32
  kid : Word
  gen : BitVec 32
  rser : BitVec 24
  inflight : List InFlight
  resumed : Bool
  stalled : Bool
  notBefore : Nat
  readyAt : Nat
  blockedAt : Nat
  block : Option BlockReason
  woken : Option (BitVec 32)
  hres : Option (Nat × Word)
  barrDead : Bool
  barrGo : List BarrierPass
  held : List HeldEvent
  readS : Nat
  relPending : Bool
  hqryHc : Nat
  micro : Option Micro
  trapLevels : List LoopLevel
  trapSlots : List EntryMark
  trapBr : Word
  trapTgt : Option Word
  trapCut : Bool
  trapNext : Word
  trapMicro : Option Micro
  trapStalled : Bool
  deriving DecidableEq, Repr

/-! ## The matrix array (06_matrix) -/

/-- What an armed MSHIFT carries to its foot (R137). -/
structure FootTag where
  row : Nat
  add : Bool
  c0 : Nat
  c1 : Nat
  deriving DecidableEq, Repr

/-- A beat in the foot pipeline: owner bundles still to go, 256 FP32 results, poison, tag (R134, R135). -/
structure Foot where
  left : Nat
  result : BitVec 8192
  poison : Bool
  tag : Option FootTag
  deriving DecidableEq, Repr

/-- The arm state (R137). -/
structure Arm where
  add : Bool
  first : Nat
  count : Nat
  ptr : Nat
  c0 : Nat
  c1 : Nat
  deriving DecidableEq, Repr

/-- A staged latch write and the owner bundles until it is active (R138). -/
structure LatchWrite where
  left : Nat
  top : Bool
  seg : Nat
  lo : Nat
  codes : List (BitVec 8)
  deriving DecidableEq, Repr

/-- The array's control state; the accumulator rows and the B-plane are in memory (R147). -/
structure Arr where
  mode : BitVec 3
  bsrc : BitVec 2
  aLatch : BitVec 2048
  aPoison : Bool
  leftL : BitVec 128
  topT : Vector (BitVec 2048) 16
  staged : List LatchWrite
  feet : List Foot
  arm : Option Arm
  nanInf : BitVec 16
  sat : BitVec 16
  rowPoison : BitVec 1024
  lastDrain : Option Nat
  copyUntil : Nat
  deriving DecidableEq, Repr

/-! ## Race stamps, caches, translations -/

/-- A W or RD stamp (R201). -/
structure Stamp where
  rser : BitVec 24
  clock : BitVec 32
  mask : BitVec 16
  deriving DecidableEq, Repr

/-- The stamps of one 128-byte line; `part` is the partition whose floor it took (R201). -/
structure LineStamps where
  w : Stamp
  rd : Stamp
  s : BitVec 32
  part : Nat
  deriving DecidableEq, Repr

/-- An L1 line: physical line number, bytes, dirty mask (R174), and the bytes it holds: an acquire leaves a dirty line its dirty ones alone (R175,
R191). -/
structure L1Line where
  line : Nat
  data : Line
  dirty : BitVec 128
  valid : BitVec 128
  deriving DecidableEq, Repr

/-- An update-only line (R183). -/
structure UpdLine where
  line : Nat
  op : BitVec 4
  width : BitVec 2
  data : Line
  touched : BitVec 128
  deriving DecidableEq, Repr

/-- A cached translation: the leaf entry and the virtual base and size of its page (R171). -/
structure TlbEntry where
  part : Nat
  vbase : Nat
  size : Nat
  pte : Word
  deriving DecidableEq, Repr

/-- An open merge window (R182): the time it closes and the requests that joined. -/
structure MergeWindow where
  line : Nat
  closeNs : Nat
  joined : Nat
  deriving DecidableEq, Repr

/-! ## Engine queues (09_ordering R195 to R199) -/

/-- What a queue entry asks for. -/
inductive EntryKind where
  | copy (net : Bool) (desc : Word)
  | ixCopy (desc : BitVec 1024)
  | dft (inverse : Bool) (tile : Bool) (dst src : Word)
  | hreq (handle ext dest ctl : Word)
  | hrel (handle : Word)
  | route (desc : Word)
  | rcnt (dst : Word) (bank : Nat)
  | coll (desc : Word)
  | marker (id : Nat) (mask : Nat)
  deriving DecidableEq, Repr

/-- On whose behalf an access is made (R198): rill, serial, clock and mode at issue, or a helper core's. -/
structure Issuer where
  part : Nat
  inst : Nat
  core : Nat
  ctx : Nat
  rser : BitVec 24
  clock : BitVec 32
  super : Bool
  helper : Bool
  kdead : Word
  deriving DecidableEq, Repr

/-! ### Page reads (10_streaming R209, R212, R224) -/

/-- Where a page read stands. -/
inductive PageState where
  | queued | started | failed
  deriving DecidableEq, Repr

/-- The read of another page of a stripe for a reconstruction: its stack and, once started, when it is due and from which block (R221, R224). -/
structure MemberRead where
  stack : Nat
  dueNs : Option Nat
  block : Nat
  deriving DecidableEq, Repr

/-- A page read: its page, queueing number and, once started, when it is due and from which block; once decoding has failed, the reads of its
stripe. A handle's names the page by its index in the extent, a copy entry's by its logical number. -/
structure PageRead where
  page : Nat
  order : Nat
  st : PageState
  dueNs : Nat
  block : Nat
  members : List MemberRead
  deriving DecidableEq, Repr

/-- The flash pages that a copy entry or a replay has read, each as it was then (R223), and the one that it waits for (R399). A lost page has no bytes. -/
structure PageHand where
  pages : List (Nat × List (BitVec 8))
  read : Option PageRead
  deriving DecidableEq, Repr

/-- Nothing read yet. -/
def PageHand.none : PageHand := ⟨[], Option.none⟩

/-- A queue entry. `desc` is what was read once at its start, `units` counts what it has moved or performed, `page` has the flash pages it
reads, `hold` what it has computed and not yet written; `net` is the message a NETSEND waits for. -/
structure Entry where
  kind : EntryKind
  cw : Word
  who : Issuer
  started : Bool
  desc : Option (BitVec 1024)
  units : Nat
  page : PageHand
  hold : List Word
  net : Option Nat
  deriving DecidableEq, Repr

/-! ## Helper cores (02_execution R45 to R47) -/

/-- What a helper core is doing. -/
inductive HelperState where
  | halted | running | ended | faulted
  deriving DecidableEq, Repr

/-- A helper core; its stores are in memory. `waiting` is the handle and mask of its ix.hwait, `found` what a transition ended that wait with (R216). -/
structure Helper where
  st : HelperState
  inst : Nat
  x : Vector Word 32
  pc : Word
  instret : Word
  reserved : Option (Nat × Nat)
  waiting : Option (Nat × BitVec 2)
  found : Option Word
  fault : Option (Word × Word × Word)
  deriving DecidableEq, Repr

/-! ## Dictionary store (04_encoding R85, 23_ref R431) -/

/-- A dictionary entry: a bundle, or a poisoned one that takes CODEECC (reason 0) or FETCH with its reason (R86, R484). -/
inductive DictEntry where
  | ok (b : Bundle)
  | bad (reason : Nat)
  deriving DecidableEq, Repr

/-- A loaded dictionary image with its loop table; a descriptor without a value is poisoned. -/
structure DictStore where
  part : Nat
  addr : Word
  bundles : List DictEntry
  loops : List (Option (BitVec 1024))
  deriving DecidableEq, Repr

/-! ## Compute cores -/

/-- A compute core under its logical number (01_package R14, R16). -/
structure Core where
  enabled : Bool
  spareDue : Option Nat
  cur : Nat
  switching : Option Nat
  stallUntil : Nat
  divUntil : Nat
  lastXfma : Option Nat
  ctxs : Vector Ctx 4
  arr : Arr
  dict : Option DictStore
  swzTags : Tab (BitVec 4)
  domTags : Tab (BitVec 2)
  stamps : Tab LineStamps
  l1 : List L1Line
  upd : List UpdLine
  tlb : List TlbEntry
  queues : Vector (List Entry) 8
  intake : Helper
  outfall : Helper
  monWord : Nat
  deriving DecidableEq, Repr

/-! ## Braid instances (02_execution, 14_traps) -/

/-- A rill of an instance (R25): its context, and its final clock once it has ended. -/
structure Rill where
  core : Nat
  ctx : Nat
  ended : Bool
  finalClock : BitVec 32
  gotBudget : Bool
  deriving DecidableEq, Repr

/-- A recorded B-plane fill (R299): source, layout, order, columns and units, how many units it wrote, column by column, and the mode it was
issued in. -/
structure Fill where
  src : Word
  layout : Word
  rowMaj : Bool
  c0 : Nat
  c1 : Nat
  u0 : Nat
  nu : Nat
  count : Nat
  super : Bool
  deriving DecidableEq, Repr

/-- The fills of one braid core and the (column, unit) pairs whose fill was dropped. -/
structure FillLog where
  fills : List Fill
  unrecorded : List (Nat × Nat)
  deriving DecidableEq, Repr

/-- An open barrier episode (R40). -/
structure Episode where
  mask : BitVec 16
  joined : List Nat
  opened : Nat
  deriving DecidableEq, Repr

/-- A pin (R248): header line address and slot. -/
structure Pin where
  header : Nat
  slot : Nat
  deriving DecidableEq, Repr

/-- What is saved of one braid core when its instance freezes (R298); `poison` are the uncorrectable units of its saved stores. -/
structure SavedCore where
  tile : List Host.Cell
  swzTags : Tab (BitVec 4)
  domTags : Tab (BitVec 2)
  stamps : Tab LineStamps
  arr : Arr
  acc : List Host.Cell
  intake : Helper
  outfall : Helper
  priv : List Host.Cell
  queues : Vector (List Entry) 8
  poison : List Nat
  deriving DecidableEq, Repr

/-- The saved state of a frozen instance: contexts in rill order, their frames (empty where no handler ran), cores, checkpoint slot; and,
for an instance that goes back to a kept checkpoint, its rills, episodes, fill logs and budget counter as they were. -/
structure Saved where
  ctxs : List Ctx
  rills : List Rill
  episodes : List Episode
  logs : List FillLog
  counter : Nat
  cores : List SavedCore
  frames : List (List (BitVec 8))
  slot : Option Nat
  inShadow : Bool
  deriving DecidableEq, Repr

/-- Life of a braid instance. -/
inductive InstState where
  | loading | running | freezing | frozen | killed | completed
  deriving DecidableEq, Repr

/-- A braid instance (R25). `id` is the model's own number for it; `engClock` is the largest clock that a queue entry of it reached (R204), and `replays`
has, by braid core, the flash pages that the replay of a B-plane log has read and the one that it waits for (R299). -/
structure Inst where
  id : Nat
  part : Nat
  course : Nat
  reach : Nat
  number : BitVec 32
  iter : Nat
  refire : Bool
  st : InstState
  cores : List Nat
  rills : List Rill
  counter : Nat
  lastHeld : Nat
  budgetSent : Bool
  grace : Bool
  published : Bool
  follow : Bool
  drained : Bool
  pins : List Pin
  episodes : List Episode
  owners : List (Option Nat)
  streams : Vector Stream 16
  logs : List FillLog
  intake : Bool
  outfall : Bool
  placedNs : Nat
  tokens : Nat
  engClock : Nat
  replays : Tab PageHand
  saved : Option Saved
  keep : Option Saved
  deriving DecidableEq, Repr

/-! ## Courses and reaches (13_scheduler) -/

/-- Counts of a completion record (R278). -/
structure RecordCounts where
  nfault : Nat
  fsrc : Nat
  fcode : Nat
  faultNs : Nat
  startNs : Option Nat
  inst : Nat
  budgets : Nat
  preempt : Nat
  versions : Nat
  nskip : Nat
  nkill : Nat
  skipped : Bool
  rejected : Bool
  depuf : Bool
  deadline : Bool
  redq : Bool
  deriving DecidableEq, Repr

/-- A consumer registration of a reach: its tile header, index there, policy and iteration (R244, R260). -/
structure TileReg where
  header : Nat
  index : Nat
  policy : Nat
  iter : Nat
  deriving DecidableEq, Repr

/-- A reach of a started course. `record`, `kernel` and `list` are the record, the kernel header and the list descriptor as read once (R259, R268,
R484); `retired` is RETIRED, which only the scheduler writes. -/
structure Reach where
  tag : Nat
  record : BitVec 2048
  kernel : BitVec 2048
  unreadable : Bool
  complete : Bool
  deadline : Nat
  counter : Nat
  tokens : Nat
  waitNs : Nat
  deferred : Bool
  passed : Bool
  regs : List TileReg
  nextIter : Nat
  reruns : List Nat
  done : List Nat
  nextInst : Nat
  list : BitVec 512
  retired : BitVec 32
  counts : RecordCounts
  deriving DecidableEq, Repr

/-- A started course (R255, R258). `header` is its header as read once. -/
structure Course where
  seq : Nat
  queue : Nat
  header : BitVec 1024
  startNs : Nat
  reaches : List Reach
  whole : Bool
  deriving DecidableEq, Repr

/-- What a selection chose, the reach's tokens and deadline as they stood then, and the instance whose end or freeze its binding waits for (R263, R265,
R274). -/
structure Selection where
  course : Nat
  reach : Nat
  tokens : Nat
  deadline : Nat
  victim : Option Nat
  deriving DecidableEq, Repr

/-- A collective group entry as loaded (R391). -/
abbrev GroupEntry := BitVec 2048

/-- A partition control block and, while the partition exists, what its descriptor gives (R308, R310). `late` are tiles settled at a deadline (R253),
`images` the dictionary images it has loaded with the verdicts on their signatures (R315). -/
structure Partition where
  owner : Option Nat
  live : Bool
  stopped : Bool
  sts : Word
  busy : Bool
  daddr : Vector Word 2
  featImg : Vector (BitVec 256) 2
  feat : BitVec 256
  desc : BitVec 4096
  rserNext : Nat
  raceClock : Nat
  seqNext : Nat
  lastQueue : Nat
  cleared : List Nat
  courses : List Course
  selected : Option Selection
  banks : Tab (BitVec 32)
  groups : List GroupEntry
  swapped : Bool
  ckUsed : List Nat
  late : List Nat
  images : List (Word × Bool)
  deriving DecidableEq, Repr

/-! ## Handles and flash (10_streaming) -/

/-- A handle record (R208) with what the engine keeps beside it (R209); `cancelled` are the planes of which an HREL has cancelled a read (R215). -/
structure HandleRec where
  deadline : Word
  dest : Word
  split : BitVec 16
  npage : BitVec 16
  lpage : BitVec 32
  lat : BitVec 16
  fault : BitVec 8
  waiters : BitVec 10
  prio : BitVec 4
  part : BitVec 2
  ord : BitVec 2
  req : BitVec 2
  arrived : BitVec 2
  state : BitVec 3
  hc : Nat
  maxClock : Option Nat
  startNs : Nat
  who : Issuer
  reads : List PageRead
  releasing : Bool
  cancelled : BitVec 2
  deriving DecidableEq, Repr

/-- Life of a flash block. -/
inductive BlockState where
  | mapped | queued | copied | switched | erased | bad
  deriving DecidableEq, Repr

/-- A physical block (R220 to R222): its counts, its state, where a relocation copies it, reconstructions with the reads they
happened at. -/
structure Block where
  st : BlockState
  disturb : Nat
  pec : Nat
  reads : Nat
  lastRecon : Option Nat
  target : Nat
  retire : Bool
  byDisturb : Bool
  deriving DecidableEq, Repr

/-- A flash stack with its health registers (R227, R228). `map` gives a logical block's physical block where they differ. -/
structure Stack where
  inService : Bool
  map : Tab Nat
  blocks : Tab Block
  fresh : Nat
  disturbReloc : Nat
  totalReloc : Nat
  retired : Nat
  spare : Nat
  recon : Nat
  lost : Nat
  lim : BitVec 32
  rbe : Tab Nat
  seq : Nat
  copyDue : Nat
  deriving DecidableEq, Repr

/-! ## Hub, hosts, network -/

/-- A monitor unit (R317), with the samples it has taken in the latest cycle in which it took one (R447). -/
structure Monitor where
  cfg : Word
  min : Word
  max : Word
  hist : Vector Word 32
  takenAt : Nat
  taken : List Nat
  deriving DecidableEq, Repr

/-- An arrived collective entry (R392). `limit` is when it times out (R393). -/
structure CollArrival where
  part : Nat
  group : Nat
  seq : Word
  member : Nat
  desc : BitVec 512
  ns : Nat
  limit : Nat
  entry : Option Entry
  remote : List (BitVec 8)
  deriving DecidableEq, Repr

/-- Bytes of a collective on their way to a member in another package (R314). -/
structure CollSend where
  id : Nat
  endpoint : BitVec 32
  group : Nat
  seq : Word
  member : Nat
  bytes : List (BitVec 8)
  deriving DecidableEq, Repr

/-- A collective performed here whose completions wait for the delivery of these sends (R314, R393). -/
structure CollDone where
  members : List CollArrival
  sends : List Nat
  deriving DecidableEq, Repr

/-- A packet: up to eight cells of one message on one rail (R313). -/
structure Packet where
  rail : Nat
  cells : List Nat
  deriving DecidableEq, Repr

/-- A message sent and not yet acknowledged (R398). -/
structure SentMessage where
  id : Nat
  entry : Entry
  queue : Nat
  units : Nat
  cells : List (BitVec 2176)
  metas : List (BitVec 128)
  packets : List Packet
  endpoint : BitVec 32
  deriving DecidableEq, Repr

/-- A message being received (R240, R398): where it goes once its first metadata entry is known, which cells are written, which
are held, and the metadata entries not yet delivered. -/
structure RxMessage where
  part : Nat
  group : Nat
  sender : Nat
  msg : BitVec 32
  base : Option Nat
  refused : Bool
  rowBytes : Nat
  written : List Nat
  heldCells : List Cell
  delivered : Nat
  entries : List (BitVec 128)
  deriving DecidableEq, Repr

/-- An entry of a port's MSI-X table (R305). -/
structure MsixEntry where
  addr : Word
  data : BitVec 32
  masked : Bool
  deriving DecidableEq, Repr

/-- The IDE keys of a port: the link's and the selective stream's (R305). -/
structure IdeKeys where
  link : Option (List (BitVec 8))
  stream : Option (List (BitVec 8))
  deriving DecidableEq, Repr

/-- What the package's sensors measure: milliwatts, coolant inlet and die temperatures in m°C (R319, R320). -/
structure Sensors where
  milliwatts : Nat
  coolant : Nat
  dies : Vector Nat 4
  deriving DecidableEq, Repr

/-- What the hub firmware's health log records. -/
inductive HealthEntry where
  | linkLost (link : Nat)
  | channelLost (stack : Nat)
  | railLost (rail : Nat)
  | unsupportedPacket
  | recordSkipped (addr : Nat)
  deriving DecidableEq, Repr

/-- What PLDM reads (R319): package power, coolant inlet, a die's temperature, the arithmetic clock, a health register by stack and offset. -/
inductive PldmSensor where
  | power
  | coolant
  | die (n : Nat)
  | clock
  | health (stack offset : Nat)
  deriving DecidableEq, Repr

/-- What the outside world does: a step of the table; a host's write of its own memory; another package's member of a collective arrives, bytes of one
have been delivered there, or one has failed there; a host writes its MSI-X table; SPDM sets a port's IDE keys; the sensors measure; PLDM reads a
sensor over MCTP. -/
inductive Input where
  | event (core ctx : Nat) (i : Instr)
  | hostWrite (addr : Nat) (bytes : List (BitVec 8))
  | remoteMember (arrival : CollArrival)
  | collDelivered (send : Nat)
  | collFailed (part group : Nat) (seq : Word) (code : Nat)
  | msixWrite (port vector : Nat) (entry : MsixEntry)
  | ideSet (port : Nat) (keys : IdeKeys)
  | measured (sensors : Sensors)
  | pldmRead (sensor : PldmSensor)
  deriving DecidableEq, Repr

/-- A step to perform next, with the core and context it acts for. -/
structure Todo where
  core : Nat
  ctx : Nat
  instr : Instr
  deriving DecidableEq, Repr

/-- An agent that acts in the current cycle; `rill` is a context that presents its bundle whether it is the current one or not (R41). -/
inductive Agent where
  | core (n : Nat)
  | rill (core ctx : Nat)
  | intake (n : Nat)
  | outfall (n : Nat)
  deriving DecidableEq, Repr

/-- A slot trap taken in the bundle in execution: cause, frame fields, slot word and replay operands (R284, R289). -/
structure TrapRec where
  slot : Nat
  code : Nat
  addr : Word
  info : Word
  info2 : Word
  sub : Nat
  word : BitVec 32
  ext : Option (BitVec 32)
  ops : List Line
  deriving DecidableEq, Repr

/-- The issue context of the step in execution (R54): for whom it acts and what its slot has; `bundle` says that other slots of the bundle are
still to complete, so that a slot's trap waits for them (R283). `heldRead` and `heldWrite` say that the step read or wrote past L2 at a stack whose traffic
is held (R18), or wrote a line whose merge window was open (R182); `opened` names the lines whose windows the step itself opened. `waits` says that the
context blocked in this step (R29). -/
structure Focus where
  core : Nat
  ctx : Nat
  outfall : Bool
  slot : Nat
  slotWord : BitVec 32
  ext : Option (BitVec 32)
  issueAt : Nat
  seqNo : Nat
  chk : Bool
  super : Bool
  admitted : Bool
  direct : Bool
  replay : Option (List Line)
  uses : Tab Nat
  hdr : Word
  trap : Option TrapRec
  bundle : Bool
  ending : Bool
  heldRead : Bool
  heldWrite : Bool
  opened : List Nat
  waits : Bool
  branch : Option Word
  redirect : Option Word
  nextAddr : Option Word
  deriving DecidableEq, Repr

/-- Everything but the bytes of memory. -/
structure Chip where
  power : Bool
  booted : Bool
  cycle : Nat
  ns : Nat
  nsRest : Nat
  mhz : Nat
  coolNs : Nat
  powerDue : Nat
  inputs : List (Nat × Input)
  pending : List Todo
  postponed : List Todo
  swept : Bool
  turn : List Agent
  focus : Focus
  freeNext : Nat
  issueNo : Nat
  instNext : Nat
  markerNext : Nat
  readNext : Nat
  poison : List Nat
  hostL2 : List L1Line
  l2 : Tab LineStamps
  floors : Tab (BitVec 32)
  windows : List MergeWindow
  dieTlb : Vector (List TlbEntry) 4
  cores : Tab Core
  sparesUsed : Vector Nat 4
  parts : Vector Partition 4
  insts : List Inst
  handles : Tab HandleRec
  flash : Vector Stack 8
  channelFails : Vector Nat 8
  stackHeld : Vector (Option Nat) 8
  linksUp : Vector Bool 4
  railsUp : Vector Bool 4
  monitors : Vector Monitor 16
  msi : List (Nat × Nat)
  msix : Vector (Vector MsixEntry 64) 2
  ide : Vector IdeKeys 2
  doe : Vector (List (List (BitVec 8))) 2
  mctp : List (List (BitVec 8))
  sensors : Sensors
  commands : List Instr
  health : List HealthEntry
  msgNext : Tab Nat
  sent : List SentMessage
  sentNext : Nat
  rx : List RxMessage
  coll : List CollArrival
  collSent : List CollSend
  collDone : List CollDone
  measures : List (BitVec 512)
  fuseVersion : Nat
  stagedImage : Option BootImage
  deriving DecidableEq, Repr

/-- The state of the package: the machine and its memory, a list of bytes by rising key with no entry equal to 0, which is what an
unlisted byte reads as. -/
structure State extends Chip where
  mem : List Host.Cell
  deriving DecidableEq, Repr

/-! ## Values at reset -/

/-- An all-zero stream register (R73). -/
def Stream.zero : Stream := ⟨0, 0, 0⟩

/-- No loop active. -/
def LoopSeq.none : LoopSeq := ⟨0, 0, 0, [], []⟩

/-- A context that holds no rill; the registers are zero, p0 reads true (log entry 5). -/
def Ctx.reset : Ctx where
  st := .idle
  inst := 0
  rill := 0
  s := .replicate 64 0
  a := .replicate 16 0
  p := 1
  v := .replicate 32 0
  q := .replicate 8 0
  g := .replicate 16 .zero
  xacc := 0
  xclass := 0
  pc := 0
  brPend := false
  brTgt := 0
  brFrom := 0
  dsRem := 0
  tgtFrom := none
  loop := .none
  kstat := 0
  ktsoa := 0
  kframe := 0
  kvec := 0
  kdead := 0
  kest := 0
  ktok := 0
  krnd := 0
  kclk := 0
  kid := 0
  gen := 0
  rser := 0
  inflight := []
  resumed := false
  stalled := false
  notBefore := 0
  readyAt := 0
  blockedAt := 0
  block := none
  woken := none
  hres := none
  barrDead := false
  barrGo := []
  held := []
  readS := 0
  relPending := false
  hqryHc := 0
  micro := none
  trapLevels := []
  trapSlots := []
  trapBr := 0
  trapTgt := none
  trapCut := false
  trapNext := 0
  trapMicro := none
  trapStalled := false

/-- The array's control state as R35 sets it. -/
def Arr.cleared : Arr where
  mode := 0
  bsrc := 0
  aLatch := 0
  aPoison := false
  leftL := 0x7F7F7F7F7F7F7F7F7F7F7F7F7F7F7F7F#128
  topT := .replicate 16 ((0x7F#8).replicate 256)
  staged := []
  feet := []
  arm := none
  nanInf := 0
  sat := 0
  rowPoison := 0
  lastDrain := none
  copyUntil := 0

/-- A halted helper core (log entry 5). -/
def Helper.reset : Helper where
  st := .halted
  inst := 0
  x := .replicate 32 0
  pc := 0
  instret := 0
  reserved := none
  waiting := none
  found := none
  fault := none

/-- A compute core after power-up. -/
def Core.reset : Core where
  enabled := true
  spareDue := none
  cur := 0
  switching := none
  stallUntil := 0
  divUntil := 0
  lastXfma := none
  ctxs := .replicate 4 .reset
  arr := .cleared
  dict := none
  swzTags := []
  domTags := []
  stamps := []
  l1 := []
  upd := []
  tlb := []
  queues := .replicate 8 []
  intake := .reset
  outfall := .reset
  monWord := 0

/-- An absent partition: no owner (R307, R321; log entries 6 and 7). -/
def Partition.absent : Partition where
  owner := none
  live := false
  stopped := false
  sts := 0
  busy := false
  daddr := .replicate 2 0
  featImg := .replicate 2 0
  feat := 0
  desc := 0
  rserNext := 1
  raceClock := 1
  seqNext := 1
  lastQueue := 15
  cleared := []
  courses := []
  selected := none
  banks := []
  groups := []
  swapped := false
  ckUsed := []
  late := []
  images := []

/-- An issuer that stands for nobody. -/
def Issuer.nobody : Issuer := ⟨0, 0, 0, 0, 0, 0, false, false, 0⟩

/-- An EMPTY handle record: every field zero (R208). -/
def HandleRec.empty : HandleRec where
  deadline := 0
  dest := 0
  split := 0
  npage := 0
  lpage := 0
  lat := 0
  fault := 0
  waiters := 0
  prio := 0
  part := 0
  ord := 0
  req := 0
  arrived := 0
  state := 0
  hc := 0
  maxClock := none
  startNs := 0
  who := .nobody
  reads := []
  releasing := false
  cancelled := 0

/-- A block at its logical place with no counts. -/
def Block.mapped : Block := ⟨.mapped, 0, 0, 0, none, 0, false, false⟩

/-- A flash stack: limits and counters as R228 resets them; the kept fields per log entry 8. -/
def Stack.reset : Stack where
  inService := true
  map := []
  blocks := []
  fresh := 0
  disturbReloc := 0
  totalReloc := 0
  retired := 0
  spare := 1
  recon := 0
  lost := 0
  lim := 1000000#32
  rbe := []
  seq := 0
  copyDue := 1000000

/-- A monitor unit (R317; the bins per log entry 9). -/
def Monitor.reset : Monitor where
  cfg := 0xFFFF000000000000#64
  min := 0xFFFFFFFFFFFFFFFF#64
  max := 0
  hist := .replicate 32 0
  takenAt := 0
  taken := []

/-- No slot in execution. -/
def Focus.reset : Focus where
  core := 0
  ctx := 0
  outfall := false
  slot := 0
  slotWord := 0
  ext := none
  issueAt := 0
  seqNo := 0
  chk := false
  super := false
  admitted := false
  direct := false
  replay := none
  uses := []
  hdr := 0
  trap := none
  bundle := false
  ending := false
  heldRead := false
  heldWrite := false
  opened := []
  waits := false
  branch := none
  redirect := none
  nextAddr := none

/-- The machine after power-up: booted, no partition, every handle EMPTY (R315, R321). -/
def Chip.reset : Chip where
  power := true
  booted := true
  cycle := 0
  ns := 0
  nsRest := 0
  mhz := 800
  coolNs := 0
  powerDue := 100000
  inputs := []
  pending := []
  postponed := []
  swept := false
  turn := []
  focus := .reset
  freeNext := 0
  issueNo := 0
  instNext := 1
  markerNext := 0
  readNext := 0
  poison := []
  hostL2 := []
  l2 := []
  floors := []
  windows := []
  dieTlb := .replicate 4 []
  cores := []
  sparesUsed := .replicate 4 0
  parts := .replicate 4 .absent
  insts := []
  handles := []
  flash := .replicate 8 .reset
  channelFails := .replicate 8 0
  stackHeld := .replicate 8 none
  linksUp := .replicate 4 true
  railsUp := .replicate 4 true
  monitors := .replicate 16 .reset
  msi := []
  msix := .replicate 2 (.replicate 64 ⟨0, 0, true⟩)
  ide := .replicate 2 ⟨none, none⟩
  doe := .replicate 2 []
  mctp := []
  sensors := ⟨0, 0, .replicate 4 0⟩
  commands := []
  health := []
  msgNext := []
  sent := []
  sentNext := 0
  rx := []
  coll := []
  collSent := []
  collDone := []
  measures := []
  fuseVersion := 0
  stagedImage := none

/-- The package right after reset: nothing in memory. -/
def State.reset : State := { Chip.reset with mem := [] }

end Sys2Proof.Machine
end

