-- ==== Sys2Proof/Machine/Work.lean ====
section
/-! DEFINITION. The state during a step: the machine, the memory as the step found it, and the writes made so far; and how a
meaning on it becomes a meaning on states. Accessors of cores, contexts, instances, partitions. -/
namespace Sys2Proof.Machine

/-- Bytes written at rising keys: those of `data`, then zeros up to `len`. -/
structure Chunk where
  key : Nat
  len : Nat
  data : List Byte
  deriving DecidableEq, Repr

/-- The machine within a step; `base` is memory before the step and `log` the writes of the step, newest first. -/
structure Work extends Chip where
  base : Memory
  log : List Chunk
  deriving DecidableEq, Repr

/-- The memory after the writes of a log (newest first). -/
def applyLog (m : Memory) : List Chunk → Memory
  | [] => m
  | c :: cs => (applyLog m cs).put c.key c.len c.data

/-- Begin a step. -/
def State.work (s : State) : Work := { toChip := s.toChip, base := s.mem, log := [] }

/-- A step's effect as a function on states: its writes are applied to the memory it began with. -/
def lift (f : Work → Work) (s : State) : State :=
  let w := f s.work
  { toChip := w.toChip, mem := applyLog s.mem w.log }

/-- A meaning that always answers a next state. -/
abbrev run (f : Work → Work) (s : State) : Host.Outcome State Fault Refusal := .next (lift f s)

namespace Work

/-! ## Bytes -/

/-- The byte at a key as the step sees it. -/
def byte (w : Work) (k : Nat) : Byte :=
  match w.log.find? (fun c => decide (c.key ≤ k) && decide (k < c.key + c.len)) with
  | some c => c.data.getD (k - c.key) 0#8
  | none => w.base.get k

/-- `n` bytes from a key. -/
def bytes (w : Work) (k n : Nat) : List Byte :=
  let cs := w.log.filter fun c => decide (c.key < k + n) && decide (k < c.key + c.len)
  let m := w.base.filter fun c => decide (k ≤ c.1) && decide (c.1 < k + n)
  let v : Work := { w with base := m, log := cs }
  (List.range n).map fun i => v.byte (k + i)

/-- Units written whole have fresh check bits (R457). -/
def freshUnits (w : Work) (k n : Nat) : Work :=
  { w with poison := w.poison.filter fun u => !(decide (k ≤ 8 * u) && decide (8 * u + 8 ≤ k + n)) }

/-- Write bytes from a key. An uncorrectable unit that is written whole is no longer one (R457). -/
def write (w : Work) (k : Nat) (bs : List Byte) : Work :=
  let w := if w.poison = [] then w else w.freshUnits k bs.length
  { w with log := ⟨k, bs.length, bs⟩ :: w.log }

/-- Set `n` bytes from a key to 0. -/
def wipe (w : Work) (k n : Nat) : Work :=
  let w := w.freshUnits k n
  { w with log := ⟨k, n, []⟩ :: w.log }

/-- The 8-byte word at a key. -/
def word (w : Work) (k : Nat) : Word := wordOf (w.bytes k 8)

/-- Does an uncorrectable 8-byte unit lie in `n` bytes from `k` (R302)? Its key, if so. -/
def badUnit (w : Work) (k n : Nat) : Option Nat :=
  w.poison.find? fun u => decide (8 * u < k + n) && decide (k < 8 * u + 8)

/-! ## Free values -/

/-- Take a free value (log entry 2). -/
def free (w : Work) : Nat × Work := (Config.freeNat w.freeNext, { w with freeNext := w.freeNext + 1 })

/-! ## Parts of the machine -/

/-- A core by logical number. -/
def core (w : Work) (n : Nat) : Core := Tab.get w.cores n Core.reset
/-- Replace a core. -/
def setCore (w : Work) (n : Nat) (c : Core) : Work := { w with cores := Tab.set w.cores n c }
/-- Change a core. -/
def modCore (w : Work) (n : Nat) (f : Core → Core) : Work := w.setCore n (f (w.core n))
/-- A context of a core. -/
def ctx (w : Work) (n i : Nat) : Ctx := nth (w.core n).ctxs i
/-- Change a context. -/
def modCtx (w : Work) (n i : Nat) (f : Ctx → Ctx) : Work :=
  w.modCore n fun c => { c with ctxs := setNth c.ctxs i (f (nth c.ctxs i)) }
/-- The core of the focus. -/
def here (w : Work) : Core := w.core w.focus.core
/-- The context of the focus. -/
def me (w : Work) : Ctx := w.ctx w.focus.core w.focus.ctx
/-- Change the context of the focus. -/
def modMe (w : Work) (f : Ctx → Ctx) : Work := w.modCtx w.focus.core w.focus.ctx f
/-- Change the core of the focus. -/
def modHere (w : Work) (f : Core → Core) : Work := w.modCore w.focus.core f
/-- Change the focus. -/
def modFocus (w : Work) (f : Focus → Focus) : Work := { w with focus := f w.focus }
/-- Change the array of a core. -/
def modArr (w : Work) (n : Nat) (f : Arr → Arr) : Work := w.modCore n fun c => { c with arr := f c.arr }

/-- A partition. -/
def part (w : Work) (p : Nat) : Partition := nth w.parts p
/-- Change a partition. -/
def modPart (w : Work) (p : Nat) (f : Partition → Partition) : Work := { w with parts := setNth w.parts p (f (nth w.parts p)) }

/-- The live partition that has a core's cluster; 0 where none has. -/
def corePart (w : Work) (core : Nat) : Nat := ((List.range 4).find? fun p => (w.part p).live && (w.part p).desc.getLsbD (core / 4)).getD 0

/-- A braid instance by its number. -/
def inst? (w : Work) (id : Nat) : Option Inst := w.insts.find? (·.id == id)
/-- Change a braid instance. -/
def modInst (w : Work) (id : Nat) (f : Inst → Inst) : Work := { w with insts := w.insts.map fun i => if i.id = id then f i else i }

/-- A handle record. -/
def handle (w : Work) (h : Nat) : HandleRec := Tab.get w.handles h HandleRec.empty
/-- Replace a handle record; an EMPTY one needs no entry. -/
def setHandle (w : Work) (h : Nat) (r : HandleRec) : Work :=
  { w with handles := if r = HandleRec.empty then Tab.erase w.handles h else Tab.set w.handles h r }

/-- One waiter fewer. -/
def leaveHandle (w : Work) (h : Nat) : Work :=
  let r := w.handle h
  if r.waiters = 0 then w else w.setHandle h { r with waiters := r.waiters - 1 }

/-- A flash stack. -/
def stack (w : Work) (j : Nat) : Stack := nth w.flash j
/-- Change a flash stack. -/
def modStack (w : Work) (j : Nat) (f : Stack → Stack) : Work := { w with flash := setNth w.flash j (f (nth w.flash j)) }

/-- A step to perform after this one. -/
def todo (w : Work) (core ctx : Nat) (i : Instr) : Work := { w with pending := w.pending ++ [⟨core, ctx, i⟩] }

/-- Does an armed monitor unit have the source? -/
def sampled (w : Work) (src : BitVec 8) : Bool := w.monitors.toList.any fun m => field m.cfg 8 2 == 1#2 && field m.cfg 0 8 == src

/-- A monitor source has a sample; `watched` is the core, handle die or queue it comes from, or 0xFFFF (R317, R318). Nothing happens where
no armed unit has the source. -/
def sample (w : Work) (src : BitVec 8) (watched : BitVec 16) (v : Nat) : Work :=
  if w.sampled src then w.todo 0 0 (.monSample src watched v) else w

/-- A helper core of a compute core. -/
def helper (w : Work) (core : Nat) (outfall : Bool) : Helper := if outfall then (w.core core).outfall else (w.core core).intake
/-- Change a helper core. -/
def modHelper (w : Work) (core : Nat) (outfall : Bool) (f : Helper → Helper) : Work :=
  w.modCore core fun c => if outfall then { c with outfall := f c.outfall } else { c with intake := f c.intake }

/-- The course and reach of a partition by sequence number and index. -/
def course? (w : Work) (p seq : Nat) : Option Course := (w.part p).courses.find? (·.seq == seq)
def reach? (w : Work) (p seq r : Nat) : Option Reach := (w.course? p seq).bind fun c => c.reaches[r]?
/-- Change a course. -/
def modCourse (w : Work) (p seq : Nat) (f : Course → Course) : Work :=
  w.modPart p fun q => { q with courses := q.courses.map fun c => if c.seq = seq then f c else c }
/-- Change a reach. -/
def modReach (w : Work) (p seq r : Nat) (f : Reach → Reach) : Work :=
  w.modCourse p seq fun c => { c with reaches := c.reaches.modify r f }

end Work

/-! ## Partition descriptor fields (15_system R310) -/

/-- The 8-byte word at byte `k` of a descriptor. -/
def Partition.dword (p : Partition) (k : Nat) : Word := field p.desc (8 * k) 64

def Partition.ptroot (p : Partition) : Nat := (p.dword 8).toNat
def Partition.kframe (p : Partition) : Word := p.dword 16
def Partition.kvec (p : Partition) : Word := p.dword 24
def Partition.allocpa (p : Partition) : Nat := (p.dword 32).toNat
def Partition.rltbase (p : Partition) : Nat := (p.dword 40).toNat
def Partition.qbase (p : Partition) : Nat := (p.dword 48).toNat
def Partition.mbox (p : Partition) : Nat := (p.dword 56).toNat
def Partition.hhbase (p : Partition) : Nat := (p.dword 64).toNat
def Partition.ckbase (p : Partition) : Nat := (p.dword 72).toNat
def Partition.ckcnt (p : Partition) : Nat := (field p.desc 640 32).toNat
def Partition.swapen (p : Partition) : Bool := p.desc.getLsbD 672
def Partition.reqsig (p : Partition) : Bool := p.desc.getLsbD 673
/-- First index and count of the handle range on a die (R207). -/
def Partition.hrange (p : Partition) (die : Nat) : Nat × Nat :=
  let x := p.dword (88 + 8 * die)
  ((field x 0 13).toNat, (field x 16 14).toNat)
def Partition.monmask (p : Partition) : BitVec 16 := field p.desc 960 16
/-- Aperture register `r` (0 VBASE, 1 SIZE, 2 PBASE, 3 AUX, 4 CTL) of aperture `n` (R178). -/
def Partition.ap (p : Partition) (n r : Nat) : Word := p.dword (128 + 40 * n + 8 * r)
def Partition.bootc (p : Partition) : Word := p.dword 448
def Partition.hltab (p : Partition) : Nat := (field (p.dword 456) 7 57).toNat
def Partition.hlcnt (p : Partition) : Nat := (field (p.dword 456) 0 7).toNat
/-- A KFEAT bit (R98, R312). -/
def Partition.hasFeat (p : Partition) (b : Nat) : Bool := p.feat.getLsbD b

/-! ## Context fields -/

/-- KSTAT.CHK and KSTAT.MODE (R77). -/
def Ctx.chk (c : Ctx) : Bool := c.kstat.getLsbD 1
def Ctx.super (c : Ctx) : Bool := c.kstat.getLsbD 0
/-- The scalar register; s0 reads zero (R71). -/
def Ctx.sReg (c : Ctx) (r : BitVec 6) : Word := if r = 0#6 then 0 else nth c.s r.toNat
def Ctx.aReg (c : Ctx) (r : BitVec 4) : Word := nth c.a r.toNat
/-- The predicate; p0 reads true (R71). -/
def Ctx.pReg (c : Ctx) (r : BitVec 4) : Bool := r == 0#4 || c.p.getLsbD r.toNat
def Ctx.vReg (c : Ctx) (r : BitVec 5) : Line := nth c.v r.toNat
def Ctx.qReg (c : Ctx) (r : BitVec 3) : BitVec 128 := nth c.q r.toNat
def Ctx.gReg (c : Ctx) (r : BitVec 4) : Stream := nth c.g r.toNat
/-- KRND.RM and KRND.SEED (R78). -/
def Ctx.rm (c : Ctx) : BitVec 3 := field c.krnd 0 3
def Ctx.seed (c : Ctx) : BitVec 32 := field c.krnd 32 32
/-- A saturated race clock neither checks nor stamps (R200). -/
def Ctx.clockSaturated (c : Ctx) : Bool := c.kclk == 0xFFFFFFFF#32

/-- A race clock raised to at least `x`, saturating (R200). -/
def clockMax (c : BitVec 32) (x : Nat) : BitVec 32 := BitVec.ofNat 32 (min (max c.toNat x) 0xFFFFFFFF)

namespace Work

/-- The braid instance of the focus. -/
def myInst? (w : Work) : Option Inst := w.inst? w.me.inst

/-- The partition of the focus: that of its instance; a context without one belongs to partition 0. -/
def myPart (w : Work) : Nat := match w.myInst? with | some i => i.part | none => 0

/-- The issuing rill as the one on whose behalf accesses are made (R198). -/
def issuer (w : Work) : Issuer :=
  let c := w.me
  { part := w.myPart, inst := c.inst, core := w.focus.core, ctx := w.focus.ctx, rser := c.rser, clock := c.kclk,
    super := w.focus.super, helper := false, kdead := c.kdead }

/-- Count a fault in a reach's record (R279); the first in time sets FSRC and FCODE. -/
def countFault (w : Work) (p seq r fsrc fcode : Nat) : Work :=
  w.modReach p seq r fun x =>
    let c := x.counts
    { x with counts :=
        if c.nfault = 0 then { c with nfault := 1, fsrc := fsrc, fcode := fcode, faultNs := w.ns }
        else { c with nfault := c.nfault + 1 } }

/-- Count a fault in the reach of an instance. -/
def countInstFault (w : Work) (inst fsrc fcode : Nat) : Work :=
  match w.inst? inst with
  | some i => w.countFault i.part i.course i.reach fsrc fcode
  | none => w

end Work
end Sys2Proof.Machine
end

