-- ==== Sys2Proof/Machine/Aperture.lean ====
section
/-! DEFINITION. Why an access fails and where one lands (08_memory R163, R172), and apertures (R178 to R180). -/
namespace Sys2Proof.Machine

/-- What an access does to the bytes. -/
inductive Access where
  | read | write | fetch
  deriving DecidableEq, Repr

/-- Why an access fails. Reasons of `xlate` are those of R172; `poison` gives the first bad 8-byte unit's address as the access
names it; `race` what R202 puts into the frame. -/
inductive Bad where
  | access (addr : Word)
  | xlate (reason : Nat) (addr : Word)
  | poison (addr : Word)
  | race (addr : Word) (stamp : Stamp) (write wasW : Bool)
  deriving DecidableEq, Repr

/-- Where an access lands. -/
inductive Place where
  /-- A tile store offset of a core. -/
  | tile (core off : Nat)
  /-- A tile store address at or past 2 MiB (R165). -/
  | past
  /-- A physical address with its memory type and RACECHK bit. -/
  | phys (pa : Nat) (mt : BitVec 2) (race : Bool)
  /-- Offset `off` of aperture `n`'s view. -/
  | view (n off : Nat)
  deriving DecidableEq, Repr

/-! ## Apertures (R178 to R180) -/

/-- An aperture's registers. -/
structure Aperture where
  vbase : Nat
  size : Nat
  pbase : Nat
  aux : Word
  ctl : Word

def Partition.aperture (p : Partition) (n : Nat) : Aperture := ⟨(p.ap n 0).toNat, (p.ap n 1).toNat, (p.ap n 2).toNat, p.ap n 3, p.ap n 4⟩
def Aperture.xf (a : Aperture) : Nat := (field a.ctl 1 4).toNat
def Aperture.pfmt (a : Aperture) : Nat := (field a.ctl 10 2).toNat
def Aperture.blk (a : Aperture) : Nat := (field a.ctl 16 4).toNat
def Aperture.nblk (a : Aperture) : Nat := let n := (field a.ctl 20 10).toNat; if n = 0 then 1024 else n

/-- R178, R180: enabled, and no reserved XF, PFMT, BLK or field. -/
def Aperture.on (a : Aperture) : Bool :=
  a.ctl.getLsbD 0 && decide (a.xf ≤ 6) && field a.ctl 30 34 == 0#34 && !a.ctl.getLsbD 15 &&
  (a.xf != 2 || decide (a.pfmt ≤ 2)) && (a.xf != 5 || (decide (a.pfmt ≤ 1) && decide (4 ≤ a.blk) && decide (a.blk ≤ 8)))

/-- Does the aperture claim an address? -/
def Aperture.claims (a : Aperture) (va : Word) : Bool := a.on && decide (a.vbase ≤ va.toNat) && decide (va.toNat < a.vbase + a.size)

/-- The lowest-numbered aperture of a partition that claims an address (R180). -/
def Partition.claim (p : Partition) (va : Word) : Option Nat := (List.range 8).find? fun n => (p.aperture n).claims va

/-- R179: IDENT, TRANSPOSE and SWZ pass writes. -/
def Aperture.writable (a : Aperture) : Bool := a.xf == 0 || a.xf == 1 || a.xf == 6

/-- Does R, W and U permit the access (R180)? -/
def Aperture.permits (a : Aperture) (kind : Access) (super : Bool) : Bool :=
  (match kind with | .read => a.ctl.getLsbD 5 | .write => a.ctl.getLsbD 6 | .fetch => false) && (super || a.ctl.getLsbD 7)

/-- The physical byte of a view byte under IDENT, TRANSPOSE and SWZ. -/
def Aperture.flat (a : Aperture) (off : Nat) : Nat :=
  if a.xf = 1 then
    let e := 2 ^ (field a.ctl 8 2).toNat
    let nsrc := (field a.aux 32 32).toNat
    let spitch := (field a.aux 0 32).toNat
    let vr := off / (nsrc * e)
    let r := off % (nsrc * e)
    if nsrc = 0 then Config.transposeZero off else a.pbase + (r / e) * spitch + vr * e + r % e
  else if a.xf = 6 then
    let span := (field a.ctl 12 3).toNat
    a.pbase + (off ^^^ ((off / 128 % 128 &&& (2 ^ span - 1)) * 16))
  else a.pbase + off

/-- MXINT element width of a DEQ format. -/
def deqBits (pfmt : Nat) : Nat := if pfmt = 0 then 8 else if pfmt = 1 then 6 else 4

/-- The physical bytes a computed view byte is made from (DEQ, PLANEHI, PLANELO, HALFSPEC). -/
def Aperture.sources (a : Aperture) (off : Nat) : List Nat :=
  if a.xf = 2 then
    let i := off / 2
    let n := deqBits a.pfmt
    let lo := a.pbase + i / 32 * (4 * n) + n * (i % 32) / 8
    let hi := a.pbase + i / 32 * (4 * n) + (n * (i % 32) + n - 1) / 8
    [lo, hi, a.aux.toNat + i / 32]
  else if a.xf = 3 ∨ a.xf = 4 then [a.pbase + 2 * off, a.pbase + 2 * off + 1]
  else
    let wd := if a.pfmt = 0 then 4 else 2
    let b := 2 ^ a.blk
    let nb := a.nblk
    let vrow := (2 * nb * b * wd + 127) / 128 * 128
    let r := off / vrow
    let x := off % vrow
    let c := x / (2 * wd)
    let f := c / nb
    let j := c % nb
    let im := x / wd % 2
    let src (slot part : Nat) := a.pbase + r * (field a.aux 0 32).toNat + (slot * nb + j) * 2 * wd + part * wd + x % wd
    if b ≤ f then []
    else if f = 0 then (if im = 0 then [src 0 0] else [])
    else if f = b / 2 then (if im = 0 then [src 0 1] else [])
    else if f < b / 2 then [src f im]
    else [src (b - f) im]

/-- The physical bytes behind a view byte. -/
def Aperture.bytesOf (a : Aperture) (off : Nat) : List Nat := if a.writable then [a.flat off] else a.sources off

/-- Does the view byte pad a HALFSPEC row to a multiple of 128 bytes? -/
def Aperture.padding (a : Aperture) (off : Nat) : Bool :=
  let wd := if a.pfmt = 0 then 4 else 2
  let row := 2 * a.nblk * 2 ^ a.blk * wd
  a.xf == 5 && decide (row ≤ off % ((row + 127) / 128 * 128))

/-- The lines behind `len` bytes of a view, each once. -/
def Aperture.lines (a : Aperture) (off len : Nat) : List Nat :=
  (((List.range len).flatMap fun i => if a.padding (off + i) then [] else a.bytesOf (off + i)).map (· / 128)).dedup

/-- The view byte, from its source bytes in the order of `sources`. Under DEQ the most negative code at the scale 0xFE is −2¹²⁸, which BF16 does not hold:
−∞ (DESIGN CHOICE, log entry 140). -/
def Aperture.viewByte (a : Aperture) (off : Nat) (bs : List Byte) : Byte :=
  let b0 := (bs.getD 0 0).toNat
  let b1 := (bs.getD 1 0).toNat
  if a.xf = 2 then
    let i := off / 2
    let n := deqBits a.pfmt
    let at0 := n * (i % 32) % 8
    let two := b0 + 256 * b1
    let code : Nat := two / 2 ^ at0 % 2 ^ n
    let sc := (bs.getD 2 0).toNat
    let v : Int := if 2 ^ (n - 1) ≤ code then (code : Int) - 2 ^ n else code
    -- BF16 of v·2^(scale − 127 − f): exact (R123)
    let f := n - 2
    let m := v.natAbs
    let k := Nat.log2 m
    let e : Int := (sc : Int) - 127 - f + k
    let h : Nat :=
      if sc = 255 then 0x7FC0
      else if m = 0 then 0
      else
        let s := if v < 0 then 0x8000 else 0
        if -126 ≤ e then s + (e + 127).toNat * 128 + (m * 2 ^ 7 / 2 ^ k) % 128
        else s + (if 0 ≤ (sc : Int) - 127 - f + 133 then m * 2 ^ ((sc : Int) - 127 - f + 133).toNat else m / 2 ^ (-((sc : Int) - 127 - f + 133)).toNat)
    BitVec.ofNat 8 (h / 2 ^ (8 * (off % 2)))
  else if a.xf = 3 then BitVec.ofNat 8 (b0 / 16 + 16 * (b1 / 16))
  else if a.xf = 4 then BitVec.ofNat 8 (b0 % 16 + 16 * (b1 % 16))
  else
    let wd := if a.pfmt = 0 then 4 else 2
    let b := 2 ^ a.blk
    let vrow := (2 * a.nblk * b * wd + 127) / 128 * 128
    let x := off % vrow
    let f := x / (2 * wd) / a.nblk
    let im := x / wd % 2
    let top := x % wd == wd - 1
    let v := bs.getD 0 0
    if decide (b / 2 < f) && im == 1 && top then v ^^^ 0x80#8 else v

end Sys2Proof.Machine
end

