-- ==== Sys2Proof/WellFormed.lean ====
section
/-! DEFINITION. Which operand values an instruction's entry defines. A slot word with any other value takes ILLOP
(04_encoding R92); the checks that depend on the state (KFEAT, ownership, the array mode) are in Machine/Checks.lean. -/
namespace Sys2Proof

/-- The U bit of a format X immediate: only the long form has one (R90). -/
def XImm.isU : XImm → Bool
  | .short _ => false
  | .long u _ => u

/-- R90: an instruction without a U bit needs IMM10[0] = 0 in its long form. -/
def XImm.noU (m : XImm) : Bool := !m.isU

/-- R90, R426: addressing mode 0b11 and space 0b11 are reserved, and the long form requires AM 0b00. -/
def memOk (am sp : BitVec 2) : Imm 6 → Bool
  | .short _ => decide (am ≠ 3#2 ∧ sp ≠ 3#2)
  | .long _ => decide (am = 0#2 ∧ sp ≠ 3#2)

/-- Type codes 0 to 13 of R466. -/
def anyType (t : BitVec 4) : Bool := decide (t ≤ 13#4)
/-- Types f64, f32 and bf16 among those that arithmetic accepts. -/
def isFp (t : BitVec 4) : Bool := decide (8#4 ≤ t)
/-- R110: arithmetic on f16, e4m3 and e5m2 takes ILLOP. -/
def arithType (t : BitVec 4) : Bool := decide (t ≤ 9#4 ∨ t = 11#4)
/-- f64, f32 or bf16 (R473, R474). -/
def isIoType (t : BitVec 4) : Bool := t == 8#4 || t == 9#4 || t == 11#4

/-- Bytes of an element of type code `t` (R466). -/
def typeBytes (t : BitVec 4) : Nat :=
  if t ≤ 1#4 then 1 else if t ≤ 3#4 then 2 else if t ≤ 5#4 then 4 else if t ≤ 8#4 then 8
  else if t = 9#4 then 4 else if t ≤ 11#4 then 2 else 1

/-- R466: VCVT rounds when the result is floating point and not exact by definition (R121: FP to a wider FP format is exact, and so is one to the
format itself), or when it goes from floating point to an integer. DEDUCED, log entry 14. -/
def cvtRounds (t u : BitVec 4) : Bool :=
  if isFp u then !(isFp t && (t == u || decide (typeBytes t < typeBytes u))) else isFp t

/-- R117: RM 0b101 and 0b110 take ILLOP; 0b100 is no mode of VCMUL, VRED and VSCAN (R471). -/
def rmField (stochastic : Bool) (r : BitVec 3) : Bool := r != 5#3 && r != 6#3 && (stochastic || r != 4#3)

/-- R466: with ME = 0, Q is the RM field of an instruction that rounds and zero for any other. -/
def rmOk (rounds stochastic : Bool) (me : BitVec 1) (q : BitVec 3) : Bool :=
  if me = 1#1 then true else if rounds then rmField stochastic q else q == 0#3

/-- Every field holds a value its entry defines (R92). -/
def Instr.wellFormed : Instr → Bool
  | .abs _ _ => true
  | .add _ _ _ => true
  | .addI _ _ m => m.noU
  | .adda _ _ _ => true
  | .addaI _ _ m => m.noU
  | .and _ _ _ => true
  | .andI _ _ m => m.noU
  | .andn _ _ _ => true
  | .andnI _ _ m => m.noU
  | .bfi _ _ _ => true
  | .bfx _ _ _ => true
  | .clz _ _ => true
  | .ctz _ _ => true
  | .popc _ _ => true
  | .sub _ _ _ => true
  | .subI _ _ m => m.noU
  | .mul _ _ _ => true
  | .mulI _ _ m => m.noU
  | .mulh _ _ _ _ => true
  | .mulhI _ _ _ => true
  | .mad _ _ _ => true
  | .madI _ _ m => m.noU
  | .div _ _ _ _ => true
  | .divI _ _ _ => true
  | .rem _ _ _ _ => true
  | .remI _ _ _ => true
  | .or _ _ _ => true
  | .orI _ _ m => m.noU
  | .xor _ _ _ => true
  | .xorI _ _ m => m.noU
  | .shl _ _ _ => true
  | .shlI _ _ _ => true
  | .shr _ _ _ => true
  | .shrI _ _ _ => true
  | .sra _ _ _ => true
  | .sraI _ _ _ => true
  | .rol _ _ _ => true
  | .rolI _ _ _ => true
  | .min _ _ _ _ => true
  | .minI _ _ _ => true
  | .max _ _ _ _ => true
  | .maxI _ _ _ => true
  | .cmp c _ _ _ u => decide (u = 1#1 → 2#2 ≤ c)
  | .cmpI c _ _ m => decide (m.isU = true → 2#2 ≤ c)
  | .sel _ _ _ _ => true
  | .selI _ _ _ _ => true
  | .mov _ _ => true
  | .movi _ _ _ => true
  | .movaToA _ _ => true
  | .movaToS _ _ => true
  | .plog _ _ _ _ => true
  | .sext _ _ n => decide (1#7 ≤ n ∧ n ≤ 64#7)
  | .mstat _ => true
  | .mstatClr _ => true
  | .br _ => true
  | .brS1 _ => true
  | .brx _ => true
  | .brxS1 _ => true
  | .call _ => true
  | .callS1 _ => true
  | .callx _ => true
  | .callxS1 _ => true
  | .ret => true
  | .loop _ _ => true
  | .loopm _ _ => true
  | .lexit l => decide (l ≤ 5#3)
  | .endRill => true
  | .yield => true
  | .barr _ => true
  | .hwait _ _ => true
  | .vwait _ _ => true
  | .mwait _ _ => true
  | .trapImm _ => true
  | .rft => true
  | .fence k s => decide (k ≠ 3#2 ∧ s ≤ 5#3)
  | .fenceR k s _ _ => decide (k ≠ 3#2 ∧ s ≤ 5#3)
  | .qfence _ => true
  | .mfsr _ k => decide (k < 16#6 ∧ k ≠ 11#6)
  | .mtsr _ k => decide (k < 16#6 ∧ k ≠ 11#6)
  | .est _ => true
  | .estI _ => true
  | .ld _ _ m s w z x => memOk m s x && decide (z = 1#1 → w ≠ 3#2)
  | .st _ _ m s _ x => memOk m s x
  | .vld _ _ m s x => memOk m s x
  | .vst _ _ m s x => memOk m s x
  | .vldx _ _ _ _ s _ _ => decide (s ≠ 3#2)
  | .vstx _ _ _ _ s _ _ => decide (s ≠ 3#2)
  | .lda _ _ s w z c _ => decide (s ≠ 3#2 ∧ c ≤ 5#3 ∧ (z = 1#1 → w ≠ 3#2))
  | .stl _ _ s _ c _ => decide (s ≠ 3#2 ∧ c ≤ 5#3)
  | .stlR _ _ rp _ c => decide (rp ≠ 0#5 ∧ c ≤ 5#3)
  | .atom _ _ _ o _ r s => decide (o ≤ 10#4 ∧ (r = 0#2 → s ≤ 2#3) ∧ (r ≠ 0#2 → s ≤ 5#3))
  | .upd _ _ o w => decide (o ≤ 8#4 ∧ (o ≠ 0#4 → 2#2 ≤ w) ∧ (o = 8#4 → w = 2#2))
  | .cmnt o v _ _ => decide (o ≠ 3#2 ∧ v ≠ 3#2)
  | .alloc _ _ => true
  | .allocNf _ _ _ => true
  | .free _ _ => true
  | .vadd _ _ _ e q t => arithType t && rmOk (isFp t) true e q
  | .vsub _ _ _ e q t => arithType t && rmOk (isFp t) true e q
  | .vmul _ _ _ e q t => arithType t && rmOk (isFp t) true e q
  | .vfma _ _ _ e q t => arithType t && rmOk (isFp t) true e q
  | .vmin _ _ _ e q t => arithType t && rmOk false true e q
  | .vmax _ _ _ e q t => arithType t && rmOk false true e q
  | .vabs _ _ e q t => arithType t && rmOk false true e q
  | .vneg _ _ e q t => arithType t && rmOk false true e q
  | .vcmp _ _ _ _ e q t => arithType t && rmOk false true e q
  | .vsel _ _ _ _ t => anyType t
  | .vand _ _ _ e q t => anyType t && rmOk false true e q
  | .vor _ _ _ e q t => anyType t && rmOk false true e q
  | .vxor _ _ _ e q t => anyType t && rmOk false true e q
  | .vshl _ _ _ e q t => decide (t ≤ 7#4) && rmOk false true e q
  | .vshr _ _ _ e q t => decide (t ≤ 7#4) && rmOk false true e q
  | .vcvt _ _ h u e q t => anyType t && anyType u && decide (h = 1#1 → typeBytes t < typeBytes u) && rmOk (cvtRounds t u) true e q
  | .vqnt _ a f q t => decide (f ≤ 3#3) && isIoType t && decide (t = 8#4 → a.getLsbD 0 = false) && rmOk true true 0#1 q
  | .vdq d _ f q t => decide (f ≤ 5#3) && (isIoType t || t == 10#4) && decide (t = 8#4 → d.getLsbD 0 = false) && rmOk true true 0#1 q
  | .vfn _ _ f e q t => decide (f ≤ 5#3) && isIoType t && rmOk (f != 5#3) true e q
  | .vred _ _ o e q t => decide (o ≤ 5#3) && arithType t && decide (3#3 ≤ o → isFp t = false) && rmOk (o == 0#3 && isFp t) false e q
  | .vscan _ _ o e q t => decide (o ≤ 5#3) && arithType t && decide (3#3 ≤ o → isFp t = false) && rmOk (o == 0#3 && isFp t) false e q
  | .vperm _ _ _ e q _ => rmOk false true e q
  | .vbcst _ _ _ => true
  | .vbcstI _ _ _ => true
  | .vget _ _ w i u => decide (i.toNat < 128 >>> w.toNat) && decide (u = 1#1 → w ≠ 3#2)
  | .vput _ _ w i => decide (i.toNat < 128 >>> w.toNat)
  | .vdot _ _ _ e q t => (decide (t ≤ 5#4) || t == 11#4 || t == 9#4) && rmOk (isFp t) true e q
  | .vcmul _ _ _ e q t => (t == 9#4 || t == 11#4) && rmOk true false e q
  | .qlog _ _ b o => decide (o ≤ 4#3 ∧ (o = 4#3 → b = 0#3))
  | .xclr => true
  | .xfma _ _ _ => true
  | .xadd _ _ => true
  | .xrnd _ r _ => rmField true r
  | .xsgn n m => decide (n ≠ m)
  | .mmode m b => decide (m ≤ 5#3 ∧ b ≠ 3#2 ∧ (b ≠ 0#2 → m = 0#3 ∨ m = 4#3 ∨ m = 5#3))
  | .mpush _ => true
  | .mpushV _ => true
  | .mshift _ t n i b => decide ((t = 0#1 → n = 0#4) ∧ (i = 1#1 → b ≤ 63#8))
  | .footEmerge => true
  | .maccSet i r c d => decide (c ≤ d ∧ (i = 1#1 → r ≤ 63#10))
  | .maccAdd i r c d => decide (c ≤ d ∧ (i = 1#1 → r ≤ 63#10))
  | .maccArmSet _ c d => decide (c ≤ d)
  | .maccArmAdd _ c d => decide (c ≤ d)
  | .maccOff => true
  | .mdrain f k d i r => decide ((k = 0#1 → f ≠ 3#2) ∧ (k = 1#1 → d ≤ 3#4) ∧ (i = 1#1 → r ≤ 63#10))
  | .mzero i r _ => decide (i = 1#1 → r ≤ 63#10)
  | .mxcpOut s _ _ _ _ => decide (s ≠ 3#2)
  | .mxcpIn s _ _ _ _ => decide (s ≠ 3#2)
  | .sclA _ => true
  | .sclB _ _ _ => true
  | .scliA grp c => match c with | .short _ => grp == 0#4 | .long _ => decide (grp ≤ 3#4)
  | .scliB seg c => match c with | .short _ => true | .long _ => decide (seg ≤ 3#4)
  | .latchActivate => true
  | .gset _ _ _ => true
  | .gldd _ _ => true
  | .gadv _ _ => true
  | .cpy _ _ _ => true
  | .cpyNet _ _ _ => true
  | .dftFwd _ _ _ _ => true
  | .dftInv _ _ _ _ => true
  | .hreq _ e _ => decide (e.getLsbD 0 = false ∧ 2#6 ≤ e ∧ e ≤ 60#6)
  | .hrel _ => true
  | .hqry _ _ => true
  | .route _ _ => true
  | .rcnt _ _ _ => true
  | .pubOpen _ _ => true
  | .pubClose _ _ => true
  | .settle _ => true
  | .settlePub _ _ => true
  | .pin _ _ => true
  | .unpin _ _ => true
  | .spawn _ _ m f => decide (m ≤ 8#4 ∧ (m = 0#4 → f = 0#6) ∧ (m ≠ 0#4 → f.toNat + m.toNat ≤ 64))
  | .enqC _ _ => true
  | .enqR _ _ _ => true
  | .enqX _ => true
  | .depdec _ => true
  | .depdecS _ => true
  | .flget _ _ => true
  | .flput _ _ => true
  | .flwait _ _ => true
  | .fldrop _ _ => true
  | .coll _ _ => true
  | .tstamp _ => true
  | .monArm _ _ => true
  | .monStop _ _ => true
  | .monSnap _ _ => true
  | .ixCpy _ _ _ => true
  | .ixHreq _ _ _ => true
  | .ixHwait _ _ _ => true
  | .ixQfence _ _ _ => true
  | .ixFlget _ _ _ => true
  | .ixFlput _ _ _ => true
  | .ixFlwait _ _ _ => true
  | .ixFldrop _ _ _ => true
  | .ecall => true
  | .ebreak => true
  | .auxfault => true
  | .idleRun _ => true
  | .contextSwitch => true
  | .resultLand => true
  | .budgetExhausted _ => true
  | .budgetTrap => true
  | .reachDeadline _ _ _ => true
  | .deadlineTrap => true
  | .externTrap _ => true
  | .courseStart _ _ => true
  | .selectReach _ => true
  | .placeInst _ => true
  | .dictLoad _ _ _ => true
  | .bplaneLogReplay _ _ => true
  | .freezeInst _ => true
  | .tokenAge _ _ _ => true
  | .instanceComplete _ => true
  | .reachComplete _ _ _ => true
  | .courseComplete _ _ => true
  | .hreqEntry => true
  | .hrelEntry => true
  | .pageRead _ _ _ => true
  | .pageReconstruct _ _ _ => true
  | .disturbLimit _ _ => true
  | .relocationCopy _ _ _ => true
  | .mapSwitch _ _ => true
  | .blockErase _ _ _ => true
  | .wearLevel _ _ => true
  | .healthCopy _ => true
  | .copyLinear _ => true
  | .copyBfill _ => true
  | .copyToFlume _ => true
  | .copyFromFlume _ => true
  | .netSend _ => true
  | .dftFwdEntry => true
  | .dftInvEntry => true
  | .routeEntry => true
  | .rcntEntry => true
  | .allReduce _ _ _ => true
  | .allGather _ _ _ => true
  | .allToAll _ _ _ => true
  | .collTimeout _ _ _ => true
  | .cellReceive _ => true
  | .metadataDeliver _ _ _ _ _ => true
  | .mergeWindowClose _ => true
  | .l1Evict _ _ => true
  | .l2Evict _ => true
  | .createPart _ _ => true
  | .destroyPart _ _ => true
  | .swapOut _ _ => true
  | .swapIn _ _ => true
  | .remapPart _ _ => true
  | .installModel _ _ _ => true
  | .resetPart _ _ => true
  | .setGroups _ _ => true
  | .featAcceptWrite _ _ _ _ => true
  | .disturbLimWrite _ _ => true
  | .registerWrite _ _ _ => true
  | .powerUp _ _ _ => true
  | .powerDown => true
  | .powerCheck _ _ => true
  | .thermalTrip _ => true
  | .linkFail _ => true
  | .channelFail _ => true
  | .railFail _ => true
  | .coreError _ _ => true
  | .spareTakeover _ => true
  | .monSample _ _ _ => true
  | .attestationReport _ => true
  | .firmwareUpdate _ => true
  | .helperInstruction _ _ => true
  | .channelReplaced _ => true
  | .cellAcknowledge _ _ => true
  | .unsupportedPacket => true

end Sys2Proof
end

