-- ==== Sys2Proof/Machine/Num.lean ====
section
/-! DEFINITION. Number formats and rounding (05_numbers): exact values, one rounding function for every format and mode, and
correctly rounded elementary functions (25_ref R474, 11_routing R233, 07_spectral R159). -/
namespace Sys2Proof.Machine

/-! ## Formats (R109) -/

/-- A floating-point format: exponent bits, fraction bits, whether all-ones exponents hold infinities and NaNs (not in E4M3). -/
structure Fmt where
  eb : Nat
  mb : Nat
  ieee : Bool
  deriving DecidableEq, Repr

def fp64 : Fmt := ⟨11, 52, true⟩
def fp32 : Fmt := ⟨8, 23, true⟩
def fp16 : Fmt := ⟨5, 10, true⟩
def bf16 : Fmt := ⟨8, 7, true⟩
def e4m3 : Fmt := ⟨4, 3, false⟩
def e5m2 : Fmt := ⟨5, 2, true⟩

/-- Bits of the format. -/
def Fmt.bits (f : Fmt) : Nat := f.eb + f.mb + 1
/-- Exponent bias. -/
def Fmt.bias (f : Fmt) : Nat := 2 ^ (f.eb - 1) - 1
/-- Least exponent of a normal value. -/
def Fmt.emin (f : Fmt) : Int := 1 - (f.bias : Int)
/-- Weight of the last fraction bit of a subnormal. -/
def Fmt.qmin (f : Fmt) : Int := f.emin - f.mb
/-- Largest exponent of a finite value. -/
def Fmt.emax (f : Fmt) : Int := if f.ieee then f.bias else f.bias + 1
/-- Significand of the largest finite value, its last bit weighing 2^(emax − mb). -/
def Fmt.maxSig (f : Fmt) : Nat := if f.ieee then 2 ^ (f.mb + 1) - 1 else 2 ^ (f.mb + 1) - 2

/-- The canonical quiet NaN (R111). -/
def Fmt.nan (f : Fmt) : Nat :=
  if f.ieee then (2 ^ f.eb - 1) * 2 ^ f.mb + 2 ^ (f.mb - 1) else 2 ^ (f.bits - 1) - 1

/-- An infinity; E4M3 has none and gets its largest finite value. -/
def Fmt.inf (f : Fmt) (neg : Bool) : Nat :=
  (if f.ieee then (2 ^ f.eb - 1) * 2 ^ f.mb else 2 ^ (f.bits - 1) - 2) + neg.toNat * 2 ^ (f.bits - 1)

/-- The largest finite value with a sign. -/
def Fmt.maxFinite (f : Fmt) (neg : Bool) : Nat :=
  (if f.ieee then (2 ^ f.eb - 1) * 2 ^ f.mb - 1 else 2 ^ (f.bits - 1) - 2) + neg.toNat * 2 ^ (f.bits - 1)

/-- A zero with a sign. -/
def Fmt.zero (f : Fmt) (neg : Bool) : Nat := neg.toNat * 2 ^ (f.bits - 1)

/-- What an encoding stands for: a NaN (signalling or not), an infinity, or the finite value ±sig·2^exp. -/
inductive FVal where
  | nan (signalling : Bool)
  | inf (neg : Bool)
  | fin (neg : Bool) (sig : Nat) (exp : Int)
  deriving DecidableEq, Repr

/-- The value of an encoding (R109, R110: subnormals honoured). -/
def Fmt.value (f : Fmt) (x : Nat) : FVal :=
  let neg := x / 2 ^ (f.bits - 1) % 2 == 1
  let e := x / 2 ^ f.mb % 2 ^ f.eb
  let m := x % 2 ^ f.mb
  if f.ieee && e == 2 ^ f.eb - 1 then
    if m = 0 then .inf neg else .nan (m / 2 ^ (f.mb - 1) == 0)
  else if !f.ieee && e == 2 ^ f.eb - 1 && m == 2 ^ f.mb - 1 then .nan false
  else if e = 0 then .fin neg m f.qmin
  else .fin neg (2 ^ f.mb + m) ((e : Int) - f.bias - f.mb)

def FVal.isNan : FVal → Bool
  | .nan _ => true
  | _ => false
def FVal.isSnan : FVal → Bool
  | .nan s => s
  | _ => false
def FVal.isZero : FVal → Bool
  | .fin _ 0 _ => true
  | _ => false
def FVal.isInf : FVal → Bool
  | .inf _ => true
  | _ => false
def FVal.sign : FVal → Bool
  | .nan _ => false
  | .inf n => n
  | .fin n _ _ => n

/-! ## Flags: bits 15:8 of KSTAT (R77, R120) -/

abbrev Flags := BitVec 8
def flSat : Flags := 0x80#8
def flNx : Flags := 0x40#8
def flUf : Flags := 0x20#8
def flOf : Flags := 0x10#8
def flDz : Flags := 0x08#8
def flNv : Flags := 0x04#8
def flBr2 : Flags := 0x02#8
def flTsoor : Flags := 0x01#8

/-- NV for a signalling NaN operand (R111). -/
def snanFlag (vs : List FVal) : Flags := if vs.any FVal.isSnan then flNv else 0

/-! ## Rounding (R117, R118) -/

/-- A rounding direction; stochastic rounding carries its draw `g`. -/
inductive Rm where
  | even | zero | up | down
  | stoch (g : BitVec 24)
  deriving DecidableEq, Repr

/-- Binary logarithm of n/d, rounded down (n, d positive). -/
def ratLog2 (n d : Nat) : Int :=
  let k : Int := (Nat.log2 n : Int) - Nat.log2 d
  -- n/d ≥ 2^k?
  if (if 0 ≤ k then decide (d * 2 ^ k.toNat ≤ n) else decide (d ≤ n * 2 ^ (-k).toNat)) then k else k - 1

/-- n/d·2^e as quotient, remainder and divisor at weight 2^q: n/d·2^e = (quo + rem/div)·2^q. -/
def scaleAt (n d : Nat) (e q : Int) : Nat × Nat × Nat :=
  let sh := e - q
  let n' := if 0 ≤ sh then n * 2 ^ sh.toNat else n
  let d' := if 0 ≤ sh then d else d * 2 ^ (-sh).toNat
  (n' / d', n' % d', d')

/-- Whether a magnitude quo + rem/div is rounded away from zero. -/
def roundsUp (rm : Rm) (neg : Bool) (quo rem div : Nat) : Bool :=
  match rm with
  | .even => decide (div < 2 * rem) || (2 * rem == div && quo % 2 == 1)
  | .zero => false
  | .up => !neg && rem != 0
  | .down => neg && rem != 0
  | .stoch g => decide (g.toNat < rem * 2 ^ 24 / div)

/-- A rounded result with the flags it sets. -/
structure Rounded where
  bits : Nat
  flags : Flags
  deriving DecidableEq, Repr

/-- The encoding of ±sig·2^q, where sig ≤ 2^(mb+1) and q ≥ qmin. -/
def Fmt.encode (f : Fmt) (neg : Bool) (sig : Nat) (q : Int) : Nat :=
  let s := neg.toNat * 2 ^ (f.bits - 1)
  if sig < 2 ^ f.mb then s + sig
  else
    let (sig, q) := if sig = 2 ^ (f.mb + 1) then (2 ^ f.mb, q + 1) else (sig, q)
    s + (q + f.mb + f.bias).toNat * 2 ^ f.mb + (sig - 2 ^ f.mb)

/-- The result of a magnitude beyond the largest finite value (R117, R118). -/
def Fmt.overflow (f : Fmt) (rm : Rm) (neg : Bool) : Nat :=
  match rm with
  | .even => f.inf neg
  | .zero => f.maxFinite neg
  | .up => if neg then f.maxFinite neg else f.inf neg
  | .down => if neg then f.inf neg else f.maxFinite neg
  | .stoch _ => f.inf neg

/-- round(±n/d·2^e, f, rm), once, with OF, UF and NX (R118, R120): underflow is tininess after rounding, as in IEEE 754. -/
def Fmt.round (f : Fmt) (rm : Rm) (neg : Bool) (n d : Nat) (e : Int) : Rounded :=
  if n = 0 then ⟨f.zero neg, 0⟩
  else
    let k := ratLog2 n d + e
    let q := max (k - f.mb) f.qmin
    let (quo, rem, div) := scaleAt n d e q
    let sig := quo + (roundsUp rm neg quo rem div).toNat
    let nx : Flags := if rem = 0 then 0 else flNx
    let tooBig := decide (f.emax < q + f.mb) && decide (2 ^ f.mb ≤ sig) || (q + f.mb == f.emax && decide (f.maxSig < sig))
    if tooBig then ⟨f.overflow rm neg, flOf ||| flNx⟩
    else
      let tiny :=
        if f.emin ≤ k then false
        else if k < f.emin - 1 then true
        else
          let (quo', rem', div') := scaleAt n d e (k - f.mb)
          decide (quo' + (roundsUp rm neg quo' rem' div').toNat < 2 ^ (f.mb + 1))
      ⟨f.encode neg sig q, nx ||| (if tiny && rem != 0 then flUf else 0)⟩

/-- An exact integer multiple of a power of two: the sums and products of finite values. -/
structure Dyadic where
  num : Int
  exp : Int
  deriving DecidableEq, Repr

/-- Exact sum. -/
def Dyadic.add (x y : Dyadic) : Dyadic :=
  if x.exp ≤ y.exp then ⟨x.num + y.num * 2 ^ (y.exp - x.exp).toNat, x.exp⟩
  else ⟨x.num * 2 ^ (x.exp - y.exp).toNat + y.num, y.exp⟩

/-- Exact product. -/
def Dyadic.mul (x y : Dyadic) : Dyadic := ⟨x.num * y.num, x.exp + y.exp⟩

/-- Comparison by the sign of the exact difference. -/
def Dyadic.lt (x y : Dyadic) : Bool := decide (x.num * 2 ^ (x.exp - min x.exp y.exp).toNat < y.num * 2 ^ (y.exp - min x.exp y.exp).toNat)

/-- The exact value of a finite operand; 0 for the others. -/
def FVal.dyadic : FVal → Dyadic
  | .fin neg sig exp => ⟨if neg then -(sig : Int) else sig, exp⟩
  | _ => ⟨0, 0⟩

/-- Round an exact dyadic value; `zneg` is the sign of an exact zero. -/
def Fmt.roundDy (f : Fmt) (rm : Rm) (zneg : Bool) (x : Dyadic) : Rounded :=
  if x.num = 0 then ⟨f.zero zneg, 0⟩ else f.round rm (decide (x.num < 0)) x.num.natAbs 1 x.exp

/-- The sign of an exact zero sum: that of its zero terms when they agree, else + except toward −∞ (IEEE 754). -/
def zeroSign (rm : Rm) (signs : List Bool) : Bool :=
  if signs.all id && signs != [] then true else if signs.all (!·) then false else rm == .down

/-! ## Sums of products -/

/-- The outcome of a sum of terms, each a product or an addend, before rounding. -/
inductive SumVal where
  | nan | inf (neg : Bool) | fin (x : Dyadic) (zneg : Bool)

/-- The product of two values as a value; zero times infinity is invalid (R111). -/
def mulVal (x y : FVal) : Option FVal :=
  if (x.isZero && y.isInf) || (x.isInf && y.isZero) then none
  else if x.isNan || y.isNan then some (.nan false)
  else if x.isInf || y.isInf then some (.inf (x.sign != y.sign))
  else some (.fin (x.sign != y.sign) (x.dyadic.num.natAbs * y.dyadic.num.natAbs) (x.dyadic.exp + y.dyadic.exp))

/-- The exact sum of terms, a missing term being an invalid product, with NV for it and for ∞ − ∞ (R111). -/
def sumVals (rm : Rm) (ts : List (Option FVal)) : SumVal × Flags :=
  if ts.any Option.isNone then (.nan, flNv)
  else
    let vs := ts.filterMap id
    if vs.any FVal.isNan then (.nan, 0)
    else
      let infs := (vs.filter FVal.isInf).map FVal.sign
      match infs with
      | s :: rest => if rest.all (· == s) then (.inf s, 0) else (.nan, flNv)
      | [] => (.fin ((vs.map FVal.dyadic).foldl Dyadic.add ⟨0, 0⟩) (zeroSign rm (vs.map FVal.sign)), 0)

/-- Round a sum. -/
def Fmt.roundSum (f : Fmt) (rm : Rm) (r : SumVal × Flags) : Rounded :=
  match r.1 with
  | .nan => ⟨f.nan, r.2⟩
  | .inf s => ⟨f.inf s, r.2⟩
  | .fin x zneg => let y := f.roundDy rm zneg x; ⟨y.bits, y.flags ||| r.2⟩

/-- x + y (R110, R111). -/
def Fmt.add (f : Fmt) (rm : Rm) (x y : Nat) : Rounded :=
  let a := f.value x; let b := f.value y
  let r := f.roundSum rm (sumVals rm [some a, some b])
  ⟨r.bits, r.flags ||| snanFlag [a, b]⟩

/-- The other sign. -/
def Fmt.flip (f : Fmt) (x : Nat) : Nat := x ^^^ 2 ^ (f.bits - 1)

/-- x − y. -/
def Fmt.sub (f : Fmt) (rm : Rm) (x y : Nat) : Rounded :=
  if (f.value y).isNan then f.add rm x y else f.add rm x (f.flip y)

/-- x·y, rounded once. -/
def Fmt.mul (f : Fmt) (rm : Rm) (x y : Nat) : Rounded :=
  let a := f.value x; let b := f.value y
  let r := f.roundSum rm (sumVals rm [mulVal a b])
  ⟨r.bits, r.flags ||| snanFlag [a, b]⟩

/-- x·y + z, rounded once (R467). -/
def Fmt.fma (f : Fmt) (rm : Rm) (x y z : Nat) : Rounded :=
  let a := f.value x; let b := f.value y; let c := f.value z
  let r := f.roundSum rm (sumVals rm [mulVal a b, some c])
  ⟨r.bits, r.flags ||| snanFlag [a, b, c]⟩

/-- Strictly below, for values that are no NaN; the infinities are the extremes and −0 equals +0. -/
def FVal.lt (a b : FVal) : Bool :=
  match a, b with
  | .inf s, .inf t => s && !t
  | .inf s, _ => s
  | _, .inf t => !t
  | a, b => a.dyadic.lt b.dyadic

/-- Equal, for values that are no NaN. -/
def FVal.eq (a b : FVal) : Bool := !a.isNan && !b.isNan && !a.lt b && !b.lt a

/-- VMIN and VMAX (R111): a NaN beside a number yields the number, −0 lies below +0. -/
def Fmt.minMax (f : Fmt) (isMax : Bool) (x y : Nat) : Rounded :=
  let a := f.value x; let b := f.value y
  let fl := snanFlag [a, b]
  if a.isNan && b.isNan then ⟨f.nan, fl⟩
  else if a.isNan then ⟨y, fl⟩
  else if b.isNan then ⟨x, fl⟩
  else
    let below := a.lt b || (a.eq b && a.sign && !b.sign)
    ⟨if below != isMax then x else y, fl⟩

/-- VABS and VNEG (R467): exact; a NaN gives the canonical NaN. -/
def Fmt.absNeg (f : Fmt) (neg : Bool) (x : Nat) : Rounded :=
  let a := f.value x
  if a.isNan then ⟨f.nan, snanFlag [a]⟩
  else ⟨if neg then f.flip x else x % 2 ^ (f.bits - 1), 0⟩

/-! ## Conversions (R121, R472) -/

/-- Round an exact value to an integer: the integer and whether it was inexact. -/
def roundInt (rm : Rm) (x : Dyadic) : Int × Bool :=
  let neg := decide (x.num < 0)
  let (quo, rem, div) := scaleAt x.num.natAbs 1 x.exp 0
  let m := quo + (roundsUp rm neg quo rem div).toNat
  (if neg then -(m : Int) else m, rem != 0)

/-- Least and greatest value of an integer type of `w` bits. -/
def intRange (w : Nat) (sgn : Bool) : Int × Int :=
  if sgn then (-(2 ^ (w - 1) : Int), 2 ^ (w - 1) - 1) else (0, 2 ^ w - 1)

/-- The bits of an integer, modulo 2^w. -/
def intBits (w : Nat) (x : Int) : Nat := (x % (2 ^ w : Int)).toNat

/-- FP to integer (R121). -/
def Fmt.toInt (f : Fmt) (rm : Rm) (w : Nat) (sgn : Bool) (x : Nat) : Rounded :=
  let (lo, hi) := intRange w sgn
  match f.value x with
  | .nan _ => ⟨0, flNv⟩
  | .inf neg => ⟨intBits w (if neg then lo else hi), flNv ||| flSat⟩
  | v =>
    let (i, nx) := roundInt rm v.dyadic
    if i < lo then ⟨intBits w lo, flNv ||| flSat⟩
    else if hi < i then ⟨intBits w hi, flNv ||| flSat⟩
    else ⟨intBits w i, if nx then flNx else 0⟩

/-- FP or exact value to an FP8 format saturates (R121). -/
def Fmt.saturate (f : Fmt) (rm : Rm) (zneg : Bool) (x : Dyadic) : Rounded :=
  let r := f.roundDy rm zneg x
  if r.flags &&& flOf ≠ 0 then ⟨f.maxFinite (decide (x.num < 0)), flSat ||| flOf ||| flNx⟩ else r

/-- Is the format an FP8 one? -/
def Fmt.isFp8 (f : Fmt) : Bool := f.bits == 8

/-- An exact dyadic value to a format (R121). -/
def Fmt.ofDyadic (f : Fmt) (rm : Rm) (zneg : Bool) (x : Dyadic) : Rounded :=
  if f.isFp8 then f.saturate rm zneg x else f.roundDy rm zneg x

/-- FP to FP (R121). -/
def Fmt.convert (src dst : Fmt) (rm : Rm) (x : Nat) : Rounded :=
  match src.value x with
  | .nan s => ⟨dst.nan, if s then flNv else 0⟩
  | .inf neg => if dst.ieee then ⟨dst.inf neg, 0⟩ else ⟨dst.maxFinite neg, flSat ||| flOf⟩
  | v => dst.ofDyadic rm v.sign v.dyadic

/-! ## Fixed-point bounds of real functions
A real number is bounded by (lo, hi): lo·2^(−P) ≤ x ≤ hi·2^(−P). -/

/-- An enclosing interval at a common precision. -/
structure Encl where
  lo : Int
  hi : Int
  deriving DecidableEq, Repr

/-- Σ_{k ≥ 1} of (−1)^(k−1)·x^(2k−1)/(2k−1) for x = 1/n, scaled by 2^P: the arctangent of a reciprocal. -/
def atanInv (P n : Nat) : Nat → Nat → Nat → Int → Int
  | 0, _, _, acc => acc
  | fuel + 1, k, t, acc =>
    if t = 0 then acc
    else atanInv P n fuel (k + 1) (t / (n * n)) (acc + (if k % 2 = 0 then (t / (2 * k + 1) : Int) else -((t / (2 * k + 1) : Nat) : Int)))

/-- π scaled by 2^P, within 2^8 units (Machin). -/
def piAt (P : Nat) : Int := 16 * atanInv P 5 P 0 (2 ^ P / 5) 0 - 4 * atanInv P 239 P 0 (2 ^ P / 239) 0

/-- ln 2 scaled by 2^P, within 2^8 units: Σ 1/(k·2^k). -/
def ln2At (P : Nat) : Nat → Nat → Nat
  | 0, _ => 0
  | fuel + 1, k => 2 ^ P / (k * 2 ^ k) + ln2At P fuel (k + 1)

/-- Taylor sum of exp for 0 ≤ r < 1 scaled by 2^P. -/
def expTaylor (P r : Nat) : Nat → Nat → Nat → Nat → Nat
  | 0, _, _, acc => acc
  | fuel + 1, k, t, acc => if t = 0 then acc else expTaylor P r fuel (k + 1) (t * r / 2 ^ P / k) (acc + t)

/-- Enclosure of e^x·2^(−n) with the exponent n, for a dyadic x of magnitude below 2^12: e^x = v·2^n with v in [1/2, 4). -/
def expEncl (P : Nat) (x : Dyadic) : Encl × Int :=
  let l : Int := ln2At P (P + 1) 1
  let xs : Int := if 0 ≤ x.exp + P then x.num * 2 ^ (x.exp + P).toNat else x.num / 2 ^ (-(x.exp + P)).toNat
  let n := xs / l
  let r := xs - n * l
  let v : Int := expTaylor P r.toNat (P + 2) 1 (2 ^ P) 0
  (⟨v - 2 ^ 24, v + 2 ^ 24⟩, n)

/-- cos and sin of an angle 0 ≤ t < 2 scaled by 2^P: alternate Taylor sums, within 2^12 units. -/
def trigTaylor (P t : Nat) : Nat → Nat → Nat → Int → Int
  | 0, _, _, acc => acc
  | fuel + 1, k, u, acc =>
    if u = 0 then acc
    else trigTaylor P t fuel (k + 2) (u * t / 2 ^ P * t / 2 ^ P / (k * (k + 1))) (if (k / 2) % 2 = 0 then acc + u else acc - u)

/-- Σ_{n ≥ 0} x^(2n+1)/(1·3·5···(2n+1)) scaled by 2^P, for the normal distribution function. -/
def phiSeries (P x2 : Nat) : Nat → Nat → Nat → Nat → Nat
  | 0, _, _, acc => acc
  | fuel + 1, n, t, acc => if t = 0 then acc else phiSeries P x2 fuel (n + 1) (t * x2 / 2 ^ P / (2 * n + 3)) (acc + t)

/-! ## Correct rounding of an irrational value
A positive irrational value known to lie strictly between consecutive multiples of 2^q is rounded as the midpoint of the two:
every direction and every 24-bit draw gives the same result for both, once the grid is 30 bits finer than the format. -/

/-- Round ±(j + 1/2)·2^q. -/
def Fmt.roundSticky (f : Fmt) (rm : Rm) (neg : Bool) (j : Nat) (q : Int) : Rounded := f.round rm neg (2 * j + 1) 1 (q - 1)

/-- The common integer part of an enclosure scaled by 2^(−cut), if both ends agree. -/
def Encl.floorAt (x : Encl) (cut : Nat) : Option Nat :=
  let a := x.lo / 2 ^ cut; let b := x.hi / 2 ^ cut
  if a = b ∧ 0 ≤ a then some a.toNat else none

/-- A value just above or just below the dyadic magnitude m·2^e (m positive), by less than one part in 2^140. -/
def Fmt.roundNear (f : Fmt) (rm : Rm) (neg : Bool) (m : Nat) (e : Int) (above : Bool) : Rounded :=
  let j := m * 2 ^ 120
  f.roundSticky rm neg (if above then j else j - 1) (e - 120)

/-- A positive magnitude below 2^(−1150). -/
def Fmt.roundTiny (f : Fmt) (rm : Rm) (neg : Bool) : Rounded := f.roundSticky rm neg 0 (-1200)

/-- Try precisions until the ends of an enclosure share their integer part. `g P` encloses a value v with v·2^n the number
wanted, v below 4. -/
def Fmt.roundEncl (f : Fmt) (rm : Rm) (neg : Bool) (g : Nat → Encl × Int) : Nat → Nat → Rounded
  | 0, P => let (x, n) := g P; f.roundSticky rm neg (x.lo / 2 ^ 32).toNat (n - P + 32)
  | fuel + 1, P =>
    let (x, n) := g P
    match x.floorAt 32 with
    | some j => f.roundSticky rm neg j (n - P + 32)
    | none => f.roundEncl rm neg g fuel (2 * P)

/-- |x| < 2^k for a dyadic x. -/
def Dyadic.below (x : Dyadic) (k : Int) : Bool := x.num == 0 || decide ((Nat.log2 x.num.natAbs : Int) + x.exp < k)

/-- e^x (R474), x finite and nonzero. -/
def Fmt.expDy (f : Fmt) (rm : Rm) (x : Dyadic) : Rounded :=
  if x.below (-150) then f.roundNear rm false 1 0 (decide (0 < x.num))
  else if !x.below 11 then (if 0 < x.num then f.roundSticky rm false 1 2000 else f.roundTiny rm false)
  else f.roundEncl rm false (fun P => expEncl P x) 4 320

/-- tanh x (R474), x finite and nonzero: (e^(2x) − 1)/(e^(2x) + 1). -/
def Fmt.tanhDy (f : Fmt) (rm : Rm) (x : Dyadic) : Rounded :=
  let neg := decide (x.num < 0)
  let m := x.num.natAbs
  if x.below (-100) then f.roundNear rm neg m x.exp false
  else if !x.below 9 then f.roundNear rm neg 1 0 false
  else
    f.roundEncl rm neg (fun P =>
      let (v, n) := expEncl P ⟨(2 * m : Nat), x.exp⟩
      -- e^(2x) = v·2^n with n ≥ 0: scale by 2^(−n)
      let one : Int := 2 ^ P / 2 ^ n.toNat
      (⟨(v.lo - one - 1) * 2 ^ P / (v.hi + one + 1), (v.hi - one + 1) * 2 ^ P / (v.lo + one - 1) + 1⟩, 0)) 4 1280

/-- Φ(x) scaled by 2^P for |x| < 64. -/
def phiEncl (P : Nat) (x : Dyadic) : Encl :=
  let x2 : Dyadic := x.mul x
  let xs : Nat := (if 0 ≤ x.exp + P then x.num.natAbs * 2 ^ (x.exp + P).toNat else x.num.natAbs / 2 ^ (-(x.exp + P)).toNat)
  let x2s : Nat := (if 0 ≤ x2.exp + P then x2.num.natAbs * 2 ^ (x2.exp + P).toNat else x2.num.natAbs / 2 ^ (-(x2.exp + P)).toNat)
  let (v, n) := expEncl P ⟨-x2.num, x2.exp - 1⟩
  let root : Nat := Nat.sqrt ((2 * piAt P).toNat * 2 ^ P)
  let s := phiSeries P x2s (8 * P + 64) 0 xs 0
  let mid : Int := (v.lo + v.hi) / 2 * s / root
  let part := if 0 ≤ n then mid * 2 ^ n.toNat else mid / 2 ^ (-n).toNat
  let c : Int := if x.num < 0 then 2 ^ (P - 1) - part else 2 ^ (P - 1) + part
  ⟨c - 2 ^ 40 * (s / 2 ^ P + 4), c + 2 ^ 40 * (s / 2 ^ P + 4)⟩

/-- x·Φ(x) (R474), x finite and nonzero. -/
def Fmt.geluDy (f : Fmt) (rm : Rm) (x : Dyadic) : Rounded :=
  let neg := decide (x.num < 0)
  let m := x.num.natAbs
  if x.below (-150) then f.roundNear rm neg m (x.exp - 1) (!neg)
  else if !x.below 6 then (if neg then f.roundTiny rm neg else f.roundNear rm neg m x.exp false)
  else
    f.roundEncl rm neg (fun P =>
      let c := phiEncl P x
      (⟨c.lo * m, c.hi * m⟩, x.exp)) 3 6000

/-- 1/√x (R474), x finite and positive: m·2^e with e even. -/
def Fmt.rsqrtDy (f : Fmt) (rm : Rm) (x : Dyadic) : Rounded :=
  let (m, e) := if x.exp % 2 = 0 then (x.num.natAbs, x.exp) else (2 * x.num.natAbs, x.exp - 1)
  let K := Nat.log2 m + 160
  let r := Nat.sqrt (2 ^ (2 * K) / m)
  if r * r * m = 2 ^ (2 * K) then f.round rm false r 1 (-(K : Int) - e / 2)
  else f.roundSticky rm false r (-(K : Int) - e / 2)

/-- cos(2πm/b) and sin(2πm/b) rounded to FP32, nearest-even (R159): `m` is taken below b, b a multiple of 4. -/
def twiddle (sine : Bool) (m b : Nat) : Nat :=
  -- sin(t) = cos(t − π/2)
  let m := (if sine then m + 3 * b / 4 else m) % b
  -- cos is even and changes sign over half a turn
  let m := if 2 * m > b then b - m else m
  let (m, neg) := if 4 * m > b then (b / 2 - m, true) else (m, false)
  if m = 0 then fp32.encode neg (2 ^ 23) (-23)
  else if 4 * m = b then 0
  else
    let P := 120
    let t := ((2 * piAt P).toNat * m) / b
    let c := trigTaylor P t P 1 (2 ^ P) 0
    (fp32.round .even neg c.toNat 1 (-(P : Int))).bits

/-! ## Types of the vector slots (R466) -/

/-- The format of type code `t` (8 to 13). -/
def fmtOf (t : BitVec 4) : Fmt :=
  if t = 8#4 then fp64 else if t = 9#4 then fp32 else if t = 10#4 then fp16 else if t = 11#4 then bf16
  else if t = 12#4 then e4m3 else e5m2

/-- Signed integer types have even codes (R107). -/
def isSigned (t : BitVec 4) : Bool := !t.getLsbD 0

/-- The integer value of the low `w` bits. -/
def intVal (w : Nat) (sgn : Bool) (x : Nat) : Int :=
  let y := x % 2 ^ w
  if sgn && decide (2 ^ (w - 1) ≤ y) then (y : Int) - 2 ^ w else y

/-! ## MX blocks (R112 to R116, R122, R123) -/

/-- Element width, fraction bits and clamp of the quantised formats 0 mxint8, 1 mxint6, 2 mxint4, 3 cmx8 (R113, R122). -/
def mxWidth (f : Nat) : Nat := if f = 1 then 6 else if f = 2 ∨ f = 4 ∨ f = 5 then 4 else 8
def mxFrac (f : Nat) : Nat := if f = 1 then 4 else if f = 2 ∨ f = 4 then 2 else 6
def mxClamp (f : Nat) : Int := if f = 1 then 31 else if f = 2 then 7 else 127

/-- The code of element `j` in a packed bit string; MXLO codes are unsigned (R113, R115). -/
def mxCode (f : Nat) (bits : Nat) (j : Nat) : Int :=
  let n := mxWidth f
  intVal n (f != 5) (bits / 2 ^ (n * j))

/-- The value of a code under scale `E`: none for a NaN scale (R112, R113). -/
def mxValue (f : Nat) (scale : Nat) (code : Int) : Option Dyadic :=
  if scale = 255 then none else some ⟨code, (scale : Int) - 127 - mxFrac f⟩

/-- A quantised block: scale, codes, ROWBAD, SAT and the flags it sets. -/
structure Quantised where
  scale : Nat
  codes : List Int
  rowBad : Bool
  sat : Bool
  flags : Flags
  deriving DecidableEq, Repr

/-- R122. `rms` gives each component's rounding direction. -/
def quantise (f : Nat) (vs : List FVal) (rms : List Rm) : Quantised :=
  if vs.any (fun v => v.isNan || v.isInf) then ⟨255, vs.map (fun _ => 0), true, false, 0⟩
  else
    let ds := vs.map FVal.dyadic
    let mags := (ds.filter (·.num != 0)).map fun d => (Nat.log2 d.num.natAbs : Int) + d.exp
    match mags with
    | [] => ⟨0, vs.map (fun _ => 0), false, false, 0⟩
    | k :: ks =>
      let x0 := ks.foldl max k
      let sat := decide (127 < x0)
      let x := max (min x0 127) (-127)
      let rs := (ds.zip rms).map fun (d, rm) => roundInt rm ⟨d.num, d.exp + mxFrac f - x⟩
      let m := mxClamp f
      let nx := (rs.zip ds).any fun (r, _) => r.2 || decide (r.1 < -m) || decide (m < r.1)
      ⟨(x + 127).toNat, rs.map fun r => min (max r.1 (-m)) m, false, sat,
        (if sat then flSat ||| flOf else 0) ||| (if nx then flNx else 0)⟩

/-- Pack codes of width `n` into a bit string, element 0 lowest. -/
def packCodes (n : Nat) : List Int → Nat
  | [] => 0
  | c :: cs => intBits n c + 2 ^ n * packCodes n cs

/-! ## The generator (R118) -/

/-- One draw: the new state, and the 24 bits drawn. -/
def xorshift (st : BitVec 32) : BitVec 32 × BitVec 24 :=
  let a := st ^^^ (st <<< 13)
  let b := a ^^^ (a >>> 17)
  let c := b ^^^ (b <<< 5)
  (c, field c 8 24)

/-- The state a seed gives (R118). -/
def seedState (seed : BitVec 32) : BitVec 32 := if seed = 0 then 0x9E3779B9#32 else seed

end Sys2Proof.Machine
end

