-- ==== Sys2Proof/Machine/Cache.lean ====
section
/-! DEFINITION. The caches (08_memory R173 to R177, R181 to R184, 09_ordering R201): L2 with its floors and merge windows, update-only
lines, and L1. -/
namespace Sys2Proof.Machine

/-- The operation codes of ATOM (R382); UPD's are mapped to them by `updOp`. -/
def combine (op : BitVec 4) (n : Nat) (old new : Nat) : Nat :=
  let sv (x : Nat) := intVal (8 * n) true x
  if op = 0#4 then new
  else if op = 2#4 then (old + new) % 2 ^ (8 * n)
  else if op = 3#4 then old &&& new
  else if op = 4#4 then old ||| new
  else if op = 5#4 then old ^^^ new
  else if op = 6#4 then (if sv new < sv old then new else old)
  else if op = 7#4 then (if new < old then new else old)
  else if op = 8#4 then (if sv old < sv new then new else old)
  else if op = 9#4 then (if old < new then new else old)
  else ((if n = 8 then fp64 else fp32).add .even old new).bits

/-- ATOM's code of a UPD operation (R464). -/
def updOp (op : BitVec 4) : BitVec 4 :=
  if op = 0#4 then 2#4 else if op = 1#4 then 6#4 else if op = 2#4 then 8#4 else if op = 3#4 then 7#4
  else if op = 4#4 then 9#4 else if op = 5#4 then 4#4 else if op = 6#4 then 5#4 else if op = 7#4 then 3#4 else 10#4

/-- The identity of an operation at `n` bytes (R183). -/
def identity (op : BitVec 4) (n : Nat) : Nat :=
  if op = 6#4 then 2 ^ (8 * n - 1) - 1
  else if op = 8#4 then 2 ^ (8 * n - 1)
  else if op = 7#4 ∨ op = 3#4 then 2 ^ (8 * n) - 1
  else if op = 10#4 then 0x80000000
  else 0

/-- ADDR and NOCOMP of a table entry (R169). -/
def pteAddr (e : Word) : Nat := (field e 8 44).toNat * 256
def pteNocomp (e : Word) : Bool := e.getLsbD 52

namespace Work

/-! ## What has to wait (R18, R182) -/

/-- Is no merge window open, and does no stack hold its traffic? -/
def noneHeld (w : Work) : Bool := w.windows.isEmpty && w.stackHeld.toList.all Option.isNone

/-- Did the step reach what it has to wait for? -/
def heldNow (w : Work) : Bool := w.focus.heldRead || w.focus.heldWrite

/-- What has been looked at in `v` is waited for as if it were part of this step. -/
def alsoHeld (w v : Work) : Work :=
  w.modFocus fun g => { g with heldRead := g.heldRead || v.focus.heldRead, heldWrite := g.heldWrite || v.focus.heldWrite }

/-- Perform something, unless it reaches past L2 at a stack whose traffic is held, or writes a line whose merge window is open: then nothing of it happens.
Whether it was performed. -/
def tryHeld (w : Work) (f : Work → Work) : Bool × Work :=
  if w.noneHeld then (true, f w)
  else
    let v := f (w.modFocus fun g => { g with heldRead := false, heldWrite := false, opened := [] })
    if v.heldNow then (false, w)
    else (true, v.modFocus fun g => { g with heldRead := w.focus.heldRead, heldWrite := w.focus.heldWrite, opened := g.opened ++ w.focus.opened })

/-- Perform something, or nothing of it while it is held; then it stands again in the next cycle. -/
def unlessHeld (w : Work) (f : Work → Work) : Work := (w.tryHeld f).2

/-! ## L2 (R177, R181, R182, R201) -/

/-- Slice of a line, as a number over the package. -/
def sliceOf (pa : Nat) : Nat := homeDie pa * 16 + homeSlice pa

/-- The floor of a slice for a partition (R201). -/
def floor (w : Work) (slice part : Nat) : BitVec 32 := Tab.get w.floors (slice * 4 + part) 0#32

/-- Stamps of a line at its home slice; a line not in L2 has those it would be filled with. -/
def l2Stamps (w : Work) (part line : Nat) : LineStamps :=
  Tab.get w.l2 line ⟨⟨0, 0, 0⟩, ⟨0, 0, 0⟩, w.floor (sliceOf (line * 128)) part, part⟩
def setL2Stamps (w : Work) (line : Nat) (s : LineStamps) : Work := { w with l2 := Tab.set w.l2 line s }

/-- Is the line in L2? -/
def inL2 (w : Work) (line : Nat) : Bool := w.l2.any fun e => e.1 == line

/-- Bits `lo` to `lo + n − 1` of a byte mask. -/
def maskBits (lo n : Nat) : BitVec 128 := BitVec.ofNat 128 ((2 ^ n - 1) * 2 ^ lo)

/-- Runs of set bits of a mask below `n`: their starts and lengths. -/
def runs (mask : BitVec 128) : List (Nat × Nat) :=
  (List.range 128).foldr (fun i acc =>
    if mask.getLsbD i then
      match acc with
      | (s, l) :: rest => if s = i + 1 then (i, l + 1) :: rest else (i, 1) :: acc
      | [] => [(i, 1)]
    else acc) []

/-- A line held whole. -/
def wholeLine (line : Nat) (data : Line) (dirty : BitVec 128) : L1Line := ⟨line, data, dirty, BitVec.allOnes 128⟩

/-- Dirty bytes of a HOST line go to the host's memory; the line stays, clean (R176, R177). -/
def cleanHost (w : Work) (line : Nat) : Work :=
  match w.hostL2.find? (·.line == line) with
  | none => w
  | some h =>
    let w := (runs h.dirty).foldl (fun w (s, l) => w.write (line * 128 + s) ((lineBytes h.data).drop s |>.take l)) w
    { w with hostL2 := w.hostL2.map fun x => if x.line = line then { x with dirty := 0 } else x }

/-- A line leaves L2: written back, its S stamp raising the slice's floor (R201). -/
def evictLine (w : Work) (line : Nat) : Work :=
  let w := w.cleanHost line
  let w := { w with hostL2 := w.hostL2.filter (·.line != line) }
  match w.l2.find? (·.1 == line) with
  | none => w
  | some e =>
    let slice := sliceOf (line * 128)
    let fl := w.floor slice e.2.part
    { w with l2 := Tab.erase w.l2 line, floors := if fl < e.2.s then Tab.set w.floors (slice * 4 + e.2.part) e.2.s else w.floors }

/-- Is swapping enabled: has a live partition SWAPEN (R301, R310)? -/
def swapOn (w : Work) : Bool := w.parts.toList.any fun p => p.live && p.swapen

/-- Lines a slice holds: 32 MiB (R17), a quarter of which is shadow storage while swapping is enabled (R301). -/
def sliceLines (w : Work) : Nat := if w.swapOn then 196608 else 262144

/-- Room for one more line in a slice: a full one evicts the line it has held longest (log entry 74: the spec names no replacement rule). -/
def l2Room (w : Work) (slice : Nat) : Work :=
  if w.l2.length < w.sliceLines then w
  else
    match w.l2.filter fun e => sliceOf (e.1 * 128) == slice with
    | [] => w
    | e :: rest => if rest.length + 1 < w.sliceLines then w else w.evictLine e.1

/-- Every slice gives back the lines that it holds beyond its share, the oldest first (R301). -/
def l2Trim (w : Work) : Work :=
  if w.l2.length ≤ w.sliceLines then w
  else (List.range 64).foldl (fun w slice =>
    let ls := w.l2.filter fun e => sliceOf (e.1 * 128) == slice
    (ls.take (ls.length - w.sliceLines)).foldl (fun w e => w.evictLine e.1) w) w

/-- Is the traffic of the stack behind a physical address held (R18)? -/
def heldStack (w : Work) (pa : Nat) : Bool := isHbm pa && (nth w.stackHeld (pa / 4096 % 8)).isSome

/-- Is a line's merge window open (R182)? -/
def windowOpen (w : Work) (line : Nat) : Bool := w.windows.any fun m => m.line == line && decide (w.ns < m.closeNs)

/-- The merge window of a line closes. -/
def endWindow (w : Work) (line : Nat) : Work :=
  match w.windows.find? fun m => m.line == line with
  | none => w
  | some m => ({ w with windows := w.windows.filter fun m => m.line != line }).sample 5 0xFFFF m.joined

/-- Reads join the open merge window of a line. -/
def joinWindow (w : Work) (line joined : Nat) : Work :=
  { w with windows := w.windows.map fun m => if m.line = line ∧ w.ns < m.closeNs then { m with joined := m.joined + joined } else m }

/-- A write, an ATOM or a merge that reaches a line whose merge window another step opened: it is performed after the fill, once the window has closed
(R182; log entry 15). -/
def afterWindow (w : Work) (line : Nat) : Work :=
  if w.windows.isEmpty then w
  else if w.windowOpen line && !w.focus.opened.contains line then w.modFocus fun g => { g with heldWrite := true } else w

/-- Bring a line into L2 where it is not. The miss opens a merge window that `joined` reads have joined, or joins the one that is open; it is noted where
the line's stack is held (R18, R182). -/
def l2Fill (w : Work) (part line : Nat) (write : Bool) (joined : Nat) : Work :=
  if w.inL2 line then w
  else
    let w := w.l2Room (sliceOf (line * 128))
    let w := if w.heldStack (line * 128) then
        w.modFocus fun g => if write then { g with heldWrite := true } else { g with heldRead := true }
      else w
    let w := w.setL2Stamps line (w.l2Stamps part line)
    if w.windowOpen line then w.joinWindow line joined
    else
      let w := w.endWindow line
      ({ w with windows := w.windows ++ [⟨line, w.ns + 40, joined⟩] } : Work).modFocus fun g => { g with opened := line :: g.opened }

/-- A read request at the home slice: a miss opens a merge window, a read within one joins (R182). The read that opens it counts as its first request
(DESIGN CHOICE, log entry 15). -/
def l2Touch (w : Work) (part line : Nat) : Work :=
  if w.inL2 line then
    if w.windows.isEmpty then w else w.joinWindow line 1
  else w.l2Fill part line false 1


/-- Does L2 hold the line apart from the memory behind it? Only HOST lines, whose memory the host writes as well (R177). -/
def hostLine (pa : Nat) (mt : BitVec 2) : Bool := isHost pa && mt != 3#2

/-- What a line that L2 holds has from a physical address on. -/
def l2Data (w : Work) (pa n : Nat) (mt : BitVec 2) : List Byte × Work :=
  if hostLine pa mt then
    match w.hostL2.find? (·.line == pa / 128) with
    | some h => ((lineBytes h.data).drop (pa % 128) |>.take n, w)
    | none =>
      let bs := w.bytes (pa / 128 * 128) 128
      (bs.drop (pa % 128) |>.take n, { w with hostL2 := w.hostL2 ++ [wholeLine (pa / 128) (lineOf bs) 0] })
  else (w.bytes pa n, w)

/-- Read bytes of a line at L2, or at the host port for a DIRECT page: LDA and STL, whose place R193 calls the home slice whatever MT is, go past L2
there too, as R173 says of a DIRECT page (DESIGN CHOICE, log entry 145). -/
def l2Read (w : Work) (part pa n : Nat) (mt : BitVec 2) : List Byte × Work :=
  if mt = 3#2 ∧ isHost pa then (w.bytes pa n, w) else (w.l2Touch part (pa / 128)).l2Data pa n mt

/-- What an ATOM or a merge of partial results finds at the home slice: no read request, so that it joins no merge window (R182). -/
def l2Take (w : Work) (part pa n : Nat) (mt : BitVec 2) : List Byte × Work := ((w.afterWindow (pa / 128)).l2Fill part (pa / 128) true 0).l2Data pa n mt

/-- A line with bytes replaced from byte `at0`. -/
def patch (l : Line) (at0 : Nat) (bs : List Byte) : Line :=
  let old := lineBytes l
  lineOf (old.take at0 ++ bs ++ old.drop (at0 + bs.length))

/-- What an aperture's view holds at the home slices now; nothing where it cannot be read. -/
def viewNow (w : Work) (part n off len : Nat) : Option (List Byte) :=
  let a := (w.part part).aperture n
  (List.range len).mapM fun i =>
    let srcs := a.bytesOf (off + i)
    if a.padding (off + i) || srcs.any fun pa => !isHbm pa || (w.badUnit pa 1).isSome then none
    else
      let bs := srcs.flatMap fun pa => w.bytes pa 1
      some (if a.writable then bs.getD 0 0 else a.viewByte (off + i) bs)

/-- A wait that a write of `n` bytes at a physical address ends has seen its write (R245, R448). -/
def seesWrite (w : Work) (pa n : Nat) : BlockReason → BlockReason
  | .memWord a v seen => .memWord a v (seen || (decide (a < pa + n) && decide (pa < a + 8) && w.word a != v))
  | .viewWord p k off v seen =>
    let mine := (List.range 8).any fun i => (((w.part p).aperture k).bytesOf (off + i)).any fun x => decide (pa ≤ x) && decide (x < pa + n)
    .viewWord p k off v (seen || (mine && match w.viewNow p k off 8 with | some bs => wordOf bs != v | none => false))
  | .pinned h slot count seen => .pinned h slot count (seen || w.byte (h + 28 + slot) != count)
  | b => b

/-- Does the wait watch each write performed at a home slice? -/
def watches : BlockReason → Bool
  | .memWord _ _ _ | .viewWord _ _ _ _ _ | .pinned _ _ _ _ => true
  | _ => false

/-- After a write at a home slice, in the slice's order: each registered wait compares its word (R448). -/
def noteWaits (w : Work) (pa n : Nat) : Work :=
  w.cores.foldl (fun v (k, c) => (List.range 4).foldl (fun v i =>
    match (nth c.ctxs i).block with
    | some b => if watches b then v.modCtx k i fun x => { x with block := some (w.seesWrite pa n b) } else v
    | none => v) v) w

/-- Write bytes of a line at L2, a miss filling it first (R182). A unit written whole has fresh check bits (R457). -/
def l2Write (w : Work) (part pa : Nat) (bs : List Byte) (mt : BitVec 2) : Work :=
  if mt = 3#2 ∧ isHost pa then w.write pa bs
  else
    let line := pa / 128
    let w := (w.afterWindow line).l2Fill part line true 0
    if hostLine pa mt then
      let w := if (w.hostL2.find? (·.line == line)).isSome then w
        else { w with hostL2 := w.hostL2 ++ [wholeLine line (lineOf (w.bytes (line * 128) 128)) 0] }
      { w.freshUnits pa bs.length with hostL2 := w.hostL2.map fun h =>
          if h.line = line then wholeLine line (patch h.data (pa % 128) bs) (h.dirty ||| maskBits (pa % 128) bs.length) else h }
    else (w.write pa bs).noteWaits pa bs.length

/-- Write the masked bytes of a line at L2. -/
def l2WriteMasked (w : Work) (part line : Nat) (data : Line) (mask : BitVec 128) (mt : BitVec 2) : Work :=
  (runs mask).foldl (fun w (s, l) => w.l2Write part (line * 128 + s) ((lineBytes data).drop s |>.take l) mt) w

/-- The type under which cached lines of a physical line are held. -/
def mtOf (pa : Nat) : BitVec 2 := if isHost pa then 2#2 else 0#2

/-! ## Update-only lines (R183, R184) -/

/-- Merge one update-only line at L2 and drop it. A merge reads the units it writes, so that an uncorrectable one stays so (R457). -/
def mergeUpd (w : Work) (core : Nat) (u : UpdLine) : Work :=
  let n := 2 ^ u.width.toNat
  let part := w.corePart core
  let marks := w.poison
  let w := w.modCore core fun c => { c with upd := c.upd.filter (· != u) }
  let bs := lineBytes u.data
  let w := (List.range (128 / n)).foldl (fun w i =>
    if u.touched.getLsbD (i * n) then
      let (old, w) := w.l2Take part (u.line * 128 + i * n) n (mtOf (u.line * 128))
      let new := leNat (bs.drop (i * n) |>.take n)
      w.l2Write part (u.line * 128 + i * n) (leBytes n (combine u.op n (leNat old) new)) (mtOf (u.line * 128))
    else w) w
  { w with poison := marks }

/-- Recall every update-only partial of a line (R184). -/
def recallLine (w : Work) (line : Nat) : Work :=
  w.cores.foldl (fun w c =>
    match c.2.upd.find? (·.line == line) with
    | some u => w.mergeUpd c.1 u
    | none => w) w

/-- Does a page that a core's accesses use now, and whose lines travel uncompressed, hold a physical address (R169)? -/
def nocomp (w : Work) (core part pa : Nat) : Bool :=
  ((w.core core).tlb ++ nth w.dieTlb (core / 32)).any fun e =>
    e.part == part && pteNocomp e.pte && decide (pteAddr e.pte ≤ pa) && decide (pa < pteAddr e.pte + e.size)

/-- A line leaves its slice for an L1 or an engine. What compression saves of its four flits is open, and nothing where its page is NOCOMP: a sample
of source 6 (R181, R318). -/
def sendLine (w : Work) (core part pa : Nat) : Work :=
  if !w.sampled 6 then w
  else if w.nocomp core part pa then w.sample 6 0xFFFF 0
  else let (k, w) := w.free; w.sample 6 0xFFFF (k % 4)

/-! ## L1 (R174 to R176) -/

def l1Find (w : Work) (core line : Nat) : Option L1Line := (w.core core).l1.find? (·.line == line)

/-- Write back the dirty bytes of an L1 line; the line stays, clean. -/
def l1Clean (w : Work) (part core line : Nat) : Work :=
  match w.l1Find core line with
  | some l =>
    if l.dirty = 0#128 then w
    else
      let w := w.l2WriteMasked part line l.data l.dirty (mtOf (line * 128))
      w.modCore core fun c => { c with l1 := c.l1.map fun x => if x.line = line then { x with dirty := 0 } else x }
  | none => w

/-- Drop an L1 line. -/
def l1Drop (w : Work) (core line : Nat) : Work := w.modCore core fun c => { c with l1 := c.l1.filter fun x => x.line != line }

/-- Lines L1 holds: 256 KiB (R16). -/
def l1Lines : Nat := 2048

/-- Room for one more line in L1, update-only lines counted: when full, the oldest line is written back and goes, or, where all are update-only,
the oldest of those is merged (log entry 74: the spec names no replacement rule). -/
def l1Room (w : Work) (part core : Nat) : Work :=
  let c := w.core core
  if c.l1.length + c.upd.length < l1Lines then w
  else
    match c.l1, c.upd with
    | x :: _, _ => (w.l1Clean part core x.line).l1Drop core x.line
    | [], u :: _ => w.mergeUpd core u
    | [], [] => w

/-- Put a line into L1. -/
def l1Fill (w : Work) (part core : Nat) (l : L1Line) : Work :=
  (w.l1Room part core).modCore core fun c => { c with l1 := c.l1 ++ [l] }

/-- Is the page's line kept in L1: NORMAL and HOST pages without RACECHK (R173)? -/
def cached (mt : BitVec 2) (race : Bool) : Bool := (mt == 0#2 || mt == 2#2) && !race

/-- Does the line hold `n` bytes from offset `off`? -/
def holds (l : L1Line) (off n : Nat) : Bool := maskBits off n &&& ~~~l.valid == 0#128

/-- Does a core's L1 hold `n` bytes? -/
def l1Holds (w : Work) (core pa n : Nat) : Bool := match w.l1Find core (pa / 128) with | some l => holds l (pa % 128) n | none => false

/-- Bytes sent by L2, under the dirty ones of the core's own L1 (R198). -/
def l2Through (w : Work) (core part pa n : Nat) (mt : BitVec 2) : List Byte × Work :=
  let own := w.l1Find core (pa / 128)
  let (bs, w) := (if mt = 3#2 ∧ isHost pa then w else w.sendLine core part pa).l2Read part pa n mt
  match own with
  | none => (bs, w)
  | some l => ((List.range n).map fun i =>
      if l.dirty.getLsbD (pa % 128 + i) then (lineBytes l.data).getD (pa % 128 + i) 0#8 else bs.getD i 0#8, w)

/-- Read bytes within a line for a rill or for an engine of `core` (R174, R184, R198). -/
def physRead (w : Work) (core part : Nat) (engine : Bool) (pa n : Nat) (mt : BitVec 2) (race : Bool) : List Byte × Work :=
  let line := pa / 128
  let w := if isHbm pa || isHost pa then w.recallLine line else w
  if engine || !cached mt race then w.l2Through core part pa n mt
  else if w.l1Holds core pa n then
    match w.l1Find core line with
    | some l => ((lineBytes l.data).drop (pa % 128) |>.take n, w)
    | none => ([], w)
  else if (w.badUnit (line * 128) 128).isSome then w.l2Through core part pa n mt
  else
    let (bs, w) := w.l2Through core part (line * 128) 128 mt
    (bs.drop (pa % 128) |>.take n,
      if (w.l1Find core line).isNone then w.l1Fill part core (wholeLine line (lineOf bs) 0)
      else w.modCore core fun c => { c with l1 := c.l1.map fun x => if x.line = line then wholeLine line (lineOf bs) x.dirty else x })

/-- Write bytes within a line for a rill (through L1 where cached) or for an engine (at the home slice, replacing the bytes of
its core's L1 copy) (R174, R198). -/
def physWrite (w : Work) (core part : Nat) (engine : Bool) (pa : Nat) (bs : List Byte) (mt : BitVec 2) (race : Bool) : Work :=
  let line := pa / 128
  let w := if isHbm pa || isHost pa then w.recallLine line else w
  let m := maskBits (pa % 128) bs.length
  if engine || !cached mt race || (w.badUnit (line * 128) 128).isSome then
    let w := w.l2Write part pa bs mt
    w.modCore core fun c =>
      if c.l1.any (·.line == line) then
        { c with l1 := c.l1.map fun x => if x.line = line then { x with data := patch x.data (pa % 128) bs, dirty := x.dirty &&& ~~~m, valid := x.valid ||| m } else x }
      else c
  else
    let w := if (w.l1Find core line).isSome then w else
      let (old, w) := (w.sendLine core part pa).l2Read part (line * 128) 128 mt
      w.l1Fill part core (wholeLine line (lineOf old) 0)
    w.modCore core fun c =>
      { c with l1 := c.l1.map fun x => if x.line = line then { x with data := patch x.data (pa % 128) bs, dirty := x.dirty ||| m, valid := x.valid ||| m } else x }

/-! ## The caches at a release and an acquire (R175) -/

/-- Write back the dirty bytes and the update-only lines that `which` picks of a core's L1. -/
def cleanL1 (w : Work) (part core : Nat) (which : Nat → Bool) : Work :=
  let c := w.core core
  let w := (c.l1.filter fun l => l.dirty != 0 && which l.line).foldl (fun w l => w.l1Clean part core l.line) w
  (c.upd.filter fun u => which u.line).foldl (fun w u => w.mergeUpd core u) w

/-- Drop the clean lines that `which` picks. A dirty line stays with its dirty bytes; the others of it are read again from L2 (DEDUCED, log
entry 132). -/
def dropClean (w : Work) (core : Nat) (which : Nat → Bool) : Work :=
  w.modCore core fun c => { c with
    l1 := (c.l1.filter fun l => l.dirty != 0 || !which l.line).map fun l => if which l.line then { l with valid := l.dirty } else l }

/-- A release, and an acquire, of every core of a list. -/
def cleanCores (w : Work) (part : Nat) (cores : List Nat) : Work := cores.foldl (fun w n => w.cleanL1 part n fun _ => true) w
def dropCores (w : Work) (cores : List Nat) : Work := cores.foldl (fun w n => w.dropClean n fun _ => true) w

/-- An engine's acquire for the rill that issued its entry: the clean lines of the rill's core are dropped (R175, R194). A helper core has no L1. -/
def acquireFor (w : Work) (who : Issuer) : Work := if who.helper then w else w.dropClean who.core fun _ => true

/-- An engine's completion releases for the rill that issued its entry: the dirty lines of the rill's core go to L2 (R175, R194, R199). A helper core
has no L1. -/
def releaseFor (w : Work) (who : Issuer) : Work := if who.helper then w else w.cleanL1 who.part who.core fun _ => true

/-- Clean one line and drop it: an access made at the home slice leaves no copy in L1 (R193). -/
def flushLine (w : Work) (part core line : Nat) : Work := (w.l1Clean part core line).l1Drop core line

end Work
end Sys2Proof.Machine
end

