-- ==== Sys2Proof/Machine/Translate.lean ====
section
/-! DEFINITION. Global virtual addresses: page tables and TLBs (08_memory R167 to R173). -/
namespace Sys2Proof.Machine

/-! ## Table entries (R168, R169) -/

/-- Index of a level, size of a page at it, size of a table of it. -/
def vaIndex (va : Nat) (lvl : Nat) : Nat :=
  if lvl = 1 then va / 2 ^ 16 % 32 else va / 2 ^ (21 + 9 * (lvl - 2)) % 512
def pageSize (lvl : Nat) : Nat := if lvl = 1 then 2 ^ 16 else 2 ^ (21 + 9 * (lvl - 2))
def tableSize (lvl : Nat) : Nat := if lvl = 1 then 256 else 4096

/-- MT, RACECHK and LEAF. -/
def pteMt (e : Word) : BitVec 2 := field e 6 2
def pteRace (e : Word) : Bool := e.getLsbD 53
def pteLeaf (e : Word) : Bool := e.getLsbD 1

/-- A memory type fits a range (R173); it is ignored for the flash range. -/
def mtAllowed (mt : BitVec 2) (pa : Nat) : Bool :=
  isFlash pa || (if mt = 0#2 ∨ mt = 1#2 then isHbm pa else isHost pa)

/-- R169: reserved bits, alignment and the place of leaves. -/
def pteBad (e : Word) (lvl : Nat) : Bool :=
  field e 54 10 != 0#10 ||
  (if pteLeaf e then
    decide (3 < lvl) || pteAddr e % pageSize lvl != 0 || (e.getLsbD 3 && !e.getLsbD 2)
   else
    lvl == 1 || field e 52 2 != 0#2 || field e 2 6 != 0#6 || pteAddr e % tableSize (lvl - 1) != 0)

/-- The checks of a leaf in R170's order, and the physical address. -/
def leafCheck (e : Word) (off : Nat) (kind : Access) (super : Bool) : Except Nat Nat :=
  let pa := pteAddr e + off
  if isReservedPa pa then .error 5
  else if kind = .fetch && isFlash pa then .error 5
  else if !mtAllowed (pteMt e) pa then .error 3
  else if !((match kind with | .read => e.getLsbD 2 | .write => e.getLsbD 3 | .fetch => e.getLsbD 4) && (super || e.getLsbD 5)) then .error 4
  else .ok pa

namespace Work

/-- R170 from level `lvl` at table `t`: the leaf entry and its page size, or the reason. An entry is read at L2 as any requester reads (R182,
R184). -/
def walk (part va : Nat) : Nat → Nat → Work → Except Nat (Word × Nat) × Work
  | 0, _, w => (.error 3, w)
  | lvl + 1, t, w =>
    if !isHbm t then (.error 5, w)
    else
      let a := t + 8 * vaIndex va (lvl + 1)
      let w := w.recallLine (a / 128)
      if (w.badUnit a 8).isSome then (.error 6, w)
      else
        let (bs, w) := w.l2Read part a 8 0#2
        let e := wordOf bs
        if !e.getLsbD 0 then (.error 2, w)
        else if pteBad e (lvl + 1) then (.error 3, w)
        else if pteLeaf e then (.ok (e, pageSize (lvl + 1)), w)
        else walk part va lvl (pteAddr e) w

/-- R167: bits 63:57 all equal bit 56. -/
def canonical (va : Word) : Bool := field va 56 8 == 0#8 || field va 56 8 == 0xFF#8

/-- Keep the newest entries of a TLB: a full one drops the entry it added first (DESIGN CHOICE, log entry 118: the spec names no rule). -/
def tlbAdd (cap : Nat) (t : List TlbEntry) (e : TlbEntry) : List TlbEntry := (e :: t).take cap

/-- Look a page up in a TLB. -/
def tlbFind (t : List TlbEntry) (part va : Nat) : Option TlbEntry :=
  t.find? fun e => e.part == part && decide (e.vbase ≤ va) && decide (va < e.vbase + e.size)

/-- Translate through the core's TLB (a rill's access) or the die's (an engine's), else by a walk, and keep what succeeds
(R170, R171). -/
def translate (w : Work) (core part : Nat) (rill : Bool) (va : Word) (kind : Access) (super : Bool) :
    Except Nat (Nat × Word) × Work :=
  if !canonical va then (.error 1, w)
  else
    let v := va.toNat
    let die := core / 32
    let coreHit := if rill then tlbFind (w.core core).tlb part v else none
    let dieHit := tlbFind (nth w.dieTlb die) part v
    let (found, w) : Except Nat TlbEntry × Work :=
      match coreHit, dieHit with
      | some e, _ => (.ok e, w)
      | none, some e => (.ok e, w)
      | none, none =>
        match walk part v 5 (w.part part).ptroot w with
        | (.ok (e, size), w) => (.ok ⟨part, v - v % size, size, e⟩, w)
        | (.error r, w) => (.error r, w)
    match found with
    | .error r => (.error r, w)
    | .ok e =>
      match leafCheck e.pte (v - e.vbase) kind super with
      | .error r => (.error r, w)
      | .ok pa =>
        let w := if rill && coreHit.isNone then w.modCore core fun c => { c with tlb := tlbAdd 64 c.tlb e } else w
        let w := if dieHit.isNone then
            { w with dieTlb := setNth w.dieTlb die (tlbAdd 16384 (nth w.dieTlb die) e) } else w
        (.ok (pa, e.pte), w)

end Work

end Sys2Proof.Machine
end

