-- ==== Sys2Proof/Machine/Access.lean ====
section
/-! DEFINITION. Accesses to the three spaces (08_memory R163 to R167, R173 to R184) with race checks and stamps
(09_ordering R200 to R203). Every access lies within one 128-byte line; wider ones are made of these. -/
namespace Sys2Proof.Machine

/-- The three spaces by their SP code (R90, R163). -/
inductive Space where
  | tile | cluster | global
  deriving DecidableEq, Repr

/-- Space of an SP or SPACE code; 0b11 is reserved (R74, R90). -/
def spaceOf (sp : BitVec 2) : Option Space :=
  if sp = 0#2 then some .tile else if sp = 1#2 then some .cluster else if sp = 2#2 then some .global else none

/-- Accesses: they change the machine even when a later part of them fails. -/
abbrev Acc := ExceptT Bad (StateM Work)

namespace Work

/-! ## Race stamps (R200 to R203) -/

/-- Stamps of a tile store line; zero where nothing is listed. -/
def tileStamps (w : Work) (core line : Nat) : LineStamps := Tab.get (w.core core).stamps line ⟨⟨0, 0, 0⟩, ⟨0, 0, 0⟩, 0, 0⟩
def setTileStamps (w : Work) (core line : Nat) (s : LineStamps) : Work :=
  w.modCore core fun c => { c with stamps := Tab.set c.stamps line s }

/-- Units of a line that `n` bytes from offset `off` touch (R201). -/
def unitMask (off n : Nat) : BitVec 16 :=
  if n = 0 then 0 else BitVec.ofNat 16 ((2 ^ ((off + n - 1) / 8 - off / 8 + 1) - 1) * 2 ^ (off / 8))

/-- Does a stamp race with an access (R202)? -/
def Stamp.hits (s : Stamp) (rser : BitVec 24) (clk : BitVec 32) (m : BitVec 16) : Bool :=
  s.rser != 0 && s.rser != rser && s.clock != 0xFFFFFFFF#32 && decide (clk ≤ s.clock) && s.mask &&& m != 0

/-- R202 on one line's stamps: the stamp that matched and whether it was W, or the new stamps. -/
def raceStep (s : LineStamps) (rser : BitVec 24) (clk : BitVec 32) (m : BitVec 16) (write : Bool) : Except (Stamp × Bool) LineStamps :=
  if clk = 0xFFFFFFFF#32 then .ok s
  else if Stamp.hits s.w rser clk m then .error (s.w, true)
  else if write && Stamp.hits s.rd rser clk m then .error (s.rd, false)
  else if write then .ok { s with w := ⟨rser, clk, m⟩ } else .ok { s with rd := ⟨rser, clk, m⟩ }

/-- The check of an ordinary access at its line. Helper cores neither check nor stamp (R200). -/
def raceCheck (w : Work) (who : Issuer) (pl : Place) (addr : Word) (n : Nat) (write : Bool) : Except Bad Work :=
  if who.helper then .ok w
  else
    match pl with
    | .tile core off =>
      match raceStep (w.tileStamps core (off / 128)) who.rser who.clock (unitMask (off % 128) n) write with
      | .ok s => .ok (if who.clock = 0xFFFFFFFF#32 then w else w.setTileStamps core (off / 128) s)
      | .error (st, wasW) => .error (.race addr st write wasW)
    | .phys pa _ true =>
      match raceStep (w.l2Stamps who.part (pa / 128)) who.rser who.clock (unitMask (pa % 128) n) write with
      | .ok s => .ok (if who.clock = 0xFFFFFFFF#32 then w else (w.l2Fill who.part (pa / 128) write 0).setL2Stamps (pa / 128) s)
      | .error (st, wasW) => .error (.race addr st write wasW)
    | _ => .ok w

/-- The S stamp of the line a place lies in; through an aperture, the largest over the lines behind `len` bytes of the view (R180, R204; log entry 99). -/
def sStamp (w : Work) (part : Nat) (pl : Place) (len : Nat := 8) : BitVec 32 :=
  match pl with
  | .tile core off => (w.tileStamps core (off / 128)).s
  | .phys pa _ _ => (w.l2Stamps part (pa / 128)).s
  | .view n off => (((w.part part).aperture n).lines off len).foldl (fun x l => let s := (w.l2Stamps part l).s; if x < s then s else x) 0
  | .past => 0

/-- Raise the S stamp of a place's line to at least `x`; through an aperture, of each line behind `len` bytes of the view (R203, R413). A DIRECT page of
the host has no L2 line: no stamp is kept there, and an acquire takes its slice's floor (DESIGN CHOICE, log entry 145). -/
def raiseS (w : Work) (part : Nat) (pl : Place) (x : BitVec 32) (len : Nat := 8) : Work :=
  let up (s : LineStamps) : LineStamps := { s with s := if s.s < x then x else s.s }
  let upLine (w : Work) (l : Nat) : Work := (w.l2Fill part l true 0).setL2Stamps l (up (w.l2Stamps part l))
  match pl with
  | .tile core off => w.setTileStamps core (off / 128) (up (w.tileStamps core (off / 128)))
  | .phys pa mt _ => if mt = 3#2 ∧ isHost pa then w else upLine w (pa / 128)
  | .view n off => (((w.part part).aperture n).lines off len).foldl upLine w
  | .past => w

/-! ## From an address to a place -/

/-- The braid core that serves as number `b` of an instance. -/
def braidCore (w : Work) (inst b : Nat) : Option Nat := (w.inst? inst).bind fun i => i.cores[b]?

end Work

/-- Where an address of a space lies, with the checks of R163, R165, R167, R170, R180. `rill` says that a rill accesses (its
accesses do not reach flash, R167). -/
def place (who : Issuer) (rill : Bool) (sp : Space) (addr : Word) (kind : Access) : Acc Place := fun w =>
  match sp with
  | .tile =>
    if field addr 24 40 ≠ 0#40 then (.error (.access addr), w)
    else if 0x200000#64 ≤ addr then (.ok .past, w)
    else (.ok (.tile who.core addr.toNat), w)
  | .cluster =>
    if field addr 23 41 ≠ 0#41 then (.error (.access addr), w)
    else
      match w.braidCore who.inst (field addr 21 2).toNat with
      | some c => (.ok (.tile c (field addr 0 21).toNat), w)
      | none => (.error (.access addr), w)
  | .global =>
    if !Work.canonical addr then (.error (.xlate 1 addr), w)
    else
      match (w.part who.part).claim addr with
      | some n =>
        let a := (w.part who.part).aperture n
        if !a.permits kind who.super then (.error (.xlate 4 addr), w)
        else if kind = .write && !a.writable then (.error (.access addr), w)
        else (.ok (.view n (addr.toNat - a.vbase)), w)
      | none =>
        match w.translate who.core who.part rill addr kind who.super with
        | (.error r, w) => (.error (.xlate r addr), w)
        | (.ok (pa, pte), w) =>
          if rill && isFlash pa then (.error (.access addr), w)
          else (.ok (.phys pa (pteMt pte) (pteRace pte)), w)

/-- R180: a physical byte behind `n` bytes of a view that falls outside HBM takes PARANGE. -/
def checkSpan (who : Issuer) (pl : Place) (addr : Word) (n : Nat) : Acc Unit := fun w =>
  match pl with
  | .view k off =>
    let a := (w.part who.part).aperture k
    if (List.range n).any fun i => (a.bytesOf (off + i)).any fun pa => !isHbm pa then (.error (.xlate 5 addr), w) else (.ok (), w)
  | _ => (.ok (), w)

/-- Fail with the first uncorrectable unit in `n` bytes at key `k`, named as the access addresses it (R302, R284). -/
def checkUnits (addr : Word) (k n : Nat) : Acc Unit := fun w =>
  match w.badUnit k n with
  | some u => (.error (.poison (addr + BitVec.ofNat 64 (8 * u) - BitVec.ofNat 64 k)), w)
  | none => (.ok (), w)

/-- Can a view byte be read: all its sources in HBM, none uncorrectable (R180, R302)? -/
def viewCheck (who : Issuer) (n off : Nat) (addr : Word) : Acc Unit := fun w =>
  let a := (w.part who.part).aperture n
  let srcs := if a.padding off then [] else a.bytesOf off
  if srcs.any fun pa => !isHbm pa then (.error (.xlate 5 addr), w)
  else if srcs.any fun pa => (w.badUnit pa 1).isSome then (.error (.poison (addr - BitVec.ofNat 64 (addr.toNat % 8))), w)
  else (.ok (), w)

/-- The lines behind an access through an aperture. A rill's own L1 gives up its copies first, so that the rill's accesses keep their order (R64,
R193; DEDUCED, log entry 133). -/
def Work.openView (w : Work) (who : Issuer) (engine : Bool) (n off len : Nat) : Work :=
  if engine then w
  else ((((w.part who.part).aperture n).lines off len).filter fun l => isHbm (l * 128)).foldl (fun w l => w.flushLine who.part who.core l) w

/-- A view byte, from its sources at L2, for an engine under the dirty bytes of its core's L1 (R180, R198). The bytes that pad a HALFSPEC row have no
value in the spec: free values. -/
def viewByteAt (who : Issuer) (n off : Nat) : Acc Byte := fun w =>
  let a := (w.part who.part).aperture n
  if a.padding off then let (x, w) := w.free; (.ok (BitVec.ofNat 8 x), w)
  else
    let bs := (a.bytesOf off).map fun pa =>
      match w.l1Find who.core (pa / 128) with
      | some l => if l.dirty.getLsbD (pa % 128) then (lineBytes l.data).getD (pa % 128) 0 else w.byte pa
      | none => w.byte pa
    (.ok (if a.writable then bs.getD 0 0 else a.viewByte off bs), w)

/-- `len` bytes of an aperture's view: each line behind them is sent once (R182). -/
def viewRead (who : Issuer) (n off len : Nat) : Acc (List Byte) := do
  modify fun w => (((w.part who.part).aperture n).lines off len).foldl (fun w l =>
    ((w.recallLine l).sendLine who.core who.part (l * 128)).l2Touch who.part l) w
  (List.range len).mapM fun i => viewByteAt who n (off + i)

/-- Does a read within a line meet an uncorrectable unit, or lie where an aperture's bytes cannot be read? Bytes that the reader's L1 holds need
none of the line's. -/
def checkReadable (who : Issuer) (engine : Bool) (pl : Place) (addr : Word) (n : Nat) : Acc Unit := do
  match pl with
  | .past => return ()
  | .tile core off => checkUnits addr (tileKey core off) n
  | .phys pa mt race => if !(← get).l1Holds who.core pa n || engine || !Work.cached mt race then checkUnits addr pa n
  | .view a off =>
    modify fun w => w.openView who engine a off n
    (List.range n).forM fun i => viewCheck who a (off + i) (addr + BitVec.ofNat 64 i)

/-- Read `n` bytes at a place (within one line). A tile store address past the end gives zeros (R165). -/
def readPlace (who : Issuer) (engine : Bool) (pl : Place) (addr : Word) (n : Nat) : Acc (List Byte) := do
  checkReadable who engine pl addr n
  match pl with
  | .past => return List.replicate n 0#8
  | .tile core off => return (← get).bytes (tileKey core off) n
  | .phys pa mt race => modifyGet fun w => w.physRead who.core who.part engine pa n mt race
  | .view a off => viewRead who a off n

/-- What an ATOM, or an UPD performed at once, finds at the home slice: no read request, and no line is sent (R182, R181). -/
def homeTake (who : Issuer) (pl : Place) (addr : Word) (n : Nat) : Acc (List Byte) := do
  match pl with
  | .phys pa mt _ =>
    checkUnits addr pa n
    modifyGet fun w => (w.recallLine (pa / 128)).l2Take who.part pa n mt
  | _ => readPlace who true pl addr n

/-- Write bytes at a place (within one line). -/
def writePlace (who : Issuer) (engine : Bool) (pl : Place) (addr : Word) (bs : List Byte) : Acc Unit := do
  match pl with
  | .past => return ()
  | .tile core off => modify fun w => w.write (tileKey core off) bs
  | .phys pa mt race => modify fun w => w.physWrite who.core who.part engine pa bs mt race
  | .view a off =>
    let ap := ((← get).part who.part).aperture a
    checkSpan who pl addr bs.length
    let pas := (List.range bs.length).map fun i => ap.flat (off + i)
    modify fun w =>
      let w := (pas.zip bs).foldl (fun w (pa, b) => w.physWrite who.core who.part true pa [b] 0#2 false) (w.openView who engine a off bs.length)
      -- a unit all of whose bytes were written has fresh check bits (R457)
      { w with poison := w.poison.filter fun u => !((List.range 8).all fun j => pas.contains (8 * u + j)) }

/-- Does a write within a line meet an uncorrectable unit, or lie where an aperture's bytes cannot be read? -/
def checkWritable (who : Issuer) (pl : Place) (addr : Word) (n : Nat) : Acc Unit :=
  match pl with
  | .tile c off => checkUnits addr (tileKey c off) n
  | .phys pa _ _ => checkUnits addr pa n
  | .view a off => (List.range n).forM fun i => viewCheck who a (off + i) (addr + BitVec.ofNat 64 i)
  | .past => return ()

/-- Check for a race (R202). -/
def checkRace (who : Issuer) (pl : Place) (addr : Word) (n : Nat) (write : Bool) : Acc Unit := fun w =>
  match w.raceCheck who pl addr n write with
  | .ok w => (.ok (), w)
  | .error e => (.error e, w)

/-- An ordinary read of `n` bytes that do not cross a line, aligned by the caller. -/
def readMem (who : Issuer) (engine : Bool) (sp : Space) (addr : Word) (n : Nat) : Acc (List Byte) := do
  let pl ← place who (!engine) sp addr .read
  if engine && pl = .past then throw (.access addr)
  checkSpan who pl addr n
  checkRace who pl addr n false
  readPlace who engine pl addr n

/-- An ordinary write of bytes that do not cross a line. -/
def writeMem (who : Issuer) (engine : Bool) (sp : Space) (addr : Word) (bs : List Byte) : Acc Unit := do
  let pl ← place who (!engine) sp addr .write
  if engine && pl = .past then throw (.access addr)
  checkSpan who pl addr bs.length
  checkRace who pl addr bs.length true
  writePlace who engine pl addr bs

/-- Cut `n` bytes from an address into pieces within lines: offsets and lengths. -/
def pieces (addr : Nat) : Nat → Nat → List (Nat × Nat)
  | 0, _ => []
  | fuel + 1, n =>
    if n = 0 then []
    else
      let k := min n (128 - addr % 128)
      (0, k) :: (pieces (addr + k) fuel (n - k)).map fun (o, l) => (o + k, l)

/-- An ordinary read of any number of bytes, line by line. -/
def readMany (who : Issuer) (engine : Bool) (sp : Space) (addr : Word) (n : Nat) : Acc (List Byte) := do
  let parts ← (pieces addr.toNat (n / 128 + 2) n).mapM fun (o, l) => readMem who engine sp (addr + BitVec.ofNat 64 o) l
  return parts.flatten

/-- An ordinary write of any number of bytes, line by line. -/
def writeMany (who : Issuer) (engine : Bool) (sp : Space) (addr : Word) (bs : List Byte) : Acc Unit :=
  (pieces addr.toNat (bs.length / 128 + 2) bs.length).forM fun (o, l) =>
    writeMem who engine sp (addr + BitVec.ofNat 64 o) (bs.drop o |>.take l)

/-- Read without a race check: synchronising and hardware accesses. -/
def readSync (who : Issuer) (engine : Bool) (sp : Space) (addr : Word) (n : Nat) : Acc (List Byte × Place) := do
  let pl ← place who (!engine) sp addr .read
  return (← readPlace who engine pl addr n, pl)

/-- Write without a race check. -/
def writeSync (who : Issuer) (engine : Bool) (sp : Space) (addr : Word) (bs : List Byte) : Acc Place := do
  let pl ← place who (!engine) sp addr .write
  writePlace who engine pl addr bs
  return pl

/-! ## Latencies of interlocked accesses (typical, log entry 11) -/

/-- Ring hops between dies 0–1–3–2–0 (R11). -/
def dieHops (a b : Nat) : Nat := if a = b then 0 else if a + b = 3 then 2 else 1

/-- Cycles until a load's result lands. -/
def loadLatency (w : Work) (core : Nat) : Place → Nat
  | .tile _ _ => Config.latCluster
  | .past => Config.latCluster
  | .view _ _ => Config.latL2 1
  | .phys pa mt race =>
    if Work.cached mt race && w.l1Holds core pa 1 then Config.latL1
    else if isHost pa then Config.latHost
    else if w.inL2 (pa / 128) then Config.latL2 (dieHops (core / 32) (homeDie pa))
    else Config.latHbm

end Sys2Proof.Machine
end

