-- ==== Sys2Proof/Machine/Ops.lean ====
section
/-! DEFINITION. Shared operations: results in flight and their landing (03_core R55, R56, R60), killing an instance (14_traps R297),
taking a trap (R286 to R293) and returning from one (R294). -/
namespace Sys2Proof.Machine

/-! ## Traps as slots raise them (R284) -/

/-- A trap with its frame fields. -/
structure Trap where
  code : Nat
  addr : Word := 0
  info : Word := 0
  info2 : Word := 0
  sub : Nat := 0
  deriving DecidableEq, Repr

/-- A slot's action: it may end in a trap. -/
abbrev Act := ExceptT Trap (StateM Work)

def cIllBundle : Nat := 0x01
def cIllOp : Nat := 0x02
def cDslot : Nat := 0x03
def cLoopSeq : Nat := 0x04
def cStallShort : Nat := 0x05
def cWrClash : Nat := 0x06
def cDblBr : Nat := 0x07
def cFetch : Nat := 0x08
def cCodeEcc : Nat := 0x09
def cIllCode : Nat := 0x0A
def cBadTarget : Nat := 0x0B
def cAccess : Nat := 0x10
def cXlate : Nat := 0x11
def cDomain : Nat := 0x12
def cSwz : Nat := 0x13
def cMemRace : Nat := 0x14
def cPoison : Nat := 0x15
def cPriv : Nat := 0x16
def cSpawnBusy : Nat := 0x17
def cSpawnFull : Nat := 0x18
def cBarrMask : Nat := 0x19
def cBarrDead : Nat := 0x1A
def cWfault : Nat := 0x1B
def cVerOrd : Nat := 0x1C
def cPinFault : Nat := 0x1D
def cAllocX : Nat := 0x1E
def cFreeBad : Nat := 0x1F
def cDepUf : Nat := 0x20
def cTrap : Nat := 0x21
def cBudget : Nat := 0x30
def cDeadline : Nat := 0x31
def cAuxFault : Nat := 0x32
def cExtern : Nat := 0x33
def cUncont : Nat := 0x3D
def cTrap2 : Nat := 0x3E
def cCore : Nat := 0x3F

/-- Is the cause of class S: taken by one slot whose bundle otherwise completes (R283, R284)? -/
def isClassS (code : Nat) : Bool := decide (0x10 ≤ code) && decide (code ≤ 0x21)
/-- Is the cause a fetch trap? -/
def isClassF (code : Nat) : Bool := decide (8 ≤ code) && decide (code ≤ 0xB)

/-- The trap of a failed access (R172, R202, R284, R302). -/
def Bad.trap : Bad → Trap
  | .access a => { code := cAccess, addr := a }
  | .xlate r a => { code := cXlate, addr := a, sub := r }
  | .poison a => { code := cPoison, addr := a, sub := 2 }
  | .race a st write wasW =>
    { code := cMemRace, addr := a, info := 0#8 ++ st.rser ++ st.clock, sub := write.toNat + 2 * wasW.toNat }

/-- An access within a slot's action. -/
def access {α : Type} (m : Acc α) : Act α := fun w =>
  match m w with
  | (.ok a, w) => (.ok a, w)
  | (.error b, w) => (.error b.trap, w)

/-- Raise a trap. -/
def trap {α : Type} (t : Trap) : Act α := throw t

/-! ## Results in flight -/

/-- A result as a slot produces it. -/
structure Res where
  kind : ResKind
  reg : Nat
  value : Line
  lat : Nat
  flags : Flags := 0
  xtra : Word := 0
  interlocked : Bool := false

/-- Writes to s0 and p0 are discarded; only their flags land (R56). -/
def Res.kept (r : Res) : ResKind := if (r.kind = .sReg ∨ r.kind = .pReg) ∧ r.reg = 0 then .flagsOnly else r.kind

/-- R165: among slots of one bundle that go out of range, KTSOA takes the lowest slot's address. -/
def lowestTsoor (fs : List InFlight) (seqNo slot : Nat) (mine : Word) : Word :=
  match fs.find? fun f => f.seqNo == seqNo && decide (f.slot ≤ slot) && f.flags.getLsbD 0 with
  | some f => f.xtra
  | none => mine

namespace Work

/-- Put a result in flight: it lands `lat` cycles after the slot's issue (R55). -/
def put (w : Work) (r : Res) : Work :=
  let k := r.kept
  if k = .flagsOnly && r.flags = 0 then w
  else
    let fc := w.focus
    let x := if r.flags.getLsbD 0 then lowestTsoor w.me.inflight fc.seqNo fc.slot r.xtra else r.xtra
    let f : InFlight := ⟨fc.issueAt + r.lat, fc.seqNo, fc.slot, k, r.reg, r.flags, x, r.value, r.interlocked⟩
    w.modMe fun c =>
      let old := if r.flags.getLsbD 0 then
          c.inflight.map fun g => if g.seqNo = fc.seqNo ∧ fc.slot < g.slot ∧ g.flags.getLsbD 0 then { g with xtra := x } else g
        else c.inflight
      { c with inflight := old ++ [f] }

/-- A scalar, address, predicate, vector, mask or stream result. -/
def putS (w : Work) (d : BitVec 6) (v : Word) (lat : Nat) (flags : Flags := 0) : Work :=
  w.put { kind := .sReg, reg := d.toNat, value := v.setWidth 1024, lat := lat, flags := flags }
def putA (w : Work) (d : BitVec 4) (v : Word) (lat : Nat) : Work :=
  w.put { kind := .aReg, reg := d.toNat, value := v.setWidth 1024, lat := lat }
def putP (w : Work) (d : BitVec 4) (v : Bool) (lat : Nat) (flags : Flags := 0) : Work :=
  w.put { kind := .pReg, reg := d.toNat, value := if v then 1 else 0, lat := lat, flags := flags }
def putV (w : Work) (d : BitVec 5) (v : Line) (lat : Nat) (flags : Flags := 0) : Work :=
  w.put { kind := .vReg, reg := d.toNat, value := v, lat := lat, flags := flags }
def putQ (w : Work) (d : BitVec 3) (v : BitVec 128) (lat : Nat) (flags : Flags := 0) : Work :=
  w.put { kind := .qReg, reg := d.toNat, value := v.setWidth 1024, lat := lat, flags := flags }
def putG (w : Work) (d : BitVec 4) (g : Stream) (lat : Nat) : Work :=
  w.put { kind := .gReg, reg := d.toNat, value := (g.pos ++ g.layout ++ g.base).setWidth 1024, lat := lat }
/-- Flags alone, as those of a store that goes out of range (R165, R288 KIND 9). -/
def putFlags (w : Work) (flags : Flags) (xtra : Word) (lat : Nat) : Work :=
  w.put { kind := .flagsOnly, reg := 0, value := 0, lat := lat, flags := flags, xtra := xtra }

end Work

/-! ## Landing (R55, R56, R60, R77, R445, R480) -/

/-- Sticky flags set as a result lands; KTSOA when TSOOR goes from 0 to 1 (R76, R77). -/
def Ctx.addFlags (c : Ctx) (fl : Flags) (xtra : Word) : Ctx :=
  { c with
    kstat := c.kstat ||| (fl.setWidth 64 <<< 8)
    ktsoa := if fl.getLsbD 0 && !c.kstat.getLsbD 8 then xtra else c.ktsoa }

/-- The exact accumulator's X as an integer (R126). -/
def Ctx.xval (c : Ctx) : Int := c.xacc.toInt

/-- What XCLR, XFMA and XADD do as they land (R127): flags NV and OF. -/
def Ctx.xaccLand (c : Ctx) (op : Word) (a b : Word) : Ctx × Flags :=
  if op = 0 then ({ c with xacc := 0, xclass := 0 }, 0)
  else
    let x := fp64.value a.toNat
    let y := if op = 1 then fp64.value b.toNat else fp64.value 0x3FF0000000000000
    let sn := if op = 1 then snanFlag [x, y] else snanFlag [x]
    match mulVal x y with
    | none => ({ c with xclass := 3 }, flNv ||| sn)
    | some (.nan _) => ({ c with xclass := 3 }, sn)
    | some (.inf neg) =>
      if c.xclass = 3#2 then (c, sn)
      else if c.xclass = (if neg then 1#2 else 2#2) then ({ c with xclass := 3 }, flNv ||| sn)
      else ({ c with xclass := if neg then 2#2 else 1#2 }, sn)
    | some v =>
      if c.xclass ≠ 0#2 then (c, sn)
      else
        let d := v.dyadic
        -- every product is a multiple of 2^-2148 (R126)
        let k := d.exp + 2148
        let term : Int := if 0 ≤ k then d.num * 2 ^ k.toNat else d.num / 2 ^ (-k).toNat
        let s := c.xval + term
        ({ c with xacc := BitVec.ofInt 4352 s },
          sn ||| if s < -(2 ^ 4351 : Int) ∨ (2 ^ 4351 : Int) ≤ s then flOf else 0)

/-- A write of KRND reseeds the generator (R118). -/
def Ctx.setKrnd (c : Ctx) (v : Word) : Ctx :=
  { c with krnd := (v &&& 0xFFFFFFFF00000007#64), gen := seedState (field v 32 32) }

namespace Work

/-- The effect of an MTSR as it lands (R445). What user mode may not write was never put in flight. -/
def sysLand (w : Work) (core ctx reg : Nat) (v : Word) : Work :=
  if reg = 0 then
    w.modCtx core ctx fun c =>
      { c with kstat := (c.kstat &&& ~~~(v &&& 0xFF00#64) &&& ~~~2#64) ||| (v &&& 2#64) }
  else if reg = 1 then w.modCtx core ctx fun c => { c with ktsoa := v }
  else if reg = 2 then w.modCtx core ctx fun c => { c with kframe := v }
  else if reg = 3 then w.modCtx core ctx fun c => { c with kvec := v }
  else if reg = 4 then
    w.modInst (w.ctx core ctx).inst fun i =>
      { i with counter := v.toNat, budgetSent := if v = 0 then i.budgetSent else false,
               rills := if v = 0 then i.rills else i.rills.map fun r => { r with gotBudget := false } }
  else if reg = 6 then w.modCtx core ctx fun c => { c with kest := v }
  else if reg = 8 then w.modCtx core ctx fun c => c.setKrnd v
  else if reg = 9 then w.modCtx core ctx fun c => { c with kclk := field v 0 32 }
  else w

/-- One result lands. -/
def landOne (w : Work) (core ctx : Nat) (f : InFlight) : Work :=
  let lo : Word := field f.value 0 64
  let w :=
    match f.kind with
    | .sReg => w.modCtx core ctx fun c => { c with s := setNth c.s f.reg lo }
    | .aReg => w.modCtx core ctx fun c => { c with a := setNth c.a f.reg lo }
    | .pReg => w.modCtx core ctx fun c =>
        { c with p := (c.p &&& ~~~(1#16 <<< f.reg)) ||| (if lo.getLsbD 0 then 1#16 <<< f.reg else 0) }
    | .vReg => w.modCtx core ctx fun c => { c with v := setNth c.v f.reg f.value }
    | .qReg => w.modCtx core ctx fun c => { c with q := setNth c.q f.reg (field f.value 0 128) }
    | .gReg => w.modCtx core ctx fun c => { c with g := setNth c.g f.reg ⟨lo, field f.value 64 64, field f.value 128 64⟩ }
    | .gPos => w.modCtx core ctx fun c => { c with g := setNth c.g f.reg { nth c.g f.reg with pos := lo } }
    | .gBase => w.modCtx core ctx fun c => { c with g := setNth c.g f.reg { nth c.g f.reg with base := (nth c.g f.reg).base + lo } }
    | .sysReg => w.sysLand core ctx f.reg lo
    | .xaccOp => w.modCtx core ctx fun c => let (c, fl) := c.xaccLand f.xtra lo (field f.value 64 64); c.addFlags fl 0
    | .flagsOnly => w
  w.modCtx core ctx fun c => c.addFlags f.flags f.xtra

/-- The order of a frame's in-flight entries: by landing cycle, within one cycle by slot (R288), a slot's by issue. -/
def frameBefore (f g : InFlight) : Bool :=
  decide (f.land < g.land) || (f.land == g.land && (decide (f.slot < g.slot) || (f.slot == g.slot && decide (f.seqNo ≤ g.seqNo))))

/-- Landing order: by cycle; system register writes first, so that a flag landing beside a clear stays (R445); then later-issued
bundles and higher slots last (R60). -/
def landsBefore (f g : InFlight) : Bool :=
  let k (x : InFlight) : Nat := if x.kind = .sysReg then 0 else 1
  decide (f.land < g.land) || (f.land == g.land && (decide (k f < k g) || (k f == k g &&
    (decide (f.seqNo < g.seqNo) || (f.seqNo == g.seqNo && decide (f.slot ≤ g.slot))))))

def insertBy {α : Type} (le : α → α → Bool) (x : α) : List α → List α
  | [] => [x]
  | y :: ys => if le x y then x :: y :: ys else y :: insertBy le x ys
def sortBy {α : Type} (le : α → α → Bool) : List α → List α
  | [] => []
  | x :: xs => insertBy le x (sortBy le xs)

/-- Land the results that `due` picks. -/
def landWhere (w : Work) (core ctx : Nat) (due : InFlight → Bool) : Work :=
  let fs := (w.ctx core ctx).inflight
  let w := w.modCtx core ctx fun c => { c with inflight := fs.filter fun f => !due f }
  (sortBy landsBefore (fs.filter due)).foldl (fun w f => w.landOne core ctx f) w

/-- Has the rill of a context ended? -/
def rillEnded (w : Work) (core ctx : Nat) : Bool :=
  let c := w.ctx core ctx
  match w.inst? c.inst with
  | some i => i.rills.any fun r => r.core == core && r.ctx == ctx && r.ended
  | none => true

/-- A context that holds no rill any more. -/
def freeCtx (w : Work) (core ctx : Nat) : Work :=
  let w := match (w.ctx core ctx).block with | some (.handle h _) => w.leaveHandle h | _ => w
  w.modCtx core ctx fun c => { c with st := .idle, inst := 0, inflight := [], block := none, held := [], micro := none, woken := none, hres := none,
                                       relPending := false, stalled := false, resumed := false, barrDead := false, barrGo := [] }

/-- Deferred reaches become selectable again (R264). -/
def undefer (w : Work) (part : Nat) : Work :=
  w.modPart part fun p => { p with courses := p.courses.map fun c => { c with reaches := c.reaches.map fun r => { r with deferred := false } } }

/-- Results due by the current cycle land. A context whose rill has ended becomes idle with its last fixed-latency result, and an interlocked one
that it still has is lost (R39). -/
def landDue (w : Work) (core ctx : Nat) : Work :=
  if (w.ctx core ctx).resumed then w
  else
    let w := w.landWhere core ctx fun f => decide (f.land ≤ w.cycle)
    let c := w.ctx core ctx
    if c.st = .blocked ∧ c.block = none ∧ c.inflight.all (·.interlocked) ∧ c.inst ≠ 0 then
      let w := match w.inst? c.inst with | some i => w.undefer i.part | none => w
      w.freeCtx core ctx
    else w

/-! ## Pins and killing (12_refinement R248, 14_traps R297) -/

/-- The clock of a rill, final once it has ended. -/
def rillClock (w : Work) (r : Rill) : Nat := if r.ended then r.finalClock.toNat else (w.ctx r.core r.ctx).kclk.toNat

/-- The clocks of an instance's rills: a frozen one's are in its saved contexts. -/
def instClocks (w : Work) (i : Inst) : List Nat :=
  match i.saved with
  | some s => (i.rills.zip s.ctxs).map fun (r, c) => if r.ended then r.finalClock.toNat else c.kclk.toNat
  | none => i.rills.map w.rillClock

/-- The largest clock among an instance's rills and the queue entries of it that have been performed (R194, R205). -/
def instClock (w : Work) (i : Inst) : Nat := (w.instClocks i).foldl max i.engClock

/-- Saturating successor of a clock. -/
def clockNext (x : Nat) : BitVec 32 := BitVec.ofNat 32 (min (x + 1) 0xFFFFFFFF)

/-- Read and write at a line's home slice. -/
def homeRead (w : Work) (part pa n : Nat) : List Byte × Work := (w.recallLine (pa / 128)).l2Read part pa n (mtOf pa)
def homeWrite (w : Work) (part pa : Nat) (bs : List Byte) : Work := (w.recallLine (pa / 128)).l2Write part pa bs (mtOf pa)

/-- A blocked context whose wait is over becomes ready (R28, R29). -/
def wakeCtx (w : Work) (core ctx : Nat) : Work :=
  let c := w.ctx core ctx
  let w := if c.st = .blocked then w.sample 4 (BitVec.ofNat 16 core) (w.cycle - c.blockedAt) else w
  w.modCtx core ctx fun c => { c with st := if c.st = .blocked then .ready else c.st, block := none, readyAt := w.cycle }

/-- Logical numbers of the cores that have a state of their own. -/
def coreNumbers (w : Work) : List Nat := w.cores.map (·.1)

/-- Release one pin: the slot's pin count falls by one, the header's line takes the release clock. -/
def releasePin (w : Work) (part : Nat) (clk : BitVec 32) (p : Pin) : Work :=
  let (bs, w) := w.homeRead part (p.header + 28 + p.slot) 1
  let w := w.homeWrite part (p.header + 28 + p.slot) [bs.getD 0 0 - 1]
  w.raiseS part (.phys p.header 0#2 false) clk

/-- Release every pin of an instance as UNPIN does, its cores' dirty lines cleaned first (R175, R248). -/
def releasePins (w : Work) (id : Nat) : Work :=
  match w.inst? id with
  | none => w
  | some i =>
    let w := if i.pins.isEmpty then w else w.cleanCores i.part i.cores
    let w := i.pins.foldl (fun w p => w.releasePin i.part (clockNext (w.instClock i)) p) w
    w.modInst id fun i => { i with pins := [] }

/-- Checkpoint slots an instance holds. -/
def Inst.slots (i : Inst) : List Nat :=
  (match i.saved with | some s => s.slot.toList | none => []) ++ (match i.keep with | some s => s.slot.toList | none => [])

/-- A helper leaves the handle it waits for (R216). -/
def helperLeaves (w : Work) (core : Nat) (outfall : Bool) : Work :=
  match (w.helper core outfall).waiting with
  | some (h, _) => (w.leaveHandle h).modHelper core outfall fun x => { x with waiting := none }
  | none => w

/-- A helper that the instance uses no longer. -/
def stopHelper (w : Work) (id core : Nat) (outfall : Bool) : Work :=
  if (w.helper core outfall).inst = id then
    (w.helperLeaves core outfall).modHelper core outfall fun h => { h with st := .halted, inst := 0 }
  else w

/-- Kill an instance (R297). Its record stays until its queued entries are performed. With `requeue` its iteration is queued again,
once (R249, R274); else the iteration has ended. -/
def killInst (w : Work) (id : Nat) (requeue : Bool) : Work :=
  match w.inst? id with
  | none => w
  | some i =>
    if i.st = .killed ∨ i.st = .completed then w
    else
      -- what a killed instance stored stands (log entry 23)
      let w := (w.cleanCores i.part i.cores).releasePins id
      let finals := (i.rills.zip (w.instClocks i)).map fun (r, k) => { r with ended := true, finalClock := BitVec.ofNat 32 k }
      let w := i.rills.foldl (fun w r => if (w.ctx r.core r.ctx).inst = id then w.freeCtx r.core r.ctx else w) w
      let w := i.cores.foldl (fun w n => (w.stopHelper id n false).stopHelper id n true) w
      let w := w.modPart i.part fun p => { p with ckUsed := p.ckUsed.filter fun s => !(Inst.slots i).contains s }
      let w := w.modInst id fun i =>
        { i with st := .killed, rills := finals, episodes := [], saved := none, keep := none }
      let again (r : Reach) : Bool := requeue && !r.passed
      let w := w.modReach i.part i.course i.reach fun r =>
        { r with counts := { r.counts with nkill := r.counts.nkill + 1 },
                 reruns := if again r && !r.reruns.contains i.iter then r.reruns ++ [i.iter] else r.reruns,
                 done := if again r || r.done.contains i.iter then r.done else r.done ++ [i.iter] }
      -- the stores of a killed instance happen before whatever is placed later (log entry 23)
      let w := w.modPart i.part fun p => { p with raceClock := max p.raceClock (Work.clockNext (w.instClock i)).toNat }
      w.undefer i.part

end Work

/-! ## The fault frame (R286 to R290) -/

/-- Base of the context's frame (R286). -/
def Ctx.frameBase (c : Ctx) : Word :=
  c.kframe + 16384#64 * ((4#64 * (field c.kid 8 8).setWidth 64) + (field c.kid 4 2).setWidth 64)

/-- KIND code of a result (R288). -/
def ResKind.code : ResKind → Nat
  | .sReg => 0 | .aReg => 1 | .pReg => 2 | .vReg => 3 | .qReg => 4 | .gReg => 5 | .gPos => 6 | .sysReg => 7 | .xaccOp => 8
  | .flagsOnly => 9 | .gBase => 10

/-- The kind of a KIND code with a register number in its range. -/
def kindOf (k reg : Nat) : Option ResKind :=
  if k = 0 ∧ reg < 64 then some .sReg else if k = 1 ∧ reg < 16 then some .aReg else if k = 2 ∧ reg < 16 then some .pReg
  else if k = 3 ∧ reg < 32 then some .vReg else if k = 4 ∧ reg < 8 then some .qReg else if k = 5 ∧ reg < 16 then some .gReg
  else if k = 6 ∧ reg < 16 then some .gPos else if k = 7 ∧ reg < 16 then some .sysReg else if k = 8 then some .xaccOp
  else if k = 9 then some .flagsOnly else if k = 10 ∧ reg < 16 then some .gBase else none

/-- An in-flight entry of 144 bytes, `rel` cycles from landing (R288). -/
def inflEntry (f : InFlight) (rel : Nat) : List Byte :=
  leBytes 8 (2 ^ 63 + rel * 2 ^ 40 + f.kind.code * 2 ^ 24 + f.reg * 2 ^ 16 + f.flags.toNat) ++ leBytes 8 f.xtra.toNat ++ lineBytes f.value

/-- A sequencer level record (R290). -/
def seqRecord (l : LoopLevel) : List Byte :=
  leBytes 4 l.left ++ leBytes 1 l.first ++ leBytes 1 l.last ++
  leBytes 1 (1 + 2 * l.modulo.toNat + 4 * l.handler.toNat) ++ leBytes 1 (if l.modulo then l.stages else 0) ++
  leBytes 1 (if l.modulo then l.ii else 0) ++ leBytes 1 (l.inc0.toNat + 16 * l.inc1.toNat) ++ leBytes 1 l.ldi ++ leBytes 1 0 ++
  leBytes 4 (if l.modulo then l.pass else 0)

/-- SEQ0 to SEQ5 and SEQCTL. -/
def seqBytes (q : LoopSeq) : List Byte :=
  let n := q.levels.length
  let recs := ((q.levels.map seqRecord).flatten ++ List.replicate 96 0#8).take 96
  recs ++ (if n = 0 then List.replicate 32 0#8 else
    leBytes 8 q.start.toNat ++ leBytes 1 n ++ leBytes 1 q.offset ++ List.replicate 22 0#8)

/-- What a trap writes into the frame besides the in-flight entries. -/
structure Site where
  trap : Trap
  slot : Nat
  pc : Word
  hdr : Word
  slotw : Word
  ops : List Line

/-- The cause word (R287). -/
def causeWord (busy pmode : Bool) (resume : Nat) (brPend : Bool) (dsRem ninfl sub slot code : Nat) : Word :=
  BitVec.ofNat 64 (busy.toNat * 2 ^ 63 + pmode.toNat * 2 ^ 62 + resume * 2 ^ 60 + brPend.toNat * 2 ^ 59 + dsRem * 2 ^ 57 +
    ninfl * 2 ^ 32 + sub * 2 ^ 24 + slot * 2 ^ 20 + code)

/-- Bytes 0x000 to 0x2FF. -/
def frameHead (c : Ctx) (pmode : Bool) (st : Site) (ninfl ns : Nat) : List Byte :=
  leBytes 8 (causeWord true pmode 0 c.brPend (if c.brPend then c.dsRem else 0) ninfl st.trap.sub st.slot st.trap.code).toNat ++
  leBytes 8 st.pc.toNat ++ leBytes 8 (if c.brPend then c.brTgt.toNat else 0) ++ leBytes 8 0 ++
  leBytes 8 st.trap.addr.toNat ++ leBytes 8 st.trap.info.toNat ++ leBytes 8 st.trap.info2.toNat ++ leBytes 8 ns ++
  leBytes 8 st.hdr.toNat ++ leBytes 8 st.slotw.toNat ++ List.replicate 48 0#8 ++
  ((st.ops.map lineBytes).flatten ++ List.replicate 512 0#8).take 512 ++ seqBytes c.loop

/-- Bytes 0x400 to 0x3FFF. -/
def frameTail (fs : List InFlight) (t : Nat) : List Byte :=
  ((fs.take 96).map fun f => inflEntry f (f.land - t)).flatten ++ List.replicate (15360 - 144 * min fs.length 96) 0#8

/-- Write into a frame: one that meets an uncorrectable unit fails (R291, R300). -/
def writeFrame (who : Issuer) (addr : Word) (bs : List Byte) : Acc Unit :=
  (pieces addr.toNat (bs.length / 128 + 2) bs.length).forM fun (o, l) => do
    let a := addr + BitVec.ofNat 64 o
    let pl ← place who true .global a .write
    checkWritable who pl a l
    writePlace who false pl a (bs.drop o |>.take l)

/-- Read without a race check, line by line. -/
def readSyncMany (who : Issuer) (engine : Bool) (sp : Space) (addr : Word) (n : Nat) : Acc (List Byte) := do
  let parts ← (pieces addr.toNat (n / 128 + 2) n).mapM fun (o, l) => do
    return (← readSync who engine sp (addr + BitVec.ofNat 64 o) l).1
  return parts.flatten

namespace Work

/-- Interlocked results that `which` picks arrive and land; the core stalls until the last of them would have (R288). -/
def awaitInterlocked (w : Work) (which : InFlight → Bool) : Work :=
  let fs := w.me.inflight.filter fun f => f.interlocked && which f
  let w := w.landWhere w.focus.core w.focus.ctx fun f => f.interlocked && which f
  w.modHere fun c => { c with stallUntil := (fs.map (·.land)).foldl max c.stallUntil }

/-- A trap that cannot be entered: TRAP2 is counted and the instance killed (R291, R293). -/
def trap2 (w : Work) : Work :=
  let id := w.me.inst
  (w.countInstFault id 1 cTrap2).killInst id false

/-- What the frame's entries do not tell: whether a result is of the faulting bundle (`seqNo`), then its slot; else its place in the order in which
results of one cycle land (R60, R294; log entry 19). -/
def entryMarks (seqNo t : Nat) (order fs : List InFlight) : List EntryMark :=
  fs.map fun f =>
    let mine := f.seqNo == seqNo
    ⟨f.kind, f.reg, f.land - t, mine, if mine then f.slot else order.idxOf f⟩

/-- The number under which a micro-bundle's results are in flight, with those of the faulting bundle's other slots: past what the frame and its handler
left, before what the program issues next (R60, R294). -/
def microNo : Nat := 2

/-- The number of the bundle at fault; where that has issued nothing, the micro-bundle's that is still to issue, or a number of none. -/
def faultingNo (w : Work) (code : Nat) : Nat := if isClassS code then w.focus.seqNo else if w.me.micro.isSome then microNo else w.issueNo + 3

/-- Write the frame from the context as it stands, vector, and enter supervisor mode (R291). -/
def writeTrap (w : Work) (st : Site) : Work :=
  let c := w.me
  let who := { w.issuer with super := true }
  let fs := sortBy frameBefore c.inflight
  let fb := c.frameBase
  let m : Acc Word := do
    writeFrame who fb (frameHead c w.focus.super st (min fs.length 96) w.ns)
    writeFrame who (fb + 0x400#64) (frameTail fs w.focus.issueAt)
    let bs ← readSync who false .global (c.kvec + BitVec.ofNat 64 (8 * st.trap.code)) 8
    return wordOf bs.1
  match m w with
  | (.error _, w) => w.trap2
  | (.ok h, w) =>
    w.modMe fun c => { c with
      kstat := c.kstat ||| 1#64
      pc := h
      tgtFrom := some 0
      trapLevels := c.loop.levels
      trapBr := c.brFrom
      trapTgt := c.tgtFrom
      trapMicro := if isClassS st.trap.code then none else c.micro
      trapStalled := c.stalled
      stalled := false
      trapCut := c.trapCut && c.micro.isSome
      trapSlots := entryMarks (w.faultingNo st.trap.code) w.focus.issueAt (sortBy landsBefore c.inflight) fs
      loop := .none
      brPend := false
      dsRem := 0
      micro := none
      inflight := [] }

/-- Does the frame say that a handler runs on it? An unreadable frame answers nothing. -/
def frameBusy (w : Work) : Option Bool × Work :=
  match (readSync { w.issuer with super := true } false .global w.me.frameBase 8) w with
  | (.ok (bs, _), w) => (some ((wordOf bs).getLsbD 63), w)
  | (.error _, w) => (none, w)

/-- Taking a trap of class I, F or S counts one fault, but for TRAP and DEPUF (R285). -/
def countTrap (w : Work) (code : Nat) : Work :=
  if 0x30 ≤ code ∨ code = cTrap ∨ code = cDepUf then w else w.countInstFault w.me.inst 1 code

/-- Take a trap (R291): nested while BUSY is 1, it kills the instance (R293). -/
def takeTrap (w : Work) (st : Site) : Work :=
  match w.frameBusy with
  | (some false, w) => (w.countTrap st.trap.code).writeTrap st
  | (_, w) => w.trap2

/-- The frame's site of a slot trap. -/
def slotSite (w : Work) (r : TrapRec) : Site :=
  { trap := ⟨r.code, r.addr, r.info, r.info2, r.sub⟩, slot := r.slot, pc := w.me.pc, hdr := w.focus.hdr,
    slotw := (r.ext.getD 0) ++ r.word, ops := r.ops }

/-- Interlocked results arrive, then a slot's trap is taken (R288, R291). -/
def enterSlotTrap (w : Work) (r : TrapRec) : Work :=
  let w := w.awaitInterlocked fun _ => true
  w.takeTrap (w.slotSite r)

/-- A slot of the bundle in execution traps (R283 class S). In an END bundle the trap is only counted (R39). While other slots are still to complete it
is noted, of several trapping slots the lowest (log entry 16), and taken when they have; else it is taken now. -/
def slotTrap (w : Work) (t : Trap) (ops : List Line) : Work :=
  let fc := w.focus
  let r : TrapRec := ⟨fc.slot, t.code, t.addr, t.info, t.info2, t.sub, fc.slotWord, fc.ext, ops⟩
  if fc.ending then w.countTrap t.code
  else if fc.bundle then
    w.modFocus fun g => { g with trap := match g.trap with | some old => if old.slot ≤ fc.slot then some old else some r | none => some r }
  else (w.modFocus fun g => { g with trap := some r }).enterSlotTrap r

end Work

/-! ## Running a slot's action -/

/-- What a trapping slot leaves of what it tried: a free value that its frame took is not taken again, and what it reached that holds its traffic still
holds it (R18). -/
def Work.carry (w w' : Work) : Work :=
  { w with freeNext := w'.freeNext, focus := { w.focus with heldRead := w'.focus.heldRead, heldWrite := w'.focus.heldWrite } }

/-- A slot whose action may trap; a trapping slot has no effect (R283). -/
def slotAct (ops : Work → List Line) (m : Act Unit) (w : Work) : Work :=
  match m w with
  | (.ok (), w') => w'
  | (.error t, w') => (w.carry w').slotTrap t (ops w)

/-- A word that the spec does not state (log entry 2). -/
def openWord : Act Word := modifyGet fun w => (Config.freeWord w.freeNext, { w with freeNext := w.freeNext + 1 })

/-- A slot that keeps what it did before its trap (R176, R187, R202 over several lines). -/
def slotActKeep (ops : Work → List Line) (m : Act Unit) (w : Work) : Work :=
  match m w with
  | (.ok (), w') => w'
  | (.error t, w') => w'.slotTrap t (ops w)

/-! ## Loop descriptors (23_ref R431, 14_traps R292) -/

/-- Byte `k` of a loop descriptor, and a 32-bit field. -/
def descByte (d : BitVec 1024) (k : Nat) : Nat := (field d (8 * k) 8).toNat
def descWord (d : BitVec 1024) (k : Nat) : BitVec 32 := field d (8 * k) 32

/-- The loop table that LOOP uses: the handler's while a handler runs, else the kernel's. `none`: no such descriptor; `some none`: it
cannot be read. -/
def Work.loopDesc (w : Work) (handler : Bool) (ldi : Nat) : Option (Option (BitVec 1024)) :=
  if handler then
    let p := w.part w.myPart
    if ldi < p.hlcnt then
      let pa := p.hltab * 128 + 128 * ldi
      -- partial updates of the line are merged before it is read (R184)
      let v := w.recallLine (pa / 128)
      if (v.badUnit pa 128).isSome then some none else some (some (lineOf (v.bytes pa 128)))
    else none
  else
    match w.here.dict with
    | some d => d.loops[ldi]?
    | none => none

/-- A LOOP of a handler reads its descriptor's line at L2 (R292). -/
def Work.readLoopLine (w : Work) (handler : Bool) (ldi : Nat) : Work :=
  let p := w.part w.myPart
  if handler ∧ ldi < p.hlcnt then
    let pa := p.hltab * 128 + 128 * ldi
    ((w.recallLine (pa / 128)).l2Read w.myPart pa 128 0#2).2
  else w

/-! ## Return from a trap (R294) -/

/-- A frame as read: head, in-flight area and reserved tail. -/
structure FrameImage where
  head : List Byte
  tail : List Byte

namespace FrameImage

def word (f : FrameImage) (k : Nat) : Word := wordOf (f.head.drop k |>.take 8)
def byte (f : FrameImage) (k : Nat) : Nat := (f.head.getD k 0).toNat
def cause (f : FrameImage) : Word := f.word 0
def resume (f : FrameImage) : Nat := (field f.cause 60 2).toNat
def brPend (f : FrameImage) : Bool := f.cause.getLsbD 59
def dsRem (f : FrameImage) : Nat := (field f.cause 57 2).toNat
def ninfl (f : FrameImage) : Nat := (field f.cause 32 8).toNat
def slot (f : FrameImage) : Nat := (field f.cause 20 4).toNat
def code (f : FrameImage) : Nat := (field f.cause 0 8).toNat
/-- Levels active and body offset of SEQCTL. -/
def nlev (f : FrameImage) : Nat := f.byte 0x2E8
def offset (f : FrameImage) : Nat := f.byte 0x2E9
/-- A field of level record `l`. -/
def lev (f : FrameImage) (l k : Nat) : Nat := f.byte (0x280 + 16 * l + k)
def levWord (f : FrameImage) (l k : Nat) : Nat := leNat (f.head.drop (0x280 + 16 * l + k) |>.take 4)

/-- In-flight entry `i`: its words and value. -/
def infl (f : FrameImage) (i : Nat) : Word × Word × Line :=
  let b := f.tail.drop (144 * i)
  (wordOf (b.take 8), wordOf (b.drop 8 |>.take 8), lineOf (b.drop 16 |>.take 128))

/-- R288: V set, reserved fields zero, REM 1 to 20, a KIND with a register of it. -/
def inflOk (f : FrameImage) (i : Nat) : Bool :=
  let (h, x, _) := f.infl i
  let r := (field h 40 8).toNat
  let k := (field h 24 8).toNat
  h.getLsbD 63 && field h 48 15 == 0#15 && field h 32 8 == 0#8 && field h 8 8 == 0#8 && decide (1 ≤ r) && decide (r ≤ 20) &&
  (kindOf k (field h 16 8).toNat).isSome && (k != 8 || decide (x.toNat ≤ 2))

/-- R290 with R66 to R68 and R431, for a record of an active level: a level that holds the body offset has an iteration left, and a modulo level has
the passes of some trip count, or has not begun. -/
def levOk (f : FrameImage) (l n : Nat) : Bool :=
  let fl := f.lev l 6
  let md := fl / 2 % 2 == 1
  let F := f.lev l 4
  let E := f.lev l 5
  fl % 2 == 1 && decide (fl < 8) && decide (F ≤ E) && decide (E < 64) && f.lev l 11 == 0 &&
  (l != 0 || F == 0) && (l == 0 || (decide (f.lev (l - 1) 4 ≤ F) && decide (E ≤ f.lev (l - 1) 5))) &&
  (f.levWord l 0 != 0 || decide (f.offset < F) || decide (E < f.offset)) &&
  (if md then l + 1 == n && decide (1 ≤ f.lev l 7) && decide (f.lev l 7 ≤ 4) && f.lev l 8 == E - F + 1 &&
    (f.levWord l 0 + f.levWord l 12 == 0 || decide (f.lev l 7 ≤ f.levWord l 0 + f.levWord l 12))
   else f.lev l 7 == 0 && f.lev l 8 == 0 && f.levWord l 12 == 0)

/-- A record of a level that is not active is zero. -/
def levZero (f : FrameImage) (l : Nat) : Bool := (List.range 16).all fun k => f.lev l k == 0

/-- Does RFT take ILLOP on this frame (R294)? -/
def bad (f : FrameImage) : Bool :=
  !f.cause.getLsbD 63 || f.resume == 3 || field f.cause 40 17 != 0#17 || field f.cause 8 12 != 0#12 ||
  ((f.head.drop 0x50).take 0x30).any (· != 0#8) || (f.tail.drop 0x3600).any (· != 0#8) ||
  decide (96 < f.ninfl) || !((List.range f.ninfl).all f.inflOk) ||
  decide (6 < f.nlev) || !((List.range f.nlev).all fun l => f.levOk l f.nlev) ||
  !((List.range 6).all fun l => decide (l < f.nlev) || f.levZero l) ||
  ((f.head.drop 0x2EA).take 0x16).any (· != 0#8) ||
  (f.nlev != 0 && decide (f.lev 0 5 < f.offset)) ||
  decide (2 < f.dsRem) || (f.dsRem != 0 && !f.brPend)

end FrameImage

/-- Does RFT take ILLOP: the frame breaks R294's rules, or a level names no descriptor that its table holds (R290)? -/
def Work.frameBad (w : Work) (f : FrameImage) : Bool :=
  f.bad || (List.range f.nlev).any fun l =>
    match w.loopDesc (f.lev l 6 / 4 % 2 == 1) (f.lev l 10) with | some (some _) => false | _ => true

/-- Read the context's frame. -/
def readFrame (w : Work) : Except Trap FrameImage × Work :=
  let who := { w.issuer with super := true }
  let m : Acc FrameImage := do
    let h ← readSyncMany who false .global w.me.frameBase 0x300
    let t ← readSyncMany who false .global (w.me.frameBase + 0x400#64) 0x3C00
    return ⟨h, t⟩
  match m w with
  | (.ok f, w) => (.ok f, w)
  | (.error b, w) => (.error b.trap, w)

/-- The level a record stands for: increments from the table its flag names; the trip count kept at entry, or what the pass count or the
descriptor gives (R290 has no field for it: log entry 17). -/
def restoreLevel (w : Work) (f : FrameImage) (l : Nat) : LoopLevel :=
  let fl := f.lev l 6
  let handler := fl / 4 % 2 == 1
  let ldi := f.lev l 10
  let d : BitVec 1024 := match w.loopDesc handler ldi with | some (some d) => d | _ => 0
  let md := fl / 2 % 2 == 1
  let left := f.levWord l 0
  let pass := f.levWord l 12
  let kept := w.me.trapLevels[l]?
  let total :=
    if md then left + pass + 1 - f.lev l 7
    else
      match kept with
      | some k => if k.ldi = ldi ∧ k.handler = handler then k.total else (descWord d (16 + 16 * l)).toNat
      | none => (descWord d (16 + 16 * l)).toNat
  { total := total, left := left, first := f.lev l 4, last := f.lev l 5, modulo := md, handler := handler,
    stages := f.lev l 7, ii := f.lev l 8, inc0 := BitVec.ofNat 4 (f.lev l 9), inc1 := BitVec.ofNat 4 (f.lev l 9 / 16),
    amt0 := descWord d (16 * l + 24), amt1 := descWord d (16 * l + 28), ldi := ldi, pass := pass }

/-- The in-flight entries of a frame, landing from cycle `u`. Those that the faulting bundle's own slots left carry their slot and the
micro-bundle's number, so that the micro-bundle's slot takes its place among them (R294); the others keep the order in which they were issued (log entry 19). -/
def restoreInflight (c : Ctx) (f : FrameImage) (u : Nat) : List InFlight :=
  (List.range f.ninfl).map fun i =>
    let (h, x, v) := f.infl i
    let rel := (field h 40 8).toNat
    let reg := (field h 16 8).toNat
    let kind := (kindOf (field h 24 8).toNat reg).getD .flagsOnly
    let fits (m : EntryMark) : Bool := decide (m.kind = kind) && m.reg == reg && m.rem == rel
    let mark := match c.trapSlots[i]? with
      | some m => if fits m then some m else c.trapSlots.find? fits
      | none => c.trapSlots.find? fits
    { land := u + rel, seqNo := if mark.any (·.mine) then Work.microNo else 0, slot := match mark with | some m => m.order | none => i,
      kind := kind, reg := reg, flags := field h 0 8, xtra := x, value := v, interlocked := false }

/-- A handler's own results, still in flight as it returns, land after the frame's and before the micro-bundle's (R60). -/
def agedResults (fs : List InFlight) : List InFlight :=
  ((List.range fs.length).zip (Work.sortBy Work.landsBefore fs)).map fun (i, f) => { f with seqNo := 1, slot := i }

/-- Restore the context from its frame as RFT in cycle `t` does (R294). -/
def Work.restore (w : Work) (f : FrameImage) (t : Nat) : Work :=
  let c := w.me
  let u := t + 3
  let s := isClassS f.code
  let op (k : Nat) : Line := lineOf (f.head.drop (0x80 + 128 * k) |>.take 128)
  let sw := f.word 0x48
  let long := (f.word 0x40).getLsbD (4 + f.slot + 1)
  let micro : Option Micro :=
    if f.resume = 0 && s then
      some (.slot f.slot (f.word 0x40) (field sw 0 32) (if long then some (field sw 32 32) else none) [op 0, op 1, op 2, op 3])
    else if f.resume = 1 && s then some .empty
    else if f.resume = 1 && !isClassF f.code then some .skip
    else none
  let redirect := f.resume == 2
  -- a class A event that came before a micro-bundle had issued: the micro-bundle is what stood next (log entry 19)
  let micro := if isClassS f.code || redirect then micro else
    match c.trapMicro with
    | some .skip => some .skip
    | some m => if f.resume = 1 then some .empty else some m
    | none => micro
  let levels := if redirect then [] else (List.range f.nlev).map (restoreLevel w f)
  w.modMe fun _ => { c with
    kstat := (c.kstat &&& ~~~1#64) ||| (if f.cause.getLsbD 62 then 1#64 else 0#64)
    pc := if redirect then f.word 0x18 else f.word 0x08
    -- where issue goes on is a target that R84 checks; a branch, or nothing that is one, led there (R284, log entries 76 and 120)
    tgtFrom := if redirect then some 0 else some (c.trapTgt.getD 0)
    brPend := !redirect && f.brPend
    brTgt := f.word 0x10
    brFrom := c.trapBr
    dsRem := if redirect then 0 else f.dsRem
    loop := if levels = [] then .none else ⟨f.word 0x2E0, f.offset, f.lev 0 5 + 1, levels, []⟩
    micro := micro
    trapCut := (c.trapCut || !c.trapLevels.isEmpty) && levels.isEmpty
    notBefore := u
    stalled := !redirect && !isClassF f.code && (if f.code < 0x30 then true else c.trapStalled)
    inflight := agedResults c.inflight ++ restoreInflight c f u }

/-- A rill that took BUDGET has returned. When all have and the counter is still 0, the instance is killed (R295). -/
def Work.budgetReturn (w : Work) : Work :=
  let c := w.me
  let w := w.modInst c.inst fun i =>
    { i with rills := i.rills.map fun r => if r.core = w.focus.core ∧ r.ctx = w.focus.ctx ∧ !r.ended then { r with gotBudget := false } else r }
  match w.inst? c.inst with
  | some i =>
    let waits := i.rills.any fun r => r.gotBudget || (!r.ended && (w.ctx r.core r.ctx).held.contains .budget)
    if i.budgetSent && i.counter == 0 && !waits then w.killInst i.id false else w
  | none => w

/-- RFT (R294, R454). -/
def returnFromTrap : Act Unit := do
  let w ← get
  if !w.focus.super then trap { code := cPriv }
  let (r, w) := readFrame w
  set w
  match r with
  | .error t => throw t
  | .ok f =>
    if w.frameBad f then trap { code := cIllOp }
    -- another slot of the bundle has trapped: the handler still runs, and its trap kills the instance (R293)
    if w.focus.trap.isSome then return ()
    let who := { w.issuer with super := true }
    let _ ← access (writeSync who false .global w.me.frameBase (leBytes 8 (f.cause &&& 0x7FFFFFFFFFFFFFFF#64).toNat))
    modify fun w =>
      let w := w.restore f w.focus.issueAt
      let w := w.modFocus fun g => { g with redirect := some w.me.pc }
      if f.code = cBudget then w.budgetReturn else w

end Sys2Proof.Machine
end

