-- ==== Sys2Proof/Machine/Operands.lean ====
section
/-! DEFINITION. Operands: which registers a slot reads and writes (03_core R54 to R60), reading them or their replayed values
(14_traps R289), and addresses of memory operands (23_ref R427). -/
namespace Sys2Proof.Machine

/-- A register as the scoreboard counts it (R59, R72); `x` is the exact accumulator, `sys` a system register, which it does not check. -/
inductive RegRef where
  | s (r : BitVec 6) | a (r : BitVec 4) | p (r : BitVec 4) | v (r : BitVec 5) | q (r : BitVec 3) | g (r : BitVec 4) | x | sys (r : BitVec 6)
  deriving DecidableEq, Repr

/-- Class and number as STALLSHORT's INFO gives them (R284). -/
def RegRef.info : RegRef → Word
  | .s r => r.setWidth 64
  | .a r => 0x100#64 ||| r.setWidth 64
  | .p r => 0x200#64 ||| r.setWidth 64
  | .v r => 0x300#64 ||| r.setWidth 64
  | .q r => 0x400#64 ||| r.setWidth 64
  | .g r => 0x500#64 ||| r.setWidth 64
  | .x => 0x800#64
  | .sys _ => 0

/-- Does a result in flight target the register? s0 and p0 are never pending (R59). -/
def RegRef.hit (f : InFlight) : RegRef → Bool
  | .s r => r != 0 && f.kind == .sReg && f.reg == r.toNat
  | .a r => f.kind == .aReg && f.reg == r.toNat
  | .p r => r != 0 && f.kind == .pReg && f.reg == r.toNat
  | .v r => f.kind == .vReg && f.reg == r.toNat
  | .q r => f.kind == .qReg && f.reg == r.toNat
  | .g r => (f.kind == .gReg || f.kind == .gPos || f.kind == .gBase) && f.reg == r.toNat
  | .x => f.kind == .xaccOp
  | .sys _ => false

/-- The address registers of a format M operand, in the order the form names them. -/
def memRegs (a : BitVec 4) (m : BitVec 2) (x : Imm 6) : List RegRef :=
  match x with
  | .short k => if m = 1#2 then [.a a, .s k] else [.a a]
  | .long _ => [.a a]

/-- The mask of a format V operation. -/
def maskReg (e : BitVec 1) (q : BitVec 3) : List RegRef := if e = 1#1 then [.q q] else []

/-- Registers named with an immediate alternative: bits 5:0 of a field. -/
def immReg (i : BitVec 1) (r : BitVec 10) : List RegRef := if i = 1#1 then [.s (r.setWidth 6)] else []

/-- Does the array mode take two A units (R131)? -/
def wideMode (m : BitVec 3) : Bool := m == 1#3 || m == 2#3 || m == 3#3

/-- Trip count registers of a loop descriptor (R433). -/
def loopRegs (w : Work) (l c : BitVec 6) : List RegRef :=
  match w.loopDesc (w.frameBusy.1 == some true) l.toNat with
  | some (some d) => ((List.range (min (descByte d 0) 6)).filter fun j => descByte d (16 + 16 * j + 6) % 2 == 1).map
      fun j => .s (c + BitVec.ofNat 6 j)
  | _ => []

/-- The sources of a slot in the order its entry names them (R54, R289): address, index, further operands, mask, then a destination
that is also read. -/
def sources (w : Work) : Instr → List RegRef
  | .abs _ a | .clz _ a | .ctz _ a | .popc _ a | .mov _ a | .sext _ a _ => [.s a]
  | .add _ a b | .and _ a b | .andn _ a b | .bfx _ a b | .sub _ a b | .mul _ a b | .mulh _ a b _ | .div _ a b _ | .rem _ a b _
  | .or _ a b | .xor _ a b | .shl _ a b | .shr _ a b | .sra _ a b | .rol _ a b | .min _ a b _ | .max _ a b _ | .cmp _ _ a b _ =>
    [.s a, .s b]
  | .addI _ a _ | .andI _ a _ | .andnI _ a _ | .subI _ a _ | .mulI _ a _ | .mulhI _ a _ | .divI _ a _ | .remI _ a _ | .orI _ a _
  | .xorI _ a _ | .shlI _ a _ | .shrI _ a _ | .sraI _ a _ | .rolI _ a _ | .minI _ a _ | .maxI _ a _ | .cmpI _ _ a _ => [.s a]
  | .adda _ a b => [.a a, .s b]
  | .addaI _ a _ => [.a a]
  | .bfi d a b | .mad d a b => [.s a, .s b, .s d]
  | .madI d a _ => [.s a, .s d]
  | .sel _ a b f => [.s a, .s b, .p f]
  | .selI _ a _ f => [.s a, .p f]
  | .movi d h _ => if h = 1#1 then [.s d] else []
  | .movaToA _ a => [.s a]
  | .movaToS _ a => [.a a]
  | .plog _ a b _ => [.p a, .p b]
  | .brx a | .brxS1 a | .callx a | .callxS1 a => [.s a]
  | .ret => [.s 62#6]
  | .loop l c | .loopm l c => loopRegs w l c
  | .hwait h _ => [.s h]
  | .vwait a v | .mwait a v => [.a a, .s v]
  | .fenceR _ _ a l => [.a a, .s l]
  | .mfsr _ k => [.sys k]
  | .mtsr a _ => [.s a]
  | .est a => [.s a]
  | .ld _ a m _ _ _ x => memRegs a m x
  | .st d a m _ _ x => memRegs a m x ++ [.s d]
  | .vld _ a m _ x => memRegs a m x
  | .vst d a m _ x => memRegs a m x ++ [.v d]
  | .vldx _ a b _ _ e q => [.a a, .v b] ++ maskReg e q
  | .vstx d a b _ _ e q => [.a a, .v b] ++ maskReg e q ++ [.v d]
  | .lda _ a _ _ _ _ _ => [.a a]
  | .stl d a _ _ _ _ => [.a a, .s d]
  | .stlR d a rp _ _ => [.a a, .s d, .s (rp.setWidth 6 * 2), .s (rp.setWidth 6 * 2 + 1)]
  | .atom d b a _ _ _ _ => [.a (a.setWidth 4), .s (b.setWidth 6), .s (d.setWidth 6)]
  | .upd b a _ _ => [.a a, .s b]
  | .cmnt _ _ a l => [.a a, .s l]
  | .free a _ => [.a a]
  | .vadd _ a b e q _ | .vsub _ a b e q _ | .vmul _ a b e q _ | .vmin _ a b e q _ | .vmax _ a b e q _ | .vand _ a b e q _
  | .vor _ a b e q _ | .vxor _ a b e q _ | .vshl _ a b e q _ | .vshr _ a b e q _ | .vcmp _ _ a b e q _ | .vcmul _ a b e q _
  | .vperm _ a b e q _ => [.v a, .v b] ++ maskReg e q
  | .vfma d a b e q _ | .vdot d a b e q _ => [.v a, .v b] ++ maskReg e q ++ [.v d]
  | .vabs _ a e q _ | .vneg _ a e q _ | .vcvt _ a _ _ e q _ | .vfn _ a _ e q _ | .vred _ a _ e q _ | .vscan _ a _ e q _ =>
    [.v a] ++ maskReg e q
  | .vsel _ a b q _ => [.v a, .v b, .q q]
  | .vqnt _ a _ _ t => if t = 8#4 then [.v a, .v (a + 1)] else [.v a]
  | .vdq _ a _ _ _ => [.v a]
  | .vbcst _ a _ => [.s a]
  | .vget _ a _ _ _ => [.v a]
  | .vput d a _ _ => [.s a, .v d]
  | .qlog _ a b o => if o = 4#3 then [.q a] else [.q a, .q b]
  | .xfma a b _ => [.s a, .s b]
  | .xadd a _ => [.s a]
  | .xrnd _ _ _ => [.x]
  | .xsgn _ _ => [.x]
  | .mpush n => [.g n]
  | .mpushV v => if wideMode w.here.arr.mode then [.v v, .v (v + 1)] else [.v v]
  | .mshift _ t n i b => (if t = 1#1 then [.g n] else []) ++ immReg i (b.setWidth 10)
  | .maccSet i r _ _ | .maccAdd i r _ _ => immReg i r
  | .maccArmSet s _ _ | .maccArmAdd s _ _ => [.s s]
  | .mdrain _ k d i r => immReg i r ++ (if k = 0#1 then [.g d] else [])
  | .mzero i r _ => immReg i r
  | .mxcpOut _ a _ _ _ | .mxcpIn _ a _ _ _ => [.a a]
  | .sclA s => [.v s]
  | .sclB s _ _ => [.v s]
  | .gset _ b l => [.s b, .s l]
  | .gldd _ a => [.a a]
  | .gadv d n => [.g d, .s n]
  | .cpy _ x c | .cpyNet _ x c => [.a x, .s c]
  | .dftFwd _ d s c | .dftInv _ d s c => [.a d, .a s, .s c]
  | .hreq h e c => [.s h, .s e, .s (e + 1), .s c]
  | .hrel h | .hqry _ h => [.s h]
  | .route a c => [.a a, .s c]
  | .rcnt a b c => [.a a, .s b, .s c]
  | .pubOpen _ a | .pubClose a _ | .settle a | .settlePub a _ | .pin _ a => [.a a]
  | .unpin v a => [.a a, .s v]
  | .spawn _ e m f => [.s e] ++ (List.range m.toNat).map fun k => .s (f + BitVec.ofNat 6 k)
  | .enqC l q => [.a l, .s q]
  | .enqR _ l r => [.a l, .a r]
  | .enqX l => [.a l]
  | .depdecS s => [.s s]
  | .flget _ f => [.a f]
  | .flput v f => [.a f, .v v]
  | .flwait f n | .fldrop f n => [.a f, .s n]
  | .coll x c => [.a x, .s c]
  | .monArm u _ | .monStop u _ => [.s u]
  | .monSnap u a => [.s u, .a a]
  | _ => []

/-- A fixed-latency destination with the cycles until it lands (R55); interlocked results are not among them. -/
structure Dest where
  reg : RegRef
  lat : Nat

/-- The post-increment's destination. -/
def incDest (a : BitVec 4) (m : BitVec 2) (x : Imm 6) : List Dest :=
  match x with
  | .short _ => if m = 2#2 then [⟨.a a, 1⟩] else []
  | .long _ => []

/-- Vector registers an MDRAIN writes (R141). -/
def drainRegs (f : BitVec 2) : Nat := if f = 2#2 then 4 else if f = 3#2 then 3 else 8

/-- The fixed-latency destinations of a slot (R55, R60). Stream positions are left out: several uses by one bundle are no clash (R75). -/
def dests : Instr → List Dest
  | .abs d _ | .clz d _ | .ctz d _ | .popc d _ | .mov d _ | .sext d _ _ | .add d _ _ | .and d _ _ | .andn d _ _ | .bfx d _ _
  | .sub d _ _ | .or d _ _ | .xor d _ _ | .shl d _ _ | .shr d _ _ | .sra d _ _ | .rol d _ _ | .min d _ _ _ | .max d _ _ _
  | .addI d _ _ | .andI d _ _ | .andnI d _ _ | .subI d _ _ | .orI d _ _ | .xorI d _ _ | .shlI d _ _ | .shrI d _ _ | .sraI d _ _
  | .rolI d _ _ | .minI d _ _ | .maxI d _ _ | .bfi d _ _ | .sel d _ _ _ | .selI d _ _ _ | .movi d _ _ | .movaToS d _ => [⟨.s d, 1⟩]
  | .mul d _ _ | .mulI d _ _ | .mulh d _ _ _ | .mulhI d _ _ | .mad d _ _ | .madI d _ _ => [⟨.s d, 3⟩]
  | .div d _ _ _ | .divI d _ _ | .rem d _ _ _ | .remI d _ _ => [⟨.s d, 20⟩]
  | .adda d _ _ | .addaI d _ _ | .movaToA d _ => [⟨.a d, 1⟩]
  | .cmp _ p _ _ _ | .cmpI _ p _ _ => [⟨.p p, 1⟩]
  | .plog d _ _ _ => [⟨.p d, 1⟩]
  | .call _ | .callS1 _ | .callx _ | .callxS1 _ => [⟨.s 62#6, 1⟩]
  | .mfsr d _ => [⟨.s d, 2⟩]
  | .ld d a m s _ _ x => (if s = 0#2 then [⟨.s d, 4⟩] else []) ++ incDest a m x
  | .st _ a m _ _ x => incDest a m x
  | .vld d a m s x => (if s = 0#2 then [⟨.v d, 5⟩] else []) ++ incDest a m x
  | .vst _ a m _ x => incDest a m x
  | .vadd d _ _ _ _ _ | .vsub d _ _ _ _ _ | .vmin d _ _ _ _ _ | .vmax d _ _ _ _ _ | .vand d _ _ _ _ _ | .vor d _ _ _ _ _
  | .vxor d _ _ _ _ _ | .vshl d _ _ _ _ _ | .vshr d _ _ _ _ _ | .vsel d _ _ _ _ | .vabs d _ _ _ _ | .vneg d _ _ _ _ => [⟨.v d, 2⟩]
  | .vmul d _ _ _ _ _ | .vfma d _ _ _ _ _ | .vdot d _ _ _ _ _ => [⟨.v d, 4⟩]
  | .vcmp _ d _ _ _ _ _ => [⟨.q d, 2⟩]
  | .vcvt d _ _ _ _ _ _ | .vperm d _ _ _ _ _ | .vbcst d _ _ | .vbcstI d _ _ | .vput d _ _ _ => [⟨.v d, 3⟩]
  | .vdq d _ _ _ t => if t = 8#4 then [⟨.v d, 3⟩, ⟨.v (d + 1), 3⟩] else [⟨.v d, 3⟩]
  | .vqnt d _ _ _ _ => [⟨.v d, 6⟩]
  | .vfn d _ _ _ _ _ => [⟨.v d, 10⟩]
  | .vred d _ _ _ _ _ => [⟨.v d, 6⟩]
  | .vscan d _ _ _ _ _ => [⟨.v d, 7⟩]
  | .vget d _ _ _ _ => [⟨.s d, 3⟩]
  | .vcmul d _ _ _ _ _ => [⟨.v d, 5⟩]
  | .qlog d _ _ _ => [⟨.q d, 2⟩]
  | .xclr => [⟨.x, 2⟩]
  | .xfma _ _ _ => [⟨.x, 6⟩]
  | .xadd _ _ => [⟨.x, 2⟩]
  | .xrnd d _ _ => [⟨.s d, 12⟩]
  | .xsgn n m => [⟨.p n, 2⟩, ⟨.p m, 2⟩]
  | .mdrain f k d _ _ => if k = 1#1 then (List.range (drainRegs f)).map fun i => ⟨.v (d.setWidth 5 * 8 + BitVec.ofNat 5 i), 5⟩ else []
  | .gset d _ _ => [⟨.g d, 1⟩]
  | .gadv d _ => [⟨.g d, 1⟩]
  | .enqR p _ _ => [⟨.p p, 1⟩]
  | .flget v _ => [⟨.v v, 5⟩]
  | .tstamp d => [⟨.s d, 2⟩]
  | _ => []

namespace Work

/-! ## Reading operands at issue; operand `k` of a replayed slot comes from the frame (R289, R294) -/

/-- The replayed value of operand `k`, for a replay. -/
def replayed (w : Work) (k : Nat) : Option Line := w.focus.replay.bind fun ops => ops[k]?

def rdS (w : Work) (k : Nat) (r : BitVec 6) : Word :=
  match w.replayed k with | some l => field l 0 64 | none => w.me.sReg r
def rdA (w : Work) (k : Nat) (r : BitVec 4) : Word :=
  match w.replayed k with | some l => field l 0 64 | none => w.me.aReg r
def rdP (w : Work) (k : Nat) (r : BitVec 4) : Bool :=
  match w.replayed k with | some l => l.getLsbD 0 | none => w.me.pReg r
def rdV (w : Work) (k : Nat) (r : BitVec 5) : Line :=
  match w.replayed k with | some l => l | none => w.me.vReg r
def rdQ (w : Work) (k : Nat) (r : BitVec 3) : BitVec 128 :=
  match w.replayed k with | some l => field l 0 128 | none => w.me.qReg r

/-- COL steps to the next unit, ROW at the end of a row (R75). -/
def advancePos (layout pos : Word) : Word :=
  let rl := (field layout 36 12).toNat
  let rl := if rl = 0 then 4096 else rl
  let col := (field pos 0 32) + 1
  if col = BitVec.ofNat 32 rl then (field pos 32 32 + 1) ++ 0#32 else field pos 32 32 ++ col

/-- Advance `n` times. -/
def advanceMany (layout : Word) : Nat → Word → Word
  | 0, pos => pos
  | n + 1, pos => advanceMany layout n (advancePos layout pos)

/-- A stream register as a slot reads it: advanced by the uses that lower slots of the bundle made (R75). -/
def rdG (w : Work) (k : Nat) (r : BitVec 4) : Stream :=
  let g : Stream :=
    match w.replayed k with
    | some l => ⟨field l 0 64, field l 64 64, field l 128 64⟩
    | none => w.me.gReg r
  { g with pos := advanceMany g.layout (Tab.get w.focus.uses r.toNat 0) g.pos }

/-- The value of a system register (R76, R444). -/
def sysValue (w : Work) (k : BitVec 6) : Word :=
  let c := w.me
  if k = 0#6 then c.kstat
  else if k = 1#6 then c.ktsoa
  else if k = 2#6 then c.kframe
  else if k = 3#6 then c.kvec
  else if k = 4#6 then BitVec.ofNat 64 ((w.myInst?.map (·.counter)).getD 0)
  else if k = 5#6 then c.kdead
  else if k = 6#6 then c.kest
  else if k = 7#6 then c.ktok
  else if k = 8#6 then c.krnd
  else if k = 9#6 then c.kclk.setWidth 64
  else if k = 10#6 then c.kid
  else field (w.part w.myPart).feat (64 * (k.toNat - 12)) 64

/-- A register as the replay operands hold it (R289). -/
def operand (w : Work) (k : Nat) : RegRef → Line
  | .s r => (w.rdS k r).setWidth 1024
  | .a r => (w.rdA k r).setWidth 1024
  | .p r => if w.rdP k r then 1 else 0
  | .v r => w.rdV k r
  | .q r => (w.rdQ k r).setWidth 1024
  | .g r => let g := w.rdG k r; (g.pos ++ g.layout ++ g.base).setWidth 1024
  | .x => 0
  | .sys r => (w.sysValue r).setWidth 1024

/-- OP0 to OP3 of a slot (R289): at most four; xacc is never one. -/
def operands (i : Instr) (w : Work) : List Line :=
  let rs := (sources w i).filter fun r => r != .x
  ((rs.zip (List.range 4)).map fun (r, k) => w.operand k r)

/-! ## The scoreboard (R31, R59, R60) -/

/-- A fixed-latency result to the register that has not landed. -/
def pendingFixed (w : Work) (r : RegRef) : Bool :=
  w.me.inflight.any fun f => !f.interlocked && decide (w.cycle < f.land) && r.hit f

/-- An interlocked result to the register that has not arrived. -/
def pendingInterlocked (w : Work) (r : RegRef) : Bool :=
  w.me.inflight.any fun f => f.interlocked && decide (w.cycle < f.land) && r.hit f

/-- Would a result clash with one in flight (R60)? Loop increments are none; XFMA and XADD never clash with each other (R480). -/
def clashes (w : Work) (clr : Bool) (d : Dest) : Bool :=
  w.me.inflight.any fun f =>
    !f.interlocked && f.land == w.cycle + d.lat && f.kind != .gBase && d.reg.hit f && (d.reg != .x || clr || f.xtra == 0)

/-! ## Memory operands (R427) -/

/-- Effective address, and the new value of the address register under post-increment. -/
def memAddr (w : Work) (a : BitVec 4) (m : BitVec 2) (x : Imm 6) (size : Nat) : Word × Option Word :=
  let b := w.rdA 0 a
  match x with
  | .long i => (b + i.signExtend 64, none)
  | .short k =>
    let off := k.signExtend 64 * BitVec.ofNat 64 size
    if m = 0#2 then (b + off, none)
    else if m = 1#2 then (b + w.rdS 1 k, none)
    else (b, some (b + off))

/-- Operand number of the data of a store: after the address and, in mode 0b01, the index. -/
def dataIndex (m : BitVec 2) (x : Imm 6) : Nat :=
  match x with
  | .short _ => if m = 1#2 then 2 else 1
  | .long _ => 1

/-- Put the post-increment in flight. -/
def postInc (w : Work) (a : BitVec 4) (v : Option Word) : Work :=
  match v with
  | some v => w.putA a v 1
  | none => w

end Work

end Sys2Proof.Machine

namespace Sys2Proof

/-! ## Immediates (R90, R102) -/

/-- Format X's immediate operand: sext(IMM10), or sext(imm32) in the long form. -/
def XImm.value : XImm → Word
  | .short m => m.signExtend 64
  | .long _ w => w.signExtend 64

/-- A short field or imm32, sign-extended. -/
def Imm.value {n : Nat} : Imm n → Word
  | .short m => m.signExtend 64
  | .long w => w.signExtend 64

end Sys2Proof
end

