-- ==== Sys2Proof/Machine/Flags.lean ====
section
/-! DEFINITION. Rounding modes and flags of a slot: the mode an RM field or KRND selects (05_numbers R117), draws of the context's
generator (R118, R119), the flags that compares set (25_ref R468), and W1C status bits (03_core R77). -/
namespace Sys2Proof.Machine

/-- The rounding direction of a mode code; the stochastic mode takes a draw. -/
def rmOf (code : BitVec 3) (g : BitVec 24) : Rm :=
  if code = 1#3 then .zero else if code = 2#3 then .up else if code = 3#3 then .down else if code = 4#3 then .stoch g else .even

/-- The mode code an RM field selects: 0b111 takes KRND.RM at issue (R117). -/
def Work.rmCode (w : Work) (r : BitVec 3) : BitVec 3 := if r = 7#3 then w.me.rm else r

/-- The mode of a format V operation: KRND.RM under a mask, else its Q field (R466). -/
def Work.rmV (w : Work) (e : BitVec 1) (q : BitVec 3) : BitVec 3 := if e = 1#1 then w.me.rm else w.rmCode q

/-- Take a draw if the mode is stochastic: the direction and the generator's new state. -/
def drawRm (code : BitVec 3) (st : BitVec 32) : Rm × BitVec 32 :=
  if code = 4#3 then let (st, g) := xorshift st; (rmOf code g, st) else (rmOf code 0, st)

/-- Draws for a list of active elements, in order (R119). -/
def drawMany (code : BitVec 3) : Nat → BitVec 32 → List Rm × BitVec 32
  | 0, st => ([], st)
  | n + 1, st =>
    let (r, st) := drawRm code st
    let (rs, st) := drawMany code n st
    (r :: rs, st)

/-- Keep the generator's state. -/
def Work.setGen (w : Work) (st : BitVec 32) : Work := w.modMe fun c => { c with gen := st }

/-- R468: lt and le with any NaN set NV; eq and ne only with a signalling one. `cc` is 0 eq, 1 ne, 2 lt, 3 le. -/
def compareFlags (cc : BitVec 2) (a b : FVal) : Flags :=
  if cc = 0#2 ∨ cc = 1#2 then snanFlag [a, b] else if a.isNan || b.isNan then flNv else 0

/-- The result of a floating-point compare: with a NaN only ne is true (R468). -/
def compareFp (cc : BitVec 2) (a b : FVal) : Bool :=
  if a.isNan || b.isNan then cc == 1#2
  else if cc = 0#2 then a.eq b else if cc = 1#2 then !a.eq b else if cc = 2#2 then a.lt b else a.lt b || a.eq b

/-- The result of an integer compare. -/
def compareInt (cc : BitVec 2) (a b : Int) : Bool :=
  if cc = 0#2 then a == b else if cc = 1#2 then a != b else if cc = 2#2 then decide (a < b) else decide (a ≤ b)

/-- The condition of CMP on words, signed or unsigned (R389). -/
def compareWord (cc : BitVec 2) (u : Bool) (a b : Word) : Bool :=
  if u then compareInt cc a.toNat b.toNat else compareInt cc a.toInt b.toInt

/-- OR of the flags of a list. -/
def orFlags (fs : List Flags) : Flags := fs.foldl (· ||| ·) 0

end Sys2Proof.Machine
end

