-- ==== Sys2Proof/Decode.lean ====
section
/-! DEFINITION. The decoders (04_encoding R80 to R99, the entries' encodings) and the encoder.
A slot word is decoded under the class of its position; a word the tables do not define is refused, and the bundle takes
ILLOP. -/
namespace Sys2Proof

/-- Slot words of class CTRL (R93 to R97 and the entries). -/
def decodeCtrl (w : BitVec 32) : Option Instr :=
  match field w 23 7 with
  | 0x01#7 =>
    some (.br (.short (field w 0 23)))
  | 0x02#7 =>
    if field w 17 6 = 0#6 ∧ field w 0 11 = 0#11 then some (.brx (field w 11 6))
    else none
  | 0x03#7 =>
    some (.call (.short (field w 0 23)))
  | 0x04#7 =>
    if field w 17 6 = 0#6 ∧ field w 0 11 = 0#11 then some (.callx (field w 11 6))
    else none
  | 0x05#7 =>
    if field w 0 23 = 0#23 then some (.ret)
    else none
  | 0x08#7 =>
    if field w 0 11 = 0#11 then some (.loop (field w 17 6) (field w 11 6))
    else none
  | 0x09#7 =>
    if field w 0 11 = 0#11 then some (.loopm (field w 17 6) (field w 11 6))
    else none
  | 0x0a#7 =>
    if field w 0 20 = 0#20 then some (.lexit (field w 20 3))
    else none
  | 0x10#7 =>
    if field w 0 23 = 0#23 then some (.endRill)
    else none
  | 0x11#7 =>
    if field w 0 23 = 0#23 then some (.yield)
    else none
  | 0x12#7 =>
    if field w 16 7 = 0#7 then some (.barr (field w 0 16))
    else none
  | 0x13#7 =>
    if field w 0 15 = 0#15 then some (.hwait (field w 17 6) (field w 15 2))
    else none
  | 0x14#7 =>
    if field w 0 13 = 0#13 then some (.vwait (field w 19 4) (field w 13 6))
    else none
  | 0x15#7 =>
    if field w 0 13 = 0#13 then some (.mwait (field w 19 4) (field w 13 6))
    else none
  | 0x18#7 =>
    if field w 16 7 = 0#7 then some (.trapImm (field w 0 16))
    else none
  | 0x19#7 =>
    if field w 0 23 = 0#23 then some (.rft)
    else none
  | 0x20#7 =>
    if field w 0 18 = 0#18 then some (.fence (field w 21 2) (field w 18 3))
    else if field w 17 1 = 1#1 ∧ field w 0 7 = 0#7 then some (.fenceR (field w 21 2) (field w 18 3) (field w 13 4) (field w 7 6))
    else none
  | 0x21#7 =>
    if field w 8 15 = 0#15 then some (.qfence (field w 0 8))
    else none
  | 0x28#7 =>
    if field w 0 11 = 0#11 then some (.mfsr (field w 17 6) (field w 11 6))
    else none
  | 0x29#7 =>
    if field w 0 11 = 0#11 then some (.mtsr (field w 17 6) (field w 11 6))
    else none
  | 0x2a#7 =>
    if field w 22 1 = 0#1 ∧ field w 0 16 = 0#16 then some (.est (field w 16 6))
    else if field w 16 7 = 64#7 then some (.estI (.short (field w 0 16)))
    else none
  | _ => none

/-- Long forms of class CTRL (R93 to R97 and the entries). -/
def decodeCtrlLong (w x : BitVec 32) : Option Instr :=
  match field w 23 7 with
  | 0x01#7 =>
    if field w 0 23 = 0#23 then some (.br (.long x))
    else none
  | 0x03#7 =>
    if field w 0 23 = 0#23 then some (.call (.long x))
    else none
  | 0x2a#7 =>
    if field w 16 7 = 64#7 ∧ field w 0 16 = 0#16 then some (.estI (.long x))
    else none
  | _ => none

/-- Slot words of class INT (R93 to R97 and the entries). -/
def decodeInt (w : BitVec 32) : Option Instr :=
  match field w 23 7 with
  | 0x01#7 =>
    if field w 10 1 = 0#1 ∧ field w 0 4 = 0#4 then some (.add (field w 17 6) (field w 11 6) (field w 4 6))
    else if field w 10 1 = 1#1 then some (.addI (field w 17 6) (field w 11 6) (.short (field w 0 10)))
    else none
  | 0x02#7 =>
    if field w 10 1 = 0#1 ∧ field w 0 4 = 0#4 then some (.sub (field w 17 6) (field w 11 6) (field w 4 6))
    else if field w 10 1 = 1#1 then some (.subI (field w 17 6) (field w 11 6) (.short (field w 0 10)))
    else none
  | 0x03#7 =>
    if field w 10 1 = 0#1 ∧ field w 0 4 = 0#4 then some (.mul (field w 17 6) (field w 11 6) (field w 4 6))
    else if field w 10 1 = 1#1 then some (.mulI (field w 17 6) (field w 11 6) (.short (field w 0 10)))
    else none
  | 0x04#7 =>
    if field w 10 1 = 0#1 ∧ field w 1 3 = 0#3 then some (.mulh (field w 17 6) (field w 11 6) (field w 4 6) (field w 0 1))
    else if field w 10 1 = 1#1 then some (.mulhI (field w 17 6) (field w 11 6) (.short (field w 0 10)))
    else none
  | 0x05#7 =>
    if field w 10 1 = 0#1 ∧ field w 0 4 = 0#4 then some (.mad (field w 17 6) (field w 11 6) (field w 4 6))
    else if field w 10 1 = 1#1 then some (.madI (field w 17 6) (field w 11 6) (.short (field w 0 10)))
    else none
  | 0x06#7 =>
    if field w 10 1 = 0#1 ∧ field w 1 3 = 0#3 then some (.div (field w 17 6) (field w 11 6) (field w 4 6) (field w 0 1))
    else if field w 10 1 = 1#1 then some (.divI (field w 17 6) (field w 11 6) (.short (field w 0 10)))
    else none
  | 0x07#7 =>
    if field w 10 1 = 0#1 ∧ field w 1 3 = 0#3 then some (.rem (field w 17 6) (field w 11 6) (field w 4 6) (field w 0 1))
    else if field w 10 1 = 1#1 then some (.remI (field w 17 6) (field w 11 6) (.short (field w 0 10)))
    else none
  | 0x08#7 =>
    if field w 10 1 = 0#1 ∧ field w 0 4 = 0#4 then some (.and (field w 17 6) (field w 11 6) (field w 4 6))
    else if field w 10 1 = 1#1 then some (.andI (field w 17 6) (field w 11 6) (.short (field w 0 10)))
    else none
  | 0x09#7 =>
    if field w 10 1 = 0#1 ∧ field w 0 4 = 0#4 then some (.or (field w 17 6) (field w 11 6) (field w 4 6))
    else if field w 10 1 = 1#1 then some (.orI (field w 17 6) (field w 11 6) (.short (field w 0 10)))
    else none
  | 0x0a#7 =>
    if field w 10 1 = 0#1 ∧ field w 0 4 = 0#4 then some (.xor (field w 17 6) (field w 11 6) (field w 4 6))
    else if field w 10 1 = 1#1 then some (.xorI (field w 17 6) (field w 11 6) (.short (field w 0 10)))
    else none
  | 0x0b#7 =>
    if field w 10 1 = 0#1 ∧ field w 0 4 = 0#4 then some (.andn (field w 17 6) (field w 11 6) (field w 4 6))
    else if field w 10 1 = 1#1 then some (.andnI (field w 17 6) (field w 11 6) (.short (field w 0 10)))
    else none
  | 0x0c#7 =>
    if field w 10 1 = 0#1 ∧ field w 0 4 = 0#4 then some (.shl (field w 17 6) (field w 11 6) (field w 4 6))
    else if field w 10 1 = 1#1 then some (.shlI (field w 17 6) (field w 11 6) (field w 0 10))
    else none
  | 0x0d#7 =>
    if field w 10 1 = 0#1 ∧ field w 0 4 = 0#4 then some (.shr (field w 17 6) (field w 11 6) (field w 4 6))
    else if field w 10 1 = 1#1 then some (.shrI (field w 17 6) (field w 11 6) (field w 0 10))
    else none
  | 0x0e#7 =>
    if field w 10 1 = 0#1 ∧ field w 0 4 = 0#4 then some (.sra (field w 17 6) (field w 11 6) (field w 4 6))
    else if field w 10 1 = 1#1 then some (.sraI (field w 17 6) (field w 11 6) (field w 0 10))
    else none
  | 0x0f#7 =>
    if field w 10 1 = 0#1 ∧ field w 0 4 = 0#4 then some (.rol (field w 17 6) (field w 11 6) (field w 4 6))
    else if field w 10 1 = 1#1 then some (.rolI (field w 17 6) (field w 11 6) (field w 0 10))
    else none
  | 0x10#7 =>
    if field w 0 11 = 0#11 then some (.clz (field w 17 6) (field w 11 6))
    else none
  | 0x11#7 =>
    if field w 0 11 = 0#11 then some (.ctz (field w 17 6) (field w 11 6))
    else none
  | 0x12#7 =>
    if field w 0 11 = 0#11 then some (.popc (field w 17 6) (field w 11 6))
    else none
  | 0x13#7 =>
    if field w 10 1 = 0#1 ∧ field w 1 3 = 0#3 then some (.min (field w 17 6) (field w 11 6) (field w 4 6) (field w 0 1))
    else if field w 10 1 = 1#1 then some (.minI (field w 17 6) (field w 11 6) (.short (field w 0 10)))
    else none
  | 0x14#7 =>
    if field w 10 1 = 0#1 ∧ field w 1 3 = 0#3 then some (.max (field w 17 6) (field w 11 6) (field w 4 6) (field w 0 1))
    else if field w 10 1 = 1#1 then some (.maxI (field w 17 6) (field w 11 6) (.short (field w 0 10)))
    else none
  | 0x15#7 =>
    if field w 0 11 = 0#11 then some (.abs (field w 17 6) (field w 11 6))
    else none
  | 0x16#7 =>
    if field w 10 1 = 0#1 ∧ field w 1 3 = 0#3 then some (.cmp (field w 21 2) (field w 17 4) (field w 11 6) (field w 4 6) (field w 0 1))
    else if field w 10 1 = 1#1 then some (.cmpI (field w 21 2) (field w 17 4) (field w 11 6) (.short (field w 0 10)))
    else none
  | 0x17#7 =>
    if field w 10 1 = 0#1 then some (.sel (field w 17 6) (field w 11 6) (field w 4 6) (field w 0 4))
    else if field w 10 1 = 1#1 then some (.selI (field w 17 6) (field w 11 6) (field w 4 6) (field w 0 4))
    else none
  | 0x18#7 =>
    if field w 0 11 = 0#11 then some (.mov (field w 17 6) (field w 11 6))
    else none
  | 0x19#7 =>
    some (.movi (field w 17 6) (field w 16 1) (.short (field w 0 16)))
  | 0x1a#7 =>
    if field w 10 1 = 0#1 ∧ field w 0 4 = 0#4 then some (.bfx (field w 17 6) (field w 11 6) (field w 4 6))
    else none
  | 0x1b#7 =>
    if field w 10 1 = 0#1 ∧ field w 0 4 = 0#4 then some (.bfi (field w 17 6) (field w 11 6) (field w 4 6))
    else none
  | 0x1c#7 =>
    if field w 21 2 = 0#2 ∧ field w 15 2 = 0#2 ∧ field w 10 1 = 0#1 ∧ field w 0 4 = 0#4 then some (.adda (field w 17 4) (field w 11 4) (field w 4 6))
    else if field w 21 2 = 0#2 ∧ field w 15 2 = 0#2 ∧ field w 10 1 = 1#1 then some (.addaI (field w 17 4) (field w 11 4) (.short (field w 0 10)))
    else none
  | 0x1d#7 =>
    if field w 21 2 = 0#2 ∧ field w 0 11 = 0#11 then some (.movaToA (field w 17 4) (field w 11 6))
    else if field w 15 2 = 0#2 ∧ field w 0 11 = 1#11 then some (.movaToS (field w 17 6) (field w 11 4))
    else none
  | 0x1e#7 =>
    if field w 21 2 = 0#2 ∧ field w 15 2 = 0#2 ∧ field w 8 3 = 0#3 ∧ field w 2 2 = 0#2 then some (.plog (field w 17 4) (field w 11 4) (field w 4 4) (field w 0 2))
    else none
  | 0x1f#7 =>
    if field w 7 4 = 8#4 then some (.sext (field w 17 6) (field w 11 6) (field w 0 7))
    else none
  | 0x20#7 =>
    if field w 0 17 = 0#17 then some (.mstat (field w 17 6))
    else if field w 0 17 = 65536#17 then some (.mstatClr (field w 17 6))
    else none
  | _ => none

/-- Long forms of class INT (R93 to R97 and the entries). -/
def decodeIntLong (w x : BitVec 32) : Option Instr :=
  match field w 23 7 with
  | 0x01#7 =>
    if field w 10 1 = 1#1 ∧ field w 1 9 = 0#9 then some (.addI (field w 17 6) (field w 11 6) (.long (w.getLsbD 0) x))
    else none
  | 0x02#7 =>
    if field w 10 1 = 1#1 ∧ field w 1 9 = 0#9 then some (.subI (field w 17 6) (field w 11 6) (.long (w.getLsbD 0) x))
    else none
  | 0x03#7 =>
    if field w 10 1 = 1#1 ∧ field w 1 9 = 0#9 then some (.mulI (field w 17 6) (field w 11 6) (.long (w.getLsbD 0) x))
    else none
  | 0x04#7 =>
    if field w 10 1 = 1#1 ∧ field w 1 9 = 0#9 then some (.mulhI (field w 17 6) (field w 11 6) (.long (w.getLsbD 0) x))
    else none
  | 0x05#7 =>
    if field w 10 1 = 1#1 ∧ field w 1 9 = 0#9 then some (.madI (field w 17 6) (field w 11 6) (.long (w.getLsbD 0) x))
    else none
  | 0x06#7 =>
    if field w 10 1 = 1#1 ∧ field w 1 9 = 0#9 then some (.divI (field w 17 6) (field w 11 6) (.long (w.getLsbD 0) x))
    else none
  | 0x07#7 =>
    if field w 10 1 = 1#1 ∧ field w 1 9 = 0#9 then some (.remI (field w 17 6) (field w 11 6) (.long (w.getLsbD 0) x))
    else none
  | 0x08#7 =>
    if field w 10 1 = 1#1 ∧ field w 1 9 = 0#9 then some (.andI (field w 17 6) (field w 11 6) (.long (w.getLsbD 0) x))
    else none
  | 0x09#7 =>
    if field w 10 1 = 1#1 ∧ field w 1 9 = 0#9 then some (.orI (field w 17 6) (field w 11 6) (.long (w.getLsbD 0) x))
    else none
  | 0x0a#7 =>
    if field w 10 1 = 1#1 ∧ field w 1 9 = 0#9 then some (.xorI (field w 17 6) (field w 11 6) (.long (w.getLsbD 0) x))
    else none
  | 0x0b#7 =>
    if field w 10 1 = 1#1 ∧ field w 1 9 = 0#9 then some (.andnI (field w 17 6) (field w 11 6) (.long (w.getLsbD 0) x))
    else none
  | 0x13#7 =>
    if field w 10 1 = 1#1 ∧ field w 1 9 = 0#9 then some (.minI (field w 17 6) (field w 11 6) (.long (w.getLsbD 0) x))
    else none
  | 0x14#7 =>
    if field w 10 1 = 1#1 ∧ field w 1 9 = 0#9 then some (.maxI (field w 17 6) (field w 11 6) (.long (w.getLsbD 0) x))
    else none
  | 0x16#7 =>
    if field w 10 1 = 1#1 ∧ field w 1 9 = 0#9 then some (.cmpI (field w 21 2) (field w 17 4) (field w 11 6) (.long (w.getLsbD 0) x))
    else none
  | 0x19#7 =>
    if field w 0 16 = 0#16 then some (.movi (field w 17 6) (field w 16 1) (.long x))
    else none
  | 0x1c#7 =>
    if field w 21 2 = 0#2 ∧ field w 15 2 = 0#2 ∧ field w 10 1 = 1#1 ∧ field w 1 9 = 0#9 then some (.addaI (field w 17 4) (field w 11 4) (.long (w.getLsbD 0) x))
    else none
  | _ => none

/-- Slot words of class MEM (R93 to R97 and the entries). -/
def decodeMem (w : BitVec 32) : Option Instr :=
  match field w 23 7 with
  | 0x01#7 =>
    some (.ld (field w 17 6) (field w 13 4) (field w 11 2) (field w 9 2) (field w 7 2) (field w 6 1) (.short (field w 0 6)))
  | 0x02#7 =>
    if field w 6 1 = 0#1 then some (.st (field w 17 6) (field w 13 4) (field w 11 2) (field w 9 2) (field w 7 2) (.short (field w 0 6)))
    else none
  | 0x03#7 =>
    if field w 22 1 = 0#1 ∧ field w 6 3 = 6#3 then some (.vld (field w 17 5) (field w 13 4) (field w 11 2) (field w 9 2) (.short (field w 0 6)))
    else none
  | 0x04#7 =>
    if field w 22 1 = 0#1 ∧ field w 6 3 = 6#3 then some (.vst (field w 17 5) (field w 13 4) (field w 11 2) (field w 9 2) (.short (field w 0 6)))
    else none
  | 0x05#7 =>
    if field w 0 1 = 0#1 then some (.vldx (field w 18 5) (field w 14 4) (field w 9 5) (field w 7 2) (field w 5 2) (field w 4 1) (field w 1 3))
    else none
  | 0x06#7 =>
    if field w 0 1 = 0#1 then some (.vstx (field w 18 5) (field w 14 4) (field w 9 5) (field w 7 2) (field w 5 2) (field w 4 1) (field w 1 3))
    else none
  | 0x07#7 =>
    if field w 11 2 = 0#2 then some (.lda (field w 17 6) (field w 13 4) (field w 9 2) (field w 7 2) (field w 6 1) (field w 3 3) (field w 0 3))
    else none
  | 0x08#7 =>
    if field w 11 2 = 0#2 ∧ field w 6 1 = 0#1 then some (.stl (field w 17 6) (field w 13 4) (field w 9 2) (field w 7 2) (field w 3 3) (field w 0 3))
    else if field w 9 2 = 2#2 ∧ field w 6 1 = 1#1 then some (.stlR (field w 17 6) (field w 13 4) (field w 11 2 ++ field w 0 3) (field w 7 2) (field w 3 3))
    else none
  | 0x09#7 =>
    some (.atom (field w 18 5) (field w 13 5) (field w 10 3) (field w 6 4) (field w 5 1) (field w 3 2) (field w 0 3))
  | 0x0a#7 =>
    if field w 0 7 = 64#7 then some (.upd (field w 17 6) (field w 13 4) (field w 9 4) (field w 7 2))
    else none
  | 0x0b#7 =>
    if field w 0 9 = 0#9 then some (.cmnt (field w 21 2) (field w 19 2) (field w 15 4) (field w 9 6))
    else none
  | 0x0c#7 =>
    if field w 12 5 = 0#5 ∧ field w 0 9 = 0#9 then some (.alloc (field w 17 6) (field w 9 3))
    else if field w 16 1 = 1#1 ∧ field w 0 9 = 0#9 then some (.allocNf (field w 17 6) (field w 12 4) (field w 9 3))
    else none
  | 0x0d#7 =>
    if field w 17 6 = 0#6 ∧ field w 12 1 = 0#1 ∧ field w 0 9 = 0#9 then some (.free (field w 13 4) (field w 9 3))
    else none
  | _ => none

/-- Long forms of class MEM (R93 to R97 and the entries). -/
def decodeMemLong (w x : BitVec 32) : Option Instr :=
  match field w 23 7 with
  | 0x01#7 =>
    if field w 0 6 = 0#6 then some (.ld (field w 17 6) (field w 13 4) (field w 11 2) (field w 9 2) (field w 7 2) (field w 6 1) (.long x))
    else none
  | 0x02#7 =>
    if field w 6 1 = 0#1 ∧ field w 0 6 = 0#6 then some (.st (field w 17 6) (field w 13 4) (field w 11 2) (field w 9 2) (field w 7 2) (.long x))
    else none
  | 0x03#7 =>
    if field w 22 1 = 0#1 ∧ field w 6 3 = 6#3 ∧ field w 0 6 = 0#6 then some (.vld (field w 17 5) (field w 13 4) (field w 11 2) (field w 9 2) (.long x))
    else none
  | 0x04#7 =>
    if field w 22 1 = 0#1 ∧ field w 6 3 = 6#3 ∧ field w 0 6 = 0#6 then some (.vst (field w 17 5) (field w 13 4) (field w 11 2) (field w 9 2) (.long x))
    else none
  | _ => none

/-- Slot words of class VEC (R93 to R97 and the entries). -/
def decodeVec (w : BitVec 32) : Option Instr :=
  match field w 23 7 with
  | 0x01#7 =>
    some (.vadd (field w 18 5) (field w 13 5) (field w 8 5) (field w 7 1) (field w 4 3) (field w 0 4))
  | 0x02#7 =>
    some (.vsub (field w 18 5) (field w 13 5) (field w 8 5) (field w 7 1) (field w 4 3) (field w 0 4))
  | 0x03#7 =>
    some (.vmul (field w 18 5) (field w 13 5) (field w 8 5) (field w 7 1) (field w 4 3) (field w 0 4))
  | 0x04#7 =>
    some (.vfma (field w 18 5) (field w 13 5) (field w 8 5) (field w 7 1) (field w 4 3) (field w 0 4))
  | 0x05#7 =>
    some (.vmin (field w 18 5) (field w 13 5) (field w 8 5) (field w 7 1) (field w 4 3) (field w 0 4))
  | 0x06#7 =>
    some (.vmax (field w 18 5) (field w 13 5) (field w 8 5) (field w 7 1) (field w 4 3) (field w 0 4))
  | 0x07#7 =>
    if field w 8 5 = 0#5 then some (.vabs (field w 18 5) (field w 13 5) (field w 7 1) (field w 4 3) (field w 0 4))
    else none
  | 0x08#7 =>
    if field w 8 5 = 0#5 then some (.vneg (field w 18 5) (field w 13 5) (field w 7 1) (field w 4 3) (field w 0 4))
    else none
  | 0x09#7 =>
    some (.vcmp (field w 21 2) (field w 18 3) (field w 13 5) (field w 8 5) (field w 7 1) (field w 4 3) (field w 0 4))
  | 0x0a#7 =>
    if field w 7 1 = 1#1 then some (.vsel (field w 18 5) (field w 13 5) (field w 8 5) (field w 4 3) (field w 0 4))
    else none
  | 0x0b#7 =>
    some (.vand (field w 18 5) (field w 13 5) (field w 8 5) (field w 7 1) (field w 4 3) (field w 0 4))
  | 0x0c#7 =>
    some (.vor (field w 18 5) (field w 13 5) (field w 8 5) (field w 7 1) (field w 4 3) (field w 0 4))
  | 0x0d#7 =>
    some (.vxor (field w 18 5) (field w 13 5) (field w 8 5) (field w 7 1) (field w 4 3) (field w 0 4))
  | 0x0e#7 =>
    some (.vshl (field w 18 5) (field w 13 5) (field w 8 5) (field w 7 1) (field w 4 3) (field w 0 4))
  | 0x0f#7 =>
    some (.vshr (field w 18 5) (field w 13 5) (field w 8 5) (field w 7 1) (field w 4 3) (field w 0 4))
  | 0x10#7 =>
    some (.vcvt (field w 18 5) (field w 13 5) (field w 12 1) (field w 8 4) (field w 7 1) (field w 4 3) (field w 0 4))
  | 0x11#7 =>
    if field w 11 2 = 0#2 ∧ field w 7 1 = 0#1 then some (.vqnt (field w 18 5) (field w 13 5) (field w 8 3) (field w 4 3) (field w 0 4))
    else none
  | 0x12#7 =>
    if field w 11 2 = 0#2 ∧ field w 7 1 = 0#1 then some (.vdq (field w 18 5) (field w 13 5) (field w 8 3) (field w 4 3) (field w 0 4))
    else none
  | 0x13#7 =>
    if field w 11 2 = 0#2 then some (.vfn (field w 18 5) (field w 13 5) (field w 8 3) (field w 7 1) (field w 4 3) (field w 0 4))
    else none
  | 0x14#7 =>
    if field w 11 2 = 0#2 then some (.vred (field w 18 5) (field w 13 5) (field w 8 3) (field w 7 1) (field w 4 3) (field w 0 4))
    else none
  | 0x15#7 =>
    if field w 11 2 = 0#2 then some (.vscan (field w 18 5) (field w 13 5) (field w 8 3) (field w 7 1) (field w 4 3) (field w 0 4))
    else none
  | 0x16#7 =>
    if field w 2 2 = 0#2 then some (.vperm (field w 18 5) (field w 13 5) (field w 8 5) (field w 7 1) (field w 4 3) (field w 0 2))
    else none
  | 0x17#7 =>
    if field w 17 1 = 0#1 ∧ field w 0 9 = 0#9 then some (.vbcst (field w 18 5) (field w 11 6) (field w 9 2))
    else if field w 11 7 = 64#7 then some (.vbcstI (field w 18 5) (field w 9 2) (.short (field w 0 9)))
    else none
  | 0x18#7 =>
    if field w 0 2 = 0#2 then some (.vget (field w 17 6) (field w 12 5) (field w 10 2) (field w 3 7) (field w 2 1))
    else none
  | 0x19#7 =>
    if field w 0 3 = 0#3 then some (.vput (field w 18 5) (field w 12 6) (field w 10 2) (field w 3 7))
    else none
  | 0x1a#7 =>
    some (.vdot (field w 18 5) (field w 13 5) (field w 8 5) (field w 7 1) (field w 4 3) (field w 0 4))
  | 0x1b#7 =>
    some (.vcmul (field w 18 5) (field w 13 5) (field w 8 5) (field w 7 1) (field w 4 3) (field w 0 4))
  | 0x1c#7 =>
    if field w 0 11 = 0#11 then some (.qlog (field w 20 3) (field w 17 3) (field w 14 3) (field w 11 3))
    else none
  | 0x20#7 =>
    if field w 0 23 = 0#23 then some (.xclr)
    else none
  | 0x21#7 =>
    if field w 0 10 = 0#10 then some (.xfma (field w 17 6) (field w 11 6) (field w 10 1))
    else none
  | 0x22#7 =>
    if field w 11 6 = 0#6 ∧ field w 0 10 = 0#10 then some (.xadd (field w 17 6) (field w 10 1))
    else none
  | 0x23#7 =>
    if field w 11 3 = 0#3 ∧ field w 0 10 = 0#10 then some (.xrnd (field w 17 6) (field w 14 3) (field w 10 1))
    else none
  | 0x24#7 =>
    if field w 0 15 = 0#15 then some (.xsgn (field w 19 4) (field w 15 4))
    else none
  | _ => none

/-- Long forms of class VEC (R93 to R97 and the entries). -/
def decodeVecLong (w x : BitVec 32) : Option Instr :=
  match field w 23 7 with
  | 0x17#7 =>
    if field w 11 7 = 64#7 ∧ field w 0 9 = 0#9 then some (.vbcstI (field w 18 5) (field w 9 2) (.long x))
    else none
  | _ => none

/-- Slot words of class MTX (R93 to R97 and the entries). -/
def decodeMtx (w : BitVec 32) : Option Instr :=
  match field w 23 7 with
  | 0x01#7 =>
    if field w 0 18 = 0#18 then some (.mmode (field w 20 3) (field w 18 2))
    else none
  | 0x02#7 =>
    if field w 21 2 = 0#2 ∧ field w 0 17 = 0#17 then some (.mpush (field w 17 4))
    else if field w 22 1 = 1#1 ∧ field w 0 17 = 0#17 then some (.mpushV (field w 17 5))
    else none
  | 0x03#7 =>
    if field w 0 8 = 0#8 then some (.mshift (field w 22 1) (field w 21 1) (field w 17 4) (field w 16 1) (field w 8 8))
    else none
  | 0x04#7 =>
    if field w 20 3 = 0#3 ∧ field w 8 1 = 0#1 then some (.maccSet (field w 19 1) (field w 9 10) (field w 4 4) (field w 0 4))
    else if field w 20 3 = 1#3 ∧ field w 8 1 = 0#1 then some (.maccAdd (field w 19 1) (field w 9 10) (field w 4 4) (field w 0 4))
    else if field w 15 8 = 80#8 ∧ field w 8 1 = 0#1 then some (.maccArmSet (field w 9 6) (field w 4 4) (field w 0 4))
    else if field w 15 8 = 112#8 ∧ field w 8 1 = 0#1 then some (.maccArmAdd (field w 9 6) (field w 4 4) (field w 0 4))
    else if field w 0 23 = 4194304#23 then some (.maccOff)
    else none
  | 0x05#7 =>
    if field w 0 5 = 0#5 then some (.mdrain (field w 21 2) (field w 20 1) (field w 16 4) (field w 15 1) (field w 5 10))
    else none
  | 0x06#7 =>
    if field w 0 6 = 0#6 then some (.mzero (field w 22 1) (field w 12 10) (field w 6 6))
    else none
  | 0x07#7 =>
    if field w 22 1 = 0#1 then some (.mxcpOut (field w 20 2) (field w 16 4) (field w 6 10) (field w 0 6) none)
    else if field w 22 1 = 1#1 then some (.mxcpIn (field w 20 2) (field w 16 4) (field w 6 10) (field w 0 6) none)
    else none
  | _ => none

/-- Long forms of class MTX (R93 to R97 and the entries). -/
def decodeMtxLong (w x : BitVec 32) : Option Instr :=
  match field w 23 7 with
  | 0x07#7 =>
    if field w 22 1 = 0#1 then some (.mxcpOut (field w 20 2) (field w 16 4) (field w 6 10) (field w 0 6) (some x))
    else if field w 22 1 = 1#1 then some (.mxcpIn (field w 20 2) (field w 16 4) (field w 6 10) (field w 0 6) (some x))
    else none
  | _ => none

/-- Slot words of class SCL (R93 to R97 and the entries). -/
def decodeScl (w : BitVec 32) : Option Instr :=
  match field w 23 7 with
  | 0x01#7 =>
    if field w 22 1 = 0#1 ∧ field w 0 17 = 0#17 then some (.sclA (field w 17 5))
    else if field w 22 1 = 1#1 ∧ field w 0 12 = 0#12 then some (.sclB (field w 17 5) (field w 13 4) (field w 12 1))
    else none
  | 0x02#7 =>
    if field w 17 6 = 0#6 ∧ field w 8 5 = 0#5 then some (.scliA (field w 13 4) (.short (field w 0 8)))
    else if field w 17 6 = 32#6 ∧ field w 8 5 = 0#5 then some (.scliB (field w 13 4) (.short (field w 0 8)))
    else none
  | _ => none

/-- Long forms of class SCL (R93 to R97 and the entries). -/
def decodeSclLong (w x : BitVec 32) : Option Instr :=
  match field w 23 7 with
  | 0x02#7 =>
    if field w 17 6 = 0#6 ∧ field w 8 5 = 0#5 ∧ field w 0 8 = 0#8 then some (.scliA (field w 13 4) (.long x))
    else if field w 17 6 = 32#6 ∧ field w 8 5 = 0#5 ∧ field w 0 8 = 0#8 then some (.scliB (field w 13 4) (.long x))
    else none
  | _ => none

/-- Slot words of class FLOW (R93 to R97 and the entries). -/
def decodeFlow (w : BitVec 32) : Option Instr :=
  match field w 23 7 with
  | 0x01#7 =>
    if field w 0 7 = 0#7 then some (.gset (field w 19 4) (field w 13 6) (field w 7 6))
    else none
  | 0x02#7 =>
    if field w 0 15 = 0#15 then some (.gldd (field w 19 4) (field w 15 4))
    else none
  | 0x03#7 =>
    if field w 0 13 = 0#13 then some (.gadv (field w 19 4) (field w 13 6))
    else none
  | 0x08#7 =>
    if field w 22 1 = 0#1 ∧ field w 0 10 = 0#10 then some (.cpy (field w 20 2) (field w 16 4) (field w 10 6))
    else if field w 22 1 = 1#1 ∧ field w 0 10 = 0#10 then some (.cpyNet (field w 20 2) (field w 16 4) (field w 10 6))
    else none
  | 0x09#7 =>
    if field w 22 1 = 0#1 ∧ field w 0 7 = 0#7 then some (.dftFwd (field w 21 1) (field w 17 4) (field w 13 4) (field w 7 6))
    else if field w 22 1 = 1#1 ∧ field w 0 7 = 0#7 then some (.dftInv (field w 21 1) (field w 17 4) (field w 13 4) (field w 7 6))
    else none
  | 0x10#7 =>
    if field w 0 5 = 0#5 then some (.hreq (field w 17 6) (field w 11 6) (field w 5 6))
    else none
  | 0x11#7 =>
    if field w 0 17 = 0#17 then some (.hrel (field w 17 6))
    else none
  | 0x12#7 =>
    if field w 0 11 = 0#11 then some (.hqry (field w 17 6) (field w 11 6))
    else none
  | 0x18#7 =>
    if field w 0 13 = 0#13 then some (.route (field w 19 4) (field w 13 6))
    else none
  | 0x19#7 =>
    if field w 0 7 = 0#7 then some (.rcnt (field w 19 4) (field w 13 6) (field w 7 6))
    else none
  | 0x20#7 =>
    if field w 22 1 = 0#1 ∧ field w 0 12 = 0#12 then some (.pubOpen (field w 16 6) (field w 12 4))
    else if field w 16 7 = 64#7 ∧ field w 0 10 = 0#10 then some (.pubClose (field w 12 4) (field w 10 2))
    else none
  | 0x21#7 =>
    if field w 16 7 = 0#7 ∧ field w 0 12 = 0#12 then some (.settle (field w 12 4))
    else if field w 16 7 = 64#7 ∧ field w 0 10 = 0#10 then some (.settlePub (field w 12 4) (field w 10 2))
    else none
  | 0x22#7 =>
    if field w 22 1 = 0#1 ∧ field w 0 12 = 0#12 then some (.pin (field w 16 6) (field w 12 4))
    else none
  | 0x23#7 =>
    if field w 22 1 = 0#1 ∧ field w 0 12 = 0#12 then some (.unpin (field w 16 6) (field w 12 4))
    else none
  | 0x28#7 =>
    if field w 0 5 = 0#5 then some (.spawn (field w 21 2) (field w 15 6) (field w 11 4) (field w 5 6))
    else none
  | 0x29#7 =>
    if field w 17 6 = 0#6 ∧ field w 9 4 = 0#4 ∧ field w 0 3 = 0#3 then some (.enqC (field w 13 4) (field w 3 6))
    else if field w 21 2 = 1#2 ∧ field w 0 9 = 0#9 then some (.enqR (field w 17 4) (field w 13 4) (field w 9 4))
    else if field w 17 6 = 32#6 ∧ field w 0 13 = 0#13 then some (.enqX (field w 13 4))
    else none
  | 0x2a#7 =>
    if field w 16 7 = 0#7 ∧ field w 0 8 = 0#8 then some (.depdec (field w 8 8))
    else if field w 22 1 = 1#1 ∧ field w 0 16 = 0#16 then some (.depdecS (field w 16 6))
    else none
  | 0x30#7 =>
    if field w 0 14 = 0#14 then some (.flget (field w 18 5) (field w 14 4))
    else none
  | 0x31#7 =>
    if field w 0 14 = 0#14 then some (.flput (field w 18 5) (field w 14 4))
    else none
  | 0x32#7 =>
    if field w 18 5 = 0#5 ∧ field w 0 8 = 0#8 then some (.flwait (field w 14 4) (field w 8 6))
    else none
  | 0x33#7 =>
    if field w 18 5 = 0#5 ∧ field w 0 8 = 0#8 then some (.fldrop (field w 14 4) (field w 8 6))
    else none
  | 0x38#7 =>
    if field w 0 13 = 0#13 then some (.coll (field w 19 4) (field w 13 6))
    else none
  | 0x39#7 =>
    if field w 0 17 = 0#17 then some (.tstamp (field w 17 6))
    else none
  | 0x3a#7 =>
    if field w 21 2 = 0#2 ∧ field w 0 11 = 0#11 then some (.monArm (field w 15 6) (field w 11 4))
    else if field w 21 2 = 1#2 ∧ field w 0 11 = 0#11 then some (.monStop (field w 15 6) (field w 11 4))
    else if field w 21 2 = 2#2 ∧ field w 0 11 = 0#11 then some (.monSnap (field w 15 6) (field w 11 4))
    else none
  | _ => none

/-- Slot words of class INT that only slot s1 holds (R93 to R97 and the entries). -/
def decodeIntBranch (w : BitVec 32) : Option Instr :=
  match field w 23 7 with
  | 0x70#7 =>
    some (.brS1 (.short (field w 0 23)))
  | 0x71#7 =>
    if field w 17 6 = 0#6 ∧ field w 0 11 = 0#11 then some (.brxS1 (field w 11 6))
    else none
  | 0x72#7 =>
    some (.callS1 (.short (field w 0 23)))
  | 0x73#7 =>
    if field w 17 6 = 0#6 ∧ field w 0 11 = 0#11 then some (.callxS1 (field w 11 6))
    else none
  | _ => none

/-- Long forms of class INT that only slot s1 holds (R93 to R97 and the entries). -/
def decodeIntBranchLong (w x : BitVec 32) : Option Instr :=
  match field w 23 7 with
  | 0x70#7 =>
    if field w 0 23 = 0#23 then some (.brS1 (.long x))
    else none
  | 0x72#7 =>
    if field w 0 23 = 0#23 then some (.callS1 (.long x))
    else none
  | _ => none

/-- The fields of a slot word, before the limits of its entry are applied. `ext` is imm32 of a surrendered next slot
(R89); an opcode without a long form is then refused. -/
def decodeFields (c : SlotClass) (w : BitVec 32) : Option (BitVec 32) → Option Instr
  | none =>
    match c with
    | .ctrl => decodeCtrl w
    | .int1 => (decodeInt w).or (decodeIntBranch w)
    | .int2 => decodeInt w
    | .mem => decodeMem w
    | .vec => decodeVec w
    | .mtx => decodeMtx w
    | .scl => decodeScl w
    | .flow => decodeFlow w
  | some x =>
    match c with
    | .ctrl => decodeCtrlLong w x
    | .int1 => (decodeIntLong w x).or (decodeIntBranchLong w x)
    | .int2 => decodeIntLong w x
    | .mem => decodeMemLong w x
    | .vec => decodeVecLong w x
    | .mtx => decodeMtxLong w x
    | .scl => decodeSclLong w x
    | .flow => none

/-- R92: the instruction a slot word of class `c` holds, or none (ILLOP). The guard bits are not read here. -/
def decodeSlot (c : SlotClass) (w : BitVec 32) (ext : Option (BitVec 32)) : Option Instr :=
  (decodeFields c w ext).filter (·.wellFormed)

/-! The helper cores' words (02_execution R46, 04_encoding R99). The ix words are the spec's; the others are those of the
RISC-V standard (PRESUMED, log entry 10). -/

/-- R99: custom-0 and custom-1 words; any other funct3 or funct7 there is illegal. -/
def decodeIx (w : BitVec 32) : Option Instr :=
  let d := field w 7 5; let s := field w 15 5; let t := field w 20 5
  if field w 25 7 ≠ 0#7 then none
  else if field w 0 7 = 0x0B#7 then
    match field w 12 3 with
    | 0#3 => some (.ixCpy t s d)
    | 1#3 => some (.ixHreq t s d)
    | 2#3 => some (.ixHwait t s d)
    | 3#3 => some (.ixQfence t s d)
    | _ => none
  else if field w 0 7 = 0x2B#7 then
    match field w 12 3 with
    | 0#3 => some (.ixFlget t s d)
    | 1#3 => some (.ixFlput t s d)
    | 2#3 => some (.ixFlwait t s d)
    | 3#3 => some (.ixFldrop t s d)
    | _ => none
  else none

/-- OP words: funct7, funct3. -/
def rvOp (f7 : BitVec 7) (f3 : BitVec 3) : Option RvAlu :=
  match f7, f3 with
  | 0x00#7, 0#3 => some .add | 0x20#7, 0#3 => some .sub | 0x00#7, 1#3 => some .sll | 0x00#7, 2#3 => some .slt
  | 0x00#7, 3#3 => some .sltu | 0x00#7, 4#3 => some .xor | 0x00#7, 5#3 => some .srl | 0x20#7, 5#3 => some .sra
  | 0x00#7, 6#3 => some .or | 0x00#7, 7#3 => some .and
  | 0x01#7, 0#3 => some .mul | 0x01#7, 1#3 => some .mulh | 0x01#7, 2#3 => some .mulhsu | 0x01#7, 3#3 => some .mulhu
  | 0x01#7, 4#3 => some .div | 0x01#7, 5#3 => some .divu | 0x01#7, 6#3 => some .rem | 0x01#7, 7#3 => some .remu
  | 0x10#7, 2#3 => some .sh1add | 0x10#7, 4#3 => some .sh2add | 0x10#7, 6#3 => some .sh3add
  | 0x20#7, 7#3 => some .andn | 0x20#7, 6#3 => some .orn | 0x20#7, 4#3 => some .xnor
  | 0x05#7, 6#3 => some .max | 0x05#7, 7#3 => some .maxu | 0x05#7, 4#3 => some .min | 0x05#7, 5#3 => some .minu
  | 0x30#7, 1#3 => some .rol | 0x30#7, 5#3 => some .ror
  | _, _ => none

/-- OP-32 words. -/
def rvOp32 (f7 : BitVec 7) (f3 : BitVec 3) : Option RvAlu :=
  match f7, f3 with
  | 0x00#7, 0#3 => some .addW | 0x20#7, 0#3 => some .subW | 0x00#7, 1#3 => some .sllW | 0x00#7, 5#3 => some .srlW
  | 0x20#7, 5#3 => some .sraW
  | 0x01#7, 0#3 => some .mulW | 0x01#7, 4#3 => some .divW | 0x01#7, 5#3 => some .divuW | 0x01#7, 6#3 => some .remW
  | 0x01#7, 7#3 => some .remuW
  | 0x04#7, 0#3 => some .addUw | 0x10#7, 2#3 => some .sh1addUw | 0x10#7, 4#3 => some .sh2addUw | 0x10#7, 6#3 => some .sh3addUw
  | 0x30#7, 1#3 => some .rolW | 0x30#7, 5#3 => some .rorW
  | _, _ => none

/-- OP-IMM words: shifts carry a 6-bit amount, Zbb puts its one-operand operations here. -/
def rvOpImm (w : BitVec 32) : Option RvInstr :=
  let rd := field w 7 5; let rs := field w 15 5; let imm := field w 20 12; let sh := field w 20 6
  let amt : BitVec 12 := sh.setWidth 12
  match field w 12 3 with
  | 0#3 => some (.opImm .add rd rs imm)
  | 2#3 => some (.opImm .slt rd rs imm)
  | 3#3 => some (.opImm .sltu rd rs imm)
  | 4#3 => some (.opImm .xor rd rs imm)
  | 6#3 => some (.opImm .or rd rs imm)
  | 7#3 => some (.opImm .and rd rs imm)
  | 1#3 =>
    if field w 26 6 = 0#6 then some (.opImm .sll rd rs amt)
    else match imm with
      | 0x600#12 => some (.unary .clz rd rs) | 0x601#12 => some (.unary .ctz rd rs) | 0x602#12 => some (.unary .cpop rd rs)
      | 0x604#12 => some (.unary .sextB rd rs) | 0x605#12 => some (.unary .sextH rd rs)
      | _ => none
  | _ =>
    if field w 26 6 = 0#6 then some (.opImm .srl rd rs amt)
    else if field w 26 6 = 0x10#6 then some (.opImm .sra rd rs amt)
    else if field w 26 6 = 0x18#6 then some (.opImm .ror rd rs amt)
    else if imm = 0x287#12 then some (.unary .orcB rd rs)
    else if imm = 0x6B8#12 then some (.unary .rev8 rd rs)
    else none

/-- OP-IMM-32 words. -/
def rvOpImm32 (w : BitVec 32) : Option RvInstr :=
  let rd := field w 7 5; let rs := field w 15 5; let imm := field w 20 12; let f7 := field w 25 7
  let amt : BitVec 12 := (field w 20 5).setWidth 12
  match field w 12 3 with
  | 0#3 => some (.opImm .addW rd rs imm)
  | 1#3 =>
    if f7 = 0#7 then some (.opImm .sllW rd rs amt)
    else if field w 26 6 = 2#6 then some (.opImm .sllUw rd rs ((field w 20 6).setWidth 12))
    else match imm with
      | 0x600#12 => some (.unary .clzW rd rs) | 0x601#12 => some (.unary .ctzW rd rs) | 0x602#12 => some (.unary .cpopW rd rs)
      | _ => none
  | 5#3 =>
    if f7 = 0#7 then some (.opImm .srlW rd rs amt)
    else if f7 = 0x20#7 then some (.opImm .sraW rd rs amt)
    else if f7 = 0x30#7 then some (.opImm .rorW rd rs amt)
    else none
  | _ => none

/-- The A extension's operation of an AMO word. -/
def rvAmo (f5 : BitVec 5) : Option RvAmo :=
  match f5 with
  | 0x01#5 => some .swap | 0x00#5 => some .add | 0x04#5 => some .xor | 0x0C#5 => some .and | 0x08#5 => some .or
  | 0x10#5 => some .min | 0x14#5 => some .max | 0x18#5 => some .minu | 0x1C#5 => some .maxu
  | _ => none

/-- An ordinary 32-bit word, or none where it is illegal on the helper cores (R46). -/
def decodeRv32 (w : BitVec 32) : Option RvInstr :=
  let rd := field w 7 5; let rs1 := field w 15 5; let rs2 := field w 20 5
  let f3 := field w 12 3; let f7 := field w 25 7; let iImm := field w 20 12
  match field w 0 7 with
  | 0x37#7 => some (.lui rd (field w 12 20))
  | 0x17#7 => some (.auipc rd (field w 12 20))
  | 0x6F#7 => some (.jal rd (field w 31 1 ++ field w 12 8 ++ field w 20 1 ++ field w 21 10 ++ 0#1))
  | 0x67#7 => if f3 = 0#3 then some (.jalr rd rs1 iImm) else none
  | 0x63#7 =>
    let off : BitVec 13 := field w 31 1 ++ field w 7 1 ++ field w 25 6 ++ field w 8 4 ++ 0#1
    match f3 with
    | 0#3 => some (.branch .eq rs1 rs2 off) | 1#3 => some (.branch .ne rs1 rs2 off)
    | 4#3 => some (.branch .lt rs1 rs2 off) | 5#3 => some (.branch .ge rs1 rs2 off)
    | 6#3 => some (.branch .ltu rs1 rs2 off) | 7#3 => some (.branch .geu rs1 rs2 off)
    | _ => none
  | 0x03#7 => if f3 = 7#3 then none else some (.load (field f3 0 2) (f3.getLsbD 2) rd rs1 iImm)
  | 0x23#7 => if f3.getLsbD 2 then none else some (.store (field f3 0 2) rs1 rs2 (field w 25 7 ++ field w 7 5))
  | 0x13#7 => rvOpImm w
  | 0x1B#7 => rvOpImm32 w
  | 0x33#7 => (rvOp f7 f3).map (.op · rd rs1 rs2)
  | 0x3B#7 =>
    if f7 = 0x04#7 ∧ f3 = 4#3 ∧ rs2 = 0#5 then some (.unary .zextH rd rs1)
    else (rvOp32 f7 f3).map (.op · rd rs1 rs2)
  | 0x2F#7 =>
    let dbl := f3 == 3#3
    if f3 ≠ 2#3 ∧ f3 ≠ 3#3 then none
    else match field w 27 5 with
      | 0x02#5 => if rs2 = 0#5 then some (.lr dbl rd rs1) else none
      | 0x03#5 => some (.sc dbl rd rs1 rs2)
      | f5 => (rvAmo f5).map (.amo · dbl rd rs1 rs2)
  | 0x0F#7 => if f3 = 0#3 then some .fence else none
  | 0x73#7 =>
    match f3 with
    | 1#3 => some (.csr .rw false rd rs1 iImm) | 2#3 => some (.csr .rs false rd rs1 iImm)
    | 3#3 => some (.csr .rc false rd rs1 iImm) | 5#3 => some (.csr .rw true rd rs1 iImm)
    | 6#3 => some (.csr .rs true rd rs1 iImm) | 7#3 => some (.csr .rc true rd rs1 iImm)
    | _ => none
  | _ => none

/-- Quadrant 0 of the C extension. -/
def decodeC0 (h : BitVec 16) : Option RvInstr :=
  let rdp : BitVec 5 := 1#2 ++ field h 2 3
  let rsp : BitVec 5 := 1#2 ++ field h 7 3
  let offW : BitVec 12 := 0#5 ++ field h 5 1 ++ field h 10 3 ++ field h 6 1 ++ 0#2
  let offD : BitVec 12 := 0#4 ++ field h 5 2 ++ field h 10 3 ++ 0#3
  match field h 13 3 with
  | 0#3 =>
    let imm : BitVec 12 := 0#2 ++ field h 7 4 ++ field h 11 2 ++ field h 5 1 ++ field h 6 1 ++ 0#2
    if imm = 0#12 then none else some (.opImm .add rdp 2#5 imm)
  | 2#3 => some (.load 2#2 false rdp rsp offW)
  | 3#3 => some (.load 3#2 false rdp rsp offD)
  | 6#3 => some (.store 2#2 rsp rdp offW)
  | 7#3 => some (.store 3#2 rsp rdp offD)
  | _ => none

/-- Quadrant 1 of the C extension. -/
def decodeC1 (h : BitVec 16) : Option RvInstr :=
  let rd := field h 7 5
  let imm6 : BitVec 6 := field h 12 1 ++ field h 2 5
  let imm : BitVec 12 := imm6.signExtend 12
  let rdp : BitVec 5 := 1#2 ++ field h 7 3
  let rsp : BitVec 5 := 1#2 ++ field h 2 3
  let bOff : BitVec 13 :=
    (field h 12 1 ++ field h 5 2 ++ field h 2 1 ++ field h 10 2 ++ field h 3 2 ++ 0#1 : BitVec 9).signExtend 13
  match field h 13 3 with
  | 0#3 => some (.opImm .add rd rd imm)
  | 1#3 => if rd = 0#5 then none else some (.opImm .addW rd rd imm)
  | 2#3 => some (.opImm .add rd 0#5 imm)
  | 3#3 =>
    if rd = 2#5 then
      let i : BitVec 10 := field h 12 1 ++ field h 3 2 ++ field h 5 1 ++ field h 2 1 ++ field h 6 1 ++ 0#4
      if i = 0#10 then none else some (.opImm .add 2#5 2#5 (i.signExtend 12))
    else if imm6 = 0#6 then none else some (.lui rd (imm6.signExtend 20))
  | 4#3 =>
    let amt : BitVec 12 := imm6.setWidth 12
    match field h 10 2 with
    | 0#2 => some (.opImm .srl rdp rdp amt)
    | 1#2 => some (.opImm .sra rdp rdp amt)
    | 2#2 => some (.opImm .and rdp rdp imm)
    | _ =>
      match field h 12 1, field h 5 2 with
      | 0#1, 0#2 => some (.op .sub rdp rdp rsp) | 0#1, 1#2 => some (.op .xor rdp rdp rsp)
      | 0#1, 2#2 => some (.op .or rdp rdp rsp) | 0#1, 3#2 => some (.op .and rdp rdp rsp)
      | 1#1, 0#2 => some (.op .subW rdp rdp rsp) | 1#1, 1#2 => some (.op .addW rdp rdp rsp)
      | _, _ => none
  | 5#3 =>
    let j : BitVec 12 := field h 12 1 ++ field h 8 1 ++ field h 9 2 ++ field h 6 1 ++ field h 7 1 ++ field h 2 1 ++
      field h 11 1 ++ field h 3 3 ++ 0#1
    some (.jal 0#5 (j.signExtend 21))
  | 6#3 => some (.branch .eq rdp 0#5 bOff)
  | _ => some (.branch .ne rdp 0#5 bOff)

/-- Quadrant 2 of the C extension; none is c.ebreak or illegal (told apart by the caller). -/
def decodeC2 (h : BitVec 16) : Option RvInstr :=
  let rd := field h 7 5; let rs2 := field h 2 5
  let amt : BitVec 12 := (field h 12 1 ++ field h 2 5 : BitVec 6).setWidth 12
  match field h 13 3 with
  | 0#3 => some (.opImm .sll rd rd amt)
  | 2#3 =>
    if rd = 0#5 then none
    else some (.load 2#2 false rd 2#5 (0#4 ++ field h 2 2 ++ field h 12 1 ++ field h 4 3 ++ 0#2))
  | 3#3 =>
    if rd = 0#5 then none
    else some (.load 3#2 false rd 2#5 (0#3 ++ field h 2 3 ++ field h 12 1 ++ field h 5 2 ++ 0#3))
  | 4#3 =>
    if field h 12 1 = 0#1 then
      if rs2 = 0#5 then (if rd = 0#5 then none else some (.jalr 0#5 rd 0#12)) else some (.op .add rd 0#5 rs2)
    else if rs2 = 0#5 then (if rd = 0#5 then none else some (.jalr 1#5 rd 0#12))
    else some (.op .add rd rd rs2)
  | 6#3 => some (.store 2#2 2#5 rs2 (0#4 ++ field h 7 2 ++ field h 9 4 ++ 0#2))
  | 7#3 => some (.store 3#2 2#5 rs2 (0#3 ++ field h 7 3 ++ field h 10 3 ++ 0#3))
  | _ => none

/-- What a helper core executes on the word at its pc: an ix instruction, ECALL, EBREAK, or an ordinary instruction with its
length; an illegal word is the ordinary instruction that raises the exception (R46). -/
def decodeHelper (w : BitVec 32) : Instr :=
  if field w 0 2 = 3#2 then
    if w = 0x00000073#32 then .ecall
    else if w = 0x00100073#32 then .ebreak
    else match decodeIx w with
      | some i => i
      | none => .helperInstruction ((decodeRv32 w).getD .illegal) 4#3
  else
    let h : BitVec 16 := field w 0 16
    if h = 0x9002#16 then .ebreak
    else
      let i := match field h 0 2 with
        | 0#2 => decodeC0 h
        | 1#2 => decodeC1 h
        | _ => decodeC2 h
      .helperInstruction (i.getD .illegal) 2#3

/-- The bits an immediate puts into its short field. -/
def Imm.low {n : Nat} : Imm n → BitVec n
  | .short m => m
  | .long _ => 0#n

/-- The imm32 of a long form. -/
def Imm.ext {n : Nat} : Imm n → Option (BitVec 32)
  | .short _ => none
  | .long w => some w

/-- The bits a format X immediate puts into IMM10 (R90). -/
def XImm.low : XImm → BitVec 10
  | .short m => m
  | .long u _ => 0#9 ++ BitVec.ofBool u

/-- The imm32 of a long form. -/
def XImm.ext : XImm → Option (BitVec 32)
  | .short _ => none
  | .long _ w => some w

/-- What an instruction's words are: a slot word of a class, with its imm32 if it is a long form, or a helper-core word. -/
inductive Encoded where
  | slot (c : SlotClass) (w : BitVec 32) (ext : Option (BitVec 32))
  | ix (w : BitVec 32)
  deriving DecidableEq, Repr

/-- The words of an instruction with guard bits `g` (R90 and the entries). Rows without an encoding have none. A branch of the
INT class encodes for slot s1, every other INT operation for either slot. -/
def encode (g : BitVec 2) : Instr → Option Encoded
  | .abs d a => some (.slot .int2 (g ++ 0x15#7 ++ d ++ a ++ 0#11) none)
  | .add d a b => some (.slot .int2 (g ++ 0x01#7 ++ d ++ a ++ 0#1 ++ b ++ 0#4) none)
  | .addI d a m => some (.slot .int2 (g ++ 0x01#7 ++ d ++ a ++ 1#1 ++ m.low) m.ext)
  | .adda d a b => some (.slot .int2 (g ++ 0x1c#7 ++ 0#2 ++ d ++ 0#2 ++ a ++ 0#1 ++ b ++ 0#4) none)
  | .addaI d a m => some (.slot .int2 (g ++ 0x1c#7 ++ 0#2 ++ d ++ 0#2 ++ a ++ 1#1 ++ m.low) m.ext)
  | .and d a b => some (.slot .int2 (g ++ 0x08#7 ++ d ++ a ++ 0#1 ++ b ++ 0#4) none)
  | .andI d a m => some (.slot .int2 (g ++ 0x08#7 ++ d ++ a ++ 1#1 ++ m.low) m.ext)
  | .andn d a b => some (.slot .int2 (g ++ 0x0b#7 ++ d ++ a ++ 0#1 ++ b ++ 0#4) none)
  | .andnI d a m => some (.slot .int2 (g ++ 0x0b#7 ++ d ++ a ++ 1#1 ++ m.low) m.ext)
  | .bfi d a b => some (.slot .int2 (g ++ 0x1b#7 ++ d ++ a ++ 0#1 ++ b ++ 0#4) none)
  | .bfx d a b => some (.slot .int2 (g ++ 0x1a#7 ++ d ++ a ++ 0#1 ++ b ++ 0#4) none)
  | .clz d a => some (.slot .int2 (g ++ 0x10#7 ++ d ++ a ++ 0#11) none)
  | .ctz d a => some (.slot .int2 (g ++ 0x11#7 ++ d ++ a ++ 0#11) none)
  | .popc d a => some (.slot .int2 (g ++ 0x12#7 ++ d ++ a ++ 0#11) none)
  | .sub d a b => some (.slot .int2 (g ++ 0x02#7 ++ d ++ a ++ 0#1 ++ b ++ 0#4) none)
  | .subI d a m => some (.slot .int2 (g ++ 0x02#7 ++ d ++ a ++ 1#1 ++ m.low) m.ext)
  | .mul d a b => some (.slot .int2 (g ++ 0x03#7 ++ d ++ a ++ 0#1 ++ b ++ 0#4) none)
  | .mulI d a m => some (.slot .int2 (g ++ 0x03#7 ++ d ++ a ++ 1#1 ++ m.low) m.ext)
  | .mulh d a b u => some (.slot .int2 (g ++ 0x04#7 ++ d ++ a ++ 0#1 ++ b ++ 0#3 ++ u) none)
  | .mulhI d a m => some (.slot .int2 (g ++ 0x04#7 ++ d ++ a ++ 1#1 ++ m.low) m.ext)
  | .mad d a b => some (.slot .int2 (g ++ 0x05#7 ++ d ++ a ++ 0#1 ++ b ++ 0#4) none)
  | .madI d a m => some (.slot .int2 (g ++ 0x05#7 ++ d ++ a ++ 1#1 ++ m.low) m.ext)
  | .div d a b u => some (.slot .int2 (g ++ 0x06#7 ++ d ++ a ++ 0#1 ++ b ++ 0#3 ++ u) none)
  | .divI d a m => some (.slot .int2 (g ++ 0x06#7 ++ d ++ a ++ 1#1 ++ m.low) m.ext)
  | .rem d a b u => some (.slot .int2 (g ++ 0x07#7 ++ d ++ a ++ 0#1 ++ b ++ 0#3 ++ u) none)
  | .remI d a m => some (.slot .int2 (g ++ 0x07#7 ++ d ++ a ++ 1#1 ++ m.low) m.ext)
  | .or d a b => some (.slot .int2 (g ++ 0x09#7 ++ d ++ a ++ 0#1 ++ b ++ 0#4) none)
  | .orI d a m => some (.slot .int2 (g ++ 0x09#7 ++ d ++ a ++ 1#1 ++ m.low) m.ext)
  | .xor d a b => some (.slot .int2 (g ++ 0x0a#7 ++ d ++ a ++ 0#1 ++ b ++ 0#4) none)
  | .xorI d a m => some (.slot .int2 (g ++ 0x0a#7 ++ d ++ a ++ 1#1 ++ m.low) m.ext)
  | .shl d a b => some (.slot .int2 (g ++ 0x0c#7 ++ d ++ a ++ 0#1 ++ b ++ 0#4) none)
  | .shlI d a m => some (.slot .int2 (g ++ 0x0c#7 ++ d ++ a ++ 1#1 ++ m) none)
  | .shr d a b => some (.slot .int2 (g ++ 0x0d#7 ++ d ++ a ++ 0#1 ++ b ++ 0#4) none)
  | .shrI d a m => some (.slot .int2 (g ++ 0x0d#7 ++ d ++ a ++ 1#1 ++ m) none)
  | .sra d a b => some (.slot .int2 (g ++ 0x0e#7 ++ d ++ a ++ 0#1 ++ b ++ 0#4) none)
  | .sraI d a m => some (.slot .int2 (g ++ 0x0e#7 ++ d ++ a ++ 1#1 ++ m) none)
  | .rol d a b => some (.slot .int2 (g ++ 0x0f#7 ++ d ++ a ++ 0#1 ++ b ++ 0#4) none)
  | .rolI d a m => some (.slot .int2 (g ++ 0x0f#7 ++ d ++ a ++ 1#1 ++ m) none)
  | .min d a b u => some (.slot .int2 (g ++ 0x13#7 ++ d ++ a ++ 0#1 ++ b ++ 0#3 ++ u) none)
  | .minI d a m => some (.slot .int2 (g ++ 0x13#7 ++ d ++ a ++ 1#1 ++ m.low) m.ext)
  | .max d a b u => some (.slot .int2 (g ++ 0x14#7 ++ d ++ a ++ 0#1 ++ b ++ 0#3 ++ u) none)
  | .maxI d a m => some (.slot .int2 (g ++ 0x14#7 ++ d ++ a ++ 1#1 ++ m.low) m.ext)
  | .cmp c p a b u => some (.slot .int2 (g ++ 0x16#7 ++ c ++ p ++ a ++ 0#1 ++ b ++ 0#3 ++ u) none)
  | .cmpI c p a m => some (.slot .int2 (g ++ 0x16#7 ++ c ++ p ++ a ++ 1#1 ++ m.low) m.ext)
  | .sel d a b f => some (.slot .int2 (g ++ 0x17#7 ++ d ++ a ++ 0#1 ++ b ++ f) none)
  | .selI d a m f => some (.slot .int2 (g ++ 0x17#7 ++ d ++ a ++ 1#1 ++ m ++ f) none)
  | .mov d a => some (.slot .int2 (g ++ 0x18#7 ++ d ++ a ++ 0#11) none)
  | .movi d h m => some (.slot .int2 (g ++ 0x19#7 ++ d ++ h ++ m.low) m.ext)
  | .movaToA d a => some (.slot .int2 (g ++ 0x1d#7 ++ 0#2 ++ d ++ a ++ 0#11) none)
  | .movaToS d a => some (.slot .int2 (g ++ 0x1d#7 ++ d ++ 0#2 ++ a ++ 1#11) none)
  | .plog d a b o => some (.slot .int2 (g ++ 0x1e#7 ++ 0#2 ++ d ++ 0#2 ++ a ++ 0#3 ++ b ++ 0#2 ++ o) none)
  | .sext d a n => some (.slot .int2 (g ++ 0x1f#7 ++ d ++ a ++ 8#4 ++ n) none)
  | .mstat d => some (.slot .int2 (g ++ 0x20#7 ++ d ++ 0#17) none)
  | .mstatClr d => some (.slot .int2 (g ++ 0x20#7 ++ d ++ 65536#17) none)
  | .br o => some (.slot .ctrl (g ++ 0x01#7 ++ o.low) o.ext)
  | .brS1 o => some (.slot .int1 (g ++ 0x70#7 ++ o.low) o.ext)
  | .brx a => some (.slot .ctrl (g ++ 0x02#7 ++ 0#6 ++ a ++ 0#11) none)
  | .brxS1 a => some (.slot .int1 (g ++ 0x71#7 ++ 0#6 ++ a ++ 0#11) none)
  | .call o => some (.slot .ctrl (g ++ 0x03#7 ++ o.low) o.ext)
  | .callS1 o => some (.slot .int1 (g ++ 0x72#7 ++ o.low) o.ext)
  | .callx a => some (.slot .ctrl (g ++ 0x04#7 ++ 0#6 ++ a ++ 0#11) none)
  | .callxS1 a => some (.slot .int1 (g ++ 0x73#7 ++ 0#6 ++ a ++ 0#11) none)
  | .ret => some (.slot .ctrl (g ++ 0x05#7 ++ 0#23) none)
  | .loop l c => some (.slot .ctrl (g ++ 0x08#7 ++ l ++ c ++ 0#11) none)
  | .loopm l c => some (.slot .ctrl (g ++ 0x09#7 ++ l ++ c ++ 0#11) none)
  | .lexit l => some (.slot .ctrl (g ++ 0x0a#7 ++ l ++ 0#20) none)
  | .endRill => some (.slot .ctrl (g ++ 0x10#7 ++ 0#23) none)
  | .yield => some (.slot .ctrl (g ++ 0x11#7 ++ 0#23) none)
  | .barr m => some (.slot .ctrl (g ++ 0x12#7 ++ 0#7 ++ m) none)
  | .hwait h m => some (.slot .ctrl (g ++ 0x13#7 ++ h ++ m ++ 0#15) none)
  | .vwait a v => some (.slot .ctrl (g ++ 0x14#7 ++ a ++ v ++ 0#13) none)
  | .mwait a v => some (.slot .ctrl (g ++ 0x15#7 ++ a ++ v ++ 0#13) none)
  | .trapImm i => some (.slot .ctrl (g ++ 0x18#7 ++ 0#7 ++ i) none)
  | .rft => some (.slot .ctrl (g ++ 0x19#7 ++ 0#23) none)
  | .fence k s => some (.slot .ctrl (g ++ 0x20#7 ++ k ++ s ++ 0#18) none)
  | .fenceR k s a l => some (.slot .ctrl (g ++ 0x20#7 ++ k ++ s ++ 1#1 ++ a ++ l ++ 0#7) none)
  | .qfence m => some (.slot .ctrl (g ++ 0x21#7 ++ 0#15 ++ m) none)
  | .mfsr d k => some (.slot .ctrl (g ++ 0x28#7 ++ d ++ k ++ 0#11) none)
  | .mtsr a k => some (.slot .ctrl (g ++ 0x29#7 ++ a ++ k ++ 0#11) none)
  | .est a => some (.slot .ctrl (g ++ 0x2a#7 ++ 0#1 ++ a ++ 0#16) none)
  | .estI m => some (.slot .ctrl (g ++ 0x2a#7 ++ 64#7 ++ m.low) m.ext)
  | .ld d a m s w z x => some (.slot .mem (g ++ 0x01#7 ++ d ++ a ++ m ++ s ++ w ++ z ++ x.low) x.ext)
  | .st d a m s w x => some (.slot .mem (g ++ 0x02#7 ++ d ++ a ++ m ++ s ++ w ++ 0#1 ++ x.low) x.ext)
  | .vld d a m s x => some (.slot .mem (g ++ 0x03#7 ++ 0#1 ++ d ++ a ++ m ++ s ++ 6#3 ++ x.low) x.ext)
  | .vst d a m s x => some (.slot .mem (g ++ 0x04#7 ++ 0#1 ++ d ++ a ++ m ++ s ++ 6#3 ++ x.low) x.ext)
  | .vldx d a b w s e q => some (.slot .mem (g ++ 0x05#7 ++ d ++ a ++ b ++ w ++ s ++ e ++ q ++ 0#1) none)
  | .vstx d a b w s e q => some (.slot .mem (g ++ 0x06#7 ++ d ++ a ++ b ++ w ++ s ++ e ++ q ++ 0#1) none)
  | .lda d a s w z c o => some (.slot .mem (g ++ 0x07#7 ++ d ++ a ++ 0#2 ++ s ++ w ++ z ++ c ++ o) none)
  | .stl d a s w c o => some (.slot .mem (g ++ 0x08#7 ++ d ++ a ++ 0#2 ++ s ++ w ++ 0#1 ++ c ++ o) none)
  | .stlR d a rp w c => some (.slot .mem (g ++ 0x08#7 ++ d ++ a ++ field rp 3 2 ++ 2#2 ++ w ++ 1#1 ++ c ++ field rp 0 3) none)
  | .atom d b a o w r s => some (.slot .mem (g ++ 0x09#7 ++ d ++ b ++ a ++ o ++ w ++ r ++ s) none)
  | .upd b a o w => some (.slot .mem (g ++ 0x0a#7 ++ b ++ a ++ o ++ w ++ 64#7) none)
  | .cmnt o v a l => some (.slot .mem (g ++ 0x0b#7 ++ o ++ v ++ a ++ l ++ 0#9) none)
  | .alloc d c => some (.slot .mem (g ++ 0x0c#7 ++ d ++ 0#5 ++ c ++ 0#9) none)
  | .allocNf d p c => some (.slot .mem (g ++ 0x0c#7 ++ d ++ 1#1 ++ p ++ c ++ 0#9) none)
  | .free a c => some (.slot .mem (g ++ 0x0d#7 ++ 0#6 ++ a ++ 0#1 ++ c ++ 0#9) none)
  | .vadd d a b e q t => some (.slot .vec (g ++ 0x01#7 ++ d ++ a ++ b ++ e ++ q ++ t) none)
  | .vsub d a b e q t => some (.slot .vec (g ++ 0x02#7 ++ d ++ a ++ b ++ e ++ q ++ t) none)
  | .vmul d a b e q t => some (.slot .vec (g ++ 0x03#7 ++ d ++ a ++ b ++ e ++ q ++ t) none)
  | .vfma d a b e q t => some (.slot .vec (g ++ 0x04#7 ++ d ++ a ++ b ++ e ++ q ++ t) none)
  | .vmin d a b e q t => some (.slot .vec (g ++ 0x05#7 ++ d ++ a ++ b ++ e ++ q ++ t) none)
  | .vmax d a b e q t => some (.slot .vec (g ++ 0x06#7 ++ d ++ a ++ b ++ e ++ q ++ t) none)
  | .vabs d a e q t => some (.slot .vec (g ++ 0x07#7 ++ d ++ a ++ 0#5 ++ e ++ q ++ t) none)
  | .vneg d a e q t => some (.slot .vec (g ++ 0x08#7 ++ d ++ a ++ 0#5 ++ e ++ q ++ t) none)
  | .vcmp c d a b e q t => some (.slot .vec (g ++ 0x09#7 ++ c ++ d ++ a ++ b ++ e ++ q ++ t) none)
  | .vsel d a b q t => some (.slot .vec (g ++ 0x0a#7 ++ d ++ a ++ b ++ 1#1 ++ q ++ t) none)
  | .vand d a b e q t => some (.slot .vec (g ++ 0x0b#7 ++ d ++ a ++ b ++ e ++ q ++ t) none)
  | .vor d a b e q t => some (.slot .vec (g ++ 0x0c#7 ++ d ++ a ++ b ++ e ++ q ++ t) none)
  | .vxor d a b e q t => some (.slot .vec (g ++ 0x0d#7 ++ d ++ a ++ b ++ e ++ q ++ t) none)
  | .vshl d a b e q t => some (.slot .vec (g ++ 0x0e#7 ++ d ++ a ++ b ++ e ++ q ++ t) none)
  | .vshr d a b e q t => some (.slot .vec (g ++ 0x0f#7 ++ d ++ a ++ b ++ e ++ q ++ t) none)
  | .vcvt d a h u e q t => some (.slot .vec (g ++ 0x10#7 ++ d ++ a ++ h ++ u ++ e ++ q ++ t) none)
  | .vqnt d a f q t => some (.slot .vec (g ++ 0x11#7 ++ d ++ a ++ 0#2 ++ f ++ 0#1 ++ q ++ t) none)
  | .vdq d a f q t => some (.slot .vec (g ++ 0x12#7 ++ d ++ a ++ 0#2 ++ f ++ 0#1 ++ q ++ t) none)
  | .vfn d a f e q t => some (.slot .vec (g ++ 0x13#7 ++ d ++ a ++ 0#2 ++ f ++ e ++ q ++ t) none)
  | .vred d a o e q t => some (.slot .vec (g ++ 0x14#7 ++ d ++ a ++ 0#2 ++ o ++ e ++ q ++ t) none)
  | .vscan d a o e q t => some (.slot .vec (g ++ 0x15#7 ++ d ++ a ++ 0#2 ++ o ++ e ++ q ++ t) none)
  | .vperm d a b e q w => some (.slot .vec (g ++ 0x16#7 ++ d ++ a ++ b ++ e ++ q ++ 0#2 ++ w) none)
  | .vbcst d a w => some (.slot .vec (g ++ 0x17#7 ++ d ++ 0#1 ++ a ++ w ++ 0#9) none)
  | .vbcstI d w m => some (.slot .vec (g ++ 0x17#7 ++ d ++ 64#7 ++ w ++ m.low) m.ext)
  | .vget d a w i u => some (.slot .vec (g ++ 0x18#7 ++ d ++ a ++ w ++ i ++ u ++ 0#2) none)
  | .vput d a w i => some (.slot .vec (g ++ 0x19#7 ++ d ++ a ++ w ++ i ++ 0#3) none)
  | .vdot d a b e q t => some (.slot .vec (g ++ 0x1a#7 ++ d ++ a ++ b ++ e ++ q ++ t) none)
  | .vcmul d a b e q t => some (.slot .vec (g ++ 0x1b#7 ++ d ++ a ++ b ++ e ++ q ++ t) none)
  | .qlog d a b o => some (.slot .vec (g ++ 0x1c#7 ++ d ++ a ++ b ++ o ++ 0#11) none)
  | .xclr => some (.slot .vec (g ++ 0x20#7 ++ 0#23) none)
  | .xfma a b t => some (.slot .vec (g ++ 0x21#7 ++ a ++ b ++ t ++ 0#10) none)
  | .xadd a t => some (.slot .vec (g ++ 0x22#7 ++ a ++ 0#6 ++ t ++ 0#10) none)
  | .xrnd d r t => some (.slot .vec (g ++ 0x23#7 ++ d ++ r ++ 0#3 ++ t ++ 0#10) none)
  | .xsgn n m => some (.slot .vec (g ++ 0x24#7 ++ n ++ m ++ 0#15) none)
  | .mmode m b => some (.slot .mtx (g ++ 0x01#7 ++ m ++ b ++ 0#18) none)
  | .mpush n => some (.slot .mtx (g ++ 0x02#7 ++ 0#2 ++ n ++ 0#17) none)
  | .mpushV v => some (.slot .mtx (g ++ 0x02#7 ++ 1#1 ++ v ++ 0#17) none)
  | .mshift z t n i b => some (.slot .mtx (g ++ 0x03#7 ++ z ++ t ++ n ++ i ++ b ++ 0#8) none)
  | .footEmerge => none
  | .maccSet i r c d => some (.slot .mtx (g ++ 0x04#7 ++ 0#3 ++ i ++ r ++ 0#1 ++ c ++ d) none)
  | .maccAdd i r c d => some (.slot .mtx (g ++ 0x04#7 ++ 1#3 ++ i ++ r ++ 0#1 ++ c ++ d) none)
  | .maccArmSet s c d => some (.slot .mtx (g ++ 0x04#7 ++ 80#8 ++ s ++ 0#1 ++ c ++ d) none)
  | .maccArmAdd s c d => some (.slot .mtx (g ++ 0x04#7 ++ 112#8 ++ s ++ 0#1 ++ c ++ d) none)
  | .maccOff => some (.slot .mtx (g ++ 0x04#7 ++ 4194304#23) none)
  | .mdrain f k d i r => some (.slot .mtx (g ++ 0x05#7 ++ f ++ k ++ d ++ i ++ r ++ 0#5) none)
  | .mzero i r n => some (.slot .mtx (g ++ 0x06#7 ++ i ++ r ++ n ++ 0#6) none)
  | .mxcpOut s a r n off => some (.slot .mtx (g ++ 0x07#7 ++ 0#1 ++ s ++ a ++ r ++ n) off)
  | .mxcpIn s a r n off => some (.slot .mtx (g ++ 0x07#7 ++ 1#1 ++ s ++ a ++ r ++ n) off)
  | .sclA s => some (.slot .scl (g ++ 0x01#7 ++ 0#1 ++ s ++ 0#17) none)
  | .sclB s e h => some (.slot .scl (g ++ 0x01#7 ++ 1#1 ++ s ++ e ++ h ++ 0#12) none)
  | .scliA grp c => some (.slot .scl (g ++ 0x02#7 ++ 0#6 ++ grp ++ 0#5 ++ c.low) c.ext)
  | .scliB seg c => some (.slot .scl (g ++ 0x02#7 ++ 32#6 ++ seg ++ 0#5 ++ c.low) c.ext)
  | .latchActivate => none
  | .gset d b l => some (.slot .flow (g ++ 0x01#7 ++ d ++ b ++ l ++ 0#7) none)
  | .gldd d a => some (.slot .flow (g ++ 0x02#7 ++ d ++ a ++ 0#15) none)
  | .gadv d n => some (.slot .flow (g ++ 0x03#7 ++ d ++ n ++ 0#13) none)
  | .cpy q x c => some (.slot .flow (g ++ 0x08#7 ++ 0#1 ++ q ++ x ++ c ++ 0#10) none)
  | .cpyNet q x c => some (.slot .flow (g ++ 0x08#7 ++ 1#1 ++ q ++ x ++ c ++ 0#10) none)
  | .dftFwd p d s c => some (.slot .flow (g ++ 0x09#7 ++ 0#1 ++ p ++ d ++ s ++ c ++ 0#7) none)
  | .dftInv p d s c => some (.slot .flow (g ++ 0x09#7 ++ 1#1 ++ p ++ d ++ s ++ c ++ 0#7) none)
  | .hreq h e c => some (.slot .flow (g ++ 0x10#7 ++ h ++ e ++ c ++ 0#5) none)
  | .hrel h => some (.slot .flow (g ++ 0x11#7 ++ h ++ 0#17) none)
  | .hqry d h => some (.slot .flow (g ++ 0x12#7 ++ d ++ h ++ 0#11) none)
  | .route a c => some (.slot .flow (g ++ 0x18#7 ++ a ++ c ++ 0#13) none)
  | .rcnt a b c => some (.slot .flow (g ++ 0x19#7 ++ a ++ b ++ c ++ 0#7) none)
  | .pubOpen d a => some (.slot .flow (g ++ 0x20#7 ++ 0#1 ++ d ++ a ++ 0#12) none)
  | .pubClose a l => some (.slot .flow (g ++ 0x20#7 ++ 64#7 ++ a ++ l ++ 0#10) none)
  | .settle a => some (.slot .flow (g ++ 0x21#7 ++ 0#7 ++ a ++ 0#12) none)
  | .settlePub a l => some (.slot .flow (g ++ 0x21#7 ++ 64#7 ++ a ++ l ++ 0#10) none)
  | .pin d a => some (.slot .flow (g ++ 0x22#7 ++ 0#1 ++ d ++ a ++ 0#12) none)
  | .unpin v a => some (.slot .flow (g ++ 0x23#7 ++ 0#1 ++ v ++ a ++ 0#12) none)
  | .spawn c e m f => some (.slot .flow (g ++ 0x28#7 ++ c ++ e ++ m ++ f ++ 0#5) none)
  | .enqC l q => some (.slot .flow (g ++ 0x29#7 ++ 0#6 ++ l ++ 0#4 ++ q ++ 0#3) none)
  | .enqR p l r => some (.slot .flow (g ++ 0x29#7 ++ 1#2 ++ p ++ l ++ r ++ 0#9) none)
  | .enqX l => some (.slot .flow (g ++ 0x29#7 ++ 32#6 ++ l ++ 0#13) none)
  | .depdec i => some (.slot .flow (g ++ 0x2a#7 ++ 0#7 ++ i ++ 0#8) none)
  | .depdecS s => some (.slot .flow (g ++ 0x2a#7 ++ 1#1 ++ s ++ 0#16) none)
  | .flget v f => some (.slot .flow (g ++ 0x30#7 ++ v ++ f ++ 0#14) none)
  | .flput v f => some (.slot .flow (g ++ 0x31#7 ++ v ++ f ++ 0#14) none)
  | .flwait f n => some (.slot .flow (g ++ 0x32#7 ++ 0#5 ++ f ++ n ++ 0#8) none)
  | .fldrop f n => some (.slot .flow (g ++ 0x33#7 ++ 0#5 ++ f ++ n ++ 0#8) none)
  | .coll x c => some (.slot .flow (g ++ 0x38#7 ++ x ++ c ++ 0#13) none)
  | .tstamp d => some (.slot .flow (g ++ 0x39#7 ++ d ++ 0#17) none)
  | .monArm u a => some (.slot .flow (g ++ 0x3a#7 ++ 0#2 ++ u ++ a ++ 0#11) none)
  | .monStop u a => some (.slot .flow (g ++ 0x3a#7 ++ 1#2 ++ u ++ a ++ 0#11) none)
  | .monSnap u a => some (.slot .flow (g ++ 0x3a#7 ++ 2#2 ++ u ++ a ++ 0#11) none)
  | .ixCpy t s d => some (.ix (0#7 ++ t ++ s ++ 0#3 ++ d ++ 0x0b#7))
  | .ixHreq t s d => some (.ix (0#7 ++ t ++ s ++ 1#3 ++ d ++ 0x0b#7))
  | .ixHwait t s d => some (.ix (0#7 ++ t ++ s ++ 2#3 ++ d ++ 0x0b#7))
  | .ixQfence t s d => some (.ix (0#7 ++ t ++ s ++ 3#3 ++ d ++ 0x0b#7))
  | .ixFlget t s d => some (.ix (0#7 ++ t ++ s ++ 0#3 ++ d ++ 0x2b#7))
  | .ixFlput t s d => some (.ix (0#7 ++ t ++ s ++ 1#3 ++ d ++ 0x2b#7))
  | .ixFlwait t s d => some (.ix (0#7 ++ t ++ s ++ 2#3 ++ d ++ 0x2b#7))
  | .ixFldrop t s d => some (.ix (0#7 ++ t ++ s ++ 3#3 ++ d ++ 0x2b#7))
  | .ecall => some (.ix 0x00000073#32)
  | .ebreak => some (.ix 0x00100073#32)
  | .auxfault => none
  | .idleRun _ => none
  | .contextSwitch => none
  | .resultLand => none
  | .budgetExhausted _ => none
  | .budgetTrap => none
  | .reachDeadline _ _ _ => none
  | .deadlineTrap => none
  | .externTrap _ => none
  | .courseStart _ _ => none
  | .selectReach _ => none
  | .placeInst _ => none
  | .dictLoad _ _ _ => none
  | .bplaneLogReplay _ _ => none
  | .freezeInst _ => none
  | .tokenAge _ _ _ => none
  | .instanceComplete _ => none
  | .reachComplete _ _ _ => none
  | .courseComplete _ _ => none
  | .hreqEntry => none
  | .hrelEntry => none
  | .pageRead _ _ _ => none
  | .pageReconstruct _ _ _ => none
  | .disturbLimit _ _ => none
  | .relocationCopy _ _ _ => none
  | .mapSwitch _ _ => none
  | .blockErase _ _ _ => none
  | .wearLevel _ _ => none
  | .healthCopy _ => none
  | .copyLinear _ => none
  | .copyBfill _ => none
  | .copyToFlume _ => none
  | .copyFromFlume _ => none
  | .netSend _ => none
  | .dftFwdEntry => none
  | .dftInvEntry => none
  | .routeEntry => none
  | .rcntEntry => none
  | .allReduce _ _ _ => none
  | .allGather _ _ _ => none
  | .allToAll _ _ _ => none
  | .collTimeout _ _ _ => none
  | .cellReceive _ => none
  | .metadataDeliver _ _ _ _ _ => none
  | .mergeWindowClose _ => none
  | .l1Evict _ _ => none
  | .l2Evict _ => none
  | .createPart _ _ => none
  | .destroyPart _ _ => none
  | .swapOut _ _ => none
  | .swapIn _ _ => none
  | .remapPart _ _ => none
  | .installModel _ _ _ => none
  | .resetPart _ _ => none
  | .setGroups _ _ => none
  | .featAcceptWrite _ _ _ _ => none
  | .disturbLimWrite _ _ => none
  | .registerWrite _ _ _ => none
  | .powerUp _ _ _ => none
  | .powerDown => none
  | .powerCheck _ _ => none
  | .thermalTrip _ => none
  | .linkFail _ => none
  | .channelFail _ => none
  | .railFail _ => none
  | .coreError _ _ => none
  | .spareTakeover _ => none
  | .monSample _ _ _ => none
  | .attestationReport _ => none
  | .firmwareUpdate _ => none
  | .helperInstruction _ _ => none
  | .channelReplaced _ => none
  | .cellAcknowledge _ _ => none
  | .unsupportedPacket => none

/-! Code words and fetch packets (R80 to R84). -/

/-- Payload halfword or header halfword `h` (0 to 31) of a 64-byte packet. -/
def packetHalf (p : BitVec 512) (h : Nat) : BitVec 16 := field p (16 * h) 16

/-- START[i] = 1: a code word begins at halfword i + 2 (R80). -/
def packetStart (p : BitVec 512) (h : Nat) : Bool := decide (2 ≤ h) && decide (h ≤ 31) && p.getLsbD (h - 2)

/-- The END bit of the packet header (R80). -/
def packetEnd (p : BitVec 512) : Bool := p.getLsbD 30

/-- The lowest code word start above halfword `h` (R81). -/
def packetNext (p : BitVec 512) (h : Nat) : Option Nat :=
  (List.range 32).find? fun k => decide (h < k) && packetStart p k

/-- A literal escape begins at halfword `h`. -/
def isLiteralAt (p : BitVec 512) (h : Nat) : Bool := packetStart p h && packetHalf p h == 0xFFFF#16

/-- R83: the four ways a packet is malformed. -/
def packetMalformed (p : BitVec 512) : Bool :=
  p.getLsbD 31 || field p 0 30 == 0#30 ||
  (List.range 32).any fun h => isLiteralAt p h &&
    (decide (31 < h + 24) || (List.range 24).any fun j => packetStart p (h + 1 + j))

/-- What a code word stands for (R82). -/
inductive CodeWord where
  | dictionary (index : Nat)
  | idle (n : BitVec 8)
  | literal (b : BitVec 384)
  | reservedWord
  deriving DecidableEq, Repr

/-- R82, R87: the code word at halfword `h`. -/
def codeWordAt (p : BitVec 512) (h : Nat) : CodeWord :=
  let c := packetHalf p h
  if c ≤ 0x0FFF#16 then .dictionary c.toNat
  else if c ≤ 0x10FF#16 then .idle (field c 0 8)
  else if c = 0xFFFF#16 then .literal (field p (16 * (h + 1)) 384)
  else .reservedWord

/-! Words of the opcode table, which name no class. -/

/-- The classes, in the order that decides between rows of equal standing. -/
def tableOrder : List SlotClass := [.scl, .ctrl, .mtx, .flow, .mem, .int1, .vec]

/-- How many bits the opcode table fixes in a slot instruction's row. -/
def rowBits : Instr → Nat
  | .movi _ _ _ | .br _ | .brS1 _ | .call _ | .callS1 _ | .ld _ _ _ _ _ _ _ | .atom _ _ _ _ _ _ _ | .vadd _ _ _ _ _ _ | .vsub _ _ _ _ _ _
  | .vmul _ _ _ _ _ _ | .vfma _ _ _ _ _ _ | .vmin _ _ _ _ _ _ | .vmax _ _ _ _ _ _ | .vcmp _ _ _ _ _ _ _ | .vand _ _ _ _ _ _
  | .vor _ _ _ _ _ _ | .vxor _ _ _ _ _ _ | .vshl _ _ _ _ _ _ | .vshr _ _ _ _ _ _ | .vcvt _ _ _ _ _ _ _ | .vdot _ _ _ _ _ _
  | .vcmul _ _ _ _ _ _ => 7
  | .addI _ _ _ | .andI _ _ _ | .andnI _ _ _ | .subI _ _ _ | .mulI _ _ _ | .mulhI _ _ _ | .madI _ _ _ | .divI _ _ _ | .remI _ _ _
  | .orI _ _ _ | .xorI _ _ _ | .shlI _ _ _ | .shrI _ _ _ | .sraI _ _ _ | .rolI _ _ _ | .minI _ _ _ | .maxI _ _ _ | .cmpI _ _ _ _
  | .sel _ _ _ _ | .selI _ _ _ _ | .st _ _ _ _ _ _ | .vldx _ _ _ _ _ _ _ | .vstx _ _ _ _ _ _ _ | .vsel _ _ _ _ _ | .mxcpOut _ _ _ _ _
  | .mxcpIn _ _ _ _ _ => 8
  | .lda _ _ _ _ _ _ _ | .vfn _ _ _ _ _ _ | .vred _ _ _ _ _ _ | .vscan _ _ _ _ _ _ | .vperm _ _ _ _ _ _ | .vget _ _ _ _ _ => 9
  | .stl _ _ _ _ _ _ | .stlR _ _ _ _ _ | .vqnt _ _ _ _ _ | .vdq _ _ _ _ _ | .vput _ _ _ _ => 10
  | .mulh _ _ _ _ | .div _ _ _ _ | .rem _ _ _ _ | .min _ _ _ _ | .max _ _ _ _ | .cmp _ _ _ _ _ | .sext _ _ _ | .vld _ _ _ _ _
  | .vst _ _ _ _ _ | .maccSet _ _ _ _ | .maccAdd _ _ _ _ => 11
  | .add _ _ _ | .addaI _ _ _ | .and _ _ _ | .andn _ _ _ | .bfi _ _ _ | .bfx _ _ _ | .sub _ _ _ | .mul _ _ _ | .mad _ _ _ | .or _ _ _
  | .xor _ _ _ | .shl _ _ _ | .shr _ _ _ | .sra _ _ _ | .rol _ _ _ | .vabs _ _ _ _ _ | .vneg _ _ _ _ _ | .mdrain _ _ _ _ _ | .hreq _ _ _
  | .spawn _ _ _ _ => 12
  | .mzero _ _ _ => 13
  | .barr _ | .trapImm _ | .estI _ | .upd _ _ _ _ | .vbcstI _ _ _ | .gset _ _ _ | .rcnt _ _ _ => 14
  | .fenceR _ _ _ _ | .mshift _ _ _ _ _ | .dftFwd _ _ _ _ | .dftInv _ _ _ _ => 15
  | .adda _ _ _ | .plog _ _ _ _ | .cmnt _ _ _ _ | .maccArmSet _ _ _ | .maccArmAdd _ _ _ => 16
  | .allocNf _ _ _ | .vbcst _ _ _ | .xfma _ _ _ => 17
  | .abs _ _ | .clz _ _ | .ctz _ _ | .popc _ _ | .mov _ _ | .loop _ _ | .loopm _ _ | .mfsr _ _ | .mtsr _ _ | .qlog _ _ _ _ | .scliB _ _
  | .cpy _ _ _ | .cpyNet _ _ _ | .hqry _ _ | .enqR _ _ _ => 18
  | .movaToA _ _ | .movaToS _ _ | .vwait _ _ | .mwait _ _ | .xrnd _ _ _ | .sclB _ _ _ | .gadv _ _ | .route _ _ | .pubOpen _ _ | .pin _ _
  | .unpin _ _ | .enqC _ _ | .flwait _ _ | .fldrop _ _ | .coll _ _ | .monArm _ _ | .monStop _ _ | .monSnap _ _ => 20
  | .alloc _ _ | .flget _ _ | .flput _ _ => 21
  | .hwait _ _ | .qfence _ | .xsgn _ _ | .scliA _ _ | .gldd _ _ | .depdec _ => 22
  | .free _ _ | .xadd _ _ => 23
  | .mstat _ | .mstatClr _ | .brx _ | .brxS1 _ | .callx _ | .callxS1 _ | .est _ | .hrel _ | .pubClose _ _ | .settlePub _ _ | .depdecS _
  | .tstamp _ => 24
  | .fence _ _ | .mmode _ _ | .mpushV _ | .sclA _ => 25
  | .mpush _ | .settle _ | .enqX _ => 26
  | .lexit _ => 27
  | .ret | .endRill | .yield | .rft | .xclr | .maccOff => 30
  | _ => 0

/-- The class under which a bare slot word is taken: the rows of the classes overlap, and the row that fixes most bits of the word is the one
meant. No rule of the spec says so (log entry 37); in a bundle a word is decoded under its slot's class alone. -/
def tableClass (w : BitVec 32) : Option SlotClass :=
  (tableOrder.foldl (fun (best : Option (SlotClass × Nat)) c =>
    match decodeSlot c w none, best with
    | some i, some (d, n) => if n < rowBits i then some (c, rowBits i) else some (d, n)
    | some i, none => some (c, rowBits i)
    | none, b => b) none).map (·.1)

/-- Is a bare word a helper core's: an ix word, or one whose OP field would be that of the empty slot. -/
def isHelperWord (w : BitVec 32) : Bool := (decodeIx w).isSome || field w 23 7 == 0#7

/-- The instruction of a word whose bits are numbered as spec/opcode_table.json numbers them. -/
def decodeTableWord (nbits w : Nat) : Option Instr :=
  if nbits ≠ 32 then none
  else
    let x := BitVec.ofNat 32 w
    if isHelperWord x then some (decodeHelper x)
    else (tableClass x).bind fun c => decodeSlot c x none

end Sys2Proof
end

