-- ==== Sys2Proof/Machine/Fetch.lean ====
section
/-! DEFINITION. Fetch: packets, code words, the dictionary, code addresses (04_encoding R80 to R86). A program counter at a packet's
first byte stands for the packet's first code word, which could not be read when it was reached; an odd one for the place past the last
code word of a packet whose END is set, where issue takes ILLCODE (R83). -/
namespace Sys2Proof.Machine

/-- A fetch trap: cause, address, reason. -/
structure FetchTrap where
  code : Nat
  addr : Word
  sub : Nat
  deriving DecidableEq, Repr

/-- Byte address and run position of a code address (R84). -/
def codeByte (a : Word) : Word := 0#8 ++ field a 0 56
def runPos (a : Word) : Nat := (field a 56 8).toNat
/-- A byte address with a run position. -/
def withRun (a : Word) (k : Nat) : Word := BitVec.ofNat 8 k ++ field a 0 56
/-- Packet of a byte address, and halfword in it. -/
def packetOf (a : Word) : Word := codeByte a &&& ~~~63#64
def halfOf (a : Word) : Nat := (field a 1 5).toNat

namespace Work

/-- Read the packet at an address: failed translation or missing X gives FETCH, an uncorrectable unit CODEECC (R86). It is read at L2 each time its bundle
is presented, past the core's L1 and never ahead of issue (DESIGN CHOICE, log entry 142). -/
def fetchPacket (w : Work) (pkt : Word) : Except FetchTrap (BitVec 512) × Work :=
  let core := w.focus.core
  let part := w.myPart
  if field pkt 56 8 ≠ 0#8 then (.error ⟨cFetch, pkt, 1⟩, w)
  else if ((w.part part).claim pkt).isSome then (.error ⟨cFetch, pkt, 4⟩, w)
  else
    match w.translate core part true pkt .fetch w.focus.super with
    | (.error r, w) => (.error ⟨cFetch, pkt, r⟩, w)
    | (.ok (pa, pte), w) =>
      if (w.badUnit pa 64).isSome then (.error ⟨cCodeEcc, pkt, 0⟩, w)
      else
        let (bs, w) := (w.recallLine (pa / 128)).l2Read part pa 64 (pteMt pte)
        (.ok (BitVec.ofNat 512 (leNat bs)), w)

/-- First code word of a packet. -/
def firstWord (p : BitVec 512) : Option Nat := packetNext p 1

/-- Length of a code word in halfwords. -/
def wordLen (p : BitVec 512) (h : Nat) : Nat := if isLiteralAt p h then 25 else 1

/-- The successor of the code word at halfword `h` (R81). Before a packet whose first code word is unknown it is the packet's first byte, which a trap
met there saves as PC (DESIGN CHOICE, log entry 120). -/
def successor (w : Work) (pkt : Word) (p : BitVec 512) (h : Nat) : Word × Work :=
  match packetNext p h with
  | some n => (pkt + BitVec.ofNat 64 (2 * n), w)
  | none =>
    if packetEnd p then ((pkt + BitVec.ofNat 64 (2 * (h + wordLen p h))) ||| 1#64, w)
    else
      let nx := pkt + 64#64
      match w.fetchPacket nx with
      | (.ok q, w) =>
        if packetMalformed q then (nx, w)
        else match firstWord q with
          | some n => (nx + BitVec.ofNat 64 (2 * n), w)
          | none => (nx, w)
      | (.error _, w) => (nx, w)

/-- An empty bundle. -/
def emptyBundle : Bundle := 0

/-- The dictionary entry of an index (R82, R85, R86). -/
def dictEntry (w : Work) (addr : Word) (i : Nat) : Except FetchTrap Bundle :=
  match w.here.dict with
  | none => .error ⟨cIllCode, addr, 0⟩
  | some d =>
    match d.bundles[i]? with
    | none => .error ⟨cIllCode, addr, 0⟩
    | some (.ok b) => .ok b
    | some (.bad r) => .error (if r = 0 then ⟨cCodeEcc, addr, 0⟩ else ⟨cFetch, addr, r⟩)

/-- Fetch the bundle at a code address; `target` says that it was reached as a branch target, which R84 checks: what the address itself breaks comes
before what its packet's fetch meets (log entry 68). Issue that runs past the last packet stands at 2⁵⁶, which no fetch reaches. -/
def fetchAt (w : Work) (pc : Word) (target : Bool) : Except FetchTrap Fetched × Work :=
  if !target && codeByte pc == 0#64 && runPos pc != 0 then (.error ⟨cFetch, pc, 1⟩, w)
  else if pc.getLsbD 0 then
    (.error (if target then ⟨cBadTarget, pc, 0⟩ else ⟨cIllCode, pc &&& ~~~1#64, 0⟩), w)
  else if target && decide (halfOf pc < 2) then (.error ⟨cBadTarget, pc, 0⟩, w)
  else
    let pkt := packetOf pc
    match w.fetchPacket pkt with
    | (.error e, w) => (.error { e with addr := pc }, w)
    | (.ok p, w) =>
      let h := if halfOf pc = 0 then (firstWord p).getD 2 else halfOf pc
      let addr := if halfOf pc = 0 then pkt + BitVec.ofNat 64 (2 * h) else pc
      if packetMalformed p then (.error ⟨cIllCode, addr, 0⟩, w)
      else if !packetStart p h then (.error (if target then ⟨cBadTarget, pc, 0⟩ else ⟨cIllCode, addr, 0⟩), w)
      else
        let k := runPos addr
        match codeWordAt p h with
        | .idle n =>
          if n.toNat < k then (.error ⟨cBadTarget, pc, 0⟩, w)
          else if k < n.toNat then (.ok ⟨addr, emptyBundle, true, some (withRun addr (k + 1))⟩, w)
          else
            let (nx, w) := w.successor pkt p h
            (.ok ⟨addr, emptyBundle, true, some nx⟩, w)
        | cw =>
          if k ≠ 0 then (.error ⟨cBadTarget, pc, 0⟩, w)
          else
            let b : Except FetchTrap Bundle :=
              match cw with
              | .dictionary i => w.dictEntry addr i
              | .literal b => .ok b
              | _ => .error ⟨cIllCode, addr, 0⟩
            match b with
            | .error e => (.error e, w)
            | .ok b =>
              let (nx, w) := w.successor pkt p h
              (.ok ⟨addr, b, false, some nx⟩, w)

/-- The code address of the bundle after the one at `pc`: it follows from the packet alone, whatever the code word names (R81, R84). A code address has
56 bits, so that the bundle behind the last one below 2⁵⁶, which the spec does not name, is packet 0's first (DESIGN CHOICE, log entry 120). -/
def following (w : Work) (pc : Word) : Word × Work :=
  if pc.getLsbD 0 then (pc, w)
  else
    let pkt := packetOf pc
    match w.fetchPacket pkt with
    | (.error _, w) => (pc, w)
    | (.ok p, w) =>
      let h := if halfOf pc = 0 then (firstWord p).getD 2 else halfOf pc
      if packetMalformed p || !packetStart p h then (pc, w)
      else
        let addr := if halfOf pc = 0 then pkt + BitVec.ofNat 64 (2 * h) else pc
        match codeWordAt p h with
        | .idle n => if runPos addr < n.toNat then (withRun addr (runPos addr + 1), w) else w.successor pkt p h
        | _ => w.successor pkt p h

/-- The code address `n` bundles after a bundle at `pc` in straight issue. Past the end of code it is the place where the next code word would
begin; before a packet that cannot be read, that packet's first byte (DESIGN CHOICE, log entry 120). -/
def addrAfter (w : Work) (pc : Word) : Nat → Word × Work
  | 0 => (pc, w)
  | n + 1 => let (a, w) := w.following pc; w.addrAfter a n

/-- The instruction that an idle-run code word stands for, if the program counter is at one. -/
def idleAt (w : Work) (pc : Word) : Option (BitVec 8) :=
  match (w.fetchPacket (packetOf pc)).1 with
  | .ok p => match codeWordAt p (halfOf pc) with | .idle n => some n | _ => none
  | .error _ => none

end Work
end Sys2Proof.Machine
end

