-- ==== Sys2Proof/Machine/Loop.lean ====
section
/-! DEFINITION. The loop sequencer (03_core R66 to R70, 23_ref R431 to R434). Positions are body offsets; `left` counts iterations,
or passes of a modulo level, the current one included. -/
namespace Sys2Proof.Machine

/-- Times a level's range issues: N, or N + S − 1 passes of a modulo level, none for N = 0 (R66, R67). -/
def LoopLevel.passes (l : LoopLevel) : Nat := if l.modulo then (if l.total = 0 then 0 else l.total + l.stages - 1) else l.total

/-- A level at its first iteration. -/
def LoopLevel.restart (l : LoopLevel) : LoopLevel := { l with left := l.passes, pass := 0 }

/-- A level whose iterations are over. -/
def LoopLevel.over (l : LoopLevel) : LoopLevel := { l with left := 0, pass := l.passes }

/-- Increments of a level that amount to something: stream register and amount (R431). -/
def LoopLevel.incs (l : LoopLevel) : List (Nat × Word) :=
  [(l.inc0.toNat, l.amt0.signExtend 64), (l.inc1.toNat, l.amt1.signExtend 64)].filter fun x => x.2 != 0

/-- Does every iteration of level `k` issue nothing, because a level of the same range has no iteration? -/
def hollow (ls : List LoopLevel) (k : Nat) : Bool :=
  match ls[k]? with
  | none => false
  | some l => (List.range ls.length).any fun j =>
      decide (k < j) && match ls[j]? with | some m => m.first == l.first && m.last == l.last && m.passes == 0 | none => false

/-- Increments of all iterations of a hollow level and of the hollow levels in it, `times` times over. -/
def hollowIncs (times : Nat) : List LoopLevel → List (Nat × Word)
  | [] => []
  | l :: ls =>
    if l.passes = 0 then []
    else
      let n := times * l.passes
      l.incs.map (fun x => (x.1, x.2 * BitVec.ofNat 64 n)) ++
        (match ls with
        | m :: _ => if m.first = l.first ∧ m.last = l.last then hollowIncs n ls else []
        | [] => [])

/-- Where a body continues: levels, increments to land, and the offset, none past the body. -/
structure Cursor where
  levels : List LoopLevel
  incs : List (Nat × Word)
  offset : Option Nat

/-- Find the next bundle. `moved` says that offset `o` has just issued (or been skipped) within levels 0 to n − 1; else offset `o` is
being entered and levels from `n` on that begin there start (R66). -/
def seek : Nat → Bool → List LoopLevel → List (Nat × Word) → Nat → Nat → Cursor
  | 0, _, ls, incs, _, _ => ⟨ls, incs, none⟩
  | fuel + 1, true, ls, incs, o, n =>
    match n with
    | 0 => ⟨ls, incs, none⟩
    | k + 1 =>
      match ls[k]? with
      | none => ⟨ls, incs, none⟩
      | some l =>
        if l.last ≠ o then seek fuel false ls incs (o + 1) (k + 1)
        else
          let ls := ls.set k { l with left := l.left - 1, pass := l.pass + 1 }
          let incs := incs ++ l.incs
          if 1 < l.left then seek fuel false ls incs l.first (k + 1) else seek fuel true ls incs o k
  | fuel + 1, false, ls, incs, o, n =>
    match ls[n]? with
    | none => ⟨ls, incs, some o⟩
    | some l =>
      if l.first ≠ o then ⟨ls, incs, some o⟩
      else
        let ls := ls.set n l.restart
        if l.passes = 0 then seek fuel true ls incs l.last n
        else if hollow ls n then seek fuel true (ls.set n l.over) (incs ++ hollowIncs 1 (ls.drop n)) l.last n
        else seek fuel false ls incs o (n + 1)

/-- Levels that enclose an offset. -/
def depthAt (ls : List LoopLevel) (o : Nat) : Nat := (ls.takeWhile fun l => decide (l.first ≤ o) && decide (o ≤ l.last)).length

/-- Steps enough for any body: each either moves along the at most 64 offsets or in or out of the at most 6 levels. -/
def seekFuel : Nat := 2000

namespace Work

/-- Land increments as 1-cycle results at the end of their iterations (R66). -/
def putIncs (w : Work) (incs : List (Nat × Word)) : Work :=
  let slot := w.focus.slot
  let w := w.modFocus fun g => { g with slot := 10 }
  let w := incs.foldl (fun w x => w.put { kind := .gBase, reg := x.1, value := x.2.setWidth 1024, lat := 1 }) w
  w.modFocus fun g => { g with slot := slot }

/-- Code address of a body offset; offset B is the bundle after the body. -/
def loopAddr (w : Work) (q : LoopSeq) (o : Nat) : Word × Work :=
  match q.replay.find? fun e => e.1 == o with
  | some e => (e.2.addr, w)
  | none =>
    match (if o = 0 then none else q.replay.find? fun e => e.1 + 1 == o) with
    | some e => (e.2.next.getD e.2.addr, w)
    | none => w.addrAfter q.start o

/-- Continue at a cursor: the next code address; past the body the sequencer is cleared. -/
def follow (w : Work) (q : LoopSeq) (c : Cursor) : Word × Work :=
  let w := w.putIncs c.incs
  match c.offset with
  | some o =>
    let q := { q with levels := c.levels, offset := o }
    let w := w.modMe fun x => { x with loop := q }
    w.loopAddr q o
  | none =>
    let (a, w) := w.loopAddr q q.bodyLen
    (a, w.modMe fun x => { x with loop := .none })

/-- After the body bundle at the current offset has issued. -/
def loopNext (w : Work) : Word × Work :=
  let q := w.me.loop
  w.follow q (seek seekFuel true q.levels [] q.offset (depthAt q.levels q.offset))

/-- The levels a descriptor sets up, with the trip counts read at issue (R433). -/
def loopLevels (w : Work) (d : BitVec 1024) (handler : Bool) (l c : BitVec 6) : List LoopLevel :=
  let n := descByte d 0
  let md := descByte d 2 % 2 == 1
  (List.range n).map fun j =>
    let b := 16 + 16 * j
    let inner := md && j + 1 == n
    let total := if descByte d (b + 6) % 2 = 1 then (field (w.me.sReg (c + BitVec.ofNat 6 j)) 0 32).toNat else (descWord d b).toNat
    { total := total, left := 0, first := descByte d (b + 4), last := descByte d (b + 5), modulo := inner, handler := handler,
      stages := if inner then descByte d 4 else 0, ii := if inner then descByte d 3 else 0,
      inc0 := BitVec.ofNat 4 (descByte d (b + 7)), inc1 := BitVec.ofNat 4 (descByte d (b + 7) / 16),
      amt0 := descWord d (b + 8), amt1 := descWord d (b + 12), ldi := l.toNat, pass := 0 }

/-- LOOP and LOOPM with a descriptor that passes R433's checks: the body begins with the next bundle. -/
def setupLoop (w : Work) (l c : BitVec 6) : Work :=
  let (busy, w) := w.frameBusy
  let handler := busy == some true
  match w.loopDesc handler l.toNat with
  | some (some d) =>
    let w := w.readLoopLine handler l.toNat
    let (start, w) := w.addrAfter w.me.pc 1
    let q : LoopSeq := ⟨start, 0, descByte d 1, w.loopLevels d handler l c, []⟩
    let (a, w) := w.follow q (seek seekFuel false q.levels [] 0 0)
    w.modFocus fun g => { g with redirect := some a }
  | _ => w

/-- LEXIT (R69): levels from L on end at once, their increments unapplied. -/
def exitLoop (w : Work) (l : Nat) : Work :=
  let q := w.me.loop
  match q.levels[l]? with
  | none => w
  | some x =>
    let ls := q.levels.take l ++ (q.levels.drop l).map LoopLevel.over
    let (a, w) := w.follow q (seek seekFuel true ls [] x.last l)
    w.modFocus fun g => { g with redirect := some a }

end Work

/-! ## Issue checks (R433, R69) -/

/-- Does a descriptor take ILLOP under LOOP, or LOOPM (R433)? -/
def loopIllOp (d : BitVec 1024) (md : Bool) (c : BitVec 6) : Bool :=
  let b := descByte d
  let n := b 0
  let m := b 2
  let record (j : Nat) : List Nat := (List.range 16).map fun k => b (16 + 16 * j + k)
  (List.range 11).any (fun k => b (5 + k) != 0) || (List.range 16).any (fun k => b (112 + k) != 0) ||
  n == 0 || decide (6 < n) || b 1 == 0 || decide (1 < m) || (m == 1) != md ||
  (if md then b 3 == 0 || decide (64 < b 3) || b 4 == 0 || decide (4 < b 4) else b 3 != 0 || b 4 != 0) ||
  (List.range 6).any (fun j =>
    if j < n then
      decide (1 < b (22 + 16 * j)) || decide (b (21 + 16 * j) < b (20 + 16 * j)) ||
      (b (22 + 16 * j) == 1 && decide (63 < c.toNat + j))
    else (record j).any (· != 0))

/-- Does its shape take LOOPSEQ (R433, R69)? -/
def loopBadShape (d : BitVec 1024) : Bool :=
  let b := descByte d
  let n := b 0
  let F (j : Nat) := b (20 + 16 * j)
  let E (j : Nat) := b (21 + 16 * j)
  decide (64 < b 1) || F 0 != 0 || E 0 + 1 != b 1 ||
  (List.range n).any (fun j => j != 0 && (decide (F j < F (j - 1)) || decide (E (j - 1) < E j))) ||
  (b 2 == 1 && E (n - 1) + 1 - F (n - 1) != b 3)

/-- R432: C is zero when no level's trip count comes from a register. -/
def loopIdleC (d : BitVec 1024) (c : BitVec 6) : Bool :=
  c != 0 && !(List.range (min (descByte d 0) 6)).any fun j => descByte d (22 + 16 * j) == 1

end Sys2Proof.Machine
end

