-- ==== Sys2Proof/Machine/Branch.lean ====
section
/-! DEFINITION. Branches, calls, returns and loops (03_core R62, R63, R66 to R70, 22_ref R386, 23_ref R432 to R434, 24_ref R454, 04_encoding
R82). A taken branch leaves its target pending; issue lets the two delay slots through before it (Machine/Issue.lean). -/
namespace Sys2Proof.Machine

/-- Target of a relative branch: halfwords from the code word that carries it, run position 0 (R386). -/
def relTarget (here off : Word) : Word := codeByte (codeByte here + 2#64 * off)

namespace Work

/-- A taken branch. A second one in the bundle has no effect but the flag (R63). -/
def branchTo (w : Work) (tgt : Word) (link : Bool) : Work :=
  if w.focus.branch.isSome then w.putFlags flBr2 0 1
  else
    let (next, w) := if link then w.addrAfter w.me.pc 3 else (0, w)
    let w := if link then w.putS 62#6 (next &&& ~~~1#64) 1 else w
    let w := w.modMe fun c => { c with brPend := true, brTgt := tgt, brFrom := c.pc, dsRem := 2 }
    w.modFocus fun g => { g with branch := some tgt }

end Work

def execBr (o : Imm 23) := run fun w => w.branchTo (relTarget w.me.pc o.value) false
def execBrS1 (o : Imm 23) := run fun w => w.branchTo (relTarget w.me.pc o.value) false
def execBrx (a : BitVec 6) := run fun w => w.branchTo (w.rdS 0 a) false
def execBrxS1 (a : BitVec 6) := run fun w => w.branchTo (w.rdS 0 a) false
def execCall (o : Imm 23) := run fun w => w.branchTo (relTarget w.me.pc o.value) true
def execCallS1 (o : Imm 23) := run fun w => w.branchTo (relTarget w.me.pc o.value) true
def execCallx (a : BitVec 6) := run fun w => w.branchTo (w.rdS 0 a) true
def execCallxS1 (a : BitVec 6) := run fun w => w.branchTo (w.rdS 0 a) true
/-- R454. -/
def execRet := run fun w => w.branchTo (w.rdS 0 62#6) false

/-- R433: the descriptor's ILLOP and LOOPSEQ cases are issue checks (Machine/Checks.lean). -/
def execLoop (l c : BitVec 6) := run fun w => w.setupLoop l c
def execLoopm (l c : BitVec 6) := run fun w => w.setupLoop l c
def execLexit (l : BitVec 3) := run fun w => w.exitLoop l.toNat

/-- R82, R84: one of the n + 1 empty bundles of a run has issued; the run position rises, after the last comes the next code word. -/
def execIdleRun (n : BitVec 8) := run fun w =>
  let pc := w.me.pc
  if runPos pc < n.toNat then w.modFocus fun g => { g with nextAddr := some (withRun pc (runPos pc + 1)) }
  else
    match w.fetchPacket (packetOf pc) with
    | (.ok p, w) =>
      let (nx, w) := w.successor (packetOf pc) p (halfOf pc)
      w.modFocus fun g => { g with nextAddr := some nx }
    | (.error _, w) => w

end Sys2Proof.Machine
end

