-- ==== Sys2Proof/Machine/Sync.lean ====
section
/-! DEFINITION. Acquires and releases (09_ordering R188, R193, R194, R203, R204, 08_memory R175), blocking and waking (02_execution R28,
R29), handle numbers and HWAIT's conditions (10_streaming R207, R208, R213). -/
namespace Sys2Proof.Machine

/-- The meaning of a slot that may trap: then it has no effect, or keeps what it did (slotAct, slotActKeep). -/
def runSlot (i : Instr) (m : Act Unit) (s : State) : Host.Outcome State Fault Refusal := run (slotAct (Work.operands i) m) s
def runSlotKeep (i : Instr) (m : Act Unit) (s : State) : Host.Outcome State Fault Refusal := run (slotActKeep (Work.operands i) m) s

/-! ## Clocks and ranges (R175, R203, R204) -/

namespace Work

/-- Physical ranges of a virtual range, page by page; what does not translate is left out. -/
def physRanges (w : Work) (core part : Nat) (kind : Access) (super : Bool) : Nat → Nat → Nat → List (Nat × Nat)
  | 0, _, _ => []
  | fuel + 1, va, len =>
    if len = 0 then []
    else
      match (w.translate core part true (BitVec.ofNat 64 va) kind super).1 with
      | .ok (pa, _) => let k := min len (65536 - va % 65536); (pa, k) :: w.physRanges core part kind super fuel (va + k) (len - k)
      | .error _ => let k := min len (65536 - va % 65536); w.physRanges core part kind super fuel (va + k) (len - k)

/-- Does a line overlap one of the ranges? -/
def lineIn (rs : List (Nat × Nat)) (line : Nat) : Bool := rs.any fun (pa, n) => decide (pa < line * 128 + 128) && decide (line * 128 < pa + n)

/-! ## Clocks of the issuing rill -/

/-- A release raises KCLK by one (R203). -/
def tick (w : Work) : Work := w.modMe fun c => { c with kclk := clockNext c.kclk.toNat }

/-- KCLK is at least `x` (R204). -/
def raiseClock (w : Work) (x : Nat) : Work := w.modMe fun c => { c with kclk := clockMax c.kclk x }

/-- A release at core scope or wider: the core's dirty lines go to L2, KCLK rises (R175, R203). -/
def release (w : Work) : Work := (w.cleanL1 w.myPart w.focus.core fun _ => true).tick

/-- An acquire at core scope or wider that read stamp `s` (R175, R204). -/
def acquire (w : Work) (s : BitVec 32) : Work :=
  let w := (w.dropClean w.focus.core fun _ => true).raiseClock (s.toNat + 1)
  w.modMe fun c => { c with readS := 0 }

/-- The S stamps of the lines that a load of `n` bytes read, for a later FENCE.acq (R204): `readS` is one more than the largest, 0 where no line has been
read. -/
def noteRead (w : Work) (pl : Place) (n : Nat) : Work :=
  let s := (w.sStamp w.myPart pl n).toNat
  w.modMe fun c => { c with readS := max c.readS (s + 1) }

/-- The first store after a FENCE.rel is the release that an acquire may read (R413): each line that the bundle's stores write takes S. -/
def noteWrite (w : Work) (pl : Place) (n : Nat) : Work := if w.me.relPending then w.raiseS w.myPart pl w.me.kclk n else w

end Work

/-- Does an access at the home slice for a rill go past its L1 as an engine's would? Through an aperture it leaves L1 alone (R180). -/
def Place.engineLike : Place → Bool
  | .view _ _ => false
  | _ => true

/-- Read at the home slice for the issuing rill, leaving no copy in L1; no race check (R193, R190). -/
def homeLoad (sp : Space) (addr : Word) (n : Nat) : Acc (List Byte × Place) := do
  let who := (← get).issuer
  let pl ← place who true sp addr .read
  match pl with
  | .phys pa _ _ => modify fun w => w.flushLine who.part who.core (pa / 128)
  | _ => pure ()
  return (← readPlace who pl.engineLike pl addr n, pl)

/-- Write at the home slice for the issuing rill. -/
def homeStore (sp : Space) (addr : Word) (bs : List Byte) : Acc Place := do
  let who := (← get).issuer
  let pl ← place who true sp addr .write
  match pl with
  | .phys pa _ _ => modify fun w => w.flushLine who.part who.core (pa / 128)
  | _ => pure ()
  writePlace who pl.engineLike pl addr bs
  return pl

/-! ## Blocking and waking (R28, R29) -/

namespace Work

/-- The context of the focus blocks. -/
def block (w : Work) (r : BlockReason) : Work :=
  (w.modMe fun c => { c with st := .blocked, block := some r, blockedAt := w.cycle }).modFocus fun g => { g with waits := true }

/-- Is the context one that the core can select now? -/
def selectable (w : Work) (core i : Nat) : Bool := let c := w.ctx core i; c.st == .ready && decide (c.readyAt < w.cycle + 1)

/-- The next context in cyclic order after the current one, itself last, that was ready before this cycle (R28). -/
def nextCtx (w : Work) (core : Nat) : Option Nat :=
  let cur := (w.core core).cur
  ([1, 2, 3, 4].map fun k => (cur + k) % 4).find? fun i => let c := w.ctx core i; c.st == .ready && decide (c.readyAt < w.cycle)

/-- The next ready context in cyclic order after the current one, itself last (R28). -/
def nextReady (w : Work) (core : Nat) : Option Nat :=
  let cur := (w.core core).cur
  ([1, 2, 3, 4].map fun k => (cur + k) % 4).find? fun i => w.selectable core i

/-- Is an engine queue of a core full? An empty one never is (log entry 12). -/
def queueFull (w : Work) (core q : Nat) : Bool :=
  let es := nth (w.core core).queues q
  es != [] && decide (Config.queueExtra < es.length)

/-- Put an entry on a queue of a core. -/
def enqueue (w : Work) (core q : Nat) (e : Entry) : Work :=
  w.modCore core fun c => { c with queues := setNth c.queues q (nth c.queues q ++ [e]) }

/-- Place a QFENCE marker in each queue of a mask (R197). -/
def placeMarker (w : Work) (core mask : Nat) (who : Issuer) : Work :=
  let id := w.markerNext
  let w := { w with markerNext := id + 1 }
  ((List.range 8).filter fun q => mask / 2 ^ q % 2 == 1).foldl
    (fun w q => w.enqueue core q { kind := .marker id mask, cw := 0, who := who, started := false, desc := none, units := 0, page := .none, hold := [], net := none }) w

end Work

/-! ## Handles (R207, R208, R213) -/

/-- Does a handle number name a record of the partition (R207)? -/
def Partition.ownsHandle (p : Partition) (h : Word) : Bool :=
  let (first, count) := p.hrange (field h 13 2).toNat
  let i := (field h 0 13).toNat
  field h 15 49 == 0#49 && decide (first ≤ i) && decide (i < first + count)

/-- Record word 0 (R208). -/
def HandleRec.word0 (r : HandleRec) : Word :=
  r.lat ++ r.fault ++ r.waiters ++ r.prio ++ r.part ++ (0#10 ++ r.ord ++ 0#2 ++ r.req ++ 0#2 ++ r.arrived ++ 0#1 ++ r.state)

/-- What HWAIT does on a record. -/
inductive Verdict where
  | go | wait
  | fault (reason : Nat)
  deriving DecidableEq, Repr

/-- R213's order of checks. -/
def HandleRec.verdict (r : HandleRec) (m : BitVec 2) : Verdict :=
  if m &&& ~~~r.req ≠ 0 ∧ r.state ≠ 0 then .fault 6
  else if r.state = 0 then .fault 5
  else if (if m = 0 then r.state == 3#3 else r.arrived &&& m == m) then .go
  else if r.state = 4 then .fault r.fault.toNat
  else .wait

/-- A rill leaves a barrier episode; an episode nobody waits in is closed. -/
def Inst.leaveEpisode (i : Inst) (m : BitVec 16) (rill : Nat) : Inst :=
  let out (e : Episode) : Episode := if e.mask = m then { e with joined := e.joined.filter (· != rill) } else e
  { i with episodes := (i.episodes.map out).filter fun e => !e.joined.isEmpty }

namespace Work

/-- A helper that waits for a handle leaves once its condition holds or can no longer hold; its ix.hwait then gives what it found (R216). -/
def helperLooks (w : Work) (h core : Nat) (outfall : Bool) : Work :=
  match (w.helper core outfall).waiting with
  | some (k, m) =>
    if k ≠ h ∨ (w.handle h).verdict m = .wait then w
    else
      let w := w.leaveHandle h
      w.modHelper core outfall fun x => { x with waiting := none, found := some (w.handle h).word0 }
  | none => w

/-- After a transition of a handle: every waiting context and helper re-evaluates, and those that need not wait any longer leave with what they found,
which their HWAIT then does (R213, R216, R225). -/
def handleChanged (w : Work) (h : Nat) : Work :=
  w.coreNumbers.foldl (fun w n => (List.range 4).foldl (fun w i =>
    match (w.ctx n i).block with
    | some (.handle k m) =>
      if k ≠ h then w
      else
        let r := w.handle h
        let leave (x : Nat) (v : Work → Word) : Work :=
          let w := w.leaveHandle h
          (w.wakeCtx n i).modCtx n i fun c => { c with hres := some (x, v w) }
        match r.verdict m with
        | .wait => w
        | .go => leave 0 fun _ => BitVec.ofNat 64 r.hc
        | .fault x => leave x fun w => (w.handle h).word0
    | _ => w) ((w.helperLooks h n false).helperLooks h n true)) w

/-- A context leaves whatever it waits for (R295, R298): WAITERS and barrier episodes forget it. -/
def leaveWait (w : Work) (core ctx : Nat) : Work :=
  let c := w.ctx core ctx
  let w := match c.block with
    | some (.handle h _) => w.leaveHandle h
    | some (.barrier m) => w.modInst c.inst fun i => i.leaveEpisode m c.rill
    | _ => w
  w.modCtx core ctx fun c => { c with block := none, woken := none, hres := none, barrDead := false }

end Work

end Sys2Proof.Machine
end

