-- ==== Sys2Proof/Machine/Mem.lean ====
section
/-! DEFINITION. The MEM slots: loads and stores (23_ref R426 to R430, 24_ref R457 to R459, 25_ref R475, R476), ATOM (22_ref R382 to R384),
UPD (25_ref R464, R465), CMNT (22_ref R388, 08_memory R176), the allocator (08_memory R186, R187). Every access is performed at issue; what
the rules make it wait for has been performed by then. -/
namespace Sys2Proof.Machine

/-! ## Shared forms -/

/-- A checked, ordinary load of the issuing rill, within one line. -/
def loadAt (sp : Space) (addr : Word) (n : Nat) : Acc (List Byte × Place) := do
  let who := (← get).issuer
  let pl ← place who true sp addr .read
  checkSpan who pl addr n
  checkRace who pl addr n false
  let bs ← readPlace who false pl addr n
  modify fun w => w.noteRead pl n
  return (bs, pl)

/-- A checked, ordinary store of the issuing rill, within one line. -/
def storeAt (sp : Space) (addr : Word) (bs : List Byte) : Acc Place := do
  let who := (← get).issuer
  let pl ← place who true sp addr .write
  checkSpan who pl addr bs.length
  checkRace who pl addr bs.length true
  writePlace who false pl addr bs
  modify fun w => w.noteWrite pl bs.length
  return pl

/-- A misaligned address takes ACCESS (R164). -/
def aligned (addr : Word) (n : Nat) : Act Unit := if addr.toNat % n ≠ 0 then trap { code := cAccess, addr := addr } else return ()

/-- TSOOR with KTSOA's candidate, for a place past the tile store (R165). -/
def Place.tsoor (pl : Place) : Flags := if pl = .past then flTsoor else 0

/-- The space a valid field names. -/
def spaceAct (s : BitVec 2) : Act Space :=
  match spaceOf s with | some sp => return sp | none => trap { code := cIllOp }

/-- A load's value extended (R427). -/
def extendLoad (n : Nat) (zx : Bool) (bs : List Byte) : Word :=
  let x := leNat bs
  if zx then BitVec.ofNat 64 x else BitVec.ofInt 64 (intVal (8 * n) true x)

/-- The latency of a load: fixed in the tile store, else interlocked (R55). -/
def Work.loadTime (w : Work) (pl : Place) (tile : Nat) : Nat × Bool :=
  match pl with
  | .past => (tile, false)
  | .tile c _ => if c = w.focus.core then (tile, false) else (loadLatency w w.focus.core pl, true)
  | _ => (loadLatency w w.focus.core pl, true)

/-- The rill has acted in a way that KILL may not undo (R274). -/
def Work.publish (w : Work) : Work := w.modInst w.me.inst fun i => { i with published := true }

/-! ## Loads and stores -/

/-- LD and VLD: `lat` is the latency in the tile store. -/
def loadAct (a : BitVec 4) (m s : BitVec 2) (x : Imm 6) (n lat : Nat) (result : List Byte → Line) (kind : ResKind) (d : Nat) : Act Unit := do
  let w ← get
  let (ea, inc) := w.memAddr a m x n
  let sp ← spaceAct s
  aligned ea n
  let (bs, pl) ← access (loadAt sp ea n)
  let (t, _) := w.loadTime pl lat
  modify fun v =>
    (v.put { kind := kind, reg := d, value := result bs, lat := if sp = .tile then lat else t, flags := pl.tsoor, xtra := ea,
             interlocked := sp != .tile }).postInc a inc

/-- ST and VST. -/
def storeAct (a : BitVec 4) (m s : BitVec 2) (x : Imm 6) (n : Nat) (data : Work → List Byte) : Act Unit := do
  let w ← get
  let (ea, inc) := w.memAddr a m x n
  let sp ← spaceAct s
  aligned ea n
  let pl ← access (storeAt sp ea (data w))
  modify fun v => ((v.modMe fun c => { c with relPending := false }).putFlags pl.tsoor ea 1).postInc a inc

def execLd (d : BitVec 6) (a : BitVec 4) (m s x : BitVec 2) (z : BitVec 1) (o : Imm 6) :=
  runSlot (.ld d a m s x z o) (loadAct a m s o (2 ^ x.toNat) 4 (fun bs => (extendLoad (2 ^ x.toNat) (z == 1#1) bs).setWidth 1024) .sReg d.toNat)
def execSt (d : BitVec 6) (a : BitVec 4) (m s x : BitVec 2) (o : Imm 6) :=
  runSlot (.st d a m s x o) (storeAct a m s o (2 ^ x.toNat) fun w => leBytes (2 ^ x.toNat) (w.rdS (Work.dataIndex m o) d).toNat)
def execVld (d : BitVec 5) (a : BitVec 4) (m s : BitVec 2) (o : Imm 6) :=
  runSlot (.vld d a m s o) (loadAct a m s o 128 5 lineOf .vReg d.toNat)
def execVst (d : BitVec 5) (a : BitVec 4) (m s : BitVec 2) (o : Imm 6) :=
  runSlot (.vst d a m s o) (storeAct a m s o 128 fun w => lineBytes (w.rdV (Work.dataIndex m o) d))

/-! ## Gather and scatter (R476) -/

/-- Active elements with their addresses: width 2^x, offsets the 32-bit elements of vB. -/
def gatherElems (x : BitVec 2) (base : Word) (offs : Line) (q : Option (BitVec 128)) : List (Nat × Word) :=
  let n := 2 ^ x.toNat
  let idx := (List.range (min 32 (128 / n))).filter fun i => match q with | none => true | some k => k.getLsbD (n * i)
  idx.map fun i => (i, base + (field offs (32 * i) 32).setWidth 64)

/-- Every active element is checked before any is accessed: its address, and of a gather its bytes, so that MEMRACE alone is left to meet as the
elements are performed. -/
def checkElems (sp : Space) (n : Nat) (kind : Access) (es : List (Nat × Word)) : Act Unit :=
  es.forM fun (_, ea) => do
    aligned ea n
    let who := (← get).issuer
    let pl ← access (place who true sp ea kind)
    access (checkSpan who pl ea n)
    if kind = .read then access (checkReadable who false pl ea n)

/-- The flag and the address of the first active element that is out of range: of several, KTSOA takes that one's (R165; DESIGN CHOICE, log entry 144). -/
def firstPast (es : List (Word × Place)) : Flags × Word :=
  match es.find? fun e => decide (e.2 = .past) with | some e => (flTsoor, e.1) | none => (0, 0)

def vldxAct (d : BitVec 5) (a : BitVec 4) (b : BitVec 5) (x s : BitVec 2) (e : BitVec 1) (q : BitVec 3) : Act Unit := do
  let w ← get
  let n := 2 ^ x.toNat
  let mask := if e = 1#1 then some (w.rdQ 2 q) else none
  let es := gatherElems x (w.rdA 0 a) (w.rdV 1 b) mask
  let sp ← spaceAct s
  checkElems sp n .read es
  let got ← es.mapM fun (i, ea) => do
    let (bs, pl) ← access (loadAt sp ea n)
    return (i, ea, bs, pl)
  let old : List Byte := if e = 1#1 then lineBytes (w.me.vReg d) else List.replicate 128 0#8
  let bytes := got.foldl (fun (l : List Byte) (i, _, bs, _) => l.take (n * i) ++ bs ++ l.drop (n * i + n)) old
  let t := (got.map fun (_, _, _, pl) => (w.loadTime pl 5).1).foldl max 5
  let (fl, ea) := firstPast (got.map fun (_, ea, _, pl) => (ea, pl))
  modify fun v => v.put { kind := .vReg, reg := d.toNat, value := lineOf bytes, lat := t, flags := fl, xtra := ea, interlocked := true }

def vstxAct (d : BitVec 5) (a : BitVec 4) (b : BitVec 5) (x s : BitVec 2) (e : BitVec 1) (q : BitVec 3) : Act Unit := do
  let w ← get
  let n := 2 ^ x.toNat
  let mask := if e = 1#1 then some (w.rdQ 2 q) else none
  let es := gatherElems x (w.rdA 0 a) (w.rdV 1 b) mask
  let src := lineBytes (w.rdV (2 + e.toNat) d)
  let sp ← spaceAct s
  checkElems sp n .write es
  let got ← es.mapM fun (i, ea) => do
    let pl ← access (storeAt sp ea (src.drop (n * i) |>.take n))
    return (ea, pl)
  let (fl, ea) := firstPast got
  modify fun v => (v.modMe fun c => { c with relPending := false }).putFlags fl ea 1

/-- A race at an element leaves the elements below it performed. -/
def execVldx (d : BitVec 5) (a : BitVec 4) (b : BitVec 5) (x s : BitVec 2) (e : BitVec 1) (q : BitVec 3) :=
  runSlotKeep (.vldx d a b x s e q) (vldxAct d a b x s e q)
def execVstx (d : BitVec 5) (a : BitVec 4) (b : BitVec 5) (x s : BitVec 2) (e : BitVec 1) (q : BitVec 3) :=
  runSlotKeep (.vstx d a b x s e q) (vstxAct d a b x s e q)

/-! ## Acquire loads and release stores (R430, R459) -/

def ldaAct (d : BitVec 6) (a : BitVec 4) (s x : BitVec 2) (z : BitVec 1) (c o : BitVec 3) : Act Unit := do
  let w ← get
  let n := 2 ^ x.toNat
  let ea := w.rdA 0 a + BitVec.ofNat 64 (o.toNat * n)
  let sp ← spaceAct s
  aligned ea n
  let (bs, pl) ← access (homeLoad sp ea n)
  modify fun v =>
    let v := v.put { kind := .sReg, reg := d.toNat, value := (extendLoad n (z == 1#1) bs).setWidth 1024, lat := (w.loadTime pl 4).1,
                     flags := pl.tsoor, xtra := ea, interlocked := true }
    if c = 0#3 then v.noteRead pl n else v.acquire (v.sStamp v.myPart pl n)

def execLda (d : BitVec 6) (a : BitVec 4) (s x : BitVec 2) (z : BitVec 1) (c o : BitVec 3) :=
  runSlot (.lda d a s x z c o) (ldaAct d a s x z c o)

/-- The release of STL over the lines that `which` picks, and the store. -/
def releaseStore (sp : Space) (c : BitVec 3) (ea : Word) (bs : List Byte) (which : Nat → Bool) : Act Unit := do
  if c ≠ 0#3 then modify fun w => (w.cleanL1 w.myPart w.focus.core which).tick
  let pl ← access (homeStore sp ea bs)
  modify fun w =>
    let w := if c = 0#3 then w.noteWrite pl bs.length else w.raiseS w.myPart pl w.me.kclk bs.length
    (w.modMe fun c => { c with relPending := false }).putFlags pl.tsoor ea 1

def stlAct (d : BitVec 6) (a : BitVec 4) (s x : BitVec 2) (c o : BitVec 3) : Act Unit := do
  let w ← get
  let n := 2 ^ x.toNat
  let ea := w.rdA 0 a + BitVec.ofNat 64 (o.toNat * n)
  let sp ← spaceAct s
  aligned ea n
  releaseStore sp c ea (leBytes n (w.rdS 1 d).toNat) fun _ => true

def execStl (d : BitVec 6) (a : BitVec 4) (s x : BitVec 2) (c o : BitVec 3) := runSlot (.stl d a s x c o) (stlAct d a s x c o)

def stlRAct (d : BitVec 6) (a : BitVec 4) (rp : BitVec 5) (x : BitVec 2) (c : BitVec 3) : Act Unit := do
  let w ← get
  let n := 2 ^ x.toNat
  let ea := w.rdA 0 a
  let base := w.rdS 2 (rp.setWidth 6 * 2)
  let len := w.rdS 3 (rp.setWidth 6 * 2 + 1)
  if field len 32 32 ≠ 0#32 then trap { code := cAccess, addr := ea }
  aligned ea n
  let rs := w.physRanges w.focus.core w.myPart .read true 65540 base.toNat len.toNat
  releaseStore .global c ea (leBytes n (w.rdS 1 d).toNat) (Work.lineIn rs)

def execStlR (d : BitVec 6) (a : BitVec 4) (rp : BitVec 5) (x : BitVec 2) (c : BitVec 3) := runSlot (.stlR d a rp x c) (stlRAct d a rp x c)

/-! ## ATOM and UPD -/

/-- The place of an atomic or update-only access: an IDENT aperture stands for its physical bytes, any other takes ACCESS; so do DIRECT
pages (R180, R183, R185). -/
def atomPlace (sp : Space) (ea : Word) (kinds : List Access) : Acc Place := do
  let w ← get
  let mut pl := Place.past
  for k in kinds do
    pl ← place w.issuer true sp ea k
  match pl with
  | .view n off =>
    let ap := (w.part w.myPart).aperture n
    if ap.xf ≠ 0 then throw (.access ea)
    if !isHbm (ap.flat off) then throw (.xlate 5 ea)
    return .phys (ap.flat off) 1#2 false
  | .phys _ mt _ => if mt = 3#2 then throw (.access ea) else return pl
  | _ => return pl

/-- The new value of an ATOM; a failed cas has none (R383). -/
def atomNew (op : BitVec 4) (n old x cmpv : Nat) : Option Nat :=
  if op = 1#4 then (if old = cmpv then some x else none) else some (combine op n old x)

def atomAct (d b : BitVec 5) (a : BitVec 3) (o : BitVec 4) (x : BitVec 1) (r : BitVec 2) (s : BitVec 3) : Act Unit := do
  let w ← get
  let n := if x = 1#1 then 8 else 4
  let ea := w.rdA 0 (a.setWidth 4)
  let v := (w.rdS 1 (b.setWidth 6)).toNat % 2 ^ (8 * n)
  let cmpv := (w.rdS 2 (d.setWidth 6)).toNat % 2 ^ (8 * n)
  let sp ← if r = 0#2 then spaceAct (s.setWidth 2) else pure Space.global
  aligned ea n
  let pl ← access (atomPlace sp ea [.read, .write])
  let who := w.issuer
  match pl with
  | .phys pa _ _ => modify fun w => w.flushLine who.part who.core (pa / 128)
  | _ => pure ()
  let old := leNat (← access (homeTake who pl ea n))
  let stamp := (← get).sStamp who.part pl n
  -- at rill scope the clocks move and the caches stay (R175, R383)
  if r.getLsbD 1 then modify fun w => if s = 0#3 then w.tick else w.release
  let new := atomNew o n old v cmpv
  match new with
  | some y => access (writePlace who true pl ea (leBytes n y))
  | none => pure ()
  modify fun w' =>
    let w' := if r.getLsbD 1 && new.isSome then w'.raiseS who.part pl w'.me.kclk n else w'
    let w' := if r.getLsbD 0 then (if s = 0#3 then w'.raiseClock (stamp.toNat + 1) else w'.acquire stamp) else w'
    (w'.put { kind := .sReg, reg := d.toNat, value := BitVec.ofNat 1024 old, lat := loadLatency w who.core pl, flags := pl.tsoor, xtra := ea,
              interlocked := true }).publish

def execAtom (d b : BitVec 5) (a : BitVec 3) (o : BitVec 4) (x : BitVec 1) (r : BitVec 2) (s : BitVec 3) :=
  runSlot (.atom d b a o x r s) (atomAct d b a o x r s)

/-- A fresh update-only line (R183). -/
def freshUpd (line : Nat) (op : BitVec 4) (x : BitVec 2) : UpdLine :=
  let n := 2 ^ x.toNat
  ⟨line, op, x, lineOf ((List.replicate (128 / n) (leBytes n (identity op n))).flatten), 0⟩

/-- Combine a value into its element of the core's update-only line. -/
def Work.combineUpd (w : Work) (core line off : Nat) (op : BitVec 4) (x : BitVec 2) (v : Nat) : Work :=
  let n := 2 ^ x.toNat
  let w := match (w.core core).upd.find? (·.line == line) with
    | some u => if u.op = op ∧ u.width = x then w else w.mergeUpd core u
    | none => w
  let (u, w) := match (w.core core).upd.find? (·.line == line) with
    | some u => (u, w)
    | none => (freshUpd line op x, w.l1Room (w.corePart core) core)
  let old := leNat (lineBytes u.data |>.drop off |>.take n)
  let u' := { u with data := Work.patch u.data off (leBytes n (combine op n old v)), touched := u.touched ||| Work.maskBits off n }
  w.modCore core fun c => { c with upd := (c.upd.filter (·.line != line)) ++ [u'] }

def updAct (b : BitVec 6) (a : BitVec 4) (o : BitVec 4) (x : BitVec 2) : Act Unit := do
  let w ← get
  let n := 2 ^ x.toNat
  let ea := w.rdA 0 a
  let v := (w.rdS 1 b).toNat % 2 ^ (8 * n)
  aligned ea n
  let pl ← access (atomPlace .global ea [.write])
  let who := w.issuer
  match pl with
  | .phys pa mt race =>
    if Work.cached mt race then
      modify fun w => ((w.flushLine who.part who.core (pa / 128)).combineUpd who.core (pa / 128) (pa % 128) (updOp o) x v).publish
    else
      modify fun w => w.flushLine who.part who.core (pa / 128)
      access (checkUnits (ea - BitVec.ofNat 64 (pa % 128)) (pa / 128 * 128) 128)
      let old := leNat (← access (homeTake who pl ea n))
      access (writePlace who true pl ea (leBytes n (combine (updOp o) n old v)))
      modify fun w => w.publish
  | _ => pure ()

def execUpd (b : BitVec 6) (a : BitVec 4) (o : BitVec 4) (x : BitVec 2) := runSlot (.upd b a o x) (updAct b a o x)

/-! ## Cache maintenance (R176, R388) -/

namespace Work

/-- One line at a level: 0 clean, 1 inval, 2 cinv; 0 L1, 1 L2, 2 SYS. -/
def maintain (w : Work) (part core : Nat) (o lv : BitVec 2) (line : Nat) : Work :=
  let w := if o = 1#2 then w else w.cleanL1 part core (· == line)
  let w := if o = 0#2 then w else
    (w.l1Drop core line).modCore core fun c => { c with upd := c.upd.filter (·.line != line) }
  if lv = 0#2 then w
  else if o = 0#2 then w.cleanHost line
  else w.evictLine line

/-- Lines of a chunk of a page that some cache holds: only they are acted on. -/
def heldLines (w : Work) (core lo hi : Nat) : List Nat :=
  let c := w.core core
  let all := c.l1.map (·.line) ++ c.upd.map (·.line) ++ w.l2.map (·.1) ++ w.hostL2.map (·.line)
  (all.filter fun l => decide (lo ≤ l) && decide (l < hi)).dedup

end Work

/-- The physical lines of the virtual line at `va` in an aperture: under IDENT and SWZ those of its bytes, all in HBM (R180, R388). -/
def viewCmnt (ap : Aperture) (kind : Access) (super : Bool) (va : Nat) : Acc (List Nat) := do
  if !ap.permits kind super then throw (.xlate 4 (BitVec.ofNat 64 va))
  if ap.xf ≠ 0 ∧ ap.xf ≠ 6 then return []
  let pas := (List.range 128).map fun j => ap.flat (va / 128 * 128 + j - ap.vbase)
  if pas.any fun pa => !isHbm pa then throw (.xlate 5 (BitVec.ofNat 64 va))
  return (pas.map (· / 128)).dedup

/-- CMNT over `len` bytes, 64 KiB chunk by chunk: one translation serves a chunk that no aperture touches. A line that fails is named by the first
address of the range in it (log entry 119). -/
def cmntFrom (o lv : BitVec 2) : Nat → Nat → Nat → Act Unit
  | 0, _, _ => return ()
  | fuel + 1, va, len => do
    if len = 0 then return ()
    let w ← get
    let who := w.issuer
    let kind : Access := if o = 1#2 then .write else .read
    let p := w.part who.part
    let wide := min len (65536 - va % 65536)
    let touched := (List.range 8).any fun n =>
      let a := p.aperture n
      a.on && decide (a.vbase < va + wide) && decide (va < a.vbase + a.size)
    let step := if touched then min len (128 - va % 128) else wide
    let addr := BitVec.ofNat 64 va
    match (if Work.canonical addr then p.claim addr else none) with
    | some n =>
      let ls ← access (viewCmnt (p.aperture n) kind who.super va)
      modify fun w => ls.foldl (fun w l => w.maintain who.part who.core o lv l) w
    | none =>
      match ← access (place who true .global addr kind) with
      | .phys pa mt _ =>
        if mt ≠ 3#2 then
          modify fun w => (w.heldLines who.core (pa / 128) ((pa + step - 1) / 128 + 1)).foldl (fun w l => w.maintain who.part who.core o lv l) w
      | _ => pure ()
    cmntFrom o lv fuel (va + step) (len - step)

def cmntAct (o v : BitVec 2) (a : BitVec 4) (l : BitVec 6) : Act Unit := do
  let w ← get
  let base := w.rdA 0 a
  let len := w.rdS 1 l
  if field len 32 32 ≠ 0#32 then trap { code := cAccess, addr := base }
  if o = 1#2 ∧ !w.focus.super then trap { code := cPriv }
  cmntFrom o v (len.toNat / 128 + 2) base.toNat len.toNat

/-- The lines before the first failing one have been acted on. -/
def execCmnt (o v : BitVec 2) (a : BitVec 4) (l : BitVec 6) := runSlotKeep (.cmnt o v a l) (cmntAct o v a l)

/-! ## The allocator (R186, R187, R381, R419) -/

/-- A class descriptor as read. -/
structure AllocClass where
  at0 : Nat
  base : Word
  bitmap : Nat
  free : Nat
  count : Nat
  hint : Nat
  enabled : Bool

/-- Read bytes at a physical address for the allocator: an uncorrectable error names `name`. -/
def allocRead (pa n name : Nat) : Act (List Byte) := fun w =>
  if (w.badUnit pa n).isSome then (.error { code := cPoison, addr := BitVec.ofNat 64 name, sub := 3 }, w)
  else let (bs, w) := w.homeRead w.myPart pa n; (.ok bs, w)

def readClass (c : BitVec 3) : Act AllocClass := do
  let w ← get
  let pa := ((w.part w.myPart).dword 32).toNat + 32 * c.toNat
  let bs ← allocRead pa 32 pa
  let d : BitVec 256 := BitVec.ofNat 256 (leNat bs)
  return ⟨pa, field d 192 64, (field d 128 64).toNat, (field d 96 32).toNat, (field d 64 32).toNat, (field d 32 32).toNat, d.getLsbD 0⟩

/-- First clear bit from `i` up to `hi`, word by word. -/
def findClear (bitmap hi : Nat) : Nat → Nat → Act (Option Nat)
  | 0, _ => return none
  | fuel + 1, i => do
    if hi ≤ i then return none
    let pa := bitmap + i / 64 * 8
    let v := leNat (← allocRead pa 8 pa)
    let stop := min hi (i / 64 * 64 + 64)
    match (List.range (stop - i)).find? fun k => v / 2 ^ ((i + k) % 64) % 2 == 0 with
    | some k => return some (i + k)
    | none => findClear bitmap hi fuel stop

/-- Write FREECNT and HINT of a class descriptor. -/
def Work.putClass (w : Work) (c : AllocClass) (free hint : Nat) : Work :=
  let w := w.homeWrite w.myPart (c.at0 + 12) (leBytes 4 free)
  w.homeWrite w.myPart (c.at0 + 4) (leBytes 4 hint)

/-- ALLOC's search and update: the block's address, or none. -/
def allocBlock (c : BitVec 3) : Act (Option Word) := do
  let k ← readClass c
  if !k.enabled then return none
  let fuel := k.count / 64 + 2
  let found ← if k.free = 0 then pure none else do
    match ← findClear k.bitmap k.count fuel k.hint with
    | some i => pure (some i)
    | none => findClear k.bitmap (min k.hint k.count) fuel 0
  match found with
  | none =>
    modify fun w => w.homeWrite w.myPart (k.at0 + 12) (leBytes 4 0)
    return none
  | some i =>
    let pa := k.bitmap + i / 64 * 8
    let v := leNat (← allocRead pa 8 pa)
    modify fun w =>
      let w := w.homeWrite w.myPart pa (leBytes 8 (v + 2 ^ (i % 64)))
      let w := w.putClass k (k.free - 1) ((i + 1) % k.count)
      w.acquire (w.sStamp w.myPart (.phys k.at0 0#2 false))
    return some (k.base + BitVec.ofNat 64 (i * 256 * 2 ^ c.toNat))

/-- Latency of an allocator's answer. -/
def Work.allocTime (w : Work) : Nat := Config.latL2 (dieHops (w.focus.core / 32) (homeDie ((w.part w.myPart).dword 32).toNat))

def allocAct (d : BitVec 6) (c : BitVec 3) : Act Unit := do
  match ← allocBlock c with
  | some a => modify fun w => w.put { kind := .sReg, reg := d.toNat, value := a.setWidth 1024, lat := w.allocTime, interlocked := true }
  | none => trap { code := cAllocX, info := c.setWidth 64 }

/-- A trapping ALLOC still zeroes a FREECNT that had lost step. -/
def execAlloc (d : BitVec 6) (c : BitVec 3) := runSlotKeep (.alloc d c) (allocAct d c)

def allocNfAct (d : BitVec 6) (p : BitVec 4) (c : BitVec 3) : Act Unit := do
  let r ← allocBlock c
  modify fun w =>
    let w := w.put { kind := .sReg, reg := d.toNat, value := (r.getD 0).setWidth 1024, lat := w.allocTime, interlocked := true }
    w.put { kind := .pReg, reg := p.toNat, value := if r.isSome then 1 else 0, lat := w.allocTime, interlocked := true }

def execAllocNf (d : BitVec 6) (p : BitVec 4) (c : BitVec 3) := runSlot (.allocNf d p c) (allocNfAct d p c)

def freeAct (a : BitVec 4) (c : BitVec 3) : Act Unit := do
  let w ← get
  let addr := w.rdA 0 a
  let bad : Trap := { code := cFreeBad, addr := addr, info := c.setWidth 64 }
  let k ← readClass c
  let size := 256 * 2 ^ c.toNat
  let d := (addr - k.base).toNat
  if !k.enabled || decide (addr.toNat < k.base.toNat) || d % size != 0 || decide (k.count ≤ d / size) then trap bad
  let i := d / size
  let pa := k.bitmap + i / 64 * 8
  let v := leNat (← allocRead pa 8 pa)
  if v / 2 ^ (i % 64) % 2 = 0 then trap bad
  modify fun w =>
    let w := w.release
    let w := w.homeWrite w.myPart pa (leBytes 8 (v - 2 ^ (i % 64)))
    let w := w.homeWrite w.myPart (k.at0 + 12) (leBytes 4 (k.free + 1))
    w.raiseS w.myPart (.phys k.at0 0#2 false) w.me.kclk

def execFree (a : BitVec 4) (c : BitVec 3) := runSlot (.free a c) (freeAct a c)

/-! ## Evictions and merge windows (R182, R184, R201) -/

/-- L1_EVICT: dirty bytes or update-only elements go to L2, the line goes. -/
def execL1Evict (core line : Nat) := run fun w =>
  (w.cleanL1 (w.corePart core) core (· == line)).l1Drop core line
/-- L2_EVICT. -/
def execL2Evict (line : Nat) := run fun w => w.evictLine line
/-- MERGE_WINDOW_CLOSE: the joined reads have been served; later requests are ordinary hits. -/
def execMergeWindowClose (line : Nat) := run fun w => w.endWindow line

end Sys2Proof.Machine
end

