-- ==== Sys2Proof/Machine/Stream.lean ====
section
/-! DEFINITION. Uses of stream registers (03_core R73 to R75), swizzles and region tags (06_matrix R145, R146, 07_spectral R153, R154), and
the instructions that set them (23_ref R420, R421). -/
namespace Sys2Proof.Machine

/-! ## Layout words (R74) -/

def layoutSpace (l : Word) : BitVec 2 := field l 62 2
def layoutDom (l : Word) : BitVec 2 := field l 60 2
/-- The swizzle as a tag: 0 none, else 8 + SWZ (R146, R284). -/
def layoutSwz (l : Word) : BitVec 4 := field l 56 4 &&& (if l.getLsbD 59 then 15#4 else 0#4)
def layoutFmt (l : Word) : BitVec 5 := field l 51 5
/-- Units per row; 0 means 4,096. -/
def layoutRowLen (l : Word) : Nat := let n := (field l 36 12).toNat; if n = 0 then 4096 else n
def layoutPitch (l : Word) : Word := (field l 0 36).signExtend 64
/-- A reserved SPACE or FMT, or a nonzero reserved field (R75, R107). -/
def layoutBad (l : Word) : Bool := layoutSpace l == 3#2 || field l 48 3 != 0#3 || decide (23#5 ≤ layoutFmt l)

/-- Address of the unit at POS (R75). -/
def Stream.addr (g : Stream) : Word :=
  g.base + (field g.pos 32 32).setWidth 64 * layoutPitch g.layout + (field g.pos 0 32).setWidth 64 * 128#64

/-- R145: the offset that a swizzle of tag `t` maps a tile store offset to. -/
def swizzle (t : BitVec 4) (off : Nat) : Nat :=
  if t.getLsbD 3 then off ^^^ ((off / 128 % 128 &&& (2 ^ (field t 0 3).toNat - 1)) * 16) else off

/-! ## Region tags (R146, R153): 2 KiB regions; domain 3 is untagged -/

namespace Work

def domTag (w : Work) (core off : Nat) : BitVec 2 := Tab.get (w.core core).domTags (off / 2048) 3#2
def swzTag (w : Work) (core off : Nat) : BitVec 4 := Tab.get (w.core core).swzTags (off / 2048) 0#4
def setDomTag (w : Work) (core off : Nat) (t : BitVec 2) : Work :=
  w.modCore core fun c => { c with domTags := if t = 3#2 then Tab.erase c.domTags (off / 2048) else Tab.set c.domTags (off / 2048) t }
def setSwzTag (w : Work) (core off : Nat) (t : BitVec 4) : Work :=
  w.modCore core fun c => { c with swzTags := if t = 0#4 then Tab.erase c.swzTags (off / 2048) else Tab.set c.swzTags (off / 2048) t }

end Work

/-! ## One use of a stream (R75) -/

/-- The checks of the layout, BASE and PITCH; the place of the unit, and its address in swizzled order. -/
def streamPlace (g : Stream) (kind : Access) : Act Place := do
  let bad : Trap := { code := cAccess, addr := g.addr }
  if layoutBad g.layout || field g.base 0 7 != 0#7 || field (layoutPitch g.layout) 0 7 != 0#7 ||
      decide (layoutRowLen g.layout ≤ (field g.pos 0 32).toNat) then trap bad
  let sp ← spaceAct (layoutSpace g.layout)
  let who := (← get).issuer
  let pl ← access (place who true sp g.addr kind)
  access (checkSpan who pl g.addr 128)
  return pl

/-- The bytes at a place within one line, uncorrectable units or not, and whether there is one (R131). -/
def readThrough (who : Issuer) (engine : Bool) (pl : Place) (addr : Word) (n : Nat) : Acc (List Byte × Bool) := fun w =>
  match pl with
  | .tile c off => (.ok (w.bytes (tileKey c off) n, (w.badUnit (tileKey c off) n).isSome), w)
  | .phys pa mt race =>
    let bad := (engine || !Work.cached mt race || !w.l1Holds who.core pa n) && (w.badUnit pa n).isSome
    let (bs, w) := w.physRead who.core who.part engine pa n mt race
    (.ok (bs, bad), w)
  | .past => (.ok (List.replicate n 0#8, false), w)
  | .view _ _ =>
    match readPlace who engine pl addr n w with
    | (.ok bs, w) => (.ok (bs, false), w)
    | (.error (.poison _), w) => (.ok (List.replicate n 0#8, true), w)
    | (.error e, w) => (.error e, w)

/-- Put the chunks of a swizzled tile store unit in order: chunk `j` of the unit lies at chunk `j XOR x` of its line. -/
def unswizzle (x : Nat) (bs : List Byte) : List Byte :=
  ((List.range 8).map fun j => (bs.drop (16 * (j ^^^ x))).take 16).flatten

/-- Where a tile store unit lies under a swizzle: its line, and the permutation of its chunks. -/
def swizzledLine (t : BitVec 4) (off : Nat) : Nat × Nat := let o := swizzle t off; (o / 128 * 128, o % 128 / 16)

/-- What a stream read checks before it touches the unit: the layout, the region's domain tag, then its swizzle tag (R75, R146, R154). -/
def streamCheck (g : Stream) : Act Place := do
  let pl ← streamPlace g .read
  let w ← get
  match pl with
  | .tile c off =>
    let dom := w.domTag c off
    let swz := w.swzTag c off
    if layoutDom g.layout ≠ 3#2 ∧ dom ≠ 3#2 ∧ dom ≠ layoutDom g.layout then trap { code := cDomain, addr := g.addr, info := dom.setWidth 64 }
    if swz ≠ layoutSwz g.layout then trap { code := cSwz, addr := g.addr, info := swz.setWidth 64 }
    return pl
  | _ => return pl

/-- Read the unit of a stream at its place: its bytes, and whether one is uncorrectable (R202). -/
def streamRead (g : Stream) (pl : Place) : Act (Line × Bool) := do
  let who := (← get).issuer
  match pl with
  | .tile c off =>
    let (at0, x) := swizzledLine (layoutSwz g.layout) off
    access (checkRace who (.tile c at0) g.addr 128 false)
    let (bs, bad) ← access (readThrough who false (.tile c at0) g.addr 128)
    modify fun w => w.noteRead (.tile c at0) 128
    return (lineOf (unswizzle x bs), bad)
  | _ =>
    access (checkRace who pl g.addr 128 false)
    let (bs, bad) ← access (readThrough who false pl g.addr 128)
    modify fun w => w.noteRead pl 128
    return (lineOf bs, bad)

/-- Write the unit of a stream; a DOM other than 0b11 tags its region (R153). -/
def streamWrite (g : Stream) (pl : Place) (l : Line) : Act Unit := do
  let w ← get
  let who := w.issuer
  match pl with
  | .tile c off =>
    let (at0, x) := swizzledLine (layoutSwz g.layout) off
    access (checkRace who (.tile c at0) g.addr 128 true)
    access (writePlace who false (.tile c at0) g.addr (unswizzle x (lineBytes l)))
    modify fun w =>
      let w := w.noteWrite (.tile c at0) 128
      if layoutDom g.layout = 3#2 then w else w.setDomTag c off (layoutDom g.layout)
  | _ =>
    access (checkRace who pl g.addr 128 true)
    access (writePlace who false pl g.addr (lineBytes l))
    modify fun w => w.noteWrite pl 128

/-- A stream `n` uses on. -/
def Stream.after (g : Stream) (n : Nat) : Stream := { g with pos := Work.advanceMany g.layout n g.pos }

/-- The slot has used a stream `n` times: the position lands one cycle later, higher slots of the bundle begin after it. -/
def Work.advanceStream (w : Work) (r : BitVec 4) (g : Stream) (n : Nat) (flags : Flags) (xtra : Word) : Work :=
  let w := w.modFocus fun f => { f with uses := Tab.set f.uses r.toNat (Tab.get f.uses r.toNat 0 + n) }
  w.put { kind := .gPos, reg := r.toNat, value := (g.after n).pos.setWidth 1024, lat := 1, flags := flags, xtra := xtra }

/-- Read `n` units of a stream, lowest first, and advance it; whether one was uncorrectable. KTSOA takes the first that is out of range
(R165). Every unit is checked before one is read: a slot that takes DOMAIN or SWZ has no effect, one that races has read the units before. -/
def streamUnits (r : BitVec 4) (g : Stream) (n : Nat) : Act (List Line × Bool) := do
  let pls ← (List.range n).mapM fun k => streamCheck (g.after k)
  let got ← ((List.range n).zip pls).mapM fun (k, pl) => do
    let h := g.after k
    let (l, bad) ← streamRead h pl
    return (l, bad, h.addr, pl)
  let (fl, ea) := firstPast (got.map fun (_, _, a, pl) => (a, pl))
  modify fun w => w.advanceStream r g n fl ea
  return (got.map (·.1), got.any (·.2.1))

/-- Write units to a stream and advance it; the units' places are checked before the first is written. TSOOR lands with `lat`. -/
def streamPut (r : BitVec 4) (g : Stream) (ls : List Line) (lat : Nat) : Act Unit := do
  let pls ← (List.range ls.length).mapM fun k => streamPlace (g.after k) .write
  let es := (List.range ls.length).zip (pls.zip ls)
  es.forM fun (k, pl, l) => streamWrite (g.after k) pl l
  let (fl, ea) := firstPast (es.map fun (k, pl, _) => ((g.after k).addr, pl))
  modify fun w => ((w.modMe fun c => { c with relPending := false }).advanceStream r g ls.length 0 0).putFlags fl ea lat

/-! ## GSET, GLDD, GADV (R421) -/

def execGset (d : BitVec 4) (b l : BitVec 6) := run fun w => w.putG d ⟨w.rdS 0 b, w.rdS 1 l, 0⟩ 1

/-- R421: 24 bytes of global memory, as an interlocked result. -/
def glddAct (d a : BitVec 4) : Act Unit := do
  let w ← get
  let ea := w.rdA 0 a
  aligned ea 32
  let parts ← (pieces ea.toNat 3 24).mapM fun (o, n) => do
    let (bs, pl) ← access (loadAt .global (ea + BitVec.ofNat 64 o) n)
    return (bs, pl)
  let bs := (parts.map (·.1)).flatten
  let t := (parts.map fun (_, pl) => loadLatency w w.focus.core pl).foldl max 1
  modify fun v => v.put { kind := .gReg, reg := d.toNat, value := BitVec.ofNat 1024 (leNat bs), lat := t, interlocked := true }

def execGldd (d a : BitVec 4) := runSlotKeep (.gldd d a) (glddAct d a)

/-- R421: COL + sN units, whole rows carried into ROW. -/
def gadvPos (layout pos n : Word) : Word :=
  let rl := layoutRowLen layout
  let t := (field pos 0 32).toNat + n.toNat
  BitVec.ofNat 32 ((field pos 32 32).toNat + t / rl) ++ BitVec.ofNat 32 (t % rl)

/-- The old stream is read, whatever uses the bundle's other slots make of it (R421). -/
def execGadv (d : BitVec 4) (n : BitVec 6) := run fun w =>
  let g := w.me.gReg d
  w.putG d { g with pos := gadvPos g.layout g.pos (w.rdS 1 n) } 1

end Sys2Proof.Machine
end

