-- ==== Sys2Proof/Machine/Tile.lean ====
section
/-! DEFINITION. Tile objects under refinement (12_refinement R241 to R254, 23_ref R449, R450, 24_ref R463, R478): the header's state word,
publishing, settling, pins, waiting for a version, and re-firing consumers. -/
namespace Sys2Proof.Machine

/-! ## The header (R242) -/

/-- A word with a field replaced. -/
def setField (w : Word) (lo n x : Nat) : Word :=
  let m : Word := BitVec.ofNat 64 ((2 ^ n - 1) * 2 ^ lo)
  (w &&& ~~~m) ||| (BitVec.ofNat 64 (x * 2 ^ lo) &&& m)

/-- Fields of the state word. -/
def stVer (w : Word) : Nat := (field w 0 4).toNat
def stSlot (w : Word) : Nat := (field w 8 1).toNat
def stOpen (w : Word) : Bool := w.getLsbD 10
def stPin (w : Word) (slot : Nat) : Nat := (field w (32 + 8 * slot) 8).toNat
def stProducer (w : Word) : Nat := (field w 51 13).toNat
/-- Reserved fields. -/
def stBad (w : Word) : Bool :=
  field w 4 4 != 0#4 || w.getLsbD 9 || field w 12 4 != 0#4 || field w 18 6 != 0#6 || field w 48 3 != 0#3

/-- A registration: enabled, policy (0 RESTART, 1 FOLLOW, 2 KEEP), reach tag, iteration. -/
structure Registration where
  en : Bool
  policy : Nat
  rtag : Nat
  iter : Nat
  deriving DecidableEq, Repr

/-- Registration `i` of header bytes. -/
def regOf (bs : List Byte) (i : Nat) : Registration :=
  let x : BitVec 48 := BitVec.ofNat 48 (leNat ((bs.drop (40 + 6 * i)).take 6))
  ⟨x.getLsbD 47, (field x 45 2).toNat, (field x 32 13).toNat, (field x 0 32).toNat⟩

/-- The 48 bits of a registration. -/
def Registration.bytes (r : Registration) : List Byte := leBytes 6 (r.en.toNat * 2 ^ 47 + r.policy * 2 ^ 45 + r.rtag * 2 ^ 32 + r.iter)

/-- Has the instance been placed and not ended? -/
def Inst.live (i : Inst) : Bool := i.st == .loading || i.st == .running || i.st == .freezing || i.st == .frozen

namespace Work

/-- State word, registrations and payload addresses of a header at its home slice. -/
def headerBytes (w : Work) (part pa : Nat) : List Byte × Work := w.homeRead part pa 64
def headerState (bs : List Byte) : Word := wordOf (bs.drop 24 |>.take 8)

/-- Write the state word; with `stamp` the timestamp beside it. A tile that settles here has not settled at a deadline. -/
def putState (w : Work) (part pa : Nat) (new : Word) (stamp : Bool) : Work :=
  let w := if stVer new = 15 ∧ (w.part part).late.contains pa then w.modPart part fun p => { p with late := p.late.filter (· != pa) } else w
  w.homeWrite part (pa + 24) (leBytes 8 new.toNat ++ if stamp then leBytes 8 w.ns else [])

/-! ## Re-firing (R249) -/

/-- Course and reach that a tag names. -/
def reachOfTag (w : Work) (part tag : Nat) : Option (Nat × Nat) :=
  (w.part part).courses.findSome? fun c => (c.reaches.findIdx? fun r => r.tag == tag).map fun r => (c.seq, r)

/-- Queue an iteration again, once; not past the reach's deadline, at which R276 has cancelled what is queued. -/
def requeue (w : Work) (part seq r iter : Nat) : Work :=
  w.modReach part seq r fun x => if x.passed || x.complete || x.reruns.contains iter then x else { x with reruns := x.reruns ++ [iter] }

/-- What a published version does to one registration's iteration. -/
def refire (w : Work) (part : Nat) (g : Registration) : Work :=
  if !g.en || decide (2 ≤ g.policy) then w
  else
    match w.reachOfTag part g.rtag with
    | none => w
    | some (seq, r) =>
      match w.insts.find? fun i => i.part == part && i.course == seq && i.reach == r && i.iter == g.iter && i.live with
      | some i => if g.policy = 0 then w.killInst i.id true else w.modInst i.id fun i => { i with follow := true }
      | none =>
        match w.reach? part seq r with
        | some x => if x.done.contains g.iter then w.requeue part seq r g.iter else w
        | none => w

/-- All registrations of a header. -/
def refireAll (w : Work) (part : Nat) (bs : List Byte) : Work :=
  (List.range 4).foldl (fun w i => w.refire part (regOf bs i)) w

/-! ## Settling by the scheduler (R252) -/

/-- The state word after `settle` (R247). -/
def settledState (st : Word) : Word :=
  let st := if stVer st = 0 then setField st 11 1 1 else st
  setField (setField st 10 1 0) 0 4 15

/-- Settle as the scheduler does: the release clock is the partition's race clock (DEDUCED, log entry 21). -/
def settleTile (w : Work) (part pa : Nat) : Work :=
  let (bs, w) := w.headerBytes part pa
  let st := headerState bs
  if stVer st = 15 then w
  else
    let w := w.raiseS part (.phys pa 1#2 false) (BitVec.ofNat 32 (w.part part).raceClock)
    w.putState part pa (settledState st) true

end Work

/-! ## The instructions' header checks (R241, R243) -/

/-- The physical address and bytes of the header at a virtual address. -/
def headerAct (addr : Word) (write : Bool) : Act (Nat × List Byte) := do
  aligned addr 64
  let who := (← get).issuer
  let mut pl ← access (place who true .global addr .read)
  if write then pl ← access (place who true .global addr .write)
  match pl with
  | .phys pa mt _ =>
    if 2#2 ≤ mt then trap { code := cAccess, addr := addr }
    access (checkUnits addr pa 64)
    modify fun w => w.flushLine who.part who.core (pa / 128)
    let bs ← modifyGet fun w => w.headerBytes who.part pa
    if stBad (Work.headerState bs) || (List.range 4).any (fun i => (regOf bs i).policy == 3) then trap { code := cAccess, addr := addr }
    return (pa, bs)
  | _ => trap { code := cAccess, addr := addr }

/-- A header's line as a place. -/
def headerPlace (pa : Nat) : Place := .phys pa 1#2 false

/-- Tag of the issuing rill's reach. -/
def Work.myTag (w : Work) : Nat :=
  match w.myInst? with
  | some i => ((w.reach? i.part i.course i.reach).map (·.tag)).getD 0
  | none => 0

/-- One PUB.close or SETTLE.PUB more in the reach's record (R450). -/
def Work.countVersion (w : Work) : Work :=
  match w.myInst? with
  | some i => w.modReach i.part i.course i.reach fun r => { r with counts := { r.counts with versions := r.counts.versions + 1 } }
  | none => w

/-- Latency of an interlocked result read at a home slice. -/
def homeLatency (w : Work) (pa : Nat) : Nat := Config.latL2 (dieHops (w.focus.core / 32) (homeDie pa))

/-! ## PUB.open (R245, R450) -/

/-- Does an instance hold a pin? -/
def Inst.holds (i : Inst) (pa slot : Nat) : Bool := i.pins.any fun p => p.header == pa && p.slot == slot

/-- Stop the RESTART consumers that pin a slot (R245, R250). -/
def Work.stopPinners (w : Work) (part pa slot : Nat) (bs : List Byte) : Work :=
  let tags := ((List.range 4).map (regOf bs)).filter (fun g => g.en && g.policy == 0) |>.map (·.rtag)
  (w.insts.filter fun i => i.part == part && i.live && i.holds pa slot).foldl (fun w i =>
    match w.reach? i.part i.course i.reach with
    | some r => if tags.contains r.tag then w.killInst i.id true else w
    | none => w) w

def pubOpenAct (d : BitVec 6) (a : BitVec 4) : Act Unit := do
  let addr := (← get).rdA 0 a
  let (pa, bs) ← headerAct addr true
  let st := Work.headerState bs
  if stVer st = 15 ∨ stOpen st then trap { code := cVerOrd, addr := addr, info := st }
  let ds := 1 - stSlot st
  let w ← get
  if stPin st ds ≠ 0 ∧ (w.myInst?.map fun i => i.holds pa ds) = some true then trap { code := cPinFault, addr := addr }
  if stPin st ds ≠ 0 then modify fun w => w.stopPinners w.myPart pa ds bs
  let (bs, w) := (← get).headerBytes w.myPart pa
  set w
  let st := Work.headerState bs
  if stPin st ds ≠ 0 then modify fun w => w.block (.pinned pa ds (BitVec.ofNat 8 (stPin st ds)) false)
  else
    modify fun w =>
      let part := w.myPart
      let w := w.putState part pa (setField (setField st 10 1 1) 51 13 w.myTag) false
      let w := w.acquire (w.sStamp part (headerPlace pa))
      (w.put { kind := .sReg, reg := d.toNat, value := BitVec.ofNat 1024 (leNat (bs.drop (8 + 8 * ds) |>.take 8)),
               lat := homeLatency w pa, interlocked := true }).publish

def execPubOpen (d : BitVec 6) (a : BitVec 4) := runSlot (.pubOpen d a) (pubOpenAct d a)

/-! ## PUB.close, SETTLE (R246, R247, R450) -/

/-- Publish the open slot as version `ver`. -/
def Work.publishVersion (w : Work) (pa : Nat) (bs : List Byte) (st : Word) (pl : BitVec 2) (ver : Nat) : Work :=
  let part := w.myPart
  let w := w.release
  let new := setField (setField (setField (setField (setField st 0 4 ver) 8 1 (1 - stSlot st)) 10 1 0) 16 2 pl.toNat) 24 8
    (min ((field st 24 8).toNat + 1) 255)
  let w := (w.raiseS part (headerPlace pa) w.me.kclk).putState part pa new true
  (w.countVersion.publish).refireAll part bs

def pubCloseAct (a : BitVec 4) (pl : BitVec 2) (final : Bool) : Act Unit := do
  let w ← get
  let addr := w.rdA 0 a
  let (pa, bs) ← headerAct addr true
  let st := Work.headerState bs
  if !stOpen st || decide ((if final then 15 else 14) ≤ stVer st) || stProducer st != w.myTag then
    trap { code := cVerOrd, addr := addr, info := st }
  modify fun w => w.publishVersion pa bs st pl (if final then 15 else stVer st + 1)

def execPubClose (a : BitVec 4) (l : BitVec 2) := runSlot (.pubClose a l) (pubCloseAct a l false)
def execSettlePub (a : BitVec 4) (l : BitVec 2) := runSlot (.settlePub a l) (pubCloseAct a l true)

def settleAct (a : BitVec 4) : Act Unit := do
  let addr := (← get).rdA 0 a
  let (pa, bs) ← headerAct addr true
  let st := Work.headerState bs
  modify fun w =>
    let part := w.myPart
    let w := w.release
    let w := w.raiseS part (headerPlace pa) w.me.kclk
    (if stVer st = 15 then w else w.putState part pa (Work.settledState st) true).publish

def execSettle (a : BitVec 4) := runSlot (.settle a) (settleAct a)

/-! ## PIN, UNPIN, VWAIT (R248) -/

def pinAct (d : BitVec 6) (a : BitVec 4) : Act Unit := do
  let addr := (← get).rdA 0 a
  let (pa, bs) ← headerAct addr true
  let st := Work.headerState bs
  let slot := stSlot st
  let w ← get
  if stVer st = 0 then trap { code := cVerOrd, addr := addr, info := st }
  if decide (8 ≤ ((w.myInst?.map (·.pins.length)).getD 0)) || stPin st slot == 255 then trap { code := cPinFault, addr := addr }
  modify fun w =>
    let part := w.myPart
    let new := setField st (32 + 8 * slot) 8 (stPin st slot + 1)
    let w := w.putState part pa new false
    let w := w.modInst w.me.inst fun i => { i with pins := i.pins ++ [⟨pa, slot⟩] }
    let w := w.acquire (w.sStamp part (headerPlace pa))
    w.put { kind := .sReg, reg := d.toNat, value := new.setWidth 1024, lat := homeLatency w pa, interlocked := true }

def execPin (d : BitVec 6) (a : BitVec 4) := runSlot (.pin d a) (pinAct d a)

def unpinAct (v : BitVec 6) (a : BitVec 4) : Act Unit := do
  let w ← get
  let addr := w.rdA 0 a
  let slot := if (w.rdS 1 v).getLsbD 8 then 1 else 0
  let (pa, _) ← headerAct addr true
  if (w.myInst?.map fun i => i.holds pa slot) ≠ some true then trap { code := cPinFault, addr := addr }
  modify fun w =>
    let w := w.release
    let w := w.releasePin w.myPart w.me.kclk ⟨pa, slot⟩
    w.modInst w.me.inst fun i => { i with pins := i.pins.erase ⟨pa, slot⟩ }

def execUnpin (v : BitVec 6) (a : BitVec 4) := runSlot (.unpin v a) (unpinAct v a)

/-- sV with bits 63:4 set takes ILLOP before issue (R478, Machine/Checks.lean). -/
def vwaitAct (a : BitVec 4) (v : BitVec 6) : Act Unit := do
  let w ← get
  let addr := w.rdA 0 a
  let (pa, bs) ← headerAct addr false
  if (field (w.rdS 1 v) 0 4).toNat ≤ stVer (Work.headerState bs) then modify fun w => w.acquire (w.sStamp w.myPart (headerPlace pa))
  else modify fun w => w.block (.version pa (field (w.rdS 1 v) 0 4).toNat)

def execVwait (a : BitVec 4) (v : BitVec 6) := runSlot (.vwait a v) (vwaitAct a v)

end Sys2Proof.Machine
end

