-- ==== Sys2Proof/Machine/Flow.lean ====
section
/-! DEFINITION. FLOW slots that act on rills, flumes, lists and reach queues: SPAWN (02_execution R43, R49, 24_ref R456), the flume instructions
(23_ref R416 to R418), ENQ (13_scheduler R257, R269, 23_ref R408 to R410), DEPDEC (R277, 22_ref R403). -/
namespace Sys2Proof.Machine

/-! ## How a rill starts (R49, R79, R200) -/

/-- Fields of a kernel object header (25_ref R483): a word, CHK, RM, SEED. -/
def Reach.kword (r : Reach) (k : Nat) : Word := field r.kernel (8 * k) 64
def Reach.kchk (r : Reach) : Bool := r.kernel.getLsbD 320
def Reach.krm (r : Reach) : BitVec 3 := field r.kernel 322 3
def Reach.kseed (r : Reach) : BitVec 32 := field r.kernel 352 32
/-- A field of a reach record (R260). -/
def Reach.rword (r : Reach) (k : Nat) : Word := field r.record (8 * k) 64
/-- BUDGET. -/
def Reach.budget (r : Reach) : Nat := (r.rword 24).toNat

/-- KID (R79). -/
def kidWord (seq reach : Nat) (inst : BitVec 32) (core bcore ctx rill : Nat) : Word :=
  BitVec.ofNat 8 seq ++ BitVec.ofNat 8 reach ++ inst ++ BitVec.ofNat 8 core ++ BitVec.ofNat 2 bcore ++ BitVec.ofNat 2 ctx ++ BitVec.ofNat 4 rill

namespace Work

/-- The next rill serial of a partition: 24 bits, 0 never assigned (R200). -/
def takeRser (w : Work) (part : Nat) : BitVec 24 × Work :=
  let n := (w.part part).rserNext
  (BitVec.ofNat 24 n, w.modPart part fun p => { p with rserNext := if n + 1 < 2 ^ 24 then n + 1 else 1 })

/-- A context takes a rill of an instance; its code address is checked as a branch target's (R84). -/
def startRill (w : Work) (i : Inst) (core ctx rill : Nat) (regs : List (Nat × Word)) (streams : Vector Stream 16) (entry : Word)
    (clk : BitVec 32) : Work :=
  let p := w.part i.part
  match w.reach? i.part i.course i.reach with
  | none => w
  | some r =>
    let (rser, w) := w.takeRser i.part
    let seed := r.kseed
    w.modCtx core ctx fun _ => { Ctx.reset with
      st := .ready
      inst := i.id
      rill := rill
      s := regs.foldl (fun s (k, v) => setNth s k v) (.replicate 64 0)
      g := streams
      pc := entry
      tgtFrom := some 0
      kstat := if r.kchk then 2 else 0
      kframe := p.kframe
      kvec := p.kvec
      kdead := BitVec.ofNat 64 r.deadline
      kest := BitVec.ofNat 64 r.budget
      ktok := BitVec.ofNat 64 i.tokens
      krnd := seed ++ 0#29 ++ r.krm
      kclk := clk
      kid := kidWord i.course i.reach i.number core ((i.cores.idxOf? core).getD 0) ctx rill
      gen := seedState seed
      rser := rser
      readyAt := w.cycle }

end Work

/-! ## SPAWN (R43) -/

def spawnAct (c : BitVec 2) (e : BitVec 6) (m : BitVec 4) (f : BitVec 6) : Act Unit := do
  let w ← get
  match w.myInst? with
  | none => return ()
  | some i =>
    let core := w.focus.core
    if (w.ctx core c.toNat).st ≠ .idle then trap { code := cSpawnBusy, info := c.setWidth 64 }
    if 16 ≤ i.rills.length then trap { code := cSpawnFull }
    let entry := w.rdS 0 e
    -- the frame holds no operands past OP3: a replayed SPAWN reads its later arguments from the bank (log entry 22)
    let args := (List.range m.toNat).map fun k =>
      (k + 1, if k < 3 then w.rdS (k + 1) (f + BitVec.ofNat 6 k) else w.me.sReg (f + BitVec.ofNat 6 k))
    let num := i.rills.length
    modify fun w =>
      let w := w.release
      let w := w.modInst i.id fun i => { i with rills := i.rills ++ [⟨core, c.toNat, false, 0, false⟩] }
      let w := w.startRill i core c.toNat num args i.streams entry (Work.clockNext w.me.kclk.toNat)
      -- the sibling is ready from the next cycle on
      (w.modCtx core c.toNat fun x => { x with readyAt := w.cycle + 1 }).dropClean core fun _ => true

def execSpawn (c : BitVec 2) (e : BitVec 6) (m : BitVec 4) (f : BitVec 6) := runSlot (.spawn c e m f) (spawnAct c e m f)

/-! ## Flumes (R414, R416, R418) -/

/-- A flume descriptor: where it lies, BASE, LOG2N, PUT, TAKE. -/
structure Flume where
  core : Nat
  off : Nat
  base : Nat
  size : Nat
  puts : BitVec 32
  takes : BitVec 32

/-- Entries present. -/
def Flume.count (f : Flume) : Nat := (f.puts - f.takes).toNat

/-- The key of an entry. -/
def Flume.entry (f : Flume) (i : BitVec 32) : Nat := tileKey f.core (f.base + 128 * (i.toNat % f.size))

/-- The 64 bytes of a flume descriptor at an offset of a core's tile store. -/
def Work.flumeBits (w : Work) (core off : Nat) : BitVec 512 := BitVec.ofNat 512 (leNat (w.bytes (tileKey core off) 64))

/-- What a flume descriptor says. -/
def flumeOf (core off : Nat) (d : BitVec 512) : Flume :=
  ⟨core, off, (field d 0 21).toNat, 2 ^ (field d 32 5).toNat, field d 64 32, field d 128 32⟩

/-- R416: a reserved field, a size or a place out of range, a base off 128 bytes, or more entries than fit. -/
def flumeBad (f : Flume) (d : BitVec 512) : Bool :=
  field d 21 11 != 0#11 || field d 37 27 != 0#27 || field d 96 32 != 0#32 || field d 160 352 != 0#352 || decide (12 < (field d 32 5).toNat) ||
  f.base % 128 != 0 || decide (0x200000 < f.base + 128 * f.size) || decide (f.size < f.count)

/-- The flume whose descriptor lies at a place, with R416's checks. -/
def flumeIn (pl : Place) (addr : Word) : Acc Flume := do
  if addr.toNat % 64 ≠ 0 then throw (.access addr)
  match pl with
  | .tile c off =>
    checkUnits addr (tileKey c off) 64
    let d := (← get).flumeBits c off
    let f := flumeOf c off d
    if flumeBad f d then throw (.access addr) else return f
  | _ => throw (.access addr)

/-- The flume at a cluster-space address. -/
def flumeAt (who : Issuer) (addr : Word) : Acc Flume := do
  if addr.toNat % 64 ≠ 0 then throw (.access addr)
  flumeIn (← place who true .cluster addr .read) addr

/-- The descriptor's line as a place. -/
def Flume.line (f : Flume) : Place := .tile f.core f.off

namespace Work

/-- Append an entry. -/
def flumePut (w : Work) (f : Flume) (bs : List Byte) : Work :=
  let w := w.write (f.entry f.puts) bs
  w.write (tileKey f.core (f.off + 8)) (leBytes 4 (f.puts + 1).toNat)

/-- Advance TAKE. -/
def flumeTake (w : Work) (f : Flume) (n : Nat) : Work :=
  w.write (tileKey f.core (f.off + 16)) (leBytes 4 (f.takes + BitVec.ofNat 32 n).toNat)

end Work

def flputAct (v : BitVec 5) (a : BitVec 4) : Act Unit := do
  let w ← get
  let f ← access (flumeAt w.issuer (w.rdA 0 a))
  if f.count = f.size then modify fun w => w.block (.flumeRoom f.core f.off)
  else modify fun w =>
    let w := w.release
    (w.raiseS w.myPart f.line w.me.kclk).flumePut f (lineBytes (w.rdV 1 v))

def execFlput (v : BitVec 5) (f : BitVec 4) := runSlot (.flput v f) (flputAct v f)

def flgetAct (v : BitVec 5) (a : BitVec 4) : Act Unit := do
  let w ← get
  let addr := w.rdA 0 a
  let f ← access (flumeAt w.issuer addr)
  if f.count = 0 then modify fun w => w.block (.flumeEntries f.core f.off 1)
  else
    access (checkUnits addr (f.entry f.takes) 128)
    modify fun w =>
      let l := lineOf (w.bytes (f.entry f.takes) 128)
      ((w.flumeTake f 1).acquire (w.sStamp w.myPart f.line)).putV v l 5

def execFlget (v : BitVec 5) (f : BitVec 4) := runSlot (.flget v f) (flgetAct v f)

def flwaitAct (a : BitVec 4) (n : BitVec 6) : Act Unit := do
  let w ← get
  let addr := w.rdA 0 a
  let k := (w.rdS 1 n).toNat
  let f ← access (flumeAt w.issuer addr)
  if f.size < k then trap { code := cAccess, addr := addr }
  if f.count < k then modify fun w => w.block (.flumeEntries f.core f.off k)
  else modify fun w => w.acquire (w.sStamp w.myPart f.line)

def execFlwait (f : BitVec 4) (n : BitVec 6) := runSlot (.flwait f n) (flwaitAct f n)

def fldropAct (a : BitVec 4) (n : BitVec 6) : Act Unit := do
  let w ← get
  let f ← access (flumeAt w.issuer (w.rdA 0 a))
  let k := min (w.rdS 1 n).toNat f.count
  modify fun w =>
    let w := w.release
    let w := (w.raiseS w.myPart f.line w.me.kclk).flumeTake f k
    w.acquire (w.sStamp w.myPart f.line)

def execFldrop (f : BitVec 4) (n : BitVec 6) := runSlot (.fldrop f n) (fldropAct f n)

/-! ## Reach queues (R256, R257, R409) -/

/-- A reach queue descriptor: where it lies, QADDR, LOG2N, PROD, CONS, whether it is disabled. -/
structure QueueDesc where
  pa : Nat
  qaddr : Word
  logn : Nat
  prod : BitVec 32
  cons : BitVec 32
  disabled : Bool

def queueDesc (pa : Nat) (bs : List Byte) : QueueDesc :=
  let d : BitVec 256 := BitVec.ofNat 256 (leNat bs)
  let logn := (field d 64 5).toNat
  ⟨pa, field d 0 64, logn, field d 96 32, field d 128 32,
    field d 69 27 != 0#27 || field d 160 96 != 0#96 || logn == 0 || decide (16 < logn)⟩

/-- Address and phase of slot `i`. -/
def QueueDesc.slot (q : QueueDesc) (i : BitVec 32) : Word := q.qaddr + BitVec.ofNat 64 (128 * (i.toNat % 2 ^ q.logn))
def QueueDesc.phase (q : QueueDesc) (i : BitVec 32) : Bool := i.getLsbD q.logn

/-- A course header with its PH bit (R258). -/
def withPhase (bs : List Byte) (ph : Bool) : List Byte :=
  bs.set 8 ((bs.getD 8 0#8 &&& 0xFE#8) ||| (if ph then 1 else 0))

def enqCAct (h : BitVec 4) (q : BitVec 6) : Act Unit := do
  let w ← get
  let who := w.issuer
  let ah := w.rdA 0 h
  let n := w.rdS 1 q
  if field n 4 60 ≠ 0#60 ∨ ah.toNat % 128 ≠ 0 then trap { code := cAccess, addr := ah }
  let pa := (w.part who.part).qbase + 32 * n.toNat
  access (checkUnits (BitVec.ofNat 64 pa) pa 32)
  let bs ← modifyGet fun w => w.homeRead who.part pa 32
  let d := queueDesc pa bs
  if d.disabled then trap { code := cAccess, addr := ah }
  if (d.prod - d.cons).toNat = 2 ^ d.logn then modify fun w => w.block (.ring pa)
  else
    let slot := d.slot d.prod
    let pl ← access (place who true .global slot .write)
    let (img, _) ← access (loadAt .global ah 128)
    modify fun w => w.release
    modify fun w => w.homeWrite who.part (pa + 12) (leBytes 4 (d.prod + 1).toNat)
    let _ ← access (homeStore .global slot (withPhase img (d.phase d.prod)))
    modify fun w => ((w.raiseS who.part pl w.me.kclk 128).publish).sample 3 (n.setWidth 16) (d.prod + 1 - d.cons).toNat

def execEnqC (l : BitVec 4) (q : BitVec 6) := runSlot (.enqC l q) (enqCAct l q)

/-! ## Lists (R268, R269, R410) -/

/-- A list descriptor. -/
structure ListDesc where
  rbase : Word
  logn : Nat
  startmin : BitVec 32
  arrived : BitVec 32
  retired : BitVec 32
  closed : Bool
  bad : Bool

def listDesc (bs : List Byte) : ListDesc :=
  let d : BitVec 512 := BitVec.ofNat 512 (leNat bs)
  let logn := (field d 64 5).toNat
  ⟨field d 0 64, logn, field d 96 32, field d 128 32, field d 160 32, d.getLsbD 192,
    field d 69 27 != 0#27 || field d 193 31 != 0#31 || field d 224 288 != 0#288 || decide (logn < 2) || decide (20 < logn)⟩

/-- Address of record `i`. -/
def ListDesc.record (l : ListDesc) (i : Nat) : Word := l.rbase + BitVec.ofNat 64 (32 * (i % 2 ^ l.logn))

/-- Does a tile record break R237? -/
def recordBad (bs : List Byte) : Bool :=
  let x := wordOf (bs.drop 16 |>.take 8)
  field x 18 14 != 0#14 || field x 12 6 == 0#6 || decide (32 < (field x 12 6).toNat)

/-- The list descriptor at aL, read at its home slice. -/
def listAt (al : Word) : Act (ListDesc × Place) := do
  let who := (← get).issuer
  let _ ← access (place who true .global al .write)
  let (bs, pl) ← access (homeLoad .global al 64)
  let l := listDesc bs
  if l.bad then trap { code := cAccess, addr := al }
  return (l, pl)

/-- LDESC of a reach (R260); KIND 1 is LISTED. -/
def Reach.kind (r : Reach) : BitVec 2 := field r.record 126 2
def Reach.ldesc (r : Reach) : Word := r.rword 72

/-- BADREC counts in the reach that the list belongs to, else in the issuing one (R410). -/
def Work.countBadRec (w : Work) (al : Word) : Work :=
  let part := w.myPart
  let owner := (w.part part).courses.findSome? fun c =>
    (c.reaches.findIdx? fun r => r.kind == 1#2 && r.ldesc == al && !r.complete).map fun r => (c.seq, r)
  match owner with
  | some (seq, r) => w.countFault part seq r 6 3
  | none => match w.myInst? with
    | some i => w.countFault part i.course i.reach 6 3
    | none => w

def enqRAct (p l r : BitVec 4) : Act Unit := do
  let w ← get
  let al := w.rdA 0 l
  let ar := w.rdA 1 r
  aligned al 64
  aligned ar 32
  let (d, pl) ← listAt al
  -- every form is a release and an action that KILL may not undo, whether it appends or not (R408)
  if d.closed then modify fun w => (w.release.putP p false 1).publish
  else
    let (bs, _) ← access (loadAt .global ar 32)
    if recordBad bs then modify fun w => ((w.release.putP p false 1).countBadRec al).publish
    else if (d.arrived - d.retired).toNat = 2 ^ d.logn then
      match pl with
      | .phys pa _ _ => modify fun w => w.block (.list pa)
      | .view n off => modify fun w => w.block (.viewList w.myPart n off)
      | _ => pure ()
    else
      let who := w.issuer
      let slot := d.record d.arrived.toNat
      match ← access (place who true .global slot .write) with
      | .phys pa _ _ => access (checkUnits slot pa 32)
      | pl => let _ ← access (readPlace who false pl slot 32)
      modify fun w => w.release
      let _ ← access (homeStore .global slot bs)
      let pl ← access (homeStore .global (al + 16#64) (leBytes 4 (d.arrived + 1).toNat))
      modify fun w => ((w.raiseS who.part pl w.me.kclk 4).putP p true 1).publish

def execEnqR (p l r : BitVec 4) := runSlot (.enqR p l r) (enqRAct p l r)

def enqXAct (l : BitVec 4) : Act Unit := do
  let w ← get
  let al := w.rdA 0 l
  aligned al 64
  let _ ← listAt al
  modify fun w => w.release
  let pl ← access (homeStore .global (al + 24#64) [1#8])
  modify fun w => (w.raiseS w.myPart pl w.me.kclk 1).publish

def execEnqX (l : BitVec 4) := runSlot (.enqX l) (enqXAct l)

/-! ## Dependence counters (R277, R403) -/

/-- One decrement of a reach's counter; one that finds it at 0 sets DEPUF and counts a fault there. -/
def Work.decrement (w : Work) (part seq r : Nat) : Work :=
  match w.reach? part seq r with
  | none => w
  | some x =>
    if x.counter = 0 then
      (w.countFault part seq r 6 2).modReach part seq r fun x => { x with counts := { x.counts with depuf := true } }
    else w.modReach part seq r fun x => { x with counter := x.counter - 1 }

/-- DEPDEC; with an underflow the release and the count stand, and the rill takes DEPUF. -/
def depdecAct (idx : Word) : Act Unit := do
  let w ← get
  match w.myInst? with
  | none => return ()
  | some i =>
    let n := ((w.course? i.part i.course).map (·.reaches.length)).getD 0
    if n ≤ idx.toNat then trap { code := cAccess, addr := ← openWord }
    let under := ((w.reach? i.part i.course idx.toNat).map (·.counter)) == some 0
    modify fun w =>
      let w := w.release.publish
      -- a rill placed later starts after the release (R194, R204)
      (w.modPart i.part fun p => { p with raceClock := max p.raceClock (Work.clockNext w.me.kclk.toNat).toNat }).decrement i.part i.course idx.toNat
    if under then trap { code := cDepUf, info := idx }

def execDepdec (i : BitVec 8) := runSlotKeep (.depdec i) (depdecAct (i.setWidth 64))
def execDepdecS (x : BitVec 6) := runSlotKeep (.depdecS x) (do depdecAct ((← get).rdS 0 x))

/-! ## Waking (R28, R29): a blocked context whose condition has come to hold is ready again -/

namespace Work

/-- Does a wait's condition hold? A handle's transitions and barrier episodes wake their own waiters; the writes at a home slice have noted the waits
that they end (Work.noteWaits). -/
def waitOver (w : Work) (core : Nat) : BlockReason → Bool
  | .queue q => !w.queueFull core q
  | .qfence m => (List.range 8).all fun q => m / 2 ^ q % 2 == 0 || !w.queueFull core q
  | .flumeRoom c off => let f := flumeOf c off (w.flumeBits c off); f.count != f.size
  | .flumeEntries c off n => decide (n ≤ (flumeOf c off (w.flumeBits c off)).count)
  | .version h v => decide (v ≤ stVer (w.word (h + 24)))
  | .memWord _ _ seen | .viewWord _ _ _ _ seen | .pinned _ _ _ seen => seen
  | .viewList p n off => match w.viewNow p n off 64 with
    | some bs => let l := listDesc bs; l.closed || (l.arrived - l.retired).toNat != 2 ^ l.logn
    | none => false
  | .ring pa => let d := queueDesc pa (w.bytes pa 32); (d.prod - d.cons).toNat != 2 ^ d.logn
  | .list pa => let l := listDesc (w.bytes pa 64); l.closed || (l.arrived - l.retired).toNat != 2 ^ l.logn
  | _ => false

/-- Wake every context whose wait is over; an MWAIT acquires the stamp its word's line has now (R448). -/
def wakeWaits (w : Work) : Work :=
  w.coreNumbers.foldl (fun w n => (List.range 4).foldl (fun w i =>
    match (w.ctx n i).block with
    | none => w
    | some b =>
      if (w.ctx n i).st = .blocked && w.waitOver n b then
        match b with
        | .memWord a _ _ => (w.wakeCtx n i).modCtx n i fun c => { c with woken := some (w.l2Stamps 0 (a / 128)).s }
        | .viewWord p a off _ _ => (w.wakeCtx n i).modCtx n i fun c => { c with woken := some (w.sStamp p (.view a off)) }
        | _ => w.wakeCtx n i
      else w) w) w

end Work

end Sys2Proof.Machine
end

