-- ==== Sys2Proof/Machine/Sched.lean ====
section
/-! DEFINITION. What the scheduler's steps share (13_scheduler, 14_traps R296 to R304): its accesses, reach records and kernel headers,
iterations, readiness, fitting, completion records, freezing. The steps themselves are in Machine/Course.lean. -/
namespace Sys2Proof.Machine

/-! ## The scheduler's accesses: supervisor mode, no stamps; core 128 has no caches -/

def schedWho (part : Nat) : Issuer := { Issuer.nobody with part := part, core := 128, super := true, helper := true }

/-- Read bytes for a partition. Flash answers only handles and copy engines (R20). -/
def schedRead (part : Nat) (va : Word) (n : Nat) : Acc (List Byte) := do
  let parts ← (pieces va.toNat (n / 128 + 2) n).mapM fun (o, l) => do
    let a := va + BitVec.ofNat 64 o
    let pl ← place (schedWho part) false .global a .read
    match pl with
    | .phys pa _ _ => if isFlash pa then throw (.access a)
    | _ => pure ()
    readPlace (schedWho part) true pl a l
  return parts.flatten

/-- Write bytes within a line as a release at package scope; a HOST page's are cleaned at SYS (R281). Flash takes none. -/
def schedWrite (part : Nat) (va : Word) (bs : List Byte) : Acc Unit := do
  let who := schedWho part
  let pl ← place who false .global va .write
  match pl with
  | .phys pa _ _ =>
    if isFlash pa then throw (.access va)
    checkUnits va pa bs.length
  | _ => pure ()
  writePlace who true pl va bs
  modify fun w =>
    let w := w.raiseS part pl (BitVec.ofNat 32 (w.part part).raceClock) bs.length
    match pl with
    | .phys pa _ _ => if isHost pa then w.cleanHost (pa / 128) else w
    | _ => w

namespace Work

/-- Run an access: its value, if it succeeded. -/
def attempt {α : Type} (w : Work) (m : Acc α) : Option α × Work :=
  match m w with
  | (.ok a, w) => (some a, w)
  | (.error _, w) => (none, w)

/-- One of a list, as the implementation chooses (log entry 2). -/
def pick {α : Type} (w : Work) (xs : List α) : Option α × Work :=
  match xs with
  | [] => (none, w)
  | [x] => (some x, w)
  | _ => let (k, w) := w.free; (xs[k % xs.length]?, w)

end Work

/-! ## Reach records and kernel headers (R260, R483) -/

namespace Reach

def rbits (r : Reach) (lo n : Nat) : Nat := (field r.record lo n).toNat
def kobj (r : Reach) : Word := r.rword 0
def pre (r : Reach) : Bool := r.record.getLsbD 125
def killable (r : Reach) : Bool := r.record.getLsbD 124
def nlev (r : Reach) : Nat := r.rbits 120 3
/-- Level at position `p` of the enumeration. -/
def order (r : Reach) (p : Nat) : Nat := r.rbits (102 + 3 * p) 3
/-- Braid cores C and rills n. -/
def cores (r : Reach) : Nat := r.rbits 100 2 + 1
def rills (r : Reach) : Nat := r.rbits 96 4 + 1
def killLim (r : Reach) : Nat := r.rbits 256 32
def drainLim (r : Reach) : Nat := r.rbits 288 32
def grace (r : Reach) : Nat := r.rbits 320 32
/-- The enabled successors. -/
def succs (r : Reach) : List Nat := ((List.range 4).filter fun i => r.record.getLsbD (1280 + i)).map fun i => r.rbits (352 + 8 * i) 8
def crec (r : Reach) : Word := r.rword 48
def sigAddr (r : Reach) : Word := r.rword 56
def sigVal (r : Reach) : Word := r.rword 64
/-- Trip count of a DENSE level. -/
def count (r : Reach) (j : Nat) : Nat := r.rbits (576 + 32 * j) 32

/-- Iterations of a DENSE reach. -/
def total (r : Reach) : Nat := ((List.range r.nlev).map r.count).foldl (· * ·) 1

/-- Levels with their indices at an ITER: the last position varies fastest (R267). -/
def indices (r : Reach) : Nat → Nat → List (Nat × Nat)
  | 0, _ => []
  | p + 1, it => let l := r.order p; (l, it % r.count l) :: r.indices p (it / r.count l)

/-! Kernel fields. -/
def entry (r : Reach) : Word := r.kword 0
def dict (r : Reach) : Word := r.kword 8
def ltab (r : Reach) : Word := r.kword 16
def dsig (r : Reach) : Word := r.kword 24
def ndict (r : Reach) : Nat := (field r.kernel 256 13).toNat
def nloop (r : Reach) : Nat := (field r.kernel 288 7).toNat
def owner (r : Reach) : Nat := (field r.kernel 328 5).toNat
def simg (r : Reach) : Word := r.kword 48
def svalid (r : Reach) : BitVec 16 := field r.kernel 448 16
def fimg (r : Reach) : Word := r.kword 64
def nflume (r : Reach) : Nat := (field r.kernel 576 5).toNat
/-- A helper section: CODE, DATA, CLEN, DLEN, HENTRY. -/
def section_ (r : Reach) (outfall : Bool) : Word × Word × Nat × Nat × Nat :=
  let b := if outfall then 112 else 80
  (r.kword b, r.kword (b + 8), (field r.kernel (8 * b + 128) 32).toNat, (field r.kernel (8 * b + 160) 32).toNat, (field r.kernel (8 * b + 192) 32).toNat)
def claims (r : Reach) : Bool := (r.section_ false).1 != 0 || (r.section_ true).1 != 0

/-- The array owner of each braid core (R33). -/
def owners (r : Reach) : List (Option Nat) :=
  if r.owner = 31 then List.replicate r.cores none
  else (List.range r.cores).map fun i =>
    if r.owner < r.rills ∧ r.owner % r.cores = i then some r.owner else if i < r.rills then some i else none

/-- Is a helper section out of range (R484)? -/
def sectionBad (r : Reach) (outfall : Bool) : Bool :=
  let (code, data, clen, dlen, hent) := r.section_ outfall
  let b := if outfall then 112 else 80
  r.kword (b + 24) >>> 32 != 0 || code.toNat % 64 != 0 || data.toNat % 8 != 0 || decide (2 ^ 17 ≤ clen) || decide (2 ^ 15 ≤ dlen) ||
  decide (2 ^ 16 ≤ hent) ||
  (code != 0 && (decide (clen < 4) || decide (65536 < clen) || clen % 4 != 0 || decide (16384 < dlen) || dlen % 8 != 0 ||
    hent % 2 != 0 || decide (clen ≤ hent) || (dlen != 0 && data == 0)))

/-- Does the kernel header break R484, flume offsets apart? -/
def kernelBad (r : Reach) : Bool :=
  let k := r.kernel
  field k 269 19 != 0#19 || field k 295 25 != 0#25 || k.getLsbD 321 || field k 325 3 != 0#3 || field k 333 19 != 0#19 ||
  field k 464 48 != 0#48 || field k 581 59 != 0#59 || field k 1152 896 != 0#896 ||
  r.dict.toNat % 64 != 0 || r.ltab.toNat % 128 != 0 || r.simg.toNat % 16 != 0 || r.fimg.toNat % 16 != 0 ||
  r.ndict == 0 || decide (4096 < r.ndict) || decide (64 < r.nloop) || (r.ltab == 0) != (r.nloop == 0) ||
  (decide (16 ≤ r.owner) && r.owner != 31) || decide (5 ≤ r.krm.toNat) || decide (16 < r.nflume) ||
  (r.nflume != 0 && r.fimg == 0) || (r.svalid != 0 && r.simg == 0) || r.sectionBad false || r.sectionBad true

/-- Registration `i` of the record: header address, ITER, and its last four bytes. -/
def regWords (r : Reach) (i : Nat) : Word × Nat × BitVec 32 :=
  (r.rword (96 + 16 * i), r.rbits (8 * (104 + 16 * i)) 32, field r.record (8 * (108 + 16 * i)) 32)

/-- Does the record itself break R261 in a course of `n` reaches? -/
def recordBad (r : Reach) (n : Nat) : Bool :=
  let lv := r.nlev
  decide (2 ≤ r.kind.toNat) || field r.record 1284 60 != 0#60 || field r.record 1344 704 != 0#704 ||
  (List.range 4).any (fun i => (r.regWords i).2.2 &&& 0x7FFFFFF0#32 != 0) ||
  decide (4 * r.cores < r.rills) ||
  (if r.kind = 0#2 then lv == 0 || decide (6 < lv) else lv != 0) ||
  (List.range 6).any (fun p => if p < lv then (List.range p).any (fun q => r.order q == r.order p) || decide (lv ≤ r.order p) else r.order p != 0) ||
  (if r.kind = 0#2 then (List.range 6).any (fun j => decide (lv ≤ j) && r.count j != 0)
   else field r.record 640 128 != 0#128 || r.ldesc.toNat % 64 != 0) ||
  r.budget == 0 || r.kobj.toNat % 256 != 0 || r.crec.toNat % 64 != 0 || r.sigAddr.toNat % 8 != 0 ||
  (List.range 4).any (fun i => if r.record.getLsbD (1280 + i) then decide (n ≤ r.rbits (352 + 8 * i) 8) else r.rbits (352 + 8 * i) 8 != 0) ||
  (List.range 4).any (fun i => (r.regWords i).2.2.getLsbD 31 && field (r.regWords i).2.2 2 2 == 3#2)

/-- A reach that has just been read. -/
def fresh (tag : Nat) (record kernel : BitVec 2048) : Reach where
  tag := tag
  record := record
  kernel := kernel
  unreadable := false
  complete := false
  deadline := (field record 128 64).toNat
  counter := (field record 64 16).toNat
  tokens := (field record 80 16).toNat
  waitNs := 0
  deferred := false
  passed := false
  regs := []
  nextIter := 0
  reruns := []
  done := []
  nextInst := 0
  list := 0
  retired := 0
  counts := ⟨0, 0, 0, 0, none, 0, 0, 0, 0, 0, 0, false, false, false, false, false⟩

end Reach

/-! ## Completion records (R278, R280) -/

def satTo (bits x : Nat) : Nat := min x (2 ^ bits - 1)

/-- The 64 bytes of a record. -/
def RecordCounts.bytes (c : RecordCounts) (settled : Bool) (endNs rtag seq : Nat) : List Byte :=
  let status := c.fsrc * 2 ^ 40 + c.fcode * 2 ^ 32 + satTo 16 c.nfault * 2 ^ 16 + c.skipped.toNat * 128 + c.rejected.toNat * 64 +
    c.depuf.toNat * 32 + (decide (0 < c.nfault)).toNat * 16 + c.deadline.toNat * 8 + c.redq.toNat * 4 + settled.toNat * 2 + 1
  ([status, c.startNs.getD endNs, endNs, satTo 64 c.inst, satTo 32 c.budgets * 2 ^ 32 + satTo 32 c.preempt, satTo 32 c.versions,
    satTo 32 c.nskip * 2 ^ 32 + satTo 32 c.nkill, rtag * 2 ^ 51 + seq].map (leBytes 8)).flatten

/-- Add a reach's counts to a course's (R280); `rs` are in index order. -/
def sumCounts (rs : List RecordCounts) (startNs : Nat) : RecordCounts :=
  let s (f : RecordCounts → Nat) : Nat := (rs.map f).sum
  let o (f : RecordCounts → Bool) : Bool := rs.any f
  let first := rs.foldl (fun (b : Option RecordCounts) c =>
    if c.nfault = 0 then b else match b with | none => some c | some x => if c.faultNs < x.faultNs then some c else b) none
  { nfault := s (·.nfault), fsrc := (first.map (·.fsrc)).getD 0, fcode := (first.map (·.fcode)).getD 0,
    faultNs := (first.map (·.faultNs)).getD 0, startNs := some startNs, inst := s (·.inst), budgets := s (·.budgets),
    preempt := s (·.preempt), versions := s (·.versions), nskip := s (·.nskip), nkill := s (·.nkill), skipped := o (·.skipped),
    rejected := o (·.rejected), depuf := o (·.depuf), deadline := o (·.deadline), redq := o (·.redq) }

/-! ## Tiles of a course (R244, R252, R253) -/

/-- Registered tiles. -/
def Course.tiles (c : Course) : List Nat := ((c.reaches.map fun r => r.regs.map (·.header)).flatten).dedup

namespace Work

def tileState (w : Work) (pa : Nat) : Word := w.word (pa + 24)
def tileSettled (w : Work) (pa : Nat) : Bool := stVer (w.tileState pa) == 15

/-- Reduced quality of a tile (R253). -/
def tileReduced (w : Work) (part pa : Nat) : Bool :=
  let st := w.tileState pa
  stVer st == 15 && (st.getLsbD 11 || field st 16 2 != 3#2 || (w.part part).late.contains pa)

/-- Settle the tiles that a reach produced; at its deadline they are noted (R252). -/
def settleProduced (w : Work) (part seq tag : Nat) (late : Bool) : Work :=
  match w.course? part seq with
  | none => w
  | some c =>
    (c.tiles.filter fun pa => stProducer (w.tileState pa) == tag && !w.tileSettled pa).foldl (fun w pa =>
      let w := w.settleTile part pa
      if late then w.modPart part fun p => { p with late := p.late ++ [pa] } else w) w

/-- Write a registration into its index of its header; `en` clear takes back one that still holds the reach's tag. -/
def putRegistration (w : Work) (part tag : Nat) (en : Bool) (g : TileReg) : Work :=
  let (bs, w) := w.headerBytes part g.header
  let old := regOf bs g.index
  let new : Registration := if en then ⟨true, g.policy, tag, g.iter⟩ else { old with en := false }
  if en || (old.en && old.rtag == tag) then w.homeWrite part (g.header + 40 + 6 * g.index) new.bytes else w

/-! ## Lists and iterations (R267, R268, R270) -/

/-- The list descriptor of a LISTED reach as read at its course's start, RETIRED as the scheduler has advanced it, ARRIVED and CLOSED read
afresh (R268). -/
def listOf (w : Work) (part : Nat) (r : Reach) : Option ListDesc :=
  ((w.attempt (schedRead part (r.ldesc + 16#64) 12)).1).map fun bs =>
    { listDesc (leBytes 64 r.list.toNat) with
      arrived := BitVec.ofNat 32 (leNat (bs.take 4)), closed := (bs.getD 8 0).getLsbD 0, retired := r.retired }

/-- What decides about the iterations of a partition's LISTED reaches is read at their list descriptors: where one lies behind held traffic, that is waited
for (R18). -/
def readLists (w : Work) (part : Nat) : Work :=
  if w.noneHeld then w
  else (w.part part).courses.foldl (fun w c => c.reaches.foldl (fun w r =>
    if r.kind = 0#2 || r.complete then w else w.alsoHeld (w.attempt (schedRead part (r.ldesc + 16#64) 12)).2) w) w

/-- Is there a new iteration to place, and are the iterations complete? -/
def hasNew (w : Work) (part : Nat) (r : Reach) : Bool :=
  if r.kind = 0#2 then decide (r.nextIter < r.total)
  else match w.listOf part r with
    | some l => (decide (l.startmin ≤ l.arrived) || l.closed) && l.arrived != BitVec.ofNat 32 r.nextIter
    | none => false
def exhausted (w : Work) (part : Nat) (r : Reach) : Bool :=
  if r.kind = 0#2 then decide (r.total ≤ r.nextIter)
  else match w.listOf part r with
    | some l => l.closed && l.arrived == BitVec.ofNat 32 r.nextIter
    | none => false

/-- Live instances of a reach. -/
def instsOf (w : Work) (part seq r : Nat) : List Inst := w.insts.filter fun i => i.part == part && i.course == seq && i.reach == r && i.live
/-- Instances of a reach that have not ended: a killed one ends with the last of its queued entries (R25, R48, R297). -/
def unendedOf (w : Work) (part seq r : Nat) : List Inst := w.insts.filter fun i => i.part == part && i.course == seq && i.reach == r
def frozenOf (w : Work) (part seq r : Nat) : List Inst := (w.instsOf part seq r).filter fun i => i.st == .frozen

/-- Ready (R262). -/
def ready (w : Work) (part seq k : Nat) (r : Reach) : Bool :=
  !r.complete && !r.passed && decide (w.ns < r.deadline) && r.counter == 0 && !r.counts.rejected &&
  (!(w.frozenOf part seq k).isEmpty || !r.reruns.isEmpty || w.hasNew part r)

/-- R50 with no tile to wait for: nothing to place, nothing running. -/
def walked (w : Work) (part seq k : Nat) (r : Reach) : Bool :=
  r.counter == 0 && (w.unendedOf part seq k).isEmpty && r.reruns.isEmpty && w.exhausted part r

/-- Does the reach complete now (R251, R262, R276)? -/
def reachDue (w : Work) (part seq k : Nat) (r : Reach) : Bool :=
  !r.complete &&
  (if r.passed then (w.unendedOf part seq k).isEmpty
   else decide (w.ns < r.deadline) && w.walked part seq k r && r.regs.all fun g => w.tileSettled g.header)

/-- The registers an iteration starts with (R267, R270); a record is read at placement. -/
def iterRegs (w : Work) (part : Nat) (r : Reach) (it : Nat) : List (Nat × Word) × Work :=
  if r.kind = 0#2 then ((r.indices r.nlev it).map fun (l, i) => (l + 1, BitVec.ofNat 64 i), w)
  else
    match w.listOf part r with
    | none => ([(1, BitVec.ofNat 64 it)], w)
    | some l =>
      let (bs, w) := w.attempt (schedRead part (l.record it) 32)
      let bs := bs.getD []
      let x := wordOf (bs.drop 16 |>.take 8)
      ([(1, BitVec.ofNat 64 it), (2, l.record it), (3, field x 12 6 |>.setWidth 64), (4, field x 0 12 |>.setWidth 64),
        (5, wordOf (bs.drop 24 |>.take 8))], w)

/-- RETIRED advances in order past records whose last instance has completed and that no registration names; past all of them when
the reach completes (R270, R281). -/
def retireFrom (w : Work) (part seq k : Nat) (r : Reach) (all : Bool) : Nat → BitVec 32 → BitVec 32
  | 0, ret => ret
  | fuel + 1, ret =>
    let it := ret.toNat
    if ret = BitVec.ofNat 32 r.nextIter then ret
    else if all || (r.done.contains it && !r.reruns.contains it && !(w.unendedOf part seq k).any (fun i => i.iter == it) &&
        !r.regs.any fun g => g.iter == it) then w.retireFrom part seq k r all fuel (ret + 1)
    else ret

def retire (w : Work) (part seq k : Nat) (all : Bool) : Work :=
  match w.reach? part seq k with
  | none => w
  | some r =>
    if r.kind = 0#2 then w
    else match w.listOf part r with
      | none => w
      | some l =>
        let n := (BitVec.ofNat 32 r.nextIter - l.retired).toNat
        let ret := w.retireFrom part seq k r all n l.retired
        if ret = l.retired then w
        else ((w.modReach part seq k fun x => { x with retired := ret }).attempt (schedWrite part (r.ldesc + 20#64) (leBytes 4 ret.toNat))).2

/-! ## Completing reaches and courses (R281) -/

/-- Write a record or a signal word; what cannot be written is skipped and noted in the health log. -/
def putRecord (w : Work) (part : Nat) (va : Word) (bs : List Byte) : Bool × Work :=
  match schedWrite part va bs w with
  | (.ok (), w) => (true, w)
  | (.error _, w) => (false, { w with health := w.health ++ [.recordSkipped va.toNat] })

/-- Raise an MSI-X vector on the owner port; a vector of 64 or more raises nothing (R311). -/
def raiseMsi (w : Work) (part v : Nat) : Work :=
  match (w.part part).owner with
  | some port => if v < 64 then { w with msi := w.msi ++ [(port, v)] } else w
  | none => w

/-- A completion is a release: the partition's race clock rises (R204, R281; log entry 77). -/
def bumpClock (w : Work) (part : Nat) : Work :=
  w.modPart part fun p => { p with raceClock := (clockNext p.raceClock).toNat }

/-- Complete a reach. -/
def completeReach (w : Work) (part seq k : Nat) : Work :=
  match w.reach? part seq k with
  | none => w
  | some r =>
    if r.complete then w
    else
      let w := (w.bumpClock part).settleProduced part seq r.tag false
      let w := w.modReach part seq k fun x =>
        { x with complete := true, counts := { x.counts with redq := r.regs.any fun g => w.tileReduced part g.header } }
      let w := r.regs.foldl (fun w g => w.putRegistration part r.tag false g) w
      if r.unreadable then w
      else
        let counts := ((w.reach? part seq k).map (·.counts)).getD r.counts
        let good (a : Word) (n : Nat) : Bool := a != 0 && a.toNat % n == 0
        let (ok1, w) := if good r.crec 64 then w.putRecord part r.crec (counts.bytes (!r.regs.isEmpty) w.ns r.tag seq) else (true, w)
        let w := if ok1 then w else w.countFault part seq k 6 5
        let (ok2, w) := if good r.sigAddr 8 then w.putRecord part r.sigAddr (leBytes 8 r.sigVal.toNat) else (true, w)
        let w := if ok2 then w else w.countFault part seq k 6 5
        let w := r.succs.foldl (fun w s => w.decrement part seq s) w
        w.retire part seq k true

end Work

/-- Fields of a course header (R258). -/
def Course.hword (c : Course) (k : Nat) : Word := field c.header (64 * k) 64

namespace Work

/-- Write a course's record and signal, raise its vector, and forget it with its tags. -/
def finishCourse (w : Work) (part : Nat) (c : Course) (counts : RecordCounts) : Work :=
  let w := w.bumpClock part
  let crec := c.hword 2
  let sig := c.hword 3
  let w := if crec != 0 && crec.toNat % 64 == 0 then (w.putRecord part crec (counts.bytes true w.ns 0 c.seq)).2 else w
  let w := if sig != 0 && sig.toNat % 8 == 0 then (w.putRecord part sig (leBytes 8 (c.hword 4).toNat)).2 else w
  let w := if (c.hword 1).getLsbD 1 then w.raiseMsi part (field (c.hword 1) 16 16).toNat else w
  w.modPart part fun p => { p with courses := p.courses.filter fun x => x.seq != c.seq }

def completeCourse (w : Work) (part seq : Nat) : Work :=
  match w.course? part seq with
  | none => w
  | some c =>
    let s := sumCounts (c.reaches.map (·.counts)) c.startNs
    w.finishCourse part c { s with redq := s.redq || c.tiles.any fun pa => w.tileReduced part pa }

/-- Has the course settled with every reach complete (R253)? -/
def courseDue (w : Work) (c : Course) : Bool :=
  c.reaches.all (fun r => r.complete && r.reruns.isEmpty) && c.tiles.all w.tileSettled

/-- R252: when every reach has completed or waits only for tiles to settle, they are settled. -/
def settleOrphans (w : Work) (part seq : Nat) : Work :=
  match w.course? part seq with
  | none => w
  | some c =>
    let waits := ((List.range c.reaches.length).zip c.reaches).all fun (k, r) => r.complete || (!r.passed && w.walked part seq k r)
    if waits then (c.tiles.filter fun pa => !w.tileSettled pa).foldl (fun w pa => w.settleTile part pa) w else w

/-! ## Errors that stop a partition (R304) -/

/-- Every running reach completes with UNCONT, every course with its record; both hosts are told. -/
def stopPartition (w : Work) (part : Nat) : Work :=
  if (w.part part).stopped then w
  else
    let w := (w.insts.filter fun i => i.part == part).foldl (fun w i => w.killInst i.id false) w
    let w := (w.part part).courses.foldl (fun w c =>
      let w := ((List.range c.reaches.length).zip c.reaches).foldl (fun w (k, r) =>
        if r.complete then w else (w.countFault part c.seq k 1 cUncont).completeReach part c.seq k) w
      w.completeCourse part c.seq) w
    let w := w.modPart part fun p => { p with stopped := true, selected := none }
    { w with msi := w.msi ++ [(0, 0), (1, 0)] }

/-! ## Where an iteration fits (R264) -/

/-- Instances that occupy a core. -/
def occupants (w : Work) (core : Nat) (excl : Option Nat) : List Inst :=
  w.insts.filter fun i => (i.st == .loading || i.st == .running || i.st == .freezing) && i.cores.contains core && some i.id != excl

end Work

/-- The rill that owns the array of a core in an instance. -/
def Inst.ownerAt (i : Inst) (core : Nat) : Option Nat := (i.cores.idxOf? core).bind fun b => (i.owners[b]?).join

namespace Work

/-- Idle contexts of a core, counting those of an excluded instance. -/
def idleCtxs (w : Work) (core : Nat) (excl : Option Nat) : List Nat :=
  (List.range 4).filter fun k => let c := w.ctx core k; c.st == .idle || (excl.isSome && some c.inst == excl)

/-- A killed instance's copy entries wait on a core (R397). -/
def staleFills (w : Work) (core : Nat) : Bool :=
  (List.range 4).any fun q => (nth (w.core core).queues q).any fun e =>
    match e.kind with | .copy _ _ => (match w.inst? e.who.inst with | some i => i.st == .killed | none => false)
                      | .ixCopy _ => (match w.inst? e.who.inst with | some i => i.st == .killed | none => false)
                      | _ => false

/-- The reach an instance runs. -/
def reachOf (w : Work) (i : Inst) : Option Reach := w.reach? i.part i.course i.reach

/-- Can a core serve as braid core `b` of an iteration? `owns` says whether the array is owned there. -/
def coreFits (w : Work) (r : Reach) (resume : Bool) (owns : Bool) (excl : Option Nat) (core b : Nat) : Bool :=
  let c := w.core core
  let occ := w.occupants core excl
  let need := if resume then 4 else (r.rills + r.cores - 1 - b) / r.cores
  c.enabled && c.spareDue.isNone && decide (need ≤ (w.idleCtxs core excl).length) &&
  occ.all (fun i => ((w.reachOf i).map (·.dict)) == some r.dict) &&
  (!owns || (!occ.any (fun i => (i.ownerAt core).isSome) && !w.staleFills core)) &&
  (!r.claims || !occ.any fun i => i.intake || i.outfall)

/-- Ordered choices of `n` of the positions. -/
def arrangements : Nat → List Nat → List (List Nat)
  | 0, _ => [[]]
  | n + 1, xs => xs.flatMap fun x => (arrangements n (xs.erase x)).map (x :: ·)

/-- Clusters of a partition in which a spare is not still due (R303). -/
def clustersOf (w : Work) (part : Nat) : List Nat :=
  (List.range 32).filter fun cl => (w.part part).live && (w.part part).desc.getLsbD cl &&
    (List.range 4).all fun k => (w.core (4 * cl + k)).spareDue.isNone

/-- Core lists that fit, among clusters. -/
def fits (w : Work) (r : Reach) (resume : Bool) (owners : List (Option Nat)) (excl : Option Nat) (cls : List Nat) : List (List Nat) :=
  cls.flatMap fun cl => ((arrangements r.cores [0, 1, 2, 3]).map fun ks => ks.map (4 * cl + ·)).filter fun cs =>
    ((List.range cs.length).zip cs).all fun (b, core) => w.coreFits r resume ((owners[b]?).join.isSome) excl core b

/-! ## Freezing (R298) -/

/-- Cycle in which the last interlocked result of a context arrives. -/
def lastArrival (c : Ctx) : Nat := ((c.inflight.filter (·.interlocked)).map (·.land)).foldl max 0

/-- A rill's context stops at a bundle boundary: it leaves its wait but for a barrier, its interlocked results arrive, the others keep the
cycles they have to go. -/
def freezeCtx (w : Work) (core ctx : Nat) : Work :=
  let c := w.ctx core ctx
  let barrier := match c.block with | some (.barrier _) => true | _ => false
  let w := if barrier then w else w.leaveWait core ctx
  let t := lastArrival c
  -- the cycle in which it would present its next bundle
  let next := max (if w.swept then w.cycle + 1 else w.cycle) c.notBefore
  let w := if c.resumed then w else w.landWhere core ctx fun f => f.interlocked
  w.modCtx core ctx fun x => { x with
    st := .frozen
    notBefore := max t w.cycle
    inflight := if c.resumed then x.inflight else x.inflight.map fun f => { f with land := f.land - next }
    resumed := true
    readyAt := 0 }

/-- Stop every rill of an instance that runs or is being loaded (R37, R298, R303); what is saved is saved by FREEZE. -/
def beginFreeze (w : Work) (id : Nat) : Work :=
  match w.inst? id with
  | none => w
  | some i =>
    if i.st ≠ .running ∧ i.st ≠ .loading then w
    else
      let w := i.rills.foldl (fun w r =>
        if (w.ctx r.core r.ctx).inst ≠ id then w
        -- the context becomes free here: a deferred reach may fit now (R264)
        else if r.ended then ((w.landWhere r.core r.ctx fun _ => true).freeCtx r.core r.ctx).undefer i.part
        else w.freezeCtx r.core r.ctx) w
      w.modInst id fun i => { i with st := .freezing }

/-- Entries of an instance on the engine queues. -/
def entriesOf (w : Work) (id : Nat) : List Entry :=
  (w.cores.map fun (_, c) => (List.range 8).flatMap fun q => (nth c.queues q).filter fun e => e.who.inst == id).flatten

/-- Can FREEZE save the instance now? -/
def freezeDue (w : Work) (i : Inst) : Bool :=
  i.st == .freezing && !(w.entriesOf i.id).any (·.started) &&
  i.rills.all fun r => (w.ctx r.core r.ctx).inst != i.id || decide ((w.ctx r.core r.ctx).notBefore ≤ w.cycle)

/-- Memory cells in a range of keys. -/
def cellsOf (w : Work) (k n : Nat) : List Host.Cell :=
  (applyLog w.base w.log).filter fun c => decide (k ≤ c.1) && decide (c.1 < k + n)

/-- Put the saved cells of `n` bytes from key `k0` at a range of keys; what was uncorrectable stays so. -/
def putCells (w : Work) (k n k0 : Nat) (cs : List Host.Cell) (marks : List Nat) : Work :=
  let w := cs.foldl (fun w c => w.write (c.1 - k0 + k) [c.2]) (w.wipe k n)
  { w with poison := w.poison ++ (marks.filter fun u => decide (k0 ≤ 8 * u) && decide (8 * u < k0 + n)).map fun u => u - k0 / 8 + k / 8 }

/-- A core's share of an instance's saved state; cells keep their keys. -/
def saveCore (w : Work) (id core : Nat) : SavedCore :=
  let c := w.core core
  { tile := w.cellsOf (tileKey core 0) 0x200000
    swzTags := c.swzTags
    domTags := c.domTags
    stamps := c.stamps
    arr := c.arr
    acc := w.cellsOf (accKey core 0 0) 0x100000
    intake := c.intake
    outfall := c.outfall
    priv := w.cellsOf (privKey core false 0) 0x40000
    queues := Vector.map (fun es => es.filter fun e => e.who.inst == id && !e.started) c.queues
    poison := w.poison.filter fun u => [(tileKey core 0, 0x200000), (accKey core 0 0, 0x100000), (privKey core false 0, 0x40000)].any fun (k, n) =>
      decide (k ≤ 8 * u) && decide (8 * u < k + n) }

/-- The frame of a context while a handler runs on it, else nothing. -/
def frameSaved (w : Work) (part core ctx : Nat) : List Byte × Work :=
  let who := { schedWho part with core := core }
  match readSyncMany who true .global (w.ctx core ctx).frameBase 16384 w with
  | (.ok bs, w) => (if (wordOf (bs.take 8)).getLsbD 63 then bs else [], w)
  | (.error _, w) => ([], w)

/-- A free checkpoint slot of a partition (R300). -/
def freeSlot (w : Work) (part : Nat) : Option Nat :=
  let p := w.part part
  (List.range (p.ckUsed.length + 1)).find? fun s => decide (s < p.ckcnt) && !p.ckUsed.contains s

/-- Save a frozen instance and free what it occupied. -/
def saveInst (w : Work) (i : Inst) : Work :=
  let part := i.part
  -- the rill's own stores go where it will read them (R64, R192, R198)
  let w := w.cleanCores part i.cores
  let shadow := (w.part part).swapped
  let slot := if shadow then none else match i.keep with | some s => s.slot | none => w.freeSlot part
  let slot := if slot.isSome then slot else if shadow then none else w.freeSlot part
  let (frames, w) := i.rills.foldl (fun (acc : List (List Byte) × Work) r =>
    let (f, w) := if !r.ended && (acc.2.ctx r.core r.ctx).inst == i.id then acc.2.frameSaved part r.core r.ctx else ([], acc.2)
    (acc.1 ++ [f], w)) ([], w)
  -- a helper that stalls is saved with its pc at the instruction (R424)
  let w := i.cores.foldl (fun w n => [false, true].foldl (fun w o => if (w.helper n o).inst = i.id then w.helperLeaves n o else w) w) w
  let s : Saved :=
    { ctxs := i.rills.map fun r => if r.ended then Ctx.reset else w.ctx r.core r.ctx
      rills := i.rills, episodes := i.episodes, logs := i.logs, counter := i.counter
      cores := i.cores.map (w.saveCore i.id), frames := frames, slot := slot, inShadow := shadow }
  let w := i.rills.foldl (fun w r => if (w.ctx r.core r.ctx).inst = i.id then w.freeCtx r.core r.ctx else w) w
  let w := i.cores.foldl (fun w n => ((w.stopHelper i.id n false).stopHelper i.id n true).modCore n fun c => { c with
    queues := Vector.map (fun es => es.filter fun e => !(e.who.inst == i.id && !e.started)) c.queues }) w
  let w := w.modPart part fun p => { p with ckUsed := match slot with | some k => if p.ckUsed.contains k then p.ckUsed else p.ckUsed ++ [k] | none => p.ckUsed }
  (w.modInst i.id fun i => { i with st := .frozen, saved := some s, keep := if shadow then i.keep else none }).undefer part

end Work

/-- Put an entry back on behalf of an instance that now has these cores and contexts. -/
def Entry.moved (e : Entry) (core : Nat) : Entry := { e with who := { e.who with core := core } }

namespace Work

/-- Put the saved, unstarted entries of an instance back on queues (R276, R298). -/
def requeueEntries (w : Work) (cores : List Nat) (s : Saved) : Work :=
  (cores.zip s.cores).foldl (fun w (n, sc) =>
    (List.range 8).foldl (fun w q => (nth sc.queues q).foldl (fun w e => w.enqueue n q (e.moved n)) w) w) w

end Work
end Sys2Proof.Machine
end

