-- ==== Sys2Proof/Machine/Course.lean ====
section
/-! DEFINITION. The steps of the scheduler and the distributor (13_scheduler, 14_traps R295 to R301): starting courses, selecting and placing,
pre-empting, freezing, budgets, deadlines, completions. A step whose condition does not hold does nothing. -/
namespace Sys2Proof.Machine

namespace Work

/-! ## COURSE_START (R255 to R261) -/

/-- Does a course header break R258? -/
def headerBad (h : BitVec 1024) : Bool :=
  let rrec := field h 0 64
  let w1 := field h 64 64
  rrec.toNat % 256 != 0 || field w1 32 32 != 0#32 || field w1 2 6 != 0#6 || field h 128 64 == 0#64 || (field h 128 64).toNat % 64 != 0 ||
  (field h 192 64).toNat % 8 != 0 || field h 320 704 != 0#704

/-- Reach tags in use. -/
def tagsUsed (w : Work) (part : Nat) : List Nat := ((w.part part).courses.map fun c => c.reaches.map (·.tag)).flatten

/-- Free tags, as many as asked for, from where the implementation begins (log entry 2). -/
def takeTags (w : Work) (part n : Nat) : List Nat × Work :=
  let (k, w) := w.free
  let used := w.tagsUsed part
  (((List.range 8191).map fun i => (k + i) % 8191 + 1).filter (fun t => !used.contains t) |>.take n, w)

/-- The header of a registered tile, if its address passes R241. -/
def tileHeader (w : Work) (part : Nat) (va : Word) : Option Nat × Work :=
  if va.toNat % 64 ≠ 0 then (none, w)
  else
    let m : Acc Place := do
      let _ ← place (schedWho part) false .global va .read
      place (schedWho part) false .global va .write
    match m w with
    | (.ok (.phys pa mt _), w) => (if isHbm pa && decide (mt < 2#2) then some pa else none, w)
    | (_, w) => (none, w)

/-- The enabled registrations of a record, where every one names a tile. -/
def readRegs (w : Work) (part : Nat) (r : Reach) : Option (List TileReg) × Work :=
  ((List.range 4).filter fun i => (r.regWords i).2.2.getLsbD 31).foldl (fun (acc : Option (List TileReg) × Work) i =>
    let (va, it, x) := r.regWords i
    let (pa?, w) := acc.2.tileHeader part va
    (match acc.1, pa? with | some gs, some pa => some (gs ++ [⟨pa, (field x 0 2).toNat, (field x 2 2).toNat, it⟩]) | _, _ => none, w)) (some [], w)

/-- Does a flume offset break R484? -/
def flumeOffBad (o : Nat) : Bool := o % 64 != 0 || decide (0x1FFFC0 < o)

/-- Flume images whose offsets break R484; one that cannot be read is met at placement. -/
def flumesBad (w : Work) (part : Nat) (r : Reach) : Bool × Work :=
  (List.range r.nflume).foldl (fun (acc : Bool × Work) k =>
    let (x, w) := acc.2.attempt (schedRead part (r.fimg + BitVec.ofNat 64 (16 * k)) 16)
    (acc.1 || (match x with | some bs => flumeOffBad (leNat (bs.take 8)) | none => false), w)) (false, w)

/-- Read reach `k` of a course and the kernel header it names; rejected ones have `rejected` set. -/
def readReach (w : Work) (part n : Nat) (t0 tag : Nat) (va : Word) : Reach × Work :=
  let (rec?, w) := w.attempt (schedRead part va 256)
  match rec? with
  | none => let r := Reach.fresh tag 0 0; ({ r with unreadable := true, counts := { r.counts with rejected := true } }, w)
  | some bs =>
    let record : BitVec 2048 := BitVec.ofNat 2048 (leNat bs)
    let r0 := Reach.fresh tag record 0
    let (k?, w) := w.attempt (schedRead part r0.kobj 256)
    let r := Reach.fresh tag record (BitVec.ofNat 2048 (leNat (k?.getD [])))
    let (list, w) := if r.kind = 1#2 then w.attempt (schedRead part r.ldesc 64) else (none, w)
    let r := { r with list := BitVec.ofNat 512 (leNat (list.getD [])), retired := (list.map fun bs => (listDesc bs).retired).getD 0 }
    let listBad := r.kind == 1#2 && match list with | some bs => (listDesc bs).bad || (listDesc bs).rbase.toNat % 128 != 0 | none => true
    let (regs?, w) := w.readRegs part r
    let (flumes, w) := w.flumesBad part r
    match regs? with
    | some regs =>
      if r.recordBad n || k?.isNone || r.kernelBad || flumes || listBad then ({ r with counts := { r.counts with rejected := true } }, w)
      else
        let r := if record.getLsbD 123 then { r with deadline := (t0 + r.deadline) % 2 ^ 64 } else r
        ({ r with regs := regs, waitNs := t0 }, w)
    | none => ({ r with counts := { r.counts with rejected := true } }, w)

/-- Start the course whose header has been read. -/
def startCourse (w : Work) (part queue : Nat) (d : QueueDesc) (h : BitVec 1024) : Work :=
  let p := w.part part
  let seq := p.seqNext
  let t0 := w.ns
  let n := (field h 72 8).toNat + 1
  let w := w.modPart part fun p => { p with seqNext := if seq + 1 < 2 ^ 32 then seq + 1 else 1 }
  let advance (w : Work) : Work :=
    let w := w.homeWrite part (d.pa + 16) (leBytes 4 (d.cons + 1).toNat)
    w.raiseS part (.phys d.pa 0#2 false) (BitVec.ofNat 32 (w.part part).raceClock)
  let course : Course := ⟨seq, queue, h, t0, [], false⟩
  if headerBad h then
    let w := advance w
    let c : RecordCounts := ⟨n, 6, 1, t0, some t0, 0, 0, 0, 0, 0, 0, false, true, false, false, false⟩
    w.finishCourse part { course with whole := true } c
  else
    let (tags, w) := w.takeTags part n
    let (rs, w) := ((List.range n).zip tags).foldl (fun (acc : List Reach × Work) (i, tag) =>
      let (r, w) := acc.2.readReach part n t0 tag (field h 0 64 + BitVec.ofNat 64 (256 * i))
      (acc.1 ++ [r], w)) ([], w)
    let w := w.modPart part fun p => { p with courses := p.courses ++ [{ course with reaches := rs }] }
    let w := rs.foldl (fun w r => r.regs.foldl (fun w g => w.putRegistration part r.tag true g) w) w
    let w := advance w
    ((List.range n).zip rs).foldl (fun w (k, r) =>
      if r.counts.rejected then (w.countFault part seq k 6 1).completeReach part seq k else w) w

/-- The descriptor of a reach queue, and its slot at CONS while that is valid; `none` for an error in either. -/
def queueHead (w : Work) (part queue : Nat) : Option (QueueDesc × Option (BitVec 1024)) × Work :=
  let pa := (w.part part).qbase + 32 * queue
  if (w.badUnit pa 32).isSome then (none, w)
  else
    let (ds, w) := w.homeRead part pa 32
    let d := queueDesc pa ds
    if d.disabled then (some (d, none), w)
    else
      let (slot, w) := w.attempt (schedRead part (d.slot d.cons) 128)
      (slot.map fun bs => (d, if (bs.getD 8 0).getLsbD 0 = d.phase d.cons then some (BitVec.ofNat 1024 (leNat bs)) else none), w)

/-- Is there a course that the queue can start, or an error that it meets? -/
def courseReady (w : Work) (part queue : Nat) : Bool :=
  match (w.queueHead part queue).1 with
  | none => true
  | some (_, none) => false
  | some (_, some h) => headerBad h || decide ((w.tagsUsed part).length + (field h 72 8).toNat + 1 ≤ 8191)

end Work

def execCourseStart (part queue : Nat) := run fun w =>
  let p := w.part part
  if !p.live || p.stopped || p.swapped || !w.courseReady part queue then w
  else match w.queueHead part queue with
    | (none, w) => w.stopPartition part
    | (some (d, some h), w) => w.startCourse part queue d h
    | (some (_, none), _) => w

/-! ## SELECT (R263) -/

namespace Work

/-- Reaches that can be selected: course, its place in order, reach index, reach. -/
def candidates (w : Work) (part : Nat) : List (Course × Nat × Reach) :=
  (w.part part).courses.flatMap fun c =>
    (((List.range c.reaches.length).zip c.reaches).filter fun (k, r) => !r.deferred && w.ready part c.seq k r).map fun (k, r) => (c, k, r)

/-- Lexicographic order of lists of keys. -/
def keysBefore : List Nat → List Nat → Bool
  | x :: xs, y :: ys => decide (x < y) || (x == y && keysBefore xs ys)
  | _, _ => false

/-- Is the first chosen before the second? Courses of a queue stand in their order; a tie keeps the earlier one. -/
def chosenBefore (last : Nat) (a b : Course × Nat × Reach) : Bool :=
  let key (x : Course × Nat × Reach) : List Nat := [x.2.2.deadline, 65535 - min x.2.2.tokens 65535, (x.1.queue + 15 - last) % 16]
  keysBefore (key a) (key b)

def best (last : Nat) : List (Course × Nat × Reach) → Option (Course × Nat × Reach)
  | [] => none
  | x :: xs => some (xs.foldl (fun b y => if chosenBefore last y b then y else b) x)

end Work

def execSelectReach (part : Nat) := run fun w =>
  let p := w.part part
  if !p.live || p.stopped || p.swapped || p.selected.isSome then w
  else
    let w := w.readLists part
    match Work.best p.lastQueue (w.candidates part) with
    | none => w
    | some (c, k, r) => w.modPart part fun p => { p with selected := some ⟨c.seq, k, r.tokens, r.deadline, none⟩, lastQueue := c.queue }

/-! ## PLACE (R35 to R37, R45, R49, R85, R264, R300) -/

namespace Work

/-- A core's first placement for a partition clears it (R35). -/
def clearCore (w : Work) (part core : Nat) : Work :=
  if (w.part part).cleared.contains core then w
  else
    let w := ((w.wipe (tileKey core 0) 0x200000).wipe (bplaneKey core 0 0 0) 0x400000).wipe (accKey core 0 0) 0x100000
    let w := w.modCore core fun c => { c with arr := .cleared, swzTags := [], domTags := [], stamps := [], dict := none }
    w.modPart part fun p => { p with cleared := p.cleared ++ [core] }

/-- Must a core load the kernel's image (R85)? -/
def needsDict (w : Work) (part : Nat) (r : Reach) (core : Nat) : Bool :=
  match (w.core core).dict with
  | some d => !(d.part == part && d.addr == r.dict)
  | none => true

/-- Does the signature of a kernel's image hold (R315, R484)? An ML-DSA-65 signature has 3,309 bytes, and an image or a signature that cannot be read
whole does not verify (DESIGN CHOICE, log entry 13). -/
def signatureHolds (w : Work) (part : Nat) (r : Reach) : Bool × Work :=
  if !(w.part part).reqsig then (true, w)
  else
    let (a, w) := w.attempt (schedRead part r.dict (48 * r.ndict))
    let (b, w) := if r.nloop = 0 then (some [], w) else w.attempt (schedRead part r.ltab (128 * r.nloop))
    let (sig, w) := w.attempt (schedRead part r.dsig 3309)
    (match a, b, sig with
      | some a, some b, some sig => r.dsig != 0 && Config.signatureOk (a ++ b) sig
      | _, _, _ => false, w)

/-- The verdict on an image's signature: that of its first load for the partition (R315). -/
def imageVerdict (w : Work) (part : Nat) (r : Reach) : Bool × Work :=
  match (w.part part).images.find? (·.1 == r.dict) with
  | some x => (x.2, w)
  | none =>
    let (ok, w) := w.signatureHolds part r
    (ok, w.modPart part fun p => { p with images := p.images ++ [(r.dict, ok)] })

/-- Queue the loads that an instance's cores need. -/
def queueLoads (w : Work) (part : Nat) (r : Reach) (cores : List Nat) : Work :=
  (cores.filter (w.needsDict part r)).foldl (fun w n => let (ok, w) := w.imageVerdict part r; w.todo n 0 (.dictLoad n part ok)) w

/-- Load a helper's section, or stop it with AUXFAULT (R45); mepc of a helper that never started is 0 (DESIGN CHOICE, log entry 138). -/
def loadHelper (w : Work) (i : Inst) (r : Reach) (core b : Nat) (outfall : Bool) : Work :=
  let (code, data, clen, dlen, hent) := r.section_ outfall
  if code = 0 then w.modHelper core outfall fun _ => Helper.reset
  else
    let m : Acc (List Byte × List Byte) := do
      let c ← schedRead i.part code clen
      let d ← if dlen = 0 then pure [] else schedRead i.part data dlen
      return (c, d)
    match m w with
    | (.ok (c, d), w) =>
      let w := (w.wipe (privKey core outfall 0x10000) 0x4000).write (privKey core outfall 0x10000) d
      let w := w.write (privKey core outfall 0) c
      w.modHelper core outfall fun _ => { Helper.reset with
        st := .running, inst := i.id, x := setNth Helper.reset.x 10 (BitVec.ofNat 64 b), pc := BitVec.ofNat 64 hent }
    | (.error e, w) =>
      w.modHelper core outfall fun _ => { Helper.reset with st := .faulted, inst := i.id, fault := some (1, e.trap.addr, 0) }

/-- Stream images, flume images and their writes to every braid core; whether any could not be read. -/
def loadImages (w : Work) (part : Nat) (r : Reach) (cores : List Nat) : Vector Stream 16 × Bool × Work :=
  let (gs, bad, w) := ((List.range 16).filter fun j => r.svalid.getLsbD j).foldl
    (fun (acc : Vector Stream 16 × Bool × Work) j =>
      let (x, w) := acc.2.2.attempt (schedRead part (r.simg + BitVec.ofNat 64 (16 * j)) 16)
      match x with
      | some bs => (setNth acc.1 j ⟨wordOf (bs.take 8), wordOf (bs.drop 8), 0⟩, acc.2.1, w)
      | none => (acc.1, true, w)) (.replicate 16 .zero, false, w)
  let (bad, w) := (List.range r.nflume).foldl (fun (acc : Bool × Work) k =>
    let (x, w) := acc.2.attempt (schedRead part (r.fimg + BitVec.ofNat 64 (16 * k)) 16)
    match x with
    | some bs =>
      let off := leNat (bs.take 8)
      if flumeOffBad off then (true, w)
      else (acc.1, cores.foldl (fun w n => (w.wipe (tileKey n off) 64).write (tileKey n off) (bs.drop 8)) w)
    | none => (true, w)) (bad, w)
  (gs, bad, w)

/-- Does a step for the instance stand on the list of steps to come? -/
def loadsPending (w : Work) (i : Inst) : Bool :=
  (w.pending ++ w.postponed).any fun t => match t.instr with
    | .dictLoad n p _ => p == i.part && i.cores.contains n
    | .bplaneLogReplay id _ => id == i.id
    | _ => false

/-- Once everything is loaded, all rills of an instance become ready and its helpers start (R37, R45, R85). -/
def tryStart (w : Work) (id : Nat) : Work :=
  match w.inst? id with
  | none => w
  | some i =>
    if i.st ≠ .loading || w.loadsPending i then w
    else
      let w := i.rills.foldl (fun w r => w.modCtx r.core r.ctx fun c =>
        if c.inst = id ∧ c.st = .reserved then { c with st := if c.block.isSome then .blocked else .ready, readyAt := w.cycle } else c) w
      let w := w.modInst id fun i => { i with st := .running }
      i.cores.foldl (fun w n => [false, true].foldl (fun w o =>
        let h := w.helper n o
        if h.inst = id ∧ h.st = .faulted ∧ h.fault.isSome then w.todo n o.toNat .auxfault else w) w) w

/-- Contexts for the rills: rill k on braid core k mod C, on idle contexts that the implementation chooses. -/
def chooseCtxs (w : Work) (cores : List Nat) (n : Nat) : List (Nat × Nat) × Work :=
  (List.range n).foldl (fun (acc : List (Nat × Nat) × Work) k =>
    let core := cores.getD (k % cores.length) 0
    let idle := (acc.2.idleCtxs core none).filter fun x => !acc.1.contains (core, x)
    let (x, w) := acc.2.pick idle
    (acc.1 ++ [(core, x.getD 0)], w)) ([], w)

/-- Bind an iteration to cores as a new instance. -/
def bindNew (w : Work) (part seq k : Nat) (r : Reach) (cores : List Nat) (it : Nat) (again : Bool) : Work :=
  -- a placement is an acquire of what was released before it (R175, R194)
  let w := (cores.foldl (fun w n => w.clearCore part n) w).dropCores cores
  let (gs, bad, w) := w.loadImages part r cores
  let (ctxs, w) := w.chooseCtxs cores r.rills
  let id := w.instNext
  let i : Inst :=
    { id := id, part := part, course := seq, reach := k, number := BitVec.ofNat 32 r.nextInst, iter := it, refire := again, st := .loading,
      cores := cores, rills := ctxs.map fun (c, x) => ⟨c, x, false, 0, false⟩, counter := r.budget, lastHeld := 0, budgetSent := false,
      grace := false, published := false, follow := false, drained := false, pins := [], episodes := [], owners := r.owners, streams := gs,
      logs := cores.map fun _ => ⟨[], []⟩, intake := (r.section_ false).1 != 0, outfall := (r.section_ true).1 != 0, placedNs := w.ns,
      tokens := r.tokens, engClock := 0, replays := [], saved := none, keep := none }
  let w := { w with instNext := id + 1, insts := w.insts ++ [i] }
  let w := w.modReach part seq k fun r => { r with
    nextInst := r.nextInst + 1, waitNs := w.ns
    counts := { r.counts with inst := r.counts.inst + 1, startNs := some (r.counts.startNs.getD w.ns) } }
  let (regs, w) := w.iterRegs part r it
  let clk := BitVec.ofNat 32 (w.part part).raceClock
  let w := ((List.range ctxs.length).zip ctxs).foldl (fun w (rill, core, ctx) =>
    (w.startRill i core ctx rill regs gs r.entry clk).modCtx core ctx fun c => { c with st := .reserved }) w
  if bad then (w.countFault part seq k 6 6).killInst id false
  else
    let w := if r.claims then ((List.range cores.length).zip cores).foldl (fun w (b, n) =>
        (w.loadHelper i r n b false).loadHelper i r n b true) w else w
    (w.queueLoads part r cores).tryStart id

/-- Resume a frozen instance on cores whose contexts are idle (R300). -/
def bindFrozen (w : Work) (i : Inst) (r : Reach) (s : Saved) (cores : List Nat) : Work :=
  let part := i.part
  let w := (cores.foldl (fun w n => w.clearCore part n) w).dropCores cores
  let (ctxs, w) := (List.range i.rills.length).foldl (fun (acc : List (Nat × Nat) × Work) k =>
    let b := (i.rills[k]?.bind fun x => i.cores.idxOf? x.core).getD 0
    let core := cores.getD b 0
    let ended := (i.rills[k]?.map (·.ended)).getD true
    if ended then (acc.1 ++ [(core, 4)], acc.2)
    else
      let (x, w) := acc.2.pick ((List.range 4).filter fun x => !acc.1.contains (core, x))
      (acc.1 ++ [(core, x.getD 0)], w)) ([], w)
  -- the cores
  let w := ((List.range cores.length).zip (cores.zip (i.cores.zip s.cores))).foldl (fun w (b, n, old, sc) =>
    let w := w.putCells (tileKey n 0) 0x200000 (tileKey old 0) sc.tile sc.poison
    let w := w.modCore n fun c => { c with swzTags := sc.swzTags, domTags := sc.domTags, stamps := sc.stamps }
    let w := if (i.owners[b]?).join.isSome then
        (w.putCells (accKey n 0 0) 0x100000 (accKey old 0 0) sc.acc sc.poison).modArr n fun _ => sc.arr else w
    if i.intake || i.outfall then
      (w.putCells (privKey n false 0) 0x40000 (privKey old false 0) sc.priv sc.poison).modCore n fun c => { c with intake := sc.intake, outfall := sc.outfall }
    else w) w
  let w := w.requeueEntries cores s
  -- the contexts
  let w := ((List.range ctxs.length).zip (ctxs.zip s.ctxs)).foldl (fun w (k, (core, ctx), c) =>
    if (i.rills[k]?.map (·.ended)).getD true then w
    else
      let kid := (c.kid &&& ~~~0xFF30#64) ||| BitVec.ofNat 64 (core * 256 + ctx * 16)
      w.modCtx core ctx fun _ => { c with st := .reserved, kid := kid }) w
  let w := w.modInst i.id fun i => { i with
    st := .loading, cores := cores, placedNs := w.ns, replays := [], saved := none, keep := if s.inShadow then i.keep else some s
    rills := (i.rills.zip ctxs).map fun (r, c) => if r.ended then r else { r with core := c.1, ctx := c.2 } }
  let w := w.modReach part i.course i.reach fun r => { r with waitNs := w.ns }
  -- the frames move with their contexts
  let (ok, w) := (ctxs.zip s.frames).foldl (fun (acc : Bool × Work) ((core, ctx), f) =>
    if f = [] then acc
    else
      let w := acc.2
      match writeFrame { schedWho part with core := core } (w.ctx core ctx).frameBase f w with
      | (.ok (), w) => (acc.1, w)
      | (.error _, w) => (false, w)) (true, w)
  if !ok then (w.countFault part i.course i.reach 1 cTrap2).killInst i.id false
  else
    let w := w.queueLoads part r cores
    let w := ((List.range cores.length).zip i.logs).foldl (fun w (b, l) =>
      if l.fills.isEmpty && l.unrecorded.isEmpty then w else w.todo (cores.getD b 0) 0 (.bplaneLogReplay i.id b)) w
    w.tryStart i.id

/-- What stands next to place of a reach: a frozen instance, a re-run, the next new iteration (R263). -/
def placeOn (w : Work) (part seq k : Nat) (r : Reach) (cores : List Nat) : Work :=
  match w.frozenOf part seq k with
  | i :: _ => match i.saved with | some s => w.bindFrozen i r s cores | none => w
  | [] =>
    match r.reruns with
    | it :: rest => (w.modReach part seq k fun r => { r with reruns := rest }).bindNew part seq k r cores it true
    | [] => (w.modReach part seq k fun r => { r with nextIter := if r.kind = 0#2 then r.nextIter + 1 else (r.nextIter + 1) % 2 ^ 32 }).bindNew part seq k r cores r.nextIter false

/-- Core lists on which a reach's next iteration fits. -/
def fitting (w : Work) (part seq k : Nat) (r : Reach) (excl : Option Nat) (cls : List Nat) : List (List Nat) :=
  match w.frozenOf part seq k with
  | i :: _ => w.fits r true i.owners excl cls
  | [] => w.fits r false r.owners excl cls

/-! ## Pre-emption (R272 to R275) -/

/-- The estimate of an instance: the largest KEST among its unended rills. -/
def estimate (w : Work) (i : Inst) : Nat :=
  ((i.rills.filter fun r => !r.ended).map fun r => (w.ctx r.core r.ctx).kest.toNat).foldl max 0

/-- Does a copy descriptor name a global destination? -/
def globalDest (d : BitVec 1024) : Bool :=
  let kind := (field d 316 4).toNat
  !(kind == 1 || kind == 2 || ((kind == 0 || kind == 3) && (field d 254 2 == 0#2 || field d 254 2 == 1#2)))

/-- Does a copy entry count as one with a global destination (R274)? An ix.cpy had its descriptor at issue (R394). -/
def globalCopy (e : Entry) : Bool :=
  match e.kind with
  | .copy _ _ => match e.desc with | none => true | some d => globalDest d
  | .ixCopy d => globalDest d
  | _ => false

def hasPublished (w : Work) (i : Inst) : Bool := i.published || (w.entriesOf i.id).any globalCopy

/-- The instance that a reach may pre-empt, with its tokens and deadline as its selection found them (R265, R273, R300). -/
def victim (w : Work) (part seq k tokens deadline : Nat) (r : Reach) : Option Inst :=
  let ok (v : Inst) : Bool :=
    v.part == part && v.st == .running && (v.keep.any (·.slot.isSome) || (w.freeSlot part).isSome) &&
    match w.reachOf v with
    | some x => x.pre && decide (x.tokens < tokens) && decide (deadline < x.deadline) &&
        !(w.fitting part seq k r (some v.id) ((w.clustersOf part).filter (· == v.cores.getD 0 0 / 4))).isEmpty
    | none => false
  let key (v : Inst) : List Nat :=
    let x := w.reachOf v
    [(x.map (·.deadline)).getD 0, 65535 - (x.map (·.tokens)).getD 0, v.placedNs, v.cores.foldl max 0]
  (w.insts.filter ok).foldl (fun (b : Option Inst) v => match b with | none => some v | some x => if keysBefore (key x) (key v) then some v else b) none

/-- Pre-empt for a reach, by the first policy whose condition holds. -/
def preempt (w : Work) (part seq k : Nat) (v : Inst) (x : Reach) : Work :=
  let w := w.modReach part seq k fun r => { r with tokens := r.tokens - 1 }
  let w := w.modReach part v.course v.reach fun r =>
    { r with tokens := min (r.tokens + 1) 65535, counts := { r.counts with preempt := r.counts.preempt + 1 } }
  let est := w.estimate v
  let w := w.modPart part fun p => { p with selected := p.selected.map fun s => { s with victim := some v.id } }
  if est ≤ x.drainLim then w.modInst v.id fun i => { i with drained := true }
  else if x.killable && decide (x.killLim ≤ est) && !w.hasPublished v then w.killInst v.id true
  else w.beginFreeze v.id

/-- Does a selection still wait for its victim? -/
def waitsFor (w : Work) (s : Selection) : Bool :=
  match s.victim.bind w.inst? with
  | some i => i.st == .running || i.st == .freezing || i.st == .loading
  | none => false

/-- The selected iteration is bound, or pre-empts, or its reach is deferred. -/
def placeSelected (w : Work) (part : Nat) : Work :=
  match (w.part part).selected with
  | none => w
  | some s =>
    if w.waitsFor s then w
    else
      let drop (w : Work) : Work := w.modPart part fun p => { p with selected := none }
      match w.reach? part s.course s.reach with
      | none => drop w
      | some r =>
        if !w.ready part s.course s.reach r then drop w
        else
          let (cores, w) := w.pick (w.fitting part s.course s.reach r none (w.clustersOf part))
          match cores with
          | some cs => (drop w).placeOn part s.course s.reach r cs
          | none =>
            let v := if s.victim.isSome then none else w.victim part s.course s.reach s.tokens s.deadline r
            match v, v.bind w.reachOf with
            | some v, some x => w.preempt part s.course s.reach v x
            | _, _ => (drop w).modReach part s.course s.reach fun r => { r with deferred := true }

end Work

def execPlaceInst (part : Nat) := run fun w =>
  let p := w.part part
  if !p.live || p.stopped || p.swapped then w else (w.readLists part).placeSelected part

/-! ## DICT_LOAD (R85, R315, R431, R484) -/

namespace Work

/-- Bundle `k` of an image, or why it is poisoned. -/
def dictBundle (part : Nat) (addr : Word) (k : Nat) : StateM Work DictEntry := fun w =>
  match schedRead part (addr + BitVec.ofNat 64 (48 * k)) 48 w with
  | (.ok bs, w) => (.ok (BitVec.ofNat 384 (leNat bs)), w)
  | (.error (.xlate r _), w) => (.bad r, w)
  | (.error (.poison _), w) => (.bad 0, w)
  | (.error _, w) => (.bad 5, w)

def loadDict (w : Work) (core part : Nat) (r : Reach) (sigOk : Bool) : Work :=
  let (bs, w) := ((List.range r.ndict).mapM (dictBundle part r.dict)) w
  let (ls, w) := (List.range r.nloop).foldl (fun (acc : List (Option (BitVec 1024)) × Work) j =>
    let (x, w) := acc.2.attempt (schedRead part (r.ltab + BitVec.ofNat 64 (128 * j)) 128)
    (acc.1 ++ [x.map lineOf], w)) ([], w)
  w.modCore core fun c => { c with dict := some ⟨part, r.dict, if sigOk then bs else bs.map fun _ => .bad 0, ls⟩ }

end Work

def execDictLoad (core part : Nat) (sigOk : Bool) := run fun w =>
  match w.insts.find? fun i => i.st == .loading && i.part == part && i.cores.contains core with
  | none => w
  | some i =>
    match w.reachOf i with
    | none => w
    | some r => ((if w.needsDict part r core then w.loadDict core part r sigOk else w).tryStart i.id)

/-! ## FREEZE (R298), TOKEN_AGE (R266) -/

def execFreezeInst (inst : Nat) := run fun w =>
  match w.inst? inst with
  | some i => if w.freezeDue i then w.saveInst i else w
  | none => w

def execTokenAge (part course reach : Nat) := run fun w =>
  let w := w.readLists part
  match w.reach? part course reach with
  | some r => if w.ready part course reach r && decide (r.waitNs + 10000 ≤ w.ns) then
      w.modReach part course reach fun r => { r with tokens := min (r.tokens + 1) 65535, waitNs := r.waitNs + 10000 } else w
  | none => w

/-! ## Budgets and deadlines (R271, R276, R295) -/

/-- A class A event waits for every unended rill of an instance. -/
def Work.holdAll (w : Work) (i : Inst) (e : HeldEvent) : Work :=
  i.rills.foldl (fun w r => if r.ended then w else w.modCtx r.core r.ctx fun c => if c.inst = i.id then { c with held := c.held ++ [e] } else c) w

def execBudgetExhausted (inst : Nat) := run fun w =>
  match w.inst? inst with
  | none => w
  | some i =>
    if i.counter ≠ 0 || i.st ≠ .running then w
    else if i.grace then w.killInst inst false
    else if i.budgetSent then w
    else
      let w := w.modInst inst fun i => { i with budgetSent := true }
      let w := w.modReach i.part i.course i.reach fun r => { r with counts := { r.counts with budgets := r.counts.budgets + 1 } }
      w.holdAll i .budget

/-- BUDGET or DEADLINE reaches the rill of the focus: it stands for its next bundle boundary (R295). -/
def execBudgetTrap := run fun w => w.modMe fun c => if c.inst = 0 then c else { c with held := c.held ++ [.budget] }
def execDeadlineTrap := run fun w => w.modMe fun c => if c.inst = 0 then c else { c with held := c.held ++ [.deadline] }
/-- EXTERN (R295). -/
def execExternTrap (value : BitVec 64) := run fun w => w.modMe fun c => if c.inst = 0 then c else { c with held := c.held ++ [.external value] }

namespace Work

/-- Iterations that a deadline cancels, and the reach without them. -/
def cancel (w : Work) (part seq k : Nat) (r : Reach) : Work :=
  let next := if r.kind = 0#2 then r.total else match w.listOf part r with | some l => l.arrived.toNat | none => r.nextIter
  let n := (if r.kind = 0#2 then r.total - r.nextIter else (BitVec.ofNat 32 next - BitVec.ofNat 32 r.nextIter).toNat) + r.reruns.length
  w.modReach part seq k fun x => { x with
    passed := true, nextIter := max next x.nextIter, reruns := []
    counts := { x.counts with deadline := true, nskip := x.counts.nskip + n, skipped := x.counts.skipped || decide (0 < n) } }

/-- ENQ.X by the scheduler. -/
def closeList (w : Work) (part : Nat) (r : Reach) : Work :=
  if r.kind = 0#2 then w else (w.attempt (schedWrite part (r.ldesc + 24#64) [1#8])).2

/-- Discard a frozen instance: its saved entries go back to the queues and are performed. -/
def discardFrozen (w : Work) (i : Inst) : Work :=
  let w := match i.saved with | some s => w.requeueEntries i.cores s | none => w
  (w.modInst i.id fun i => { i with owners := i.owners.map fun _ => none }).killInst i.id false

/-- R276, in its order. -/
def deadlinePassed (w : Work) (part seq k : Nat) (r : Reach) : Work :=
  let w := w.cancel part seq k r
  let w := w.settleProduced part seq r.tag true
  let w := w.closeList part r
  let w := ((w.instsOf part seq k).filter fun i => i.st == .frozen || i.st == .freezing).foldl (fun w i => w.discardFrozen i) w
  let w := (w.instsOf part seq k).foldl (fun w i =>
    if r.grace = 0 then w.killInst i.id false
    else (w.modInst i.id fun i => { i with counter := r.grace, grace := true }).holdAll i .deadline) w
  w.modPart part fun p => { p with selected := match p.selected with
    | some s => if s.course = seq ∧ s.reach = k then none else some s
    | none => none }

end Work

def execReachDeadline (part course reach : Nat) := run fun w =>
  match w.reach? part course reach with
  | some r => if r.complete || r.passed || decide (w.ns < r.deadline) then w else (w.readLists part).deadlinePassed part course reach r
  | none => w

/-! ## Completions (R48, R50, R204, R281) -/

namespace Work

/-- Is an instance complete (R48), or has a killed one left nothing behind? -/
def instDue (w : Work) (i : Inst) : Bool :=
  (w.entriesOf i.id).isEmpty &&
  match i.st with
  | .killed => true
  | .running =>
    i.rills.all (fun r => r.ended && (w.ctx r.core r.ctx).inst != i.id) &&
    i.cores.all fun n => [false, true].all fun o => let h := w.helper n o; h.inst != i.id || h.st != .running
  | _ => false

def endInst (w : Work) (i : Inst) : Work :=
  if i.st = .killed then
    -- what its entries still stored happens before whatever is placed later, as its rills' stores do (log entry 23)
    let w := w.modPart i.part fun p => { p with raceClock := max p.raceClock (Work.clockNext (w.instClock i)).toNat }
    (({ w with insts := w.insts.filter fun x => x.id != i.id }).retire i.part i.course i.reach false).undefer i.part
  else
    -- the completion is a release by its cores (R175, R194)
    let w := (w.cleanCores i.part i.cores).releasePins i.id
    let w := w.modPart i.part fun p => { p with
      raceClock := max p.raceClock (Work.clockNext (w.instClock i)).toNat
      ckUsed := p.ckUsed.filter fun s => !(Inst.slots i).contains s }
    let w := i.cores.foldl (fun w n => (w.stopHelper i.id n false).stopHelper i.id n true) w
    let w := { w with insts := w.insts.filter fun x => x.id != i.id }
    let w := w.modReach i.part i.course i.reach fun r => { r with done := if r.done.contains i.iter then r.done else r.done ++ [i.iter] }
    let w := if i.follow then w.requeue i.part i.course i.reach i.iter else w
    (w.retire i.part i.course i.reach false).undefer i.part

end Work

def execInstanceComplete (inst : Nat) := run fun w =>
  match w.inst? inst with
  | some i => if w.instDue i then (w.readLists i.part).endInst i else w
  | none => w

def execReachComplete (part course reach : Nat) := run fun w =>
  let w := w.readLists part
  match w.reach? part course reach with
  | some r => if w.reachDue part course reach r then w.completeReach part course reach else w
  | none => w

def execCourseComplete (part course : Nat) := run fun w =>
  match w.course? part course with
  | some c => if w.courseDue c then w.completeCourse part course else w
  | none => w

end Sys2Proof.Machine
end

