-- ==== Sys2Proof/Machine/Engine.lean ====
section
/-! DEFINITION. What the engine queues share (09_ordering R195 to R199, 22_ref R331): placing an entry, the entry at the head of a queue,
an engine's accesses, completion words, markers; and the slots that place copy, transform and collective entries. -/
namespace Sys2Proof.Machine

/-! ## An engine's accesses (R198, R400) -/

/-- The completion code of a failed access, and the R172 reason it carries. -/
def Bad.code : Bad → Nat
  | .poison _ => 4
  | _ => 3
def Bad.reason : Bad → Nat
  | .xlate r _ => r
  | _ => 0

/-- Where an engine reads or writes: not at or past 2 MiB of a tile store; writes reach neither flash nor a DIRECT page. -/
def engPlace (who : Issuer) (sp : Space) (addr : Word) (kind : Access) : Acc Place := do
  let pl ← place who false sp addr kind
  match pl with
  | .past => throw (.access addr)
  | .phys pa mt _ =>
    if kind = .write && (isFlash pa || (mt == 3#2 && isHost pa)) then throw (.access addr) else return pl
  | _ => return pl

/-- An engine's ordinary read and write within a line. -/
def engRead (who : Issuer) (sp : Space) (addr : Word) (n : Nat) : Acc (List Byte) := do
  let pl ← engPlace who sp addr .read
  match pl with
  | .phys pa _ _ => if isFlash pa then throw (.access addr)
  | _ => pure ()
  checkRace who pl addr n false
  readPlace who true pl addr n

def engWrite (who : Issuer) (sp : Space) (addr : Word) (bs : List Byte) : Acc Unit := do
  let pl ← engPlace who sp addr .write
  checkRace who pl addr bs.length true
  writePlace who true pl addr bs

/-- Any number of bytes, line by line. -/
def engReadMany (who : Issuer) (sp : Space) (addr : Word) (n : Nat) : Acc (List Byte) := do
  let parts ← (pieces addr.toNat (n / 128 + 2) n).mapM fun (o, l) => engRead who sp (addr + BitVec.ofNat 64 o) l
  return parts.flatten

def engWriteMany (who : Issuer) (sp : Space) (addr : Word) (bs : List Byte) : Acc Unit :=
  (pieces addr.toNat (bs.length / 128 + 2) bs.length).forM fun (o, l) =>
    engWrite who sp (addr + BitVec.ofNat 64 o) (bs.drop o |>.take l)

namespace Work

/-! ## The head of a queue -/

def headOf (w : Work) (core q : Nat) : Option Entry := (nth (w.core core).queues q).head?

/-- Replace the head. -/
def setHead (w : Work) (core q : Nat) (e : Entry) : Work :=
  w.modCore core fun c => { c with queues := setNth c.queues q (match nth c.queues q with | _ :: t => e :: t | [] => []) }

/-- The head has been performed: it leaves the queue. -/
def popHead (w : Work) (core q : Nat) : Work :=
  w.modCore core fun c => { c with queues := setNth c.queues q (nth c.queues q).tail }

/-- Act on the head of a queue of the focus's core. -/
def onHead (w : Work) (q : Nat) (f : Work → Entry → Work) : Work :=
  match w.headOf w.focus.core q with
  | some e => f w e
  | none => w

end Work

/-! ## Completion words (R199, R203) -/

/-- Write a completion word as a release: the issuing core's dirty lines go to L2 first (R175), and the line's S stamp rises past the entry's clock, a
helper's to 1. -/
def putCompletion (who : Issuer) (cw value : Word) (clock : Nat) : Acc Unit := do
  let pl ← engPlace who .global cw .write
  checkWritable who pl cw 8
  modify fun w => w.releaseFor who
  writePlace who true pl cw (leBytes 8 value.toNat)
  modify fun w => w.raiseS who.part pl (if who.helper then 1 else Work.clockNext clock)

/-- The clock of an entry as issued; a helper core has none. -/
def Issuer.time (who : Issuer) : Nat := if who.helper then 0 else who.clock.toNat

namespace Work

/-- An entry has been performed: it leaves its queue and completes with `value`; without a completion word, or with one that cannot be
written, its code counts as a fault. Its instance keeps the largest clock that an entry of it reached (R204, R205). -/
def finishEntry (w : Work) (core q : Nat) (e : Entry) (fsrc : Nat) (value : Word) (code clock : Nat) : Work :=
  let w := (w.popHead core q).modInst e.who.inst fun i => { i with engClock := max i.engClock clock }
  if e.cw = 0 then (if code = 0 then w else w.countInstFault e.who.inst fsrc code)
  else
    match putCompletion e.who e.cw value clock w with
    | (.ok (), w) => w
    | (.error _, w) => w.countInstFault e.who.inst fsrc (if code = 0 then 3 else code)

/-! ## Markers (R197) -/

/-- Is an entry the marker `id`? -/
def isMarker (id : Nat) (e : Entry) : Bool := match e.kind with | .marker m _ => m == id | _ => false

/-- A marker whose copies stand at the head of every queue of a core that holds one. -/
def dueMarker (w : Work) (core : Nat) : Option Nat :=
  let qs := (List.range 8).map fun q => nth (w.core core).queues q
  qs.findSome? fun es => match es with
    | { kind := .marker id _, .. } :: _ =>
      if qs.all fun es => !es.any (isMarker id) || ((es.head?).map (isMarker id)) == some true then some id else none
    | _ => none

/-- Remove the due markers of a core. -/
def passMarkers (w : Work) (core : Nat) : Nat → Work
  | 0 => w
  | fuel + 1 =>
    match w.dueMarker core with
    | none => w
    | some id =>
      (w.modCore core fun c => { c with queues := Vector.map (fun es => es.filter fun e => !isMarker id e) c.queues }).passMarkers core fuel

end Work

/-! ## Placing entries -/

/-- Do the entry kinds whose issue forbids the kill policy contain this one (R274)? A copy is judged by its destination. -/
def EntryKind.publishes : EntryKind → Bool
  | .route _ | .rcnt _ _ | .coll _ => true
  | _ => false

/-- Place an entry on a queue of the issuing core, or block while the queue is full (R29, R195). -/
def enqueueAct (q : Nat) (kind : EntryKind) (cw : Word) : Act Unit := modify fun w =>
  if w.queueFull w.focus.core q && !w.focus.admitted then w.block (.queue q)
  else (if kind.publishes then w.publish else w).enqueue w.focus.core q { kind := kind, cw := cw, who := w.issuer, started := false, desc := none, units := 0, page := .none, hold := [], net := none }

/-- CPY and CPY.net (R394). -/
def cpyAct (net : Bool) (q : BitVec 2) (x : BitVec 4) (c : BitVec 6) : Act Unit := do
  let w ← get
  let d := w.rdA 0 x
  let cw := w.rdS 1 c
  if net && !w.focus.super then trap { code := cPriv }
  aligned d 128
  aligned cw 8
  enqueueAct q.toNat (.copy net d) cw

def execCpy (q : BitVec 2) (x : BitVec 4) (c : BitVec 6) := runSlot (.cpy q x c) (cpyAct false q x c)
def execCpyNet (q : BitVec 2) (x : BitVec 4) (c : BitVec 6) := runSlot (.cpyNet q x c) (cpyAct true q x c)

/-- DFT.FWD and DFT.INV (R157). Of several misaligned addresses ACCESS names aS, then aD, then sC (DESIGN CHOICE, log entry 143). -/
def dftAct (inverse : Bool) (p : BitVec 1) (d s : BitVec 4) (c : BitVec 6) : Act Unit := do
  let w ← get
  let dst := w.rdA 0 d
  let src := w.rdA 1 s
  let cw := w.rdS 2 c
  aligned src 64
  aligned dst 64
  aligned cw 8
  enqueueAct 4 (.dft inverse (p == 0#1) dst src) cw

def execDftFwd (p : BitVec 1) (d s : BitVec 4) (c : BitVec 6) := runSlot (.dftFwd p d s c) (dftAct false p d s c)
def execDftInv (p : BitVec 1) (d s : BitVec 4) (c : BitVec 6) := runSlot (.dftInv p d s c) (dftAct true p d s c)

end Sys2Proof.Machine
end

