-- ==== Sys2Proof/Machine/Handle.lean ====
section
/-! DEFINITION. Weight handles (10_streaming R207 to R218, 23_ref R422, R423): the slots HREQ, HREL, HQRY, the performing of their entries,
arrivals and faults of a handle. -/
namespace Sys2Proof.Machine

/-! ## The record (R208, R209) -/

/-- Has a page read started? One whose page was found out of service when it stood next has not, before the first read of its stripe (R215, R224). -/
def PageRead.begun (x : PageRead) : Bool := x.st == .started || x.dueNs != 0 || x.members.any fun m => m.dueNs.isSome

namespace HandleRec

/-- Plane of page `i` of the extent, and the pages of a plane. -/
def planeOf (r : HandleRec) (i : Nat) : Nat := if i < r.split.toNat then 0 else 1
def pagesOf (r : HandleRec) (plane : Nat) : List Nat :=
  if plane = 0 then List.range r.split.toNat else (List.range (r.npage.toNat - r.split.toNat)).map (r.split.toNat + ·)

/-- The release clock of a transition now: one more than the largest issue clock of the rill HREQs since EMPTY, or 1. -/
def clockNow (r : HandleRec) : Nat := match r.maxClock with | some c => min (c + 1) 0xFFFFFFFF | none => 1

/-- LAT at a time. -/
def latAt (r : HandleRec) (ns : Nat) : BitVec 16 := BitVec.ofNat 16 (min ((ns - r.startNs) / 128) 0xFFFF)

/-- Has a plane's last page been written? -/
def planeDone (r : HandleRec) (plane : Nat) : Bool :=
  r.req.getLsbD plane && !r.cancelled.getLsbD plane && !r.arrived.getLsbD plane && r.reads.all fun x => r.planeOf x.page != plane

/-- The reads that have not started are cancelled; their planes never arrive (R215). -/
def cancel (r : HandleRec) : HandleRec :=
  let gone (plane : Nat) : Bool := r.reads.any fun x => !x.begun && r.planeOf x.page == plane
  { r with reads := r.reads.filter PageRead.begun
           cancelled := r.cancelled ||| (if gone 0 then 1#2 else 0#2) ||| (if gone 1 then 2#2 else 0#2) }

/-- Has every plane 0 read of the handle started? -/
def highStarted (r : HandleRec) : Bool := r.reads.all fun x => r.planeOf x.page != 0 || x.begun

/-- A handle number a request may name, with its extent, destination and control word (R210). -/
def requestBad (p : Partition) (h ext dest ctl : Word) : Bool :=
  let split := field ext 48 16
  let npage := field ext 32 16
  let req := field ctl 8 2
  !p.ownsHandle h || npage == 0#16 || split == 0#16 || decide (npage < split) ||
  decide (469762048 < (field ext 0 32).toNat + npage.toNat) || req == 0#2 || (req.getLsbD 1 && split == npage) ||
  dest.toNat % 16384 != 0 || field ctl 10 22 != 0#22 || field ctl 6 2 != 0#2 || decide (2#2 ≤ field ctl 4 2)

end HandleRec

namespace Work

/-- Give queueing numbers to reads that have none (R212). -/
def numberReads (w : Work) (h : Nat) : Work :=
  let r := w.handle h
  if !r.highStarted && r.ord == 0 then w
  else
    let (reads, n) := r.reads.foldl (fun (acc : List PageRead × Nat) x =>
      if x.order = 0 then (acc.1 ++ [{ x with order := acc.2 + 1 }], acc.2 + 1) else (acc.1 ++ [x], acc.2)) ([], w.readNext)
    { w.setHandle h { r with reads := reads } with readNext := n }

/-- Queue the page reads of a plane; under ORD 0b00 a plane 1 read is queued once every plane 0 read has started. -/
def queuePlane (w : Work) (h plane : Nat) : Work :=
  let r := w.handle h
  if !r.req.getLsbD plane then w
  else
    let late := r.ord == 0 && plane == 1 && !r.highStarted
    let pages := r.pagesOf plane
    let reads := (List.range pages.length).zip pages |>.map fun (i, p) =>
      ({ page := p, order := if late then 0 else w.readNext + 1 + i, st := .queued, dueNs := 0, block := 0, members := [] } : PageRead)
    { w.setHandle h { r with reads := r.reads ++ reads } with readNext := if late then w.readNext else w.readNext + pages.length }

/-- Planes whose pages are all written arrive, plane 0 first (R209, R212). -/
def arrivals (w : Work) (h : Nat) : Work :=
  [0, 1].foldl (fun w plane =>
    let r := w.handle h
    let inOrder := plane == 0 || r.ord != 0 || !r.req.getLsbD 0 || r.arrived.getLsbD 0
    if (r.state = 1 ∨ r.state = 2) ∧ r.planeDone plane ∧ inOrder then
      let arrived := r.arrived ||| (if plane = 0 then 1#2 else 2#2)
      let full := arrived = r.req
      let w := (w.releaseFor r.who).setHandle h { r with
        arrived := arrived, state := if full then 3 else 2, hc := r.clockNow, lat := if full then r.latAt w.ns else r.lat }
      let w := w.handleChanged h
      if full then w.sample 1 (BitVec.ofNat 16 (h / 8192)) (w.ns - r.startNs) else w
    else w) w

/-- A handle becomes FAULTED: its reads that have not started are cancelled (R209, R224). -/
def faultHandle (w : Work) (h code : Nat) : Work :=
  let r := w.handle h
  if r.state = 0 ∨ r.state = 4 then w
  else
    let w := (w.releaseFor r.who).setHandle h { r with
      state := 4, fault := BitVec.ofNat 8 code, hc := r.clockNow, lat := r.latAt w.ns, reads := r.reads.filter PageRead.begun }
    w.handleChanged h

/-! ## Entries (R210, R211, R215) -/

/-- R210's and R24's check of 16 KiB of DEST: NORMAL or L2ONLY pages in HBM, under apertures as well (R180). -/
def destPage (who : Issuer) (addr : Word) : Acc Unit := do
  let pl ← place who false .global addr .write
  match pl with
  | .phys pa mt _ => if isHbm pa && decide (mt < 2#2) then pure () else throw (.access addr)
  | .view _ _ => checkSpan who pl addr 16384
  | _ => throw (.access addr)

/-- R210's check of DEST, page by page: 0, or the fault code. -/
def destCheck (w : Work) (who : Issuer) (dest : Word) : Nat → Nat × Work
  | 0 => (0, w)
  | n + 1 =>
    match w.destCheck who dest n with
    | (0, w) =>
      match destPage who (dest + BitVec.ofNat 64 (16384 * n)) w with
      | (.ok (), w) => (0, w)
      | (.error (.xlate _ _), w) => (2, w)
      | (.error _, w) => (3, w)
    | bad => bad

/-- The largest issue clock with one more request. -/
def withClock (m : Option Nat) (who : Issuer) : Option Nat :=
  if who.helper then m else some (max (m.getD 0) who.clock.toNat)

/-- HREQ performed. -/
def performHreq (w : Work) (who : Issuer) (h : Nat) (ext dest ctl : Word) : Work :=
  let r := w.handle h
  let split := field ext 48 16
  let npage := field ext 32 16
  let lpage := field ext 0 32
  let req := field ctl 8 2
  let prio := field ctl 0 4
  let dl := who.kdead + (field ctl 32 32).setWidth 64
  if r.state = 0 then
    match w.destCheck who dest npage.toNat with
    | (0, w) =>
      let w := w.setHandle h { HandleRec.empty with
        deadline := dl, dest := dest, split := split, npage := npage, lpage := lpage, prio := prio, part := BitVec.ofNat 2 who.part,
        ord := field ctl 4 2, req := req, state := 1, maxClock := withClock none who, startNs := w.ns, who := who }
      ((w.queuePlane h 0).queuePlane h 1).handleChanged h
    | (code, w) =>
      let m := withClock none who
      let w := w.setHandle h { HandleRec.empty with
        part := BitVec.ofNat 2 who.part, state := 4, fault := BitVec.ofNat 8 code, who := who, maxClock := m,
        hc := ({ HandleRec.empty with maxClock := m } : HandleRec).clockNow }
      -- EMPTY to FAULTED is a release at package scope (R175, R209)
      ((w.releaseFor who).countInstFault who.inst 2 code).handleChanged h
  else if r.state ≠ 4 ∧ r.lpage = lpage ∧ r.npage = npage ∧ r.split = split ∧ r.dest = dest then
    -- R211
    let new := req &&& ~~~r.req
    let w := w.setHandle h { r with
      prio := if r.prio < prio then prio else r.prio, deadline := if dl < r.deadline then dl else r.deadline, req := r.req ||| req,
      maxClock := withClock r.maxClock who, state := if r.state = 3 ∧ new ≠ 0 then 2 else r.state }
    let w := if new.getLsbD 0 then w.queuePlane h 0 else w
    let w := if new.getLsbD 1 then w.queuePlane h 1 else w
    -- a request merged while an HREL waits for started reads is cancelled by it (R215)
    let w := if r.releasing then w.setHandle h (w.handle h).cancel else w
    w.handleChanged h
  else w.countInstFault who.inst 2 7

/-- HREL performed as far as it can be: whether the handle is EMPTY now. -/
def performHrel (w : Work) (h : Nat) : Bool × Work :=
  let r := w.handle h
  if r.state = 0 then (true, w)
  else
    let r := r.cancel
    if r.reads.isEmpty then (true, (w.setHandle h .empty).handleChanged h)
    else (false, w.setHandle h { r with releasing := true })

end Work

def execHreqEntry := run fun w => w.unlessHeld fun w => w.onHead 5 fun w e =>
  match e.kind with
  | .hreq h ext dest ctl => (w.popHead w.focus.core 5).performHreq e.who h.toNat ext dest ctl
  | _ => w

def execHrelEntry := run fun w => w.onHead 5 fun w e =>
  match e.kind with
  | .hrel h =>
    match w.performHrel h.toNat with
    | (true, w) => w.popHead w.focus.core 5
    | (false, w) => w.setHead w.focus.core 5 { e with started := true }
  | _ => w

/-! ## The slots (R210, R214, R215) -/

/-- sE odd, 0 or 62 takes ILLOP before issue (R92, Machine/Checks.lean). -/
def hreqAct (h e c : BitVec 6) : Act Unit := do
  let w ← get
  let n := w.rdS 0 h
  let ext := w.rdS 1 e
  let dest := w.rdS 2 (e + 1)
  let ctl := w.rdS 3 c
  if HandleRec.requestBad (w.part w.myPart) n ext dest ctl then trap { code := cAccess, addr := n }
  enqueueAct 5 (.hreq n ext dest ctl) 0

def execHreq (h e c : BitVec 6) := runSlot (.hreq h e c) (hreqAct h e c)

def hrelAct (h : BitVec 6) : Act Unit := do
  let w ← get
  let n := w.rdS 0 h
  if !(w.part w.myPart).ownsHandle n then trap { code := cAccess, addr := n }
  enqueueAct 5 (.hrel n) 0

def execHrel (h : BitVec 6) := runSlot (.hrel h) (hrelAct h)

/-- HQRY; what it reads of an arrival is acquired by a later FENCE.acq (R204, R214). -/
def hqryAct (d h : BitVec 6) : Act Unit := do
  let w ← get
  let n := w.rdS 0 h
  if !(w.part w.myPart).ownsHandle n then trap { code := cAccess, addr := n }
  let r := w.handle n.toNat
  let lat := Config.latL2 (dieHops (w.focus.core / 32) (n.toNat / 8192))
  modify fun w => (w.modMe fun c => { c with hqryHc := max c.hqryHc (if r.state = 3 ∨ r.arrived ≠ 0 then r.hc else 0) }).put
    { kind := .sReg, reg := d.toNat, value := r.word0.setWidth 1024, lat := lat, interlocked := true }

def execHqry (d h : BitVec 6) := runSlot (.hqry d h) (hqryAct d h)

end Sys2Proof.Machine
end

