-- ==== Sys2Proof/Machine/Flash.lean ====
section
/-! DEFINITION. Flash (01_package R19, 10_streaming R212, R220 to R228): where pages lie, page reads and reconstructions, relocation, wear
levelling, health registers. What LDPC decoding finds is a free value that the row carries (log entry 2). -/
namespace Sys2Proof.Machine

/-! ## Places (R19, R212) -/

/-- The stack of logical page `p`, and its block there; a stripe's pages lie at the same place of every stack. -/
def pageStack (p : Nat) : Nat := if p % 7 < p / 7 % 8 then p % 7 else p % 7 + 1
def pageBlock (p : Nat) : Nat := p / 7 / 256
/-- Key of the page's first byte. -/
def pageKey (p : Nat) : Nat := 2 ^ 48 + 16384 * p

/-- Logical blocks of a stack: 7 TiB over seven data pages a stripe, 256 pages a block. -/
def logicalBlocks : Nat := 262144

/-- The bin of HH_RBE for `c` corrected bits (R228). -/
def rbeBin (c : Nat) : Nat := if c = 0 then 0 else min (Nat.log2 c + 1) 15

namespace Work

def block_ (w : Work) (j b : Nat) : Block := Tab.get (w.stack j).blocks b Block.mapped
def modBlock (w : Work) (j b : Nat) (f : Block → Block) : Work :=
  w.modStack j fun s => { s with blocks := Tab.set s.blocks b (f (Tab.get s.blocks b Block.mapped)) }

/-- The physical block of a logical one. -/
def physBlock (w : Work) (j l : Nat) : Nat := Tab.get (w.stack j).map l l

/-- A change of HH_RELOC, HH_SPARE or HH_UNCORR: a copy follows within 10 µs (R227). -/
def healthChanged (w : Work) (j : Nat) : Work := w.modStack j fun s => { s with copyDue := min s.copyDue (w.ns + 10000) }

/-- A read whose decoding succeeded with `c` corrected bits. -/
def countBits (w : Work) (j c : Nat) : Work :=
  w.modStack j fun s => { s with rbe := Tab.set s.rbe (rbeBin c) (satTo 64 (Tab.get s.rbe (rbeBin c) 0 + 1)) }

/-- A read of a page of a block, decoded or not; `disturbs`: for a handle or for reconstruction (R221). -/
def countRead (w : Work) (j b : Nat) (disturbs : Bool) (c : Option Nat) : Work :=
  let w := w.modBlock j b fun x => { x with disturb := if disturbs then satTo 32 (x.disturb + 1) else x.disturb, reads := x.reads + 1 }
  let w := match c with | some c => w.countBits j c | none => w
  let x := w.block_ j b
  if x.st = .mapped ∧ (w.stack j).lim.toNat ≤ x.disturb then w.todo 0 0 (.disturbLimit j b) else w

/-- A block is queued for relocation. -/
def queueBlock (w : Work) (j b : Nat) (byDisturb : Bool) : Work :=
  if (w.block_ j b).st = .mapped then w.modBlock j b fun x => { x with st := .queued, byDisturb := byDisturb } else w

/-- A page of a block needed reconstruction. A successful one relocates the block; one needed twice within 2^20 reads retires it, its data relocated
first (R222, R224). -/
def needsRecon (w : Work) (j b : Nat) (ok : Bool) : Work :=
  let w := w.modBlock j b fun x => { x with
    retire := x.retire || (match x.lastRecon with | some r => decide (x.reads - r < 2 ^ 20) | none => false), lastRecon := some x.reads }
  if ok || (w.block_ j b).retire then w.queueBlock j b false else w

/-! ## Reconstruction (R224) -/

/-- Stacks of the other seven pages of a stripe. -/
def stripeOthers (j : Nat) : List Nat := (List.range 8).filter (· != j)

/-- The block that a member's read was made from: the one it started on, or the one that its stack has now. -/
def memberBlock (w : Work) (started : List MemberRead) (l k : Nat) : Nat := ((started.find? (·.stack == k)).map (·.block)).getD (w.physBlock k l)

/-- The other members of a stripe have been read, each decoded or not as `members` says: whether stack `j`'s page of it, in logical block `l` and read from
block `b`, could be rebuilt. The counters of the failing stack say which. -/
def rebuild (w : Work) (j l b : Nat) (started : List MemberRead) (members : List (Option Nat)) : Bool × Work :=
  let others := (List.range 7).zip (stripeOthers j)
  let ok := others.all fun (i, k) => (w.stack k).inService && ((members[i]?).join).isSome
  let w := others.foldl (fun w (i, k) =>
    if (w.stack k).inService then w.countRead k (w.memberBlock started l k) true ((members[i]?).join) else w) w
  let w := if ok then w.modStack j fun s => { s with recon := satTo 32 (s.recon + 1) } else w.modStack j fun s => { s with lost := satTo 32 (s.lost + 1) }
  let w := if (w.stack j).inService then w.needsRecon j b ok else w
  (ok, w.healthChanged j)

/-- Whether a page read decodes, and with how many corrected bits: a free value. -/
def decoded (w : Work) : Option Nat × Work :=
  let (k, w) := w.free
  (if k % 2 = 0 then none else some (k / 2), w)

def decodedMany (w : Work) : Nat → List (Option Nat) × Work
  | 0 => ([], w)
  | n + 1 => let (c, w) := w.decoded; let (cs, w) := w.decodedMany n; (c :: cs, w)

/-! ## Page reads of handles (R209, R212) -/

/-- Change a handle's read of one page. -/
def modRead (w : Work) (h page : Nat) (f : PageRead → PageRead) : Work :=
  let r := w.handle h
  w.setHandle h { r with reads := r.reads.map fun x => if x.page = page then f x else x }

/-- Write a page to DEST, which must still be HBM (R24), on behalf of the rill whose request made the handle. -/
def deliverPage (w : Work) (h page : Nat) : Except Bad Unit × Work :=
  let r := w.handle h
  let data := w.bytes (pageKey (r.lpage.toNat + page)) 16384
  let addr := r.dest + BitVec.ofNat 64 (16384 * page)
  (do destPage r.who addr; engWriteMany r.who .global addr data) w

/-- A page read is over with its data: it is written and its plane may arrive. A write that cannot be made stops the handle with XLATE or
ACCESS (log entry 25). -/
def finishRead (w : Work) (h page : Nat) : Work :=
  let (res, w) := w.deliverPage h page
  let r := w.handle h
  let w := w.setHandle h { r with reads := r.reads.filter fun x => x.page != page }
  match res with
  | .ok () => w.arrivals h
  | .error (.xlate _ _) => w.faultHandle h 2
  | .error _ => w.faultHandle h 3

end Work

/-- Whose a page read is: a handle's, that of the copy entry at the head of a queue (R399), or that of the replay of a braid core's log (R299). -/
inductive ReadOf where
  | handle (h : Nat)
  | entry (core queue : Nat)
  | replay (inst bcore : Nat)
  deriving DecidableEq, Repr

/-- A page read that is not over, with its logical page and what its stack orders it by: an entry's has PRIO 0 (R399) and its rill's deadline, a
replay's PRIO 0 and the deadline of its instance's first rill (DESIGN CHOICE, log entry 135). -/
structure OpenRead where
  whose : ReadOf
  prio : Nat
  deadline : Nat
  page : Nat
  read : PageRead
  deriving DecidableEq, Repr

namespace Work

/-- Every page read that is not over. -/
def openReads (w : Work) : List OpenRead :=
  (w.handles.flatMap fun (h, r) => r.reads.map fun x => ⟨.handle h, r.prio.toNat, r.deadline.toNat, r.lpage.toNat + x.page, x⟩) ++
  (w.cores.flatMap fun (n, c) => (List.range 8).filterMap fun q => (nth c.queues q).head?.bind fun e => e.page.read.map fun x =>
    ⟨.entry n q, 0, e.who.kdead.toNat, x.page, x⟩) ++
  ((w.insts.filter fun i => i.st == .loading).flatMap fun i => i.replays.filterMap fun (b, hand) => hand.read.map fun x =>
    ⟨.replay i.id b, 0, (match i.rills.find? (!·.ended) with | some r => (w.ctx r.core r.ctx).kdead.toNat | none => 0), x.page, x⟩)

/-- Change a page read. -/
def modOpen (w : Work) (o : ReadOf) (page : Nat) (f : PageRead → PageRead) : Work :=
  match o with
  | .handle h => w.modRead h page f
  | .entry core q =>
    match w.headOf core q with
    | some e => w.setHead core q { e with page := { e.page with read := e.page.read.map f } }
    | none => w
  | .replay inst b => w.modInst inst fun i =>
    let hand := Tab.get i.replays b .none
    { i with replays := Tab.set i.replays b { hand with read := hand.read.map f } }

/-- A handle's reads that had to wait for this one's start are queued (R212). -/
def numberNext (w : Work) : ReadOf → Work
  | .handle h => w.numberReads h
  | .entry _ _ | .replay _ _ => w

/-- Is the read, for a reconstruction, of a page of stack `j` one that is still to start? -/
def PageRead.waitsFor (x : PageRead) (j : Nat) : Bool := x.st == .failed && x.members.any fun m => m.stack == j && m.dueNs.isNone

/-- The reads that a stack may start next: those of its own pages, and for reconstructions. -/
def queuedReads (w : Work) (j : Nat) : List OpenRead :=
  w.openReads.filter fun x => (x.read.st == .queued && x.read.order != 0 && pageStack x.page == j) || PageRead.waitsFor x.read j

/-- R212's order; a reconstruction has PRIO 15 (R224), the deadline of what it is for and the place in the queue that its failed read had (DESIGN
CHOICE, log entry 136). -/
def readBefore (a b : OpenRead) : Bool :=
  let key (x : OpenRead) : List Nat := [if x.read.st = .failed then 0 else 15 - x.prio, x.deadline, x.read.order]
  keysBefore (key a) (key b)

/-- Is the read of a member of a stripe going on? -/
def MemberRead.goesOn (w : Work) (m : MemberRead) : Bool := match m.dueNs with | some t => decide (w.ns < t) | none => false

/-- Does a stack read a page now? It reads one at a time (DEDUCED from R337, log entry 12). -/
def stackReads (w : Work) (j : Nat) : Bool :=
  w.openReads.any fun x => (x.read.st == .started && pageStack x.page == j) || x.read.members.any fun m => m.stack == j && MemberRead.goesOn w m

/-- A page read goes on as a reconstruction: the stripe's other pages are queued at their stacks (R224). -/
def PageRead.reconstruct (w : Work) (j : Nat) (x : PageRead) : PageRead :=
  { x with st := .failed, members := ((stripeOthers j).filter fun k => (w.stack k).inService).map fun k => ⟨k, none, 0⟩ }

/-- Start one read at a stack, if it can; one that is out of service starts none. -/
def startRead (w : Work) (j : Nat) : Work :=
  if w.stackReads j || !(w.stack j).inService then w
  else
    match w.queuedReads j with
    | [] => w
    | x :: xs =>
      let x := xs.foldl (fun b y => if readBefore y b then y else b) x
      let due := w.ns + Config.flashNs
      let blk := w.physBlock j (pageBlock x.page)
      if x.read.st = .failed then
        (w.modOpen x.whose x.read.page fun r => { r with members := r.members.map fun m => if m.stack = j then { m with dueNs := some due, block := blk } else m }).numberNext x.whose
      else (w.modOpen x.whose x.read.page fun r => { r with st := .started, dueNs := due, block := blk }).numberNext x.whose

/-- Every queued read of a page whose stack is out of service is a reconstruction (R224). -/
def readAround (w : Work) : Work :=
  w.openReads.foldl (fun w x =>
    let j := pageStack x.page
    if x.read.st = .queued ∧ x.read.order ≠ 0 ∧ !(w.stack j).inService then
      (w.modOpen x.whose x.read.page fun r => { PageRead.reconstruct w j r with block := w.physBlock j (pageBlock x.page) })
    else w) w

/-- Has every page of the stripe that a reconstruction reads been read? One of a stack that has gone out of service never is (R224). -/
def PageRead.gathered (w : Work) (x : PageRead) : Bool :=
  x.st == .failed && x.members.all fun m => match m.dueNs with | some t => decide (t ≤ w.ns) | none => !(w.stack m.stack).inService

/-- Is a page read, or its reconstruction, over now? -/
def PageRead.due (w : Work) (x : PageRead) : Bool :=
  match x.st with
  | .queued => false
  | .started => decide (x.dueNs ≤ w.ns)
  | .failed => PageRead.gathered w x

/-- What has become of a page read. -/
inductive PageEnd where
  | waits | had | lost
  | goesOn (x : PageRead)
  deriving DecidableEq, Repr

/-- The page read of a copy entry or of a replay goes on, once it is due: the page is had, or, where decoding fails, rebuilt from its stripe, or lost
(R224, R399). -/
def readOn (w : Work) (x : PageRead) : PageEnd × Work :=
  let j := pageStack x.page
  if !PageRead.due w x then (.waits, w)
  else if x.st = .started then
    let (c, w) := w.decoded
    let w := (w.countRead j x.block false c).sample 2 0xFFFF (w.ns + Config.flashNs - x.dueNs)
    (if c.isSome then .had else .goesOn (PageRead.reconstruct w j x), w)
  else
    let (ms, w) := w.decodedMany 7
    match w.rebuild j (pageBlock x.page) x.block x.members ms with
    | (true, w) => (.had, w)
    | (false, w) => (.lost, w)

/-- A page as it is now, in hand. -/
def handPage (w : Work) (hand : PageHand) (p : Nat) : PageHand := ⟨hand.pages ++ [(p, w.bytes (pageKey p) 16384)], none⟩

end Work

/-- PAGE_READ: `corrected` bits, or none where decoding failed. -/
def execPageRead (handle page : Nat) (corrected : Option Nat) := run fun w => w.unlessHeld fun w =>
  let r := w.handle handle
  match r.reads.find? fun x => x.page == page && x.st == .started && decide (x.dueNs ≤ w.ns) with
  | none => w
  | some x =>
    let j := pageStack (r.lpage.toNat + page)
    let w := (w.countRead j x.block true corrected).sample 2 (BitVec.ofNat 16 (handle / 8192)) (w.ns + Config.flashNs - x.dueNs)
    match corrected with
    | some _ => w.finishRead handle page
    | none => w.modRead handle page (Work.PageRead.reconstruct w j)

/-- PAGE_RECONSTRUCT: `members` says what decoding found on each of the other stacks, in order. -/
def execPageReconstruct (handle page : Nat) (members : List (Option Nat)) := run fun w => w.unlessHeld fun w =>
  let r := w.handle handle
  match r.reads.find? fun x => x.page == page && Work.PageRead.gathered w x with
  | none => w
  | some x =>
    let p := r.lpage.toNat + page
    match w.rebuild (pageStack p) (pageBlock p) x.block x.members members with
    | (true, w) => w.finishRead handle page
    | (false, w) =>
      let r := w.handle handle
      (w.setHandle handle { r with reads := r.reads.filter fun x => x.page != page }).faultHandle handle 1

/-! ## Relocation and wear levelling (R221, R222) -/

def execDisturbLimit (stack block : Nat) := run fun w =>
  if (w.stack stack).lim.toNat ≤ (w.block_ stack block).disturb then w.queueBlock stack block true else w

namespace Work

/-- A fresh block: one erased, else one of the spares never used. -/
def freshBlock (w : Work) (j : Nat) : Option (Nat × Work) :=
  let s := w.stack j
  match s.blocks.find? fun e => e.2.st == .erased with
  | some e => some (e.1, w)
  | none => if s.fresh < s.spare + s.retired then some (logicalBlocks + s.fresh, w.modStack j fun s => { s with fresh := s.fresh + 1 }) else none

/-- The logical block that a physical one holds. -/
def logicalOf (w : Work) (j b : Nat) : Option Nat :=
  match (w.stack j).map.find? fun e => e.2 == b with
  | some e => some e.1
  | none => if b < logicalBlocks ∧ !(w.stack j).map.any (·.1 == b) then some b else none

/-- The highest erase count of a stack. -/
def pecMax (w : Work) (j : Nat) : Nat := ((w.stack j).blocks.map (·.2.pec)).foldl max 0

end Work

/-- A page read of a relocation: it counts among the block's reads and in no disturb count; a page that does not decode is rebuilt from its stripe, or
lost (R221, R222, R224). -/
def Work.relocateRead (w : Work) (j l b : Nat) (c : Option Nat) : Work :=
  let w := w.countRead j b false c
  if c.isSome then w else let (ms, w) := w.decodedMany 7; (w.rebuild j l b [] ms).2

/-- RELOCATION_COPY: `corrected` gives what decoding finds of each page read. The copy is begun and done in one step. -/
def execRelocationCopy (stack block : Nat) (corrected : List (Option Nat)) := run fun w =>
  let x := w.block_ stack block
  if x.st ≠ .queued then w
  else
    match w.freshBlock stack with
    | none => w
    | some (b, w) =>
      let w := corrected.foldl (fun w c => w.relocateRead stack ((w.logicalOf stack block).getD block) block c) w
      let w := w.modBlock stack b fun y => { y with st := .copied, target := b, disturb := 0, byDisturb := false }
      let w := w.modBlock stack block fun y => { y with st := .copied, target := b }
      let w := w.modStack stack fun s => { s with
        totalReloc := satTo 32 (s.totalReloc + 1), disturbReloc := if x.byDisturb then satTo 32 (s.disturbReloc + 1) else s.disturbReloc }
      w.healthChanged stack

def execMapSwitch (stack block : Nat) := run fun w =>
  let x := w.block_ stack block
  match w.logicalOf stack block with
  | some l =>
    if x.st ≠ .copied ∨ x.target = block then w
    else
      let w := w.modStack stack fun s => { s with map := Tab.set s.map l x.target }
      let w := w.modBlock stack x.target fun y => { y with st := .mapped, disturb := 0 }
      w.modBlock stack block fun y => { y with st := .switched }
  | none => w

/-- Is a read that started on a block still going on, a page's own or one for a reconstruction (R221)? -/
def Work.blockInUse (w : Work) (j b : Nat) : Bool :=
  w.openReads.any fun x => (x.read.st != .queued && x.read.block == b && pageStack x.page == j) ||
    x.read.members.any fun m => m.stack == j && m.block == b && Work.MemberRead.goesOn w m

/-- BLOCK_ERASE: `ok` says whether the erase succeeds. -/
def execBlockErase (stack block : Nat) (ok : Bool) := run fun w =>
  let x := w.block_ stack block
  if x.st ≠ .switched ∨ w.blockInUse stack block then w
  else
    let gone := !ok || x.retire
    let w := w.modBlock stack block fun y => { y with
      pec := satTo 32 (y.pec + 1), st := if gone then .bad else .erased, disturb := 0, retire := false, byDisturb := false }
    if gone then
      (w.modStack stack fun s => { s with retired := satTo 16 (s.retired + 1), spare := s.spare - 1 }).healthChanged stack
    else w

def execWearLevel (stack block : Nat) := run fun w =>
  if (w.block_ stack block).pec + 1000 ≤ w.pecMax stack then w.queueBlock stack block false else w

/-! ## Health registers (R227, R228) -/

namespace Work

/-- HH_RDMAX: the block with the highest count, and the count. -/
def rdMax (w : Work) (j : Nat) : Nat × Nat :=
  ((w.stack j).blocks.filter fun e => e.2.st != .erased && e.2.st != .bad).foldl (fun b e => if b.2 < e.2.disturb then (e.1, e.2.disturb) else b) (0, 0)

/-- A register of a stack's health block by its offset below 0x100. -/
def healthReg (w : Work) (j off : Nat) : Nat :=
  let s := w.stack j
  if off = 0 then
    let live := s.blocks.filter fun e => e.2.st != .bad
    w.pecMax j * 2 ^ 32 + (live.map (·.2.pec)).sum / (logicalBlocks + s.spare)
  else if off = 0x08 then (w.rdMax j).1 * 2 ^ 32 + (w.rdMax j).2
  else if off = 0x10 then s.disturbReloc * 2 ^ 32 + s.totalReloc
  else if off = 0x18 then s.retired * 65536 + s.spare
  else if off = 0x20 then s.recon * 2 ^ 32 + s.lost
  else if off = 0x28 then s.lim.toNat
  else if 0x40 ≤ off ∧ off < 0xC0 then Tab.get s.rbe ((off - 0x40) / 8) 0
  else if off = 0xF8 then s.seq
  else 0

/-- The first 0xF8 bytes of a stack's health block. -/
def healthBytes (w : Work) (j : Nat) : List Byte := ((List.range 31).map fun k => leBytes 8 (w.healthReg j (8 * k))).flatten

end Work

/-- HEALTH_COPY: every register, then HH_SEQ, as a release (R227), at the race clock of the partition (DEDUCED, log entry 137). -/
def execHealthCopy (stack : Nat) := run fun w => w.unlessHeld fun w =>
  let bs := w.healthBytes stack
  let w := w.modStack stack fun s => { s with seq := satTo 64 (s.seq + 1), copyDue := w.ns + 1000000 }
  let seq := (w.stack stack).seq
  (List.range 4).foldl (fun w p =>
    let q := w.part p
    if !q.live then w
    else
      let a := q.hhbase + 0x100 * stack
      let w := (w.homeWrite p a (bs.take 128)).homeWrite p (a + 128) (bs.drop 128)
      let w := w.homeWrite p (a + 0xF8) (leBytes 8 seq)
      w.raiseS p (.phys (a + 0xF8) 1#2 false) (BitVec.ofNat 32 q.raceClock)) w

end Sys2Proof.Machine
end

