-- ==== Sys2Proof/Machine/Copy.lean ====
section
/-! DEFINITION. The copy engine (22_ref R394 to R400): LINEAR, BFILL, TOFLUME and FROMFLUME entries, one unit a step; the B-plane log and its
replay (14_traps R299). NETSEND is in Machine/Net.lean. -/
namespace Sys2Proof.Machine

/-! ## Descriptors (R395) -/

/-- A copy descriptor. -/
abbrev CopyDesc := BitVec 1024

namespace CopyDesc

def src (d : CopyDesc) : Word := field d 0 64
def dst (d : CopyDesc) : Word := field d 64 64
def slay (d : CopyDesc) : Word := field d 128 64
def dlay (d : CopyDesc) : Word := field d 192 64
def nrows (d : CopyDesc) : Nat := (field d 256 32).toNat
def kind (d : CopyDesc) : Nat := (field d 316 4).toNat
def c0 (d : CopyDesc) : Nat := (field d 320 8).toNat
def c1 (d : CopyDesc) : Nat := (field d 328 8).toNat
def u0 (d : CopyDesc) : Nat := (field d 336 8).toNat
def nu (d : CopyDesc) : Nat := let n := (field d 344 8).toNat; if n = 0 then 256 else n
def bfmt (d : CopyDesc) : Nat := (field d 352 4).toNat
def group (d : CopyDesc) : Nat := (field d 384 4).toNat
def member (d : CopyDesc) : Nat := (field d 388 4).toNat
def cwaddr (d : CopyDesc) : Word := field d 448 64
def metaAddr (d : CopyDesc) : Word := field d 512 64

/-- Does a layout with its base break R75 on its fields, with bases and pitches in steps of `n`? -/
def layBad (l base : Word) (n : Nat) : Bool := layoutBad l || base.toNat % n != 0 || (layoutPitch l).toNat % n != 0

/-- Does the entry report FORMAT? -/
def bad (d : CopyDesc) (net : Bool) : Bool :=
  field d 288 28 != 0#28 || field d 356 28 != 0#28 || field d 392 56 != 0#56 || field d 576 448 != 0#448 || d.nrows == 0 ||
  decide (4 < d.kind) || net != (d.kind == 4) ||
  (if d.kind = 0 then layBad d.slay d.src 128 || layBad d.dlay d.dst 128 || layoutRowLen d.slay != layoutRowLen d.dlay
   else if d.kind = 1 then
     d.dst != 0 || d.dlay != 0 || d.nrows != 1 || decide (d.c1 < d.c0) || decide (1 < d.bfmt) || layBad d.slay d.src 64
   else if d.kind = 2 then layBad d.slay d.src 128 || layoutSpace d.dlay != 0#2 || layBad d.dlay 0 128
   else if d.kind = 3 then layoutSpace d.slay != 0#2 || layBad d.slay 0 128 || layBad d.dlay d.dst 128
   else layBad d.slay d.src 128 || d.dlay != 0 || d.metaAddr.toNat % 16 != 0)

/-- Units the entry moves. -/
def total (d : CopyDesc) : Nat :=
  if d.kind = 1 then (d.c1 - d.c0 + 1) * d.nu else d.nrows * layoutRowLen (if d.kind = 3 then d.dlay else d.slay)

/-- Address of unit `n` of a layout at a base. -/
def unitAddr (l base : Word) (n : Nat) : Word :=
  base + BitVec.ofNat 64 (n / layoutRowLen l) * layoutPitch l + BitVec.ofNat 64 (128 * (n % layoutRowLen l))

end CopyDesc

/-! ## A unit read and written (R145, R396, R399) -/

/-- Space of a layout word; a reserved one never gets here. -/
def laySpace (l : Word) : Space := (spaceOf (layoutSpace l)).getD .global

/-- Where `n` bytes at an offset lie under a swizzle, and the permutation of their 16-byte chunks. -/
def swizzledPiece (t : BitVec 4) (off n : Nat) : Nat × Nat := let o := swizzle t off; (o / n * n, o % n / 16)
def permute (n x : Nat) (bs : List Byte) : List Byte :=
  if n < 16 then bs else ((List.range (n / 16)).map fun j => (bs.drop (16 * (j ^^^ x))).take 16).flatten

/-- `n` bytes at a flash address from the pages in hand, POISON from one that is lost. A page that is not among them is queued as a read at its stack, which
the entry waits for; the bytes then stand for nothing (R399). -/
def takePage (pa n : Nat) (hand : PageHand) : Acc (List Byte × PageHand) := fun w =>
  let p := (pa - 2 ^ 48) / 16384
  match hand.pages.find? fun x => x.1 == p with
  | some x => if x.2 = [] then (.error (.poison (BitVec.ofNat 64 pa)), w) else (.ok (x.2.drop (pa % 16384) |>.take n, hand), w)
  | none => (.ok (List.replicate n 0#8, { hand with read := some ⟨p, w.readNext + 1, .queued, 0, 0, []⟩ }), { w with readNext := w.readNext + 1 })

/-- Read `n` aligned bytes of a source; `page` has the flash pages in hand before and after. `rowsOk` says that flash may be read: by rows of 16 KiB and
in supervisor mode only (LINEAR). -/
def layRead (who : Issuer) (l addr : Word) (n : Nat) (rowsOk : Bool) (page : PageHand) : Acc (List Byte × PageHand) := do
  let pl ← engPlace who (laySpace l) addr .read
  match pl with
  | .tile c off =>
    let (at0, x) := swizzledPiece (layoutSwz l) off n
    checkRace who (.tile c at0) addr n false
    return (permute n x (← readPlace who true (.tile c at0) addr n), page)
  | .phys pa _ _ =>
    if isFlash pa then
      if !rowsOk then throw (.access addr)
      takePage pa n page
    else
      checkRace who pl addr n false
      return (← readPlace who true pl addr n, page)
  | _ =>
    checkRace who pl addr n false
    return (← readPlace who true pl addr n, page)

/-- Write a unit of a destination, whose region takes the destination's tags (R146, R153). -/
def layWrite (who : Issuer) (l addr : Word) (bs : List Byte) : Acc Unit := do
  let pl ← engPlace who (laySpace l) addr .write
  match pl with
  | .tile c off =>
    let (at0, x) := swizzledPiece (layoutSwz l) off 128
    checkRace who (.tile c at0) addr 128 true
    writePlace who true (.tile c at0) addr (permute 128 x bs)
    modify fun w => (w.setSwzTag c at0 (layoutSwz l)).setDomTag c at0 (layoutDom l)
  | _ =>
    checkRace who pl addr 128 true
    writePlace who true pl addr bs

/-! ## The B-plane log (R299) -/

/-- Did a fill write a unit of a column? -/
def Fill.wrote (f : Fill) (c u : Nat) : Bool :=
  let k := (u + 256 - f.u0) % 256
  decide (f.c0 ≤ c) && decide (c ≤ f.c1) && decide (k < f.nu) && decide ((c - f.c0) * f.nu + k < f.count)

/-- Column and unit of a fill's `n`-th unit. -/
def Fill.unit (f : Fill) (n : Nat) : Nat × Nat := (f.c0 + n / f.nu, (f.u0 + n % f.nu) % 256)

/-- Has every unit of a fill been rewritten by one of these? -/
def Fill.covered (f : Fill) (later : List Fill) : Bool :=
  (List.range f.count).all fun n => let (c, u) := f.unit n; later.any fun g => g.wrote c u

/-- Add a fill: fills rewritten whole are dropped, of 257 the oldest, whose units become unrecorded. -/
def FillLog.add (l : FillLog) (f : Fill) : FillLog :=
  if f.count = 0 then l
  else
    let fills := l.fills.filter fun g => !g.covered ((l.fills.drop ((l.fills.idxOf g) + 1)) ++ [f])
    let fills := fills ++ [f]
    let unrec := l.unrecorded.filter fun (c, u) => !f.wrote c u
    if fills.length ≤ 256 then ⟨fills, unrec⟩
    else
      match fills with
      | g :: rest =>
        ⟨rest, unrec ++ ((List.range g.count).map g.unit).filter fun (c, u) => !rest.any fun h => h.wrote c u⟩
      | [] => ⟨fills, unrec⟩

/-- The bytes of a fill's `n`-th unit (R397). -/
def fillRead (who : Issuer) (f : Fill) (n : Nat) (page : PageHand) : Acc (List Byte × PageHand) := do
  let c := n / f.nu
  let u := n % f.nu
  let p := layoutPitch f.layout
  if !f.rowMaj then layRead who f.layout (f.src + BitVec.ofNat 64 c * p + BitVec.ofNat 64 (64 * u)) 64 true page
  else
    (List.range 64).foldlM (fun (acc : List Byte × PageHand) j => do
      if acc.2.read.isSome then return acc
      let (b, page) ← layRead who f.layout (f.src + BitVec.ofNat 64 (64 * u + j) * p + BitVec.ofNat 64 c) 1 true acc.2
      return (acc.1 ++ b, page)) ([], page)

namespace Work

/-- Make the 64 bytes of a B-plane unit uncorrectable. -/
def spoilUnit (w : Work) (core c u : Nat) : Work :=
  let k := bplaneKey core c u 0 / 8
  { w with poison := w.poison.filter (fun x => !(decide (k ≤ x) && decide (x < k + 8))) ++ (List.range 8).map (k + ·) }

/-- Add a fill to the log of the braid core it was made on. -/
def logFill (w : Work) (inst core : Nat) (f : Fill) : Work :=
  match (w.inst? inst).bind fun i => i.cores.idxOf? core with
  | some b => w.modInst inst fun i => { i with logs := i.logs.modify b fun l => l.add f }
  | none => w

/-! ## Steps of an entry -/

/-- R400's completion of a copy entry. -/
def finishCopy (w : Work) (core q : Nat) (e : Entry) (code reason : Nat) : Work :=
  let v := BitVec.ofNat 64 (2 ^ 63 + e.units % 2 ^ 32 * 65536 + reason * 4096 + code)
  w.finishEntry core q e 5 v code e.who.time

/-- Does the issuing instance own the array of the core? -/
def ownsArray (w : Work) (who : Issuer) (core : Nat) : Bool :=
  match w.inst? who.inst with | some i => (i.ownerAt core).isSome | none => false

/-- The entry's first access: its descriptor (R394), and what is checked before any unit moves. -/
def beginCopy (w : Work) (core q : Nat) (e : Entry) : Work :=
  let (net, res, w) : Bool × Except Bad CopyDesc × Work :=
    match e.kind with
    | .copy net a => let (r, w) := engReadMany e.who .global a 128 w; (net, r.map lineOf, w)
    | .ixCopy d => (false, .ok d, w)
    | _ => (false, .error (.access 0), w)
  match res with
  | .error b => (w.modInst e.who.inst fun i => { i with published := true }).finishCopy core q e b.code b.reason
  | .ok d =>
    let e := { e with started := true, desc := some d }
    let w := w.setHead core q e
    let w := if globalCopy e then w.modInst e.who.inst fun i => { i with published := true } else w
    if d.bad net then w.finishCopy core q e 1 0
    else if d.kind = 1 ∧ !w.ownsArray e.who core then w.finishCopy core q e 3 0
    else w

/-- The fill that a BFILL entry makes. -/
def fillOf (e : Entry) (d : CopyDesc) : Fill := ⟨d.src, d.slay, d.bfmt == 1, d.c0, d.c1, d.u0, d.nu, e.units, e.who.super⟩

/-- A flume named by a tile store offset. -/
def flumeHere (who : Issuer) (off : Word) : Acc Flume := do flumeIn (← place who false .tile off .read) off

/-- Move one unit: the entry with it moved, or as it is where a flume or a page read makes it wait. A take raises the clock of the entry at the head at once. -/
def moveUnit (core q : Nat) (e : Entry) (d : CopyDesc) : Acc Entry := do
  let who := e.who
  let n := e.units
  if d.kind = 1 then
    let (bs, page) ← fillRead who (fillOf e d) n e.page
    if page.read.isSome then return { e with page := page }
    let (c, u) := (fillOf e d).unit n
    modify fun w => w.write (bplaneKey core c u 0) bs
    return { e with units := n + 1, page := page }
  else if d.kind = 2 then
    let f ← flumeHere who d.dst
    if f.count = f.size then return e
    let (bs, page) ← layRead who d.slay (CopyDesc.unitAddr d.slay d.src n) 128 true e.page
    if page.read.isSome then return { e with page := page }
    modify fun w => ((w.releaseFor who).raiseS who.part f.line (if who.helper then 1 else clockNext who.clock.toNat)).flumePut f bs
    return { e with units := n + 1, page := page }
  else if d.kind = 3 then
    let f ← flumeHere who d.src
    if f.count = 0 then return e
    checkUnits d.src (f.entry f.takes) 128
    let w ← get
    let bs := w.bytes (f.entry f.takes) 128
    let s := w.sStamp who.part f.line
    let who := if who.helper || who.clock == 0xFFFFFFFF#32 then who else { who with clock := clockMax who.clock (s.toNat + 1) }
    -- the take is an acquire (R175, R193, R396)
    set (((w.flumeTake f 1).acquireFor who).setHead core q { e with who := who })
    layWrite who d.dlay (CopyDesc.unitAddr d.dlay d.dst n) bs
    return { e with units := n + 1, who := who }
  else
    let rowsOk := who.super && d.src.toNat % 16384 == 0 && layoutRowLen d.slay == 128 && (d.nrows == 1 || (layoutPitch d.slay).toNat % 16384 == 0)
    let (bs, page) ← layRead who d.slay (CopyDesc.unitAddr d.slay d.src n) 128 rowsOk e.page
    if page.read.isSome then return { e with page := page }
    layWrite who d.dlay (CopyDesc.unitAddr d.dlay d.dst n) bs
    return { e with units := n + 1, page := page }

/-- A BFILL is over: what it wrote enters the log. -/
def endCopy (w : Work) (core q : Nat) (e : Entry) (d : CopyDesc) (code reason : Nat) : Work :=
  let w := if d.kind = 1 then w.logFill e.who.inst core (fillOf e d) else w
  w.finishCopy core q e code reason

/-- The page read that an entry waits for goes on, once it is due: the page is had as it is now, or, where decoding fails, rebuilt from its stripe; false
where it is lost (R223, R224, R399). -/
def pageStep (w : Work) (core q : Nat) (e : Entry) (x : PageRead) : Bool × Work :=
  match w.readOn x with
  | (.waits, w) => (true, w)
  | (.had, w) => (true, w.setHead core q { e with page := w.handPage e.page x.page })
  | (.goesOn y, w) => (true, w.setHead core q { e with page := { e.page with read := some y } })
  | (.lost, w) => (false, w)

/-- One step of the copy entry at the head of a queue. -/
def copyStep (w : Work) (core q : Nat) (e : Entry) : Work :=
  match e.desc, e.page.read with
  | none, _ => w.beginCopy core q e
  | some d, some x =>
    match w.pageStep core q e x with
    | (true, w) => w
    | (false, w) => w.endCopy core q e d 4 0
  | some d, none =>
    match moveUnit core q e d w with
    | (.error b, w) => w.endCopy core q ((w.headOf core q).getD e) d b.code b.reason
    | (.ok e', w) =>
      let w := w.setHead core q e'
      if CopyDesc.total d ≤ e'.units then w.endCopy core q e' d 0 0 else w

/-- The KIND that decides which row performs an entry: an unread descriptor's, 0 where it has none of its own. -/
def copyKind (w : Work) (e : Entry) : Option Nat :=
  let low (d : CopyDesc) : Nat := if 4 < d.kind then 0 else d.kind
  match e.desc, e.kind with
  | some d, _ => some (low d)
  | none, .copy _ a => some (match (engReadMany e.who .global a 128 w).1 with | .ok bs => low (lineOf bs) | .error _ => 0)
  | none, .ixCopy d => some (low d)
  | none, _ => none

/-- One step of the head of a copy queue of the focus's core, where its KIND is this one. -/
def copyRow (w : Work) (q kind : Nat) : Work :=
  if 4 ≤ q then w else w.onHead q fun w e => if w.copyKind e = some kind then w.copyStep w.focus.core q e else w

end Work

def execCopyLinear (queue : Nat) := run fun w => w.unlessHeld fun w => w.copyRow queue 0
def execCopyBfill (queue : Nat) := run fun w => w.unlessHeld fun w => w.copyRow queue 1
def execCopyToFlume (queue : Nat) := run fun w => w.unlessHeld fun w => w.copyRow queue 2
def execCopyFromFlume (queue : Nat) := run fun w => w.unlessHeld fun w => w.copyRow queue 3

/-! ## Replay (R299) -/

namespace Work

/-- Refetch a fill with the flash pages in hand; the units it does not reach become uncorrectable. No race is checked for it (log entry 27). Where a page is
missing the hand names its read, and what has been done stands for nothing. -/
def replayFill (w : Work) (i : Inst) (core : Nat) (f : Fill) (hand : PageHand) : PageHand × Work :=
  let who := { Issuer.nobody with part := i.part, inst := i.id, core := core, super := f.super, helper := true }
  ((List.range f.count).foldl (fun (acc : Bool × PageHand × Work) n =>
    let (ok, hand, w) := acc
    let (c, u) := f.unit n
    if hand.read.isSome then acc
    else if !ok then (false, hand, w.spoilUnit core c u)
    else
      match fillRead who f n hand w with
      | (.ok (bs, hand), w) => (true, hand, if hand.read.isSome then w else w.write (bplaneKey core c u 0) bs)
      | (.error _, w) => (false, hand, w.spoilUnit core c u)) (true, hand, w)).2

/-- Replay a log from its first fill with the pages in hand. -/
def replayLog (w : Work) (i : Inst) (core : Nat) (l : FillLog) (hand : PageHand) : PageHand × Work :=
  let w := l.unrecorded.foldl (fun w (c, u) => w.spoilUnit core c u) w
  l.fills.foldl (fun (acc : PageHand × Work) f => if acc.1.read.isSome then acc else acc.2.replayFill i core f acc.1) (hand, w)

/-- A replay that waits for a page read: its hand is kept, and it stands again in the next cycle. -/
def replayWaits (w : Work) (inst bcore core : Nat) (hand : PageHand) : Work :=
  let w := w.modInst inst fun i => { i with replays := Tab.set i.replays bcore hand }
  { w with postponed := w.postponed ++ [⟨core, 0, .bplaneLogReplay inst bcore⟩] }

/-- A log is replayed once every flash page it needs has been read, page reads as those of an entry (R299, R399; log entry 135). -/
def replayStep (w : Work) (i : Inst) (bcore : Nat) : Work :=
  let core := i.cores.getD bcore 0
  let hand := Tab.get i.replays bcore .none
  match hand.read with
  | some x =>
    match w.readOn x with
    | (.waits, w) => w.replayWaits i.id bcore core hand
    | (.had, w) => w.replayWaits i.id bcore core (w.handPage hand x.page)
    | (.goesOn y, w) => w.replayWaits i.id bcore core { hand with read := some y }
    | (.lost, w) => w.replayWaits i.id bcore core ⟨hand.pages ++ [(x.page, [])], none⟩
  | none =>
    let (got, v) := w.replayLog i core (i.logs.getD bcore ⟨[], []⟩) hand
    if got.read.isSome then { w with readNext := v.readNext }.replayWaits i.id bcore core got
    else (v.modInst i.id fun i => { i with replays := Tab.erase i.replays bcore }).tryStart i.id

end Work

def execBplaneLogReplay (inst bcore : Nat) := run fun w =>
  match w.inst? inst with
  | none => w
  | some i => if i.st ≠ .loading then w else w.replayStep i bcore

end Sys2Proof.Machine
end

