-- ==== Sys2Proof/Machine/Dft.lean ====
section
/-! DEFINITION. The transform unit (07_spectral R148 to R162): forward and inverse transform entries, one transform a step. -/
namespace Sys2Proof.Machine

/-! ## Headers (R151) -/

/-- A tile header as an entry reads it: the domain word, the payload addresses, the current slot. -/
structure DftHeader where
  word : Word
  pay0 : Word
  pay1 : Word
  slot : Bool

namespace DftHeader

def domain (h : DftHeader) : BitVec 2 := field h.word 0 2
def block (h : DftHeader) : Nat := (field h.word 2 4).toNat
def fmt (h : DftHeader) : Nat := (field h.word 6 5).toNat
def nblk (h : DftHeader) : Nat := let n := (field h.word 16 10).toNat; if n = 0 then 1024 else n
def rows (h : DftHeader) : Nat := let n := (field h.word 26 6).toNat; if n = 0 then 64 else n
/-- The spectral exponent of a slot. -/
def exp (h : DftHeader) (slot : Bool) : Int := (if slot then field h.word 48 16 else field h.word 32 16).toInt
def pay (h : DftHeader) (slot : Bool) : Word := if slot then h.pay1 else h.pay0
/-- Bytes of a component. -/
def width (h : DftHeader) : Nat := if h.fmt = 9 ∨ h.fmt = 21 then 4 else 2

/-- The header as 193 bits, and back. -/
def pack (h : DftHeader) : Nat := h.word.toNat + h.pay0.toNat * 2 ^ 64 + h.pay1.toNat * 2 ^ 128 + h.slot.toNat * 2 ^ 192
def unpack (x : BitVec 193) : DftHeader := ⟨field x 0 64, field x 64 64, field x 128 64, x.getLsbD 192⟩

end DftHeader

/-- Read a header: 24 bytes, and the byte that holds SLOT (log entry 28). -/
def readDftHeader (who : Issuer) (sp : Space) (addr : Word) : Acc DftHeader := do
  let bs ← engReadMany who sp addr 24
  let b ← engRead who sp (addr + 25#64) 1
  return ⟨wordOf (bs.take 8), wordOf (bs.drop 8 |>.take 8), wordOf (bs.drop 16), (b.getD 0 0).getLsbD 0⟩

/-- R158's FORMAT checks. -/
def dftFormatBad (inverse : Bool) (s d : DftHeader) : Bool :=
  (if inverse then s.domain != 1#2 || !(s.fmt == 21 || s.fmt == 20) || d.domain != 0#2 || !(d.fmt == 9 || d.fmt == 11)
   else s.domain != 0#2 || !(s.fmt == 9 || s.fmt == 11) || !(d.domain == 1#2 || d.domain == 2#2) || !(d.fmt == 21 || d.fmt == 20)) ||
  decide (s.block < 4) || decide (8 < s.block) || field s.word 11 5 != 0#5 || field d.word 11 5 != 0#5

/-- The spectral exponent of the result. -/
def dftExp (inverse : Bool) (s : DftHeader) : Int := s.exp s.slot + (if inverse then -(s.block : Int) else s.block)

/-! ## Arithmetic (R159) -/

/-- Twiddle tables of size b: cosines and sines as exact values. -/
def twiddles (sine : Bool) (b : Nat) : Array Dyadic := ((List.range b).map fun m => (fp32.value (twiddle sine m b)).dyadic).toArray

/-- Σ x_n·t((k·n) mod b), exactly. -/
def dftSum (t : Array Dyadic) (b k : Nat) (xs : List Dyadic) : Dyadic :=
  ((List.range b).zip xs).foldl (fun acc (n, x) => acc.add (x.mul (t.getD (k * n % b) ⟨0, 0⟩))) ⟨0, 0⟩

def negDy (x : Dyadic) : Dyadic := ⟨-x.num, x.exp⟩

/-- One component: rounded once to FP32, then to the destination's width. -/
def dftRound (width : Nat) (x : Dyadic) : Nat :=
  let y := (fp32.roundDy .even false x).bits
  if width = 4 then y else (fp32.convert bf16 .even y).bits

/-- Forward outputs: the pairs stored in slots, from b values. -/
def dftForward (full : Bool) (lg : Nat) (width : Nat) (xs : List Dyadic) : List (Nat × Nat) :=
  let b := 2 ^ lg
  let tc := twiddles false b
  let ts := twiddles true b
  let re (k : Nat) : Nat := let s := dftSum tc b k xs; dftRound width ⟨s.num, s.exp - lg⟩
  let im (k : Nat) : Nat := let s := dftSum ts b k xs; dftRound width ⟨-s.num, s.exp - lg⟩
  if full then (List.range b).map fun k => (re k, im k)
  else (List.range (b / 2)).map fun k => if k = 0 then (re 0, re (b / 2)) else (re k, im k)

/-- Inverse outputs from the half spectrum's slots. -/
def dftInverse (lg : Nat) (width : Nat) (slots : List (Dyadic × Dyadic)) : List Nat :=
  let b := 2 ^ lg
  let tc := twiddles false b
  let ts := twiddles true b
  let z : Dyadic := ⟨0, 0⟩
  let at_ (k : Nat) : Dyadic × Dyadic := slots.getD k (z, z)
  let spec : List (Dyadic × Dyadic) := (List.range b).map fun k =>
    if k = 0 then ((at_ 0).1, z) else if k = b / 2 then ((at_ 0).2, z)
    else if k < b / 2 then at_ k else ((at_ (b - k)).1, negDy (at_ (b - k)).2)
  let res := spec.map (·.1)
  let ims := spec.map (·.2)
  (List.range b).map fun n => dftRound width ((dftSum tc b n res).add (negDy (dftSum ts b n ims)))

/-! ## One transform (R150, R158) -/

/-- A component of `w` bytes as an FP32 value: exact. -/
def dftValue (w : Nat) (bs : List Byte) : FVal := if w = 4 then fp32.value (leNat bs) else bf16.value (leNat bs)

/-- Bytes of a row, rounded up to a multiple of 128. -/
def dftPitch (h : DftHeader) (nblk lg : Nat) : Nat := ((if h.domain = 2#2 then 2 else 1) * nblk * 2 ^ lg * h.width + 127) / 128 * 128

/-- Write bytes of a payload or header; its regions take the destination's domain (R153). -/
def dftWrite (who : Issuer) (sp : Space) (dom : BitVec 2) (addr : Word) (bs : List Byte) : Acc Unit :=
  (pieces addr.toNat (bs.length / 128 + 2) bs.length).forM fun (o, l) => do
    let a := addr + BitVec.ofNat 64 o
    let pl ← engPlace who sp a .write
    checkRace who pl a l true
    writePlace who true pl a (bs.drop o |>.take l)
    match pl with
    | .tile c off => modify fun w => w.setDomTag c off dom
    | _ => pure ()

/-- What transform of block `j` of row `r` gives, read from the source payload: whether it met a NaN or an infinity, and the outputs by
address. Both payloads' alignment comes before the read (DESIGN CHOICE, log entry 125). -/
def readTransform (who : Issuer) (sp : Space) (inverse : Bool) (s d : DftHeader) (r j : Nat) : Acc (Bool × List (Word × List Byte)) := do
  let lg := s.block
  let b := 2 ^ lg
  let nblk := s.nblk
  let src := s.pay s.slot + BitVec.ofNat 64 (r * dftPitch s nblk lg)
  let dst := d.pay (!d.slot) + BitVec.ofNat 64 (r * dftPitch d nblk lg)
  if (s.pay s.slot).toNat % 128 ≠ 0 then throw (.access (s.pay s.slot))
  if (d.pay (!d.slot)).toNat % 128 ≠ 0 then throw (.access (d.pay (!d.slot)))
  let w := s.width
  let v := d.width
  let out := fp32.nan
  let nan := if v = 4 then out else (fp32.convert bf16 .even out).bits
  if inverse then
    let slots ← (List.range (b / 2)).mapM fun f => do
      let bs ← engRead who sp (src + BitVec.ofNat 64 ((f * nblk + j) * 2 * w)) (2 * w)
      return (dftValue w (bs.take w), dftValue w (bs.drop w))
    let bad := slots.any fun (x, y) => x.isNan || x.isInf || y.isNan || y.isInf
    let ys := if bad then List.replicate b nan else dftInverse lg v (slots.map fun (x, y) => (x.dyadic, y.dyadic))
    return (bad, [(dst + BitVec.ofNat 64 (j * b * v), (ys.map (leBytes v)).flatten)])
  else
    let bs ← engReadMany who sp (src + BitVec.ofNat 64 (j * b * w)) (b * w)
    let xs := (List.range b).map fun n => dftValue w (bs.drop (n * w) |>.take w)
    let bad := xs.any fun x => x.isNan || x.isInf
    let full := d.domain == 2#2
    let ys := if bad then List.replicate (if full then b else b / 2) (nan, nan) else dftForward full lg v (xs.map (·.dyadic))
    return (bad, ((List.range ys.length).zip ys).map fun (f, re, im) =>
      (dst + BitVec.ofNat 64 ((f * nblk + j) * 2 * v), leBytes v re ++ leBytes v im))

/-- Write a transform's outputs in order. What stands before a failing write stays written (DESIGN CHOICE, log entry 125). -/
def writeOutputs (who : Issuer) (sp : Space) (dom : BitVec 2) (outs : List (Word × List Byte)) : Acc Unit :=
  outs.forM fun (a, bs) => dftWrite who sp dom a bs

/-- The fields of the destination's header word that the entry assigns, on what the word holds now. -/
def dftHeaderWord (s d : DftHeader) (now : Word) (e : Int) : Word :=
  let w := setField (setField (setField now 2 4 s.block) 16 10 (s.nblk % 1024)) 26 6 (s.rows % 64)
  setField w (if d.slot then 32 else 48) 16 (e % 65536).toNat

/-- Assign the fields of the destination's header (R158). -/
def writeDftHeader (who : Issuer) (sp : Space) (s d : DftHeader) (inverse : Bool) (addr : Word) : Acc Unit := do
  let now ← readPlace who true (← engPlace who sp addr .read) addr 8
  dftWrite who sp d.domain addr (leBytes 8 (dftHeaderWord s d (wordOf now) (dftExp inverse s)).toNat)

namespace Work

/-- R160's completion. -/
def finishDft (w : Work) (core : Nat) (e : Entry) (nanInf : Bool) (code : Nat) : Work :=
  w.finishEntry core 4 e 3 (BitVec.ofNat 64 (2 ^ 63 + nanInf.toNat * 256 + code)) code e.who.time

/-- One step of the transform entry at the head of queue 4: the headers and checks, then one transform, the last with the header's fields. -/
def dftStep (w : Work) (core : Nat) (e : Entry) (inverse tile : Bool) (dst src : Word) : Work :=
  let sp : Space := if tile then .tile else .global
  match e.desc with
  | none =>
    match (do return (← readDftHeader e.who sp src, ← readDftHeader e.who sp dst) : Acc (DftHeader × DftHeader)) w with
    | (.error b, w) => w.finishDft core e false b.code
    | (.ok (s, d), w) =>
      let x := dftExp inverse s
      if dftFormatBad inverse s d then w.finishDft core e false 1
      else if x < -32768 ∨ 32767 < x then w.finishDft core e false 2
      else w.setHead core 4 { e with started := true, desc := some (BitVec.ofNat 1024 (s.pack + d.pack * 2 ^ 193)) }
  | some x =>
    let s := DftHeader.unpack (field x 0 193)
    let d := DftHeader.unpack (field x 193 193)
    let seen := x.getLsbD 1023
    match readTransform e.who sp inverse s d (e.units / s.nblk) (e.units % s.nblk) w with
    | (.error b, w) => w.finishDft core e seen b.code
    | (.ok (bad, outs), w) =>
      let seen := seen || bad
      match writeOutputs e.who sp d.domain outs w with
      | (.error b, w) => w.finishDft core e seen b.code
      | (.ok (), w) =>
        let e := { e with units := e.units + 1, desc := some (if seen then x ||| (1#1024 <<< 1023) else x) }
        if e.units < s.rows * s.nblk then w.setHead core 4 e
        else
          match writeDftHeader e.who sp s d inverse dst w with
          | (.ok (), w) => w.finishDft core e seen 0
          | (.error b, w) => w.finishDft core e seen b.code

/-- The transform entry of a direction at the head of the focus's core. -/
def dftRow (w : Work) (inverse : Bool) : Work := w.onHead 4 fun w e =>
  match e.kind with
  | .dft inv tile dst src => if inv = inverse then w.dftStep w.focus.core e inv tile dst src else w
  | _ => w

end Work

def execDftFwdEntry := run fun w => w.unlessHeld fun w => w.dftRow false
def execDftInvEntry := run fun w => w.unlessHeld fun w => w.dftRow true

end Sys2Proof.Machine
end

