-- ==== Sys2Proof/Machine/Router.lean ====
section
/-! DEFINITION. The router engine (11_routing R229 to R236): ROUTE and RCNT, the choice of experts, route records, counters. -/
namespace Sys2Proof.Machine

/-! ## The slots (R230, R235) -/

def routeAct (a : BitVec 4) (c : BitVec 6) : Act Unit := do
  let w ← get
  let d := w.rdA 0 a
  let cw := w.rdS 1 c
  aligned d 64
  aligned cw 8
  enqueueAct 6 (.route d) cw

def execRoute (a : BitVec 4) (c : BitVec 6) := runSlot (.route a c) (routeAct a c)

def rcntAct (a : BitVec 4) (b c : BitVec 6) : Act Unit := do
  let w ← get
  let d := w.rdA 0 a
  let bank := w.rdS 1 b
  let cw := w.rdS 2 c
  aligned d 128
  if field bank 4 60 ≠ 0#60 then trap { code := cAccess, addr := d }
  aligned cw 8
  enqueueAct 6 (.rcnt d bank.toNat) cw

def execRcnt (a : BitVec 4) (b c : BitVec 6) := runSlot (.rcnt a b c) (rcntAct a b c)

/-! ## The choice (R233) -/

/-- An expert's logit with the base die that its bytes lie in. -/
structure Logit where
  expert : Nat
  value : FVal
  die : Nat

/-- The experts with the largest logit, the lowest of each base die. -/
def topLogits (ls : List Logit) : List Logit :=
  match ls with
  | [] => []
  | x :: xs =>
    let best := xs.foldl (fun b y => if b.value.lt y.value then y else b) x
    let top := ls.filter fun y => y.value.eq best.value
    top.filter fun y => top.all fun z => z.die != y.die || decide (y.expert ≤ z.expert)

/-- The `n` experts with the largest logits in rank order; between base dies the implementation chooses (log entry 2). -/
def Work.choose (w : Work) : Nat → List Logit → List Logit × Work
  | 0, _ => ([], w)
  | n + 1, ls =>
    match w.pick (topLogits ls) with
    | (some x, w) =>
      let (rest, w) := w.choose n (ls.filter fun y => y.expert != x.expert)
      (x :: rest, w)
    | (none, w) => ([], w)

/-- An enclosure of e^x for x ≤ 0, scaled by 2^P. -/
def expDown (P : Nat) (x : Dyadic) : Nat × Nat :=
  if x.num = 0 then (2 ^ P, 2 ^ P)
  else if !x.below 12 then (0, 1)
  else
    let (v, n) := expEncl P x
    (v.lo.toNat / 2 ^ (-n).toNat, v.hi.toNat / 2 ^ (-n).toNat + 1)

/-- num/den rounded to BF16. -/
def bf16Ratio (num den : Nat) : Nat := if num = 0 then 0 else (bf16.round .even false num den 0).bits

/-- exp(l)/Σ exp(l_j) rounded once: the precision grows until both ends of the enclosure agree. -/
def softmax (l top : Dyadic) (all : List Dyadic) : Nat → Nat → Nat
  | 0, _ => 0
  | fuel + 1, P =>
    let e (x : Dyadic) := expDown P (x.add ⟨-top.num, top.exp⟩)
    let n := e l
    let s := (all.map e).foldl (fun a b => (a.1 + b.1, a.2 + b.2)) (0, 0)
    let lo := bf16Ratio n.1 s.2
    let hi := bf16Ratio n.2 s.1
    if lo = hi ∨ fuel = 0 then lo else softmax l top all fuel (2 * P)

/-- A route record (R234). -/
def routeRecord (token expert weight flg rank : Nat) (last : Bool) : Word :=
  BitVec.ofNat 64 (last.toNat * 2 ^ 56 + rank * 2 ^ 52 + flg * 2 ^ 48 + weight * 2 ^ 32 + expert * 2 ^ 20 + token)

/-- The records of one token: `k` experts a token, `norm` the raw logit as weight. -/
def Work.routeToken (w : Work) (token k : Nat) (norm : Bool) (ls : List Logit) : List Word × Work :=
  let v := ls.filter fun x => !x.value.isNan
  if v.isEmpty then ([routeRecord token 0xFFF 0 1 0 true], w)
  else
    let m := min k v.length
    let (c, w) := w.choose m v
    let minf (x : Logit) : Bool := x.value.isInf && x.value.sign
    let pinf (x : Logit) : Bool := x.value.isInf && !x.value.sign
    if c.all minf then ([routeRecord token 0xFFF 0 4 0 true], w)
    else
      let outside := v.filter fun x => !c.any fun y => y.expert == x.expert
      let tie := match c.getLast? with | some y => outside.any fun x => x.value.eq y.value | none => false
      let p := (c.filter pinf).length
      let finite := (c.filter fun x => !x.value.isInf).map (·.value.dyadic)
      let top := match c with | x :: _ => x.value.dyadic | [] => ⟨0, 0⟩
      let weight (x : Logit) : Nat :=
        if 0 < p then (if pinf x then bf16Ratio 1 p else 0)
        else if norm then
          match x.value with
          | .inf neg => bf16.inf neg
          | y => (bf16.roundDy .even y.sign y.dyadic).bits
        else if x.value.isInf then 0
        else softmax x.value.dyadic top finite 6 200
      let flg := (if 0 < p then 2 else 0) + (if tie then 8 else 0)
      (((List.range c.length).zip c).map fun (rank, x) => routeRecord token x.expert (weight x) flg rank (rank + 1 == c.length), w)

/-! ## A ROUTE entry (R229, R231, R232) -/

/-- What an entry reads once: descriptor, ring descriptor (PROD and CONS as it last knows them), layer entry, records written. -/
abbrev RouteDesc := BitVec 1024

namespace RouteDesc

def lbase (d : RouteDesc) : Word := field d 0 64
def lpitch (d : RouteDesc) : Nat := (field d 64 32).toNat
def ntok (d : RouteDesc) : Nat := (field d 96 20).toNat
def tok0 (d : RouteDesc) : Nat := (field d 128 20).toNat
def layer (d : RouteDesc) : Nat := (field d 148 8).toNat
def bank (d : RouteDesc) : Nat := (field d 156 4).toNat
def ring (d : RouteDesc) : Word := field d 192 64
def rbase (d : RouteDesc) : Word := field d 512 64
def logn (d : RouteDesc) : Nat := (field d 576 5).toNat
def prod (d : RouteDesc) : BitVec 32 := field d 640 32
def cons (d : RouteDesc) : BitVec 32 := field d 672 32
def k (d : RouteDesc) : Nat := (field d 768 5).toNat
def lfmt (d : RouteDesc) : Nat := (field d 773 2).toNat
def norm (d : RouteDesc) : Bool := d.getLsbD 775
def nexp (d : RouteDesc) : Nat := (field d 776 12).toNat
def en (d : RouteDesc) : Bool := d.getLsbD 788
/-- Bytes of a logit, and of a row's logits. -/
def wide (d : RouteDesc) : Nat := if d.lfmt = 0 then 4 else 2
def rowBytes (d : RouteDesc) : Nat := d.nexp * d.wide

/-- R232's FORMAT checks. NTOK = 0, which its list does not name, is FORMAT too (DESIGN CHOICE, log entry 146). -/
def bad (d : RouteDesc) : Bool :=
  field d 116 12 != 0#12 || field d 160 32 != 0#32 || field d 256 256 != 0#256 || d.ntok == 0 || d.lbase.toNat % 128 != 0 ||
  d.lpitch % 128 != 0 || d.ring.toNat % 32 != 0 ||
  d.rbase.toNat % 128 != 0 || field d 581 27 != 0#27 || field d 608 32 != 0#32 || field d 704 64 != 0#64 || decide (d.logn < 4) ||
  decide (24 < d.logn) ||
  field d 789 43 != 0#43 || !d.en || d.k == 0 || decide (16 < d.k) || d.nexp == 0 || decide (2 ≤ d.lfmt) ||
  decide (d.lpitch < d.rowBytes)

/-- With PROD or CONS replaced. -/
def setIndices (d : RouteDesc) (prod cons : BitVec 32) : RouteDesc :=
  let m : Nat := (2 ^ 64 - 1) * 2 ^ 640
  (d &&& ~~~(BitVec.ofNat 1024 m)) ||| BitVec.ofNat 1024 ((cons.toNat * 2 ^ 32 + prod.toNat) * 2 ^ 640)

/-- Free slots of the ring; none where CONS is so corrupt that PROD − CONS is past the ring's size (DESIGN CHOICE, log entry 146). -/
def room (d : RouteDesc) : Nat := 2 ^ d.logn - (d.prod - d.cons).toNat

end RouteDesc

/-- Read descriptor, ring descriptor and layer entry. -/
def readRoute (who : Issuer) (a : Word) : Acc RouteDesc := do
  let d ← engReadMany who .global a 64
  let ring := wordOf (d.drop 24 |>.take 8)
  -- a ring address that R231 forbids reports FORMAT: nothing is read there
  let r ← if ring.toNat % 32 = 0 then engReadMany who .global ring 32 else pure (List.replicate 32 0#8)
  let w ← get
  let layer := (field (wordOf (d.drop 16 |>.take 8)) 20 8).toNat
  let pa := (w.part who.part).rltbase + 8 * layer
  -- the table stands at a physical address, and is read as everything the entry reads (R198)
  let l ← readPlace who true (.phys pa (Work.mtOf pa) false) (BitVec.ofNat 64 pa) 8
  return BitVec.ofNat 1024 (leNat (d ++ r ++ l))

/-- Base die of a logit's bytes. -/
def logitDie (who : Issuer) (addr : Word) : Acc Nat := do
  match ← engPlace who .global addr .read with
  | .phys pa _ _ => return pa / 4096 % 8
  | _ => return 8

/-- Read one row and choose its records. -/
def routeRow (who : Issuer) (d : RouteDesc) (r : Nat) : Acc (List Word) := do
  let base := d.lbase + BitVec.ofNat 64 (r * d.lpitch)
  let bs ← engReadMany who .global base d.rowBytes
  let fmt := if d.lfmt = 0 then fp32 else bf16
  -- one granule of 4 KiB lies in one base die (R21)
  let dies ← (List.range (d.rowBytes / 4096 + 2)).mapM fun g => do
    let off := if g = 0 then 0 else 4096 * g - base.toNat % 4096
    if off < d.rowBytes then logitDie who (base + BitVec.ofNat 64 off) else return 8
  let ls := (List.range d.nexp).map fun e =>
    (⟨e, fmt.value (leNat (bs.drop (e * d.wide) |>.take d.wide)), dies.getD ((base.toNat % 4096 + e * d.wide) / 4096) 8⟩ : Logit)
  modifyGet fun w => w.routeToken ((d.tok0 + r) % 2 ^ 20) d.k d.norm ls

/-- Re-read CONS: an engine access as every read of the entry, and an acquire that raises the entry's clock (R232). -/
def rereadCons (e : Entry) (d : RouteDesc) : Acc (Entry × RouteDesc) := do
  let bs ← engRead e.who .global (d.ring + 20#64) 4
  let pl ← engPlace e.who .global (d.ring + 20#64) .read
  let s := (← get).sStamp e.who.part pl 4
  let who := if e.who.clock == 0xFFFFFFFF#32 then e.who else { e.who with clock := clockMax e.who.clock (s.toNat + 1) }
  modify fun w => w.acquireFor who
  let d := d.setIndices d.prod (BitVec.ofNat 32 (leNat bs))
  return ({ e with who := who, desc := some d }, d)

namespace Work

/-- One more route record naming an expert. -/
def countExpert (w : Work) (part bank expert : Nat) : Work :=
  w.modPart part fun p =>
    let i := bank * 4096 + expert
    let n := Tab.get p.banks i 0#32
    { p with banks := Tab.set p.banks i (if n = 0xFFFFFFFF#32 then n else n + 1) }

end Work

/-- Publish a row's records: the records, PROD as a release, the counters (R203, R232). -/
def publishRow (e : Entry) (d : RouteDesc) (recs : List Word) : Acc Entry := do
  let who := e.who
  ((List.range recs.length).zip recs).forM fun (i, x) =>
    engWrite who .global (d.rbase + BitVec.ofNat 64 (8 * ((d.prod.toNat + i) % 2 ^ d.logn))) (leBytes 8 x.toNat)
  let prod := d.prod + BitVec.ofNat 32 recs.length
  let pl ← engPlace who .global (d.ring + 16#64) .write
  modify fun w => w.releaseFor who
  checkRace who pl (d.ring + 16#64) 4 true
  writePlace who true pl (d.ring + 16#64) (leBytes 4 prod.toNat)
  let clock := if who.clock == 0xFFFFFFFF#32 then who.clock else Work.clockNext who.clock.toNat
  modify fun w =>
    let w := w.raiseS who.part pl clock 4
    recs.foldl (fun w x => w.countExpert who.part d.bank (field x 20 12).toNat) w
  return { e with who := { who with clock := clock }, desc := some (d.setIndices prod d.cons), units := e.units + 1, hold := [] }

namespace Work

/-- R234's completion; `n` records. -/
def finishRoute (w : Work) (core : Nat) (e : Entry) (n code : Nat) : Work :=
  w.finishEntry core 6 e 4 (BitVec.ofNat 64 (2 ^ 63 + n * 256 + code)) code e.who.time

/-- Records written so far: PROD has moved by as many from where it was read; they are counted in bits 1023:992 of what the entry keeps. -/
def routeCount (d : RouteDesc) : Nat := (field d 992 32).toNat
def addCount (d : RouteDesc) (n : Nat) : RouteDesc :=
  field d 0 992 |>.setWidth 1024 |> (· ||| BitVec.ofNat 1024 (((routeCount d + n) % 2 ^ 32) * 2 ^ 992))

/-- One step of the ROUTE entry at the head of queue 6: what is read once; then a row; while the ring has no room, CONS again. -/
def routeStep (w : Work) (core : Nat) (e : Entry) (a : Word) : Work :=
  match e.desc with
  | none =>
    match readRoute e.who a w with
    | (.error b, w) => w.finishRoute core e 0 b.code
    | (.ok d, w) => if d.bad then w.finishRoute core e 0 1 else w.setHead core 6 { e with started := true, desc := some d }
  | some d =>
    let m : Acc (Entry × RouteDesc × List Word) := do
      let recs ← if e.hold = [] then routeRow e.who d e.units else pure e.hold
      if RouteDesc.room d < recs.length then
        let (e, d) ← rereadCons { e with hold := recs } d
        return (e, d, recs)
      return (e, d, recs)
    match m w with
    | (.error b, w) => w.finishRoute core e (routeCount d) b.code
    | (.ok (e, d, recs), w) =>
      if RouteDesc.room d < recs.length then w.setHead core 6 { e with hold := recs }
      else
        match publishRow e d recs w with
        | (.error b, w) => w.finishRoute core e (routeCount d) b.code
        | (.ok e, w) =>
          let d := addCount (e.desc.getD d) recs.length
          let e := { e with desc := some d }
          if e.units < RouteDesc.ntok d then w.setHead core 6 e else w.finishRoute core e (routeCount d) 0

/-! ## RCNT (R235, R236) -/

/-- The 16 KiB of a bank. -/
def bankBytes (w : Work) (part bank : Nat) : List Byte :=
  ((List.range 4096).map fun i => leBytes 4 (Tab.get (w.part part).banks (bank * 4096 + i) 0#32).toNat).flatten

/-- Snapshot and clear, in one action. -/
def rcntStep (w : Work) (core : Nat) (e : Entry) (dst : Word) (bank : Nat) : Work :=
  match engWriteMany e.who .global dst (w.bankBytes e.who.part bank) w with
  | (.error b, w) => w.finishRoute core e 0 b.code
  | (.ok (), w) =>
    (w.modPart e.who.part fun p => { p with banks := p.banks.filter fun x => x.1 / 4096 != bank }).finishRoute core e 0 0

end Work

def execRouteEntry := run fun w => w.unlessHeld fun w => w.onHead 6 fun w e => match e.kind with | .route a => w.routeStep w.focus.core e a | _ => w
def execRcntEntry := run fun w => w.unlessHeld fun w => w.onHead 6 fun w e => match e.kind with | .rcnt a b => w.rcntStep w.focus.core e a b | _ => w

end Sys2Proof.Machine
end

