-- ==== Sys2Proof/Machine/Net.lean ====
section
/-! DEFINITION. The network (11_routing R238 to R240, 22_ref R391, R398): group entries, NETSEND, cells and metadata received, the sender's
acknowledgement. -/
namespace Sys2Proof.Machine

/-! ## Group entries (R391) -/

namespace GroupEntry

def en (g : GroupEntry) : Bool := g.getLsbD 0
/-- Members. -/
def count (g : GroupEntry) : Nat := (field g 8 5).toNat + 1
def timeout (g : GroupEntry) : Nat := (field g 64 64).toNat
def rxbase (g : GroupEntry) : Word := field g 128 64
def rxrows (g : GroupEntry) : Nat := (field g 192 32).toNat
def rxpitch (g : GroupEntry) : Nat := (field g 224 32).toNat
def rxring (g : GroupEntry) : Word := field g 256 64
/-- Endpoint and partition of a member. -/
def endpoint (g : GroupEntry) (m : Nat) : BitVec 32 := field g (1024 + 64 * m + 32) 32
def partition (g : GroupEntry) (m : Nat) : Nat := (field g (1024 + 64 * m) 2).toNat
/-- Is the member in this package? -/
def here (g : GroupEntry) (m : Nat) : Bool := g.endpoint m == 0xFFFFFFFF#32

end GroupEntry

/-- An enabled entry of a partition's group table. -/
def Partition.group? (p : Partition) (n : Nat) : Option GroupEntry := (p.groups[n]?).bind fun g => if GroupEntry.en g then some g else none

/-- SLOT of a metadata entry (R238). -/
def metaSlot (m : BitVec 128) : Nat := (field m 0 32).toNat

/-! ## Receiving (R240, R398) -/

namespace Work

/-- Change the record of a message. -/
def modRx (w : Work) (x : RxMessage) (f : RxMessage → RxMessage) : Work :=
  { w with rx := w.rx.map fun y => if y.part = x.part ∧ y.group = x.group ∧ y.sender = x.sender ∧ y.msg = x.msg then f y else y }

def rx? (w : Work) (part group sender : Nat) (msg : BitVec 32) : Option RxMessage :=
  w.rx.find? fun y => y.part == part && y.group == group && y.sender == sender && y.msg == msg

/-- Does message number `a` come before `b`? Numbers wrap (R239). -/
def msgBefore (a b : BitVec 32) : Bool := a != b && decide (b - a < 0x80000000#32)

/-- The record of a message, made when the first of it arrives; records half the numbers' range behind it are of an earlier round and go. -/
def openRx (w : Work) (part group sender : Nat) (msg : BitVec 32) : RxMessage × Work :=
  match w.rx? part group sender msg with
  | some x => (x, w)
  | none =>
    let x : RxMessage := { part := part, group := group, sender := sender, msg := msg, base := none, refused := false, rowBytes := 0,
                           written := [], heldCells := [], delivered := 0, entries := [] }
    let old (y : RxMessage) : Bool := y.part == part && y.group == group && y.sender == sender && !decide (msg - y.msg < 0x40000000#32) && msgBefore y.msg msg
    (x, { w with rx := (w.rx.filter fun y => !old y) ++ [x] })

/-- Write one cell's payload, padding excluded; a cell written before is discarded. A message whose rows do not fit the buffer is refused
(R398). A payload that cannot be written leaves its cell unwritten (log entry 29). -/
def writeCell (w : Work) (g : GroupEntry) (x : RxMessage) (c : Cell) : Work :=
  match x.base, (w.rx? x.part x.group x.sender x.msg).map (·.written) with
  | some base, some done =>
    if x.refused || done.contains c.cell.toNat then w
    else if c.rowBytes ≠ g.rxpitch ∨ g.rxrows < base + c.nrows then w.modRx x fun y => { y with refused := true }
    else
      let n := min 256 (c.nrows * c.rowBytes - 256 * c.cell.toNat)
      match engWriteMany (schedWho x.part) .global (g.rxbase + BitVec.ofNat 64 (base * g.rxpitch + 256 * c.cell.toNat)) (c.payload.take n) w with
      | (.ok (), w) => w.modRx x fun y => { y with written := y.written ++ [c.cell.toNat] }
      | (.error _, w) => w
  | _, _ => w

/-- Is every cell that holds row `k` written? -/
def rowWritten (x : RxMessage) (k : Nat) : Bool :=
  let lo := k * x.rowBytes / 256
  let hi := ((k + 1) * x.rowBytes - 1) / 256
  (List.range (hi + 1 - lo)).all fun i => x.written.contains (lo + i)

/-- Put an entry into the receive ring: the entry, then PROD as a release; false where the ring is full or cannot be reached. -/
def ringPut (part : Nat) (ring : Word) (m : BitVec 128) : Acc Bool := do
  let who := schedWho part
  let d : BitVec 256 := BitVec.ofNat 256 (leNat (← engReadMany who .global ring 32))
  let logn := (field d 64 5).toNat
  let prod := field d 128 32
  if 2 ^ logn ≤ (prod - field d 160 32).toNat then return false
  engWriteMany who .global (field d 0 64 + BitVec.ofNat 64 (16 * (prod.toNat % 2 ^ logn))) (leBytes 16 m.toNat)
  let pl ← engPlace who .global (ring + 16#64) .write
  writePlace who true pl (ring + 16#64) (leBytes 4 (prod + 1).toNat)
  modify fun w => w.raiseS part pl 1 4
  return true

/-- Deliver the entries of a message that can be delivered, in sent order. While the ring is full or cannot be read or written the entry is held, and it is
tried again in each cycle (DESIGN CHOICE, log entry 147). -/
def deliverFrom (w : Work) (g : GroupEntry) (x : RxMessage) : Nat → Work
  | 0 => w
  | fuel + 1 =>
    match w.rx? x.part x.group x.sender x.msg with
    | none => w
    | some x =>
      let earlier := w.rx.any fun y => y.part == x.part && y.group == x.group && y.sender == x.sender && msgBefore y.msg x.msg && y.entries != []
      match x.entries with
      | [] => w
      | m :: rest =>
        if x.refused then w.modRx x fun y => { y with entries := [] }
        else if earlier || !rowWritten x x.delivered then w
        else
          match ringPut x.part g.rxring m w with
          | (.ok true, w) => (w.modRx x fun y => { y with entries := rest, delivered := y.delivered + 1 }).deliverFrom g x fuel
          | (.ok false, w) => w
          | (.error _, w) => w

/-- Deliver what can be delivered of every message. -/
def deliverAll (w : Work) : Work :=
  w.rx.foldl (fun w x =>
    if x.entries = [] then w
    else match (w.part x.part).group? x.group with
      | some g => w.unlessHeld fun w => w.deliverFrom g x x.entries.length
      | none => w) w

end Work

def execCellReceive (cell : Cell) := run fun w =>
  match (w.part cell.part).group? cell.group with
  | none => w
  | some g =>
    let (x, w) := w.openRx cell.part cell.group cell.sender cell.msg
    let w := w.modRx x fun y => { y with rowBytes := cell.rowBytes }
    match x.base with
    | none => if x.refused then w else w.modRx x fun y => { y with heldCells := y.heldCells ++ [cell] }
    | some _ => (w.writeCell g x cell).deliverAll

/-- A metadata entry arrives, in sent order; the first of a message gives the message its place. -/
def execMetadataDeliver (part group sender : Nat) (msg : BitVec 32) (entry : BitVec 128) := run fun w =>
  match (w.part part).group? group with
  | none => w
  | some g =>
    let (x, w) := w.openRx part group sender msg
    let w := w.modRx x fun y => { y with
      entries := y.entries ++ [entry], base := if y.base.isNone then some (metaSlot entry % max g.rxrows 1) else y.base }
    match w.rx? part group sender msg with
    | none => w
    | some x =>
      let w := x.heldCells.foldl (fun w c => w.writeCell g x c) w
      (w.modRx x fun y => { y with heldCells := [] }).deliverAll

/-! ## Sending (R239, R398) -/

namespace Work

/-- Rails in service. -/
def railsIn (w : Work) : List Nat := (List.range 4).filter fun r => nth w.railsUp r

/-- The rail of cell `c` of message `msg`: with all rails up, (MSG + c) mod 4; else cells are spread over those in service, by (MSG + c) mod their number
(DESIGN CHOICE, log entry 141). -/
def railOf (w : Work) (msg : BitVec 32) (c : Nat) : Nat :=
  let up := w.railsIn
  up.getD ((msg.toNat + c) % max up.length 1) 0

/-- Cells of a message with their 16-byte headers; the padding of the last one is zeros (DESIGN CHOICE, log entry 141). -/
def cutCells (msg : BitVec 32) (bs : List Byte) : List (BitVec 2176) :=
  let n := (bs.length + 255) / 256
  (List.range n).map fun c =>
    BitVec.ofNat 2176 (leNat (bs.drop (256 * c) |>.take 256) * 2 ^ 128 + n * 2 ^ 56 + c * 2 ^ 32 + msg.toNat)

/-- Packets of a message whose cells go on these rails: up to eight cells of a rail each (R313). -/
def packetsOf (cells : List (Nat × Nat)) : List Packet :=
  (List.range 4).flatMap fun r =>
    let cs := (cells.filter fun x => x.2 == r).map (·.1)
    (List.range ((cs.length + 7) / 8)).map fun k => ⟨r, cs.drop (8 * k) |>.take 8⟩

/-- Send a whole message: to another package it leaves as cells; to a member of this package it is received at once. -/
def sendMessage (w : Work) (core q : Nat) (e : Entry) (d : CopyDesc) (g : GroupEntry) : Work :=
  let rb := layoutRowLen d.slay * 128
  let metas := (List.range d.nrows).map fun k => ((e.hold.getD (2 * k + 1) 0) ++ (e.hold.getD (2 * k) 0) : BitVec 128)
  let bs := ((e.hold.drop (2 * d.nrows)).map fun x => leBytes 8 x.toNat).flatten
  let dest := (g.endpoint d.member).toNat * 4 + g.partition d.member
  let msg : BitVec 32 := BitVec.ofNat 32 (Tab.get w.msgNext dest 0)
  let w := { w with msgNext := Tab.set w.msgNext dest (msg.toNat + 1) }
  let cells := cutCells msg bs
  let id := w.sentNext
  let m : SentMessage := { id := id, entry := e, queue := q, units := e.units, cells := cells, metas := metas,
                           packets := packetsOf ((List.range cells.length).map fun c => (c, w.railOf msg c)), endpoint := g.endpoint d.member }
  let w := ({ w with sentNext := id + 1, sent := w.sent ++ [m] }).setHead core q { e with net := some id, hold := [] }
  if !g.here d.member then w
  else
    let part := g.partition d.member
    let sender := ((List.range g.count).find? fun k => g.here k && g.partition k == e.who.part).getD 0
    let refused := match (w.part part).group? d.group with
      | some r => rb != r.rxpitch || decide (r.rxrows < metaSlot (metas.getD 0 0) % max r.rxrows 1 + d.nrows)
      | none => true
    let w := if refused then w else
      let w := (List.range cells.length).foldl (fun w c => w.todo core 0 (.cellReceive
        { part := part, group := d.group, sender := sender, ncell := BitVec.ofNat 24 cells.length, cell := BitVec.ofNat 24 c, msg := msg,
          nrows := d.nrows, rowBytes := rb, payload := bs.drop (256 * c) |>.take 256 })) w
      metas.foldl (fun w x => w.todo core 0 (.metadataDeliver part d.group sender msg x)) w
    w.todo core 0 (.cellAcknowledge id refused)

/-- The metadata entries of a NETSEND, whose SLOTs must run consecutively. -/
def readMetas (who : Issuer) (d : CopyDesc) : Acc (Option (List Word)) := do
  let bs ← engReadMany who .global d.metaAddr (16 * d.nrows)
  let ws := (List.range (2 * d.nrows)).map fun k => wordOf (bs.drop (8 * k) |>.take 8)
  let slot (k : Nat) : BitVec 32 := field (ws.getD (2 * k) 0) 0 32
  return if (List.range d.nrows).all fun k => slot k == slot 0 + BitVec.ofNat 32 k then some ws else none

/-- One step of a NETSEND: its descriptor; its metadata; a unit; when all are read, the message. -/
def sendStep (w : Work) (core q : Nat) (e : Entry) : Work :=
  -- nothing of a message is written before the whole of it is sent
  let fail (w : Work) (code reason : Nat) : Work := w.finishCopy core q { e with units := 0 } code reason
  match e.desc, e.net with
  | none, _ => w.beginCopy core q e
  | some _, some _ => w
  | some d, none =>
    match (w.part e.who.part).group? (CopyDesc.group d) with
    | none => fail w 3 0
    | some g =>
      if GroupEntry.count g ≤ CopyDesc.member d then fail w 3 0
      else if e.hold = [] then
        match readMetas e.who d w with
        | (.error b, w) => fail w b.code b.reason
        | (.ok none, w) => fail w 1 0
        | (.ok (some ms), w) => w.setHead core q { e with hold := ms }
      else match e.page.read with
      | some x =>
        match w.pageStep core q e x with
        | (true, w) => w
        | (false, w) => fail w 4 0
      | none =>
        match layRead e.who (CopyDesc.slay d) (CopyDesc.unitAddr (CopyDesc.slay d) (CopyDesc.src d) e.units) 128 true e.page w with
        | (.error b, w) => fail w b.code b.reason
        | (.ok (bs, page), w) =>
          if page.read.isSome then w.setHead core q { e with page := page } else
          let e := { e with units := e.units + 1, page := page
                            hold := e.hold ++ (List.range 16).map fun k => wordOf (bs.drop (8 * k) |>.take 8) }
          if e.units < CopyDesc.total d then w.setHead core q e else w.sendMessage core q e d g

end Work

def execNetSend (queue : Nat) := run fun w => w.unlessHeld fun w =>
  if 4 ≤ queue then w else w.onHead queue fun w e => if w.copyKind e = some 4 then w.sendStep w.focus.core queue e else w

/-- The receiver has acknowledged every cell and metadata entry of a message, or refused it. -/
def execCellAcknowledge (message : Nat) (refused : Bool) := run fun w =>
  match w.sent.find? fun m => m.id == message with
  | none => w
  | some m =>
    let w := { w with sent := w.sent.filter fun x => x.id != message }
    let core := m.entry.who.core
    match w.headOf core m.queue with
    | some e => if e.net = some message then w.finishCopy core m.queue { e with units := if refused then 0 else m.units } (if refused then 7 else 0) 0 else w
    | none => w

/-- A packet of a service that is not supported is dropped and noted (R313). -/
def execUnsupportedPacket := run fun w => { w with health := w.health ++ [.unsupportedPacket] }

/-- A rail leaves service: cells not yet acknowledged move to the others (R240, R313). -/
def execRailFail (rail : Nat) := run fun w =>
  if 4 ≤ rail then w
  else
    let w : Work := { w with railsUp := setNth w.railsUp rail false, health := w.health ++ [HealthEntry.railLost rail] }
    let move (c : Nat) : Nat × Nat := (c, w.railsIn.getD (c % max w.railsIn.length 1) rail)
    { w with sent := w.sent.map fun m => { m with packets :=
        (m.packets.filter fun k => k.rail != rail) ++ Work.packetsOf ((m.packets.filter fun k => k.rail == rail).flatMap fun k => k.cells.map move) } }

end Sys2Proof.Machine
end

