-- ==== Sys2Proof/Machine/Coll.lean ====
section
/-! DEFINITION. The collective engine (15_system R314, 22_ref R390 to R393). -/
namespace Sys2Proof.Machine

/-- COLL (R390). -/
def collAct (x : BitVec 4) (c : BitVec 6) : Act Unit := do
  let w ← get
  let d := w.rdA 0 x
  let cw := w.rdS 1 c
  aligned d 64
  aligned cw 8
  enqueueAct 7 (.coll d) cw

def execColl (x : BitVec 4) (c : BitVec 6) := runSlot (.coll x c) (collAct x c)

/-! ## Descriptors (R390) -/

/-- A collective descriptor. -/
abbrev CollDesc := BitVec 512

namespace CollDesc

def src (d : CollDesc) : Word := field d 0 64
def dst (d : CollDesc) : Word := field d 64 64
def red (d : CollDesc) : Nat := (field d 140 4).toNat
def type (d : CollDesc) : Nat := (field d 144 4).toNat
def op (d : CollDesc) : Nat := (field d 148 4).toNat
def member (d : CollDesc) : Nat := (field d 152 4).toNat
def group (d : CollDesc) : Nat := (field d 156 4).toNat
def count (d : CollDesc) : Nat := (field d 160 32).toNat
def seq (d : CollDesc) : Word := field d 192 64
/-- Element bytes. -/
def size (d : CollDesc) : Nat := if d.type = 3 then 2 else if d.type = 0 ∨ d.type = 2 then 4 else 8

/-- Does the entry report FORMAT by itself? -/
def bad (d : CollDesc) : Bool :=
  d.src.toNat % 128 != 0 || d.dst.toNat % 128 != 0 || d.count == 0 || decide (2 < d.op) || decide (4 < d.type) || decide (2 < d.red) ||
  (d.op != 0 && d.red != 0) || field d 128 12 != 0#12 || field d 256 256 != 0#256

/-- What all members' entries must agree in. -/
def shape (d : CollDesc) : Nat × Nat × Nat × Nat := (d.op, d.type, d.red, d.count)

end CollDesc

/-! ## Arrival (R392, R393) -/

namespace Work

/-- A collective entry completes. -/
def finishColl (w : Work) (core : Nat) (e : Entry) (code : Nat) : Work :=
  w.finishEntry core 7 e 5 (BitVec.ofNat 64 (2 ^ 63 + code)) code e.who.time

/-- The entry at the head of a core's collective queue arrives at the engine: its descriptor is read. -/
def arriveColl (w : Work) (core : Nat) : Work :=
  match w.headOf core 7 with
  | none => w
  | some e =>
    match e.kind, e.started with
    | .coll a, false =>
      match engReadMany e.who .global a 64 w with
      | (.error b, w) => w.finishColl core e b.code
      | (.ok bs, w) =>
        let d : CollDesc := BitVec.ofNat 512 (leNat bs)
        let part := e.who.part
        let again := (w.coll ++ w.collDone.flatMap (·.members)).any fun x => x.part == part && x.group == d.group && x.seq == d.seq && x.member == d.member
        match (w.part part).group? d.group with
        | none => w.finishColl core e (if d.bad then 1 else 3)
        | some g =>
          if d.bad then w.finishColl core e 1
          else if GroupEntry.count g ≤ d.member then w.finishColl core e 3
          else if again then w.finishColl core e 1
          else
            let e := { e with started := true }
            let x : CollArrival := ⟨part, d.group, d.seq, d.member, d, w.ns, w.ns + GroupEntry.timeout g, some e, []⟩
            { w.setHead core 7 e with coll := w.coll ++ [x] }
    | _, _ => w

/-- Does an arrival come from where a group table places its member? -/
def placedBy (part : Nat) (g : GroupEntry) (x : CollArrival) : Bool :=
  if x.entry.isNone then x.part == part && !GroupEntry.here g x.member else GroupEntry.here g x.member && GroupEntry.partition g x.member == x.part

/-- The arrivals of a collective, as a partition's group table names its members, and the partition's own that the table does not place there: they
have arrived and time out (R393). -/
def collOf (w : Work) (part group : Nat) (seq : Word) : List CollArrival :=
  w.coll.filter fun x => x.group == group && x.seq == seq &&
    (x.part == part || match (w.part part).group? group with | some g => placedBy part g x | none => false)

/-- The arrivals by member, once every member's entry is there. -/
def collReady (w : Work) (part group : Nat) (seq : Word) : Option (List CollArrival) :=
  match (w.part part).group? group with
  | none => none
  | some g =>
    let xs := (w.collOf part group seq).filter (placedBy part g)
    (List.range (GroupEntry.count g)).mapM fun m => xs.find? fun x => x.member == m

/-- The members' entries complete with a code. -/
def finishMembers (w : Work) (xs : List CollArrival) (code : Nat) : Work :=
  xs.foldl (fun w x => match x.entry with | some e => w.finishColl e.who.core e code | none => w) w

/-- Complete arrivals with a code and forget them. -/
def closeColl (w : Work) (xs : List CollArrival) (code : Nat) : Work :=
  ({ w with coll := w.coll.filter fun y => !xs.contains y }).finishMembers xs code

/-! ## Reduction (R392) -/

/-- The format of a floating-point type. -/
def collFmt (type : Nat) : Fmt := if type = 2 then fp32 else if type = 3 then bf16 else fp64

/-- Reduce two elements. -/
def reduce2 (type red size x y : Nat) : Nat :=
  if type < 2 then
    let a := intVal (8 * size) true x
    let b := intVal (8 * size) true y
    if red = 0 then (x + y) % 2 ^ (8 * size) else if (red = 1) == decide (a ≤ b) then x else y
  else if red = 0 then (let z := (collFmt type).add .even x y; if ((collFmt type).value z.bits).isZero then 0 else z.bits)
  else ((collFmt type).minMax (red == 2) x y).bits

/-- Reduce by a binary tree that the engine chooses (log entry 2): two values at a time become one. -/
def reduceTree (w : Work) (type red size : Nat) : Nat → List Nat → Nat × Work
  | 0, xs => (xs.getD 0 0, w)
  | fuel + 1, xs =>
    if xs.length ≤ 1 then (xs.getD 0 0, w)
    else
      let (i, w) := w.free
      let i := i % xs.length
      let x := xs.getD i 0
      let xs := xs.eraseIdx i
      let (j, w) := w.free
      let j := j % xs.length
      w.reduceTree type red size fuel (reduce2 type red size x (xs.getD j 0) :: xs.eraseIdx j)

/-- A NaN result is canonical. -/
def canonical_ (type x : Nat) : Nat := if 2 ≤ type ∧ ((collFmt type).value x).isNan then (collFmt type).nan else x

/-- Element-wise reduction of the members' data. -/
def reduceAll (w : Work) (d : CollDesc) (data : List (List Byte)) : List Byte × Work :=
  let es := d.size
  (List.range d.count).foldl (fun (acc : List Byte × Work) i =>
    let xs := data.map fun bs => leNat (bs.drop (i * es) |>.take es)
    let (r, w) := acc.2.reduceTree d.type d.red es xs.length xs
    (acc.1 ++ leBytes es (canonical_ d.type r), w)) ([], w)

/-- A member's source: read on behalf of its rill, or what its package sent. -/
def collSource (x : CollArrival) (n : Nat) : Acc (List Byte) :=
  match x.entry with
  | none => return (x.remote ++ List.replicate n 0#8).take n
  | some e => engReadMany e.who .global (CollDesc.src x.desc) n

/-- Send a member's bytes to another package's member. -/
def sendColl (w : Work) (g : GroupEntry) (x : CollArrival) (m : Nat) (bs : List Byte) : Work :=
  { w with sentNext := w.sentNext + 1, collSent := w.collSent ++ [⟨w.sentNext, g.endpoint m, x.group, x.seq, m, bs⟩] }

/-- What the members here contribute leaves for every member in another package; its number of sends begins where the counter stood (R314). -/
def sendAcross (w : Work) (g : GroupEntry) (xs : List CollArrival) (data : List (List Byte)) (part : Nat → List Byte → List Byte) : Work :=
  ((List.range xs.length).filter fun m => !GroupEntry.here g m).foldl (fun w m =>
    (xs.zip data).foldl (fun w (x, bs) => if x.entry.isSome then w.sendColl g x m (part m bs) else w) w) w

/-- The collective is performed here: its entries complete, once every byte for other packages has been delivered (R314, R393). -/
def deliverColl (w : Work) (xs : List CollArrival) (sends : List Nat) : Work :=
  if sends.isEmpty then w.closeColl xs 0
  else { w with coll := w.coll.filter fun y => !xs.contains y, collDone := w.collDone ++ [⟨xs, sends⟩] }

/-- Another package has all bytes of a send. -/
def collDelivered (w : Work) (send : Nat) : Work :=
  let left (d : CollDone) : CollDone := { d with sends := d.sends.filter (· != send) }
  let ds := w.collDone.map left
  let w : Work := { w with collSent := w.collSent.filter fun x => x.id != send, collDone := ds.filter fun d => !d.sends.isEmpty }
  (ds.filter fun d => d.sends.isEmpty).foldl (fun w d => w.finishMembers d.members 0) w

/-- A member in another package has met ACCESS or POISON: the members here complete with the same code, arrived or waiting for delivery (R393). -/
def collFailed (w : Work) (part group : Nat) (seq : Word) (code : Nat) : Work :=
  if code ≠ 3 ∧ code ≠ 4 then w
  else
    let mine (d : CollDone) : Bool := d.members.any fun x => x.part == part && x.group == group && x.seq == seq
    let (gone, stay) := w.collDone.partition mine
    let w := ({ w with collDone := stay }).closeColl (w.collOf part group seq) code
    gone.foldl (fun w d => w.finishMembers d.members code) w

/-- Perform a collective whose entries have all arrived. `result` gives member `m`'s bytes from all sources, `part` what member `m` takes of a
source. -/
def performColl (w : Work) (g : GroupEntry) (xs : List CollArrival) (sourceBytes : Nat) (part : Nat → List Byte → List Byte)
    (result : Work → List (List Byte) → (Nat → List Byte) × Work) : Work :=
  let (err, data, w) := xs.foldl (fun (acc : Option Nat × List (List Byte) × Work) x =>
    match acc with
    | (some c, ds, w) => (some c, ds, w)
    | (none, ds, w) =>
      match collSource x sourceBytes w with
      | (.ok bs, w) => (none, ds ++ [bs], w)
      | (.error b, w) => (some b.code, ds, w)) (none, [], w)
  match err with
  | some c => w.closeColl xs c
  | none =>
    let first := w.sentNext
    let w := w.sendAcross g xs data part
    let sends := (List.range (w.sentNext - first)).map (first + ·)
    let (out, w) := result w data
    let (err, w) := ((List.range xs.length).zip xs).foldl (fun (acc : Option Nat × Work) (m, x) =>
      match acc.1, x.entry with
      | none, some e =>
        match engWriteMany e.who .global (CollDesc.dst x.desc) (out m) acc.2 with
        | (.ok (), w) => (none, w)
        | (.error b, w) => (some b.code, w)
      | _, _ => acc) (none, w)
    match err with
    | some c => w.closeColl xs c
    | none => w.deliverColl xs sends

/-- Run the collective of an operation, if it is complete and its first entry has that operation; entries that disagree all complete
FORMAT. -/
def runColl (w : Work) (part group : Nat) (seq : Word) (op : Nat) (f : GroupEntry → CollDesc → List CollArrival → Work) : Work :=
  match (w.part part).group? group, w.collReady part group seq with
  | some g, some (x :: xs) =>
    if CollDesc.op x.desc ≠ op then w
    else if xs.any fun y => CollDesc.shape y.desc != CollDesc.shape x.desc then w.closeColl (x :: xs) 1
    else f g x.desc (x :: xs)
  | _, _ => w

end Work

def execAllReduce (part group : Nat) (seq : BitVec 64) := run fun w => w.unlessHeld fun w => w.runColl part group seq 0 fun g d xs =>
  w.performColl g xs (CollDesc.count d * CollDesc.size d) (fun _ bs => bs) fun w data => let (r, w) := w.reduceAll d data; (fun _ => r, w)

def execAllGather (part group : Nat) (seq : BitVec 64) := run fun w => w.unlessHeld fun w => w.runColl part group seq 1 fun g d xs =>
  w.performColl g xs (CollDesc.count d * CollDesc.size d) (fun _ bs => bs) fun w data => (fun _ => data.flatten, w)

def execAllToAll (part group : Nat) (seq : BitVec 64) := run fun w => w.unlessHeld fun w => w.runColl part group seq 2 fun g d xs =>
  let n := CollDesc.count d * CollDesc.size d
  w.performColl g xs (xs.length * n) (fun m bs => bs.drop (m * n) |>.take n) fun w data => (fun m => (data.map fun bs => bs.drop (m * n) |>.take n).flatten, w)

/-- COLL_TIMEOUT: members are missing TIMEOUT ns after the first arrival (R393). -/
def execCollTimeout (part group : Nat) (seq : BitVec 64) := run fun w =>
  match w.collOf part group seq with
  | x :: xs => if (w.collReady part group seq).isNone && decide (x.limit ≤ w.ns) then w.closeColl (x :: xs) 5 else w
  | [] => w

end Sys2Proof.Machine
end

