-- ==== Sys2Proof/Machine/Ctrl.lean ====
section
/-! DEFINITION. The CTRL slot's waits, fences, traps and system registers (02_execution R39 to R42, 22_ref R407, R411 to R413, 23_ref R448,
24_ref R444, R445, R461, 25_ref R462, R482, 09_ordering R197, 10_streaming R213, 14_traps R294). -/
namespace Sys2Proof.Machine

/-! ## Barriers (R40 to R42) -/

/-- Rill numbers of a mask. -/
def maskRills (m : BitVec 16) : List Nat := (List.range 16).filter fun r => m.getLsbD r

/-- Has every rill of an episode's mask joined it or ended? -/
def Inst.episodeDone (i : Inst) (e : Episode) : Bool :=
  (maskRills e.mask).all fun r => e.joined.contains r || (match i.rills[r]? with | some x => x.ended | none => false)

namespace Work

/-- The clock every participant of an episode takes: one more than the largest (R204). -/
def episodeClock (w : Work) (i : Inst) (e : Episode) : BitVec 32 :=
  clockNext (((maskRills e.mask).filterMap fun r => i.rills[r]?).map w.rillClock |>.foldl max 0)

/-- Wake the rills of an instance that `which` picks after `f` changed their contexts. -/
def wakeRills (w : Work) (i : Inst) (which : Nat → Bool) (f : Ctx → Ctx) : Work :=
  (List.range i.rills.length).foldl (fun w r =>
    match i.rills[r]? with
    | some x => if which r then (w.modCtx x.core x.ctx f).wakeCtx x.core x.ctx else w
    | none => w) w

/-- Complete the episodes of an instance whose rills have all arrived (R40). -/
def completeEpisodes (w : Work) (id : Nat) : Work :=
  match w.inst? id with
  | none => w
  | some i =>
    (i.episodes.filter i.episodeDone).foldl (fun w e =>
      let clk := w.episodeClock i e
      let w := w.modInst id fun j => { j with episodes := j.episodes.filter fun x => x.mask != e.mask }
      -- an ended rill of the mask is a participant too: its core's dirty lines go to L2 (R194)
      let w := w.cleanCores i.part ((((maskRills e.mask).filterMap fun r => i.rills[r]?).filter (·.ended)).map (·.core))
      w.wakeRills i (fun r => e.joined.contains r) fun c => { c with barrGo := c.barrGo ++ [⟨c.pc, e.mask, clk⟩] }) w

/-- Is every unended rill blocked in BARR while no episode can complete (R41)? -/
def barrierDead (w : Work) (id : Nat) : Bool :=
  match w.inst? id with
  | none => false
  | some i =>
    let live := i.rills.filter fun r => !r.ended
    !live.isEmpty && live.all fun r => match (w.ctx r.core r.ctx).block with | some (.barrier _) => true | _ => false

/-- Then each of them takes BARRDEAD at its BARR bundle, in this cycle: all present it now, current or not. -/
def raiseDead (w : Work) (id : Nat) : Work :=
  if !w.barrierDead id then w
  else
    match w.inst? id with
    | none => w
    | some i =>
      let w := w.modInst id fun j => { j with episodes := [] }
      let w := w.wakeRills i (fun r => match i.rills[r]? with | some x => !x.ended | none => false) fun c => { c with barrDead := true }
      { w with turn := (i.rills.filter fun x => !x.ended).map (fun x => .rill x.core x.ctx) ++ w.turn }

/-- Join the open episode of a mask, or open one. -/
def joinEpisode (w : Work) (id : Nat) (m : BitVec 16) (rill : Nat) : Work :=
  w.modInst id fun i =>
    if i.episodes.any (fun e => e.mask == m) then
      { i with episodes := i.episodes.map fun e => if e.mask = m then { e with joined := e.joined ++ [rill] } else e }
    else { i with episodes := i.episodes ++ [⟨m, [rill], w.cycle⟩] }

end Work

/-- The completed episode for which the BARR at the program counter need not wait. -/
def Ctx.barrPass? (c : Ctx) (m : BitVec 16) : Option BarrierPass := c.barrGo.find? fun g => g.pc == c.pc && g.mask == m

/-- Leave a completed episode: its acquire (R42, R204). -/
def Work.passBarrier (w : Work) (g : BarrierPass) : Work :=
  ((w.dropClean w.focus.core fun _ => true).raiseClock g.clock.toNat).modMe fun c => { c with barrGo := c.barrGo.erase g, readS := 0 }

/-- BARR (R40, R41, R204). Every rill that joins blocks; the last to join completes the episode, and with the others it is made ready and issues its BARR
again, which the completed episode lets pass. -/
def barrAct (m : BitVec 16) : Act Unit := do
  let w ← get
  let c := w.me
  match w.myInst? with
  | none => return ()
  | some i =>
    if c.barrDead then
      modify fun w => w.modMe fun c => { c with barrDead := false }
      trap { code := cBarrDead, info := m.setWidth 64 }
    match c.barrPass? m with
    | some g => modify fun w => w.passBarrier g
    | none =>
      if !m.getLsbD c.rill || (maskRills m).any (fun r => decide (i.rills.length ≤ r)) then
        trap { code := cBarrMask, info := m.setWidth 64 }
      modify fun w =>
        let w := (w.release.joinEpisode i.id m c.rill).block (.barrier m)
        (w.completeEpisodes i.id).raiseDead i.id

def execBarr (m : BitVec 16) := runSlotKeep (.barr m) (barrAct m)

/-! ## Waits -/

/-- HWAIT (R213, R204). -/
def hwaitAct (h : BitVec 6) (m : BitVec 2) : Act Unit := do
  let w ← get
  let n := w.rdS 0 h
  if !(w.part w.myPart).ownsHandle n then trap { code := cAccess, addr := n }
  let r := w.handle n.toNat
  let fault (reason : Nat) (w0 : Word) : Act Unit := trap { code := cWfault, addr := n, info := w0, info2 := m.setWidth 64, sub := reason }
  let go (hc : Nat) : Act Unit :=
    modify fun w => ((w.dropClean w.focus.core fun _ => true).raiseClock hc).modMe fun c => { c with readS := 0 }
  match w.me.hres with
  | some (x, v) =>
    -- a transition ended the wait
    modify fun w => w.modMe fun c => { c with hres := none }
    if x = 0 then go v.toNat else fault x v
  | none =>
  match r.verdict m with
  | .fault reason => fault reason r.word0
  | .go => go r.hc
  | .wait => modify fun w => (w.setHandle n.toNat { r with waiters := r.waiters + 1 }).block (.handle n.toNat m)

def execHwait (h : BitVec 6) (m : BitVec 2) := runSlotKeep (.hwait h m) (hwaitAct h m)

/-- MWAIT (R448); through an aperture it waits on the view's word (log entry 20). -/
def mwaitAct (a : BitVec 4) (v : BitVec 6) : Act Unit := do
  let w ← get
  let addr := w.rdA 0 a
  let val := w.rdS 1 v
  if addr.toNat % 8 ≠ 0 then trap { code := cAccess, addr := addr }
  let at0 ← access (place w.issuer true .global addr .read)
  match at0 with
  | .phys _ mt _ => if 2#2 ≤ mt then trap { code := cAccess, addr := addr }
  | _ => pure ()
  match w.me.woken with
  | some s => modify fun w => (w.acquire s).modMe fun c => { c with woken := none }
  | none =>
    let (bs, pl) ← access (homeLoad .global addr 8)
    if wordOf bs ≠ val then modify fun w => w.acquire (w.sStamp w.myPart pl)
    else
      match at0 with
      | .phys pa _ _ => modify fun w => w.block (.memWord pa val false)
      | .view n off => modify fun w => w.block (.viewWord w.myPart n off val false)
      | _ => pure ()

def execMwait (a : BitVec 4) (v : BitVec 6) := runSlot (.mwait a v) (mwaitAct a v)

/-! ## Traps and returns -/

def execTrapImm (i : BitVec 16) := runSlot (.trapImm i) (trap { code := cTrap, info := i.setWidth 64 })
def execRft := runSlot .rft returnFromTrap

/-! ## Fences (R412, R413, R175, R203, R204) -/

/-- The cache and clock effects of a FENCE on the L1 lines that `which` picks; 0 acquire, 1 release, 2 full. -/
def Work.fence (w : Work) (k : BitVec 2) (sc : BitVec 3) (which : Nat → Bool) : Work :=
  if sc = 0#3 then w
  else
    let w := if k = 0#2 then w else
      ((w.cleanL1 w.myPart w.focus.core which).tick).modMe fun c => { c with relPending := true }
    if k = 1#2 then w
    else
      let c := w.me
      let w := (w.dropClean w.focus.core which).raiseClock (max c.readS c.hqryHc)
      w.modMe fun c => { c with readS := 0, hqryHc := 0 }

def execFence (k : BitVec 2) (sc : BitVec 3) := run fun w => w.fence k sc fun _ => true

def fenceRangeAct (k : BitVec 2) (sc : BitVec 3) (a : BitVec 4) (l : BitVec 6) : Act Unit := do
  let w ← get
  let base := w.rdA 0 a
  let len := w.rdS 1 l
  if field len 32 32 ≠ 0#32 then trap { code := cAccess, addr := base }
  let rs := w.physRanges w.focus.core w.myPart .read true 65540 base.toNat len.toNat
  modify fun w => w.fence k sc (Work.lineIn rs)

def execFenceR (k : BitVec 2) (sc : BitVec 3) (a : BitVec 4) (l : BitVec 6) :=
  runSlot (.fenceR k sc a l) (fenceRangeAct k sc a l)

/-- R197: with a named queue full the bundle blocks. -/
def execQfence (m : BitVec 8) := run fun w =>
  let core := w.focus.core
  if !w.focus.admitted && (List.range 8).any (fun q => m.getLsbD q && w.queueFull core q) then w.block (.qfence m.toNat)
  else w.placeMarker core m.toNat w.issuer

/-! ## System registers (R76, R444, R445, R411) -/

def mfsrAct (d k : BitVec 6) : Act Unit := do
  let w ← get
  if (k = 2#6 ∨ k = 3#6) ∧ !w.focus.super then trap { code := cPriv }
  modify fun w => w.putS d (match w.replayed 0 with | some l => field l 0 64 | none => w.sysValue k) 2

def execMfsr (d k : BitVec 6) := runSlot (.mfsr d k) (mfsrAct d k)

/-- Registers whose writes are ignored: those nobody writes, and those that user mode does not (R445). -/
def mtsrIgnored (k : BitVec 6) (super : Bool) : Bool :=
  k == 5#6 || k == 7#6 || k == 10#6 || decide (12#6 ≤ k) || (!super && (k == 1#6 || k == 4#6 || k == 6#6 || k == 9#6))

def mtsrAct (a k : BitVec 6) : Act Unit := do
  let w ← get
  if (k = 2#6 ∨ k = 3#6) ∧ !w.focus.super then trap { code := cPriv }
  if !mtsrIgnored k w.focus.super then
    modify fun w => w.put { kind := .sysReg, reg := k.toNat, value := (w.rdS 0 a).setWidth 1024, lat := 2 }

def execMtsr (a k : BitVec 6) := runSlot (.mtsr a k) (mtsrAct a k)

/-- EST lands in KEST 2 cycles after issue (R411). -/
def Work.putEst (w : Work) (v : Word) : Work := w.put { kind := .sysReg, reg := 6, value := v.setWidth 1024, lat := 2 }

def execEst (a : BitVec 6) := run fun w => w.putEst (w.rdS 0 a)
/-- Its immediate is zero-extended, unlike the others. -/
def execEstI (m : Imm 16) := run fun w => w.putEst (match m with | .short x => x.setWidth 64 | .long x => x.setWidth 64)

/-- R462. -/
def execTstamp (d : BitVec 6) := run fun w => w.putS d (BitVec.ofNat 64 w.ns) 2

/-! ## End and switch of contexts -/

/-- END (R39, R407): the rill ends, its context idles once its results have landed; barriers count it as arrived. A trap that is held for the rill
(the AUXFAULT of R293) is dropped with it: there is no rill left to take it (DESIGN CHOICE, log entry 134). -/
def execEndRill := run fun w =>
  let c := w.me
  let w := w.modMe fun c => { c with st := .blocked, block := none, loop := .none, brPend := false, dsRem := 0, micro := none, held := [] }
  let w := w.modInst c.inst fun i =>
    { i with rills := i.rills.map fun r => if r.core = w.focus.core ∧ r.ctx = w.focus.ctx ∧ !r.ended then
        { r with ended := true, finalClock := c.kclk } else r }
  (w.completeEpisodes c.inst).raiseDead c.inst

/-- YIELD (R482): the context stays ready; the next ready one, itself last, is switched to. -/
def execYield := run fun w => w.modHere fun c => { c with switching := w.nextReady w.focus.core }

/-- The cycle that a switch takes (R28): the next context that was ready by the end of the cycle before becomes the current one. -/
def execContextSwitch := run fun w => w.modHere fun c => match c.switching with
  | some n => { c with cur := (w.nextCtx w.focus.core).getD n, switching := none }
  | none => c

end Sys2Proof.Machine
end

