-- ==== Sys2Proof/Machine/IntOps.lean ====
section
/-! DEFINITION. The INT slots: arithmetic, logic, shifts, compares, moves (22_ref R380, R389, 23_ref R406, 24_ref R440 to R442,
25_ref R481). Results land in 1 cycle, products in 3, quotients in 20 (03_core R55). -/
namespace Sys2Proof.Machine

/-! ## The operations -/

/-- Number of one bits. -/
def popWord (a : Word) : Nat := ((List.range 64).filter fun i => a.getLsbD i).length
/-- Number of trailing zero bits; 64 for zero. -/
def ctzWord (a : Word) : Nat := ((List.range 64).find? fun i => a.getLsbD i).getD 64
/-- Number of leading zero bits; 64 for zero. -/
def clzWord (a : Word) : Nat := ((List.range 64).find? fun i => a.getLsbD (63 - i)).getD 64
def absWord (a : Word) : Word := if a.toInt < 0 then 0 - a else a
/-- Position, length and mask of the bit-field operand of BFX and BFI. -/
def fieldPos (b : Word) : Nat := (field b 0 6).toNat
def fieldMask (b : Word) : Word :=
  let len := (field b 8 6).toNat
  if len = 0 then 0xFFFFFFFFFFFFFFFF#64 else (1#64 <<< len) - 1
def bfxWord (a b : Word) : Word := (a >>> fieldPos b) &&& fieldMask b
def bfiWord (d a b : Word) : Word := (d &&& ~~~(fieldMask b <<< fieldPos b)) ||| ((a &&& fieldMask b) <<< fieldPos b)
/-- Shift amount: bits 5:0. -/
def shiftBy (b : Word) : Nat := (field b 0 6).toNat
def shlWord (a b : Word) : Word := a <<< shiftBy b
def shrWord (a b : Word) : Word := a >>> shiftBy b
def sraWord (a b : Word) : Word := a.sshiftRight (shiftBy b)
def rolWord (a b : Word) : Word := if shiftBy b = 0 then a else (a <<< shiftBy b) ||| (a >>> (64 - shiftBy b))
def minWord (u : Bool) (a b : Word) : Word := if u then (if a.toNat ≤ b.toNat then a else b) else (if a.toInt ≤ b.toInt then a else b)
def maxWord (u : Bool) (a b : Word) : Word := if u then (if a.toNat ≤ b.toNat then b else a) else (if a.toInt ≤ b.toInt then b else a)
/-- Bits 127:64 of the exact product. -/
def mulhWord (u : Bool) (a b : Word) : Word :=
  if u then field (a.setWidth 128 * b.setWidth 128) 64 64 else field (a.signExtend 128 * b.signExtend 128) 64 64
/-- R406. -/
def divWord (u : Bool) (a b : Word) : Word :=
  if b = 0 then 0xFFFFFFFFFFFFFFFF#64
  else if u then BitVec.ofNat 64 (a.toNat / b.toNat) else BitVec.ofInt 64 (Int.tdiv a.toInt b.toInt)
/-- R441. -/
def remWord (u : Bool) (a b : Word) : Word :=
  if b = 0 then a
  else if u then BitVec.ofNat 64 (a.toNat % b.toNat) else BitVec.ofInt 64 (Int.tmod a.toInt b.toInt)
/-- sext(a, n), n from 1 to 64. -/
def sextWord (a : Word) (n : Nat) : Word := (a <<< (64 - n)).sshiftRight (64 - n)
/-- PLOG's operations: and, or, xor, andn. -/
def plogBit (o : BitVec 2) (a b : Bool) : Bool := if o = 0#2 then a && b else if o = 1#2 then a || b else if o = 2#2 then a != b else a && !b
/-- MOVI with H = 1 keeps the low half and replaces the high one (R94). -/
def moviHigh (old v : Word) : Word := field v 0 32 ++ field old 0 32

namespace Work

/-! ## The operand forms -/

/-- sD := f sA. -/
def intUn (w : Work) (d a : BitVec 6) (f : Word → Word) : Work := w.putS d (f (w.rdS 0 a)) 1
/-- sD := f sA sB. -/
def intBin (w : Work) (d a b : BitVec 6) (lat : Nat) (f : Word → Word → Word) : Work := w.putS d (f (w.rdS 0 a) (w.rdS 1 b)) lat
/-- sD := f sA imm. -/
def intImm (w : Work) (d a : BitVec 6) (m : Word) (lat : Nat) (f : Word → Word → Word) : Work := w.putS d (f (w.rdS 0 a) m) lat
/-- The divider is busy for 20 cycles (R55, R57). -/
def useDivider (w : Work) : Work := w.modHere fun c => { c with divUntil := w.focus.issueAt + 20 }

end Work

/-! ## One meaning per instruction -/

def execAbs (d a : BitVec 6) := run fun w => w.intUn d a absWord
def execAdd (d a b : BitVec 6) := run fun w => w.intBin d a b 1 (· + ·)
def execAddI (d a : BitVec 6) (m : XImm) := run fun w => w.intImm d a m.value 1 (· + ·)
def execAdda (d a : BitVec 4) (b : BitVec 6) := run fun w => w.putA d (w.rdA 0 a + w.rdS 1 b) 1
def execAddaI (d a : BitVec 4) (m : XImm) := run fun w => w.putA d (w.rdA 0 a + m.value) 1
def execAnd (d a b : BitVec 6) := run fun w => w.intBin d a b 1 (· &&& ·)
def execAndI (d a : BitVec 6) (m : XImm) := run fun w => w.intImm d a m.value 1 (· &&& ·)
def execAndn (d a b : BitVec 6) := run fun w => w.intBin d a b 1 fun x y => x &&& ~~~y
def execAndnI (d a : BitVec 6) (m : XImm) := run fun w => w.intImm d a m.value 1 fun x y => x &&& ~~~y
def execBfi (d a b : BitVec 6) := run fun w => w.putS d (bfiWord (w.rdS 2 d) (w.rdS 0 a) (w.rdS 1 b)) 1
def execBfx (d a b : BitVec 6) := run fun w => w.intBin d a b 1 bfxWord
def execClz (d a : BitVec 6) := run fun w => w.intUn d a fun x => BitVec.ofNat 64 (clzWord x)
def execCtz (d a : BitVec 6) := run fun w => w.intUn d a fun x => BitVec.ofNat 64 (ctzWord x)
def execPopc (d a : BitVec 6) := run fun w => w.intUn d a fun x => BitVec.ofNat 64 (popWord x)
def execSub (d a b : BitVec 6) := run fun w => w.intBin d a b 1 (· - ·)
def execSubI (d a : BitVec 6) (m : XImm) := run fun w => w.intImm d a m.value 1 (· - ·)
def execMul (d a b : BitVec 6) := run fun w => w.intBin d a b 3 (· * ·)
def execMulI (d a : BitVec 6) (m : XImm) := run fun w => w.intImm d a m.value 3 (· * ·)
def execMulh (d a b : BitVec 6) (u : BitVec 1) := run fun w => w.intBin d a b 3 (mulhWord (u == 1#1))
def execMulhI (d a : BitVec 6) (m : XImm) := run fun w => w.intImm d a m.value 3 (mulhWord m.isU)
def execMad (d a b : BitVec 6) := run fun w => w.putS d (w.rdS 2 d + w.rdS 0 a * w.rdS 1 b) 3
def execMadI (d a : BitVec 6) (m : XImm) := run fun w => w.putS d (w.rdS 1 d + w.rdS 0 a * m.value) 3
def execDiv (d a b : BitVec 6) (u : BitVec 1) := run fun w => (w.intBin d a b 20 (divWord (u == 1#1))).useDivider
def execDivI (d a : BitVec 6) (m : XImm) := run fun w => (w.intImm d a m.value 20 (divWord m.isU)).useDivider
def execRem (d a b : BitVec 6) (u : BitVec 1) := run fun w => (w.intBin d a b 20 (remWord (u == 1#1))).useDivider
def execRemI (d a : BitVec 6) (m : XImm) := run fun w => (w.intImm d a m.value 20 (remWord m.isU)).useDivider
def execOr (d a b : BitVec 6) := run fun w => w.intBin d a b 1 (· ||| ·)
def execOrI (d a : BitVec 6) (m : XImm) := run fun w => w.intImm d a m.value 1 (· ||| ·)
def execXor (d a b : BitVec 6) := run fun w => w.intBin d a b 1 (· ^^^ ·)
def execXorI (d a : BitVec 6) (m : XImm) := run fun w => w.intImm d a m.value 1 (· ^^^ ·)
def execShl (d a b : BitVec 6) := run fun w => w.intBin d a b 1 shlWord
def execShlI (d a : BitVec 6) (m : BitVec 10) := run fun w => w.intImm d a (m.signExtend 64) 1 shlWord
def execShr (d a b : BitVec 6) := run fun w => w.intBin d a b 1 shrWord
def execShrI (d a : BitVec 6) (m : BitVec 10) := run fun w => w.intImm d a (m.signExtend 64) 1 shrWord
def execSra (d a b : BitVec 6) := run fun w => w.intBin d a b 1 sraWord
def execSraI (d a : BitVec 6) (m : BitVec 10) := run fun w => w.intImm d a (m.signExtend 64) 1 sraWord
def execRol (d a b : BitVec 6) := run fun w => w.intBin d a b 1 rolWord
def execRolI (d a : BitVec 6) (m : BitVec 10) := run fun w => w.intImm d a (m.signExtend 64) 1 rolWord
def execMin (d a b : BitVec 6) (u : BitVec 1) := run fun w => w.intBin d a b 1 (minWord (u == 1#1))
def execMinI (d a : BitVec 6) (m : XImm) := run fun w => w.intImm d a m.value 1 (minWord m.isU)
def execMax (d a b : BitVec 6) (u : BitVec 1) := run fun w => w.intBin d a b 1 (maxWord (u == 1#1))
def execMaxI (d a : BitVec 6) (m : XImm) := run fun w => w.intImm d a m.value 1 (maxWord m.isU)
def execCmp (c : BitVec 2) (p : BitVec 4) (a b : BitVec 6) (u : BitVec 1) :=
  run fun w => w.putP p (compareWord c (u == 1#1) (w.rdS 0 a) (w.rdS 1 b)) 1
def execCmpI (c : BitVec 2) (p : BitVec 4) (a : BitVec 6) (m : XImm) :=
  run fun w => w.putP p (compareWord c m.isU (w.rdS 0 a) m.value) 1
def execSel (d a b : BitVec 6) (f : BitVec 4) := run fun w => w.putS d (if w.rdP 2 f then w.rdS 0 a else w.rdS 1 b) 1
def execSelI (d a m : BitVec 6) (f : BitVec 4) := run fun w => w.putS d (if w.rdP 1 f then w.rdS 0 a else m.signExtend 64) 1
def execMov (d a : BitVec 6) := run fun w => w.intUn d a id
def execMovi (d : BitVec 6) (h : BitVec 1) (m : Imm 16) :=
  run fun w => w.putS d (if h = 1#1 then moviHigh (w.rdS 0 d) m.value else m.value) 1
def execMovaToA (d : BitVec 4) (a : BitVec 6) := run fun w => w.putA d (w.rdS 0 a) 1
def execMovaToS (d : BitVec 6) (a : BitVec 4) := run fun w => w.putS d (w.rdA 0 a) 1
def execPlog (d a b : BitVec 4) (o : BitVec 2) := run fun w => w.putP d (plogBit o (w.rdP 0 a) (w.rdP 1 b)) 1
def execSext (d a : BitVec 6) (n : BitVec 7) := run fun w => w.intUn d a fun x => sextWord x n.toNat

end Sys2Proof.Machine
end

