-- ==== Sys2Proof/Machine/Helper.lean ====
section
/-! DEFINITION. The helper cores (02_execution R45 to R47, 10_streaming R216, 23_ref R424, R425): the ordinary instructions, whose meaning is
the RISC-V standard's (PRESUMED, log entry 10), the ix instructions, ECALL, EBREAK, exceptions and AUXFAULT. -/
namespace Sys2Proof.Machine

namespace Work

/-! ## The helper of the focus -/

def hNow (w : Work) : Helper := w.helper w.focus.core w.focus.outfall
def modH (w : Work) (f : Helper → Helper) : Work := w.modHelper w.focus.core w.focus.outfall f
/-- x0 reads zero. -/
def hx (w : Work) (r : BitVec 5) : Word := if r = 0#5 then 0 else nth w.hNow.x r.toNat
def setHx (w : Work) (r : BitVec 5) (v : Word) : Work := w.modH fun h => { h with x := setNth h.x r.toNat v }
/-- The instruction is done: pc past its bytes, one more retired. -/
def hNext (w : Work) (len : Nat) : Work := w.modH fun h => { h with pc := h.pc + BitVec.ofNat 64 len, instret := h.instret + 1 }
def hGoto (w : Work) (pc : Word) : Work := w.modH fun h => { h with pc := pc, instret := h.instret + 1 }

/-- An exception stops the helper with AUXFAULT (R47). -/
def hFault (w : Work) (mcause mtval : Word) : Work :=
  let w := w.helperLeaves w.focus.core w.focus.outfall
  let w := w.modH fun h => { h with st := .faulted, fault := some (mcause, mtval, h.pc) }
  w.todo w.focus.core w.focus.outfall.toNat .auxfault

/-- The bytes of the instruction at the pc, as mtval holds them. -/
def hWord (w : Work) (len : Nat) : Word :=
  BitVec.ofNat 64 (leNat (w.bytes (privKey w.focus.core w.focus.outfall (w.hNow.pc.toNat % 65536)) len))
def hIllegal (w : Work) (len : Nat) : Work := w.hFault 2 (w.hWord len)

/-! ## Private memory (R46) -/

def hKey (w : Work) (a : Word) : Nat := privKey w.focus.core w.focus.outfall a.toNat
def isData (a : Word) (n : Nat) : Bool := decide (0x10000 ≤ a.toNat) && decide (a.toNat + n ≤ 0x14000)
def isReadable (a : Word) (n : Nat) : Bool := decide (a.toNat + n ≤ 0x10000) || isData a n

def hRead (w : Work) (a : Word) (n : Nat) : Word := BitVec.ofNat 64 (leNat (w.bytes (w.hKey a) n))
def hWrite (w : Work) (a : Word) (n : Nat) (v : Word) : Work := w.write (w.hKey a) (leBytes n v.toNat)

end Work

/-! ## Operations -/

/-- The low 32 bits, sign-extended. -/
def lowW (x : Word) : Word := (field x 0 32).signExtend 64

/-- Division and remainder of RV64M at `n` bits: by zero all ones and the dividend; overflow wraps. -/
def rvDiv (n : Nat) (sgn rem : Bool) (x y : Nat) : Int :=
  let a := intVal n sgn x
  let b := intVal n sgn y
  if b = 0 then (if rem then a else -1) else if rem then a.tmod b else a.tdiv b

def rvAlu (op : RvAlu) (x y : Word) : Word :=
  let s6 := y.toNat % 64
  let s5 := y.toNat % 32
  let xw : BitVec 32 := field x 0 32
  let yw : BitVec 32 := field y 0 32
  let w32 (v : BitVec 32) : Word := v.signExtend 64
  let uw : Word := xw.setWidth 64
  match op with
  | .add => x + y
  | .sub => x - y
  | .sll => x <<< s6
  | .slt => if x.slt y then 1 else 0
  | .sltu => if x < y then 1 else 0
  | .xor => x ^^^ y
  | .srl => x >>> s6
  | .sra => x.sshiftRight s6
  | .or => x ||| y
  | .and => x &&& y
  | .addW => w32 (xw + yw)
  | .subW => w32 (xw - yw)
  | .sllW => w32 (xw <<< s5)
  | .srlW => w32 (xw >>> s5)
  | .sraW => w32 (xw.sshiftRight s5)
  | .mul => x * y
  | .mulh => BitVec.ofInt 64 (x.toInt * y.toInt / 2 ^ 64)
  | .mulhsu => BitVec.ofInt 64 (x.toInt * y.toNat / 2 ^ 64)
  | .mulhu => BitVec.ofNat 64 (x.toNat * y.toNat / 2 ^ 64)
  | .div => BitVec.ofInt 64 (rvDiv 64 true false x.toNat y.toNat)
  | .divu => BitVec.ofInt 64 (rvDiv 64 false false x.toNat y.toNat)
  | .rem => BitVec.ofInt 64 (rvDiv 64 true true x.toNat y.toNat)
  | .remu => BitVec.ofInt 64 (rvDiv 64 false true x.toNat y.toNat)
  | .mulW => w32 (xw * yw)
  | .divW => w32 (BitVec.ofInt 32 (rvDiv 32 true false xw.toNat yw.toNat))
  | .divuW => w32 (BitVec.ofInt 32 (rvDiv 32 false false xw.toNat yw.toNat))
  | .remW => w32 (BitVec.ofInt 32 (rvDiv 32 true true xw.toNat yw.toNat))
  | .remuW => w32 (BitVec.ofInt 32 (rvDiv 32 false true xw.toNat yw.toNat))
  | .addUw => y + uw
  | .sh1add => y + (x <<< 1)
  | .sh2add => y + (x <<< 2)
  | .sh3add => y + (x <<< 3)
  | .sh1addUw => y + (uw <<< 1)
  | .sh2addUw => y + (uw <<< 2)
  | .sh3addUw => y + (uw <<< 3)
  | .sllUw => uw <<< s6
  | .andn => x &&& ~~~y
  | .orn => x ||| ~~~y
  | .xnor => ~~~(x ^^^ y)
  | .max => if x.slt y then y else x
  | .maxu => if x < y then y else x
  | .min => if x.slt y then x else y
  | .minu => if x < y then x else y
  | .rol => x.rotateLeft s6
  | .ror => x.rotateRight s6
  | .rolW => w32 (xw.rotateLeft s5)
  | .rorW => w32 (xw.rotateRight s5)

def rvUnary (op : RvUnary) (x : Word) : Word :=
  let xw : Word := (field x 0 32).setWidth 64
  match op with
  | .clz => BitVec.ofNat 64 (clzWord x)
  | .ctz => BitVec.ofNat 64 (ctzWord x)
  | .cpop => BitVec.ofNat 64 (popWord x)
  | .clzW => BitVec.ofNat 64 (clzWord xw - 32)
  | .ctzW => BitVec.ofNat 64 (min (ctzWord xw) 32)
  | .cpopW => BitVec.ofNat 64 (popWord xw)
  | .sextB => (field x 0 8).signExtend 64
  | .sextH => (field x 0 16).signExtend 64
  | .zextH => (field x 0 16).setWidth 64
  | .orcB => BitVec.ofNat 64 (leNat ((leBytes 8 x.toNat).map fun b => if b = 0 then 0 else 0xFF))
  | .rev8 => BitVec.ofNat 64 (leNat (leBytes 8 x.toNat).reverse)

def rvCond (c : RvCond) (x y : Word) : Bool :=
  match c with
  | .eq => x == y
  | .ne => x != y
  | .lt => x.slt y
  | .ge => !x.slt y
  | .ltu => decide (x < y)
  | .geu => decide (y ≤ x)

/-- What an AMO stores, at `n` bytes. -/
def rvAmoNew (op : RvAmo) (n : Nat) (old x : Word) : Word :=
  let s (v : Word) : Int := intVal (8 * n) true (v.toNat % 2 ^ (8 * n))
  let u (v : Word) : Nat := v.toNat % 2 ^ (8 * n)
  match op with
  | .swap => x
  | .add => old + x
  | .xor => old ^^^ x
  | .and => old &&& x
  | .or => old ||| x
  | .min => if s old ≤ s x then old else x
  | .max => if s old ≤ s x then x else old
  | .minu => if u old ≤ u x then old else x
  | .maxu => if u old ≤ u x then x else old

namespace Work

/-- A loaded value of `n` bytes. -/
def extend (n : Nat) (zx : Bool) (v : Word) : Word := if zx ∨ n = 8 then v else (v <<< (64 - 8 * n)).sshiftRight (64 - 8 * n)

/-- The readable CSRs (R46). -/
def hCsr (w : Work) (csr : BitVec 12) : Option Word :=
  if csr = 0xC00#12 then some (BitVec.ofNat 64 w.cycle)
  else if csr = 0xC01#12 then some (BitVec.ofNat 64 w.ns)
  else if csr = 0xC02#12 then some w.hNow.instret
  else if csr = 0xF14#12 then some (if w.focus.outfall then 1 else 0)
  else none

/-- A private-data operand of an atomic instruction, with its faults. -/
def atomic (w : Work) (a : Word) (n : Nat) (store : Bool) (f : Work → Work) : Work :=
  if a.toNat % n ≠ 0 then w.hFault (if store then 6 else 4) a
  else if !isData a n then w.hFault (if store then 7 else 5) a
  else f w

/-- One ordinary instruction of `len` bytes. -/
def helperStep (w : Work) (op : RvInstr) (len : Nat) : Work :=
  let pc := w.hNow.pc
  let set (d : BitVec 5) (v : Word) : Work := (w.setHx d v).hNext len
  match op with
  | .lui d imm => set d ((imm ++ 0#12).signExtend 64)
  | .auipc d imm => set d (pc + (imm ++ 0#12).signExtend 64)
  | .jal d off => (w.setHx d (pc + BitVec.ofNat 64 len)).hGoto (pc + off.signExtend 64)
  | .jalr d a off =>
    let t := (w.hx a + off.signExtend 64) &&& ~~~1#64
    (w.setHx d (pc + BitVec.ofNat 64 len)).hGoto t
  | .branch c a b off => if rvCond c (w.hx a) (w.hx b) then w.hGoto (pc + off.signExtend 64) else w.hNext len
  | .load size zx d a off =>
    let n := 2 ^ size.toNat
    let ad := w.hx a + off.signExtend 64
    if ad.toNat % n ≠ 0 then w.hFault 4 ad
    else if !isReadable ad n then w.hFault 5 ad
    else set d (extend n zx (w.hRead ad n))
  | .store size a b off =>
    let n := 2 ^ size.toNat
    let ad := w.hx a + off.signExtend 64
    if ad.toNat % n ≠ 0 then w.hFault 6 ad
    else if !isData ad n then w.hFault 7 ad
    else (w.hWrite ad n (w.hx b)).hNext len
  | .opImm op d a imm => set d (rvAlu op (w.hx a) (imm.signExtend 64))
  | .op op d a b => set d (rvAlu op (w.hx a) (w.hx b))
  | .unary op d a => set d (rvUnary op (w.hx a))
  | .lr dbl d a =>
    let n := if dbl then 8 else 4
    let ad := w.hx a
    w.atomic ad n false fun w => ((w.setHx d (extend n false (w.hRead ad n))).modH fun h => { h with reserved := some (ad.toNat, n) }).hNext len
  | .sc dbl d a b =>
    let n := if dbl then 8 else 4
    let ad := w.hx a
    w.atomic ad n true fun w =>
      let ok := w.hNow.reserved = some (ad.toNat, n)
      let w := if ok then w.hWrite ad n (w.hx b) else w
      ((w.setHx d (if ok then 0 else 1)).modH fun h => { h with reserved := none }).hNext len
  | .amo op dbl d a b =>
    let n := if dbl then 8 else 4
    let ad := w.hx a
    w.atomic ad n true fun w =>
      let old := w.hRead ad n
      ((w.hWrite ad n (rvAmoNew op n old (w.hx b))).setHx d (extend n false old)).hNext len
  | .csr op _ d a csr =>
    match w.hCsr csr with
    | none => w.hIllegal len
    | some v => if op = .rw ∨ a ≠ 0#5 then w.hIllegal len else set d v
  | .fence => w.hNext len
  | .illegal => w.hIllegal len
  | .fetchFault addr => w.hFault 1 addr

/-- Act on the helper of the focus, if it runs. -/
def onHelper (w : Work) (f : Work → Work) : Work := if w.hNow.st = .running then f w else w

/-- On whose behalf a helper acts (R200, R216, R424). -/
def helperWho (w : Work) : Issuer :=
  let id := w.hNow.inst
  let i := w.inst? id
  { part := (i.map (·.part)).getD 0, inst := id, core := w.focus.core, ctx := 0, rser := 0, clock := 0xFFFFFFFF, super := false, helper := true,
    kdead := BitVec.ofNat 64 (((i.bind w.reachOf).map (·.deadline)).getD 0) }

/-- Place an entry for a helper and answer 0, or stall while the queue is full. -/
def hEnqueue (w : Work) (q : Nat) (kind : EntryKind) (cw : Word) (t : BitVec 5) : Work :=
  if w.queueFull w.focus.core q then w
  else
    ((w.enqueue w.focus.core q { kind := kind, cw := cw, who := w.helperWho, started := false, desc := none, units := 0, page := .none, hold := [],
                                 net := none }).setHx t 0).hNext 4

/-- A private operand of the ix instructions: `n` bytes at a multiple of 8. -/
def hOperand (w : Work) (a : Word) (n : Nat) (f : Work → List Byte → Work) : Work :=
  if a.toNat % 8 ≠ 0 then w.hFault 4 a
  else if !isData a n then w.hFault 5 a
  else f w (w.bytes (w.hKey a) n)

/-- A flume operation of a helper: a failed operand raises a load access fault with its address (R424). -/
def hFlume (w : Work) (m : Issuer → Acc (Option Word)) (t : BitVec 5) : Work :=
  match m w.helperWho w with
  | (.ok (some v), w) => (w.setHx t v).hNext 4
  | (.ok none, w) => w
  | (.error e, w) => w.hFault 5 e.trap.addr

end Work

def execHelperInstruction (op : RvInstr) (len : BitVec 3) := run fun w => w.onHelper fun w => w.helperStep op len.toNat

/-! ## ECALL, EBREAK, AUXFAULT (R47) -/

def execEcall := run fun w => w.onHelper fun w => w.modH fun h => { h with st := .ended }
def execEbreak := run fun w => w.onHelper fun w => w.hFault 3 w.hNow.pc

/-- AUXFAULT goes to the lowest unended rill of the braid on the core, else of the braid; the fault is counted, once. -/
def execAuxfault := run fun w =>
  let h := w.hNow
  match w.inst? h.inst, h.fault with
  | some i, some (mcause, mtval, mepc) =>
    let w := (w.countInstFault i.id 6 4).modH fun h => { h with fault := none }
    let live := i.rills.filter fun r => !r.ended
    match (live.filter fun r => r.core == w.focus.core) ++ live with
    | r :: _ => w.modCtx r.core r.ctx fun c => if c.inst = i.id then { c with held := c.held ++ [.aux w.focus.outfall mcause mtval mepc] } else c
    | [] => w
  | _, _ => w

/-! ## The ix instructions (R216, R425) -/

/-- ix.cpy. -/
def execIxCpy (t s d : BitVec 5) := run fun w => w.onHelper fun w =>
  let q := w.hx s
  w.hOperand (w.hx t) 128 fun w bs =>
    let desc := lineOf bs
    if field q 2 62 ≠ 0#62 ∨ (CopyDesc.cwaddr desc).toNat % 8 ≠ 0 then (w.setHx d 1).hNext 4
    else w.hEnqueue (q.toNat % 4) (.ixCopy desc) (CopyDesc.cwaddr desc) d

/-- ix.hreq. -/
def execIxHreq (t s d : BitVec 5) := run fun w => w.onHelper fun w =>
  let n := w.hx s
  w.hOperand (w.hx t) 24 fun w bs =>
    let ext := wordOf (bs.take 8)
    let dest := wordOf (bs.drop 8 |>.take 8)
    let ctl := wordOf (bs.drop 16)
    if HandleRec.requestBad (w.part w.helperWho.part) n ext dest ctl then (w.setHx d 1).hNext 4
    else w.hEnqueue 5 (.hreq n ext dest ctl) 0 d

/-- ix.hwait: it stalls, counted in WAITERS, until the condition holds or can no longer hold. -/
def execIxHwait (t s d : BitVec 5) := run fun w => w.onHelper fun w =>
  let n := w.hx s
  let m : BitVec 2 := field (w.hx t) 0 2
  let r := w.handle n.toNat
  match w.hNow.found, w.hNow.waiting with
  | some v, _ => ((w.modH fun h => { h with found := none }).setHx d v).hNext 4
  | none, some _ => w
  | none, none =>
    if !(w.part w.helperWho.part).ownsHandle n then w.hFault 5 n
    else if r.verdict m = .wait then
      (w.setHandle n.toNat { r with waiters := r.waiters + 1 }).modH fun h => { h with waiting := some (n.toNat, m) }
    else (w.setHx d r.word0).hNext 4

/-- ix.qfence. -/
def execIxQfence (_t s _d : BitVec 5) := run fun w => w.onHelper fun w =>
  let m := w.hx s
  if field m 8 56 ≠ 0#56 then w.hIllegal 4
  else if (List.range 8).any fun q => m.getLsbD q && w.queueFull w.focus.core q then w
  else (if m = 0 then w else w.placeMarker w.focus.core m.toNat w.helperWho).hNext 4

/-- A unit operand: a cluster address that is a multiple of 128. -/
def unitPlace (who : Issuer) (a : Word) (kind : Access) : Acc Place := do
  if a.toNat % 128 ≠ 0 then throw (.access a)
  place who false .cluster a kind

/-- ix.flget: an entry to a tile store unit. -/
def execIxFlget (t s d : BitVec 5) := run fun w => w.onHelper fun w =>
  let fa := w.hx s
  let ua := w.hx t
  w.hFlume (fun who => do
    let f ← flumeAt who fa
    let pl ← unitPlace who ua .write
    if f.count = 0 then return none
    checkUnits fa (f.entry f.takes) 128
    let w ← get
    writePlace who true pl ua (w.bytes (f.entry f.takes) 128)
    modify fun w => w.flumeTake f 1
    return some 0) d

/-- ix.flput: a tile store unit to an entry; the descriptor's S is at least 1 (R203). -/
def execIxFlput (t s d : BitVec 5) := run fun w => w.onHelper fun w =>
  let fa := w.hx s
  let ua := w.hx t
  w.hFlume (fun who => do
    let f ← flumeAt who fa
    let pl ← unitPlace who ua .read
    if f.count = f.size then return none
    let bs ← readPlace who true pl ua 128
    modify fun w => (w.raiseS who.part f.line 1).flumePut f bs
    return some 0) d

/-- ix.flwait. -/
def execIxFlwait (t s d : BitVec 5) := run fun w => w.onHelper fun w =>
  let fa := w.hx s
  let n := (w.hx t).toNat
  w.hFlume (fun who => do
    let f ← flumeAt who fa
    if f.size < n then throw (.access fa)
    return if f.count < n then none else some (BitVec.ofNat 64 f.count)) d

/-- ix.fldrop. -/
def execIxFldrop (t s d : BitVec 5) := run fun w => w.onHelper fun w =>
  let fa := w.hx s
  let n := (w.hx t).toNat
  w.hFlume (fun who => do
    let f ← flumeAt who fa
    let k := min n f.count
    modify fun w => (w.raiseS who.part f.line 1).flumeTake f k
    return some (BitVec.ofNat 64 k)) d

namespace Work

/-- The instruction that a helper core executes next: 2 or 4 bytes of its instruction store, low halfword first; a fetch outside the store
is the instruction access fault (R46, R47). -/
def helperFetch (w : Work) (core : Nat) (outfall : Bool) : Instr :=
  let pc := (w.helper core outfall).pc
  let half (a : Word) : BitVec 16 := BitVec.ofNat 16 (leNat (w.bytes (privKey core outfall a.toNat) 2))
  if 0x10000 ≤ pc.toNat then .helperInstruction (.fetchFault pc) 0#3
  else
    let lo := half pc
    if field lo 0 2 ≠ 3#2 then decodeHelper (0#16 ++ lo)
    else if 0x10000 ≤ pc.toNat + 2 then .helperInstruction (.fetchFault (pc + 2)) 0#3
    else decodeHelper (half (pc + 2) ++ lo)

end Work

end Sys2Proof.Machine
end

