-- ==== Sys2Proof/Machine/House.lean ====
section
/-! DEFINITION. Hosts and housekeeping (15_system, 01_package R13 to R18, 14_traps R301 to R304): landing, monitor units and MON, the register
space of BAR0, partition commands, power, cooling, failures, spares, attestation. -/
namespace Sys2Proof.Machine

/-- RESULT_LAND (R55): the results of the focus's context that are due land. -/
def execResultLand := run fun w => w.landDue w.focus.core w.focus.ctx

/-! ## Monitor units (R317, R318, R446, R447) -/

/-- STATE of CFG. -/
def Monitor.state (m : Monitor) : BitVec 2 := field m.cfg 8 2
def Monitor.withState (m : Monitor) (s : BitVec 2) : Monitor := { m with cfg := (m.cfg &&& ~~~0x300#64) ||| (s.setWidth 64 <<< 8) }

/-- The registers in order: CFG, MIN, MAX, the bins. -/
def Monitor.regs (m : Monitor) : List Word := [m.cfg, m.min, m.max] ++ m.hist.toList

/-- The bin of a sample. -/
def monBin (v : Nat) : Nat := if v = 0 then 0 else min (Nat.log2 v + 1) 31

/-- Take a sample: divided by 2^SHIFT, truncated; counts saturate. -/
def Monitor.take (m : Monitor) (v : Nat) : Monitor :=
  let x := v / 2 ^ (field m.cfg 32 8).toNat
  let y := BitVec.ofNat 64 (Nat.min x (2 ^ 64 - 1))
  let n := nth m.hist (monBin x)
  { m with
    min := if y.toNat < m.min.toNat then y else m.min
    max := if m.max.toNat < y.toNat then y else m.max
    hist := setNth m.hist (monBin x) (if n = 0xFFFFFFFFFFFFFFFF#64 then n else n + 1) }

/-- Take a sample in a cycle, and note it as one of that cycle. -/
def Monitor.takeAt (m : Monitor) (cycle v : Nat) : Monitor :=
  { m.take v with takenAt := cycle, taken := if m.takenAt = cycle then m.taken ++ [v] else [v] }

/-- Cleared and armed in a cycle: what it has taken in that cycle it takes after the clearing (R447). -/
def Monitor.rearm (m : Monitor) (cycle : Nat) : Monitor :=
  let fresh : Monitor := { m.withState 1#2 with min := 0xFFFFFFFFFFFFFFFF#64, max := 0, hist := .replicate 32 0, takenAt := cycle, taken := [] }
  if m.takenAt = cycle then m.taken.foldl (fun m v => m.takeAt cycle v) fresh else fresh

/-- Does unit `n` take a sample of a source? A unit of SRC 8 takes its own die's temperature (log entry 30). -/
def Monitor.takes (m : Monitor) (n : Nat) (src : BitVec 8) (watched : BitVec 16) : Bool :=
  m.state == 1#2 && field m.cfg 0 8 == src && src != 0#8 && decide (src ≤ 9#8) &&
  (if src = 8#8 then watched.toNat == n / 4
   else let f := field m.cfg 48 16; f == 0xFFFF#16 || watched == 0xFFFF#16 || f == watched)

namespace Work

def monitor (w : Work) (n : Nat) : Monitor := nth w.monitors n
def modMonitor (w : Work) (n : Nat) (f : Monitor → Monitor) : Work := { w with monitors := setNth w.monitors n (f (w.monitor n)) }

end Work

/-- MON_SAMPLE. -/
def execMonSample (source : BitVec 8) (watched : BitVec 16) (value : Nat) := run fun w =>
  (List.range 16).foldl (fun w n => if (w.monitor n).takes n source watched then w.modMonitor n fun m => m.takeAt w.cycle value else w) w

/-- The unit that sU names. ACCESS on a unit that is not the partition's has no address to give (log entry 31). -/
def monUnit (u : BitVec 6) : Act Nat := do
  let w ← get
  let x := w.rdS 0 u
  if field x 4 60 ≠ 0#60 || !(w.part w.myPart).monmask.getLsbD (field x 0 4).toNat then
    trap { code := cAccess, addr := ← openWord }
  return (field x 0 4).toNat

/-- MON.ARM; samples that the unit has taken in this cycle fall after the clearing (R447). -/
def execMonArm (u : BitVec 6) (a : BitVec 4) := runSlot (.monArm u a) (do
  let n ← monUnit u
  modify fun w => w.modMonitor n fun m => m.rearm w.cycle)

def execMonStop (u : BitVec 6) (a : BitVec 4) := runSlot (.monStop u a) (do
  let n ← monUnit u
  modify fun w => w.modMonitor n fun m => if m.state = 0#2 then m else m.withState 2#2)

/-- Write at the home slices under a store's checks (R447). -/
def storeHome (addr : Word) (bs : List Byte) : Acc Unit :=
  (pieces addr.toNat (bs.length / 128 + 2) bs.length).forM fun (o, l) => do
    let a := addr + BitVec.ofNat 64 o
    let who := (← get).issuer
    let pl ← place who true .global a .write
    checkRace who pl a l true
    let _ ← homeStore .global a (bs.drop o |>.take l)

def execMonSnap (u : BitVec 6) (a : BitVec 4) := runSlot (.monSnap u a) (do
  let n ← monUnit u
  let w ← get
  let ea := w.rdA 1 a
  aligned ea 8
  access (storeHome ea ((w.monitor n).regs.map fun x => leBytes 8 x.toNat).flatten))

namespace Work

/-- Compute cores of the package, by logical number (R1). -/
def coreCount : Nat := 128

/-- Is every context of a core blocked on a handle? -/
def allOnHandles (w : Work) (n : Nat) : Bool := (List.range 4).all fun i =>
  let c := w.ctx n i
  c.st == .blocked && (match c.block with | some (.handle _ _) => true | _ => false)

/-- Every cycle: source 7 counts cycles in which every context of a core is blocked on a handle, whether or not a unit is armed on it, and gives them
once per microsecond (R318). -/
def monTick (w : Work) (oldNs : Nat) : Work :=
  let w := (w.coreNumbers.filter w.allOnHandles).foldl (fun w n => w.modCore n fun c => { c with monWord := c.monWord + 1 }) w
  if oldNs / 1000 = w.ns / 1000 then w
  else
    let w := if w.sampled 7 then (List.range coreCount).foldl (fun w n => w.sample 7 (BitVec.ofNat 16 n) (w.core n).monWord) w else w
    (w.coreNumbers.filter fun n => (w.core n).monWord != 0).foldl (fun w n => w.modCore n fun c => { c with monWord := 0 }) w

/-! ## Partition commands (R307 to R310) -/

/-- A host address of a port's host as a physical one (R20, R308; log entry 32). -/
def hostAddr (port a : Nat) : Nat := if isHost a then a else 2 ^ 51 + port % 2 * 2 ^ 50 + a % 2 ^ 50

/-- Read host memory for the hub: past L2, which holds host lines only for pages whose attributes say so (R21, R177). -/
def hostRead (w : Work) (a n : Nat) : List Byte := w.bytes a n

/-- FEAT_OFFER (R312). -/
def featOffer : BitVec 256 := 0x3F

/-- The locked value of FEAT_ACCEPT (R312). -/
def featLocked (x : BitVec 256) : BitVec 256 := (x &&& featOffer) ||| 1

/-- The result codes of STS (R309). -/
def rOk : Nat := 0
def rBusy : Nat := 1
def rConflict : Nat := 2
def rBadDesc : Nat := 3
def rDenied : Nat := 4
def rRefused : Nat := 5

/-- A command ends: DONE with its result, and vector 0 of the owner port. -/
def endCommand (w : Work) (p result : Nat) : Work :=
  (w.modPart p fun q => { q with sts := BitVec.ofNat 64 (2 ^ 63 + result), busy := false }).raiseMsi p 0

/-- May a port write a control block (R307)? -/
def mayWrite (w : Work) (p port : Nat) : Bool := match (w.part p).owner with | none => true | some o => o == port % 2

/-- Is it a command that a port has given for a partition? -/
def commandOn (p port : Nat) : Instr → Bool
  | .createPart a b | .destroyPart a b | .swapOut a b | .swapIn a b | .remapPart a b | .installModel a b _ | .resetPart a b | .setGroups a b =>
    a == p && b % 2 == port % 2
  | .registerWrite b off _ => off == 0x10048 + 0x1000 * p && b % 2 == port % 2
  | _ => false

/-- Perform the command `i` that a port wrote. While an earlier command of the port for the partition has not ended, it reports BUSY. Commands are
performed one at a time in arrival order: while others wait, or a swap goes on, the command waits, and so does one whose accesses are held (R18). On a block
with no owner only CREATE is performed; on another port's block CREATE reports CONFLICT in its turn and the rest is ignored. `none`: the command has not
ended yet. -/
def command (w : Work) (i : Instr) (p port : Nat) (create : Bool) (f : Work → Option Nat × Work) : Work :=
  let q := w.part p
  let later : Work := { w with commands := w.commands ++ [i] }
  let perform : Work :=
    match w.tryHeld fun w =>
      match f (w.modPart p fun q => { q with sts := 0 }) with
      | (some r, w) => w.endCommand p r
      | (none, w) => w.modPart p fun q => { q with busy := true } with
    | (true, w) => w
    | (false, _) => later
  if !w.booted || (!w.mayWrite p port && !create) then w
  else if w.mayWrite p port && ((q.busy && q.owner == some (port % 2)) || w.commands.any (commandOn p port)) then
    (w.modPart p fun q => { q with sts := BitVec.ofNat 64 (2 ^ 63 + rBusy) }).raiseMsi p 0
  else if !w.commands.isEmpty || (List.range 4).any (fun k => (w.part k).busy) then later
  else
    match q.owner with
    | none => if create then perform else w.endCommand p rDenied
    | some o => if o = port % 2 then perform else if create then w.endCommand p rConflict else w

/-- Once no command goes on, those that waited are performed. -/
def runCommands (w : Work) : Work :=
  if (List.range 4).any fun k => (w.part k).busy then w
  else { w with commands := [], pending := w.pending ++ w.commands.map fun i => ⟨0, 0, i⟩ }

/-- Does a descriptor break R310? -/
def descBad (d : BitVec 4096) : Bool :=
  let q : Partition := { Partition.absent with desc := d }
  let range (i : Nat) : Bool :=
    let x := q.dword (88 + 8 * i)
    field x 13 3 != 0#3 || field x 30 34 != 0#34 || decide (8192 < (field x 0 13).toNat + (field x 16 14).toNat)
  (List.range 8).any (fun n => field (q.ap n 4) 30 34 != 0#34 || (q.ap n 4).getLsbD 15) || field d 32 32 != 0#32 || field (q.dword 80) 34 30 != 0#30 || (List.range 4).any range || field (q.dword 120) 16 48 != 0#48 ||
  field d 3712 384 != 0#384 || q.bootc == 0 || q.bootc.toNat % 128 != 0 || decide (64 < q.hlcnt) || (q.hltab == 0 && q.hlcnt != 0)

/-- Do two live partitions' clusters, handle ranges or monitor units overlap? -/
def descClash (a b : Partition) : Bool :=
  field a.desc 0 32 &&& field b.desc 0 32 != 0#32 || a.monmask &&& b.monmask != 0#16 ||
  (List.range 4).any fun d =>
    let (f, n) := a.hrange d
    let (g, m) := b.hrange d
    n != 0 && m != 0 && decide (f < g + m) && decide (g < f + n)

/-- Messages being received for a partition are forgotten, but for those of the groups kept (log entry 122). -/
def dropRx (w : Work) (p : Nat) (kept : Nat → Bool) : Work := { w with rx := w.rx.filter fun x => x.part != p || kept x.group }

/-- Drop every cached translation of a partition (R171). -/
def dropTlbs (w : Work) (p : Nat) : Work :=
  let keep (t : List TlbEntry) : List TlbEntry := t.filter fun e => e.part != p
  let w : Work := { w with dieTlb := Vector.map keep w.dieTlb }
  w.coreNumbers.foldl (fun w n => w.modCore n fun c => { c with tlb := keep c.tlb }) w

/-- Enqueue the boot course onto reach queue 0 (R257, R282); false where the queue or the image cannot be used. -/
def enqueueBoot (w : Work) (p : Nat) : Bool × Work :=
  let q := w.part p
  let (img, w) := w.attempt (schedRead p q.bootc 128)
  match img with
  | none => (false, w)
  | some img =>
    if (w.badUnit q.qbase 32).isSome then (false, w)
    else
      let (bs, w) := w.homeRead p q.qbase 32
      let d := queueDesc q.qbase bs
      if d.disabled || (d.prod - d.cons).toNat == 2 ^ d.logn then (false, w)
      else
        let w := w.homeWrite p (q.qbase + 12) (leBytes 4 (d.prod + 1).toNat)
        match schedWrite p (d.slot d.prod) (withPhase img (d.phase d.prod)) w with
        | (.ok (), w) => (true, w.sample 3 0 (d.prod + 1 - d.cons).toNat)
        | (.error _, w) => (false, w)

/-- CREATE; what it reads of the host is read once. -/
def create (w : Work) (p port : Nat) : Nat × Work :=
  let q := w.part p
  let da := (nth q.daddr port).toNat
  if q.live || q.stopped then (rConflict, w)
  else if da % 64 ≠ 0 then (rBadDesc, w)
  else
    let bs := w.hostRead (hostAddr port da) 512
    let d : BitVec 4096 := BitVec.ofNat 4096 (leNat bs)
    if descBad d then (rBadDesc, w)
    else if (List.range 4).any fun k => k != p && (w.part k).live && descClash { q with desc := d } (w.part k) then (rConflict, w)
    else
      let new : Partition := { Partition.absent with
        owner := some (port % 2), live := true, sts := q.sts, daddr := q.daddr, featImg := q.featImg, feat := featLocked (nth q.featImg port), desc := d }
      let w2 := ((w.modPart p fun _ => new).dropTlbs p).dropRx p fun _ => false
      -- the block's earlier lines leave L2, and so does what shadow storage takes (R301)
      let w2 := (((w2.l2.filter fun e => e.2.part == p).map (·.1)).foldl (fun w l => w.evictLine l) w2).l2Trim
      let w2 : Work := { w2 with
        handles := w2.handles.filter fun e => !new.ownsHandle (BitVec.ofNat 64 e.1)
        floors := w2.floors.filter fun e => e.1 % 4 != p }
      match w2.enqueueBoot p with
      | (true, w2) => (rOk, w2)
      | (false, w2) => (rBadDesc, w.alsoHeld w2)

/-- DESTROY: kill every instance, free the clusters; FEAT_ACCEPT is open again. -/
def destroy (w : Work) (p : Nat) : Work :=
  let w := (w.insts.filter fun i => i.part == p).foldl (fun w i => w.killInst i.id false) w
  ((w.modPart p fun q => { q with live := false, swapped := false, busy := false, courses := [], selected := none, groups := [], ckUsed := [], cleared := []
                                  late := [], images := [] }).dropTlbs p).dropRx p fun _ => false

/-- Dies on which a partition owns clusters. -/
def diesOf (w : Work) (p : Nat) : List Nat := (List.range 4).filter fun d => (w.part p).live && field (w.part p).desc (8 * d) 8 != 0#8

/-- Freeze what runs of a partition that is being swapped out; it is out when nothing runs any more (R301). Acts once per cycle. -/
def swapStep (w : Work) (p : Nat) : Work :=
  let q := w.part p
  if !(q.swapped && q.busy) then w
  else
    let is := w.insts.filter fun i => i.part == p
    let w := is.foldl (fun w i => w.beginFreeze i.id) w
    if is.all fun i => i.st == .frozen || i.st == .killed then w.endCommand p rOk else w

/-- A group table entry that breaks R391. -/
def groupBad (g : GroupEntry) : Bool :=
  field g 13 51 != 0#51 || field g 1 7 != 0#7 || g.getLsbD 12 || field g 320 704 != 0#704 ||
  (List.range 16).any fun m => field g (1024 + 64 * m + 2) 30 != 0#30

end Work

def execCreatePart (part port : Nat) := run fun w => w.command (.createPart part port) part port true fun w => let (r, w) := w.create part port; (some r, w)
def execDestroyPart (part port : Nat) := run fun w => w.command (.destroyPart part port) part port false fun w => (some 0, w.destroy part)

/-- SWAPOUT: each die's shadow storage holds one swapped partition. -/
def execSwapOut (part port : Nat) := run fun w => w.command (.swapOut part port) part port false fun w =>
  let q := w.part part
  if !(q.live && q.swapen) then (some Work.rDenied, w)
  else if (List.range 4).any fun k => (w.part k).swapped && (w.diesOf part).any (w.diesOf k).contains then (some Work.rConflict, w)
  else (none, w.modPart part fun q => { q with swapped := true, selected := none })

/-- SWAPIN: the saved instances are placed again. -/
def execSwapIn (part port : Nat) := run fun w => w.command (.swapIn part port) part port false fun w =>
  if !((w.part part).live && (w.part part).swapen) then (some Work.rDenied, w)
  else (some 0, (w.modPart part fun q => { q with swapped := false }).undefer part)

def execRemapPart (part port : Nat) := run fun w => w.command (.remapPart part port) part port false fun w => (some 0, w.dropTlbs part)

/-- INSTALL: whole pages, each from host memory (R222, R223). -/
def execInstallModel (part port : Nat) (pages : List FlashPage) := run fun w => w.command (.installModel part port pages) part port false fun w =>
  if w.flash.toList.any fun s => s.spare == 0 then (some Work.rRefused, w)
  else (some 0, pages.foldl (fun w g =>
    if 2 ^ 39 * 14 ≤ 16384 * g.lpage then w
    else w.write (pageKey g.lpage) (w.hostRead (Work.hostAddr port g.src) 16384)) w)

/-- RESET: DESTROY, then OWNER cleared; the vector goes to the port that owned the block. -/
def execResetPart (part port : Nat) := run fun w => w.command (.resetPart part port) part port false fun w =>
  let w := (w.destroy part).raiseMsi part 0
  (some 0, w.modPart part fun q => { q with owner := none, stopped := false })

/-- SETGRP: 16 entries of 256 bytes (R391). -/
def execSetGroups (part port : Nat) := run fun w => w.command (.setGroups part port) part port false fun w =>
  let bs := w.hostRead (Work.hostAddr port (nth (w.part part).daddr port).toNat) 4096
  let gs : List GroupEntry := (List.range 16).map fun k => BitVec.ofNat 2048 (leNat (bs.drop (256 * k) |>.take 256))
  if gs.any Work.groupBad then (some Work.rBadDesc, w) else
    (some 0, (w.modPart part fun q => { q with groups := gs }).dropRx part fun k => (w.part part).groups[k]? == gs[k]?)

/-! ## The register space (R306, R308) -/

/-- Bytes of a register with `bs` at byte `lo` of it. -/
def patchBytes (old : List Byte) (lo : Nat) (bs : List Byte) : List Byte := old.take lo ++ bs ++ old.drop (lo + bs.length)

namespace Work

/-- Write bytes of FEAT_ACCEPT, at byte `lo` of its 32; ignored once CREATE has locked it. -/
def writeFeat (w : Work) (p port lo : Nat) (bs : List Byte) : Work :=
  if !w.mayWrite p port || (w.part p).live then w
  else w.modPart p fun q => { q with featImg := setNth q.featImg port (BitVec.ofNat 256 (leNat (patchBytes (leBytes 32 (nth q.featImg port).toNat) lo bs))) }

/-- Set HH_DISTURB_LIM; a value below 16 sets 16 (R228). -/
def setLimit (w : Work) (j : Nat) (v : BitVec 32) : Work := w.modStack j fun s => { s with lim := if v < 16#32 then 16#32 else v }

/-- The pages of an INSTALL from the buffer at DADDR: its 16 KiB pieces in order. How many they are and which logical pages they are for stands in no
rule: free values (log entry 94). -/
def installPages (w : Work) (addr : Nat) : List FlashPage × Work :=
  let (n, w) := w.free
  (List.range n).foldl (fun (acc : List FlashPage × Work) k =>
    let (l, w) := acc.2.free
    (acc.1 ++ [⟨l, addr + 16384 * k⟩], w)) ([], w)

/-- The step of a command code. -/
def commandOf (w : Work) (p port code : Nat) : Option Instr × Work :=
  if code = 6 then
    let (pages, w) := w.installPages (nth (w.part p).daddr port).toNat
    (some (.installModel p port pages), w)
  else
    (if code = 1 then some (.createPart p port) else if code = 2 then some (.destroyPart p port)
     else if code = 3 then some (.swapOut p port) else if code = 4 then some (.swapIn p port)
     else if code = 5 then some (.remapPart p port)
     else if code = 7 then some (.resetPart p port) else if code = 8 then some (.setGroups p port) else none, w)

/-- A host write within partition control block `p`, at offset `k`. A command becomes a step. -/
def writeControl (w : Work) (p port k : Nat) (bs : List Byte) : Work :=
  if k = 0x48 then
    match w.commandOf p port (bs.getD 0 0).toNat with
    | (some i, w) => w.todo 0 0 i
    | (none, w) => w.command (.registerWrite port (0x10048 + 0x1000 * p) bs) p port false fun w => (some rBadDesc, w)
  else if !w.mayWrite p port then w
  else if k < 0x40 then (if (w.part p).live then w.homeWrite p ((w.part p).mbox + k) bs else w)
  else if 0x40 ≤ k ∧ k < 0x48 then
    w.modPart p fun q => { q with daddr := setNth q.daddr port (wordOf (patchBytes (leBytes 8 (nth q.daddr port).toNat) (k - 0x40) bs)) }
  else if 0x80 ≤ k ∧ k < 0xA0 then w.writeFeat p port (k - 0x80) bs
  else w

/-- CFG as a host writes it: FILTER, SHIFT and SRC change. -/
def writeCfg (w : Work) (n lo : Nat) (bs : List Byte) : Work :=
  w.modMonitor n fun m =>
    let x := wordOf (patchBytes (leBytes 8 m.cfg.toNat) lo bs)
    { m with cfg := (x &&& 0xFFFF00FF000000FF#64) ||| (m.cfg &&& 0x300#64) }

/-- A host write to BAR0; only aligned writes of 4 and 8 bytes count. -/
def barWrite (w : Work) (port off : Nat) (bs : List Byte) : Work :=
  let n := bs.length
  if (n ≠ 4 ∧ n ≠ 8) ∨ off % n ≠ 0 ∨ !w.booted then w
  else if 0x10000 ≤ off ∧ off < 0x14000 then w.writeControl ((off - 0x10000) / 0x1000) port (off % 0x1000) bs
  else if 0x100000 ≤ off ∧ off < 0x100800 then
    (if off % 0x100 = 0x28 then w.setLimit ((off - 0x100000) / 0x100) (BitVec.ofNat 32 (leNat (bs.take 4))) else w)
  else if 0x200000 ≤ off ∧ off < 0x202000 then
    (if off % 0x200 < 8 then w.writeCfg ((off - 0x200000) / 0x200) (off % 8) bs else w)
  else w

/-- CLSTAT: the enabled cores of each of 16 clusters from `first`, one bit per core (log entry 33). -/
def clstat (w : Work) (first : Nat) : Nat :=
  ((List.range 64).filter fun k => (w.core (4 * first + k)).enabled).foldl (fun x k => x + 2 ^ k) 0

/-- What a port reads in the aligned 8-byte register at `off` (R306 to R308, R312, R317). -/
def barRegister (w : Work) (port off : Nat) : Word :=
  if !w.booted then 0
  else if off = 0 then 0x4820
  else if 0x1000 ≤ off ∧ off < 0x1020 then field featOffer (8 * (off - 0x1000)) 64
  else if 0x10000 ≤ off ∧ off < 0x14000 then
    let p := (off - 0x10000) / 0x1000
    let k := off % 0x1000
    let q := w.part p
    let side := q.owner.getD (port % 2)
    if k < 0x40 then (if q.live then wordOf (w.homeRead p (q.mbox + k) 8).1 else 0)
    else if k = 0x40 then nth q.daddr side
    else if k = 0x50 then q.sts
    else if k = 0x58 then (match q.owner with | some o => BitVec.ofNat 64 (256 + o) | none => 0)
    else if k = 0x60 ∨ k = 0x68 then BitVec.ofNat 64 (w.clstat (2 * (k - 0x60)))
    else if 0x80 ≤ k ∧ k < 0xA0 then field (if q.live then q.feat else featLocked (nth q.featImg side)) (8 * (k - 0x80)) 64
    else 0
  else if 0x100000 ≤ off ∧ off < 0x100800 then BitVec.ofNat 64 (w.healthReg ((off - 0x100000) / 0x100) (off % 0x100))
  else if 0x200000 ≤ off ∧ off < 0x202000 then (w.monitor ((off - 0x200000) / 0x200)).regs.getD (off % 0x200 / 8) 0
  else 0

/-- What a port reads in `n` bytes at `off`: naturally aligned reads of 4 and 8 bytes see the bytes of the register they cover, any other reads zero (R306). -/
def barRead (w : Work) (port off n : Nat) : Word :=
  if off % n ≠ 0 then 0
  else if n = 8 then w.barRegister port off
  else if n = 4 then (field (w.barRegister port (off / 8 * 8)) (8 * (off % 8)) 32).setWidth 64
  else 0

end Work

def execRegisterWrite (port offset : Nat) (bytes : List (BitVec 8)) := run fun w => w.barWrite port offset bytes
/-- FEAT_ACCEPT_WRITE; `offset` is the control block's, 0x080 to 0x09F. -/
def execFeatAcceptWrite (part port offset : Nat) (bytes : List (BitVec 8)) := run fun w =>
  let n := bytes.length
  if !w.booted || (n != 4 && n != 8) || offset % n != 0 || offset < 0x80 || 0xA0 ≤ offset then w
  else w.writeFeat part port (offset - 0x80) bytes
def execDisturbLimWrite (stack : Nat) (value : BitVec 32) := run fun w => if w.booted then w.setLimit stack value else w

/-! ## Power (R315, R316, R320, R321) -/

/-- A block of flash after a power cycle: what the translation layer keeps in flash. Its counts, and that it is queued for relocation, go with the power
(DESIGN CHOICE, log entry 139). -/
def Block.kept (b : Block) : Block := { b with disturb := 0, reads := 0, lastRecon := none, st := if b.st = .queued then .mapped else b.st }

/-- A stack after a power cycle: the kept fields survive. -/
def Stack.kept (s : Stack) : Stack := { Stack.reset with
  map := s.map, blocks := s.blocks.map fun e => (e.1, e.2.kept), fresh := s.fresh, retired := s.retired, spare := s.spare }

namespace Work

/-- The rails are down: all that is not flash, fuses or the hosts' own is lost. -/
def powerLost (w : Work) : Work :=
  let w := ((w.wipe 0 (2 ^ 48)).wipe (2 ^ 48 + 7 * 2 ^ 40) (2 ^ 51 - 2 ^ 48 - 7 * 2 ^ 40)).wipe (2 ^ 52) (2 ^ 56)
  { w with toChip := { Chip.reset with
      power := false, booted := false, cycle := w.cycle, inputs := w.inputs, freeNext := w.freeNext, flash := Vector.map Stack.kept w.flash
      stagedImage := w.stagedImage, fuseVersion := w.fuseVersion, poison := w.poison } }

/-- The 64 bytes of a hash. -/
def hashBytes (m : BitVec 512) : List Byte := leBytes 64 m.toNat

/-- The measurement chain (R316): the ROM image first, then each component. -/
def measure : List (List Byte) → List (BitVec 512)
  | [] => []
  | rom :: cs => cs.foldl (fun ms c => ms ++ [Config.shake256 (hashBytes (ms.getLastD 0) ++ hashBytes (Config.shake256 c))]) [Config.shake256 rom]

end Work

/-- Does an image verify: its signature, and a security version no lower than the fused counter (R315)? -/
def Work.imageOk (w : Work) (i : BootImage) : Bool := decide (w.fuseVersion ≤ i.version) && Config.signatureOk i.bytes i.signature

/-- POWER_UP: boot from the ROM, the control-core firmware, in whose place a staged one comes, and each stack's firmware. Without the control-core
firmware only the management endpoint answers; a stack whose firmware fails is out of service. -/
def execPowerUp (rom : List (BitVec 8)) (control : BootImage) (flash : List BootImage) := run fun w =>
  if w.power then w
  else
    let control := w.stagedImage.getD control
    let ok (j : Nat) : Bool := match flash[j]? with | some i => w.imageOk i | none => false
    { w with
      power := true
      booted := w.imageOk control
      flash := (List.range 8).foldl (fun (f : Vector Stack 8) j => setNth f j { nth f j with inService := ok j }) w.flash
      stagedImage := none
      measures := Work.measure ([rom, control.bytes] ++ flash.map (·.bytes)) }

def execPowerDown := run fun w => if w.power then w.powerLost else w
/-- THERMAL_TRIP: at 110 °C on any die the package powers off. -/
def execThermalTrip (die : Nat) := run fun w => if w.power && decide (die < 4) then w.powerLost else w

/-- The first die at 110 °C or more. -/
def hotDie (milliC : List Nat) : Option Nat := milliC.findIdx? fun t => decide (110000 ≤ t)

/-- POWER_CHECK, once in 100 µs: 3,200 W and 105 °C, steps of 25 MHz down to 400, up again after 1 ms at least 5 % below both. -/
def execPowerCheck (milliwatts : Nat) (milliC : List Nat) := run fun w =>
  if w.ns < w.powerDue then w
  else
    let hot := decide (3200000 < milliwatts) || milliC.any fun t => decide (105000 < t)
    let cool := decide (milliwatts ≤ 3040000) && milliC.all fun t => decide (t ≤ 99750)
    let nth' := w.powerDue / 100000
    let long := if cool then w.coolNs + 100000 else 0
    let raise := cool && decide (1000000 ≤ long)
    let w : Work := { w with
      mhz := if hot then max 400 (w.mhz - 25) else if raise then min 800 (w.mhz + 25) else w.mhz
      coolNs := long, powerDue := w.powerDue + 100000 }
    let w := w.sample 9 0xFFFF w.mhz
    let w := if nth' % 10 = 0 then ((List.range milliC.length).zip milliC).foldl (fun w (d, t) => w.sample 8 (BitVec.ofNat 16 d) t) w else w
    match hotDie milliC with
    | some d => w.todo 0 0 (.thermalTrip d)
    | none => w

namespace Work

/-! ## Management (R319) -/

/-- The sensors measure; a die at 110 °C trips at once (R320). -/
def measured (w : Work) (x : Sensors) : Work :=
  let w : Work := { w with sensors := x }
  match hotDie x.dies.toList with
  | some d => w.todo 0 0 (.thermalTrip d)
  | none => w

/-- The value of a PLDM sensor. -/
def sensor (w : Work) : PldmSensor → Nat
  | .power => w.sensors.milliwatts
  | .coolant => w.sensors.coolant
  | .die n => w.sensors.dies.toList.getD n 0
  | .clock => w.mhz
  | .health j off => w.healthReg j off

/-- A PLDM read over MCTP is answered. -/
def pldmRead (w : Work) (x : PldmSensor) : Work := { w with mctp := w.mctp ++ [leBytes 8 (w.sensor x)] }

end Work

/-- ATTESTATION_REPORT: nonce, every M, FEAT_OFFER, each partition's locked FEAT_ACCEPT, and the signature (log entry 34), through a DOE mailbox or MCTP. A
port's mailbox does not answer where the control-core firmware has failed (R315). -/
def execAttestationReport (request : ReportRequest) := run fun w =>
  let feats := (List.range 4).flatMap fun p => leBytes 32 (if (w.part p).live then (w.part p).feat.toNat else 0)
  let body := request.nonce ++ w.measures.flatMap Work.hashBytes ++ leBytes 32 Work.featOffer.toNat ++ feats
  let report := body ++ Config.identitySign body
  match request.via with
  | .doe port => if !w.booted then w else { w with doe := setNth w.doe (port % 2) (nth w.doe (port % 2) ++ [report]) }
  | .mctp => { w with mctp := w.mctp ++ [report] }

/-- FIRMWARE_UPDATE (R315, R319): staged for the next power-up. -/
def execFirmwareUpdate (image : BootImage) := run fun w => { w with stagedImage := some image }

/-! ## Failures (R13, R15, R18, R303) -/

def execLinkFail (link : Nat) := run fun w => { w with linksUp := setNth w.linksUp link false, health := w.health ++ [.linkLost link] }

/-- While a stack is out of service every partition's memory is lost in part: HBM is interleaved over all stacks (R18, R20, R304). -/
def Work.stopLost (w : Work) : Work :=
  if w.channelFails.toList.all (· < 2) then w
  else (List.range 4).foldl (fun w p => if (w.part p).live && !(w.part p).stopped then w.stopPartition p else w) w

/-- CHANNEL_FAIL: the first in a stack holds its traffic while the spare takes over; the second takes the stack out of service. -/
def execChannelFail (stack : Nat) := run fun w =>
  let n := nth w.channelFails stack
  let w : Work := { w with channelFails := setNth w.channelFails stack (n + 1), health := w.health ++ [.channelLost stack] }
  if n = 0 then { w with stackHeld := setNth w.stackHeld stack (some (w.ns + 200000)) }
  else w.unlessHeld Work.stopLost

def execChannelReplaced (stack : Nat) := run fun w => { w with stackHeld := setNth w.stackHeld stack none }

namespace Work

/-- A damaged instance goes back to its last kept checkpoint, or is killed and queued again. -/
def goBack (w : Work) (id : Nat) : Work :=
  match w.inst? id with
  | none => w
  | some i =>
    match i.keep with
    | none => w.killInst id true
    | some s =>
      -- its writes since then stand (R303)
      let w := w.cleanCores i.part i.cores
      let w := i.rills.foldl (fun w r => if (w.ctx r.core r.ctx).inst = id then w.freeCtx r.core r.ctx else w) w
      let w := i.cores.foldl (fun w n => ((w.stopHelper id n false).stopHelper id n true).modCore n fun c => { c with
        queues := Vector.map (fun es => es.filter fun e => !(e.who.inst == id && !e.started)) c.queues }) w
      (w.modInst id fun i => { i with
        st := .frozen, saved := some s, keep := none, rills := s.rills, episodes := s.episodes, logs := s.logs, counter := s.counter }).undefer i.part

end Work

/-- CORE_ERROR: the core is retired, every instance with a rill on it is frozen or goes back, and counts CORE. -/
def execCoreError (core : Nat) (damaged : Bool) := run fun w =>
  if !(w.core core).enabled then w
  else
    let used := nth w.sparesUsed (core / 32)
    let w := w.modCore core fun c => { c with enabled := false, spareDue := if used < 2 then some (w.ns + 2000000) else none }
    let w : Work := if used < 2 then { w with sparesUsed := setNth w.sparesUsed (core / 32) (used + 1) } else w
    -- what the core's L1 still holds is not lost with it (log entry 121)
    let w := w.cleanL1 (w.corePart core) core fun _ => true
    let hit := w.insts.filter fun i => i.live && i.st != .frozen && i.rills.any fun r => r.core == core
    hit.foldl (fun w i =>
      let w := w.countInstFault i.id 1 cCore
      if damaged then w.goBack i.id else w.beginFreeze i.id) w

/-- SPARE_TAKEOVER: the spare takes the logical number; no partition has been placed on it yet. Dirty bytes and partials that the retired core's L1
still holds go to L2 (DESIGN CHOICE, log entry 121). -/
def execSpareTakeover (core : Nat) := run fun w =>
  if (w.core core).spareDue.isNone then w
  else
    let busy := w.insts.any fun i => i.st == .freezing && i.cores.contains core
    if busy then w
    else
      let w := (List.range 4).foldl (fun w p => w.modPart p fun q => { q with cleared := q.cleared.filter (· != core) }) w
      let w := w.cleanL1 (w.corePart core) core fun _ => true
      w.modCore core fun c => { Core.reset with queues := c.queues }

end Sys2Proof.Machine
end

