-- ==== Sys2Proof/Machine/Matrix.lean ====
section
/-! DEFINITION. The matrix array: beats, feet, accumulator store, scale latches, status (06_matrix R129 to R144, 05_numbers R124, R125,
23_ref R437 to R439, 24_ref R443, R455). -/
namespace Sys2Proof.Machine

/-! ## Modes (R129) -/

def modeSegs (m : BitVec 3) : Nat := if m = 1#3 then 8 else if m = 2#3 ∨ m = 3#3 then 16 else 4
def modeComplex (m : BitVec 3) : Bool := m == 4#3 || m == 5#3
/-- Width and fraction bits of the A codes. -/
def aWidth (m : BitVec 3) : Nat := if m = 1#3 then 6 else if m = 2#3 ∨ m = 3#3 then 4 else 8
def aFrac (m : BitVec 3) : Nat := if m = 1#3 then 4 else if m = 2#3 ∨ m = 3#3 then 2 else 6
/-- Width of the B codes: nibbles under a B source (R130). -/
def bWidth (m : BitVec 3) (src : BitVec 2) : Nat := if src ≠ 0 then 4 else aWidth m
def bFrac (m : BitVec 3) : Nat := if m = 1#3 then 4 else if m = 2#3 then 2 else 6
/-- 64-byte B-plane units a column reads. -/
def bUnits (m : BitVec 3) (src : BitVec 2) : Nat :=
  if m = 1#3 then 3 else if m = 2#3 ∨ m = 3#3 then 4 else if src = 0#2 then 2 else 1
/-- Codes of a beat along k: real positions, or components. -/
def aCount (m : BitVec 3) : Nat := if m = 1#3 then 256 else if m = 2#3 ∨ m = 3#3 then 512 else 128

def aCode (m : BitVec 3) (latch : Nat) (k : Nat) : Int := intVal (aWidth m) true (latch / 2 ^ (aWidth m * k))

/-- A B code as it enters the product (R130, R115). -/
def bCode (m : BitVec 3) (src : BitVec 2) (bits k : Nat) : Int :=
  if src = 1#2 then 16 * intVal 4 true (bits / 2 ^ (4 * k))
  else if src = 2#2 then intVal 4 false (bits / 2 ^ (4 * k))
  else intVal (aWidth m) (m != 3#3) (bits / 2 ^ (aWidth m * k))

/-! ## A beat (R124, R134) -/

/-- Σ over one segment's positions of a real product. -/
def segSum (a b : List Int) : Int := ((a.zip b).map fun (x, y) => x * y).foldl (· + ·) 0

/-- Real and imaginary components, alternating. -/
def evens : List Int → List Int
  | x :: _ :: rest => x :: evens rest
  | xs => xs
def odds : List Int → List Int
  | _ :: y :: rest => y :: odds rest
  | _ => []

/-- A column from its segment sums and scale codes: NaN for a code of 0xFF, else the exact sum rounded once (R124). -/
def columnValue (fa fb : Nat) (segs : List (Int × Nat × Nat)) : Nat :=
  if segs.any fun (_, ea, eb) => ea == 255 || eb == 255 then fp32.nan
  else
    let terms := segs.map fun (s, ea, eb) => (⟨s, (ea : Int) + eb - 254 - fa - fb⟩ : Dyadic)
    (fp32.roundDy .even false (terms.foldl Dyadic.add ⟨0, 0⟩)).bits

/-- What a beat uses of the array. -/
structure Beat where
  mode : BitVec 3
  bsrc : BitVec 2
  a : BitVec 2048
  left : BitVec 128
  top : Vector (BitVec 2048) 16
  z0 : Bool

/-- Segments of equal length. -/
def chunks (n : Nat) : Nat → List Int → List (List Int)
  | 0, _ => []
  | k + 1, xs => xs.take n :: chunks n k (xs.drop n)

/-- Scale codes of a segment: left, and top for a column. -/
def Beat.scales (b : Beat) (s col : Nat) : Nat × Nat := ((field b.left (8 * s) 8).toNat, (field (nth b.top s) (8 * col) 8).toNat)

/-- The result columns made from B column `col`: one real, or the pair of a complex one. -/
def Beat.columns (b : Beat) (acodes : List Int) (bits col : Nat) : List Nat :=
  let m := b.mode
  let n := aCount m
  let segs := modeSegs m
  let bcodes := (List.range n).map fun k => bCode m b.bsrc bits k
  let as := chunks (n / segs) segs acodes
  let bs := chunks (n / segs) segs bcodes
  let value (f : List Int → List Int → Int) : Nat :=
    columnValue (aFrac m) (bFrac m) (((as.zip bs).zip (List.range segs)).map fun ((x, y), s) => (f x y, b.scales s col))
  if modeComplex m then
    let re (x y : List Int) := if b.z0 then segSum (evens x) (evens y) else segSum (evens x) (evens y) - segSum (odds x) (odds y)
    let im (x y : List Int) := if b.z0 then segSum (odds x) (odds y) else segSum (evens x) (odds y) + segSum (odds x) (evens y)
    [value re, value im]
  else [value segSum]

namespace Work

/-- The B bytes of a column at B-plane address G, units modulo 256, and whether one is uncorrectable (R132). -/
def bplaneRead (w : Work) (core col g units : Nat) : List Byte × Bool :=
  let us := (List.range units).map fun u => bplaneKey core col ((g + u) % 256) 0
  ((us.map fun k => w.bytes k 64).flatten, us.any fun k => (w.badUnit k 64).isSome)

/-- All columns of a beat and whether a B unit was uncorrectable. -/
def beatColumns (w : Work) (core g : Nat) (b : Beat) : List Nat × Bool :=
  let acodes := (List.range (aCount b.mode)).map (aCode b.mode b.a.toNat)
  let step := if modeComplex b.mode then 2 else 1
  let cols := (List.range (256 / step)).map fun c =>
    let (bs, bad) := w.bplaneRead core (step * c) g (bUnits b.mode b.bsrc)
    (b.columns acodes (leNat bs) (step * c), bad)
  ((cols.map (·.1)).flatten, cols.any (·.2))

/-! ## The accumulator store (R139) -/

/-- A row's 256 FP32 values. -/
def accRow (w : Work) (core row : Nat) : List Nat :=
  let bs := w.bytes (accKey core row 0) 1024
  (List.range 256).map fun j => leNat (bs.drop (4 * j) |>.take 4)

/-- Write the columns from `c` of a row. -/
def putAcc (w : Work) (core row c : Nat) (vs : List Nat) : Work := w.write (accKey core row (4 * c)) ((vs.map fun v => leBytes 4 v).flatten)

/-- Set or clear a row's poison bit. -/
def poisonRow (w : Work) (core row : Nat) (on : Bool) : Work :=
  w.modArr core fun a => { a with rowPoison := if on then a.rowPoison ||| (1#1024 <<< row) else a.rowPoison &&& ~~~(1#1024 <<< row) }

/-- A MACC of a foot into columns 16·C0 to 16·C1 + 15 of a row (R136, R125). -/
def macc (w : Work) (core : Nat) (f : Foot) (t : FootTag) : Work :=
  let lo := 16 * t.c0
  let n := 16 * (t.c1 + 1 - t.c0)
  let foot := (List.range n).map fun j => (field f.result (32 * (lo + j)) 32).toNat
  let vs := if t.add then (((w.accRow core t.row).drop lo).zip foot).map fun (x, y) => (fp32.add .even x y).bits else foot
  let w := w.putAcc core t.row lo vs
  if f.poison then w.poisonRow core t.row true
  else if !t.add && t.c0 == 0 && t.c1 == 15 then w.poisonRow core t.row false
  else w

/-- The foot that emerges in this owner bundle. -/
def emerging (w : Work) (core : Nat) : Option Foot := (w.core core).arr.feet.find? (·.left == 0)

/-- The foot that will emerge in the next owner bundle. -/
def emergingNext (w : Work) (core : Nat) : Option Foot := (w.core core).arr.feet.find? (·.left == 1)

/-- One owner bundle: the feet move on, and a tagged foot that emerges is applied unless the bundle's MTX slot holds a direct MACC
(R135, R137). -/
def advanceFeet (w : Work) (core : Nat) : Work :=
  let w := w.modArr core fun a => { a with feet := (a.feet.filter (·.left != 0)).map fun f => { f with left := f.left - 1 } }
  if w.focus.direct then w
  else match w.emerging core with
    | some f => match f.tag with | some t => w.macc core f t | none => w
    | none => w

end Work

/-- A staged write reaches the active latches (R138). -/
def Arr.activate (a : Arr) (l : LatchWrite) : Arr :=
  let put (n : Nat) (v : BitVec n) : BitVec n :=
    BitVec.ofNat n ((List.range (n / 8)).foldl (fun acc i =>
      acc + (if l.lo ≤ i ∧ i < l.lo + l.codes.length then (l.codes.getD (i - l.lo) 0).toNat else (field v (8 * i) 8).toNat) * 2 ^ (8 * i)) 0)
  if l.top then { a with topT := setNth a.topT l.seg (put 2048 (nth a.topT l.seg)) } else { a with leftL := put 128 a.leftL }

/-- One owner bundle: staged writes come closer, those due become active. -/
def Arr.advanceLatches (a : Arr) : Arr :=
  let ls := a.staged.map fun l => { l with left := l.left - 1 }
  (ls.filter (·.left == 0)).foldl Arr.activate { a with staged := ls.filter (·.left != 0) }

/-- FOOT_EMERGE (R135, R137). -/
def execFootEmerge := run fun w => w.advanceFeet w.focus.core
/-- LATCH_ACTIVATE (R135, R138). -/
def execLatchActivate := run fun w => w.modArr w.focus.core Arr.advanceLatches

/-! ## MTX slots -/

/-- R130. -/
def execMmode (m : BitVec 3) (b : BitVec 2) := run fun w =>
  w.modArr w.focus.core fun a => { a with mode := m, bsrc := b, aLatch := 0, aPoison := false }

/-- Units of an A vector (R131). -/
def aUnits (m : BitVec 3) : Nat := if wideMode m then 2 else 1

/-- Load the A latch from units, lowest first. -/
def Work.loadA (w : Work) (ls : List Line) (bad : Bool) : Work :=
  w.modArr w.focus.core fun a => { a with aLatch := (ls.getD 1 0) ++ (ls.getD 0 0), aPoison := bad }

def mpushAct (n : BitVec 4) : Act Unit := do
  let w ← get
  let (ls, bad) ← streamUnits n (w.rdG 0 n) (aUnits w.here.arr.mode)
  modify fun w => w.loadA ls bad

def execMpush (n : BitVec 4) := runSlotKeep (.mpush n) (mpushAct n)

def execMpushV (v : BitVec 5) := run fun w =>
  w.loadA (if wideMode w.here.arr.mode then [w.rdV 0 v, w.rdV 1 (v + 1)] else [w.rdV 0 v]) false

/-- The tag that an armed array gives a beat, and the arm state after it (R137). -/
def Arm.next (a : Arm) : Arm := { a with ptr := (a.first + ((a.ptr + 1024 - a.first) % 1024 + 1) % a.count) % 1024 }
def Arm.tag (a : Arm) : FootTag := ⟨a.ptr, a.add, a.c0, a.c1⟩

/-- The beat itself (R134). -/
def Work.beat (w : Work) (z0 : Bool) (g : Nat) : Work :=
  let core := w.focus.core
  let a := (w.core core).arr
  let b : Beat := ⟨a.mode, a.bsrc, a.aLatch, a.leftL, a.topT, z0⟩
  let (cols, bad) := w.beatColumns core g b
  let f : Foot := ⟨6, BitVec.ofNat 8192 (leNat ((cols.map (leBytes 4)).flatten)), a.aPoison || bad, a.arm.map Arm.tag⟩
  w.modArr core fun a => { a with feet := a.feet ++ [f], arm := a.arm.map Arm.next }

def mshiftAct (z t : BitVec 1) (n : BitVec 4) (i : BitVec 1) (b : BitVec 8) : Act Unit := do
  let w ← get
  let g := if i = 1#1 then (field (w.rdS t.toNat (b.setWidth 6)) 0 8).toNat else b.toNat
  if t = 1#1 then
    let (ls, bad) ← streamUnits n (w.rdG 0 n) (aUnits w.here.arr.mode)
    modify fun w => w.loadA ls bad
  modify fun w => w.beat (z == 1#1) g

def execMshift (z t : BitVec 1) (n : BitVec 4) (i : BitVec 1) (b : BitVec 8) := runSlotKeep (.mshift z t n i b) (mshiftAct z t n i b)

/-- A row operand: an immediate, or bits 9:0 of a register (R438). -/
def Work.rowOperand (w : Work) (i : BitVec 1) (r : BitVec 10) : Nat := if i = 1#1 then (field (w.rdS 0 (r.setWidth 6)) 0 10).toNat else r.toNat

/-- A direct MACC takes the foot that emerges in its own bundle; without one it has no effect (R136). -/
def Work.directMacc (w : Work) (add : Bool) (i : BitVec 1) (r : BitVec 10) (c d : BitVec 4) : Work :=
  match w.emerging w.focus.core with
  | some f => w.macc w.focus.core f ⟨w.rowOperand i r, add, c.toNat, d.toNat⟩
  | none => w

def execMaccSet (i : BitVec 1) (r : BitVec 10) (c d : BitVec 4) := run fun w => w.directMacc false i r c d
def execMaccAdd (i : BitVec 1) (r : BitVec 10) (c d : BitVec 4) := run fun w => w.directMacc true i r c d

/-- Arm: first row in bits 9:0, count in bits 20:10, 0 meaning 1,024 (R137). -/
def Work.arm (w : Work) (add : Bool) (s : BitVec 6) (c d : BitVec 4) : Work :=
  let v := w.rdS 0 s
  let first := (field v 0 10).toNat
  let n := (field v 10 11).toNat
  w.modArr w.focus.core fun a => { a with arm := some ⟨add, first, if n = 0 then 1024 else n, first, c.toNat, d.toNat⟩ }

def execMaccArmSet (s : BitVec 6) (c d : BitVec 4) := run fun w => w.arm false s c d
def execMaccArmAdd (s : BitVec 6) (c d : BitVec 4) := run fun w => w.arm true s c d
def execMaccOff := run fun w => w.modArr w.focus.core fun a => { a with arm := none }

/-! ## MDRAIN (R141, R143, R144) -/

/-- Is an FP32 or BF16 value a NaN or an infinity? -/
def notFinite (f : Fmt) (x : Nat) : Bool := let v := f.value x; v.isNan || v.isInf

/-- A pair with a NaN component drains as two canonical NaNs (R116). -/
def canonPairs : List Nat → List Nat
  | x :: y :: rest => (if (fp32.value x).isNan || (fp32.value y).isNan then [fp32.nan, fp32.nan] else [x, y]) ++ canonPairs rest
  | xs => xs

/-- A row cut into blocks of 32. -/
def blocksOf : Nat → List Nat → List (List Nat)
  | 0, _ => []
  | k + 1, xs => xs.take 32 :: blocksOf k (xs.drop 32)

/-- A drained row: its units, and whether it saw a NaN or infinity, and SAT or ROWBAD. 0 f32, 1 cf32, 2 bf16, 3 mx8. -/
def drainRow (f : BitVec 2) (row : List Nat) : List Line × Bool × Bool :=
  let bad := row.any (notFinite fp32)
  if f = 2#2 then
    let xs := row.map fun x => (fp32.convert bf16 .even x).bits
    ((List.range 4).map fun k => lineOf (((xs.drop (64 * k) |>.take 64).map (leBytes 2)).flatten), bad || xs.any (notFinite bf16), false)
  else if f = 3#2 then
    let qs := (blocksOf 8 row).map fun b => quantise 0 (b.map fp32.value) (b.map fun _ => .even)
    let codes := (qs.map (·.codes)).flatten
    let elems (k : Nat) : Line := BitVec.ofNat 1024 (packCodes 8 (codes.drop (128 * k) |>.take 128))
    ([elems 0, elems 1, BitVec.ofNat 1024 (leNat (qs.map fun q => BitVec.ofNat 8 q.scale))], bad, qs.any fun q => q.sat || q.rowBad)
  else
    let xs := if f = 1#2 then canonPairs row else row
    ((List.range 8).map fun k => lineOf (((xs.drop (32 * k) |>.take 32).map (leBytes 4)).flatten), bad, false)

/-- MDRAIN (R140, R141, R144). POISON of the row comes before any trap of its destination (DESIGN CHOICE, log entry 143). -/
def mdrainAct (f : BitVec 2) (k : BitVec 1) (d : BitVec 4) (i : BitVec 1) (r : BitVec 10) : Act Unit := do
  let w ← get
  let core := w.focus.core
  let row := w.rowOperand i r
  if w.here.arr.rowPoison.getLsbD row then trap { code := cPoison, addr := BitVec.ofNat 64 row }
  let (ls, bad, sat) := drainRow f (w.accRow core row)
  if k = 1#1 then
    modify fun w => ((List.range ls.length).zip ls).foldl (fun w (j, l) => w.putV (d.setWidth 5 * 8 + BitVec.ofNat 5 j) l 5) w
  else streamPut d (w.rdG i.toNat d) ls 5
  modify fun w => w.modArr core fun a =>
    let tile := 1#16 <<< (row / 64)
    { a with nanInf := if bad then a.nanInf ||| tile else a.nanInf, sat := if sat then a.sat ||| tile else a.sat, lastDrain := some w.focus.issueAt }

def execMdrain (f : BitVec 2) (k : BitVec 1) (d : BitVec 4) (i : BitVec 1) (r : BitVec 10) := runSlotKeep (.mdrain f k d i r) (mdrainAct f k d i r)

/-- R140. -/
def execMzero (i : BitVec 1) (r : BitVec 10) (n : BitVec 6) := run fun w =>
  let row := w.rowOperand i r
  (List.range (n.toNat + 1)).foldl (fun w k =>
    let x := (row + k) % 1024
    (w.write (accKey w.focus.core x 0) (List.replicate 1024 0#8)).poisonRow w.focus.core x false) w

/-! ## MXCP (R142) -/

/-- Is a place seen through an aperture that has no inverse? MXCP takes it in neither direction (R180, R438). -/
def Work.oneWay (w : Work) (pl : Place) : Bool := match pl with | .view n _ => !((w.part w.myPart).aperture n).writable | _ => false

/-- The memory side of a copy: the range is checked whole, races included, before any row moves. -/
def mxcpCheck (sp : Space) (base : Word) (n : Nat) (write : Bool) : Act (List (Word × Place)) := do
  let who := (← get).issuer
  let us ← (List.range (8 * n)).mapM fun u => do
    let ea := base + BitVec.ofNat 64 (128 * u)
    let pl ← access (place who true sp ea (if write then .write else .read))
    if pl = .past ∨ (← get).oneWay pl then trap { code := cAccess, addr := ea }
    return (ea, pl)
  us.forM fun (ea, pl) => access (checkRace who pl ea 128 write)
  return us

/-- The address operand, with the long form's offset. -/
def Work.mxcpBase (w : Work) (a : BitVec 4) (off : Option (BitVec 32)) : Word := w.rdA 0 a + (off.getD 0).signExtend 64

/-- Later matrix operations stall until the rows have moved; the time is the model's (log entry 11). -/
def Work.copying (w : Work) (n : Nat) : Work := w.modArr w.focus.core fun a => { a with copyUntil := w.focus.issueAt + 8 * n }

/-- MXCP out (R142). The checks of the memory side come first, POISON of a row last (DESIGN CHOICE, log entry 143). -/
def mxcpOutAct (s : BitVec 2) (a : BitVec 4) (r : BitVec 10) (n : BitVec 6) (off : Option (BitVec 32)) : Act Unit := do
  let w ← get
  let who := w.issuer
  let base := w.mxcpBase a off
  let rows := (List.range (n.toNat + 1)).map fun k => (r.toNat + k) % 1024
  let sp ← spaceAct s
  aligned base 128
  let us ← mxcpCheck sp base (n.toNat + 1) true
  if rows.any fun x => w.here.arr.rowPoison.getLsbD x then trap { code := cPoison, addr := r.setWidth 64, sub := 1 }
  let data := (rows.map fun x => w.bytes (accKey who.core x 0) 1024).flatten
  ((List.range us.length).zip us).forM fun (u, ea, pl) => do
    access (writePlace who false pl ea (data.drop (128 * u) |>.take 128))
    modify fun w => w.noteWrite pl 128
  modify fun w => (w.modMe fun c => { c with relPending := false }).copying (n.toNat + 1)

def execMxcpOut (s : BitVec 2) (a : BitVec 4) (r : BitVec 10) (n : BitVec 6) (off : Option (BitVec 32)) :=
  runSlot (.mxcpOut s a r n off) (mxcpOutAct s a r n off)

def mxcpInAct (s : BitVec 2) (a : BitVec 4) (r : BitVec 10) (n : BitVec 6) (off : Option (BitVec 32)) : Act Unit := do
  let w ← get
  let who := w.issuer
  let base := w.mxcpBase a off
  let sp ← spaceAct s
  aligned base 128
  let us ← mxcpCheck sp base (n.toNat + 1) false
  let got ← us.mapM fun (ea, pl) => do
    let (bs, bad) ← access (readThrough who false pl ea 128)
    modify fun w => w.noteRead pl 128
    return (bs, bad)
  modify fun w => (List.range (n.toNat + 1)).foldl (fun w k =>
    let x := (r.toNat + k) % 1024
    let part := got.drop (8 * k) |>.take 8
    (w.write (accKey who.core x 0) (part.map (·.1)).flatten).poisonRow who.core x (part.any (·.2))) w
  modify fun w => w.copying (n.toNat + 1)

def execMxcpIn (s : BitVec 2) (a : BitVec 4) (r : BitVec 10) (n : BitVec 6) (off : Option (BitVec 32)) :=
  runSlot (.mxcpIn s a r n off) (mxcpInAct s a r n off)

/-! ## Scale latches (R138, R455) -/

/-- Stage a write; it becomes active in the third owner bundle after this one. -/
def Work.stage (w : Work) (top : Bool) (seg lo : Nat) (codes : List Byte) : Work :=
  w.modArr w.focus.core fun a => { a with staged := a.staged ++ [⟨3, top, seg, lo, codes⟩] }

def execSclA (s : BitVec 5) := run fun w => w.stage false 0 0 ((lineBytes (w.rdV 0 s)).take 16)
def execSclB (s : BitVec 5) (e : BitVec 4) (h : BitVec 1) := run fun w => w.stage true e.toNat (128 * h.toNat) (lineBytes (w.rdV 0 s))

/-- The four codes of a long form. -/
def codes4 (v : BitVec 32) : List Byte := (List.range 4).map fun i => field v (8 * i) 8

def execScliA (grp : BitVec 4) (c : Imm 8) := run fun w =>
  match c with
  | .short x => w.stage false 0 0 (List.replicate 16 x)
  | .long v => w.stage false 0 (4 * grp.toNat) (codes4 v)

/-- A long form fills the top latches of four segments. -/
def execScliB (seg : BitVec 4) (c : Imm 8) := run fun w =>
  match c with
  | .short x => w.stage true seg.toNat 0 (List.replicate 256 x)
  | .long v => ((List.range 4).zip (codes4 v)).foldl (fun w (i, x) => w.stage true (4 * seg.toNat + i) 0 (List.replicate 256 x)) w

/-! ## MSTAT (R143, R443) -/

/-- The status file. -/
def Arr.status (a : Arr) : Word :=
  let poison : BitVec 16 := BitVec.ofNat 16 ((List.range 16).foldl (fun acc j => acc + (if field a.rowPoison (64 * j) 64 = 0#64 then 0 else 2 ^ j)) 0)
  0#16 ++ poison ++ a.sat ++ a.nanInf

/-- The value arrives 6 cycles after the last drain, at the earliest in the next cycle. -/
def Work.putStatus (w : Work) (d : BitVec 6) : Work :=
  let a := w.here.arr
  let lat := match a.lastDrain with | some t => max 1 (t + 6 - w.focus.issueAt) | none => 1
  w.put { kind := .sReg, reg := d.toNat, value := a.status.setWidth 1024, lat := lat, interlocked := true }

def execMstat (d : BitVec 6) := run fun w => w.putStatus d
def execMstatClr (d : BitVec 6) := run fun w => (w.putStatus d).modArr w.focus.core fun a => { a with nanInf := 0, sat := 0 }

end Sys2Proof.Machine
end

