-- ==== Sys2Proof/Machine/Vec.lean ====
section
/-! DEFINITION. The VEC slots on vector and mask registers (25_ref R466 to R474, R477, 24_ref R452). Elements are numbered from the
lowest byte; an inactive element keeps the destination's value as it stands at issue (log entry 18). -/
namespace Sys2Proof.Machine

/-! ## Elements -/

/-- Element `i` of `b` bits. -/
def lane (b : Nat) (l : Line) (i : Nat) : Nat := (field l (b * i) b).toNat

/-- Elements of `b` bits put together, element 0 lowest. -/
def packLanes (b : Nat) : List Nat → Nat
  | [] => 0
  | x :: xs => x % 2 ^ b + 2 ^ b * packLanes b xs

def ofLanes (b : Nat) (xs : List Nat) : Line := BitVec.ofNat 1024 (packLanes b xs)

/-- Is the element whose lowest byte is byte `k` active? -/
def active (m : Option (BitVec 128)) (k : Nat) : Bool := match m with | none => true | some q => q.getLsbD k

/-- Elements one after another, each active one rounded with its own draw if the operation draws (R119); the generator's new state. -/
def laneLoop (code : BitVec 3) (draws : Bool) (act : Nat → Bool) (old : Nat → Nat) (f : Rm → Nat → Rounded) :
    List Nat → BitVec 32 → List Nat × Flags × BitVec 32
  | [], st => ([], 0, st)
  | i :: is, st =>
    if act i then
      let (rm, st) := if draws then drawRm code st else (rmOf code 0, st)
      let r := f rm i
      let (xs, fl, st) := laneLoop code draws act old f is st
      (r.bits :: xs, r.flags ||| fl, st)
    else
      let (xs, fl, st) := laneLoop code draws act old f is st
      (old i :: xs, fl, st)

namespace Work

/-- The mask operand of a format V operation, read as operand `k`. -/
def rdMask (w : Work) (k : Nat) (e : BitVec 1) (q : BitVec 3) : Option (BitVec 128) := if e = 1#1 then some (w.rdQ k q) else none

/-- vD's `n` elements of `b` bits computed one by one; bytes past them come from `rest`. -/
def putLanes (w : Work) (d : BitVec 5) (b n : Nat) (m : Option (BitVec 128)) (code : BitVec 3) (draws : Bool) (rest : Line) (lat : Nat)
    (f : Rm → Nat → Rounded) : Work :=
  let old := w.me.vReg d
  let (xs, fl, st) := laneLoop code draws (fun i => active m (b / 8 * i)) (lane b old) f (List.range n) w.me.gen
  let tail := BitVec.ofNat 1024 (rest.toNat / 2 ^ (b * n) * 2 ^ (b * n))
  (w.setGen st).putV d (ofLanes b xs ||| tail) lat fl

/-- All elements of type `t`, no tail. -/
def putTyped (w : Work) (d : BitVec 5) (t : BitVec 4) (m : Option (BitVec 128)) (code : BitVec 3) (rounds : Bool) (lat : Nat)
    (f : Rm → Nat → Rounded) : Work :=
  w.putLanes d (8 * typeBytes t) (128 / typeBytes t) m code rounds 0 lat f

end Work

/-! ## Arithmetic on one element (R467) -/

/-- The element operations. -/
inductive VecOp where
  | add | sub | mul | fma | min | max | abs | neg
  deriving DecidableEq, Repr

/-- An integer result, modulo the width. -/
def wrapInt (b : Nat) (x : Int) : Rounded := ⟨intBits b x, 0⟩

/-- `x op y`, with `d` the destination's old element. -/
def vecElem (o : VecOp) (t : BitVec 4) (rm : Rm) (x y d : Nat) : Rounded :=
  if isFp t then
    let f := fmtOf t
    match o with
    | .add => f.add rm x y
    | .sub => f.sub rm x y
    | .mul => f.mul rm x y
    | .fma => f.fma rm x y d
    | .min => f.minMax false x y
    | .max => f.minMax true x y
    | .abs => f.absNeg false x
    | .neg => f.absNeg true x
  else
    let b := 8 * typeBytes t
    let v := intVal b (isSigned t)
    wrapInt b (match o with
      | .add => v x + v y
      | .sub => v x - v y
      | .mul => v x * v y
      | .fma => v x * v y + v d
      | .min => if v x ≤ v y then v x else v y
      | .max => if v x ≤ v y then v y else v x
      | .abs => (v x).natAbs
      | .neg => - v x)

namespace Work

/-- vD := vA op vB per active element. -/
def vecBin (w : Work) (o : VecOp) (d a b : BitVec 5) (e : BitVec 1) (q : BitVec 3) (t : BitVec 4) (rounds : Bool) (lat : Nat) : Work :=
  let bits := 8 * typeBytes t
  let x := w.rdV 0 a
  let y := w.rdV 1 b
  let m := w.rdMask 2 e q
  let z := w.rdV (2 + e.toNat) d
  w.putTyped d t m (if rounds && isFp t then w.rmV e q else 0) (rounds && isFp t) lat fun rm i =>
    vecElem o t rm (lane bits x i) (lane bits y i) (lane bits z i)

/-- vD := op vA per active element. -/
def vecUn (w : Work) (o : VecOp) (d a : BitVec 5) (e : BitVec 1) (q : BitVec 3) (t : BitVec 4) : Work :=
  let bits := 8 * typeBytes t
  let x := w.rdV 0 a
  w.putTyped d t (w.rdMask 1 e q) 0 false 2 fun rm i => vecElem o t rm (lane bits x i) 0 0

/-- vD := f vA vB on element bits, nothing rounded (R468). -/
def vecBits (w : Work) (d a b : BitVec 5) (e : BitVec 1) (q : BitVec 3) (t : BitVec 4) (f : Nat → Nat → Nat) : Work :=
  let bits := 8 * typeBytes t
  let x := w.rdV 0 a
  let y := w.rdV 1 b
  w.putTyped d t (w.rdMask 2 e q) 0 false 2 fun _ i => ⟨f (lane bits x i) (lane bits y i), 0⟩

end Work

/-! ## Shifts, compare, select (R468) -/

/-- Shift amount: the low log2(8w) bits. -/
def vecShl (t : BitVec 4) (x k : Nat) : Nat := let b := 8 * typeBytes t; x * 2 ^ (k % b) % 2 ^ b
def vecShr (t : BitVec 4) (x k : Nat) : Nat := let b := 8 * typeBytes t; intBits b (intVal b (isSigned t) x / 2 ^ (k % b))

/-- One element's comparison with its flags. -/
def vecCompare (cc : BitVec 2) (t : BitVec 4) (x y : Nat) : Bool × Flags :=
  if isFp t then
    let a := (fmtOf t).value x
    let b := (fmtOf t).value y
    (compareFp cc a b, compareFlags cc a b)
  else
    let b := 8 * typeBytes t
    (compareInt cc (intVal b (isSigned t) x) (intVal b (isSigned t) y), 0)

/-- VCMP's mask from the old one, and the flags. -/
def compareMask (cc : BitVec 2) (t : BitVec 4) (x y : Line) (m : Option (BitVec 128)) (old : BitVec 128) : BitVec 128 × Flags :=
  let n := typeBytes t
  let bits := 8 * n
  let rs := (List.range (128 / n)).map fun i =>
    if active m (n * i) then
      let (r, fl) := vecCompare cc t (lane bits x i) (lane bits y i)
      ((if r then 2 ^ n - 1 else 0), fl)
    else ((field old (n * i) n).toNat, 0)
  (BitVec.ofNat 128 (packLanes n (rs.map (·.1))), orFlags (rs.map (·.2)))

/-! ## Conversions (R121, R472) -/

/-- One element from type `t` to type `u`. -/
def convertElem (t u : BitVec 4) (rm : Rm) (x : Nat) : Rounded :=
  let bs := 8 * typeBytes t
  let bd := 8 * typeBytes u
  if isFp t then
    if isFp u then (fmtOf t).convert (fmtOf u) rm x else (fmtOf t).toInt rm bd (isSigned u) x
  else
    let v := intVal bs (isSigned t) x
    if isFp u then (fmtOf u).ofDyadic rm false ⟨v, 0⟩
    else if bs < bd then wrapInt bd v
    else
      let (lo, hi) := intRange bd (isSigned u)
      if v < lo then ⟨intBits bd lo, flSat⟩ else if hi < v then ⟨intBits bd hi, flSat⟩ else wrapInt bd v

/-! ## Functions (R474) -/

/-- fn: 0 exp, 1 recip, 2 rsqrt, 3 tanh, 4 gelu, 5 relu. -/
def fnElem (fn : BitVec 3) (f : Fmt) (rm : Rm) (x : Nat) : Rounded :=
  let v := f.value x
  match v with
  | .nan s => ⟨f.nan, if s then flNv else 0⟩
  | .inf neg =>
    if fn = 0#3 then ⟨if neg then f.zero false else f.inf false, 0⟩
    else if fn = 1#3 then ⟨f.zero neg, 0⟩
    else if fn = 2#3 then (if neg then ⟨f.nan, flNv⟩ else ⟨f.zero false, 0⟩)
    else if fn = 3#3 then f.round rm neg 1 1 0
    else if fn = 4#3 then ⟨if neg then f.zero true else f.inf false, 0⟩
    else ⟨if neg then f.zero false else f.inf false, 0⟩
  | .fin neg sig exp =>
    if sig = 0 then
      if fn = 0#3 then f.round rm false 1 1 0
      else if fn = 1#3 ∨ fn = 2#3 then ⟨f.inf neg, flDz⟩
      else if fn = 5#3 then ⟨f.zero false, 0⟩
      else ⟨f.zero neg, 0⟩
    else if fn = 0#3 then f.expDy rm v.dyadic
    else if fn = 1#3 then f.round rm neg 1 sig (-exp)
    else if fn = 2#3 then (if neg then ⟨f.nan, flNv⟩ else f.rsqrtDy rm v.dyadic)
    else if fn = 3#3 then f.tanhDy rm v.dyadic
    else if fn = 4#3 then f.geluDy rm v.dyadic
    else ⟨if neg then f.zero false else x, 0⟩

/-! ## Reductions (R477, R471) -/

/-- A stochastic mode acts as nearest-even and draws nothing (R471). -/
def evenIfStoch (code : BitVec 3) : BitVec 3 := if code = 4#3 then 0#3 else code

/-- The operation of a reduction on two elements. -/
def reduceElem (op : BitVec 3) (t : BitVec 4) (rm : Rm) (x y : Nat) : Rounded :=
  if op = 0#3 then vecElem .add t rm x y 0
  else if op = 1#3 then vecElem .min t rm x y 0
  else if op = 2#3 then vecElem .max t rm x y 0
  else if op = 3#3 then ⟨x &&& y, 0⟩
  else if op = 4#3 then ⟨x ||| y, 0⟩
  else ⟨x ^^^ y, 0⟩

/-- The identity that an inactive element stands for. -/
def reduceIdentity (op : BitVec 3) (t : BitVec 4) : Nat :=
  let b := 8 * typeBytes t
  if op = 0#3 then (if isFp t then (fmtOf t).zero true else 0)
  else if op = 1#3 then (if isFp t then (fmtOf t).inf false else intBits b (intRange b (isSigned t)).2)
  else if op = 2#3 then (if isFp t then (fmtOf t).inf true else intBits b (intRange b (isSigned t)).1)
  else if op = 3#3 then 2 ^ b - 1
  else 0

/-- One level of the tree: neighbours combined. -/
def pairUp (f : Nat → Nat → Rounded) : List Nat → List Nat × Flags
  | x :: y :: rest =>
    let r := f x y
    let (xs, fl) := pairUp f rest
    (r.bits :: xs, r.flags ||| fl)
  | xs => (xs, 0)

/-- The root of the tree over a power of two of elements. -/
def reduceTree (f : Nat → Nat → Rounded) : Nat → List Nat → Nat × Flags
  | 0, xs => (xs.headD 0, 0)
  | k + 1, xs =>
    let (ys, fl) := pairUp f xs
    let (r, fl') := reduceTree f k ys
    (r, fl ||| fl')

/-- The prefix values: `y` is the value so far. -/
def scanFrom (f : Nat → Nat → Rounded) (y : Nat) : List (Option Nat) → List Nat × Flags
  | [] => ([], 0)
  | some x :: xs =>
    let r := f y x
    let (zs, fl) := scanFrom f r.bits xs
    (r.bits :: zs, r.flags ||| fl)
  | none :: xs =>
    let (zs, fl) := scanFrom f y xs
    (y :: zs, fl)

/-- Element 0 of a scan, which no operation has rounded: a NaN comes out canonical, and a signalling one sets NV (R111). -/
def scanFirst (t : BitVec 4) (x : Nat) : Rounded :=
  if isFp t then match (fmtOf t).value x with | .nan _ => ⟨(fmtOf t).nan, snanFlag [(fmtOf t).value x]⟩ | _ => ⟨x, 0⟩ else ⟨x, 0⟩

/-! ## Dot and complex products (R470) -/

/-- The other sign of a value. -/
def FVal.negate : FVal → FVal
  | .nan s => .nan s
  | .inf n => .inf (!n)
  | .fin n s e => .fin (!n) s e

/-- a0·b0 + a1·b1 + c in the wider type: wrapped, or rounded once. -/
def dotElem (t : BitVec 4) (rm : Rm) (a0 b0 a1 b1 c : Nat) : Rounded :=
  if isFp t then
    let f := fmtOf t
    let g := if t = 9#4 then fp64 else fp32
    let s := g.roundSum rm (sumVals rm [mulVal (f.value a0) (f.value b0), mulVal (f.value a1) (f.value b1), some (g.value c)])
    ⟨s.bits, s.flags ||| snanFlag [f.value a0, f.value b0, f.value a1, f.value b1, g.value c]⟩
  else
    let b := 8 * typeBytes t
    let v := intVal b (isSigned t)
    wrapInt (2 * b) (v a0 * v b0 + v a1 * v b1 + intVal (2 * b) (isSigned t) c)

/-- Real and imaginary part of a complex product with its flags: a NaN among the four makes both NaN; a product of zero and an
infinity sets NV whatever the other terms (R111). -/
def complexMul (f : Fmt) (rm : Rm) (ar ai br bi : Nat) : Rounded × Rounded :=
  let a := f.value ar
  let b := f.value ai
  let c := f.value br
  let d := f.value bi
  let re := f.roundSum rm (sumVals rm [mulVal a c, (mulVal b d).map FVal.negate])
  let im := f.roundSum rm (sumVals rm [mulVal a d, mulVal b c])
  if a.isNan || b.isNan || c.isNan || d.isNan then
    let r : Rounded := ⟨f.nan, snanFlag [a, b, c, d] ||| re.flags ||| im.flags⟩
    (r, r)
  else (re, im)

/-! ## MX blocks in a vector register (R473) -/

/-- A block as VQNT writes it: codes, scale at byte 64, status at byte 65. -/
def blockLine (f : Nat) (b : Quantised) : Line :=
  BitVec.ofNat 1024 (packCodes (mxWidth f) b.codes + b.scale * 2 ^ 512 + (b.rowBad.toNat + 2 * b.sat.toNat) * 2 ^ 520)

/-- Does quantising these values round (R122, R473)? -/
def quantRounds (vs : List FVal) : Bool := !(vs.any fun v => v.isNan || v.isInf) && vs.any fun v => !v.isZero

/-- A value of a block in an output format. The most negative code under the scale 0xFE is −2¹²⁸, which FP32 and BF16 do not hold although R123 calls
every value exact: −∞, without a flag (DESIGN CHOICE, log entry 140). -/
def dequantElem (f scale bits : Nat) (g : Fmt) (rm : Rm) (j : Nat) : Rounded :=
  match mxValue f scale (mxCode f bits j) with
  | none => ⟨g.nan, 0⟩
  | some x => g.roundDy rm false x

/-! ## One meaning per instruction -/

def execVadd (d a b : BitVec 5) (e : BitVec 1) (q : BitVec 3) (t : BitVec 4) := run fun w => w.vecBin .add d a b e q t true 2
def execVsub (d a b : BitVec 5) (e : BitVec 1) (q : BitVec 3) (t : BitVec 4) := run fun w => w.vecBin .sub d a b e q t true 2
def execVmul (d a b : BitVec 5) (e : BitVec 1) (q : BitVec 3) (t : BitVec 4) := run fun w => w.vecBin .mul d a b e q t true 4
def execVfma (d a b : BitVec 5) (e : BitVec 1) (q : BitVec 3) (t : BitVec 4) := run fun w => w.vecBin .fma d a b e q t true 4
def execVmin (d a b : BitVec 5) (e : BitVec 1) (q : BitVec 3) (t : BitVec 4) := run fun w => w.vecBin .min d a b e q t false 2
def execVmax (d a b : BitVec 5) (e : BitVec 1) (q : BitVec 3) (t : BitVec 4) := run fun w => w.vecBin .max d a b e q t false 2
def execVabs (d a : BitVec 5) (e : BitVec 1) (q : BitVec 3) (t : BitVec 4) := run fun w => w.vecUn .abs d a e q t
def execVneg (d a : BitVec 5) (e : BitVec 1) (q : BitVec 3) (t : BitVec 4) := run fun w => w.vecUn .neg d a e q t
def execVand (d a b : BitVec 5) (e : BitVec 1) (q : BitVec 3) (t : BitVec 4) := run fun w => w.vecBits d a b e q t (· &&& ·)
def execVor (d a b : BitVec 5) (e : BitVec 1) (q : BitVec 3) (t : BitVec 4) := run fun w => w.vecBits d a b e q t (· ||| ·)
def execVxor (d a b : BitVec 5) (e : BitVec 1) (q : BitVec 3) (t : BitVec 4) := run fun w => w.vecBits d a b e q t (· ^^^ ·)
def execVshl (d a b : BitVec 5) (e : BitVec 1) (q : BitVec 3) (t : BitVec 4) := run fun w => w.vecBits d a b e q t (vecShl t)
def execVshr (d a b : BitVec 5) (e : BitVec 1) (q : BitVec 3) (t : BitVec 4) := run fun w => w.vecBits d a b e q t (vecShr t)

/-- R468: an inactive element leaves its mask bits unchanged. -/
def execVcmp (c : BitVec 2) (d : BitVec 3) (a b : BitVec 5) (e : BitVec 1) (q : BitVec 3) (t : BitVec 4) := run fun w =>
  let (r, fl) := compareMask c t (w.rdV 0 a) (w.rdV 1 b) (w.rdMask 2 e q) (w.me.qReg d)
  w.putQ d r 2 fl

/-- R468: VSEL writes every element. -/
def execVsel (d a b : BitVec 5) (q : BitVec 3) (t : BitVec 4) := run fun w =>
  let n := typeBytes t
  let x := w.rdV 0 a
  let y := w.rdV 1 b
  let m := w.rdQ 2 q
  w.putTyped d t none 0 false 2 fun _ i => ⟨if m.getLsbD (n * i) then lane (8 * n) x i else lane (8 * n) y i, 0⟩

/-- R472. -/
def execVcvt (d a : BitVec 5) (h : BitVec 1) (u : BitVec 4) (e : BitVec 1) (q : BitVec 3) (t : BitVec 4) := run fun w =>
  let ws := typeBytes t
  let wd := typeBytes u
  let n := 128 / max ws wd
  let x := w.rdV 0 a
  let off := if h = 1#1 then n else 0
  let rounds := cvtRounds t u
  w.putLanes d (8 * wd) n (w.rdMask 1 e q) (if rounds then w.rmV e q else 0) rounds (if e = 1#1 then w.me.vReg d else 0) 3 fun rm i =>
    convertElem t u rm (lane (8 * ws) x (off + i))

/-- R473, R122. -/
def execVqnt (d a : BitVec 5) (f : BitVec 3) (q : BitVec 3) (t : BitVec 4) := run fun w =>
  let b := 8 * typeBytes t
  let x := w.rdV 0 a
  let y := if t = 8#4 then w.rdV 1 (a + 1) else 0
  let vs := (List.range 32).map fun i => (fmtOf t).value (if i * b < 1024 then lane b x i else lane b y (i - 16))
  let code := w.rmCode q
  let (rms, st) := if quantRounds vs then drawMany code 32 w.me.gen else (List.replicate 32 .even, w.me.gen)
  let r := quantise f.toNat vs rms
  (w.setGen st).putV d (blockLine f.toNat r) 6 r.flags

/-- R473, R123: only an f16 output rounds, draws and raises flags. -/
def execVdq (d a : BitVec 5) (f : BitVec 3) (q : BitVec 3) (t : BitVec 4) := run fun w =>
  let b := 8 * typeBytes t
  let x := w.rdV 0 a
  let bits := (field x 0 512).toNat
  let scale := (field x 512 8).toNat
  let code := if t = 10#4 then w.rmCode q else 0
  let (xs, fl, st) := laneLoop code (t == 10#4) (fun _ => true) (fun _ => 0) (dequantElem f.toNat scale bits (fmtOf t)) (List.range 32) w.me.gen
  let w := w.setGen st
  let fl := if t = 10#4 then fl else 0
  if t = 8#4 then (w.putV d (ofLanes b (xs.take 16)) 3 fl).putV (d + 1) (ofLanes b (xs.drop 16)) 3 fl
  else w.putV d (ofLanes b xs) 3 fl

/-- R474. -/
def execVfn (d a : BitVec 5) (f : BitVec 3) (e : BitVec 1) (q : BitVec 3) (t : BitVec 4) := run fun w =>
  let b := 8 * typeBytes t
  let x := w.rdV 0 a
  w.putTyped d t (w.rdMask 1 e q) (if f = 5#3 then 0 else w.rmV e q) (f != 5#3) 10 fun rm i => fnElem f (fmtOf t) rm (lane b x i)

/-- R477. -/
def execVred (d a : BitVec 5) (o : BitVec 3) (e : BitVec 1) (q : BitVec 3) (t : BitVec 4) := run fun w =>
  let n := typeBytes t
  let x := w.rdV 0 a
  let m := w.rdMask 1 e q
  let rm := rmOf (evenIfStoch (w.rmV e q)) 0
  let xs := (List.range (128 / n)).map fun i => if active m (n * i) then lane (8 * n) x i else reduceIdentity o t
  let (r, fl) := reduceTree (reduceElem o t rm) 7 xs
  w.putV d (BitVec.ofNat 1024 (r % 2 ^ (8 * n))) 6 fl

/-- R477. -/
def execVscan (d a : BitVec 5) (o : BitVec 3) (e : BitVec 1) (q : BitVec 3) (t : BitVec 4) := run fun w =>
  let n := typeBytes t
  let x := w.rdV 0 a
  let m := w.rdMask 1 e q
  let rm := rmOf (evenIfStoch (w.rmV e q)) 0
  let el (i : Nat) : Option Nat := if active m (n * i) then some (lane (8 * n) x i) else none
  let y := scanFirst t ((el 0).getD (reduceIdentity o t))
  let (ys, fl) := scanFrom (reduceElem o t rm) y.bits ((List.range (128 / n - 1)).map fun i => el (i + 1))
  w.putV d (ofLanes (8 * n) (y.bits :: ys)) 7 (y.flags ||| fl)

/-- R469. -/
def execVperm (d a b : BitVec 5) (e : BitVec 1) (q : BitVec 3) (x : BitVec 2) := run fun w =>
  let n := 2 ^ x.toNat
  let s := w.rdV 0 a
  let ix := w.rdV 1 b
  w.putLanes d (8 * n) (128 / n) (w.rdMask 2 e q) 0 false 0 3 fun _ i =>
    let j := lane (8 * n) ix i
    ⟨if j < 128 / n then lane (8 * n) s j else 0, 0⟩

/-- Every element the low bits of a word. -/
def broadcast (x : BitVec 2) (v : Word) : Line :=
  let n := 2 ^ x.toNat
  ofLanes (8 * n) (List.replicate (128 / n) v.toNat)

def execVbcst (d : BitVec 5) (a : BitVec 6) (x : BitVec 2) := run fun w => w.putV d (broadcast x (w.rdS 0 a)) 3
def execVbcstI (d : BitVec 5) (x : BitVec 2) (m : Imm 9) := run fun w => w.putV d (broadcast x m.value) 3

def execVget (d : BitVec 6) (a : BitVec 5) (x : BitVec 2) (i : BitVec 7) (u : BitVec 1) := run fun w =>
  let b := 8 * 2 ^ x.toNat
  let v := lane b (w.rdV 0 a) i.toNat
  w.putS d (if u = 1#1 then BitVec.ofNat 64 v else sextLane b v) 3
where
  /-- An element sign-extended. -/
  sextLane (b v : Nat) : Word := BitVec.ofInt 64 (intVal b true v)

def execVput (d : BitVec 5) (a : BitVec 6) (x : BitVec 2) (i : BitVec 7) := run fun w =>
  let b := 8 * 2 ^ x.toNat
  let old := w.rdV 1 d
  let v := (w.rdS 0 a).toNat
  w.putV d (ofLanes b ((List.range (1024 / b)).map fun j => if j = i.toNat then v else lane b old j)) 3

/-- R470: the mask governs the elements of the wider type. -/
def execVdot (d a b : BitVec 5) (e : BitVec 1) (q : BitVec 3) (t : BitVec 4) := run fun w =>
  let n := 8 * typeBytes t
  let x := w.rdV 0 a
  let y := w.rdV 1 b
  let m := w.rdMask 2 e q
  let z := w.rdV (2 + e.toNat) d
  w.putLanes d (2 * n) (1024 / (2 * n)) m (if isFp t then w.rmV e q else 0) (isFp t) 0 4 fun rm j =>
    dotElem t rm (lane n x (2 * j)) (lane n y (2 * j)) (lane n x (2 * j + 1)) (lane n y (2 * j + 1)) (lane (2 * n) z j)

/-- R470, R471. -/
def execVcmul (d a b : BitVec 5) (e : BitVec 1) (q : BitVec 3) (t : BitVec 4) := run fun w =>
  let n := 8 * typeBytes t
  let x := w.rdV 0 a
  let y := w.rdV 1 b
  w.putLanes d (2 * n) (1024 / (2 * n)) (w.rdMask 2 e q) (evenIfStoch (w.rmV e q)) false 0 5 fun rm j =>
    let (re, im) := complexMul (fmtOf t) rm (lane n x (2 * j)) (lane n x (2 * j + 1)) (lane n y (2 * j)) (lane n y (2 * j + 1))
    ⟨re.bits + 2 ^ n * im.bits, re.flags ||| im.flags⟩

/-- R452. -/
def execQlog (d a b o : BitVec 3) := run fun w =>
  let x := w.rdQ 0 a
  let y := if o = 4#3 then 0 else w.rdQ 1 b
  w.putQ d (if o = 0#3 then x &&& y else if o = 1#3 then x ||| y else if o = 2#3 then x ^^^ y else if o = 3#3 then x &&& ~~~y else ~~~x) 2

/-! ## The exact accumulator (R126, R127, R480): XCLR, XFMA and XADD take effect as they land -/

/-- An FP32 operand as FP64, a signalling NaN staying one. -/
def widen32 (x : Word) : Word :=
  match fp32.value x.toNat with
  | .nan s => if s then 0x7FF0000000000001#64 else 0x7FF8000000000000#64
  | _ => BitVec.ofNat 64 (fp32.convert fp64 .even (x.toNat % 2 ^ 32)).bits

/-- An operand of XFMA and XADD. T 0 is FP64, 1 FP32. -/
def xaccOperand (t : BitVec 1) (x : Word) : Word := if t = 1#1 then widen32 x else x

/-- Put an operation on the accumulator in flight: 0 XCLR, 1 XFMA, 2 XADD (R288). -/
def Work.putX (w : Work) (op a b : Word) (lat : Nat) : Work :=
  w.put { kind := .xaccOp, reg := 0, value := (b ++ a).setWidth 1024, lat := lat, xtra := op }

def execXclr := run fun w => w.putX 0 0 0 2
def execXfma (a b : BitVec 6) (t : BitVec 1) := run fun w =>
  (w.putX 1 (xaccOperand t (w.rdS 0 a)) (xaccOperand t (w.rdS 1 b)) 6).modHere fun c => { c with lastXfma := some w.focus.issueAt }
def execXadd (a : BitVec 6) (t : BitVec 1) := run fun w => w.putX 2 (xaccOperand t (w.rdS 0 a)) 0 2

/-- X·2^(−2148) rounded once (R127). -/
def xaccRound (c : Ctx) (f : Fmt) (rm : Rm) : Rounded :=
  if c.xclass = 3#2 then ⟨f.nan, 0⟩
  else if c.xclass ≠ 0#2 then ⟨f.inf (c.xclass == 2#2), 0⟩
  else f.roundDy rm false ⟨c.xval, -2148⟩

def execXrnd (d : BitVec 6) (r : BitVec 3) (t : BitVec 1) := run fun w =>
  let (rm, st) := drawRm (w.rmCode r) w.me.gen
  let x := xaccRound w.me (if t = 1#1 then fp32 else fp64) rm
  (w.setGen st).putS d (BitVec.ofNat 64 x.bits) 12 x.flags

/-- Sign and zero test of the accumulator (R127). -/
def xaccSign (c : Ctx) : Bool × Bool :=
  if c.xclass = 0#2 then (decide (c.xval < 0), c.xval == 0) else (c.xclass != 1#2, c.xclass == 3#2)

def execXsgn (n m : BitVec 4) := run fun w => let (x, y) := xaccSign w.me; (w.putP n x 2).putP m y 2

end Sys2Proof.Machine
end

