-- ==== Sys2Proof/Machine/Dispatch.lean ====
section
/-! DEFINITION. The one place where an instruction meets its meaning: one arm per constructor of Instr. -/
namespace Sys2Proof.Machine

def exec (i : Instr) (s : State) : Host.Outcome State Fault Refusal :=
  match i with
  | .abs d a => Sys2Proof.Machine.execAbs d a s
  | .add d a b => Sys2Proof.Machine.execAdd d a b s
  | .addI d a m => Sys2Proof.Machine.execAddI d a m s
  | .adda d a b => Sys2Proof.Machine.execAdda d a b s
  | .addaI d a m => Sys2Proof.Machine.execAddaI d a m s
  | .and d a b => Sys2Proof.Machine.execAnd d a b s
  | .andI d a m => Sys2Proof.Machine.execAndI d a m s
  | .andn d a b => Sys2Proof.Machine.execAndn d a b s
  | .andnI d a m => Sys2Proof.Machine.execAndnI d a m s
  | .bfi d a b => Sys2Proof.Machine.execBfi d a b s
  | .bfx d a b => Sys2Proof.Machine.execBfx d a b s
  | .clz d a => Sys2Proof.Machine.execClz d a s
  | .ctz d a => Sys2Proof.Machine.execCtz d a s
  | .popc d a => Sys2Proof.Machine.execPopc d a s
  | .sub d a b => Sys2Proof.Machine.execSub d a b s
  | .subI d a m => Sys2Proof.Machine.execSubI d a m s
  | .mul d a b => Sys2Proof.Machine.execMul d a b s
  | .mulI d a m => Sys2Proof.Machine.execMulI d a m s
  | .mulh d a b u => Sys2Proof.Machine.execMulh d a b u s
  | .mulhI d a m => Sys2Proof.Machine.execMulhI d a m s
  | .mad d a b => Sys2Proof.Machine.execMad d a b s
  | .madI d a m => Sys2Proof.Machine.execMadI d a m s
  | .div d a b u => Sys2Proof.Machine.execDiv d a b u s
  | .divI d a m => Sys2Proof.Machine.execDivI d a m s
  | .rem d a b u => Sys2Proof.Machine.execRem d a b u s
  | .remI d a m => Sys2Proof.Machine.execRemI d a m s
  | .or d a b => Sys2Proof.Machine.execOr d a b s
  | .orI d a m => Sys2Proof.Machine.execOrI d a m s
  | .xor d a b => Sys2Proof.Machine.execXor d a b s
  | .xorI d a m => Sys2Proof.Machine.execXorI d a m s
  | .shl d a b => Sys2Proof.Machine.execShl d a b s
  | .shlI d a m => Sys2Proof.Machine.execShlI d a m s
  | .shr d a b => Sys2Proof.Machine.execShr d a b s
  | .shrI d a m => Sys2Proof.Machine.execShrI d a m s
  | .sra d a b => Sys2Proof.Machine.execSra d a b s
  | .sraI d a m => Sys2Proof.Machine.execSraI d a m s
  | .rol d a b => Sys2Proof.Machine.execRol d a b s
  | .rolI d a m => Sys2Proof.Machine.execRolI d a m s
  | .min d a b u => Sys2Proof.Machine.execMin d a b u s
  | .minI d a m => Sys2Proof.Machine.execMinI d a m s
  | .max d a b u => Sys2Proof.Machine.execMax d a b u s
  | .maxI d a m => Sys2Proof.Machine.execMaxI d a m s
  | .cmp c p a b u => Sys2Proof.Machine.execCmp c p a b u s
  | .cmpI c p a m => Sys2Proof.Machine.execCmpI c p a m s
  | .sel d a b f => Sys2Proof.Machine.execSel d a b f s
  | .selI d a m f => Sys2Proof.Machine.execSelI d a m f s
  | .mov d a => Sys2Proof.Machine.execMov d a s
  | .movi d h m => Sys2Proof.Machine.execMovi d h m s
  | .movaToA d a => Sys2Proof.Machine.execMovaToA d a s
  | .movaToS d a => Sys2Proof.Machine.execMovaToS d a s
  | .plog d a b o => Sys2Proof.Machine.execPlog d a b o s
  | .sext d a n => Sys2Proof.Machine.execSext d a n s
  | .mstat d => Sys2Proof.Machine.execMstat d s
  | .mstatClr d => Sys2Proof.Machine.execMstatClr d s
  | .br o => Sys2Proof.Machine.execBr o s
  | .brS1 o => Sys2Proof.Machine.execBrS1 o s
  | .brx a => Sys2Proof.Machine.execBrx a s
  | .brxS1 a => Sys2Proof.Machine.execBrxS1 a s
  | .call o => Sys2Proof.Machine.execCall o s
  | .callS1 o => Sys2Proof.Machine.execCallS1 o s
  | .callx a => Sys2Proof.Machine.execCallx a s
  | .callxS1 a => Sys2Proof.Machine.execCallxS1 a s
  | .loop l c => Sys2Proof.Machine.execLoop l c s
  | .loopm l c => Sys2Proof.Machine.execLoopm l c s
  | .lexit l => Sys2Proof.Machine.execLexit l s
  | .barr m => Sys2Proof.Machine.execBarr m s
  | .hwait h m => Sys2Proof.Machine.execHwait h m s
  | .vwait a v => Sys2Proof.Machine.execVwait a v s
  | .mwait a v => Sys2Proof.Machine.execMwait a v s
  | .trapImm iv => Sys2Proof.Machine.execTrapImm iv s
  | .fence k sv => Sys2Proof.Machine.execFence k sv s
  | .fenceR k sv a l => Sys2Proof.Machine.execFenceR k sv a l s
  | .qfence m => Sys2Proof.Machine.execQfence m s
  | .mfsr d k => Sys2Proof.Machine.execMfsr d k s
  | .mtsr a k => Sys2Proof.Machine.execMtsr a k s
  | .est a => Sys2Proof.Machine.execEst a s
  | .estI m => Sys2Proof.Machine.execEstI m s
  | .ld d a m sv w z x => Sys2Proof.Machine.execLd d a m sv w z x s
  | .st d a m sv w x => Sys2Proof.Machine.execSt d a m sv w x s
  | .vld d a m sv x => Sys2Proof.Machine.execVld d a m sv x s
  | .vst d a m sv x => Sys2Proof.Machine.execVst d a m sv x s
  | .vldx d a b w sv e q => Sys2Proof.Machine.execVldx d a b w sv e q s
  | .vstx d a b w sv e q => Sys2Proof.Machine.execVstx d a b w sv e q s
  | .lda d a sv w z c o => Sys2Proof.Machine.execLda d a sv w z c o s
  | .stl d a sv w c o => Sys2Proof.Machine.execStl d a sv w c o s
  | .stlR d a rp w c => Sys2Proof.Machine.execStlR d a rp w c s
  | .atom d b a o w r sv => Sys2Proof.Machine.execAtom d b a o w r sv s
  | .upd b a o w => Sys2Proof.Machine.execUpd b a o w s
  | .cmnt o v a l => Sys2Proof.Machine.execCmnt o v a l s
  | .alloc d c => Sys2Proof.Machine.execAlloc d c s
  | .allocNf d p c => Sys2Proof.Machine.execAllocNf d p c s
  | .free a c => Sys2Proof.Machine.execFree a c s
  | .vadd d a b e q t => Sys2Proof.Machine.execVadd d a b e q t s
  | .vsub d a b e q t => Sys2Proof.Machine.execVsub d a b e q t s
  | .vmul d a b e q t => Sys2Proof.Machine.execVmul d a b e q t s
  | .vfma d a b e q t => Sys2Proof.Machine.execVfma d a b e q t s
  | .vmin d a b e q t => Sys2Proof.Machine.execVmin d a b e q t s
  | .vmax d a b e q t => Sys2Proof.Machine.execVmax d a b e q t s
  | .vabs d a e q t => Sys2Proof.Machine.execVabs d a e q t s
  | .vneg d a e q t => Sys2Proof.Machine.execVneg d a e q t s
  | .vcmp c d a b e q t => Sys2Proof.Machine.execVcmp c d a b e q t s
  | .vsel d a b q t => Sys2Proof.Machine.execVsel d a b q t s
  | .vand d a b e q t => Sys2Proof.Machine.execVand d a b e q t s
  | .vor d a b e q t => Sys2Proof.Machine.execVor d a b e q t s
  | .vxor d a b e q t => Sys2Proof.Machine.execVxor d a b e q t s
  | .vshl d a b e q t => Sys2Proof.Machine.execVshl d a b e q t s
  | .vshr d a b e q t => Sys2Proof.Machine.execVshr d a b e q t s
  | .vcvt d a h u e q t => Sys2Proof.Machine.execVcvt d a h u e q t s
  | .vqnt d a f q t => Sys2Proof.Machine.execVqnt d a f q t s
  | .vdq d a f q t => Sys2Proof.Machine.execVdq d a f q t s
  | .vfn d a f e q t => Sys2Proof.Machine.execVfn d a f e q t s
  | .vred d a o e q t => Sys2Proof.Machine.execVred d a o e q t s
  | .vscan d a o e q t => Sys2Proof.Machine.execVscan d a o e q t s
  | .vperm d a b e q w => Sys2Proof.Machine.execVperm d a b e q w s
  | .vbcst d a w => Sys2Proof.Machine.execVbcst d a w s
  | .vbcstI d w m => Sys2Proof.Machine.execVbcstI d w m s
  | .vget d a w iv u => Sys2Proof.Machine.execVget d a w iv u s
  | .vput d a w iv => Sys2Proof.Machine.execVput d a w iv s
  | .vdot d a b e q t => Sys2Proof.Machine.execVdot d a b e q t s
  | .vcmul d a b e q t => Sys2Proof.Machine.execVcmul d a b e q t s
  | .qlog d a b o => Sys2Proof.Machine.execQlog d a b o s
  | .xfma a b t => Sys2Proof.Machine.execXfma a b t s
  | .xadd a t => Sys2Proof.Machine.execXadd a t s
  | .xrnd d r t => Sys2Proof.Machine.execXrnd d r t s
  | .xsgn n m => Sys2Proof.Machine.execXsgn n m s
  | .mmode m b => Sys2Proof.Machine.execMmode m b s
  | .mpush n => Sys2Proof.Machine.execMpush n s
  | .mpushV v => Sys2Proof.Machine.execMpushV v s
  | .mshift z t n iv b => Sys2Proof.Machine.execMshift z t n iv b s
  | .maccSet iv r c d => Sys2Proof.Machine.execMaccSet iv r c d s
  | .maccAdd iv r c d => Sys2Proof.Machine.execMaccAdd iv r c d s
  | .maccArmSet sv c d => Sys2Proof.Machine.execMaccArmSet sv c d s
  | .maccArmAdd sv c d => Sys2Proof.Machine.execMaccArmAdd sv c d s
  | .mdrain f k d iv r => Sys2Proof.Machine.execMdrain f k d iv r s
  | .mzero iv r n => Sys2Proof.Machine.execMzero iv r n s
  | .mxcpOut sv a r n off => Sys2Proof.Machine.execMxcpOut sv a r n off s
  | .mxcpIn sv a r n off => Sys2Proof.Machine.execMxcpIn sv a r n off s
  | .sclA sv => Sys2Proof.Machine.execSclA sv s
  | .sclB sv e h => Sys2Proof.Machine.execSclB sv e h s
  | .scliA grp c => Sys2Proof.Machine.execScliA grp c s
  | .scliB seg c => Sys2Proof.Machine.execScliB seg c s
  | .gset d b l => Sys2Proof.Machine.execGset d b l s
  | .gldd d a => Sys2Proof.Machine.execGldd d a s
  | .gadv d n => Sys2Proof.Machine.execGadv d n s
  | .cpy q x c => Sys2Proof.Machine.execCpy q x c s
  | .cpyNet q x c => Sys2Proof.Machine.execCpyNet q x c s
  | .dftFwd p d sv c => Sys2Proof.Machine.execDftFwd p d sv c s
  | .dftInv p d sv c => Sys2Proof.Machine.execDftInv p d sv c s
  | .hreq h e c => Sys2Proof.Machine.execHreq h e c s
  | .hrel h => Sys2Proof.Machine.execHrel h s
  | .hqry d h => Sys2Proof.Machine.execHqry d h s
  | .route a c => Sys2Proof.Machine.execRoute a c s
  | .rcnt a b c => Sys2Proof.Machine.execRcnt a b c s
  | .pubOpen d a => Sys2Proof.Machine.execPubOpen d a s
  | .pubClose a l => Sys2Proof.Machine.execPubClose a l s
  | .settle a => Sys2Proof.Machine.execSettle a s
  | .settlePub a l => Sys2Proof.Machine.execSettlePub a l s
  | .pin d a => Sys2Proof.Machine.execPin d a s
  | .unpin v a => Sys2Proof.Machine.execUnpin v a s
  | .spawn c e m f => Sys2Proof.Machine.execSpawn c e m f s
  | .enqC l q => Sys2Proof.Machine.execEnqC l q s
  | .enqR p l r => Sys2Proof.Machine.execEnqR p l r s
  | .enqX l => Sys2Proof.Machine.execEnqX l s
  | .depdec iv => Sys2Proof.Machine.execDepdec iv s
  | .depdecS sv => Sys2Proof.Machine.execDepdecS sv s
  | .flget v f => Sys2Proof.Machine.execFlget v f s
  | .flput v f => Sys2Proof.Machine.execFlput v f s
  | .flwait f n => Sys2Proof.Machine.execFlwait f n s
  | .fldrop f n => Sys2Proof.Machine.execFldrop f n s
  | .coll x c => Sys2Proof.Machine.execColl x c s
  | .tstamp d => Sys2Proof.Machine.execTstamp d s
  | .monArm u a => Sys2Proof.Machine.execMonArm u a s
  | .monStop u a => Sys2Proof.Machine.execMonStop u a s
  | .monSnap u a => Sys2Proof.Machine.execMonSnap u a s
  | .ixCpy t sv d => Sys2Proof.Machine.execIxCpy t sv d s
  | .ixHreq t sv d => Sys2Proof.Machine.execIxHreq t sv d s
  | .ixHwait t sv d => Sys2Proof.Machine.execIxHwait t sv d s
  | .ixQfence t sv d => Sys2Proof.Machine.execIxQfence t sv d s
  | .ixFlget t sv d => Sys2Proof.Machine.execIxFlget t sv d s
  | .ixFlput t sv d => Sys2Proof.Machine.execIxFlput t sv d s
  | .ixFlwait t sv d => Sys2Proof.Machine.execIxFlwait t sv d s
  | .ixFldrop t sv d => Sys2Proof.Machine.execIxFldrop t sv d s
  | .idleRun n => Sys2Proof.Machine.execIdleRun n s
  | .budgetExhausted inst => Sys2Proof.Machine.execBudgetExhausted inst s
  | .reachDeadline part course reach => Sys2Proof.Machine.execReachDeadline part course reach s
  | .externTrap value => Sys2Proof.Machine.execExternTrap value s
  | .courseStart part queue => Sys2Proof.Machine.execCourseStart part queue s
  | .selectReach part => Sys2Proof.Machine.execSelectReach part s
  | .placeInst part => Sys2Proof.Machine.execPlaceInst part s
  | .dictLoad core part sigOk => Sys2Proof.Machine.execDictLoad core part sigOk s
  | .bplaneLogReplay inst bcore => Sys2Proof.Machine.execBplaneLogReplay inst bcore s
  | .freezeInst inst => Sys2Proof.Machine.execFreezeInst inst s
  | .tokenAge part course reach => Sys2Proof.Machine.execTokenAge part course reach s
  | .instanceComplete inst => Sys2Proof.Machine.execInstanceComplete inst s
  | .reachComplete part course reach => Sys2Proof.Machine.execReachComplete part course reach s
  | .courseComplete part course => Sys2Proof.Machine.execCourseComplete part course s
  | .pageRead handle page corrected => Sys2Proof.Machine.execPageRead handle page corrected s
  | .pageReconstruct handle page members => Sys2Proof.Machine.execPageReconstruct handle page members s
  | .disturbLimit stack block => Sys2Proof.Machine.execDisturbLimit stack block s
  | .relocationCopy stack block corrected => Sys2Proof.Machine.execRelocationCopy stack block corrected s
  | .mapSwitch stack block => Sys2Proof.Machine.execMapSwitch stack block s
  | .blockErase stack block ok => Sys2Proof.Machine.execBlockErase stack block ok s
  | .wearLevel stack block => Sys2Proof.Machine.execWearLevel stack block s
  | .healthCopy stack => Sys2Proof.Machine.execHealthCopy stack s
  | .copyLinear queue => Sys2Proof.Machine.execCopyLinear queue s
  | .copyBfill queue => Sys2Proof.Machine.execCopyBfill queue s
  | .copyToFlume queue => Sys2Proof.Machine.execCopyToFlume queue s
  | .copyFromFlume queue => Sys2Proof.Machine.execCopyFromFlume queue s
  | .netSend queue => Sys2Proof.Machine.execNetSend queue s
  | .allReduce part group seq => Sys2Proof.Machine.execAllReduce part group seq s
  | .allGather part group seq => Sys2Proof.Machine.execAllGather part group seq s
  | .allToAll part group seq => Sys2Proof.Machine.execAllToAll part group seq s
  | .collTimeout part group seq => Sys2Proof.Machine.execCollTimeout part group seq s
  | .cellReceive cell => Sys2Proof.Machine.execCellReceive cell s
  | .metadataDeliver part group sender msg entry => Sys2Proof.Machine.execMetadataDeliver part group sender msg entry s
  | .mergeWindowClose line => Sys2Proof.Machine.execMergeWindowClose line s
  | .l1Evict core line => Sys2Proof.Machine.execL1Evict core line s
  | .l2Evict line => Sys2Proof.Machine.execL2Evict line s
  | .createPart part port => Sys2Proof.Machine.execCreatePart part port s
  | .destroyPart part port => Sys2Proof.Machine.execDestroyPart part port s
  | .swapOut part port => Sys2Proof.Machine.execSwapOut part port s
  | .swapIn part port => Sys2Proof.Machine.execSwapIn part port s
  | .remapPart part port => Sys2Proof.Machine.execRemapPart part port s
  | .installModel part port pages => Sys2Proof.Machine.execInstallModel part port pages s
  | .resetPart part port => Sys2Proof.Machine.execResetPart part port s
  | .setGroups part port => Sys2Proof.Machine.execSetGroups part port s
  | .featAcceptWrite part port offset bytes => Sys2Proof.Machine.execFeatAcceptWrite part port offset bytes s
  | .disturbLimWrite stack value => Sys2Proof.Machine.execDisturbLimWrite stack value s
  | .registerWrite port offset bytes => Sys2Proof.Machine.execRegisterWrite port offset bytes s
  | .powerUp rom control flash => Sys2Proof.Machine.execPowerUp rom control flash s
  | .powerCheck milliwatts milliC => Sys2Proof.Machine.execPowerCheck milliwatts milliC s
  | .thermalTrip die => Sys2Proof.Machine.execThermalTrip die s
  | .linkFail link => Sys2Proof.Machine.execLinkFail link s
  | .channelFail stack => Sys2Proof.Machine.execChannelFail stack s
  | .railFail rail => Sys2Proof.Machine.execRailFail rail s
  | .coreError core damaged => Sys2Proof.Machine.execCoreError core damaged s
  | .spareTakeover core => Sys2Proof.Machine.execSpareTakeover core s
  | .monSample source watched value => Sys2Proof.Machine.execMonSample source watched value s
  | .attestationReport request => Sys2Proof.Machine.execAttestationReport request s
  | .firmwareUpdate image => Sys2Proof.Machine.execFirmwareUpdate image s
  | .helperInstruction op len => Sys2Proof.Machine.execHelperInstruction op len s
  | .channelReplaced stack => Sys2Proof.Machine.execChannelReplaced stack s
  | .cellAcknowledge message refused => Sys2Proof.Machine.execCellAcknowledge message refused s
  | .ret => Sys2Proof.Machine.execRet s
  | .endRill => Sys2Proof.Machine.execEndRill s
  | .yield => Sys2Proof.Machine.execYield s
  | .rft => Sys2Proof.Machine.execRft s
  | .xclr => Sys2Proof.Machine.execXclr s
  | .footEmerge => Sys2Proof.Machine.execFootEmerge s
  | .maccOff => Sys2Proof.Machine.execMaccOff s
  | .latchActivate => Sys2Proof.Machine.execLatchActivate s
  | .ecall => Sys2Proof.Machine.execEcall s
  | .ebreak => Sys2Proof.Machine.execEbreak s
  | .auxfault => Sys2Proof.Machine.execAuxfault s
  | .contextSwitch => Sys2Proof.Machine.execContextSwitch s
  | .resultLand => Sys2Proof.Machine.execResultLand s
  | .budgetTrap => Sys2Proof.Machine.execBudgetTrap s
  | .deadlineTrap => Sys2Proof.Machine.execDeadlineTrap s
  | .hreqEntry => Sys2Proof.Machine.execHreqEntry s
  | .hrelEntry => Sys2Proof.Machine.execHrelEntry s
  | .dftFwdEntry => Sys2Proof.Machine.execDftFwdEntry s
  | .dftInvEntry => Sys2Proof.Machine.execDftInvEntry s
  | .routeEntry => Sys2Proof.Machine.execRouteEntry s
  | .rcntEntry => Sys2Proof.Machine.execRcntEntry s
  | .powerDown => Sys2Proof.Machine.execPowerDown s
  | .unsupportedPacket => Sys2Proof.Machine.execUnsupportedPacket s

end Sys2Proof.Machine
end

