-- ==== Sys2Proof/Machine/Checks.lean ====
section
/-! DEFINITION. The slots of a bundle and its issue checks (03_core R53, R54, R58 to R69, 04_encoding R87 to R98), and the stalls in place
(02_execution R31, 03_core R57). -/
namespace Sys2Proof.Machine

/-! ## Header and slots (R87 to R89) -/

def hdrStall (b : Bundle) : Nat := (field b 0 4).toNat
def hdrSurr (b : Bundle) (i : Nat) : Bool := b.getLsbD (4 + i)
def hdrMode (b : Bundle) : BitVec 2 := field b 14 2
def hdrLevel (b : Bundle) : Nat := (field b 16 3).toNat
def hdrStage (b : Bundle) (i : Nat) : Nat := (field b (29 + 2 * i) 2).toNat
def slotWordOf (b : Bundle) (i : Nat) : BitVec 32 := field b (64 + 32 * i) 32

/-- The class of a slot position (R53). -/
def slotClass (i : Nat) : SlotClass :=
  if i = 0 then .ctrl else if i = 1 then .int1 else if i = 2 then .int2 else if i ≤ 4 then .mem else if i ≤ 6 then .vec
  else if i = 7 then .mtx else if i = 8 then .scl else .flow

/-- A guard field of the header: predicate and inversion (R65). -/
def guardReg (f : BitVec 5) : BitVec 4 := field f 4 1 ++ field f 0 3
def guardOf (b : Bundle) (g : BitVec 2) : BitVec 5 := if g = 1#2 then field b 19 5 else field b 24 5

/-- A slot that issues something: its position, word, immediate word, whether its guard and qualifiers hold, and what it decodes to. A slot
that is empty or squashed decodes to nothing. -/
structure SlotView where
  n : Nat
  word : BitVec 32
  ext : Option (BitVec 32)
  held : Bool
  instr : Option Instr

/-- Guard and opcode of a slot word (R90). -/
def SlotView.guard (v : SlotView) : BitVec 2 := field v.word 30 2
def SlotView.op (v : SlotView) : BitVec 7 := field v.word 23 7
/-- An empty slot, which no immediate word follows (R54, R89). -/
def SlotView.isEmpty (v : SlotView) : Bool := v.op == 0#7 && v.ext.isNone

namespace Work

/-- Does a guard hold (R65)? A reserved one does not. -/
def guardHolds (w : Work) (b : Bundle) (g : BitVec 2) : Bool :=
  if g = 0#2 then true
  else if g = 3#2 then false
  else let f := guardOf b g; w.me.pReg (guardReg f) != f.getLsbD 3

/-- The level whose kernel bundles the current offset is one of (R67). -/
def moduloLevel (w : Work) : Option LoopLevel :=
  let q := w.me.loop
  (q.levels.getLast?).bind fun l => if l.modulo && decide (l.first ≤ q.offset) && decide (q.offset ≤ l.last) then some l else none

/-- Does the first/last qualifier hold (R68)? A level is in an iteration only at a bundle of its range (DEDUCED, log entry 102). -/
def qualified (w : Work) (b : Bundle) : Bool :=
  let m := hdrMode b
  if m = 0#2 then true
  else match w.me.loop.levels[hdrLevel b]? with
    | none => true
    | some l =>
      let q := w.me.loop
      decide (l.first ≤ q.offset) && decide (q.offset ≤ l.last) && (if m = 1#2 then l.left != 0 && l.left == l.passes else l.left == 1)

/-- Does a slot of a stage execute in this pass (R67)? -/
def inStage (w : Work) (s : Nat) : Bool :=
  match w.moduloLevel with
  | none => true
  | some l => decide (s ≤ l.pass) && decide (l.pass - s < l.total)

/-- The slots of a bundle that are not surrendered. -/
def slotViews (w : Work) (b : Bundle) : List SlotView :=
  let q := w.qualified b
  ((List.range 10).filter fun i => !hdrSurr b i).map fun i =>
    let x := slotWordOf b i
    let ext := if i < 9 && hdrSurr b (i + 1) then some (slotWordOf b (i + 1)) else none
    let held := q && w.inStage (hdrStage b i) && w.guardHolds b (field x 30 2)
    { n := i, word := x, ext := ext, held := held, instr := if held then decodeSlot (slotClass i) x ext else none }

/-! ## ILLBUNDLE (R67, R68, R88, R89) -/

def illBundle (w : Work) (b : Bundle) : Bool :=
  let q := w.me.loop
  let m := hdrMode b
  field b 49 15 != 0#15 || hdrSurr b 0 ||
  (List.range 9).any (fun i => hdrSurr b (i + 1) && (hdrSurr b i || hdrStage b (i + 1) != 0)) ||
  (List.range 10).any (fun i => match w.moduloLevel with | some l => decide (l.stages ≤ hdrStage b i) | none => hdrStage b i != 0) ||
  m == 3#2 || (m != 0#2 && decide (q.levels.length ≤ hdrLevel b))

/-! ## ILLOP (R34, R65, R78, R92, R98, R292 and the entries) -/

/-- The KFEAT bit that gates an instruction (R98). -/
def gate : Instr → Option Nat
  | .dftFwd _ _ _ _ | .dftInv _ _ _ _ | .vcmul _ _ _ _ _ _ => some 1
  | .mmode m _ => if 4#3 ≤ m then some 1 else none
  | .pubOpen _ _ | .pubClose _ _ | .settle _ | .settlePub _ _ | .pin _ _ | .unpin _ _ | .vwait _ _ => some 2
  | .xclr | .xfma _ _ _ | .xadd _ _ | .xrnd _ _ _ | .xsgn _ _ => some 3
  | .alloc _ _ | .allocNf _ _ _ | .free _ _ => some 4
  | .coll _ _ => some 5
  | _ => none

/-- Does the context own its core's array, with no handler running (R34, R292)? A frame that cannot be read shows no handler. -/
def ownsHere (w : Work) : Bool :=
  (match w.myInst? with | some i => i.ownerAt w.focus.core == some w.me.rill | none => false) && w.frameBusy.1 != some true

/-- What an entry calls ILLOP beyond its fields. -/
def illOperand (w : Work) : Instr → Bool
  | .mstat _ | .mstatClr _ => !w.ownsHere
  | .mpushV v => wideMode w.here.arr.mode && v.getLsbD 0
  | .mshift z _ _ _ _ => z == 1#1 && w.here.arr.mode != 5#3
  | .mtsr a k => k == 8#6 && decide (5#3 ≤ field (w.me.sReg a) 0 3)
  | .vwait _ v => field (w.me.sReg v) 4 60 != 0#60
  | .loop l c => match w.loopDesc (w.frameBusy.1 == some true) l.toNat with
    | some (some d) => loopIllOp d false c || loopIdleC d c
    | some none => false
    | none => true
  | .loopm l c => match w.loopDesc (w.frameBusy.1 == some true) l.toNat with
    | some (some d) => loopIllOp d true c || loopIdleC d c
    | some none => false
    | none => true
  | .rft => w.focus.super && (match (readFrame w).1 with | .ok f => w.frameBad f | .error _ => false)
  | _ => false

/-- Does a slot take ILLOP? -/
def slotIll (w : Work) (vs : List SlotView) (v : SlotView) : Bool :=
  v.guard == 3#2 ||
  (v.held && !v.isEmpty &&
    match v.instr with
    | none => true
    | some i =>
      ((gate i).any fun k => !(w.part w.myPart).hasFeat k) ||
      ((v.n == 7 || v.n == 8) && !w.ownsHere) ||
      (v.n == 6 && (match i with | .xfma _ _ _ => true | _ => false) &&
        vs.any fun u => u.n == 5 && (match u.instr with | some (.xfma _ _ _) => true | _ => false)) ||
      w.illOperand i)

/-! ## DSLOT (R62), LOOPSEQ (R69, R433, R434, R454) -/

/-- May a slot not stand in a delay slot, whatever its guard? -/
def noDelay (v : SlotView) : Bool :=
  (v.n == 0 && (decide (1#7 ≤ v.op ∧ v.op ≤ 5#7) || decide (8#7 ≤ v.op ∧ v.op ≤ 0xA#7) || v.op == 0x10#7 || v.op == 0x18#7 || v.op == 0x19#7)) ||
  (v.n == 1 && decide (0x70#7 ≤ v.op ∧ v.op ≤ 0x73#7)) || (v.n == 9 && v.op == 0x28#7)

/-- A branch that is taken where it issues. -/
def isBranch : Instr → Bool
  | .br _ | .brS1 _ | .brx _ | .brxS1 _ | .call _ | .callS1 _ | .callx _ | .callxS1 _ | .ret => true
  | _ => false

/-- R69, R70: does the instruction name a level that is not active? A level of the loop counts as active wherever the bundle stands (DEDUCED, log
entry 102). -/
def loopSeqBad (w : Work) (i : Instr) : Bool :=
  let q := w.me.loop
  let shape (l : BitVec 6) : Bool := match w.loopDesc (w.frameBusy.1 == some true) l.toNat with | some (some d) => loopBadShape d | _ => false
  let active := !q.levels.isEmpty
  match i with
  | .loop l _ | .loopm l _ => active || shape l
  | .lexit l => decide (q.levels.length ≤ l.toNat)
  | .rft => active
  | i => isBranch i && active

/-! ## STALLSHORT and WRCLASH (R59, R60, R136, R421, R480) -/

/-- The sources of a slot with its guard predicate first. -/
def slotSources (w : Work) (b : Bundle) (v : SlotView) (i : Instr) : List RegRef :=
  (if v.guard = 1#2 ∨ v.guard = 2#2 then [.p (guardReg (guardOf b v.guard))] else []) ++ sources w i

def directMaccs : Instr → Bool
  | .maccSet _ _ _ _ | .maccAdd _ _ _ _ => true
  | _ => false

/-- INFO of STALLSHORT: the first pending source; a MACC without a foot names no register, and INFO is then a free value (log entry 2). -/
def stallShort (w : Work) (b : Bundle) (v : SlotView) (i : Instr) : Option Word :=
  match (slotSources w b v i).find? w.pendingFixed with
  | some r => some r.info
  | none => if directMaccs i && (w.emergingNext w.focus.core).isNone then some (Config.freeWord w.freeNext) else none

/-- A slot's results: what lands from it, and the positions of the streams it uses. -/
def slotDests (i : Instr) : List Dest :=
  dests i ++ match i with
    | .mpush n => [⟨.g n, 1⟩]
    | .mshift _ t n _ _ => if t = 1#1 then [⟨.g n, 1⟩] else []
    | .mdrain _ k d _ _ => if k = 0#1 then [⟨.g d, 1⟩] else []
    | _ => []

/-- Results to s0 and p0 never land (R56). -/
def Dest.lands (d : Dest) : Bool := d.reg != .s 0#6 && d.reg != .p 0#4

def isXclr : Instr → Bool
  | .xclr => true
  | _ => false

/-- Does a result clash with one of a lower slot of the bundle? -/
def clashBelow (below : List Instr) (i : Instr) (d : Dest) : Bool :=
  below.any fun j => (slotDests j).any fun e => e.reg == d.reg && e.lat == d.lat && (d.reg != .x || isXclr i || isXclr j)

/-- INFO of WRCLASH for a slot over the slots below it. -/
def wrClash (w : Work) (below : List Instr) (i : Instr) : Option Word :=
  ((slotDests i).filter Dest.lands).findSome? fun d => if w.clashes (isXclr i) d || clashBelow below i d then some d.reg.info else none

/-! ## The checks in R61's order -/

/-- An issue check's trap with the slot it reports. -/
structure IssueTrap where
  slot : Nat
  trap : Trap

/-- The first of a list of slots that a check picks, with what it gives. -/
def firstSlot (vs : List SlotView) (f : SlotView → Instr → Option Trap) : Option IssueTrap :=
  vs.findSome? fun v => v.instr.bind fun i => (f v i).map fun t => ⟨v.n, t⟩

/-- A poisoned loop descriptor that a LOOP would read takes CODEECC, before the issue checks (R86). -/
def poisonedLoop (w : Work) (vs : List SlotView) : Bool :=
  vs.any fun v => match v.instr with
    | some (.loop l _) | some (.loopm l _) => w.loopDesc (w.frameBusy.1 == some true) l.toNat == some none
    | _ => false

def issueCheck (w : Work) (b : Bundle) (vs : List SlotView) : Option IssueTrap :=
  if w.illBundle b then some ⟨15, { code := cIllBundle }⟩
  else match vs.find? (w.slotIll vs) with
  | some v => some ⟨v.n, { code := cIllOp }⟩
  | none =>
  match (if w.me.brPend then vs.find? noDelay else none) with
  | some v => some ⟨v.n, { code := cDslot }⟩
  | none =>
  match firstSlot vs fun _ i => if w.loopSeqBad i then some { code := cLoopSeq } else none with
  | some t => some t
  | none =>
  if !w.focus.chk then none
  else match firstSlot vs fun v i => (w.stallShort b v i).map fun x => { code := cStallShort, info := x } with
  | some t => some t
  | none =>
  match firstSlot vs fun v i =>
      (w.wrClash ((vs.filter fun u => decide (u.n < v.n)).filterMap (·.instr)) i).map fun x => { code := cWrClash, info := x } with
  | some t => some t
  | none =>
  let taken := vs.filter fun v => v.instr.any isBranch
  if 1 < taken.length then some ⟨0, { code := cDblBr }⟩ else none

/-! ## Stalls in place (R31, R57, R142) -/

def usesDivider : Instr → Bool
  | .div _ _ _ _ | .divI _ _ _ | .rem _ _ _ _ | .remI _ _ _ => true
  | _ => false

def isXfma : Instr → Bool
  | .xfma _ _ _ => true
  | _ => false

/-- An MSTAT waits for a copy of accumulator rows as a matrix slot does (R439). -/
def readsStatus : Instr → Bool
  | .mstat _ | .mstatClr _ => true
  | _ => false

/-- The cycle until which busy units hold the slots of a bundle: the divider, the exact-accumulator multiplier, a copy of accumulator rows. -/
def unitsUntil (w : Work) (vs : List SlotView) : Nat :=
  let c := w.here
  let is := vs.filterMap (·.instr)
  let div := if is.any usesDivider then c.divUntil else 0
  let xf := if is.any isXfma && c.lastXfma == some (w.cycle - 1) && w.cycle != 0 then w.cycle + 1 else 0
  let mtx := if (vs.any fun v => v.n == 7 && v.held && !v.isEmpty) || is.any readsStatus then c.arr.copyUntil else 0
  max div (max xf mtx)

/-- The cycle until which a bundle stalls in place, interlocked sources included; not later than the current one where nothing holds it. A slot whose
guard does not hold on the predicate's present value waits for none of them (DESIGN CHOICE, log entry 123). -/
def stallsUntil (w : Work) (b : Bundle) (vs : List SlotView) : Nat :=
  let arrives (r : RegRef) : Nat := ((w.me.inflight.filter fun f => f.interlocked && r.hit f).map (·.land)).foldl max 0
  let regs := (vs.flatMap fun v => match v.instr with | some i => slotSources w b v i | none => []).map arrives
  max (regs.foldl max 0) (w.unitsUntil vs)

end Work
end Sys2Proof.Machine
end

