-- ==== Sys2Proof/Machine/Issue.lean ====
section
/-! DEFINITION. Issue (02_execution R28 to R32, 03_core R54 to R69, 14_traps R283 to R295): what a core does in a cycle: switch, deliver a held
event, fetch and check a bundle, block, run its slots, move on. -/
namespace Sys2Proof.Machine

/-- Continue after a meaning that answers a next state. -/
def andThen (o : Host.Outcome State Fault Refusal) (f : State → Host.Outcome State Fault Refusal) : Host.Outcome State Fault Refusal :=
  match o with
  | .next s => f s
  | .fault r => .fault r
  | .refused r => .refused r

/-- Run a part of a step that also answers something. -/
def State.ask {α : Type} (s : State) (f : Work → α × Work) : α × State :=
  let r := f s.work
  (r.1, { toChip := r.2.toChip, mem := applyLog s.mem r.2.log })

namespace Work

/-! ## Cycles held (R32, R271, R272) -/

/-- An instance holds the cycle: once per cycle its counter and the estimates of its rills fall by one. -/
def charge (w : Work) (id : Nat) : Work :=
  match w.inst? id with
  | none => w
  | some i =>
    if i.lastHeld = w.cycle + 1 then w
    else
      let w := w.modInst id fun i => { i with counter := i.counter - 1, lastHeld := w.cycle + 1 }
      i.rills.foldl (fun w r => if r.ended then w else w.modCtx r.core r.ctx fun c =>
        if c.inst = id ∧ c.kest ≠ 0 then { c with kest := c.kest - 1 } else c) w

/-! ## Entering traps at issue -/

/-- Interlocked results arrive, then the trap is taken. -/
def enterTrap (w : Work) (st : Site) : Work := (w.awaitInterlocked fun _ => true).takeTrap st

/-- The site of a trap before issue: PC names the bundle, past the end of code the address behind the last code word, a code address's bit 0 being 0
(R83, R84); HDR and SLOTW only where a bundle was fetched. -/
def siteAt (w : Work) (t : Trap) (slot : Nat) (hdr slotw : Word) : Site := { trap := t, slot := slot, pc := w.me.pc &&& ~~~1#64, hdr := hdr, slotw := slotw, ops := [] }

/-- A held event as a trap (R284, R295). -/
def heldTrap (kdead : Word) : HeldEvent → Trap
  | .budget => { code := cBudget }
  | .deadline => { code := cDeadline, info := kdead }
  | .aux o mcause mtval mepc => { code := cAuxFault, addr := mtval, info := mcause, info2 := mepc, sub := o.toNat }
  | .external v => { code := cExtern, info := v }

/-- The first held event is taken at this bundle boundary. -/
def takeHeld (w : Work) (e : HeldEvent) (rest : List HeldEvent) : Work :=
  let core := w.focus.core
  let ctx := w.focus.ctx
  let w := w.modMe fun c => { c with held := rest, woken := none, hres := none }
  let w := if e = .budget then
      w.modInst w.me.inst fun i => { i with rills := i.rills.map fun r => if r.core = core ∧ r.ctx = ctx ∧ !r.ended then { r with gotBudget := true } else r }
    else w
  let w := w.awaitInterlocked fun _ => true
  w.writeTrap (w.siteAt (heldTrap w.me.kdead e) 15 0 0)

/-- Contexts that wait while an event is held for them leave the wait, once no handler runs on them (R295). -/
def unblockHeld (w : Work) : Work :=
  w.coreNumbers.foldl (fun w n => (List.range 4).foldl (fun w i =>
    let c := w.ctx n i
    if c.st = .blocked && c.block.isSome && c.held != [] then
      let f := w.focus
      let v := w.modFocus fun g => { g with core := n, ctx := i }
      let (busy, v) := { v with focus := { v.focus with heldRead := false, heldWrite := false } }.frameBusy
      if busy = some true || v.heldNow then w
      else
        let w := { w with focus := f }.leaveWait n i
        w.modCtx n i fun c => { c with st := .ready, readyAt := w.cycle }
    else w) w) w

/-! ## Presenting a bundle -/

/-- What a presented bundle comes to. -/
inductive Prepared where
  | stop
  | bundle (b : Bundle) (idle : Bool) (vs : List SlotView)

/-- The bundle at the program counter, from the replay buffer inside a loop (R66). -/
def fetchHere (w : Work) : Except FetchTrap Fetched × Work :=
  let c := w.me
  match (if c.loop.levels.isEmpty then none else c.loop.replay.find? fun e => e.1 == c.loop.offset) with
  | some e => (.ok e.2, w)
  | none => w.fetchAt c.pc c.tgtFrom.isSome

/-- Fetch, stall and check the bundle at the program counter. A fetch from a stack whose traffic is held waits in place (R18). -/
def prepare (w : Work) : Prepared × Work :=
  let (got, v) := w.fetchHere
  if v.focus.heldRead && !w.focus.heldRead then (.stop, w)
  else match (got, v) with
  | (.error e, w) =>
    let info := if e.code = cBadTarget then w.me.tgtFrom.getD 0 else 0
    (.stop, w.enterTrap (w.siteAt { code := e.code, addr := e.addr, info := info, sub := e.sub } 15 0 0))
  | (.ok f, w) =>
    let skip := w.me.micro == some .skip
    let b : Bundle := if skip then 0 else f.bundle
    let w := w.modMe fun c => { c with
      pc := f.addr
      loop := if c.loop.levels.isEmpty then c.loop else { c.loop with replay := Tab.set c.loop.replay c.loop.offset f } }
    let w := w.modFocus fun g => { g with nextAddr := f.next, hdr := field b 0 64 }
    if hdrStall b ≠ 0 ∧ !w.me.stalled then
      (.stop, w.modMe fun c => { c with stalled := true, notBefore := w.cycle + hdrStall b })
    else
      let vs := w.slotViews b
      let u := w.stallsUntil b vs
      if w.cycle < u then (.stop, w.modMe fun c => { c with stalled := true, notBefore := u })
      else if w.poisonedLoop vs then (.stop, w.enterTrap (w.siteAt { code := cCodeEcc, addr := w.me.pc } 15 0 0))
      else match w.issueCheck b vs with
        | some t =>
          let x := match vs.find? fun v => v.n == t.slot with | some v => (v.ext.getD 0) ++ v.word | none => 0
          let w := if t.trap.code = cStallShort then { w with freeNext := w.freeNext + 1 } else w
          (.stop, w.enterTrap (w.siteAt t.trap t.slot w.focus.hdr x))
        | none => (.bundle b (f.isIdle && !skip) vs, w)

/-! ## Moving on -/

/-- The target of a branch whose delay slots have issued, or a plain address. A loop that began beside the branch stays active (DESIGN CHOICE, log
entry 124). -/
def goTo (w : Work) (straight : Word) : Work :=
  w.modMe fun c =>
    let c := { c with stalled := false, micro := none }
    if c.brPend && c.dsRem == 0 then { c with pc := c.brTgt, tgtFrom := some c.brFrom, brPend := false }
    else { c with pc := straight, tgtFrom := none }

/-- A bundle of the program itself has issued: an episode whose BARR did not issue again is no longer waited for (R40). -/
def forgetBarrier (w : Work) : Work :=
  if w.me.barrGo.isEmpty then w
  else
    let (busy, v) := w.frameBusy
    let w := w.alsoHeld v
    if busy == some true then w else w.modMe fun c => { c with barrGo := [] }

/-- After the slots of a bundle: the sequencer and the branch state move on; a slot's trap is entered from the state that leaves (R283). -/
def finishBundle (w : Work) (id : Nat) (rft : Bool) : Work :=
  let w := (w.charge id).forgetBarrier
  let fc := w.focus
  if w.me.inst ≠ id || fc.ending || (rft && fc.redirect.isSome && fc.trap.isNone) then w
  else
    let w := if fc.branch.isSome then w else w.modMe fun c => { c with dsRem := if c.brPend then c.dsRem - 1 else c.dsRem }
    let (straight, w) : Word × Work := match fc.redirect with
      | some a => (a, w)
      | none => if w.me.loop.levels.isEmpty then (fc.nextAddr.getD w.me.pc, w) else w.loopNext
    match fc.trap with
    | some r =>
      let w := w.enterSlotTrap r
      if w.me.inst = id then w.modMe fun c => { c with trapNext := straight } else w
    | none => w.goTo straight

/-- After a micro-bundle the bundle after PC follows (R294): where the frame has levels, what they say; where a handler has cleared them, straight
issue; else what followed the faulting bundle. -/
def finishMicro (w : Work) (id : Nat) : Work :=
  let w := w.charge id
  let fc := w.focus
  if w.me.inst ≠ id || fc.redirect.isSome || fc.trap.isSome then w
  else
    let q := w.me.loop
    let (straight, w) :=
      if !q.levels.isEmpty then w.loopAddr q q.offset
      else if w.me.trapCut then w.addrAfter w.me.pc 1 else (w.me.trapNext, w)
    w.goTo straight

/-- Did the context block (R29)? Then the bundle will be presented again without its stall count, be the context ready again already (R40). -/
def blocked (w : Work) : Bool := w.focus.waits

/-- Begin an issue: results are numbered by bundle; a replayed slot's count as the faulting bundle's (R294). -/
def beginIssue (w : Work) (micro : Bool) : Work :=
  let n := w.issueNo
  let w := { w with issueNo := n + 1 }
  w.modFocus fun g => { g with seqNo := if micro then microNo else n + 3 }

end Work

/-! ## Slots in order -/

/-- May a FLOW slot wait (R29)? -/
def mayBlock : Instr → Bool
  | .cpy _ _ _ | .cpyNet _ _ _ | .dftFwd _ _ _ _ | .dftInv _ _ _ _ | .hreq _ _ _ | .hrel _ | .route _ _ | .rcnt _ _ _ | .coll _ _
  | .flget _ _ | .flput _ _ | .flwait _ _ | .enqC _ _ | .enqR _ _ _ | .pubOpen _ _ => true
  | _ => false

def isAtom : Instr → Bool
  | .atom _ _ _ _ _ _ _ => true
  | _ => false

/-- Slots run in slot order, but for what R64 says of memory: those that read it before those that write it. END and RFT come last. Beside an ATOM
the MEM slots keep their order (R384). -/
def slotRank (atomic : Bool) (n : Nat) : Instr → Nat
  | .endRill | .rft => 8
  | .gldd _ _ => 1
  | .mdrain _ k _ _ _ => if k = 0#1 then 5 else 2
  | .mxcpOut _ _ _ _ _ => 5
  | .ld _ _ _ _ _ _ _ | .vld _ _ _ _ _ | .vldx _ _ _ _ _ _ _ | .lda _ _ _ _ _ _ _ => if atomic then 4 else 3
  | _ => if n ≤ 2 then 0 else if n = 7 ∨ n = 8 then 2 else if n ≤ 4 then 4 else if n ≤ 6 then 6 else 7

/-- The slots that issue, in the order in which they run. -/
def inOrder (vs : List SlotView) : List (SlotView × Instr) :=
  let is := vs.filterMap fun v => v.instr.map fun i => (v, i)
  let atomic := is.any fun x => isAtom x.2
  Work.sortBy (fun a b => decide (slotRank atomic a.1.n a.2 ≤ slotRank atomic b.1.n b.2)) is

/-- Run one slot of a bundle. -/
def runOne (v : SlotView) (i : Instr) (s : State) : Host.Outcome State Fault Refusal :=
  exec i (lift (fun w => w.modFocus fun g => { g with
    slot := v.n, slotWord := v.word, ext := v.ext, admitted := v.n == 9, bundle := true }) s)

/-- Run slots while the instance lives. -/
def runSlots (id : Nat) : List (SlotView × Instr) → State → Host.Outcome State Fault Refusal
  | [], s => .next s
  | (v, i) :: rest, s =>
    if s.work.me.inst ≠ id then .next s
    else andThen (runOne v i s) (runSlots id rest)

/-- A bundle of the array's owner advances the latches and the foot pipeline (R135); whether it is one is settled as it issues. -/
def ownerBundle (owner : Bool) (s : State) : Host.Outcome State Fault Refusal :=
  if owner then andThen (exec .latchActivate s) (exec .footEmerge) else .next s

/-- Run a checked bundle: what may wait comes first. -/
def runBundle (b : Bundle) (idle : Bool) (vs : List SlotView) (s : State) : Host.Outcome State Fault Refusal :=
  let id := s.work.me.inst
  let is := inOrder vs
  let rft := is.any fun (_, i) => i == .rft
  let owner := s.work.ownsHere
  let s := lift (fun w => (w.beginIssue false).modFocus fun g => { g with
    hdr := field b 0 64
    ending := is.any fun (_, i) => i == .endRill
    direct := is.any fun (_, i) => Work.directMaccs i }) s
  let again (s : State) : Host.Outcome State Fault Refusal := .next (lift (fun w => w.modMe fun c => { c with stalled := true }) s)
  let finish (s : State) : Host.Outcome State Fault Refusal := .next (lift (fun w => w.finishBundle id rft) s)
  if idle then
    andThen (ownerBundle owner s) fun s =>
      match s.work.idleAt s.work.me.pc with
      | some n => andThen (exec (.idleRun n) s) finish
      | none => finish s
  else
    let go (s : State) : Host.Outcome State Fault Refusal :=
      match is with
      | (v, i) :: rest =>
        if v.n = 0 ∧ i ≠ .endRill ∧ i ≠ .rft then
          andThen (runOne v i s) fun s =>
            if s.work.blocked && s.work.me.inst == id then again s
            else andThen (ownerBundle owner s) fun s => andThen (runSlots id rest s) finish
        else andThen (ownerBundle owner s) fun s => andThen (runSlots id is s) finish
      | [] => andThen (ownerBundle owner s) finish
    match is.find? fun (v, i) => v.n == 9 && mayBlock i with
    | some (v, i) => andThen (exec i (lift (fun w => w.modFocus fun g => { g with slot := 9, slotWord := v.word, ext := v.ext, bundle := true }) s)) fun t =>
        if t.work.blocked && t.work.focus.trap.isNone then again t else go s
    | none => go s

/-- Run a micro-bundle (R294): the replayed slot alone, on the operands of the frame. -/
def runMicro (s : State) : Host.Outcome State Fault Refusal :=
  let c := s.work.me
  let id := c.inst
  let finish (s : State) : Host.Outcome State Fault Refusal := .next (lift (fun w => w.finishMicro id) s)
  match c.micro with
  | some (.slot n hdr x ext ops) =>
    match decodeSlot (slotClass n) x ext with
    | none => .next (lift (fun w => w.enterTrap (w.siteAt { code := cIllOp } n hdr ((ext.getD 0) ++ x))) s)
    | some i =>
      let u := s.work.unitsUntil [{ n := n, word := x, ext := ext, held := true, instr := some i }]
      if s.cycle < u then .next (lift (fun w => w.modMe fun c => { c with notBefore := u }) s)
      else
        let s := lift (fun w => (w.beginIssue true).modFocus fun g => { g with
          slot := n, slotWord := x, ext := ext, hdr := hdr, replay := some ops, direct := Work.directMaccs i }) s
        andThen (exec i s) fun s => if s.work.blocked && s.work.me.inst == id then .next s else finish s
  | _ => finish (lift (fun w => w.beginIssue true) s)

/-- The current context presents what stands next. -/
def present (s : State) : Host.Outcome State Fault Refusal :=
  let c := s.work.me
  if s.cycle < c.notBefore then .next s
  else
    let s := if c.resumed then lift (fun w => (w.modMe fun c => { c with
        resumed := false, inflight := c.inflight.map fun f => { f with land := w.cycle + f.land } }).landDue w.focus.core w.focus.ctx) s else s
    match c.held with
    | e :: rest =>
      let (busy, s) := s.ask fun w => let (b, v) := w.frameBusy; (b, w.alsoHeld v)
      if busy = some true then
        (if c.micro.isSome && c.micro != some .skip then runMicro s else
          match s.ask Work.prepare with
          | (.stop, s) => .next s
          | (.bundle b idle vs, s) => runBundle b idle vs s)
      else .next (lift (fun w => w.takeHeld e rest) s)
    | [] =>
      if c.micro.isSome && c.micro != some .skip then runMicro s else
        match s.ask Work.prepare with
        | (.stop, s) => .next s
        | (.bundle b idle vs, s) => runBundle b idle vs s

/-- Whose turn it is: the focus of a core's current context. -/
def Work.aim (w : Work) (core ctx : Nat) : Work :=
  let c := w.ctx core ctx
  { w with focus := { Focus.reset with core := core, ctx := ctx, outfall := ctx == 1, issueAt := w.cycle, chk := c.chk, super := c.super } }

/-- Does a core leave its current context: one that is not ready, or whose bundle blocked in the cycle before while another was ready (R28)? -/
def Work.leaves (w : Work) (n : Nat) : Bool :=
  let cur := (w.core n).cur
  let x := w.ctx n cur
  x.st != .ready || (x.blockedAt + 1 == w.cycle && (w.nextCtx n).any (· != cur))

/-- A core's cycle. -/
def coreTurn (n : Nat) (s : State) : Host.Outcome State Fault Refusal :=
  let w := s.work
  let c := w.core n
  if c.switching.isSome then exec .contextSwitch (lift (fun w => w.aim n c.cur) s)
  else if w.cycle < c.stallUntil then .next s
  else
    let x := w.ctx n c.cur
    if !w.leaves n then (if x.readyAt < w.cycle then present (lift (fun w => w.aim n c.cur) s) else .next s)
    else match w.nextCtx n with
      | none => .next s
      | some m => exec .contextSwitch (lift (fun w => (w.aim n c.cur).modCore n fun c => { c with switching := some m }) s)

/-- A helper core's cycle: one instruction of its private program (R46). -/
def helperTurn (n : Nat) (outfall : Bool) (s : State) : Host.Outcome State Fault Refusal :=
  let w := s.work
  let h := w.helper n outfall
  match w.inst? h.inst with
  | some i =>
    if h.st ≠ .running ∨ i.st ≠ .running then .next s
    else exec (w.helperFetch n outfall) (lift (fun w => w.aim n outfall.toNat) s)
  | none => .next s

end Sys2Proof.Machine
end

