-- ==== Sys2Proof/Machine/Cycle.lean ====
section
/-! DEFINITION. The order of steps (02_execution R23 to R32, 13_scheduler R262 to R281, 10_streaming R212 to R228): in a cycle each agent acts
once, then everything that is due is gathered and performed, then time advances and inputs arrive. The order among agents of one cycle is the
model's (log entry 35). -/
namespace Sys2Proof.Machine

namespace Work

/-! ## What is due (R196, R209, R221, R262, R271, R276, R281, R392) -/

def todoFor (core : Nat) (i : Instr) : Todo := ⟨core, 0, i⟩

/-- Does an entry wait for its instance to be saved? One that has not started does not start while the instance freezes (R298). -/
def heldBack (w : Work) (e : Entry) : Bool :=
  !e.started && match w.inst? e.who.inst with | some i => i.st == .freezing | none => false

/-- The step that performs, or goes on performing, the head of a queue; a marker and a collective entry have none of their own. -/
def headStep (w : Work) (q : Nat) (e : Entry) : Option Instr :=
  if w.heldBack e then none
  else match e.kind with
  | .copy _ _ | .ixCopy _ =>
    if e.net.isSome || e.page.read.any (fun x => !PageRead.due w x) then none
    else match w.copyKind e with
      | some 0 => some (.copyLinear q)
      | some 1 => some (.copyBfill q)
      | some 2 => some (.copyToFlume q)
      | some 3 => some (.copyFromFlume q)
      | some 4 => some (.netSend q)
      | _ => none
  | .dft inverse _ _ _ => some (if inverse then .dftInvEntry else .dftFwdEntry)
  | .hreq _ _ _ _ => some .hreqEntry
  | .hrel h => if (w.handle h.toNat).releasing && !(w.handle h.toNat).reads.isEmpty then none else some .hrelEntry
  | .route _ => some .routeEntry
  | .rcnt _ _ => some .rcntEntry
  | .coll _ | .marker _ _ => none

def queueSteps (w : Work) : List Todo :=
  w.cores.flatMap fun (n, c) => (List.range 8).filterMap fun q =>
    ((nth c.queues q).head?.bind (w.headStep q)).map (todoFor n)

/-- Page reads that are due, with what decoding finds (log entry 2). -/
def readSteps (w : Work) : List Todo × Work :=
  w.handles.foldl (fun (acc : List Todo × Work) (h, r) =>
    r.reads.foldl (fun (acc : List Todo × Work) x =>
      if x.st = .started then
        if w.ns < x.dueNs then acc
        else
          let (c, v) := acc.2.decoded
          (acc.1 ++ [todoFor 0 (.pageRead h x.page c)], v)
      else if !PageRead.gathered w x then acc
      else
        let (ms, v) := acc.2.decodedMany 7
        (acc.1 ++ [todoFor 0 (.pageReconstruct h x.page ms)], v)) acc) ([], w)

/-- A block that wear levelling relocates: the lowest, while no block of the stack is on its way (R222). -/
def wearBlock (w : Work) (j : Nat) : Option Nat :=
  let s := w.stack j
  if w.pecMax j < 1000 || s.blocks.any fun e => e.2.st == .queued || e.2.st == .copied || e.2.st == .switched then none
  else match s.blocks.find? fun e => e.2.st == .mapped && decide (e.2.pec + 1000 ≤ w.pecMax j) with
    | some e => some e.1
    | none => (List.range (s.blocks.length + 1)).find? fun b => decide (b < logicalBlocks) && !s.blocks.any (·.1 == b)

/-- What a flash stack does next with its blocks; whether an erase succeeds is open (log entry 2). -/
def blockSteps (w : Work) (j : Nat) : List Todo × Work :=
  let s := w.stack j
  let health := if s.copyDue ≤ w.ns then [todoFor 0 (.healthCopy j)] else []
  let wear := match w.wearBlock j with | some b => [todoFor 0 (.wearLevel j b)] | none => []
  s.blocks.foldl (fun (acc : List Todo × Work) (b, x) =>
    match x.st with
    | .queued =>
      if (acc.2.freshBlock j).isNone then acc
      else
        let (cs, v) := acc.2.decodedMany 256
        (acc.1 ++ [todoFor 0 (.relocationCopy j b cs)], v)
    | .copied => if x.target = b then acc else (acc.1 ++ [todoFor 0 (.mapSwitch j b)], acc.2)
    | .switched => let (k, v) := acc.2.free; (acc.1 ++ [todoFor 0 (.blockErase j b (k % 2 == 0))], v)
    | _ => acc) (health ++ wear, w)

/-- Collectives that every member has entered, or that have waited too long. -/
def collSteps (w : Work) : List Todo :=
  ((w.coll.map fun x => (x.part, x.group, x.seq)).dedup).filterMap fun (p, g, q) =>
    match w.collReady p g q with
    | some (x :: _) => some (todoFor 0 (if CollDesc.op x.desc = 0 then .allReduce p g q else if CollDesc.op x.desc = 1 then .allGather p g q else .allToAll p g q))
    | _ =>
      match w.collOf p g q with
      | x :: _ => if x.limit ≤ w.ns then some (todoFor 0 (.collTimeout p g q)) else none
      | [] => none

/-- Reaches of a partition with their courses and indices. -/
def reachesOf (w : Work) (p : Nat) : List (Nat × Nat × Reach) :=
  (w.part p).courses.flatMap fun c => ((List.range c.reaches.length).zip c.reaches).map fun (k, r) => (c.seq, k, r)

/-- What the scheduler does for a partition. -/
def schedSteps (w : Work) (p : Nat) : List Instr :=
  let q := w.part p
  let rs := w.reachesOf p
  let late := rs.filterMap fun (c, k, r) => if r.complete || r.passed || decide (w.ns < r.deadline) then none else some (.reachDeadline p c k)
  let aged := rs.filterMap fun (c, k, r) => if decide (r.waitNs + 10000 ≤ w.ns) && w.ready p c k r then some (.tokenAge p c k) else none
  let done := rs.filterMap fun (c, k, r) => if w.reachDue p c k r then some (.reachComplete p c k) else none
  let ends := (q.courses.filter w.courseDue).map fun c => .courseComplete p c.seq
  let go := if !q.live || q.stopped || q.swapped then [] else
    ((List.range 16).filter (w.courseReady p)).map (fun k => Instr.courseStart p k) ++
    (if q.selected.isSome then [.placeInst p] else if (w.candidates p).isEmpty then [] else [.selectReach p])
  late ++ aged ++ done ++ ends ++ go

/-- What becomes of braid instances. -/
def instSteps (w : Work) : List Instr :=
  w.insts.flatMap fun i =>
    (if w.instDue i then [.instanceComplete i.id] else []) ++
    (if w.freezeDue i then [.freezeInst i.id] else []) ++
    (if i.st == .running && i.counter == 0 && (i.grace || !i.budgetSent) then [.budgetExhausted i.id] else [])

/-- Everything that is due in this cycle. -/
def dueSteps (w : Work) : List Todo × Work :=
  let sched := w.instSteps ++ (List.range 4).flatMap w.schedSteps
  let windows := (w.windows.filter fun m => m.closeNs ≤ w.ns).map fun m => Instr.mergeWindowClose m.line
  let spares := (w.cores.filter fun c => match c.2.spareDue with | some t => decide (t ≤ w.ns) | none => false).map fun c => Instr.spareTakeover c.1
  let chans := ((List.range 8).filter fun j => match nth w.stackHeld j with | some t => decide (t ≤ w.ns) | none => false).map fun j => Instr.channelReplaced j
  let power := if w.powerDue ≤ w.ns then [Instr.powerCheck w.sensors.milliwatts w.sensors.dies.toList] else []
  let first := windows.map (todoFor 0) ++ w.queueSteps ++ w.collSteps ++ (sched ++ spares ++ chans ++ power).map (todoFor 0)
  let (reads, w) := w.readSteps
  let (blocks, w) := (List.range 8).foldl (fun (acc : List Todo × Work) j =>
    let (ts, v) := acc.2.blockSteps j
    (acc.1 ++ ts, v)) ([], w)
  (first ++ reads ++ blocks, w)

/-- The cycle's sweep: what happens of itself, then the steps that are due. -/
def sweep (w : Work) : Work :=
  let w : Work := { w with swept := true }
  let w := w.coreNumbers.foldl (fun w n =>
    let w := w.passMarkers n 64
    if (w.headOf n 7).any w.heldBack then w else w.unlessHeld fun w => w.arriveColl n) w
  let w := w.deliverAll.runCommands.unlessHeld Work.stopLost
  let w := (List.range 8).foldl (fun w j => w.startRead j) w.readAround
  let w := (List.range 4).foldl (fun w p => ((w.part p).courses.foldl (fun w c => w.unlessHeld fun w => (w.readLists p).settleOrphans p c.seq) w).unlessHeld fun w => w.swapStep p) w
  let w := w.unblockHeld
  let (ts, w) := w.dueSteps
  { w with pending := w.pending ++ ts.filter fun t => !w.postponed.contains t }

/-! ## Time and inputs -/

/-- An input arrives: a step of the table stands to be performed; a host writes its own memory (R177); the others act at once. Where the control-core
firmware has failed, only the management endpoint answers (R315). -/
def input (w : Work) : Input → Work
  | .event core ctx i => w.todo core ctx i
  | .hostWrite a bs => if isHost a && decide (a + bs.length ≤ 2 ^ 52) then w.write a bs else w
  | .remoteMember x =>
    let wait := match (w.part x.part).group? x.group with | some g => GroupEntry.timeout g | none => 0
    { w with coll := w.coll ++ [{ x with ns := w.ns, limit := w.ns + wait }] }
  | .collDelivered k => w.collDelivered k
  | .collFailed p g q code => w.collFailed p g q code
  | .msixWrite port v e => if w.booted then { w with msix := setNth w.msix (port % 2) (setNth (nth w.msix (port % 2)) v e) } else w
  | .ideSet port keys => if w.booted then { w with ide := setNth w.ide (port % 2) keys } else w
  | .measured x => w.measured x
  | .pldmRead x => w.pldmRead x

/-- Does a context have results to land of itself: it does not run, and landing is all it still does? -/
def landsAlone (w : Work) (c : Ctx) : Bool := !c.resumed && c.inst != 0 &&
  (c.inflight.any (fun f => decide (f.land ≤ w.cycle)) || (c.st == .blocked && c.block.isNone))

/-- Contexts whose results land at the start of the cycle (R55). -/
def landSteps (w : Work) : List Todo :=
  w.cores.flatMap fun (n, c) => (List.range 4).filterMap fun i =>
    if w.landsAlone (nth c.ctxs i) then some ⟨n, i, .resultLand⟩ else none

/-- The agents that have something to do in a cycle. -/
def agents (w : Work) : List Agent :=
  w.cores.flatMap fun (n, c) =>
    (if c.switching.isSome || (List.range 4).any (fun i => (nth c.ctxs i).st == .ready) then [Agent.core n] else []) ++
    (if c.intake.st == .running then [.intake n] else []) ++ (if c.outfall.st == .running then [.outfall n] else [])

/-- A reach that is not ready does not age (R266). -/
def keepWaits (w : Work) : Work :=
  (List.range 4).foldl (fun w p => w.unlessHeld fun w => (w.reachesOf p).foldl (fun w (c, k, r) =>
    if r.complete || w.ready p c k r then w else w.modReach p c k fun r => { r with waitNs := w.ns }) (w.readLists p)) w

/-- The inputs that arrive, each in its turn; one whose accesses are held is still to come (R18). -/
def arrive (w : Work) (due : List (Nat × Input)) : Work :=
  let (late, w) := due.foldl (fun (acc : List (Nat × Input) × Work) x =>
    match acc.2.tryHeld fun w => w.input x.2 with
    | (true, w) => (acc.1, w)
    | (false, w) => (acc.1 ++ [x], w)) ([], w)
  { w with inputs := late ++ w.inputs }

/-- The next cycle begins; a cycle lasts 1,000/f ns at f MHz (R320). -/
def advance (w : Work) : Work :=
  let old := w.ns
  let rest := w.nsRest + 1000
  let w : Work := { w with cycle := w.cycle + 1, ns := w.ns + rest / w.mhz, nsRest := rest % w.mhz, swept := false }
  let w := (w.monTick old).keepWaits
  let due := w.inputs.filter fun x => decide (x.1 ≤ w.cycle)
  let w : Work := { w with inputs := w.inputs.filter fun x => !decide (x.1 ≤ w.cycle) }
  let w := w.arrive due
  { w with pending := w.postponed ++ w.pending ++ w.landSteps, postponed := [], turn := w.agents }

/-- Without power only the outside acts: the first input of the list is taken. -/
def dark (w : Work) (t : Nat) (x : Input) : Work :=
  let w : Work := { w with inputs := w.inputs.tail, cycle := max w.cycle t }
  match x with
  | .event core ctx (.powerUp a b c) => w.todo core ctx (.powerUp a b c)
  | .hostWrite a bs => w.input (.hostWrite a bs)
  | _ => w

end Work

/-- An agent's turn. -/
def agentTurn (a : Agent) (s : State) : Host.Outcome State Fault Refusal :=
  match a with
  | .core n => coreTurn n s
  | .rill n i => if (s.work.ctx n i).st = .ready then present (lift (fun w => w.aim n i) s) else .next s
  | .intake n => helperTurn n false s
  | .outfall n => helperTurn n true s

/-- While stacks hold their traffic: a step that would read or write past L2 at one of them has no effect; `s` is the state without it (R18). -/
def holdBack (s : State) (o : Host.Outcome State Fault Refusal) : Host.Outcome State Fault Refusal :=
  if s.work.noneHeld then o
  else match o with
    | .next t => if t.work.heldNow then .next s else o
    | _ => o

/-- A step that stands to be performed. -/
def performTodo (t : Todo) (s : State) : Host.Outcome State Fault Refusal := exec t.instr (lift (fun w => w.aim t.core t.ctx) s)

/-- One step: without power an input, or the stop; a step that stands first; an agent's turn; the sweep; the next cycle. What traffic that is held
keeps back stands again: a bundle or a helper's instruction in place, another step from the next cycle on (R18; log entry 97). -/
def stepOnce (s : State) : Host.Outcome State Fault Refusal :=
  match s.pending with
  | t :: rest => holdBack { s with pending := rest, postponed := s.postponed ++ [t] } (performTodo t { s with pending := rest })
  | [] =>
    if !s.power then
      match s.inputs with
      | [] => .fault .poweredOff
      | x :: _ => .next (lift (fun w => w.dark x.1 x.2) s)
    else
      match s.turn with
      | a :: rest => holdBack { s with turn := rest } (agentTurn a { s with turn := rest })
      | [] => if s.swept then .next (lift Work.advance s) else .next (lift Work.sweep s)

/-- Contexts whose waits are over become ready (R28, R29). -/
def wake (s : State) : State := lift Work.wakeWaits s

end Sys2Proof.Machine
end

