-- ==== Sys2Proof/Machine/Step.lean ====
section
/-! DEFINITION. The step of the machine, and how the host places an instruction where the next step runs it. -/
namespace Sys2Proof.Machine

/-- One step of the machine (log entry 35): what stands next, then contexts whose waits are over become ready. -/
def step (s : State) : Host.Outcome State Fault Refusal := andThen (stepOnce s) fun s => .next (wake s)

/-! ## Placing an instruction (log entry 36) -/

/-- A running instance of one rill on core 0, in partition 0, that owns the array there. -/
def placedInst (id ctx : Nat) : Inst where
  id := id
  part := 0
  course := 0
  reach := 0
  number := 0
  iter := 0
  refire := false
  st := .running
  cores := [0]
  rills := [⟨0, ctx, false, 0, false⟩]
  counter := 1000000
  lastHeld := 0
  budgetSent := false
  grace := false
  published := false
  follow := false
  drained := false
  pins := []
  episodes := []
  owners := [some 0]
  streams := .replicate 16 .zero
  logs := [⟨[], []⟩]
  intake := true
  outfall := true
  placedNs := 0
  tokens := 0
  engClock := 0
  replays := []
  saved := none
  keep := none

/-- The 64 bytes of a packet with one literal bundle that has the word in the slot of its class, and whose END is set. -/
def placedPacket (x : BitVec 32) : Nat :=
  let slot : Nat := match tableClass x with
    | some .ctrl => 0 | some .mem => 3 | some .vec => 5 | some .mtx => 7 | some .scl => 8 | some .flow => 9 | _ => 1
  2 ^ 30 + 1 + 0xFFFF * 2 ^ 32 + x.toNat * 2 ^ (48 + 64 + 32 * slot)

/-- Byte address of the placed code. -/
def placedCode : Nat := 0x10000

/-- The machine with the instruction of a word where its next step fetches one: an ix or ordinary word in the intake store of core 0, any
other in a bundle of a supervisor rill that owns the array of core 0; the first 2 MiB of HBM are mapped at address 0. -/
def State.withFetchWord (s : State) (_nbits w : Nat) : State :=
  lift (fun v =>
    let x := BitVec.ofNat 32 w
    let id := v.instNext
    let cur := (v.core 0).cur % 4
    let v : Work := { v with
      power := true, booted := true, pending := [], swept := false, cycle := v.cycle + 1, instNext := id + 1
      insts := v.insts ++ [placedInst id cur]
      parts := setNth v.parts 0 { nth v.parts 0 with owner := some 0, live := true, stopped := false, swapped := false, desc := 1, feat := 0x3F } }
    let v := v.modCore 0 fun c => { c with
      enabled := true, spareDue := none, cur := cur, switching := none, stallUntil := 0
      tlb := ⟨0, 0, 2 ^ 21, 0x3F⟩ :: c.tlb }
    if isHelperWord x then
      let v := (v.write (privKey 0 false 0) (leBytes 4 w)).modHelper 0 false fun h => { h with st := .running, inst := id, pc := 0, waiting := none, found := none }
      { v with turn := [.intake 0] }
    else
      let v := (v.write placedCode (leBytes 64 (placedPacket x))).write 0x20000 (leBytes 8 0)
      let v := v.modCtx 0 cur fun c => { c with
        st := .ready, inst := id, rill := 0, pc := BitVec.ofNat 64 (placedCode + 4), kstat := 1, kid := BitVec.ofNat 64 (cur * 16)
        kframe := BitVec.ofNat 64 (0x20000 - 16384 * cur)
        loop := .none, inflight := [], held := [], micro := none, brPend := false, dsRem := 0, tgtFrom := none, stalled := false, resumed := false
        notBefore := 0, readyAt := v.cycle - 1, block := none, woken := none, hres := none, barrGo := [] }
      { v with turn := [.core 0] }) s

end Sys2Proof.Machine
end

