-- ==== Sys2Proof/Safety.lean ====
section
/-! DEFINITION. What counts as a safe run, in the terms that statements use. -/
namespace Sys2Proof.Machine

/-- The state invariant: memory is in its canonical form. -/
def State.Inv (s : State) : Prop := Memory.wf s.mem = true

/-- An outcome that goes on in a state of which `P` holds. -/
def Goes (o : Host.Outcome State Fault Refusal) (P : State → Prop) : Prop := ∃ t, o = .next t ∧ P t

/-- `n` steps go on: no fault, no refusal. -/
def SafeFor : Nat → State → Prop
  | 0, _ => True
  | n + 1, s => Goes (step s) (SafeFor n)

end Sys2Proof.Machine

namespace Sys2Proof.Claim
open Sys2Proof.Machine

/-- The state with one more result in flight in the context at work, and nothing else changed. -/
def addResult (s : State) (f : InFlight) : State := lift (fun w => w.modMe fun c => { c with inflight := c.inflight ++ [f] }) s

/-- A result of the slot at work that lands `lat` cycles after its bundle issued (R55). -/
def result (s : State) (k : ResKind) (reg : Nat) (v : Line) (lat : Nat) (fl : Flags := 0) : State :=
  addResult s ⟨s.focus.issueAt + lat, s.focus.seqNo, s.focus.slot, k, reg, fl, 0, v, false⟩

/-- A result to sD. Writes to s0 are discarded: only flags, if any, are left to land (R56). -/
def sResult (s : State) (d : BitVec 6) (v : Word) (lat : Nat) (fl : Flags := 0) : State :=
  if d ≠ 0#6 then result s .sReg d.toNat (v.setWidth 1024) lat fl
  else if fl = 0 then s else result s .flagsOnly 0 (v.setWidth 1024) lat fl

/-- A result to aD. -/
def aResult (s : State) (d : BitVec 4) (v : Word) (lat : Nat) : State := result s .aReg d.toNat (v.setWidth 1024) lat

/-- A result to pD. Writes to p0 are discarded (R56). -/
def pResult (s : State) (d : BitVec 4) (v : Bool) (lat : Nat) (fl : Flags := 0) : State :=
  let x : Line := if v then 1 else 0
  if d ≠ 0#4 then result s .pReg d.toNat x lat fl
  else if fl = 0 then s else result s .flagsOnly 0 x lat fl

/-- A result to vD. -/
def vResult (s : State) (d : BitVec 5) (v : Line) (lat : Nat) (fl : Flags := 0) : State := result s .vReg d.toNat v lat fl

/-- A result to qD. -/
def qResult (s : State) (d : BitVec 3) (v : BitVec 128) (lat : Nat) (fl : Flags := 0) : State :=
  result s .qReg d.toNat (v.setWidth 1024) lat fl

/-- The value of operand number `k` that a slot reads from sR: the register, or the frame's copy under replay (R54, R289). -/
abbrev sOp (s : State) (k : Nat) (r : BitVec 6) : Word := s.work.rdS k r
abbrev aOp (s : State) (k : Nat) (r : BitVec 4) : Word := s.work.rdA k r
abbrev pOp (s : State) (k : Nat) (r : BitVec 4) : Bool := s.work.rdP k r
abbrev vOp (s : State) (k : Nat) (r : BitVec 5) : Line := s.work.rdV k r

/-- The divider is busy for 20 cycles (R57). -/
def dividerBusy (s : State) : State := lift (fun w => w.modHere fun c => { c with divUntil := w.focus.issueAt + 20 }) s

/-- A change of the context at work, and nothing else. -/
def onMe (s : State) (f : Ctx → Ctx) : State := lift (fun w => w.modMe f) s

/-- A change of the focus alone: what the step carries along about the bundle at work. -/
def onFocus (s : State) (f : Focus → Focus) : State := lift (fun w => w.modFocus f) s

/-- A taken branch: its target pends behind two delay slots (R62). -/
def branched (s : State) (tgt : Word) : State :=
  onFocus (onMe s fun c => { c with brPend := true, brTgt := tgt, brFrom := c.pc, dsRem := 2 }) fun g => { g with branch := some tgt }

/-- A slot's trap: the entry that every class S cause shares (R283, R291), with the slot's operands for the frame. -/
def trapped (s : State) (i : Instr) (t : Trap) : State := lift (fun w => w.slotTrap t (Work.operands i s.work)) s

/-- What a slot leaves that tries its action, which does the work `w`, and traps: the free values it took are taken, and what it reached whose traffic is
held still holds it (R18). -/
def carried (s : State) (w : Work) : State :=
  { s with freeNext := w.freeNext, focus := { s.focus with heldRead := w.focus.heldRead, heldWrite := w.focus.heldWrite } }

/-- What a context's registers hold, apart from what is in flight and the random generator. -/
def regsOf (c : Ctx) : Ctx := { c with inflight := [], gen := 0 }

/-- The instruction completes with one result in flight, of kind `k` to register `reg`, landing `lat` cycles after issue, whose value and flags meet
`P`; it changes no register, no memory and no other context. -/
def produces (s : State) (i : Instr) (k : ResKind) (reg lat : Nat) (P : Line → Flags → Prop) : Prop :=
  ∃ t f, exec i s = .next t ∧ t.work.me.inflight.getLast? = some f ∧ f.kind = k ∧ f.reg = reg ∧ f.land = s.focus.issueAt + lat ∧
    regsOf t.work.me = regsOf s.work.me ∧ t.mem = s.mem ∧ t.insts = s.insts ∧ t.handles = s.handles ∧
    (∀ n c, n ≠ s.focus.core ∨ c % 4 ≠ s.focus.ctx % 4 → t.work.ctx n c = s.work.ctx n c) ∧ P f.value f.flags

/-- Is element `j` of `n` bytes active under a mask operand that is read as operand number `k` (R72, R466)? -/
def isActive (s : State) (k : Nat) (e : BitVec 1) (q : BitVec 3) (n j : Nat) : Bool := e == 0#1 || (s.work.rdQ k q).getLsbD (n * j)

/-- The state that a step leaves which began in `s` and has done the work `w`. -/
def left (s : State) (w : Work) : State := { toChip := w.toChip, mem := applyLog s.mem w.log }

end Sys2Proof.Claim
end

