-- ==== Sys2Proof/Certificates/Slice0/Obligations.lean ====
section
/-! DEFINITION. The statements for the provers. The terms they are written in stand in Safety.lean. -/

open Sys2Proof Sys2Proof.Machine Sys2Proof.Claim

/-! ## Encodings -/

/-- Words written out from the encodings of the spec, one or more for each class, decode to what they stand for. -/
def Obligations.DecodeSampleWords : Prop :=
  -- add s3, s1, s2; xor s5, s5, -1 (R481); cmp.le p2, s9, 37 (R389); sub s42, s42, s44 (R441); min s44, s42, 32 (R441)
  decodeSlot .int2 (0b00#2 ++ 0x01#7 ++ 3#6 ++ 1#6 ++ 0#1 ++ 2#6 ++ 0#4) none = some (.add 3 1 2) ∧
  decodeSlot .int1 0x050A2FFF#32 none = some (.xorI 5 5 (.short (-1))) ∧
  decodeSlot .int1 0x0B644C25#32 none = some (.cmpI 3 2 9 (.short 37)) ∧
  decodeSlot .int2 0x015552C0#32 none = some (.sub 42 42 44) ∧
  decodeSlot .int2 0x09D95420#32 none = some (.minI 44 42 (.short 32)) ∧
  -- movi s10, 0x2000, and the long movi.h s22, 0x0004_0004 (R442; its printed sum is off by 0x10_0000, log entry 38)
  decodeSlot .int1 0x0C942000#32 none = some (.movi 10 0 (.short 0x2000)) ∧
  decodeSlot .int1 0x0CAD0000#32 (some 0x00040004#32) = some (.movi 22 1 (.long 0x00040004)) ∧
  -- qfence 0x0003 (R451); END; fence.acq.pkg and the refusal of its reserved kind (R412)
  decodeSlot .ctrl 0x10800003#32 none = some (.qfence 3) ∧
  decodeSlot .ctrl (0b00#2 ++ 0x10#7 ++ 0#23) none = some .endRill ∧
  decodeSlot .ctrl (0b00#2 ++ 0x20#7 ++ 0#2 ++ 3#3 ++ 0#18) none = some (.fence 0 3) ∧
  decodeSlot .ctrl (0b00#2 ++ 0x20#7 ++ 3#2 ++ 3#3 ++ 0#18) none = none ∧
  -- ld.8.t s7, (a2 + 8·3), format M (R90, R426)
  decodeSlot .mem (0b01#2 ++ 0x01#7 ++ 7#6 ++ 2#4 ++ 0#2 ++ 0#2 ++ 3#2 ++ 0#1 ++ 3#6) none = some (.ld 7 2 0 0 3 0 (.short 3)) ∧
  -- vadd v1, v2, v3 on u32 lanes: type code 5 (R466)
  decodeSlot .vec (0b00#2 ++ 0x01#7 ++ 1#5 ++ 2#5 ++ 3#5 ++ 0#1 ++ 0#3 ++ 5#4) none = some (.vadd 1 2 3 0 0 5) ∧
  -- mzero by a register row; scl to SLA; dft.inv.g a1, a6, s9 (R404)
  decodeSlot .mtx (0b00#2 ++ 0x06#7 ++ 1#1 ++ 9#10 ++ 63#6 ++ 0#6) none = some (.mzero 1 9 63) ∧
  decodeSlot .scl (0b00#2 ++ 0x01#7 ++ 0#1 ++ 4#5 ++ 0#17) none = some (.sclA 4) ∧
  decodeSlot .flow 0x04E2C480#32 none = some (.dftInv 1 1 6 9) ∧
  -- ix.cpy (R99), ECALL, and an opcode that no table names (R92)
  decodeHelper (0#7 ++ 3#5 ++ 2#5 ++ 0#3 ++ 1#5 ++ 0x0B#7) = .ixCpy 3 2 1 ∧
  decodeHelper 0x00000073#32 = .ecall ∧
  decodeSlot .flow (0b00#2 ++ 0x7F#7 ++ 0#23) none = none

/-- Decoding the words of a well-formed CTRL or INT instruction gives it back, at every guard. -/
def Obligations.RoundTripCtrlInt : Prop :=
  ∀ (g : BitVec 2) (i : Instr) (c : SlotClass) (w : BitVec 32) (x : Option (BitVec 32)),
    i.wellFormed = true → encode g i = some (.slot c w x) → c = .ctrl ∨ c = .int1 ∨ c = .int2 → decodeSlot c w x = some i

/-- Decoding the words of a well-formed MEM or VEC instruction gives it back, at every guard. -/
def Obligations.RoundTripMemVec : Prop :=
  ∀ (g : BitVec 2) (i : Instr) (c : SlotClass) (w : BitVec 32) (x : Option (BitVec 32)),
    i.wellFormed = true → encode g i = some (.slot c w x) → c = .mem ∨ c = .vec → decodeSlot c w x = some i

/-- Decoding the words of a well-formed MTX, SCL or FLOW instruction gives it back at every guard, and so does decoding the word of an
instruction of the helper cores. -/
def Obligations.RoundTripEngines : Prop :=
  (∀ (g : BitVec 2) (i : Instr) (c : SlotClass) (w : BitVec 32) (x : Option (BitVec 32)),
    i.wellFormed = true → encode g i = some (.slot c w x) → c = .mtx ∨ c = .scl ∨ c = .flow → decodeSlot c w x = some i) ∧
  ∀ (g : BitVec 2) (i : Instr) (w : BitVec 32), encode g i = some (.ix w) → decodeHelper w = i

/-! ## The integer slots -/

/-- R71, R75, R289: a slot reads its context's registers, s0 as zero and p0 as true; a replayed slot reads the frame's operand instead. A stream register
is read advanced by the uses that lower slots of the bundle have made: COL steps to the next unit, ROW at the end of a row. -/
def Obligations.OperandReads : Prop :=
  ∀ (s : State) (k : Nat),
    let advance (layout p : Word) : Word :=
      let len := if (field layout 36 12).toNat = 0 then 4096 else (field layout 36 12).toNat
      if (field p 0 32).toNat + 1 = len then (field p 32 32 + 1) ++ 0#32 else field p 32 32 ++ (field p 0 32 + 1)
    let used (r : BitVec 4) (g : Stream) : Stream :=
      { g with pos := Nat.repeat (advance g.layout) (Tab.get s.focus.uses r.toNat 0) g.pos }
    (s.focus.replay = none →
      (∀ r : BitVec 6, sOp s k r = if r = 0#6 then 0 else nth s.work.me.s r.toNat) ∧
      (∀ r : BitVec 4, aOp s k r = nth s.work.me.a r.toNat) ∧
      (∀ r : BitVec 4, pOp s k r = if r = 0#4 then true else s.work.me.p.getLsbD r.toNat) ∧
      (∀ r : BitVec 5, vOp s k r = nth s.work.me.v r.toNat) ∧
      (∀ r : BitVec 3, s.work.rdQ k r = nth s.work.me.q r.toNat) ∧
      (∀ r : BitVec 4, s.work.rdG k r = used r (nth s.work.me.g r.toNat))) ∧
    ∀ (ops : List Line) (l : Line), s.focus.replay = some ops → ops[k]? = some l →
      (∀ r : BitVec 6, sOp s k r = field l 0 64) ∧ (∀ r : BitVec 4, aOp s k r = field l 0 64) ∧
      (∀ r : BitVec 4, pOp s k r = l.getLsbD 0) ∧ (∀ r : BitVec 5, vOp s k r = l) ∧
      (∀ r : BitVec 3, s.work.rdQ k r = field l 0 128) ∧
      ∀ r : BitVec 4, s.work.rdG k r = used r ⟨field l 0 64, field l 64 64, field l 128 64⟩

/-- R380, R441, R481: sums, differences, logic and copies. The whole next state: one result in flight for the next cycle, nothing else. -/
def Obligations.IntegerArithmetic : Prop :=
  ∀ (s : State) (d a b : BitVec 6) (m : XImm),
    let x := sOp s 0 a
    let y := sOp s 1 b
    exec (.add d a b) s = .next (sResult s d (x + y) 1) ∧ exec (.addI d a m) s = .next (sResult s d (x + m.value) 1) ∧
    exec (.sub d a b) s = .next (sResult s d (x - y) 1) ∧ exec (.subI d a m) s = .next (sResult s d (x - m.value) 1) ∧
    exec (.and d a b) s = .next (sResult s d (x &&& y) 1) ∧ exec (.andI d a m) s = .next (sResult s d (x &&& m.value) 1) ∧
    exec (.andn d a b) s = .next (sResult s d (x &&& ~~~y) 1) ∧ exec (.andnI d a m) s = .next (sResult s d (x &&& ~~~m.value) 1) ∧
    exec (.or d a b) s = .next (sResult s d (x ||| y) 1) ∧ exec (.orI d a m) s = .next (sResult s d (x ||| m.value) 1) ∧
    exec (.xor d a b) s = .next (sResult s d (x ^^^ y) 1) ∧ exec (.xorI d a m) s = .next (sResult s d (x ^^^ m.value) 1) ∧
    exec (.mov d a) s = .next (sResult s d x 1) ∧
    exec (.abs d a) s = .next (sResult s d (BitVec.ofInt 64 |x.toInt|) 1)

/-- R442, R94, R380: address registers and constants. MOVI with H = 1 keeps bits 31:0 of sD. -/
def Obligations.AddressesConstants : Prop :=
  ∀ (s : State) (d : BitVec 6) (e a : BitVec 4) (b : BitVec 6) (m : XImm) (c : Imm 16),
    exec (.adda e a b) s = .next (aResult s e (aOp s 0 a + sOp s 1 b) 1) ∧
    exec (.addaI e a m) s = .next (aResult s e (aOp s 0 a + m.value) 1) ∧
    exec (.movaToA e b) s = .next (aResult s e (sOp s 0 b) 1) ∧
    exec (.movaToS d a) s = .next (sResult s d (aOp s 0 a) 1) ∧
    exec (.movi d 0#1 c) s = .next (sResult s d c.value 1) ∧
    ∃ v : Word, exec (.movi d 1#1 c) s = .next (sResult s d v 1) ∧
      v.toNat = c.value.toNat % 2 ^ 32 * 2 ^ 32 + (sOp s 0 d).toNat % 2 ^ 32

/-- R380, R441: BFX and BFI bit by bit. The field starts at bits 5:0 of the second operand and has the length in its bits 13:8, 0 standing for 64.
Bit counts, and sign extension from n bits. -/
def Obligations.BitFields : Prop :=
  (∀ (s : State) (d a b : BitVec 6),
    let x := sOp s 0 a
    let y := sOp s 1 b
    let pos := y.toNat % 64
    let len := if y.toNat / 256 % 64 = 0 then 64 else y.toNat / 256 % 64
    (∃ v : Word, exec (.bfx d a b) s = .next (sResult s d v 1) ∧
      ∀ i, i < 64 → v.getLsbD i = (decide (i < len) && x.getLsbD (pos + i))) ∧
    ∃ v : Word, exec (.bfi d a b) s = .next (sResult s d v 1) ∧
      ∀ i, i < 64 → v.getLsbD i = if pos ≤ i ∧ i < pos + len then x.getLsbD (i - pos) else (sOp s 2 d).getLsbD i) ∧
  ∀ (s : State) (d a : BitVec 6),
    let x := sOp s 0 a
    (∃ n : Nat, exec (.clz d a) s = .next (sResult s d (BitVec.ofNat 64 n) 1) ∧
      n ≤ 64 ∧ x.toNat < 2 ^ (64 - n) ∧ (n < 64 → 2 ^ (63 - n) ≤ x.toNat)) ∧
    (∃ n : Nat, exec (.ctz d a) s = .next (sResult s d (BitVec.ofNat 64 n) 1) ∧
      n ≤ 64 ∧ (∀ i, i < n → x.getLsbD i = false) ∧ (n < 64 → x.getLsbD n = true)) ∧
    exec (.popc d a) s = .next (sResult s d (BitVec.ofNat 64 ((List.range 64).countP fun i => x.getLsbD i)) 1) ∧
    ∀ n : BitVec 7, 1 ≤ n.toNat → n.toNat ≤ 64 →
      exec (.sext d a n) s = .next (sResult s d ((x.setWidth n.toNat).signExtend 64) 1)

/-- R441: shifts by bits 5:0 of the second operand, as what they do to the numbers, and rotation bit by bit. The result lands in 1 cycle. -/
def Obligations.Shifts : Prop :=
  ∀ (s : State) (d a b : BitVec 6) (m : BitVec 10),
    let x := sOp s 0 a
    (∀ (i : Instr) (y : Word), (i = .shl d a b ∧ y = sOp s 1 b) ∨ (i = .shlI d a m ∧ y = m.signExtend 64) →
      ∃ v : Word, exec i s = .next (sResult s d v 1) ∧ v.toNat = x.toNat * 2 ^ (y.toNat % 64) % 2 ^ 64) ∧
    (∀ (i : Instr) (y : Word), (i = .shr d a b ∧ y = sOp s 1 b) ∨ (i = .shrI d a m ∧ y = m.signExtend 64) →
      ∃ v : Word, exec i s = .next (sResult s d v 1) ∧ v.toNat = x.toNat / 2 ^ (y.toNat % 64)) ∧
    (∀ (i : Instr) (y : Word), (i = .sra d a b ∧ y = sOp s 1 b) ∨ (i = .sraI d a m ∧ y = m.signExtend 64) →
      ∃ v : Word, exec i s = .next (sResult s d v 1) ∧ v.toInt = x.toInt / 2 ^ (y.toNat % 64)) ∧
    ∀ (i : Instr) (y : Word), (i = .rol d a b ∧ y = sOp s 1 b) ∨ (i = .rolI d a m ∧ y = m.signExtend 64) →
      ∃ v : Word, exec i s = .next (sResult s d v 1) ∧ ∀ k, k < 64 → v.getLsbD ((k + y.toNat) % 64) = x.getLsbD k

/-- R441: products. MULH gives bits 127:64 of the exact product; the low half needs no sign. They land in 3 cycles. -/
def Obligations.Products : Prop :=
  ∀ (s : State) (d a b : BitVec 6) (m : XImm),
    let x := sOp s 0 a
    exec (.mul d a b) s = .next (sResult s d (x * sOp s 1 b) 3) ∧ exec (.mulI d a m) s = .next (sResult s d (x * m.value) 3) ∧
    exec (.mad d a b) s = .next (sResult s d (sOp s 2 d + x * sOp s 1 b) 3) ∧
    exec (.madI d a m) s = .next (sResult s d (sOp s 1 d + x * m.value) 3) ∧
    ∀ (i : Instr) (y : Word) (u : Bool), (i = .mulh d a b (BitVec.ofBool u) ∧ y = sOp s 1 b) ∨ (i = .mulhI d a m ∧ y = m.value ∧ u = m.isU) →
      ∃ v : Word, exec i s = .next (sResult s d v 3) ∧
        (u = true → v.toNat = x.toNat * y.toNat / 2 ^ 64) ∧ (u = false → v.toInt = x.toInt * y.toInt / 2 ^ 64)

/-- R406, R441: quotients, truncated toward zero, all ones for a zero divisor, -2^63 on signed overflow; remainders, which have the dividend's sign
and are the dividend for a zero divisor. They land in 20 cycles, for which the divider is busy (R57); no flag is set and nothing else changes. -/
def Obligations.Divisions : Prop :=
  ∀ (s : State) (d a b : BitVec 6) (m : XImm) (i j : Instr) (y : Word) (u : Bool),
    let x := sOp s 0 a
    (i = .div d a b (BitVec.ofBool u) ∧ j = .rem d a b (BitVec.ofBool u) ∧ y = sOp s 1 b) ∨
      (i = .divI d a m ∧ j = .remI d a m ∧ y = m.value ∧ u = m.isU) →
    (∃ v : Word, exec i s = .next (dividerBusy (sResult s d v 20)) ∧
      (y = 0 → v = 0xFFFFFFFFFFFFFFFF#64) ∧
      (u = false → x = 0x8000000000000000#64 → y = 0xFFFFFFFFFFFFFFFF#64 → v = 0x8000000000000000#64) ∧
      (u = false → y ≠ 0 → ¬(x = 0x8000000000000000#64 ∧ y = 0xFFFFFFFFFFFFFFFF#64) → v.toInt = Int.tdiv x.toInt y.toInt) ∧
      (u = true → y ≠ 0 → v.toNat = x.toNat / y.toNat)) ∧
    ∃ v : Word, exec j s = .next (dividerBusy (sResult s d v 20)) ∧
      (y = 0 → v = x) ∧
      (u = false → y ≠ 0 → v.toInt = Int.tmod x.toInt y.toInt) ∧
      (u = true → y ≠ 0 → v.toNat = x.toNat % y.toNat)

/-- R389, R441, R442: compares, minima and maxima, selection, predicate logic. -/
def Obligations.CompareSelect : Prop :=
  ∀ (s : State) (d a b : BitVec 6) (p q f : BitVec 4) (m : XImm) (k : BitVec 6),
    let x := sOp s 0 a
    -- cmp: eq, ne, lt, le; the immediate compares as it is signed or U
    (∀ (u : Bool) (y : Word) (i : BitVec 2 → Instr),
      (i = fun c => .cmp c p a b (BitVec.ofBool u)) ∧ y = sOp s 1 b ∨ (i = fun c => .cmpI c p a m) ∧ y = m.value ∧ u = m.isU →
      exec (i 0) s = .next (pResult s p (decide (x = y)) 1) ∧ exec (i 1) s = .next (pResult s p (decide (x ≠ y)) 1) ∧
      exec (i 2) s = .next (pResult s p (if u then decide (x.toNat < y.toNat) else decide (x.toInt < y.toInt)) 1) ∧
      exec (i 3) s = .next (pResult s p (if u then decide (x.toNat ≤ y.toNat) else decide (x.toInt ≤ y.toInt)) 1)) ∧
    (∀ (u : Bool) (y : Word) (lo hi : Instr),
      (lo = .min d a b (BitVec.ofBool u) ∧ hi = .max d a b (BitVec.ofBool u) ∧ y = sOp s 1 b) ∨
        (lo = .minI d a m ∧ hi = .maxI d a m ∧ y = m.value ∧ u = m.isU) →
      ∃ v w : Word, exec lo s = .next (sResult s d v 1) ∧ exec hi s = .next (sResult s d w 1) ∧
        (u = true → v.toNat = min x.toNat y.toNat ∧ w.toNat = max x.toNat y.toNat) ∧
        (u = false → v.toInt = min x.toInt y.toInt ∧ w.toInt = max x.toInt y.toInt)) ∧
    exec (.sel d a b f) s = .next (sResult s d (if pOp s 2 f then x else sOp s 1 b) 1) ∧
    exec (.selI d a k f) s = .next (sResult s d (if pOp s 1 f then x else k.signExtend 64) 1) ∧
    exec (.plog p q f 0#2) s = .next (pResult s p (pOp s 0 q && pOp s 1 f) 1) ∧
    exec (.plog p q f 1#2) s = .next (pResult s p (pOp s 0 q || pOp s 1 f) 1) ∧
    exec (.plog p q f 2#2) s = .next (pResult s p (pOp s 0 q ^^ pOp s 1 f) 1) ∧
    exec (.plog p q f 3#2) s = .next (pResult s p (pOp s 0 q && !pOp s 1 f) 1)

/-! ## Results in flight and landing -/

/-- R55, R56, R60, R75 to R77, R480: landing. A due result of each kind of register replaces its register (a predicate its bit, a stream's position or
base its part of the stream), one of the exact accumulator acts on it (ExactAccumulator says how), its flags are ORed into KSTAT, KTSOA takes its address when TSOOR goes from 0 to 1, and nothing else of the context
changes; one that is not due stays in flight. Memory and every other context are as they were. A context that has been resumed and not yet presented
keeps what is in flight; in a blocked one results land as in a running one; one whose rill has ended is idle with its last fixed-latency result
(R39). Of two results that land in one scalar register, the one that lands later stays; in one cycle the later bundle's, within a bundle the higher
slot's. -/
def Obligations.ResultLanding : Prop :=
  (∀ (s : State) (f : InFlight),
    let c := s.work.me
    c.inflight = [f] → c.resumed = false → c.st ≠ .blocked ∨ c.block ≠ none ∨ c.inst = 0 →
    ∃ t, exec .resultLand s = .next t ∧ t.mem = s.mem ∧
      (∀ n k, n ≠ s.focus.core ∨ k % 4 ≠ s.focus.ctx % 4 → t.work.ctx n k = s.work.ctx n k) ∧
      (s.cycle < f.land → t.work.me = c) ∧
      (f.land ≤ s.cycle →
        let k := c.kstat ||| (f.flags.setWidth 64 <<< 8)
        let o := if f.flags.getLsbD 0 && !c.kstat.getLsbD 8 then f.xtra else c.ktsoa
        (f.kind = .sReg → t.work.me = { c with inflight := [], kstat := k, ktsoa := o, s := setNth c.s f.reg (field f.value 0 64) }) ∧
        (f.kind = .aReg → t.work.me = { c with inflight := [], kstat := k, ktsoa := o, a := setNth c.a f.reg (field f.value 0 64) }) ∧
        (f.kind = .vReg → t.work.me = { c with inflight := [], kstat := k, ktsoa := o, v := setNth c.v f.reg f.value }) ∧
        (f.kind = .qReg → t.work.me = { c with inflight := [], kstat := k, ktsoa := o, q := setNth c.q f.reg (field f.value 0 128) }) ∧
        let stream (g : Stream) : Ctx := { c with inflight := [], kstat := k, ktsoa := o, g := setNth c.g f.reg g }
        (f.kind = .gReg → t.work.me = stream ⟨field f.value 0 64, field f.value 64 64, field f.value 128 64⟩) ∧
        (f.kind = .gPos → t.work.me = stream { nth c.g f.reg with pos := field f.value 0 64 }) ∧
        (f.kind = .gBase → t.work.me = stream { nth c.g f.reg with base := (nth c.g f.reg).base + field f.value 0 64 }) ∧
        (f.kind = .flagsOnly → t.work.me = { c with inflight := [], kstat := k, ktsoa := o }) ∧
        (f.kind = .xaccOp → let z := c.xaccLand f.xtra (field f.value 0 64) (field f.value 64 64)
          t.work.me = { c with inflight := [], kstat := k ||| (z.2.setWidth 64 <<< 8), ktsoa := o, xacc := z.1.xacc, xclass := z.1.xclass }) ∧
        (f.kind = .pReg → ∃ p, t.work.me = { c with inflight := [], kstat := k, ktsoa := o, p := p } ∧
          ∀ j, j < 16 → p.getLsbD j = if j = f.reg then f.value.getLsbD 0 else c.p.getLsbD j))) ∧
  (∀ s : State, s.work.me.resumed = true → exec .resultLand s = .next s) ∧
  (∀ (s : State) (f : InFlight),
    let c := s.work.me
    c.inflight = [f] → c.resumed = false → c.st = .blocked → c.block = none → c.inst ≠ 0 →
    ∃ t, exec .resultLand s = .next t ∧ t.mem = s.mem ∧
      (f.land ≤ s.cycle ∨ f.interlocked = true → t.work.me.st = .idle ∧ t.work.me.inst = 0 ∧ t.work.me.inflight = []) ∧
      (s.cycle < f.land → t.work.me.s = c.s) ∧
      (s.cycle < f.land → f.interlocked = false → t.work.me = c) ∧
      (f.land ≤ s.cycle → f.kind = .sReg → t.work.me.s = setNth c.s f.reg (field f.value 0 64))) ∧
  ∀ (s : State) (f g : InFlight),
    let c := s.work.me
    c.inflight = [f, g] → c.resumed = false → c.st ≠ .blocked ∨ c.block ≠ none ∨ c.inst = 0 → f.flags = 0 → g.flags = 0 →
    f.kind = .sReg → g.kind = .sReg → f.reg = g.reg → f.land ≤ s.cycle → g.land ≤ s.cycle →
    f.seqNo < g.seqNo ∨ f.seqNo = g.seqNo ∧ f.slot < g.slot →
    ∃ t, exec .resultLand s = .next t ∧
      nth t.work.me.s f.reg = if g.land < f.land then field f.value 0 64 else field g.value 0 64

/-! ## Branches -/

/-- R62, R386: a taken branch leaves its target pending behind two delay slots. The relative target is the code word's byte address plus
twice the signed offset, modulo 2^56; BRX and RET take a register's value, run position included. A call branches so too, and puts the address of
the bundle after the second delay slot into s62, landing one cycle after issue (FetchReadsCodeWords says which bundle that is). After slot s0's taken branch
one in slot s1 leaves the flag BR2 in flight and nothing else; that it lands one cycle after issue is the model's choice (log entry 39). -/
def Obligations.Branches : Prop :=
  (∀ (s : State) (o : Imm 23) (a : BitVec 6), s.focus.branch = none →
    (∀ i : Instr, i = .br o ∨ i = .brS1 o →
      ∃ tgt : Word, exec i s = .next (branched s tgt) ∧
        (tgt.toNat : Int) = ((s.work.me.pc.toNat : Int) + 2 * o.value.toInt) % 2 ^ 56) ∧
    exec (.brx a) s = .next (branched s (sOp s 0 a)) ∧ exec (.brxS1 a) s = .next (branched s (sOp s 0 a)) ∧
    exec .ret s = .next (branched s (sOp s 0 62))) ∧
  (∀ (s : State) (o : Imm 23) (a : BitVec 6) (b : Word), s.focus.branch = some b →
    ∀ i : Instr, i = .brS1 o ∨ i = .brxS1 a ∨ i = .callS1 o ∨ i = .callxS1 a → exec i s = .next (result s .flagsOnly 0 0 1 0x02)) ∧
  ∀ (s : State) (w : Work) (o : Imm 23) (a : BitVec 6) (link : Word), s.focus.branch = none →
    s.work.addrAfter s.work.me.pc 3 = (link, w) →
    let s' := left s w
    (∀ i : Instr, i = .call o ∨ i = .callS1 o →
      ∃ tgt : Word, exec i s = .next (branched (sResult s' 62 (link &&& ~~~1#64) 1) tgt) ∧
        (tgt.toNat : Int) = ((s.work.me.pc.toNat : Int) + 2 * o.value.toInt) % 2 ^ 56) ∧
    exec (.callx a) s = .next (branched (sResult s' 62 (link &&& ~~~1#64) 1) (sOp s 0 a)) ∧
    exec (.callxS1 a) s = .next (branched (sResult s' 62 (link &&& ~~~1#64) 1) (sOp s 0 a))

/-- R63: branches in slots s0 and s1 of one bundle. Both taken and KSTAT.CHK = 0: slot s0's is taken; slot s1's has no effect, a call in it writing no
link, but that KSTAT.BR2 comes to be set, and the bundle does not take DBLBR. With KSTAT.CHK = 1 the bundle takes a trap before issue: DBLBR, where no check
that comes before it applies. Exactly one taken, in either slot: that branch is taken. -/
def Obligations.SecondBranch : Prop :=
  let first (i : Instr) : Prop := (∃ o, i = .br o ∨ i = .call o) ∨ (∃ a, i = .brx a ∨ i = .callx a) ∨ i = .ret
  let second (i : Instr) : Prop := (∃ o, i = .brS1 o ∨ i = .callS1 o) ∨ ∃ a, i = .brxS1 a ∨ i = .callxS1 a
  (∀ (s : State) (i j : Instr), first i → second j → s.focus.branch = none →
    ∃ t u f tgt, exec i s = .next t ∧ exec j t = .next u ∧ t.focus.branch = some tgt ∧ t.work.me.brPend = true ∧ t.work.me.brTgt = tgt ∧
      u = addResult t f ∧ f.kind = .flagsOnly ∧ f.flags = 0x02 ∧
      -- it is set once what is in flight has landed
      (s.work.me.resumed = false → s.work.me.st ≠ .blocked → (∀ g ∈ s.work.me.inflight, g.kind ≠ .sysReg) → ∀ now, f.land ≤ now →
        ∃ z, exec .resultLand (lift (fun w => { w with cycle := now }) u) = .next z ∧ z.work.me.kstat.getLsbD 9 = true)) ∧
  (∀ (w : Work) (b : Bundle), let vs := w.slotViews b
    (∃ x ∈ vs, ∃ y ∈ vs, x.n = 0 ∧ y.n = 1 ∧ (∃ i, x.instr = some i ∧ first i) ∧ ∃ j, y.instr = some j ∧ second j) →
    (w.focus.chk = false → ∀ t, w.issueCheck b vs = some t → t.trap.code ≠ 0x07) ∧
    (w.focus.chk = true → (∃ t, w.issueCheck b vs = some t) ∧
      (w.illBundle b = false → (∀ v ∈ vs, w.slotIll vs v = false) → (w.me.brPend = true → ∀ v ∈ vs, Work.noDelay v = false) →
        (∀ v ∈ vs, ∀ i, v.instr = some i → w.loopSeqBad i = false ∧ w.stallShort b v i = none ∧
          w.wrClash ((vs.filter fun u => decide (u.n < v.n)).filterMap (·.instr)) i = none) →
        w.issueCheck b vs = some ⟨0, { code := 0x07 }⟩))) ∧
  ∀ (s : State) (i : Instr), first i ∨ second i → s.focus.branch = none →
    ∃ t tgt, exec i s = .next t ∧ t.focus.branch = some tgt ∧ t.work.me.brPend = true ∧ t.work.me.brTgt = tgt ∧ t.work.me.dsRem = 2

/-- R62: what follows a bundle without a branch of its own. With a branch pending its delay slots are counted, and after the second of them the
target is next; else the code word after it is. Sequencer idle, no trap. -/
def Obligations.DelaySlots : Prop :=
  ∀ (s : State) (next : Word),
    let c := s.work.me
    let t := lift (fun w => w.finishBundle c.inst false) s
    s.focus.ending = false → s.focus.branch = none → s.focus.redirect = none → s.focus.trap = none →
    s.focus.nextAddr = some next → c.loop.levels = [] →
    (c.brPend = false → t.work.me.pc = next ∧ t.work.me.brPend = false) ∧
    (c.brPend = true → c.dsRem = 2 → t.work.me.pc = next ∧ t.work.me.brPend = true ∧ t.work.me.dsRem = 1 ∧ t.work.me.brTgt = c.brTgt) ∧
    (c.brPend = true → c.dsRem = 1 → t.work.me.pc = c.brTgt ∧ t.work.me.brPend = false)

/-! ## Loops -/

/-- R66, R67, R433, R292: LOOP and LOOPM. Both complete in every state. The descriptor is the entry of the core's dictionary or, while a handler runs
(BUSY is 1), of the handler's loop table, whose line is read. With one level the body begins at the next bundle; the level stands at its first iteration,
with N passes, or N + S - 1 for a modulo level; with N = 0 the body is skipped whole, and the bundle behind it is next. The trip count is the descriptor's or
a register's low half. With nested levels that all have iterations each level has its record, and those whose range begins at offset 0 stand at their first
iteration; with none of level 0 the body is skipped whole. An inner level at offset 0 without iterations is skipped: the bundle behind its range is next,
where its range is the whole body the one behind that, each of the outer level's iterations having its increments. Nothing else changes. -/
def Obligations.LoopSetup : Prop :=
  (∀ (s : State) (l c : BitVec 6), (∃ t, exec (.loop l c) s = .next t) ∧ ∃ t, exec (.loopm l c) s = .next t) ∧
  -- descriptors
  (∀ (w : Work) (k : Nat),
    let p := w.part w.myPart
    let pa := 128 * p.hltab + 128 * k
    (∀ d, w.here.dict = some d → w.loopDesc false k = d.loops[k]?) ∧ (w.here.dict = none → w.loopDesc false k = none) ∧
    (p.hlcnt ≤ k → w.loopDesc true k = none) ∧
    (k < p.hlcnt → (∀ c ∈ w.cores, c.2.upd = []) →
      (w.badUnit pa 128 = none → w.loopDesc true k = some (some (lineOf (w.bytes pa 128)))) ∧
      ∀ u, w.badUnit pa 128 = some u → w.loopDesc true k = some none)) ∧
  ∀ (s : State) (v0 w1 : Work) (h : Bool) (l c : BitVec 6) (d : BitVec 1024) (start : Word) (i : Instr), i = .loop l c ∨ i = .loopm l c →
    -- h: a handler runs
    s.work.frameBusy = (some h, v0) → v0.loopDesc h l.toNat = some (some d) →
    let w0 := v0.readLoopLine h l.toNat
    w0.addrAfter w0.me.pc 1 = (start, w1) →
    let n := descByte d 0
    let B := descByte d 1
    let count (j : Nat) : Nat :=
      if descByte d (22 + 16 * j) % 2 = 1 then (field (w1.me.sReg (c + BitVec.ofNat 6 j)) 0 32).toNat else (descWord d (16 + 16 * j)).toNat
    let F (j : Nat) : Nat := descByte d (20 + 16 * j)
    let E (j : Nat) : Nat := descByte d (21 + 16 * j)
    let md (j : Nat) : Bool := descByte d 2 % 2 == 1 && j + 1 == n
    -- the sequencer that the instruction leaves, and the bundle that is next
    let leaves (w : Work) (q : LoopSeq) (a : Word) : Prop :=
      exec i s = .next (left s ((w.modMe fun c => { c with loop := q }).modFocus fun g => { g with redirect := some a }))
    let behind (w : Work) (a : Word) (v : Work) : Prop := w.addrAfter start B = (a, v)
    1 ≤ n → n ≤ 6 → F 0 = 0 → E 0 + 1 = B → (descByte d 2 % 2 = 1 → 1 ≤ descByte d 4) →
    -- one level
    (n = 1 →
      (0 < count 0 → ∃ x : LoopLevel, leaves w1 ⟨start, 0, B, [x], []⟩ start ∧
        x.left = (if descByte d 2 % 2 = 1 then count 0 + descByte d 4 - 1 else count 0) ∧ x.pass = 0 ∧ x.total = count 0 ∧ x.first = 0 ∧ x.last = E 0 ∧
        x.modulo = md 0 ∧ x.amt0 = descWord d 24 ∧ x.amt1 = descWord d 28) ∧
      (count 0 = 0 → ∀ a v, behind w1 a v → leaves v .none a)) ∧
    -- any number of levels
    (count 0 = 0 → ∀ a v, behind w1 a v → leaves v .none a) ∧
    ((∀ j, j < n → 0 < count j) → ∃ ls : List LoopLevel, leaves w1 ⟨start, 0, B, ls, []⟩ start ∧
      ls.length = n ∧ ∀ j, j < n → ∃ x : LoopLevel, ls[j]? = some x ∧
        x.total = count j ∧ x.first = F j ∧ x.last = E j ∧ x.modulo = md j ∧ x.stages = (if md j then descByte d 4 else 0) ∧
        x.ii = (if md j then descByte d 3 else 0) ∧ x.inc0 = BitVec.ofNat 4 (descByte d (23 + 16 * j)) ∧
        x.inc1 = BitVec.ofNat 4 (descByte d (23 + 16 * j) / 16) ∧ x.amt0 = descWord d (24 + 16 * j) ∧ x.amt1 = descWord d (28 + 16 * j) ∧
        x.ldi = l.toNat ∧ x.handler = h ∧ x.pass = 0 ∧
        ((∀ k, k ≤ j → F k = 0) → x.left = if md j then count j + descByte d 4 - 1 else count j)) ∧
    -- an inner level without iterations
    (n = 2 → 0 < count 0 → count 1 = 0 → F 1 = 0 → E 1 < E 0 → ∃ x y : LoopLevel, x.left = count 0 ∧ x.total = count 0 ∧ x.pass = 0 ∧ y.left = 0 ∧
      y.first = 0 ∧ y.last = E 1 ∧
      let q : LoopSeq := ⟨start, E 1 + 1, B, [x, y], []⟩
      ∀ a v, (w1.modMe fun c => { c with loop := q }).addrAfter start (E 1 + 1) = (a, v) →
        exec i s = .next (left s (v.modFocus fun g => { g with redirect := some a }))) ∧
    (n = 2 → 0 < count 0 → count 1 = 0 → F 1 = 0 → E 1 = E 0 →
      let incs := ([(descByte d 23 % 16, descWord d 24), (descByte d 23 / 16, descWord d 28)].filter fun k => k.2 != 0).map fun k =>
        (k.1, k.2.signExtend 64 * BitVec.ofNat 64 (count 0))
      ∀ a v, behind (w1.putIncs incs) a v → leaves v .none a)

/-- R66, R67: at the end of a level's range, with up to two increments that amount to something. A single level: with iterations left the next bundle is
offset F, from the replay buffer; after the last one the sequencer is idle and the bundle after the body is next. Two levels: the inner one goes back to its
F while it has iterations left, then the outer level goes on behind it, or, where both end there, back at the outer one's F. Any number of levels, some of
them inner ones in their last iteration that end here: the innermost one that goes on does so behind them, or at its F; where all end, the bundle after the
body is next. An inner level is entered where its range begins: at its first iteration, also where the outer level goes back to that same offset, and skipped
where it has none. Each iteration's increments are in flight for the next cycle, the inner level's before the outer's. -/
def Obligations.LoopIteration : Prop :=
  ∀ (s : State) (x y : LoopLevel) (e : Nat × Fetched),
    let q := s.work.me.loop
    let r := s.work.loopNext
    let incs (z : LoopLevel) : List InFlight := ([(z.inc0, z.amt0), (z.inc1, z.amt1)].filter fun k => k.2 != 0).map fun k =>
      ⟨s.focus.issueAt + 1, s.focus.seqNo, 10, .gBase, k.1.toNat, 0, 0, (k.2.signExtend 64).setWidth 1024, false⟩
    let done (z : LoopLevel) : LoopLevel := { z with left := z.left - 1, pass := z.pass + 1 }
    let goes (o : Nat) (ls : List LoopLevel) (fs : List InFlight) : Prop := q.replay.find? (fun e => e.1 == o) = some e →
      r.1 = e.2.addr ∧ r.2.me.inflight = s.work.me.inflight ++ fs ∧ r.2.me.loop = { q with levels := ls, offset := o }
    let ends (fs : List InFlight) : Prop :=
      0 < q.bodyLen → q.replay.find? (fun e => e.1 == q.bodyLen) = none → q.replay.find? (fun e => e.1 + 1 == q.bodyLen) = some e →
        r.1 = e.2.next.getD e.2.addr ∧ r.2.me.inflight = s.work.me.inflight ++ fs ∧ r.2.me.loop = .none
    (q.levels = [x] → q.offset = x.last → x.first ≤ x.last →
      (1 < x.left → goes x.first [done x] (incs x)) ∧
      (x.left ≤ 1 → ends (incs x))) ∧
    (q.levels = [x, y] → q.offset = y.last → x.first ≤ y.first → y.first ≤ y.last → y.last ≤ x.last →
      (1 < y.left → goes y.first [x, done y] (incs y)) ∧
      (y.left ≤ 1 → y.last < x.last → goes (y.last + 1) [x, done y] (incs y)) ∧
      (y.left ≤ 1 → y.last = x.last → 1 < x.left → x.first < y.first → goes x.first [done x, done y] (incs y ++ incs x))) ∧
    -- any nest: level z is the innermost that does not end here
    (∀ (pre post : List LoopLevel) (z : LoopLevel), q.levels = pre ++ z :: post → q.levels.length ≤ 6 →
      (∀ k ∈ pre ++ [z], k.first ≤ q.offset ∧ q.offset ≤ k.last) → (∀ k ∈ post, k.first ≤ q.offset ∧ k.last = q.offset ∧ k.left ≤ 1) →
      let inner := (post.reverse.map incs).flatten
      (q.offset < z.last → goes (q.offset + 1) (pre ++ z :: post.map done) inner) ∧
      (z.last = q.offset → 1 < z.left → (∀ k, post.head? = some k → z.first < k.first) →
        goes z.first (pre ++ done z :: post.map done) (inner ++ incs z)) ∧
      -- all levels end here
      (pre = [] → z.last = q.offset → z.left ≤ 1 → ends (inner ++ incs z))) ∧
    -- entering an inner level
    (q.levels = [x, y] → x.first ≤ q.offset → q.offset ≤ x.last → x.first ≤ y.first → y.first ≤ y.last → y.last ≤ x.last →
      (y.modulo = true → 1 ≤ y.stages) →
      let start : LoopLevel := { y with left := if y.modulo then y.total + y.stages - 1 else y.total, pass := 0 }
      let skip : LoopLevel := { y with left := 0, pass := 0 }
      (q.offset + 1 = y.first →
        (0 < y.total → goes y.first [x, start] []) ∧
        (y.total = 0 → y.last < x.last → goes (y.last + 1) [x, skip] []) ∧
        (y.total = 0 → y.last = x.last → 1 < x.left → x.first < y.first → goes x.first [done x, skip] (incs x))) ∧
      -- the outer level goes back to where the inner one begins
      (q.offset = x.last → x.first = y.first → 1 < x.left → 0 < y.total →
        (y.last = x.last → y.left ≤ 1 → goes x.first [done x, start] (incs y ++ incs x)) ∧
        (y.last < x.last → goes x.first [done x, start] (incs x))))

/-- R69: LEXIT. Of level 0: the sequencer is idle and the bundle after the body is next. Of an inner level: the bundle after its range is next, in the
enclosing level; where that ends there too, its iteration does. Level L and those in it have ended, none of their increments is applied, what is in flight
stays so, no stage of a modulo level runs on, and no bundle stands between the LEXIT and the next one. LOOPSEQ is taken by a taken branch, CALL or RET, and
by LOOP and LOOPM, while a loop is active; by a LOOP or LOOPM whose body is longer than 64 bundles, of whose ranges one is not within the enclosing one or
whose LOOPM range is not II long; and by LEXIT of a level that is not active, where no check that comes before it applies. -/
def Obligations.LoopExit : Prop :=
  (∀ (s : State) (w1 : Work) (x : LoopLevel) (xs : List LoopLevel) (a : Word),
    let q := s.work.me.loop
    q.levels = x :: xs → s.work.loopAddr q q.bodyLen = (a, w1) →
    ∃ t, exec (.lexit 0) s = .next t ∧ t.work.me.loop.levels = [] ∧ t.focus.redirect = some a ∧
      t.work.me.inflight = w1.me.inflight ∧ t.mem = (left s w1).mem ∧ t.work.moduloLevel = none) ∧
  -- of an inner level, the enclosing one going on behind it
  (∀ (s : State) (x y : LoopLevel) (e : Nat × Fetched),
    let q := s.work.me.loop
    q.levels = [x, y] → x.first ≤ y.first → y.first ≤ y.last → y.last < x.last → q.replay.find? (fun e => e.1 == y.last + 1) = some e →
    ∃ t z, exec (.lexit 1) s = .next t ∧ t.mem = s.mem ∧ t.focus.redirect = some e.2.addr ∧ t.work.me.inflight = s.work.me.inflight ∧
      t.work.me.loop = { q with levels := [x, z], offset := y.last + 1 } ∧ z.left = 0 ∧ z.first = y.first ∧ z.last = y.last) ∧
  (∀ (s : State) (pre post : List LoopLevel) (x y : LoopLevel) (l : BitVec 3) (a : Word) (w1 : Work),
    let q := s.work.me.loop
    let q1 : LoopSeq := { q with levels := pre ++ x :: (y :: post).map LoopLevel.over, offset := y.last + 1 }
    q.levels = pre ++ x :: y :: post → q.levels.length ≤ 6 → l.toNat = pre.length + 1 → x.first ≤ y.first → y.first ≤ y.last → y.last < x.last →
    (∀ k ∈ post, y.first ≤ k.first ∧ k.last ≤ y.last) → (s.work.modMe fun c => { c with loop := q1 }).loopAddr q1 (y.last + 1) = (a, w1) →
    ∃ t, exec (.lexit l) s = .next t ∧ t.mem = (left s w1).mem ∧ t.focus.redirect = some a ∧ t.work.me.inflight = w1.me.inflight ∧
      t.work.me.loop = w1.me.loop ∧ ((∀ k, q.replay.find? (fun e => e.1 == y.last + 1) = some k ∨ q.replay.find? (fun e => e.1 == y.last) = some k →
        t.mem = s.mem ∧ t.work.me.inflight = s.work.me.inflight ∧ t.work.me.loop = q1 ∧ t.work.moduloLevel = none))) ∧
  (∀ z : LoopLevel, z.over.left = 0 ∧ z.over.first = z.first ∧ z.over.last = z.last) ∧
  -- the bundle at an offset of the body: as it was fetched, behind the one before it, or counted from the first
  (∀ (w : Work) (q : LoopSeq) (o : Nat),
    (∀ e, q.replay.find? (fun e => e.1 == o) = some e → w.loopAddr q o = (e.2.addr, w)) ∧
    (q.replay.find? (fun e => e.1 == o) = none →
      (∀ e, o ≠ 0 → q.replay.find? (fun e => e.1 == o - 1) = some e → w.loopAddr q o = (e.2.next.getD e.2.addr, w)) ∧
      (o = 0 ∨ q.replay.find? (fun e => e.1 == o - 1) = none → w.loopAddr q o = w.addrAfter q.start o))) ∧
  -- ... and where the enclosing one ends there, its iteration ends
  (∀ (s : State) (x y : LoopLevel) (e : Nat × Fetched),
    let q := s.work.me.loop
    q.levels = [x, y] → x.first < y.first → y.first ≤ y.last → y.last = x.last → 1 < x.left → q.replay.find? (fun e => e.1 == x.first) = some e →
    ∃ t z, exec (.lexit 1) s = .next t ∧ t.mem = s.mem ∧ t.focus.redirect = some e.2.addr ∧
      t.work.me.loop = { q with levels := [{ x with left := x.left - 1, pass := x.pass + 1 }, z], offset := x.first } ∧ z.left = 0 ∧
      t.work.me.inflight = s.work.me.inflight ++ ([(x.inc0, x.amt0), (x.inc1, x.amt1)].filter fun k => k.2 != 0).map fun k =>
        ⟨s.focus.issueAt + 1, s.focus.seqNo, 10, .gBase, k.1.toNat, 0, 0, (k.2.signExtend 64).setWidth 1024, false⟩) ∧
  -- no delay slots: the bundle so chosen is next
  (∀ (w : Work) (a : Word), w.focus.ending = false → w.focus.branch = none → w.focus.trap = none → w.focus.redirect = some a → w.me.brPend = false →
    (w.finishBundle w.me.inst false).me.pc = a) ∧
  -- LOOPSEQ
  ∀ (w : Work) (b : Bundle), let vs := w.slotViews b
    let handler := decide (w.frameBusy.1 = some true)
    w.illBundle b = false → (∀ v ∈ vs, w.slotIll vs v = false) → (w.me.brPend = true → ∀ v ∈ vs, Work.noDelay v = false) →
    ∀ v ∈ vs, ∀ i, v.instr = some i →
      let loops (l c : BitVec 6) : Prop := i = .loop l c ∨ i = .loopm l c
      (w.me.loop.levels ≠ [] ∧ ((∃ o, i = .br o ∨ i = .brS1 o ∨ i = .call o ∨ i = .callS1 o) ∨
          (∃ a, i = .brx a ∨ i = .brxS1 a ∨ i = .callx a ∨ i = .callxS1 a) ∨ i = .ret ∨ ∃ l c, loops l c)) ∨
        (∃ l c d, loops l c ∧ w.loopDesc handler l.toNat = some (some d) ∧
          (64 < descByte d 1 ∨
            (∃ j, j + 1 < descByte d 0 ∧ (descByte d (36 + 16 * j) < descByte d (20 + 16 * j) ∨ descByte d (21 + 16 * j) < descByte d (37 + 16 * j))) ∨
            (descByte d 2 = 1 ∧ descByte d (5 + 16 * descByte d 0) + 1 - descByte d (4 + 16 * descByte d 0) ≠ descByte d 3))) ∨
        (∃ l, i = .lexit l ∧ w.me.loop.levels.length ≤ l.toNat) →
      ∃ k t, k ≤ v.n ∧ w.issueCheck b vs = some ⟨k, t⟩ ∧ t.code = 0x04

/-- R82, R84: an empty bundle of an idle run has issued: the next one of the run, and after the last the code word that follows. -/
def Obligations.IdleRuns : Prop :=
  ∀ (s : State) (n : BitVec 8),
    let pc := s.work.me.pc
    (runPos pc < n.toNat → exec (.idleRun n) s = .next (onFocus s fun g => { g with nextAddr := some (withRun pc (runPos pc + 1)) })) ∧
    ∀ (w1 w2 : Work) (p : BitVec 512) (next : Word), n.toNat ≤ runPos pc →
      s.work.fetchPacket (packetOf pc) = (.ok p, w1) → w1.successor (packetOf pc) p (halfOf pc) = (next, w2) →
      exec (.idleRun n) s = .next (onFocus (left s w2) fun g => { g with nextAddr := some next })

/-! ## System registers -/

/-- R76, R444, R462: MFSR lands the register's value at issue 2 cycles later; in user mode KFRAME and KVEC take PRIV. TSTAMP lands the package
timestamp. -/
def Obligations.SystemReads : Prop :=
  ∀ (s : State) (d k : BitVec 6),
    let c := s.work.me
    (s.focus.super = false → k = 2 ∨ k = 3 → exec (.mfsr d k) s = .next (trapped s (.mfsr d k) { code := 0x16 })) ∧
    (s.focus.replay = none →
      exec (.mfsr d 0) s = .next (sResult s d c.kstat 2) ∧ exec (.mfsr d 1) s = .next (sResult s d c.ktsoa 2) ∧
      (s.focus.super = true → exec (.mfsr d 2) s = .next (sResult s d c.kframe 2) ∧ exec (.mfsr d 3) s = .next (sResult s d c.kvec 2)) ∧
      (∀ i, s.work.myInst? = some i → exec (.mfsr d 4) s = .next (sResult s d (BitVec.ofNat 64 i.counter) 2)) ∧
      exec (.mfsr d 5) s = .next (sResult s d c.kdead 2) ∧ exec (.mfsr d 6) s = .next (sResult s d c.kest 2) ∧
      exec (.mfsr d 7) s = .next (sResult s d c.ktok 2) ∧ exec (.mfsr d 8) s = .next (sResult s d c.krnd 2) ∧
      exec (.mfsr d 9) s = .next (sResult s d (c.kclk.setWidth 64) 2) ∧ exec (.mfsr d 10) s = .next (sResult s d c.kid 2) ∧
      (12 ≤ k.toNat → k.toNat < 16 →
        exec (.mfsr d k) s = .next (sResult s d (field (s.work.part s.work.myPart).feat (64 * (k.toNat - 12)) 64) 2))) ∧
    exec (.tstamp d) s = .next (sResult s d (BitVec.ofNat 64 s.ns) 2)

/-- R76, R78, R444, R445, R411: which MTSR takes PRIV, which is ignored, and that any other, one of KRND with a rounding mode that is not reserved
among them, is in flight for 2 cycles; EST writes KEST from any mode, its immediate zero-extended. Each of the forms completes. -/
def Obligations.SystemWrites : Prop :=
  ∀ (s : State) (a k : BitVec 6) (m : Imm 16),
    (s.focus.super = false → k = 2 ∨ k = 3 → exec (.mtsr a k) s = .next (trapped s (.mtsr a k) { code := 0x16 })) ∧
    (s.focus.super = false → k = 1 ∨ k = 4 ∨ k = 6 ∨ k = 9 → exec (.mtsr a k) s = .next s) ∧
    (k = 5 ∨ k = 7 ∨ k = 10 ∨ 12 ≤ k.toNat ∧ k.toNat < 16 → exec (.mtsr a k) s = .next s) ∧
    (k = 0 ∨ k = 8 ∧ (sOp s 0 a).toNat % 8 < 5 ∨ (s.focus.super = true ∧ (k = 1 ∨ k = 2 ∨ k = 3 ∨ k = 4 ∨ k = 6 ∨ k = 9)) →
      exec (.mtsr a k) s = .next (result s .sysReg k.toNat ((sOp s 0 a).setWidth 1024) 2)) ∧
    exec (.est a) s = .next (result s .sysReg 6 ((sOp s 0 a).setWidth 1024) 2) ∧
    exec (.estI m) s = .next (result s .sysReg 6 (match m with | .short x => x.setWidth 1024 | .long x => x.setWidth 1024) 2)

/-- R445, R77, R118: what a write of a system register does as it lands. KSTAT takes CHK and clears the sticky flags written 1; MODE and the
reserved bits stay. KRND keeps SEED and RM and reseeds the generator; KBUDGET sets the instance's counter. In a blocked context it lands alike, in a resumed
one not yet; in one whose rill has ended it lands as the context becomes idle. -/
def Obligations.SystemWriteLanding : Prop :=
  ∀ (s : State) (f : InFlight),
    let c := s.work.me
    let v : Word := field f.value 0 64
    c.inflight = [f] → f.kind = .sysReg → f.flags = 0 → f.land ≤ s.cycle →
    (c.resumed = true → exec .resultLand s = .next s) ∧
    (c.resumed = false → c.st = .blocked → c.block = none → c.inst ≠ 0 →
      ∃ t, exec .resultLand s = .next t ∧ t.mem = s.mem ∧ t.work.me.st = .idle ∧ t.work.me.inst = 0 ∧ t.work.me.inflight = [] ∧
        (f.reg = 1 → t.work.me.ktsoa = v) ∧ (f.reg = 2 → t.work.me.kframe = v) ∧ (f.reg = 3 → t.work.me.kvec = v) ∧
        (f.reg = 6 → t.work.me.kest = v) ∧ (f.reg = 9 → t.work.me.kclk = field v 0 32)) ∧
    (c.resumed = false → c.st ≠ .blocked ∨ c.block ≠ none ∨ c.inst = 0 →
    ∃ t, exec .resultLand s = .next t ∧ t.mem = s.mem ∧
      (f.reg = 0 → ∃ k, t.work.me = { c with inflight := [], kstat := k } ∧ ∀ j, j < 64 →
        k.getLsbD j = if j = 1 then v.getLsbD 1 else if 8 ≤ j ∧ j < 16 then c.kstat.getLsbD j && !v.getLsbD j else c.kstat.getLsbD j) ∧
      (f.reg = 1 → t.work.me = { c with inflight := [], ktsoa := v }) ∧
      (f.reg = 2 → t.work.me = { c with inflight := [], kframe := v }) ∧
      (f.reg = 3 → t.work.me = { c with inflight := [], kvec := v }) ∧
      (f.reg = 4 → t.work.me = { c with inflight := [] } ∧
        t.work.inst? c.inst = (s.work.inst? c.inst).map fun i =>
          { i with counter := v.toNat, budgetSent := if v = 0 then i.budgetSent else false,
                   rills := if v = 0 then i.rills else i.rills.map fun r => { r with gotBudget := false } }) ∧
      (f.reg = 6 → t.work.me = { c with inflight := [], kest := v }) ∧
      (f.reg = 8 → t.work.me = { c with inflight := [], krnd := v &&& 0xFFFFFFFF00000007#64, gen := seedState (field v 32 32) }) ∧
      (f.reg = 9 → t.work.me = { c with inflight := [], kclk := field v 0 32 }))

/-! ## Waits, fences, ends, switches -/

/-- R40, R41, R204: BARR. A rill outside the mask, or a mask that names a rill the instance has never held, takes BARRMASK; any other releases, joins
and blocks, but for one whose episode has completed, which goes on as an acquire at the episode's clock. An episode completes when each rill of its mask has
joined or ended: every rill that joined it, the last one too, is ready again and issues its BARR. Where every unended rill is blocked in BARR, each of them
takes BARRDEAD by turns that follow at once: that these come in the same cycle, one after the other, is the model's choice (log entry 55), as is that a
completed episode waits for the rill by the address and mask of its BARR (log entry 56). -/
def Obligations.Barriers : Prop :=
  (∀ (s : State) (m : BitVec 16) (i : Inst),
    let c := s.work.me
    s.work.myInst? = some i →
    (c.barrDead = true →
      exec (.barr m) s = .next (trapped (onMe s fun c => { c with barrDead := false }) (.barr m) { code := 0x1A, info := m.setWidth 64 })) ∧
    (c.barrDead = false →
    (∀ g, c.barrPass? m = some g →
      g.pc = c.pc ∧ g.mask = m ∧ g ∈ c.barrGo ∧
      exec (.barr m) s = .next (lift (fun w => ((w.dropClean w.focus.core fun _ => true).raiseClock g.clock.toNat).modMe
        fun c => { c with barrGo := c.barrGo.erase g, readS := 0 }) s)) ∧
    (c.barrPass? m = none → (m.getLsbD c.rill = false ∨ ∃ r, r < 16 ∧ m.getLsbD r = true ∧ i.rills.length ≤ r) →
      exec (.barr m) s = .next (trapped s (.barr m) { code := 0x19, info := m.setWidth 64 })) ∧
    (c.barrPass? m = none → m.getLsbD c.rill = true → (∀ r, r < 16 → m.getLsbD r = true → r < i.rills.length) →
      let w := (s.work.release.joinEpisode i.id m c.rill).block (.barrier m)
      exec (.barr m) s = .next (left s ((w.completeEpisodes i.id).raiseDead i.id)) ∧
      -- the rill blocks, and its bundle is presented again
      w.me.st = .blocked ∧ w.me.block = some (.barrier m) ∧ w.focus.waits = true ∧ w.me.pc = c.pc ∧
      -- an episode that is not complete
      ((∀ j, w.inst? i.id = some j → ∀ e ∈ j.episodes, j.episodeDone e = false) → w.barrierDead i.id = false →
        exec (.barr m) s = .next (left s w))))) ∧
  -- joining
  (∀ (w : Work) (id r : Nat) (m : BitVec 16) (i : Inst), w.inst? id = some i →
    ((∀ e ∈ i.episodes, e.mask ≠ m) → ∃ j e, (w.joinEpisode id m r).inst? id = some j ∧ j.episodes = i.episodes ++ [e] ∧ e.mask = m ∧ e.joined = [r]) ∧
    ((∃ e ∈ i.episodes, e.mask = m) → ∃ j, (w.joinEpisode id m r).inst? id = some j ∧
      j.episodes = i.episodes.map fun e => if e.mask = m then { e with joined := e.joined ++ [r] } else e)) ∧
  -- completing
  (∀ (i : Inst) (e : Episode), i.episodeDone e = true ↔
    ∀ r, r < 16 → e.mask.getLsbD r = true → r ∈ e.joined ∨ ∃ x, i.rills[r]? = some x ∧ x.ended = true) ∧
  (∀ (w : Work) (id : Nat) (i : Inst), w.inst? id = some i → (∀ e ∈ i.episodes, i.episodeDone e = false) → w.completeEpisodes id = w) ∧
  (∀ (w : Work) (id : Nat) (i : Inst) (e : Episode), w.inst? id = some i → i.episodes = [e] → i.episodeDone e = true →
    -- ended participants have nothing left to write back
    (∀ r x, r < 16 → e.mask.getLsbD r = true → i.rills[r]? = some x → x.ended = true → (w.core x.core).l1 = [] ∧ (w.core x.core).upd = []) →
    let v := w.completeEpisodes id
    let clock (x : Rill) : Nat := if x.ended then x.finalClock.toNat else (w.ctx x.core x.ctx).kclk.toNat
    (∃ j, v.inst? id = some j ∧ j.episodes = []) ∧
    (∃ k : BitVec 32,
      (∀ r x, r < 16 → e.mask.getLsbD r = true → i.rills[r]? = some x → clock x + 1 ≤ k.toNat ∨ k = 0xFFFFFFFF#32) ∧
      (k.toNat = 1 ∨ k = 0xFFFFFFFF#32 ∨ ∃ r x, r < 16 ∧ e.mask.getLsbD r = true ∧ i.rills[r]? = some x ∧ k.toNat = clock x + 1) ∧
      ∀ r x, r ∈ e.joined → i.rills[r]? = some x → (v.ctx x.core x.ctx).block = none ∧
        ((w.ctx x.core x.ctx).st = .blocked → (v.ctx x.core x.ctx).st = .ready) ∧
        (⟨(w.ctx x.core x.ctx).pc, e.mask, k⟩ : BarrierPass) ∈ (v.ctx x.core x.ctx).barrGo) ∧
    ∀ n k, (∀ r x, r ∈ e.joined → i.rills[r]? = some x → x.core ≠ n ∨ x.ctx % 4 ≠ k % 4) → v.ctx n k = w.ctx n k) ∧
  -- every unended rill waits
  (∀ (w : Work) (id : Nat), w.barrierDead id = true ↔ ∃ i, w.inst? id = some i ∧ (∃ r ∈ i.rills, r.ended = false) ∧
    ∀ r ∈ i.rills, r.ended = false → ∃ m, (w.ctx r.core r.ctx).block = some (.barrier m)) ∧
  (∀ (w : Work) (id : Nat), w.barrierDead id = false → w.raiseDead id = w) ∧
  ∀ (w : Work) (id : Nat) (i : Inst), w.barrierDead id = true → w.inst? id = some i →
    let v := w.raiseDead id
    (∃ j, v.inst? id = some j ∧ j.episodes = []) ∧
    (∀ r ∈ i.rills, r.ended = false → (v.ctx r.core r.ctx).barrDead = true ∧ (v.ctx r.core r.ctx).block = none ∧
      ((w.ctx r.core r.ctx).st = .blocked → (v.ctx r.core r.ctx).st = .ready)) ∧
    (∀ n k, (∀ r ∈ i.rills, r.ended = false → r.core ≠ n ∨ r.ctx % 4 ≠ k % 4) → v.ctx n k = w.ctx n k) ∧
    v.turn = ((i.rills.filter fun x => !x.ended).map fun x => .rill x.core x.ctx) ++ w.turn

/-- R213, R207, R204: HWAIT in the order of its checks: ownership, NOTREQ, RELEASED, the condition, the handle's fault, the wait. A wait that a
transition ended gives what that transition found. -/
def Obligations.HandleWaits : Prop :=
  ∀ (s : State) (h : BitVec 6) (m : BitVec 2),
    let n := sOp s 0 h
    let r := s.work.handle n.toNat
    let fault (x : Nat) : Trap := { code := 0x1B, addr := n, info := r.word0, info2 := m.setWidth 64, sub := x }
    let holds := if m = 0 then r.state = 3 else r.arrived &&& m = m
    ((s.work.part s.work.myPart).ownsHandle n = false → exec (.hwait h m) s = .next (trapped s (.hwait h m) { code := 0x10, addr := n })) ∧
    ((s.work.part s.work.myPart).ownsHandle n = true → ∀ x v, s.work.me.hres = some (x, v) →
      let s' := onMe s fun c => { c with hres := none }
      (x = 0 → exec (.hwait h m) s = .next (lift (fun w => ((w.dropClean w.focus.core fun _ => true).raiseClock v.toNat).modMe
        fun c => { c with readS := 0 }) s')) ∧
      (x ≠ 0 → exec (.hwait h m) s = .next (trapped s' (.hwait h m)
        { code := 0x1B, addr := n, info := v, info2 := m.setWidth 64, sub := x }))) ∧
    ((s.work.part s.work.myPart).ownsHandle n = true → s.work.me.hres = none →
      (m &&& ~~~r.req ≠ 0 → r.state ≠ 0 → exec (.hwait h m) s = .next (trapped s (.hwait h m) (fault 6))) ∧
      (r.state = 0 → exec (.hwait h m) s = .next (trapped s (.hwait h m) (fault 5))) ∧
      (m &&& ~~~r.req = 0 → r.state ≠ 0 →
        (holds → exec (.hwait h m) s = .next (lift (fun w => ((w.dropClean w.focus.core fun _ => true).raiseClock r.hc).modMe
          fun c => { c with readS := 0 }) s)) ∧
        (¬holds → r.state = 4 → exec (.hwait h m) s = .next (trapped s (.hwait h m) (fault r.fault.toNat))) ∧
        (¬holds → r.state ≠ 4 → exec (.hwait h m) s = .next (lift (fun w =>
          (w.setHandle n.toNat { r with waiters := r.waiters + 1 }).block (.handle n.toNat m)) s))))

/-- R448: MWAIT reads its word at the home slice: another value ends the wait as an acquire, the awaited-against one blocks; a misaligned address
takes ACCESS; a context that a write woke goes on without reading again. -/
def Obligations.MemoryWaits : Prop :=
  ∀ (s : State) (a : BitVec 4) (v : BitVec 6),
    let addr := aOp s 0 a
    (addr.toNat % 8 ≠ 0 → exec (.mwait a v) s = .next (trapped s (.mwait a v) { code := 0x10, addr := addr })) ∧
    ∀ (pa : Nat) (mt : BitVec 2) (race : Bool) (w1 w2 : Work) (bs : List Byte) (pl : Place), addr.toNat % 8 = 0 →
      place s.work.issuer true .global addr .read s.work = (.ok (.phys pa mt race), w1) → mt.toNat < 2 →
      (∀ st, s.work.me.woken = some st → exec (.mwait a v) s = .next (left s ((w1.acquire st).modMe fun c => { c with woken := none }))) ∧
      (s.work.me.woken = none → homeLoad .global addr 8 w1 = (.ok (bs, pl), w2) →
        (wordOf bs ≠ sOp s 1 v → exec (.mwait a v) s = .next (left s (w2.acquire (w2.sStamp w2.myPart pl)))) ∧
        (wordOf bs = sOp s 1 v → exec (.mwait a v) s = .next (left s (w2.block (.memWord pa (sOp s 1 v) false)))))

/-- R197: QFENCE places one marker in each queue its mask names, unless one of them is full: then the bundle blocks. -/
def Obligations.QueueFences : Prop :=
  ∀ (s : State) (m : BitVec 8),
    let full := ∃ q, q < 8 ∧ m.getLsbD q = true ∧ s.work.queueFull s.focus.core q = true
    (s.focus.admitted = false → full → exec (.qfence m) s = .next (lift (fun w => w.block (.qfence m.toNat)) s)) ∧
    (s.focus.admitted = true ∨ ¬full →
      ∃ t, exec (.qfence m) s = .next t ∧ t.mem = s.mem ∧ (∀ n k, t.work.ctx n k = s.work.ctx n k) ∧
        ∀ q, q < 8 → nth t.work.here.queues q = nth s.work.here.queues q ++
          if m.getLsbD q then [{ kind := .marker s.markerNext m.toNat, cw := 0, who := s.work.issuer, started := false, desc := none, units := 0,
                                 page := .none, hold := [], net := none }] else [])

/-- R412, R413, R203, R204, R175: FENCE. At rill scope nothing; an acquire drops the clean lines of L1 and raises KCLK past the S stamps read; a release
cleans L1 and raises KCLK by one; full does both, the release first (the rules give no order: the model's choice, DEDUCED, log entry 51). A range form with a length of 2^32 or more takes ACCESS. -/
def Obligations.Fences : Prop :=
  ∀ (s : State) (k : BitVec 2) (sc : BitVec 3) (a : BitVec 4) (l : BitVec 6),
    let base := aOp s 0 a
    let len := sOp s 1 l
    let ranges := s.work.physRanges s.focus.core s.work.myPart .read true 65540 base.toNat len.toNat
    let acq (which : Nat → Bool) (w : Work) : Work :=
      ((w.dropClean w.focus.core which).raiseClock (max w.me.readS w.me.hqryHc)).modMe fun c => { c with readS := 0, hqryHc := 0 }
    let rel (which : Nat → Bool) (w : Work) : Work :=
      ((w.cleanL1 w.myPart w.focus.core which).tick).modMe fun c => { c with relPending := true }
    exec (.fence k 0) s = .next s ∧
    (len.toNat < 2 ^ 32 → exec (.fenceR k 0 a l) s = .next s) ∧
    (2 ^ 32 ≤ len.toNat → exec (.fenceR k sc a l) s = .next (trapped s (.fenceR k sc a l) { code := 0x10, addr := base })) ∧
    (sc ≠ 0 →
      exec (.fence 0 sc) s = .next (lift (acq fun _ => true) s) ∧ exec (.fence 1 sc) s = .next (lift (rel fun _ => true) s) ∧
      exec (.fence 2 sc) s = .next (lift (fun w => acq (fun _ => true) (rel (fun _ => true) w)) s) ∧
      (len.toNat < 2 ^ 32 →
        exec (.fenceR 0 sc a l) s = .next (lift (acq (Work.lineIn ranges)) s) ∧
        exec (.fenceR 1 sc a l) s = .next (lift (rel (Work.lineIn ranges)) s) ∧
        exec (.fenceR 2 sc a l) s = .next (lift (fun w => acq (Work.lineIn ranges) (rel (Work.lineIn ranges) w)) s)))

/-- R39, R40, R407, R28, R482: END ends the rill at its clock and leaves its results to land; an episode that waited for it alone completes, and rills left
waiting in BARR for good take BARRDEAD (Barriers says how); what is held for the rill is dropped with it (the model's choice, log entry 134). YIELD picks the next ready context in cyclic order, itself
last, and a switch cycle follows; in it the next context that was ready before becomes current. -/
def Obligations.EndsAndSwitches : Prop :=
  ∀ s : State,
    (∀ i, s.work.myInst? = some i → i.episodes = [] →
      (∀ r ∈ i.rills, ∀ m, (s.work.ctx r.core r.ctx).block ≠ some (.barrier m)) →
      exec .endRill s = .next (lift (fun w => (w.modMe fun c => { c with
          st := .blocked, block := none, loop := .none, brPend := false, dsRem := 0, micro := none, held := [] }).modInst w.me.inst fun i =>
        { i with rills := i.rills.map fun r => if r.core = w.focus.core ∧ r.ctx = w.focus.ctx ∧ !r.ended then
            { r with ended := true, finalClock := w.me.kclk } else r }) s)) ∧
    -- with or without an open episode
    (let ended := (s.work.modMe fun c => { c with
        st := .blocked, block := none, loop := .none, brPend := false, dsRem := 0, micro := none, held := [] }).modInst s.work.me.inst fun i =>
          { i with rills := i.rills.map fun r => if r.core = s.focus.core ∧ r.ctx = s.focus.ctx ∧ !r.ended then
            { r with ended := true, finalClock := s.work.me.kclk } else r }
     exec .endRill s = .next (left s ((ended.completeEpisodes s.work.me.inst).raiseDead s.work.me.inst)) ∧
     ∀ i e, s.work.myInst? = some i → i.episodes = [e] → s.work.here.l1 = [] → s.work.here.upd = [] →
       -- the last rill that the episode waited for
       (∀ r, r < 16 → e.mask.getLsbD r = true → r ∈ e.joined ∨ ∃ x, i.rills[r]? = some x ∧ x.core = s.focus.core ∧ x.ctx = s.focus.ctx ∧ x.ended = false) →
       (∀ r ∈ e.joined, ∃ x, i.rills[r]? = some x ∧ x.ended = false ∧ (s.work.ctx x.core x.ctx).st = .blocked ∧
         (x.core ≠ s.focus.core ∨ x.ctx % 4 ≠ s.focus.ctx % 4)) → e.joined ≠ [] →
       ∃ t, exec .endRill s = .next t ∧ ∀ r x, r ∈ e.joined → i.rills[r]? = some x → (t.work.ctx x.core x.ctx).st = .ready ∧
         ∃ g ∈ (t.work.ctx x.core x.ctx).barrGo, g.pc = (s.work.ctx x.core x.ctx).pc ∧ g.mask = e.mask) ∧
    (∃ t, exec .yield s = .next t ∧ t.mem = s.mem ∧ (∀ n k, t.work.ctx n k = s.work.ctx n k) ∧
      let cur := s.work.here.cur
      let ready (i : Nat) : Prop := (s.work.ctx s.focus.core i).st = .ready ∧ (s.work.ctx s.focus.core i).readyAt ≤ s.cycle
      (∀ i, t.work.here.switching = some i → ∃ k, 1 ≤ k ∧ k ≤ 4 ∧ i = (cur + k) % 4 ∧ ready i ∧ ∀ j, 1 ≤ j → j < k → ¬ready ((cur + j) % 4)) ∧
      (t.work.here.switching = none → ∀ i, i < 4 → ¬ready i)) ∧
    (∃ t, exec .contextSwitch s = .next t ∧ t.mem = s.mem ∧ (∀ n k, t.work.ctx n k = s.work.ctx n k) ∧ t.work.here.switching = none ∧
      let cur := s.work.here.cur
      let ready (i : Nat) : Prop := (s.work.ctx s.focus.core i).st = .ready ∧ (s.work.ctx s.focus.core i).readyAt < s.cycle
      (s.work.here.switching = none → t.work.here.cur = cur) ∧
      ∀ n, s.work.here.switching = some n →
        ((∀ i, i < 4 → ¬ready i) → t.work.here.cur = n) ∧
        ∀ k, 1 ≤ k → k ≤ 4 → ready ((cur + k) % 4) → (∀ j, 1 ≤ j → j < k → ¬ready ((cur + j) % 4)) → t.work.here.cur = (cur + k) % 4)

/-! ## Traps -/

/-- TRAP raises its trap with the immediate as INFO (R284). A slot's trap (R283 class S): in an END bundle it is only counted (R39); while other slots of
its bundle are still to complete it is noted, the lowest slot's staying (the model's choice, log entry 16), and nothing else happens; else it is taken, and
the bundle that has completed takes what was noted. -/
def Obligations.TrapInstruction : Prop :=
  (∀ (s : State) (v : BitVec 16), exec (.trapImm v) s = .next (trapped s (.trapImm v) { code := 0x21, info := v.setWidth 64 })) ∧
  ∀ (w : Work) (t : Trap) (ops : List Line),
    let f := w.focus
    let r : TrapRec := ⟨f.slot, t.code, t.addr, t.info, t.info2, t.sub, f.slotWord, f.ext, ops⟩
    (f.ending = true → w.slotTrap t ops = w.countTrap t.code) ∧
    (f.ending = false → f.bundle = true →
      (f.trap = none → w.slotTrap t ops = w.modFocus fun g => { g with trap := some r }) ∧
      ∀ o, f.trap = some o → w.slotTrap t ops = if o.slot ≤ f.slot then w else w.modFocus fun g => { g with trap := some r }) ∧
    (f.ending = false → f.bundle = false → w.slotTrap t ops = (w.modFocus fun g => { g with trap := some r }).enterSlotTrap r) ∧
    (∀ v : Work, v = w.awaitInterlocked (fun _ => true) → w.enterSlotTrap r = v.takeTrap
      ⟨t, f.slot, v.me.pc, v.focus.hdr, (f.ext.getD 0) ++ f.slotWord, ops⟩) ∧
    -- the bundle has completed
    ∀ (id : Nat) (next : Word), let c := w.me
      c.inst = id → f.ending = false → f.branch.isSome = true → f.redirect = none → f.trap = some r → f.nextAddr = some next → c.loop.levels = [] →
      c.barrGo = [] → w.inst? id = none →
      let v := w.enterSlotTrap r
      w.finishBundle id false = if v.me.inst = id then v.modMe fun c => { c with trapNext := next } else v

/-- R291, R286, R283, R285: taking a trap. With no handler running, the fault is counted (TRAP and DEPUF are not), the frame is written from the
context as it stands, the vector's entry is the next code address, the mode is supervisor, and the sequencer, the branch state and the results in
flight are gone; every register is as it was. Where the frame or the vector fails, and while a handler runs (R293), the instance is killed and TRAP2
counted. -/
def Obligations.TrapEntry : Prop :=
  ∀ (s : State) (st : Site) (w0 w1 w2 w3 : Work) (bs : List Byte) (pl : Place) (e : Bad),
    let w := w0.countTrap st.trap.code
    let c := w.me
    let who := { w.issuer with super := true }
    let fs := Work.sortBy Work.frameBefore c.inflight
    let head := writeFrame who c.frameBase (frameHead c w.focus.super st (min fs.length 96) w.ns)
    let tail := writeFrame who (c.frameBase + 0x400#64) (frameTail fs w.focus.issueAt)
    let vec := readSync who false .global (c.kvec + BitVec.ofNat 64 (8 * st.trap.code)) 8
    let t := lift (fun w => w.takeTrap st) s
    (s.work.frameBusy = (some true, w0) ∨ s.work.frameBusy = (none, w0) → t = left s w0.trap2) ∧
    (s.work.frameBusy = (some false, w0) →
      (head w = (.error e, w1) → t = left s w1.trap2) ∧
      (head w = (.ok (), w1) →
        (tail w1 = (.error e, w2) → t = left s w2.trap2) ∧
        (tail w1 = (.ok (), w2) →
          (vec w2 = (.error e, w3) → t = left s w3.trap2) ∧
          (vec w2 = (.ok (bs, pl), w3) →
            let old := s.work.me
            t.mem = applyLog s.mem w3.log ∧ t.work.me.pc = wordOf bs ∧ t.work.me.kstat = old.kstat ||| 1#64 ∧
            t.work.me.loop = .none ∧ t.work.me.brPend = false ∧ t.work.me.inflight = [] ∧ t.work.me.micro = none ∧
            t.work.me.s = old.s ∧ t.work.me.a = old.a ∧ t.work.me.p = old.p ∧ t.work.me.v = old.v ∧ t.work.me.q = old.q ∧
            t.work.me.g = old.g ∧ t.work.me.xacc = old.xacc ∧ t.work.me.xclass = old.xclass ∧ t.work.me.krnd = old.krnd ∧
            ∀ i r, s.work.myInst? = some i → s.work.reach? i.part i.course i.reach = some r →
              ∃ r', t.work.reach? i.part i.course i.reach = some r' ∧
                (0x30 ≤ st.trap.code ∨ st.trap.code = 0x21 ∨ st.trap.code = 0x20 → r'.counts = r.counts) ∧
                (st.trap.code < 0x30 → st.trap.code ≠ 0x21 → st.trap.code ≠ 0x20 → r'.counts.nfault = r.counts.nfault + 1 ∧
                  (r.counts.nfault = 0 → r'.counts.fsrc = 1 ∧ r'.counts.fcode = st.trap.code))))))

/-- R286 to R290: the frame's fields. The 768 bytes from the frame's base read back, at the places R286 and R287 give them, as the cause word's
fields, PC, the pending target, ADDR, INFO, INFO2, TIME, HDR, SLOTW and the replay operands; the reserved bytes are zero. SEQCTL and the level records read back as the loop sequencer's, a record of a level that is not
active being zero throughout. An in-flight entry is 144
bytes that read back as REM, KIND, REG, FLAGS, XTRA and VALUE, and RFT accepts it. -/
def Obligations.FrameLayout : Prop :=
  (∀ (c : Ctx) (pm : Bool) (st : Site) (n ns : Nat),
    n ≤ 96 → st.slot < 16 → st.trap.code < 64 → st.trap.sub < 256 → c.dsRem ≤ 2 → ns < 2 ^ 64 → st.ops.length ≤ 4 →
    let b := frameHead c pm st n ns
    let f : FrameImage := ⟨b, []⟩
    b.length = 0x300 ∧ f.cause.getLsbD 63 = true ∧ f.cause.getLsbD 62 = pm ∧ f.resume = 0 ∧ f.brPend = c.brPend ∧
    f.dsRem = (if c.brPend then c.dsRem else 0) ∧ f.ninfl = n ∧ (field f.cause 24 8).toNat = st.trap.sub ∧ f.slot = st.slot ∧ f.code = st.trap.code ∧
    field f.cause 40 17 = 0#17 ∧ field f.cause 8 12 = 0#12 ∧
    f.word 0x08 = st.pc ∧ f.word 0x10 = (if c.brPend then c.brTgt else 0) ∧ f.word 0x18 = 0 ∧ f.word 0x20 = st.trap.addr ∧
    f.word 0x28 = st.trap.info ∧ f.word 0x30 = st.trap.info2 ∧ (f.word 0x38).toNat = ns ∧ f.word 0x40 = st.hdr ∧ f.word 0x48 = st.slotw ∧
    (∀ k, 0x50 ≤ k → k < 0x80 → b[k]? = some 0#8) ∧
    (∀ k l, st.ops[k]? = some l → lineOf (b.drop (0x80 + 128 * k) |>.take 128) = l) ∧
    -- SEQ0 to SEQ5 and SEQCTL
    (let q := c.loop
     (q.levels = [] → ∀ k, 0x280 ≤ k → k < 0x300 → b[k]? = some 0#8) ∧
     (q.levels.length ≤ 6 → q.offset < 256 →
      (∀ x ∈ q.levels, x.left < 2 ^ 32 ∧ x.first < 256 ∧ x.last < 256 ∧ x.stages < 256 ∧ x.ii < 256 ∧ x.ldi < 256 ∧ x.pass < 2 ^ 32) →
      f.nlev = q.levels.length ∧ (q.levels ≠ [] → f.word 0x2E0 = q.start ∧ f.offset = q.offset) ∧ (∀ k, 0x2EA ≤ k → k < 0x300 → b[k]? = some 0#8) ∧
      (∀ l k, q.levels.length ≤ l → l < 6 → k < 16 → f.lev l k = 0) ∧
      ∀ l x, q.levels[l]? = some x → f.levWord l 0 = x.left ∧ f.lev l 4 = x.first ∧ f.lev l 5 = x.last ∧
        f.lev l 6 = 1 + (if x.modulo then 2 else 0) + (if x.handler then 4 else 0) ∧ f.lev l 7 = (if x.modulo then x.stages else 0) ∧
        f.lev l 8 = (if x.modulo then x.ii else 0) ∧ f.lev l 9 = x.inc0.toNat + 16 * x.inc1.toNat ∧ f.lev l 10 = x.ldi ∧ f.lev l 11 = 0 ∧
        f.levWord l 12 = if x.modulo then x.pass else 0))) ∧
  ∀ (f : InFlight) (rel : Nat),
    1 ≤ rel → rel ≤ 20 → kindOf f.kind.code f.reg = some f.kind → (f.kind = .xaccOp → f.xtra.toNat ≤ 2) → f.reg < 256 →
    let img : FrameImage := ⟨[], inflEntry f rel⟩
    (inflEntry f rel).length = 144 ∧ img.inflOk 0 = true ∧
    let h := (img.infl 0).1
    (field h 40 8).toNat = rel ∧ (field h 24 8).toNat = f.kind.code ∧ (field h 16 8).toNat = f.reg ∧ field h 0 8 = f.flags ∧
    (img.infl 0).2.1 = f.xtra ∧ (img.infl 0).2.2 = f.value

/-- R294, R290, R295: RFT. User mode takes PRIV; a frame that breaks the rules takes ILLOP and changes nothing; a good one restores mode, branch
state, the sequencer with every field of each level's record, and the results in flight, clears BUSY and resumes 3 cycles after RFT's issue as RESUME
says. A return from BUDGET does the same, and the last one of an instance whose counter is still 0 kills it; that a rill which took BUDGET and has ended
has not returned is derived (DEDUCED, the model's choice, log entry 87), not stated by a rule. -/
def Obligations.TrapReturn : Prop :=
  ∀ (s : State) (f : FrameImage) (w1 w2 : Work) (pl : Place) (e : Trap),
    (s.focus.super = false → exec .rft s = .next (trapped s .rft { code := 0x16 })) ∧
    (s.focus.super = true → readFrame s.work = (.error e, w1) → exec .rft s = .next (trapped (carried s w1) .rft e)) ∧
    (s.focus.super = true → readFrame s.work = (.ok f, w1) →
      (f.bad = true → exec .rft s = .next (trapped (carried s w1) .rft { code := 0x02 })) ∧
      (∀ l, l < f.nlev → w1.loopDesc (decide (f.lev l 6 / 4 % 2 = 1)) (f.lev l 10) = none →
        exec .rft s = .next (trapped (carried s w1) .rft { code := 0x02 })) ∧
      (f.bad = false →
        (∀ l, l < f.nlev → ∃ d, w1.loopDesc (decide (f.lev l 6 / 4 % 2 = 1)) (f.lev l 10) = some (some d)) →
        -- a slot of RFT's own bundle has trapped: the handler still runs, and the trap that follows is nested (R293)
        (∀ o, s.focus.trap = some o → exec .rft s = .next (left s w1)) ∧
        (s.focus.trap = none →
        writeSync { w1.issuer with super := true } false .global w1.me.frameBase (leBytes 8 (f.cause &&& 0x7FFFFFFFFFFFFFFF#64).toNat) w1 = (.ok pl, w2) →
        let u := w2.focus.issueAt + 3
        let restored (c : Ctx) : Prop :=
          c.s = w2.me.s ∧ c.a = w2.me.a ∧ c.p = w2.me.p ∧ c.v = w2.me.v ∧ c.q = w2.me.q ∧ c.g = w2.me.g ∧ c.xacc = w2.me.xacc ∧
          (∀ j, j < 64 → c.kstat.getLsbD j = if j = 0 then f.cause.getLsbD 62 else w2.me.kstat.getLsbD j) ∧
          c.notBefore = u ∧
          (f.resume = 2 → c.pc = f.word 0x18 ∧ c.brPend = false ∧ c.dsRem = 0 ∧ c.loop = .none ∧ c.micro = none) ∧
          (f.resume ≠ 2 → c.pc = f.word 0x08 ∧ c.brPend = f.brPend ∧ c.dsRem = f.dsRem ∧ c.brTgt = f.word 0x10) ∧
          (f.resume ≠ 2 → f.nlev = 0 → c.loop = .none) ∧
          (f.resume ≠ 2 → f.nlev ≠ 0 → c.loop.start = f.word 0x2E0 ∧ c.loop.offset = f.offset ∧ c.loop.bodyLen = f.lev 0 5 + 1 ∧
            c.loop.replay = [] ∧ c.loop.levels.length = f.nlev ∧
            ∀ l, l < f.nlev → ∃ x : LoopLevel, c.loop.levels[l]? = some x ∧ x.left = f.levWord l 0 ∧ x.first = f.lev l 4 ∧ x.last = f.lev l 5 ∧
              x.modulo = decide (f.lev l 6 / 2 % 2 = 1) ∧ x.handler = decide (f.lev l 6 / 4 % 2 = 1) ∧ x.stages = f.lev l 7 ∧ x.ii = f.lev l 8 ∧
              x.inc0.toNat = f.lev l 9 % 16 ∧ x.inc1.toNat = f.lev l 9 / 16 % 16 ∧ x.ldi = f.lev l 10 ∧ x.pass = f.levWord l 12 ∧
              ∀ d, w2.loopDesc x.handler x.ldi = some (some d) → x.amt0 = descWord d (16 * l + 24) ∧ x.amt1 = descWord d (16 * l + 28)) ∧
          (isClassS f.code = true → f.resume = 1 → c.micro = some .empty) ∧
          (isClassS f.code = true → f.resume = 0 → ∃ x, c.micro = some (.slot f.slot (f.word 0x40) (field (f.word 0x48) 0 32) x
            ((List.range 4).map fun k => lineOf (f.head.drop (0x80 + 128 * k) |>.take 128)))) ∧
          (isClassS f.code = false → w2.me.trapMicro = none → f.resume ≤ 1 →
            c.micro = if f.resume = 1 ∧ isClassF f.code = false then some .skip else none) ∧
          c.inflight.length = w2.me.inflight.length + f.ninfl ∧
          ∀ k, k < f.ninfl → ∃ g, c.inflight[w2.me.inflight.length + k]? = some g ∧ g.land = u + (field (f.infl k).1 40 8).toNat ∧
            g.reg = (field (f.infl k).1 16 8).toNat ∧ g.kind.code = (field (f.infl k).1 24 8).toNat ∧ g.flags = field (f.infl k).1 0 8 ∧
            g.xtra = (f.infl k).2.1 ∧ g.value = (f.infl k).2.2
        (f.code ≠ 0x30 → ∃ t, exec .rft s = .next t ∧ t.mem = applyLog s.mem w2.log ∧ restored t.work.me) ∧
        (f.code = 0x30 → ∀ i, w2.inst? w2.me.inst = some i → i.st = .running →
          -- this rill has returned; does another of the instance still owe a return?
          let owes (r : Rill) : Prop := (r.gotBudget = true ∧ ¬(r.core = s.focus.core ∧ r.ctx = s.focus.ctx ∧ r.ended = false)) ∨
            (r.ended = false ∧ HeldEvent.budget ∈ (w2.ctx r.core r.ctx).held)
          let last := i.budgetSent = true ∧ i.counter = 0 ∧ ∀ r ∈ i.rills, ¬owes r
          ∃ t, exec .rft s = .next t ∧
            (¬last → t.mem = applyLog s.mem w2.log ∧ restored t.work.me ∧ ∃ j, t.work.inst? i.id = some j ∧ j.st = .running ∧
              ∀ r ∈ j.rills, r.core = s.focus.core → r.ctx = s.focus.ctx → r.ended = false → r.gotBudget = false) ∧
            (last → ∃ j, t.work.inst? i.id = some j ∧ j.st = .killed))))) ∧
    -- ... as the bundle then moves on: no rule lets it return
    ∀ (w : Work) (r : TrapRec) (w3 : Work), w.focus.trap = some r → w.focus.ending = false → w.focus.redirect = none →
      w.finishBundle w.me.inst true = w.finishBundle w.me.inst false ∧
      ((w.awaitInterlocked fun _ => true).frameBusy = (some true, w3) → w.enterSlotTrap r = w3.trap2)

/-! ## Steps -/

/-- A step performs what stands first, and a running helper core's instruction at its turn; then contexts whose waits are over become ready. The
order of the steps is the model's choice (log entry 35), and so is that a step which would reach past L2 at a stack whose traffic is held (R18) stands again
in the next cycle (log entry 97); without power and without an input nothing can happen. -/
def Obligations.StepPerformsPending : Prop :=
  ∀ (s : State) (rest : List Todo),
    (∀ t, s.pending = t :: rest →
      let o := exec t.instr (lift (fun w => w.aim t.core t.ctx) { s with pending := rest })
      (s.work.noneHeld = true → step s = andThen o fun t => .next (wake t)) ∧
      ∀ u, o = .next u → s.work.noneHeld = false →
        (u.focus.heldRead = false → u.focus.heldWrite = false → step s = .next (wake u)) ∧
        (u.focus.heldRead = true ∨ u.focus.heldWrite = true → step s = .next (wake { s with pending := rest, postponed := s.postponed ++ [t] }))) ∧
    (∀ (n : Nat) (o : Bool) (more : List Agent) (i : Inst), s.pending = [] → s.power = true → s.turn = (if o then .outfall n else .intake n) :: more →
      (s.work.helper n o).st = .running → s.work.inst? (s.work.helper n o).inst = some i → i.st = .running →
      ∀ t, exec (s.work.helperFetch n o) (lift (fun w => w.aim n o.toNat) { s with turn := more }) = .next t →
        s.work.noneHeld = true ∨ t.focus.heldRead = false ∧ t.focus.heldWrite = false → step s = .next (wake t)) ∧
    (s.pending = [] → s.power = false → s.inputs = [] → step s = .fault .poweredOff)

/-- R80 to R86: fetching. A code address that names the start of a literal code word of a well-formed packet gives the bundle that stands there, a
dictionary word its entry, and an idle run an empty bundle; a dictionary index past the image's count and a reserved code word take ILLCODE, an entry that
could not be loaded CODEECC or FETCH; a run position that the code word does not have is BADTARGET. A place where no code word starts takes ILLCODE, or
BADTARGET as a target; that a malformed packet takes ILLCODE also at a target whose halfword begins no code word is the model's choice (log entry 68). Then
what a packet is: where its code words begin, which is malformed, what each stands for, and which bundle follows: the next code word of the packet, past an
END the place behind the last one, which no bundle can stand at, else the first code word of the next packet (the packet's first byte where it has none, the
model's choice, log entry 120). -/
def Obligations.FetchReadsCodeWords : Prop :=
  (∀ (w w1 w2 : Work) (pc next : Word) (target : Bool) (p : BitVec 512),
    pc.getLsbD 0 = false → 2 ≤ halfOf pc → w.fetchPacket (packetOf pc) = (.ok p, w1) →
    (packetMalformed p = true → w.fetchAt pc target = (.error ⟨0x0A, pc, 0⟩, w1)) ∧
    (packetMalformed p = false → packetStart p (halfOf pc) = false →
      w.fetchAt pc target = (.error ⟨if target then 0x0B else 0x0A, pc, 0⟩, w1)) ∧
    (packetMalformed p = false → packetStart p (halfOf pc) = true → w1.successor (packetOf pc) p (halfOf pc) = (next, w2) →
      (∀ b, codeWordAt p (halfOf pc) = .literal b →
        w.fetchAt pc target = if runPos pc = 0 then (.ok ⟨pc, b, false, some next⟩, w2) else (.error ⟨0x0B, pc, 0⟩, w1)) ∧
      (∀ j, codeWordAt p (halfOf pc) = .dictionary j → runPos pc = 0 → ∀ d, w1.here.dict = some d →
        (∀ b, d.bundles[j]? = some (.ok b) → w.fetchAt pc target = (.ok ⟨pc, b, false, some next⟩, w2)) ∧
        (d.bundles[j]? = some (.bad 0) → w.fetchAt pc target = (.error ⟨0x09, pc, 0⟩, w1)) ∧
        (∀ r, r ≠ 0 → d.bundles[j]? = some (.bad r) → w.fetchAt pc target = (.error ⟨0x08, pc, r⟩, w1)) ∧
        (d.bundles.length ≤ j → w.fetchAt pc target = (.error ⟨0x0A, pc, 0⟩, w1))) ∧
      (codeWordAt p (halfOf pc) = .reservedWord → runPos pc = 0 → w.fetchAt pc target = (.error ⟨0x0A, pc, 0⟩, w1)) ∧
      (runPos pc ≠ 0 → (∀ n, codeWordAt p (halfOf pc) ≠ .idle n) → w.fetchAt pc target = (.error ⟨0x0B, pc, 0⟩, w1)) ∧
      (∀ n, codeWordAt p (halfOf pc) = .idle n →
        (runPos pc ≤ n.toNat → w.fetchAt pc target = if runPos pc < n.toNat then (.ok ⟨pc, 0, true, some (withRun pc (runPos pc + 1))⟩, w1)
          else (.ok ⟨pc, 0, true, some next⟩, w2)) ∧
        (n.toNat < runPos pc → w.fetchAt pc target = (.error ⟨0x0B, pc, 0⟩, w1))))) ∧
  -- targets that R84 rules out, and the place behind an END
  (∀ (w : Work) (pc : Word), (pc.getLsbD 0 = true ∨ halfOf pc < 2 → w.fetchAt pc true = (.error ⟨0x0B, pc, 0⟩, w)) ∧
    (pc.getLsbD 0 = true → runPos pc = 0 → w.fetchAt pc false = (.error ⟨0x0A, pc &&& ~~~1#64, 0⟩, w))) ∧
  -- packets
  (∀ (p : BitVec 512) (h : Nat),
    let half : BitVec 16 := field p (16 * h) 16
    let literal (k : Nat) : Prop := packetStart p k = true ∧ field p (16 * k) 16 = 0xFFFF#16
    (packetStart p h = true ↔ 2 ≤ h ∧ h ≤ 31 ∧ p.getLsbD (h - 2) = true) ∧
    (packetEnd p = true ↔ p.getLsbD 30 = true) ∧
    (packetMalformed p = true ↔ p.getLsbD 31 = true ∨ field p 0 30 = 0#30 ∨
      ∃ k, literal k ∧ (31 < k + 24 ∨ ∃ j, k < j ∧ j ≤ k + 24 ∧ packetStart p j = true)) ∧
    (half.toNat < 0x1000 → codeWordAt p h = .dictionary half.toNat) ∧
    (0x1000 ≤ half.toNat → half.toNat < 0x1100 → codeWordAt p h = .idle (field half 0 8)) ∧
    (half = 0xFFFF#16 → codeWordAt p h = .literal (field p (16 * (h + 1)) 384)) ∧
    (0x1100 ≤ half.toNat → half ≠ 0xFFFF#16 → codeWordAt p h = .reservedWord) ∧
    ∀ k, packetNext p h = some k ↔ h < k ∧ packetStart p k = true ∧ ∀ j, h < j → j < k → packetStart p j = false) ∧
  -- the bundle that follows
  ∀ (w w1 : Work) (pkt : Word) (p : BitVec 512) (h : Nat),
    (∀ k, packetNext p h = some k → w.successor pkt p h = (pkt + BitVec.ofNat 64 (2 * k), w)) ∧
    (packetNext p h = none → packetEnd p = true → packetStart p h = true →
      w.successor pkt p h = ((pkt + BitVec.ofNat 64 (2 * (h + if field p (16 * h) 16 = 0xFFFF#16 then 25 else 1))) ||| 1#64, w)) ∧
    (packetNext p h = none → packetEnd p = false →
      (∀ q, w.fetchPacket (pkt + 64#64) = (.ok q, w1) →
        (packetMalformed q = false → ∃ k, packetStart q k = true ∧ (∀ j, j < k → packetStart q j = false) ∧
          w.successor pkt p h = (pkt + 64#64 + BitVec.ofNat 64 (2 * k), w1)) ∧
        (packetMalformed q = true → w.successor pkt p h = (pkt + 64#64, w1))) ∧
      ∀ e, w.fetchPacket (pkt + 64#64) = (.error e, w1) → w.successor pkt p h = (pkt + 64#64, w1)) ∧
    ∀ pc : Word, w.addrAfter pc 0 = (pc, w) ∧ (∀ n a v, w.following pc = (a, v) → w.addrAfter pc (n + 1) = v.addrAfter a n) ∧
      (pc.getLsbD 0 = true → w.following pc = (pc, w)) ∧
      (pc.getLsbD 0 = false → 2 ≤ halfOf pc → w.fetchPacket (packetOf pc) = (.ok p, w1) → packetMalformed p = false → packetStart p (halfOf pc) = true →
        w.following pc = match codeWordAt p (halfOf pc) with
          | .idle n => if runPos pc < n.toNat then (withRun pc (runPos pc + 1), w1) else w1.successor (packetOf pc) p (halfOf pc)
          | _ => w1.successor (packetOf pc) p (halfOf pc))

/-- R54, R65, R89, R90: the slots of a bundle. A slot that is not surrendered and holds is the instruction its class's decoder reads from its word and,
where the next slot is surrendered to it, the immediate word there; one whose guard, qualifier or stage does not hold is nothing. R61, R57 to R69: a
presented bundle stalls, or takes the first of ILLBUNDLE, ILLOP, DSLOT, LOOPSEQ, STALLSHORT, WRCLASH and DBLBR that applies, or is run; each check is
stated with what makes a slot take it, and the trap is taken before the bundle issues. The model's choices in it: SLOT of a trap that names no slot
(log entry 71); two XFMAs are slot s6's ILLOP (log entry 70); a fetch from a stack whose traffic is held waits in place (heldRead, log entry 97); an
increment of a loop is no write that clashes (gBase, log entry 101); INFO of a BADTARGET that no branch led to is 0 (log entry 76); a level whose range does
not hold the bundle counts as active (log entry 102). -/
def Obligations.SlotsAreDecoded : Prop :=
  (∀ (w : Work) (b : Bundle),
    (∀ k, k < 10 → (hdrSurr b k = false ↔ ∃ v ∈ w.slotViews b, v.n = k)) ∧
    ∀ v ∈ w.slotViews b,
      v.word = field b (64 + 32 * v.n) 32 ∧
      v.ext = (if v.n < 9 ∧ hdrSurr b (v.n + 1) = true then some (field b (64 + 32 * (v.n + 1)) 32) else none) ∧
      (v.held = true → v.instr = decodeSlot (slotClass v.n) v.word v.ext) ∧ (v.held = false → v.instr = none) ∧
      (v.held = true ↔
        -- the guard: none, PA or PB of the header
        (field v.word 30 2 = 0#2 ∨ (field v.word 30 2 = 1#2 ∧ w.me.pReg (field b 23 1 ++ field b 19 3) ≠ b.getLsbD 22) ∨
          (field v.word 30 2 = 2#2 ∧ w.me.pReg (field b 28 1 ++ field b 24 3) ≠ b.getLsbD 27)) ∧
        -- the first/last mode and its level
        (field b 14 2 = 0#2 ∨ ∀ l : LoopLevel, w.me.loop.levels[(field b 16 3).toNat]? = some l → l.first ≤ w.me.loop.offset ∧ w.me.loop.offset ≤ l.last ∧
          if field b 14 2 = 1#2 then l.left ≠ 0 ∧ l.left = (if l.modulo = true ∧ l.total ≠ 0 then l.total + l.stages - 1 else l.total) else l.left = 1) ∧
        -- the slot's stage, in the range of a modulo level: of pass p it executes for iteration p - s
        ∀ l : LoopLevel, w.me.loop.levels.getLast? = some l → l.modulo = true → l.first ≤ w.me.loop.offset → w.me.loop.offset ≤ l.last →
          (field b (29 + 2 * v.n) 2).toNat ≤ l.pass ∧ l.pass < (field b (29 + 2 * v.n) 2).toNat + l.total)) ∧
  (∀ (w : Work) (b : Bundle),
    let vs := w.slotViews b
    let levels := w.me.loop.levels
    let handler := decide (w.frameBusy.1 = some true)
    -- some slot not above slot n reports cause x
    let traps (n x : Nat) : Prop := ∃ k t, k ≤ n ∧ w.issueCheck b vs = some ⟨k, t⟩ ∧ t.code = x
    let slots (P : SlotView → Instr → Prop) : Prop := ∀ v ∈ vs, ∀ i, v.instr = some i → P v i
    let loops (i : Instr) (l c : BitVec 6) (m : Bool) : Prop := (i = .loop l c ∧ m = false) ∨ (i = .loopm l c ∧ m = true)
    -- ILLBUNDLE
    (field b 49 15 ≠ 0#15 ∨ b.getLsbD 4 = true ∨
        (∃ k, k < 9 ∧ b.getLsbD (5 + k) = true ∧ (b.getLsbD (4 + k) = true ∨ field b (31 + 2 * k) 2 ≠ 0#2)) ∨
        (levels = [] ∧ ∃ k, k < 10 ∧ field b (29 + 2 * k) 2 ≠ 0#2) ∨
        (∃ l k, w.moduloLevel = some l ∧ k < 10 ∧ l.stages ≤ (field b (29 + 2 * k) 2).toNat) ∨
        field b 14 2 = 3#2 ∨ (field b 14 2 ≠ 0#2 ∧ levels.length ≤ (field b 16 3).toNat) →
      w.issueCheck b vs = some ⟨15, { code := 0x01 }⟩) ∧
    (w.illBundle b = false →
      -- ILLOP
      (∀ v ∈ vs, (field v.word 30 2 = 3#2 ∨ v.held = true ∧ ¬(field v.word 23 7 = 0#7 ∧ v.ext = none) ∧ v.instr = none) → traps v.n 0x02) ∧
      slots (fun v i => ¬(field v.word 23 7 = 0#7 ∧ v.ext = none) →
        ((∃ k, Work.gate i = some k ∧ (w.part w.myPart).hasFeat k = false) ∨
          ((v.n = 7 ∨ v.n = 8 ∨ ∃ d, i = .mstat d ∨ i = .mstatClr d) ∧ w.ownsHere = false) ∨
          (v.n = 6 ∧ (∃ a c m, i = .xfma a c m) ∧ ∃ u ∈ vs, u.n = 5 ∧ ∃ a c m, u.instr = some (.xfma a c m)) ∨
          (∃ a, i = .mtsr a 8 ∧ 5 ≤ (w.me.sReg a).toNat % 8) ∨
          (∃ a x, i = .vwait a x ∧ 16 ≤ (w.me.sReg x).toNat) ∨
          (∃ x, i = .mpushV x ∧ x.toNat % 2 = 1 ∧ (w.here.arr.mode = 1#3 ∨ w.here.arr.mode = 2#3 ∨ w.here.arr.mode = 3#3)) ∨
          (∃ t n k c, i = .mshift 1#1 t n k c ∧ w.here.arr.mode ≠ 5#3) ∨
          (∃ l c m, loops i l c m ∧ (w.loopDesc handler l.toNat = none ∨
            ∃ d, w.loopDesc handler l.toNat = some (some d) ∧ (loopIllOp d m c = true ∨ loopIdleC d c = true)))) → traps v.n 0x02) ∧
      ((∀ v ∈ vs, w.slotIll vs v = false) →
        -- DSLOT
        (w.me.brPend = true → ∀ v ∈ vs,
          (v.n = 0 ∧ (field v.word 23 7).toNat ∈ [1, 2, 3, 4, 5, 8, 9, 0xA, 0x10, 0x18, 0x19]) ∨
            (v.n = 1 ∧ (field v.word 23 7).toNat ∈ [0x70, 0x71, 0x72, 0x73]) ∨ (v.n = 9 ∧ field v.word 23 7 = 0x28#7) → traps v.n 0x03) ∧
        ((w.me.brPend = true → ∀ v ∈ vs, Work.noDelay v = false) →
          -- LOOPSEQ
          slots (fun v i =>
            ((levels ≠ [] ∧ (Work.isBranch i = true ∨ i = .rft ∨ ∃ l c m, loops i l c m)) ∨
              (∃ l c m d, loops i l c m ∧ w.loopDesc handler l.toNat = some (some d) ∧ loopBadShape d = true) ∨
              (∃ l, i = .lexit l ∧ levels.length ≤ l.toNat)) → traps v.n 0x04) ∧
          (slots (fun _ i => w.loopSeqBad i = false) →
            (w.focus.chk = false → w.issueCheck b vs = none) ∧
            (w.focus.chk = true →
              -- STALLSHORT
              slots (fun v i => ∀ r,
                r ∈ sources w i ∨ ((field v.word 30 2 = 1#2 ∨ field v.word 30 2 = 2#2) ∧ r = .p (guardReg (guardOf b (field v.word 30 2)))) →
                (∃ f ∈ w.me.inflight, f.interlocked = false ∧ w.cycle < f.land ∧ r.hit f = true) → traps v.n 0x05) ∧
              (slots (fun v i => w.stallShort b v i = none) →
                -- WRCLASH
                slots (fun v i => ∀ d ∈ dests i, d.reg ≠ .s 0#6 → d.reg ≠ .p 0#4 → d.reg ≠ .x →
                  ((∃ f ∈ w.me.inflight, f.interlocked = false ∧ f.land = w.cycle + d.lat ∧ f.kind ≠ .gBase ∧ d.reg.hit f = true) ∨
                    ∃ u ∈ vs, ∃ j, u.n < v.n ∧ u.instr = some j ∧ ∃ e ∈ dests j, e.reg = d.reg ∧ e.lat = d.lat) → traps v.n 0x06) ∧
                (slots (fun v i => w.wrClash ((vs.filter fun u => decide (u.n < v.n)).filterMap (·.instr)) i = none) →
                  -- DBLBR
                  let two : Prop := ∃ u ∈ vs, ∃ v ∈ vs, u.n ≠ v.n ∧ u.instr.any Work.isBranch = true ∧ v.instr.any Work.isBranch = true
                  (two → w.issueCheck b vs = some ⟨0, { code := 0x07 }⟩) ∧ (¬two → w.issueCheck b vs = none))))))))) ∧
  ∀ (w v : Work),
    (∀ e, w.fetchHere = (.error e, v) → v.focus.heldRead = false →
      w.prepare = (.stop, v.enterTrap ⟨{ code := e.code, addr := e.addr, info := if e.code = 0x0B then v.me.tgtFrom.getD 0 else 0, sub := e.sub },
        15, v.me.pc &&& ~~~1#64, 0, 0, []⟩)) ∧
    ∀ f, w.fetchHere = (.ok f, v) → v.focus.heldRead = false → v.me.micro ≠ some .skip →
      let b := f.bundle
      let x := (v.modMe fun c => { c with
        pc := f.addr
        loop := if c.loop.levels.isEmpty then c.loop else { c.loop with replay := Tab.set c.loop.replay c.loop.offset f } }).modFocus
          fun g => { g with nextAddr := f.next, hdr := field b 0 64 }
      let vs := x.slotViews b
      let stall := (field b 0 4).toNat
      (stall ≠ 0 → x.me.stalled = false →
        w.prepare = (.stop, x.modMe fun c => { c with stalled := true, notBefore := x.cycle + stall })) ∧
      (stall = 0 ∨ x.me.stalled = true →
        (x.cycle < x.stallsUntil b vs → w.prepare = (.stop, x.modMe fun c => { c with stalled := true, notBefore := x.stallsUntil b vs })) ∧
        (x.stallsUntil b vs ≤ x.cycle →
          (x.poisonedLoop vs = true → w.prepare = (.stop, x.enterTrap (x.siteAt { code := 0x09, addr := x.me.pc } 15 0 0))) ∧
          (x.poisonedLoop vs = false →
            (x.issueCheck b vs = none → w.prepare = (.bundle b f.isIdle vs, x)) ∧
            ∀ t, x.issueCheck b vs = some t →
              let y : Work := { x with freeNext := if t.trap.code = 0x05 then x.freeNext + 1 else x.freeNext }
              ∃ slotw : Word, w.prepare = (.stop, y.enterTrap (y.siteAt t.trap t.slot (field b 0 64) slotw)) ∧
                (∀ u ∈ vs, u.n = t.slot → slotw = u.ext.getD 0 ++ u.word) ∧ ((∀ u ∈ vs, u.n ≠ t.slot) → slotw = 0))))

/-- A step at a core's turn presents the bundle at the program counter: one that stalls or traps before issue is done with; one that issues runs its
slots in order, each by exec, and then moves on. For a bundle of one instruction that step is exec of it, between the numbering of the bundle and
the move to the next one. Several slots run one after the other, while their instance lives. A core whose current context is not ready, or blocked in the
cycle before while another context was ready, switches (R28). The model's choices in it: the order in which a bundle's slots run (log entry 66), and that a
turn which would reach past L2 at a stack whose traffic is held has no effect and stands in place (R18, log entry 97). -/
def Obligations.StepRunsDecoded : Prop :=
  (∀ (s s1 : State) (n : Nat) (rest : List Agent),
    let c := s.work.core n
    let x := s.work.ctx n c.cur
    let s0 : State := { s with turn := rest }
    s.pending = [] → s.power = true → s.turn = .core n :: rest → c.switching = none → c.stallUntil ≤ s.cycle →
    x.st = .ready → x.blockedAt + 1 ≠ s.cycle → x.readyAt < s.cycle → x.notBefore ≤ s.cycle → x.resumed = false → x.held = [] → x.micro = none →
    ((lift (fun w => w.aim n c.cur) s0).ask Work.prepare = (.stop, s1) →
      s.work.noneHeld = true ∨ s1.focus.heldRead = false ∧ s1.focus.heldWrite = false → step s = .next (wake s1)) ∧
    ∀ (b : Bundle) (idle : Bool) (vs : List SlotView), (lift (fun w => w.aim n c.cur) s0).ask Work.prepare = (.bundle b idle vs, s1) →
      vs = s1.work.slotViews b ∧
      (∀ t, runBundle b idle vs s1 = .next t → s.work.noneHeld = true ∨ t.focus.heldRead = false ∧ t.focus.heldWrite = false →
        step s = .next (wake t)) ∧
      (∀ t, runBundle b idle vs s1 = .next t → s.work.noneHeld = false → t.focus.heldRead = true ∨ t.focus.heldWrite = true → step s = .next (wake s0)) ∧
      ∀ v i, inOrder vs = [(v, i)] → idle = false → mayBlock i = false → v.n ≠ 0 → s1.work.ownsHere = false → s.work.noneHeld = true →
        let start := lift (fun w => (w.beginIssue false).modFocus fun g => { g with
          hdr := field b 0 64, ending := i == .endRill, direct := Work.directMaccs i,
          slot := v.n, slotWord := v.word, ext := v.ext, admitted := v.n == 9, bundle := true }) s1
        ∀ t, exec i start = .next t →
          step s = .next (wake (lift (fun w => w.finishBundle s1.work.me.inst (i == .rft)) t))) ∧
  -- a core that leaves its current context
  (∀ (s : State) (n m : Nat) (rest : List Agent),
    let c := s.work.core n
    let x := s.work.ctx n c.cur
    s.pending = [] → s.power = true → s.turn = .core n :: rest → c.switching = none → c.stallUntil ≤ s.cycle →
    s.work.nextCtx n = some m → x.st ≠ .ready ∨ x.blockedAt + 1 = s.cycle ∧ m ≠ c.cur →
    ∃ t, step s = .next t ∧ (t.work.core n).cur = m ∧ (t.work.core n).switching = none ∧ t.mem = s.mem) ∧
  ∀ (id : Nat) (v : SlotView) (i : Instr) (more : List (SlotView × Instr)) (s : State),
    (s.work.me.inst ≠ id → runSlots id ((v, i) :: more) s = .next s) ∧
    (s.work.me.inst = id →
      ∀ t, exec i (onFocus s fun g => { g with slot := v.n, slotWord := v.word, ext := v.ext, admitted := v.n == 9, bundle := true }) = .next t →
        runSlots id ((v, i) :: more) s = runSlots id more t) ∧
    ∀ vs : List SlotView, ∀ x ∈ inOrder vs, ∃ u ∈ vs, u.n = x.1.n ∧ u.instr = some x.2

/-! ## Vectors -/

/-- R467, R468, R72, R108: element-wise operations on integer types, element by element: an active one takes the operation's result on its own bits,
an inactive one keeps the destination's. No flag is set. That an inactive element keeps the value the destination has at ISSUE is the model's choice
(log entry 18): R467, R466 and R72 say only that it writes nothing. -/
def Obligations.IntegerLanes : Prop :=
  ∀ (s : State) (d a b : BitVec 5) (e : BitVec 1) (q : BitVec 3) (t : BitVec 4), t.toNat < 8 →
    let n := typeBytes t
    let w := 8 * n
    let x (j : Nat) : BitVec w := field (vOp s 0 a) (w * j) w
    let y (j : Nat) : BitVec w := field (vOp s 1 b) (w * j) w
    let z (j : Nat) : BitVec w := field (vOp s (2 + e.toNat) d) (w * j) w
    let lanes (i : Instr) (lat k : Nat) (f : Nat → BitVec w) : Prop := produces s i .vReg d.toNat lat fun v fl => fl = 0 ∧
      ∀ j, j < 128 / n → field v (w * j) w = if isActive s k e q n j then f j else field (s.work.me.vReg d) (w * j) w
    let signed := t.getLsbD 0 = false
    lanes (.vadd d a b e q t) 2 2 (fun j => x j + y j) ∧ lanes (.vsub d a b e q t) 2 2 (fun j => x j - y j) ∧
    lanes (.vmul d a b e q t) 4 2 (fun j => x j * y j) ∧ lanes (.vfma d a b e q t) 4 2 (fun j => x j * y j + z j) ∧
    lanes (.vmin d a b e q t) 2 2 (fun j => if (if signed then decide ((x j).toInt ≤ (y j).toInt) else decide (x j ≤ y j)) then x j else y j) ∧
    lanes (.vmax d a b e q t) 2 2 (fun j => if (if signed then decide ((x j).toInt ≤ (y j).toInt) else decide (x j ≤ y j)) then y j else x j) ∧
    lanes (.vabs d a e q t) 2 1 (fun j => if signed ∧ (x j).msb then - x j else x j) ∧ lanes (.vneg d a e q t) 2 1 (fun j => - x j) ∧
    lanes (.vand d a b e q t) 2 2 (fun j => x j &&& y j) ∧ lanes (.vor d a b e q t) 2 2 (fun j => x j ||| y j) ∧
    lanes (.vxor d a b e q t) 2 2 (fun j => x j ^^^ y j) ∧
    lanes (.vshl d a b e q t) 2 2 (fun j => x j <<< ((y j).toNat % w)) ∧
    lanes (.vshr d a b e q t) 2 2 (fun j => if signed then (x j).sshiftRight ((y j).toNat % w) else x j >>> ((y j).toNat % w))

/-- R467, R109 to R111: the same on floating-point types. Each active element is the operation of its format, rounded once in the mode that Q or KRND
selects; the flags are those of the active elements together. With the stochastic mode the values come from draws, and the operation completes. An inactive
element keeps the value the destination has at issue: the model's choice (log entry 18). -/
def Obligations.FloatLanes : Prop :=
  ∀ (s : State) (d a b : BitVec 5) (e : BitVec 1) (q : BitVec 3) (t : BitVec 4), 8 ≤ t.toNat → t.toNat ≤ 13 →
    let n := typeBytes t
    let w := 8 * n
    let F := fmtOf t
    let rm := rmOf (s.work.rmV e q) 0
    let x (j : Nat) : Nat := (field (vOp s 0 a) (w * j) w).toNat
    let y (j : Nat) : Nat := (field (vOp s 1 b) (w * j) w).toNat
    let z (j : Nat) : Nat := (field (vOp s (2 + e.toNat) d) (w * j) w).toNat
    let lanes (i : Instr) (lat k : Nat) (exact : Bool) (f : Nat → Rounded) : Prop := produces s i .vReg d.toNat lat fun v fl =>
      exact = true ∨ s.work.rmV e q ≠ 4 →
        (∀ j, j < 128 / n → (field v (w * j) w).toNat =
          if isActive s k e q n j then (f j).bits % 2 ^ w else (field (s.work.me.vReg d) (w * j) w).toNat) ∧
        ∀ c, c < 8 → (fl.getLsbD c = true ↔ ∃ j, j < 128 / n ∧ isActive s k e q n j = true ∧ (f j).flags.getLsbD c = true)
    lanes (.vadd d a b e q t) 2 2 false (fun j => F.add rm (x j) (y j)) ∧ lanes (.vsub d a b e q t) 2 2 false (fun j => F.sub rm (x j) (y j)) ∧
    lanes (.vmul d a b e q t) 4 2 false (fun j => F.mul rm (x j) (y j)) ∧ lanes (.vfma d a b e q t) 4 2 false (fun j => F.fma rm (x j) (y j) (z j)) ∧
    lanes (.vmin d a b e q t) 2 2 true (fun j => F.minMax false (x j) (y j)) ∧ lanes (.vmax d a b e q t) 2 2 true (fun j => F.minMax true (x j) (y j)) ∧
    lanes (.vabs d a e q t) 2 1 true (fun j => F.absNeg false (x j)) ∧ lanes (.vneg d a e q t) 2 1 true (fun j => F.absNeg true (x j)) ∧
    lanes (.vand d a b e q t) 2 2 true (fun j => ⟨x j &&& y j, 0⟩) ∧ lanes (.vor d a b e q t) 2 2 true (fun j => ⟨x j ||| y j, 0⟩) ∧
    lanes (.vxor d a b e q t) 2 2 true (fun j => ⟨x j ^^^ y j, 0⟩) ∧
    (∀ f : BitVec 3, f.toNat < 5 → lanes (.vfn d a f e q t) 10 1 false (fun j => fnElem f F rm (x j))) ∧
    lanes (.vfn d a 5 e q t) 10 1 true (fun j => fnElem 5 F .even (x j))

/-- R468, R469, R452: compare, select, permute, broadcast, single elements, mask logic. A compare sets all bits of an active element's bytes and
leaves the others. What an inactive element leaves is the destination's value at issue: the model's choice (log entry 18). -/
def Obligations.VectorMoves : Prop :=
  ∀ (s : State) (d a b : BitVec 5) (e : BitVec 1) (q : BitVec 3) (t : BitVec 4), t.toNat ≤ 13 →
    let n := typeBytes t
    let x (j : Nat) : BitVec (8 * n) := field (vOp s 0 a) (8 * n * j) (8 * n)
    let y (j : Nat) : BitVec (8 * n) := field (vOp s 1 b) (8 * n * j) (8 * n)
    let mask (k : Nat) (act : Nat → Bool) (f : Nat → Bool) (old v : BitVec 128) : Prop := ∀ j, j < 128 / k → ∀ i, i < k →
      v.getLsbD (k * j + i) = if act j then f j else old.getLsbD (k * j + i)
    (∀ (cc : BitVec 2) (p : BitVec 3), produces s (.vcmp cc p a b e q t) .qReg p.toNat 2 fun v fl =>
      mask n (isActive s 2 e q n) (fun j =>
        if t.toNat < 8 then
          let lt := if t.getLsbD 0 then decide ((x j).toNat < (y j).toNat) else decide ((x j).toInt < (y j).toInt)
          if cc = 0 then decide (x j = y j) else if cc = 1 then decide (x j ≠ y j) else if cc = 2 then lt else lt || decide (x j = y j)
        else compareFp cc ((fmtOf t).value (x j).toNat) ((fmtOf t).value (y j).toNat)) (s.work.me.qReg p) (field v 0 128) ∧
      (t.toNat < 8 → fl = 0)) ∧
    produces s (.vsel d a b q t) .vReg d.toNat 2 (fun v fl => fl = 0 ∧
      ∀ j, j < 128 / n → field v (8 * n * j) (8 * n) = if (s.work.rdQ 2 q).getLsbD (n * j) then x j else y j) ∧
    ∀ (w : BitVec 2) (r : BitVec 6) (m : Imm 9) (i : BitVec 7) (c f g : BitVec 3),
      let k := 2 ^ w.toNat
      let u (l : Line) (j : Nat) : BitVec (8 * k) := field l (8 * k * j) (8 * k)
      produces s (.vperm d a b e q w) .vReg d.toNat 3 (fun v fl => fl = 0 ∧ ∀ j, j < 128 / k → u v j =
        if isActive s 2 e q k j then (if (u (vOp s 1 b) j).toNat < 128 / k then u (vOp s 0 a) (u (vOp s 1 b) j).toNat else 0)
        else u (s.work.me.vReg d) j) ∧
      produces s (.vbcst d r w) .vReg d.toNat 3 (fun v fl => fl = 0 ∧ ∀ j, j < 128 / k → u v j = (sOp s 0 r).setWidth (8 * k)) ∧
      produces s (.vbcstI d w m) .vReg d.toNat 3 (fun v fl => fl = 0 ∧ ∀ j, j < 128 / k → u v j = m.value.setWidth (8 * k)) ∧
      (i.toNat < 128 / k →
        exec (.vget r a w i 1) s = .next (sResult s r ((u (vOp s 0 a) i.toNat).setWidth 64) 3) ∧
        exec (.vget r a w i 0) s = .next (sResult s r ((u (vOp s 0 a) i.toNat).signExtend 64) 3) ∧
        produces s (.vput d r w i) .vReg d.toNat 3 fun v fl => fl = 0 ∧ ∀ j, j < 128 / k → u v j =
          if j = i.toNat then (sOp s 0 r).setWidth (8 * k) else u (vOp s 1 d) j) ∧
      let p := s.work.rdQ 0 f
      let r := s.work.rdQ 1 g
      exec (.qlog c f g 0) s = .next (qResult s c (p &&& r) 2) ∧ exec (.qlog c f g 1) s = .next (qResult s c (p ||| r) 2) ∧
      exec (.qlog c f g 2) s = .next (qResult s c (p ^^^ r) 2) ∧ exec (.qlog c f g 3) s = .next (qResult s c (p &&& ~~~r) 2) ∧
      exec (.qlog c f 0 4) s = .next (qResult s c (~~~p) 2)

/-- R470, R472, R473, R477: conversions, MX blocks, reductions and dot products. Integer results as arithmetic on the elements; floating-point ones as
the format's operations in the order the rules give. A stochastic mode draws, and the operation completes. Model's choices, no rule's words: an
inactive element keeps the destination's value at issue (log entry 18); which conversions round, and so may draw, is read off R121 (14); NX beside SAT and
OF for a clamped element of VQNT (52); no flag for a signalling NaN that it reads (103); the most negative code under the scale 0xFE is −∞ without a flag
in VDQ (140). -/
def Obligations.VectorConversions : Prop :=
  ∀ (s : State) (d a b : BitVec 5) (h e : BitVec 1) (q : BitVec 3) (t u : BitVec 4), t.toNat ≤ 13 → u.toNat ≤ 13 →
    let n := typeBytes t
    let w := 8 * n
    let x (j : Nat) : BitVec w := field (vOp s 0 a) (w * j) w
    let y (j : Nat) : BitVec w := field (vOp s 1 b) (w * j) w
    let num (v : BitVec w) : Int := if t.getLsbD 0 then v.toNat else v.toInt
    let flagged (fl : Flags) (P : Nat → Prop) : Prop := ∀ c, c < 8 → (fl.getLsbD c = true ↔ P c)
    -- vcvt: the elements that the wider type leaves room for, the upper half of the source for HALF
    produces s (.vcvt d a h u e q t) .vReg d.toNat 3 (fun v fl => cvtRounds t u = false ∨ s.work.rmV e q ≠ 4 →
      let m := typeBytes u
      let cnt := 128 / max n m
      (∀ j, j < cnt → (field v (8 * m * j) (8 * m)).toNat = if isActive s 1 e q m j then
          (convertElem t u (rmOf (if cvtRounds t u then s.work.rmV e q else 0) 0) (x (if h = 1 then cnt + j else j)).toNat).bits % 2 ^ (8 * m)
        else (field (s.work.me.vReg d) (8 * m * j) (8 * m)).toNat) ∧
      (∀ k, 8 * m * cnt ≤ k → k < 1024 → v.getLsbD k = (e == 1#1 && (s.work.me.vReg d).getLsbD k)) ∧
      flagged fl fun c => ∃ j, j < cnt ∧ isActive s 1 e q m j = true ∧
        (convertElem t u (rmOf (if cvtRounds t u then s.work.rmV e q else 0) 0) (x (if h = 1 then cnt + j else j)).toNat).flags.getLsbD c = true) ∧
    -- vqnt and vdq
    (∀ f : BitVec 3, f.toNat < 4 → t = 8 ∨ t = 9 ∨ t = 11 → produces s (.vqnt d a f q t) .vReg d.toNat 6 fun v fl => s.work.rmCode q ≠ 4 →
      let comp (j : Nat) : FVal := (fmtOf t).value (if t = 8 ∧ 16 ≤ j then field (vOp s 1 (a + 1)) (64 * (j - 16)) 64 else (x j).setWidth 64).toNat
      let r := quantise f.toNat ((List.range 32).map comp) (List.replicate 32 (rmOf (s.work.rmCode q) 0))
      fl = r.flags ∧ field v 512 8 = BitVec.ofNat 8 r.scale ∧ field v 520 2 = BitVec.ofBool r.sat ++ BitVec.ofBool r.rowBad ∧
      ∀ j, j < 32 → r.codes[j]? = some (mxCode f.toNat (field v 0 512).toNat j)) ∧
    (∀ f : BitVec 3, f.toNat < 6 → t = 9 ∨ t = 10 ∨ t = 11 → produces s (.vdq d a f q t) .vReg d.toNat 3 fun v fl => (t ≠ 10 → fl = 0) ∧
      (t ≠ 10 ∨ s.work.rmCode q ≠ 4 → ∀ j, j < 32 → (field v (w * j) w).toNat =
        (dequantElem f.toNat (field (vOp s 0 a) 512 8).toNat (field (vOp s 0 a) 0 512).toNat (fmtOf t) (rmOf (if t = 10 then s.work.rmCode q else 0) 0) j).bits % 2 ^ w)) ∧
    (∀ f : BitVec 3, f.toNat < 6 → produces s (.vdq d a f q 8) .vReg (d + 1).toNat 3 fun v fl => fl = 0 ∧
      ∀ j, j < 16 → (field v (64 * j) 64).toNat =
        (dequantElem f.toNat (field (vOp s 0 a) 512 8).toNat (field (vOp s 0 a) 0 512).toNat fp64 .even (16 + j)).bits % 2 ^ 64) ∧
    -- reductions: the sum modulo the width, logic, and the tree of the rule for all others
    (∀ o : BitVec 3, o.toNat < 6 → produces s (.vred d a o e q t) .vReg d.toNat 6 fun v fl => v.toNat < 2 ^ w ∧
      let els := (List.range (128 / n)).map fun j => if isActive s 1 e q n j then (x j).toNat else reduceIdentity o t
      (t.toNat < 8 → o = 0 → v.toNat = (((List.range (128 / n)).filter (isActive s 1 e q n)).map fun j => (x j).toNat).sum % 2 ^ w) ∧
      (t.toNat < 8 → o = 3 → v.toNat = (els.foldl (fun p r => p &&& r) (2 ^ w - 1)) ) ∧
      (v.toNat, fl) = (fun r => (r.1 % 2 ^ w, r.2)) (reduceTree (reduceElem o t (rmOf (evenIfStoch (s.work.rmV e q)) 0)) 7 els)) ∧
    (∀ o : BitVec 3, o.toNat < 6 → produces s (.vscan d a o e q t) .vReg d.toNat 7 fun v fl =>
      (t.toNat < 8 → o = 0 → ∀ j, j < 128 / n → (field v (w * j) w).toNat =
        (((List.range (j + 1)).filter (isActive s 1 e q n)).map fun j => (x j).toNat).sum % 2 ^ w) ∧
      let y := if isActive s 1 e q n 0 then (x 0).toNat else reduceIdentity o t
      let nan := isFp t && ((fmtOf t).value y).isNan
      (field v 0 w).toNat = (if nan then (fmtOf t).nan else y) % 2 ^ w ∧
      (nan = true → ((fmtOf t).value y).isSnan = true → fl.getLsbD 2 = true) ∧
      -- the elements past the first
      let z (j : Nat) : BitVec w := field v (w * j) w
      let act (j : Nat) : Prop := isActive s 1 e q n (j + 1) = true
      let step (j : Nat) : Rounded := (if o = 0 then (fmtOf t).add (rmOf (evenIfStoch (s.work.rmV e q)) 0) else (fmtOf t).minMax (o == 2#3))
        (z j).toNat (x (j + 1)).toNat
      (∀ j, j + 1 < 128 / n →
        (¬act j → z (j + 1) = z j) ∧
        (act j → (t.toNat < 8 → o = 0 → z (j + 1) = z j + x (j + 1)) ∧
          (t.toNat < 8 → o = 1 → num (z (j + 1)) = min (num (z j)) (num (x (j + 1)))) ∧
          (t.toNat < 8 → o = 2 → num (z (j + 1)) = max (num (z j)) (num (x (j + 1)))) ∧
          (o = 3 → z (j + 1) = z j &&& x (j + 1)) ∧ (o = 4 → z (j + 1) = z j ||| x (j + 1)) ∧ (o = 5 → z (j + 1) = z j ^^^ x (j + 1)) ∧
          (8 ≤ t.toNat → o.toNat < 3 → (z (j + 1)).toNat = (step j).bits % 2 ^ w))) ∧
      (t.toNat < 8 → fl = 0) ∧
      (8 ≤ t.toNat → o.toNat < 3 → flagged fl fun c => c = 2 ∧ nan = true ∧ ((fmtOf t).value y).isSnan = true ∨
        ∃ j, j + 1 < 128 / n ∧ act j ∧ (step j).flags.getLsbD c = true)) ∧
    -- dot products and complex products
    (t.toNat < 6 ∨ t = 9 ∨ t = 11 → produces s (.vdot d a b e q t) .vReg d.toNat 4 fun v fl => isFp t = false ∨ s.work.rmV e q ≠ 4 →
      (t.toNat < 6 → fl = 0) ∧
      (6 ≤ t.toNat → flagged fl fun c => ∃ j, j < 64 / n ∧ isActive s 2 e q (2 * n) j = true ∧
        (dotElem t (rmOf (s.work.rmV e q) 0) (x (2 * j)).toNat (y (2 * j)).toNat (x (2 * j + 1)).toNat (y (2 * j + 1)).toNat
          (field (vOp s (2 + e.toNat) d) (2 * w * j) (2 * w)).toNat).flags.getLsbD c = true) ∧
      ∀ j, j < 64 / n →
        let z := field (vOp s (2 + e.toNat) d) (2 * w * j) (2 * w)
        let r := field v (2 * w * j) (2 * w)
        (isActive s 2 e q (2 * n) j = false → r = field (s.work.me.vReg d) (2 * w * j) (2 * w)) ∧
        (isActive s 2 e q (2 * n) j = true → t.toNat < 6 → r = BitVec.ofInt (2 * w)
          (num (x (2 * j)) * num (y (2 * j)) + num (x (2 * j + 1)) * num (y (2 * j + 1))) + z) ∧
        (isActive s 2 e q (2 * n) j = true → 6 ≤ t.toNat → r.toNat = (dotElem t (rmOf (s.work.rmV e q) 0) (x (2 * j)).toNat (y (2 * j)).toNat
          (x (2 * j + 1)).toNat (y (2 * j + 1)).toNat z.toNat).bits % 2 ^ (2 * w))) ∧
    (t = 9 ∨ t = 11 → produces s (.vcmul d a b e q t) .vReg d.toNat 5 fun v fl =>
      let z (j : Nat) := complexMul (fmtOf t) (rmOf (evenIfStoch (s.work.rmV e q)) 0)
        (x (2 * j)).toNat (x (2 * j + 1)).toNat (y (2 * j)).toNat (y (2 * j + 1)).toNat
      (∀ j, j < 64 / n →
        (isActive s 2 e q (2 * n) j = true → (field v (2 * w * j) w).toNat = (z j).1.bits % 2 ^ w ∧ (field v (2 * w * j + w) w).toNat = (z j).2.bits % 2 ^ w) ∧
        (isActive s 2 e q (2 * n) j = false → field v (2 * w * j) (2 * w) = field (s.work.me.vReg d) (2 * w * j) (2 * w))) ∧
      flagged fl fun c => ∃ j, j < 64 / n ∧ isActive s 2 e q (2 * n) j = true ∧ ((z j).1.flags.getLsbD c = true ∨ (z j).2.flags.getLsbD c = true))

/-- R126, R127, R480: the exact accumulator. XCLR, XFMA and XADD are in flight with their operands and act as they land: XCLR clears, a finite product
is added exactly, modulo 2^4352, with OF where the sum leaves the signed range; a NaN, infinity times zero, and opposite infinities make the class NaN, an
infinite product sets it, and an infinite or NaN class takes no finite term. Due operations act in landing order, in one cycle in issue order, s5 before
s6. XRND reads X at issue and rounds it once; XSGN gives its sign and whether it is zero. -/
def Obligations.ExactAccumulator : Prop :=
  ∀ (s : State) (a b d : BitVec 6) (n m : BitVec 4) (c : Ctx) (x y : Word),
    let entry (op p q : Word) (lat : Nat) : InFlight := ⟨s.focus.issueAt + lat, s.focus.seqNo, s.focus.slot, .xaccOp, 0, 0, op, (q ++ p).setWidth 1024, false⟩
    exec .xclr s = .next (addResult s (entry 0 0 0 2)) ∧
    exec (.xfma a b 0) s = .next (lift (fun w => w.modHere fun c => { c with lastXfma := some w.focus.issueAt }) (addResult s (entry 1 (sOp s 0 a) (sOp s 1 b) 6))) ∧
    exec (.xfma a b 1) s = .next (lift (fun w => w.modHere fun c => { c with lastXfma := some w.focus.issueAt })
      (addResult s (entry 1 (widen32 (sOp s 0 a)) (widen32 (sOp s 1 b)) 6))) ∧
    exec (.xadd a 0) s = .next (addResult s (entry 2 (sOp s 0 a) 0 2)) ∧ exec (.xadd a 1) s = .next (addResult s (entry 2 (widen32 (sOp s 0 a)) 0 2)) ∧
    (widen32 0x3FC00000#64 = 0x3FF8000000000000#64 ∧ widen32 0x80000001#64 = 0xB6A0000000000000#64) ∧
    -- landing
    ((c.xaccLand 0 x y).1 = { c with xacc := 0, xclass := 0 } ∧ (c.xaccLand 0 x y).2 = 0) ∧
    (∀ (na nb : Bool) (p q : Nat) (i j : Int), fp64.value x.toNat = .fin na p i → fp64.value y.toNat = .fin nb q j → c.xclass = 0 →
      let sum (term : Int) : Int := c.xacc.toInt + term
      let flag (z : Int) : Flags := if z < -(2 ^ 4351) ∨ 2 ^ 4351 ≤ z then 0x10 else 0
      let u := sum ((if na = nb then 1 else -1) * ((p * q * 2 ^ (i + j + 2148).toNat : Nat) : Int))
      let v := sum ((if na then -1 else 1) * ((p * 2 ^ (i + 2148).toNat : Nat) : Int))
      c.xaccLand 1 x y = ({ c with xacc := BitVec.ofInt 4352 u }, flag u) ∧ c.xaccLand 2 x y = ({ c with xacc := BitVec.ofInt 4352 v }, flag v)) ∧
    ((fp64.value x.toNat).isNan = true →
      c.xaccLand 1 x y = ({ c with xclass := 3 }, if (fp64.value x.toNat).isSnan || (fp64.value y.toNat).isSnan then 0x04 else 0) ∧
      c.xaccLand 1 y x = c.xaccLand 1 x y ∧ c.xaccLand 2 x y = ({ c with xclass := 3 }, if (fp64.value x.toNat).isSnan then 0x04 else 0)) ∧
    (∀ neg : Bool, fp64.value x.toNat = .inf neg →
      let meet (k : Bool) : Ctx × Flags :=
        if c.xclass = 3 then (c, 0) else if c.xclass = (if k then 1 else 2) then ({ c with xclass := 3 }, 0x04) else ({ c with xclass := if k then 2 else 1 }, 0)
      c.xaccLand 2 x y = meet neg ∧
      (∀ k, fp64.value y.toNat = .inf k → c.xaccLand 1 x y = meet (neg != k)) ∧
      ∀ k q j, fp64.value y.toNat = .fin k q j → c.xaccLand 1 y x = c.xaccLand 1 x y ∧
        c.xaccLand 1 x y = if q = 0 then ({ c with xclass := 3 }, 0x04) else meet (neg != k)) ∧
    (∀ (na nb : Bool) (p q : Nat) (i j : Int), fp64.value x.toNat = .fin na p i → fp64.value y.toNat = .fin nb q j → c.xclass ≠ 0 →
      c.xaccLand 1 x y = (c, 0) ∧ c.xaccLand 2 x y = (c, 0)) ∧
    -- ... of the operations in flight that are due
    (∀ (f g : InFlight), let k := s.work.me
      k.resumed = false → k.st ≠ .blocked ∨ k.block ≠ none ∨ k.inst = 0 → f.kind = .xaccOp → g.kind = .xaccOp → f.flags = 0 → g.flags = 0 → f.land ≤ s.cycle →
      let one := k.xaccLand f.xtra (field f.value 0 64) (field f.value 64 64)
      let two := one.1.xaccLand g.xtra (field g.value 0 64) (field g.value 64 64)
      let done (z : Ctx) (fl : Flags) : Ctx := { k with inflight := [], kstat := k.kstat ||| (fl.setWidth 64 <<< 8), xacc := z.xacc, xclass := z.xclass }
      (k.inflight = [f] → ∃ t, exec .resultLand s = .next t ∧ t.mem = s.mem ∧ t.work.me = done one.1 one.2) ∧
      (k.inflight = [f, g] ∨ k.inflight = [g, f] → g.land ≤ s.cycle →
        f.land < g.land ∨ f.land = g.land ∧ (f.seqNo < g.seqNo ∨ f.seqNo = g.seqNo ∧ f.slot < g.slot) →
        ∃ t, exec .resultLand s = .next t ∧ t.mem = s.mem ∧ t.work.me = done two.1 (one.2 ||| two.2))) ∧
    -- reading
    (d ≠ 0 → ∀ (rm : BitVec 3) (f : BitVec 1), produces s (.xrnd d rm f) .sReg d.toNat 12 fun v fl => s.work.rmCode rm ≠ 4 →
      let z := xaccRound s.work.me (if f = 1 then fp32 else fp64) (rmOf (s.work.rmCode rm) 0)
      field v 0 64 = BitVec.ofNat 64 z.bits ∧ fl = z.flags) ∧
    (∀ (rm : BitVec 3) (f : BitVec 1), ∃ t, exec (.xrnd 0 rm f) s = .next t ∧ regsOf t.work.me = regsOf s.work.me ∧ t.mem = s.mem) ∧
    (∃ p q : Bool, exec (.xsgn n m) s = .next (pResult (pResult s n p 2) m q 2) ∧
      let k := s.work.me
      (k.xclass = 0 → p = decide (k.xacc.toInt < 0) ∧ q = decide (k.xacc.toInt = 0)) ∧ (k.xclass = 1 → p = false ∧ q = false) ∧
      (k.xclass = 2 → p = true ∧ q = false) ∧ (k.xclass = 3 → p = true ∧ q = true))

/-! ## State and memory -/

/-- R321, R315, R73, R77, R208: after power-up every partition is absent, every handle EMPTY, no braid instance, queue entry or cached line exists, every
context is idle with its status clear and its stream registers zero. That memory then lists nothing, every byte reading zero, is the model's choice (log
entry 3): R321 leaves memory's contents open. -/
def Obligations.ResetState : Prop :=
  let s := State.reset
  (∀ p, (s.work.part p).owner = none ∧ (s.work.part p).live = false ∧ (s.work.part p).sts = 0) ∧
  (∀ h, (s.work.handle h).state = 0 ∧ (s.work.handle h).word0 = 0) ∧ s.insts = [] ∧ s.coll = [] ∧ s.sent = [] ∧ s.rx = [] ∧ s.l2 = [] ∧
  (∀ n q, nth (s.work.core n).queues q = [] ∧ (s.work.core n).l1 = [] ∧ (s.work.core n).upd = [] ∧ (s.work.core n).dict = none) ∧
  (∀ n k, (s.work.ctx n k).st = .idle ∧ (s.work.ctx n k).kstat = 0 ∧ (s.work.ctx n k).inflight = [] ∧
    ∀ r, (s.work.ctx n k).gReg r = ⟨0, 0, 0⟩) ∧
  (∀ n, (s.work.helper n false).st = .halted ∧ (s.work.helper n true).st = .halted) ∧
  s.mem = [] ∧ s.Inv

/-- R2, R16, R20: bytes written read back, in the order written; every other byte is as it was; the regions of memory do not overlap; words are little-endian. -/
def Obligations.MemoryReadsBack : Prop :=
  ∀ (w : Work) (k : Nat) (bs : List Byte), Memory.wf w.base = true →
    (w.write k bs).bytes k bs.length = bs ∧
    (∀ a n, a + n ≤ k ∨ k + bs.length ≤ a → (w.write k bs).bytes a n = w.bytes a n) ∧
    (∀ a, (applyLog w.base (w.write k bs).log).get a = if k ≤ a ∧ a < k + bs.length then bs.getD (a - k) 0 else (applyLog w.base w.log).get a) ∧
    (∀ a, w.byte a = (applyLog w.base w.log).get a) ∧
    (∀ x : Word, wordOf (leBytes 8 x.toNat) = x ∧ (leBytes 8 x.toNat).length = 8 ∧ ∀ j, j < 8 → (leBytes 8 x.toNat)[j]? = some (field x (8 * j) 8)) ∧
    (∀ l : Line, lineOf (lineBytes l) = l) ∧
    (∀ c d o p, c < 128 → d < 128 → o < 2 ^ 21 → p < 2 ^ 21 → (tileKey c o = tileKey d p → c = d ∧ o = p) ∧ 2 ^ 52 ≤ tileKey c o ∧ tileKey c o < 2 ^ 53) ∧
    (∀ c d x y u v i j, c < 128 → d < 128 → x < 256 → y < 256 → u < 256 → v < 256 → i < 64 → j < 64 →
      (bplaneKey c x u i = bplaneKey d y v j → c = d ∧ x = y ∧ u = v ∧ i = j) ∧ 2 ^ 53 ≤ bplaneKey c x u i ∧ bplaneKey c x u i < 2 ^ 54) ∧
    (∀ c d r x i j, c < 128 → d < 128 → r < 1024 → x < 1024 → i < 1024 → j < 1024 →
      (accKey c r i = accKey d x j → c = d ∧ r = x ∧ i = j) ∧ 2 ^ 54 ≤ accKey c r i ∧ accKey c r i < 2 ^ 55) ∧
    (∀ c d (f g : Bool) o p, c < 128 → d < 128 → o < 2 ^ 17 → p < 2 ^ 17 →
      (privKey c f o = privKey d g p → c = d ∧ f = g ∧ o = p) ∧ 2 ^ 55 ≤ privKey c f o ∧ privKey c f o < 2 ^ 56) ∧
    ∀ pa, isReservedPa pa = false → pa < 2 ^ 52

/-- The invariant: memory is in its canonical form after every step that goes on, from every state in which it is. -/
def Obligations.StepsKeepMemoryCanonical : Prop :=
  ∀ s t : State, s.Inv → step s = .next t → t.Inv

/-! ## Loads and stores -/

/-- R426 to R428, R163 to R165, R457, R475: loads and stores. The address; a misaligned one takes ACCESS; an access that fails takes its trap; one that
succeeds puts the value in flight, or stores the operand, with the post-increment. In the tile store a load answers the bytes there, zeros past its
end, and a store changes exactly the bytes it names, as it does on an uncached page. That TSOOR of a store rises one cycle after issue is the model's
choice (log entry 54), as is that the flag is an entry in flight of its own beside the post-increment's (114). -/
def Obligations.LoadsStores : Prop :=
  ∀ (s : State) (d : BitVec 6) (e : BitVec 5) (a : BitVec 4) (m sp x : BitVec 2) (z : BitVec 1) (o : Imm 6) (space : Space) (i : Instr) (n : Nat) (ea : Word)
    (inc : Option Word), spaceOf sp = some space → s.work.memAddr a m o n = (ea, inc) →
    -- addresses
    (∀ k, o = .short k → (m = 0 → ea = aOp s 0 a + k.signExtend 64 * BitVec.ofNat 64 n ∧ inc = none) ∧ (m = 1 → ea = aOp s 0 a + sOp s 1 k ∧ inc = none) ∧
      (m = 2 → ea = aOp s 0 a ∧ inc = some (ea + k.signExtend 64 * BitVec.ofNat 64 n))) ∧
    (∀ k, o = .long k → ea = aOp s 0 a + k.signExtend 64 ∧ inc = none) ∧
    -- loads
    (∀ (kind : ResKind) (reg lat : Nat) (val : List Byte → Line),
      (i = .ld d a m sp x z o ∧ n = 2 ^ x.toNat ∧ kind = .sReg ∧ reg = d.toNat ∧ lat = 4 ∧ val = fun bs => (extendLoad n (z == 1) bs).setWidth 1024) ∨
        (i = .vld e a m sp o ∧ n = 128 ∧ kind = .vReg ∧ reg = e.toNat ∧ lat = 5 ∧ val = lineOf) →
      (ea.toNat % n ≠ 0 → exec i s = .next (trapped s i { code := 0x10, addr := ea })) ∧
      (ea.toNat % n = 0 → (∀ b w1, loadAt space ea n s.work = (.error b, w1) → exec i s = .next (trapped (carried s w1) i b.trap)) ∧
        ∀ bs pl w1, loadAt space ea n s.work = (.ok (bs, pl), w1) →
          exec i s = .next (left s ((w1.put ⟨kind, reg, val bs, if space = .tile then lat else (s.work.loadTime pl lat).1,
            if pl = .past then 1 else 0, ea, space != .tile⟩).postInc a inc)))) ∧
    (∀ bs, extendLoad n true bs = BitVec.ofNat 64 (leNat bs) ∧ (n = 2 ^ x.toNat → extendLoad n false bs = (BitVec.ofNat (8 * n) (leNat bs)).signExtend 64)) ∧
    (ea.toNat + n ≤ 2 ^ 21 → 0 < n → ∀ st, s.work.badUnit (tileKey s.focus.core ea.toNat) n = none →
      Work.raceStep (s.work.tileStamps s.focus.core (ea.toNat / 128)) s.work.me.rser s.work.me.kclk (Work.unitMask (ea.toNat % 128) n) false = .ok st →
      ∃ bs w1, loadAt .tile ea n s.work = (.ok (bs, .tile s.focus.core ea.toNat), w1) ∧ w1.log = [] ∧
        ∀ j, j < n → bs[j]? = some (Memory.get s.mem (tileKey s.focus.core ea.toNat + j))) ∧
    (2 ^ 21 ≤ ea.toNat → ea.toNat < 2 ^ 24 → ∃ w1, loadAt .tile ea n s.work = (.ok (List.replicate n 0, .past), w1) ∧ w1.log = []) ∧
    -- stores
    (∀ data : List Byte,
      (i = .st d a m sp x o ∧ n = 2 ^ x.toNat ∧ data = leBytes n (sOp s (Work.dataIndex m o) d).toNat) ∨
        (i = .vst e a m sp o ∧ n = 128 ∧ data = lineBytes (vOp s (Work.dataIndex m o) e)) →
      (ea.toNat % n ≠ 0 → exec i s = .next (trapped s i { code := 0x10, addr := ea })) ∧
      (ea.toNat % n = 0 → (∀ b w1, storeAt space ea data s.work = (.error b, w1) → exec i s = .next (trapped (carried s w1) i b.trap)) ∧
        ∀ pl w1, storeAt space ea data s.work = (.ok pl, w1) →
          exec i s = .next (left s (((w1.modMe fun c => { c with relPending := false }).putFlags (if pl = .past then 1 else 0) ea 1).postInc a inc))) ∧
      (s.Inv → ea.toNat % n = 0 →
        (space = .tile → ea.toNat + n ≤ 2 ^ 21 → ∀ st,
          Work.raceStep (s.work.tileStamps s.focus.core (ea.toNat / 128)) s.work.me.rser s.work.me.kclk (Work.unitMask (ea.toNat % 128) n) true = .ok st →
          ∃ t, exec i s = .next t ∧ ∀ k, Memory.get t.mem k = if tileKey s.focus.core ea.toNat ≤ k ∧ k < tileKey s.focus.core ea.toNat + n
            then data.getD (k - tileKey s.focus.core ea.toNat) 0 else Memory.get s.mem k) ∧
        (space = .tile → 2 ^ 21 ≤ ea.toNat → ea.toNat < 2 ^ 24 → ∃ t, exec i s = .next t ∧ t.mem = s.mem) ∧
        (space = .global → ∀ pa race w0 w1, place s.work.issuer true .global ea .write s.work = (.ok (.phys pa 1 race), w0) →
          w0.raceCheck s.work.issuer (.phys pa 1 race) ea n true = .ok w1 → isHbm pa = true →
          (∀ c ∈ s.cores, c.2.upd = []) → (∀ h ∈ s.hostL2, h.dirty = 0) →
          ∃ t, exec i s = .next t ∧ ∀ k, Memory.get t.mem k = if pa ≤ k ∧ k < pa + n then data.getD (k - pa) 0 else Memory.get s.mem k)))

/-- R476, R429, R430, R458, R459: gather, scatter, acquire loads and release stores. Every active element is checked before any is accessed: one that fails
traps and none is, while a race at an element leaves those before it performed; VLDX puts the elements it loaded in flight as one result, the others zero or, under a mask, as they were; LDA reads at the home slice and acquires, STL releases
and stores there, and one whose access fails has no effect but its trap. Under a mask the elements it did not load are the destination's at issue (the model's choice, log entry 18); TSOOR of a store rises
one cycle after issue, and LDA's comes with its result (log entry 54); of several elements out of range KTSOA takes the first active one's address (144). -/
def Obligations.GatherSynchronise : Prop :=
  ∀ (s : State) (d : BitVec 5) (a : BitVec 4) (b : BitVec 5) (x sp : BitVec 2) (e : BitVec 1) (q : BitVec 3) (space : Space) (r : BitVec 6) (z : BitVec 1) (c o : BitVec 3)
    (rp : BitVec 5), spaceOf sp = some space →
    let n := 2 ^ x.toNat
    let es := gatherElems x (aOp s 0 a) (vOp s 1 b) (if e = 1 then some (s.work.rdQ 2 q) else none)
    (∀ i ea, (i, ea) ∈ es ↔ i < min 32 (128 / n) ∧ isActive s 2 e q n i = true ∧ ea = aOp s 0 a + (field (vOp s 1 b) (32 * i) 32).setWidth 64) ∧
    (∀ (w1 w2 : Work) (got : List (Nat × Word × List Byte × Place)),
      checkElems space n .read es s.work = (.ok (), w1) →
      es.mapM (m := Act) (fun (i, ea) => do let (bs, pl) ← access (loadAt space ea n); return (i, ea, bs, pl)) w1 = (.ok got, w2) →
      (∀ g ∈ got, g.2.2.1.length = n) →
      ∃ v fl y, exec (.vldx d a b x sp e q) s = .next (left s (w2.put ⟨.vReg, d.toNat, v,
          (got.map fun g => (s.work.loadTime g.2.2.2 5).1).foldl max 5, fl, y, true⟩)) ∧
        ∀ j, j < 128 / n → field v (8 * n * j) (8 * n) =
          match got.find? (fun g => g.1 == j) with
          | some g => BitVec.ofNat (8 * n) (leNat g.2.2.1)
          | none => if e = 1 then field (s.work.me.vReg d) (8 * n * j) (8 * n) else 0) ∧
    (∀ (w1 w2 : Work) (got : List (Word × Place)),
      checkElems space n .write es s.work = (.ok (), w1) →
      es.mapM (m := Act) (fun (i, ea) => do
        let pl ← access (storeAt space ea ((lineBytes (vOp s (2 + e.toNat) d)).drop (n * i) |>.take n)); return (ea, pl)) w1 = (.ok got, w2) →
      exec (.vstx d a b x sp e q) s = .next (left s ((w2.modMe fun c => { c with relPending := false }).putFlags (firstPast got).1 (firstPast got).2 1))) ∧
    -- an element that fails its check: none is accessed
    (∀ (kind : Access) (i : Instr), kind = .read ∧ i = .vldx d a b x sp e q ∨ kind = .write ∧ i = .vstx d a b x sp e q →
      (∀ t w1, checkElems space n kind es s.work = (.error t, w1) → exec i s = .next (left s (w1.slotTrap t (Work.operands i s.work)))) ∧
      (∀ k ea more, es = (k, ea) :: more → ea.toNat % n ≠ 0 → exec i s = .next (trapped s i { code := 0x10, addr := ea })) ∧
      (space ≠ .global → ∀ t w1, checkElems space n kind es s.work = (.error t, w1) → exec i s = .next (trapped s i t))) ∧
    -- an element that races: those before it are performed
    (∀ (w1 w2 : Work) (t : Trap), checkElems space n .read es s.work = (.ok (), w1) →
      es.mapM (m := Act) (fun (i, ea) => do let (bs, pl) ← access (loadAt space ea n); return (i, ea, bs, pl)) w1 = (.error t, w2) →
      exec (.vldx d a b x sp e q) s = .next (left s (w2.slotTrap t (Work.operands (.vldx d a b x sp e q) s.work)))) ∧
    (∀ (w1 w2 : Work) (t : Trap), checkElems space n .write es s.work = (.ok (), w1) →
      es.mapM (m := Act) (fun (i, ea) => do
        let pl ← access (storeAt space ea ((lineBytes (vOp s (2 + e.toNat) d)).drop (n * i) |>.take n)); return (ea, pl)) w1 = (.error t, w2) →
      exec (.vstx d a b x sp e q) s = .next (left s (w2.slotTrap t (Work.operands (.vstx d a b x sp e q) s.work)))) ∧
    let ea := aOp s 0 a + BitVec.ofNat 64 (o.toNat * n)
    (∀ (i : Instr), i = .lda r a sp x z c o ∨ i = .stl r a sp x c o → ea.toNat % n ≠ 0 → exec i s = .next (trapped s i { code := 0x10, addr := ea })) ∧
    (∀ bs pl w1, ea.toNat % n = 0 → homeLoad space ea n s.work = (.ok (bs, pl), w1) →
      let w2 := w1.put ⟨.sReg, r.toNat, (extendLoad n (z == 1) bs).setWidth 1024, (s.work.loadTime pl 4).1, if pl = .past then 1 else 0, ea, true⟩
      exec (.lda r a sp x z c o) s = .next (left s (if c = 0 then w2.noteRead pl n else w2.acquire (w2.sStamp w2.myPart pl n)))) ∧
    (∀ b w1, ea.toNat % n = 0 → homeLoad space ea n s.work = (.error b, w1) →
      exec (.lda r a sp x z c o) s = .next (trapped (carried s w1) (.lda r a sp x z c o) b.trap)) ∧
    (ea.toNat % n = 0 →
      let w0 := if c = 0 then s.work else (s.work.cleanL1 s.work.myPart s.focus.core fun _ => true).tick
      (∀ pl w1, homeStore space ea (leBytes n (sOp s 1 r).toNat) w0 = (.ok pl, w1) →
        exec (.stl r a sp x c o) s = .next (left s (((if c = 0 then w1.noteWrite pl n else w1.raiseS w1.myPart pl w1.me.kclk n).modMe
          fun c => { c with relPending := false }).putFlags (if pl = .past then 1 else 0) ea 1))) ∧
      ∀ b w1, homeStore space ea (leBytes n (sOp s 1 r).toNat) w0 = (.error b, w1) →
        exec (.stl r a sp x c o) s = .next (trapped (carried s w1) (.stl r a sp x c o) b.trap)) ∧
    -- the range form
    let base := sOp s 2 (rp.setWidth 6 * 2)
    let len := sOp s 3 (rp.setWidth 6 * 2 + 1)
    let at0 := aOp s 0 a
    let lines := Work.lineIn (s.work.physRanges s.focus.core s.work.myPart .read true 65540 base.toNat len.toNat)
    (2 ^ 32 ≤ len.toNat → exec (.stlR r a rp x c) s = .next (trapped s (.stlR r a rp x c) { code := 0x10, addr := at0 })) ∧
    (len.toNat < 2 ^ 32 → at0.toNat % n ≠ 0 → exec (.stlR r a rp x c) s = .next (trapped s (.stlR r a rp x c) { code := 0x10, addr := at0 })) ∧
    (len.toNat < 2 ^ 32 → at0.toNat % n = 0 →
      let w0 := if c = 0 then s.work else (s.work.cleanL1 s.work.myPart s.focus.core lines).tick
      (∀ pl w1, homeStore .global at0 (leBytes n (sOp s 1 r).toNat) w0 = (.ok pl, w1) →
        exec (.stlR r a rp x c) s = .next (left s (((if c = 0 then w1.noteWrite pl n else w1.raiseS w1.myPart pl w1.me.kclk n).modMe
          fun c => { c with relPending := false }).putFlags (if pl = .past then 1 else 0) at0 1))) ∧
      ∀ b w1, homeStore .global at0 (leBytes n (sOp s 1 r).toNat) w0 = (.error b, w1) →
        exec (.stlR r a rp x c) s = .next (trapped (carried s w1) (.stlR r a rp x c) b.trap))

/-- R382, R383, R464, R183: ATOM reads, combines, writes and answers the old value at one place; in the tile store exactly its bytes change. UPD combines
in the core's update-only line of a cached page, where the first value stands for itself, and at the home slice elsewhere. -/
def Obligations.Atomics : Prop :=
  ∀ (s : State) (d b : BitVec 5) (a3 : BitVec 3) (a : BitVec 4) (o : BitVec 4) (x : BitVec 1) (r : BitVec 2) (sc : BitVec 3) (b6 : BitVec 6) (xw : BitVec 2),
    let n := if x = 1 then 8 else 4
    let ea := aOp s 0 (a3.setWidth 4)
    let v := (sOp s 1 (b.setWidth 6)).toNat % 2 ^ (8 * n)
    let cv := (sOp s 2 (d.setWidth 6)).toNat % 2 ^ (8 * n)
    let key := tileKey s.focus.core ea.toNat
    let old := leNat (s.work.bytes key n)
    let new := if o = 1 then (if old = cv then v else old) else combine o n old v
    (ea.toNat % n ≠ 0 → r ≠ 0 ∨ sc.toNat < 3 → exec (.atom d b a3 o x r sc) s = .next (trapped s (.atom d b a3 o x r sc) { code := 0x10, addr := ea })) ∧
    (s.Inv → ea.toNat % n = 0 → ea.toNat + n ≤ 2 ^ 21 → s.work.badUnit key n = none → d ≠ 0 →
      ∃ t f, exec (.atom d b a3 o x 0 0) s = .next t ∧ t.work.me.inflight.getLast? = some f ∧ f.kind = .sReg ∧ f.reg = d.toNat ∧
        f.value = BitVec.ofNat 1024 old ∧ f.interlocked = true ∧ regsOf t.work.me = regsOf s.work.me ∧
        ∀ k, Memory.get t.mem k = if key ≤ k ∧ k < key + n then (leBytes n new).getD (k - key) 0 else Memory.get s.mem k) ∧
    (combine 0 n old v = v ∧ combine 2 n old v = (old + v) % 2 ^ (8 * n) ∧ combine 3 n old v = old &&& v ∧ combine 4 n old v = old ||| v ∧
      combine 5 n old v = old ^^^ v ∧ combine 7 n old v = min old v ∧ combine 9 n old v = max old v ∧
      (combine 6 n old v = old ∨ combine 6 n old v = v) ∧ intVal (8 * n) true (combine 6 n old v) = min (intVal (8 * n) true old) (intVal (8 * n) true v) ∧
      (combine 8 n old v = old ∨ combine 8 n old v = v) ∧ intVal (8 * n) true (combine 8 n old v) = max (intVal (8 * n) true old) (intVal (8 * n) true v)) ∧
    -- every form, from its accesses
    (∀ (sp : Space) (pl : Place) (w1 w3 w5 : Work) (bs : List Byte),
      (r = 0 ∧ spaceOf (sc.setWidth 2) = some sp ∨ r ≠ 0 ∧ sp = .global) → ea.toNat % n = 0 →
      atomPlace sp ea [.read, .write] s.work = (.ok pl, w1) →
      let w2 := match pl with | .phys pa _ _ => w1.flushLine s.work.issuer.part s.focus.core (pa / 128) | _ => w1
      homeTake s.work.issuer pl ea n w2 = (.ok bs, w3) →
      let w4 := if r.getLsbD 1 = true then (if sc = 0 then w3.tick else w3.release) else w3
      (match atomNew o n (leNat bs) v cv with | some y => writePlace s.work.issuer true pl ea (leBytes n y) w4 | none => (.ok (), w4)) = (.ok (), w5) →
      ∃ t f, exec (.atom d b a3 o x r sc) s = .next t ∧ t.mem = applyLog s.mem w5.log ∧
        (d ≠ 0 → t.work.me.inflight.getLast? = some f ∧ f.value = BitVec.ofNat 1024 (leNat bs))) ∧
    -- UPD
    let m := 2 ^ xw.toNat
    let at0 := aOp s 0 a
    let u := (sOp s 1 b6).toNat % 2 ^ (8 * m)
    (at0.toNat % m ≠ 0 → exec (.upd b6 a o xw) s = .next (trapped s (.upd b6 a o xw) { code := 0x10, addr := at0 })) ∧
    (∀ pa mt race w1, at0.toNat % m = 0 → atomPlace .global at0 [.write] s.work = (.ok (.phys pa mt race), w1) →
      (Work.cached mt race = true →
        exec (.upd b6 a o xw) s = .next (left s ((w1.flushLine s.work.issuer.part s.focus.core (pa / 128)).combineUpd s.focus.core (pa / 128) (pa % 128) (updOp o) xw u).publish)) ∧
      (Work.cached mt race = false →
        let w2 := w1.flushLine s.work.issuer.part s.focus.core (pa / 128)
        (∀ bs w3 w4, w2.badUnit (pa / 128 * 128) 128 = none → homeTake s.work.issuer (.phys pa mt race) at0 m w2 = (.ok bs, w3) →
          writePlace s.work.issuer true (.phys pa mt race) at0 (leBytes m (combine (updOp o) m (leNat bs) u)) w3 = (.ok (), w4) →
          exec (.upd b6 a o xw) s = .next (left s w4.publish)) ∧
        ∀ k, w2.badUnit (pa / 128 * 128) 128 = some k → exec (.upd b6 a o xw) s = .next (trapped (carried s w2) (.upd b6 a o xw)
          (Bad.poison (at0 - BitVec.ofNat 64 (pa % 128) + BitVec.ofNat 64 (8 * k - pa / 128 * 128))).trap))) ∧
    (o.toNat < 8 → combine (updOp o) m (identity (updOp o) m) u = u)

/-- R176, R186, R187, R388, R201, R182: cache maintenance and the allocator. CMNT of a length of 2^32 or more takes ACCESS, an inval in user mode PRIV, an
empty one does nothing, and one within a page acts on the lines that caches hold; an evicted line leaves its cache, its S stamp raising the floor;
ALLOC answers the block of the bit it set, FREE clears it, each with its trap. -/
def Obligations.CachesAllocator : Prop :=
  ∀ (s : State) (op lv : BitVec 2) (a : BitVec 4) (l d : BitVec 6) (p : BitVec 4) (c : BitVec 3),
    let base := aOp s 0 a
    let len := sOp s 1 l
    let ins : Instr := .cmnt op lv a l
    (2 ^ 32 ≤ len.toNat → exec ins s = .next (trapped s ins { code := 0x10, addr := base })) ∧
    (len.toNat < 2 ^ 32 → op = 1 → s.focus.super = false → exec ins s = .next (trapped s ins { code := 0x16 })) ∧
    (op ≠ 1 ∨ s.focus.super = true → len = 0 → exec ins s = .next s) ∧
    (∀ pa mt race w1, op ≠ 1 ∨ s.focus.super = true → 0 < len.toNat → base.toNat % 65536 + len.toNat ≤ 65536 →
      (∀ k, k < 8 → ((s.work.part s.work.myPart).aperture k).on = false) → mt ≠ 3 →
      place s.work.issuer true .global base (if op = 1 then .write else .read) s.work = (.ok (.phys pa mt race), w1) →
      exec ins s = .next (left s ((w1.heldLines s.focus.core (pa / 128) ((pa + len.toNat - 1) / 128 + 1)).foldl
        (fun w x => w.maintain s.work.myPart s.focus.core op lv x) w1))) ∧
    -- events of the caches
    (∀ core line, ∃ t, exec (.l1Evict core line) s = .next t ∧ t.work.l1Find core line = none ∧
      (s.work.l1Find core line = none → (∀ u ∈ (s.work.core core).upd, u.line ≠ line) → t.mem = s.mem)) ∧
    (∀ line, ∃ t, exec (.l2Evict line) s = .next t ∧ (∀ h ∈ t.hostL2, h.line ≠ line) ∧ (∀ e ∈ t.l2, e.1 ≠ line) ∧
      ((∀ h ∈ s.hostL2, h.line ≠ line) → t.mem = s.mem) ∧
      ∀ e, s.l2.find? (fun e => e.1 == line) = some e →
        e.2.s ≤ t.work.floor (Work.sliceOf (line * 128)) e.2.part) ∧
    (∀ line, ∃ t, exec (.mergeWindowClose line) s = .next t ∧ (∀ m ∈ t.windows, m.line ≠ line) ∧ (∀ m ∈ s.windows, m.line ≠ line → m ∈ t.windows) ∧ t.mem = s.mem) ∧
    -- ALLOC
    (∀ w1, (∀ x, allocBlock c s.work = (.ok (some x), w1) →
        exec (.alloc d c) s = .next (left s (w1.put ⟨.sReg, d.toNat, x.setWidth 1024, w1.allocTime, 0, 0, true⟩)) ∧
        exec (.allocNf d p c) s = .next (left s (let w2 := w1.put ⟨.sReg, d.toNat, x.setWidth 1024, w1.allocTime, 0, 0, true⟩
          w2.put ⟨.pReg, p.toNat, 1, w2.allocTime, 0, 0, true⟩))) ∧
      (allocBlock c s.work = (.ok none, w1) →
        exec (.alloc d c) s = .next (left s (w1.slotTrap { code := 0x1E, info := c.setWidth 64 } (Work.operands (.alloc d c) w1))) ∧
        exec (.allocNf d p c) s = .next (left s (let w2 := w1.put ⟨.sReg, d.toNat, 0, w1.allocTime, 0, 0, true⟩
          w2.put ⟨.pReg, p.toNat, 0, w2.allocTime, 0, 0, true⟩)))) ∧
    (∀ k w1, readClass c s.work = (.ok k, w1) →
      (k.enabled = false → allocBlock c s.work = (.ok none, w1)) ∧
      (k.enabled = true → k.free = 0 → allocBlock c s.work = (.ok none, w1.homeWrite w1.myPart (k.at0 + 12) (leBytes 4 0))) ∧
      (k.enabled = true → k.free ≠ 0 → ∀ i w2 bs w3, findClear k.bitmap k.count (k.count / 64 + 2) k.hint w1 = (.ok (some i), w2) →
        allocRead (k.bitmap + i / 64 * 8) 8 (k.bitmap + i / 64 * 8) w2 = (.ok bs, w3) →
        ∃ w4, allocBlock c s.work = (.ok (some (k.base + BitVec.ofNat 64 (i * 256 * 2 ^ c.toNat))), w4) ∧
          w4.log = ((w3.homeWrite w3.myPart (k.bitmap + i / 64 * 8) (leBytes 8 (leNat bs + 2 ^ (i % 64)))).putClass k (k.free - 1) ((i + 1) % k.count)).log)) ∧
    -- FREE
    (∀ k w1, readClass c s.work = (.ok k, w1) →
      let size := 256 * 2 ^ c.toNat
      let i := (base.toNat - k.base.toNat) / size
      let good := k.enabled = true ∧ k.base.toNat ≤ base.toNat ∧ (base.toNat - k.base.toNat) % size = 0 ∧ i < k.count
      let bad (w : Work) : Prop := exec (.free a c) s = .next (trapped (carried s w) (.free a c) { code := 0x1F, addr := base, info := c.setWidth 64 })
      (¬good → bad w1) ∧
      (good → ∀ bs w2, allocRead (k.bitmap + i / 64 * 8) 8 (k.bitmap + i / 64 * 8) w1 = (.ok bs, w2) →
        (leNat bs / 2 ^ (i % 64) % 2 = 0 → bad w2) ∧
        (leNat bs / 2 ^ (i % 64) % 2 = 1 → ∃ t, exec (.free a c) s = .next t ∧ t.mem = applyLog s.mem
          ((w2.release.homeWrite w2.release.myPart (k.bitmap + i / 64 * 8) (leBytes 8 (leNat bs - 2 ^ (i % 64)))).homeWrite w2.release.myPart (k.at0 + 12)
            (leBytes 4 (k.free + 1))).log)))

/-! ## Streams and the matrix array -/

/-- R75, R421, R124, R129 to R138, R437, R455: stream registers, the A latch, beats, feet, arming and scale latches. A staged latch write is due three
owner bundles later, a foot six; nothing but a stream's read touches memory, and no register changes but a stream's position. A beat's columns, in each mode:
a segment's sum of products of the A and B codes stands for S·2^(EA+EB-254-fa-fb), the segments' exact sum is rounded once, and a scale code 0xFF makes the
column NaN; a complex column has its real and its imaginary part, without the cross terms under Z0. -/
def Obligations.MatrixArray : Prop :=
  ∀ (s : State) (g r4 : BitVec 4) (x y : BitVec 6) (v : BitVec 5) (m : BitVec 3) (src : BitVec 2) (e c d : BitVec 4) (h z : BitVec 1) (row : BitVec 8),
    let core := s.focus.core
    let A := s.work.here.arr
    let quiet (t : State) : Prop := t.mem = s.mem ∧ ∀ n k, t.work.ctx n k = s.work.ctx n k
    let becomes (i : Instr) (B : Arr) : Prop := ∃ t, exec i s = .next t ∧ t.work.here.arr = B ∧ quiet t
    let stages (i : Instr) (ls : List LatchWrite) : Prop := becomes i { A with staged := A.staged ++ ls }
    let units := if A.mode = 1 ∨ A.mode = 2 ∨ A.mode = 3 then 2 else 1
    -- streams
    exec (.gset g x y) s = .next (result s .gReg g.toNat ((0#64 ++ sOp s 1 y ++ sOp s 0 x).setWidth 1024) 1) ∧
    (let old := s.work.me.gReg g
     let n := (field old.pos 0 32).toNat + (sOp s 1 x).toNat
     let len := if (field old.layout 36 12).toNat = 0 then 4096 else (field old.layout 36 12).toNat
     exec (.gadv g x) s = .next (result s .gReg g.toNat
       (((BitVec.ofNat 32 ((field old.pos 32 32).toNat + n / len) ++ BitVec.ofNat 32 (n % len) : BitVec 64) ++ old.layout ++ old.base).setWidth 1024) 1)) ∧
    ((aOp s 0 r4).toNat % 32 ≠ 0 → exec (.gldd g r4) s = .next (trapped s (.gldd g r4) { code := 0x10, addr := aOp s 0 r4 })) ∧
    (∀ bs pl w1, (aOp s 0 r4).toNat % 32 = 0 → loadAt .global (aOp s 0 r4) 24 s.work = (.ok (bs, pl), w1) →
      exec (.gldd g r4) s = .next (left s (w1.put ⟨.gReg, g.toNat, BitVec.ofNat 1024 (leNat bs), max 1 (loadLatency s.work s.focus.core pl), 0, 0, true⟩))) ∧
    (∀ l p : Word, let len := if (field l 36 12).toNat = 0 then 4096 else (field l 36 12).toNat
      Work.advancePos l p = if (field p 0 32).toNat + 1 = len then (field p 32 32 + 1) ++ 0#32 else field p 32 32 ++ (field p 0 32 + 1)) ∧
    -- modes and the A latch
    becomes (.mmode m src) { A with mode := m, bsrc := src, aLatch := 0, aPoison := false } ∧
    becomes (.mpushV v) { A with aLatch := (if units = 2 then vOp s 1 (v + 1) else 0) ++ vOp s 0 v, aPoison := false } ∧
    (∀ ls bad w1, streamUnits g (s.work.rdG 0 g) units s.work = (.ok (ls, bad), w1) →
      exec (.mpush g) s = .next (left s (w1.loadA ls bad)) ∧
      exec (.mshift z 1 g 0 row) s = .next (left s ((w1.loadA ls bad).beat (z == 1) row.toNat)) ∧
      exec (.mshift z 1 g 1 row) s = .next (left s ((w1.loadA ls bad).beat (z == 1) (field (sOp s 1 (row.setWidth 6)) 0 8).toNat))) ∧
    (∀ t w1, streamUnits g (s.work.rdG 0 g) units s.work = (.error t, w1) →
      exec (.mpush g) s = .next (left s (w1.slotTrap t (Work.operands (.mpush g) w1)))) ∧
    -- beats without an A operand, and their feet
    (∀ (i : BitVec 1), let at0 := if i = 1 then (field (sOp s 0 (row.setWidth 6)) 0 8).toNat else row.toNat
      let made := s.work.beatColumns core at0 ⟨A.mode, A.bsrc, A.aLatch, A.leftL, A.topT, z == 1⟩
      ∃ f : Foot, becomes (.mshift z 0 g i row) { A with feet := A.feet ++ [f], arm := A.arm.map Arm.next } ∧ f.left = 6 ∧ f.tag = A.arm.map Arm.tag ∧
        f.poison = (A.aPoison || made.2) ∧ ∀ j q, j < 256 → made.1[j]? = some q → field f.result (32 * j) 32 = BitVec.ofNat 32 q) ∧
    -- a beat's columns: A codes, B codes of the B-plane from unit `at0` on, scale codes, segment sums
    (∀ (w : Work) (at0 : Nat) (b : Beat), b.mode.toNat < 6 → b.bsrc.toNat < 3 → b.bsrc = 0 ∨ b.mode = 0 ∨ b.mode = 4 ∨ b.mode = 5 →
      let cx : Prop := b.mode = 4 ∨ b.mode = 5
      let n := if b.mode = 1 then 6 else if b.mode = 2 ∨ b.mode = 3 then 4 else 8
      let nb := if b.bsrc = 0 then n else 4
      let segs := if b.mode = 1 then 8 else if b.mode = 2 ∨ b.mode = 3 then 16 else 4
      let frac : Int := if b.mode = 1 then 4 + 4 else if b.mode = 2 then 2 + 2 else if b.mode = 3 then 2 + 6 else 6 + 6
      let A (k : Nat) : Int := (field b.a (n * k) n).toInt
      let slice (j : Nat) : Nat := leNat ((List.range (32 * segs * nb / 8)).map fun m => w.byte (bplaneKey core j ((at0 + m / 64) % 256) (m % 64)))
      let B (j k : Nat) : Int :=
        let code : BitVec nb := BitVec.ofNat nb (slice j / 2 ^ (nb * k))
        if b.bsrc = 1 then 16 * code.toInt else if b.bsrc = 2 ∨ b.mode = 3 then code.toNat else code.toInt
      let ea (g : Nat) : Nat := (field b.left (8 * g) 8).toNat
      let eb (j g : Nat) : Nat := (field (nth b.top g) (8 * j) 8).toNat
      -- the column from segment sums S under the top scale codes of column j
      let column (j : Nat) (S : Nat → Int) (v : Nat) : Prop :=
        ((∃ g, g < segs ∧ (ea g = 255 ∨ eb j g = 255)) → v = 0x7FC00000) ∧
        ((∀ g, g < segs → ea g ≠ 255 ∧ eb j g ≠ 255) → v = (fp32.roundDy .even false
          (((List.range segs).map fun g => (⟨S g, (ea g : Int) + eb j g - 254 - frac⟩ : Machine.Dyadic)).foldl Machine.Dyadic.add ⟨0, 0⟩)).bits)
      let sum (m : Nat) (f : Nat → Int) : Int := ((List.range m).map f).sum
      let out := w.beatColumns core at0 b
      (¬cx → ∀ j, j < 256 → ∃ v, out.1[j]? = some v ∧ column j (fun g => sum 32 fun k => A (32 * g + k) * B j (32 * g + k)) v) ∧
      (cx → ∀ j, j < 128 → ∃ re im, out.1[2 * j]? = some re ∧ out.1[2 * j + 1]? = some im ∧
        let ar (g k : Nat) : Int := A (32 * g + 2 * k)
        let ai (g k : Nat) : Int := A (32 * g + 2 * k + 1)
        let br (g k : Nat) : Int := B (2 * j) (32 * g + 2 * k)
        let bi (g k : Nat) : Int := B (2 * j) (32 * g + 2 * k + 1)
        (b.z0 = false → column (2 * j) (fun g => sum 16 fun k => ar g k * br g k - ai g k * bi g k) re ∧
          column (2 * j) (fun g => sum 16 fun k => ar g k * bi g k + ai g k * br g k) im) ∧
        (b.z0 = true → column (2 * j) (fun g => sum 16 fun k => ar g k * br g k) re ∧ column (2 * j) (fun g => sum 16 fun k => ai g k * bi g k) im)) ∧
      out.1.length = 256 ∧
      (out.2 = true ↔ ∃ j u, j < 256 ∧ (cx → j % 2 = 0) ∧ u < 32 * segs * nb / 8 / 64 ∧ (w.badUnit (bplaneKey core j ((at0 + u) % 256) 0) 64).isSome = true)) ∧
    (∀ x y : Machine.Dyadic, let z := x.add y
      z.exp ≤ x.exp ∧ z.exp ≤ y.exp ∧ z.num = x.num * 2 ^ (x.exp - z.exp).toNat + y.num * 2 ^ (y.exp - z.exp).toNat) ∧
    (∀ k : Arm, k.first < 1024 → k.first ≤ k.ptr → k.ptr < 1024 → 0 < k.count →
      k.next = { k with ptr := (k.first + (k.ptr - k.first + 1) % k.count) % 1024 }) ∧
    -- an owner bundle moves the feet and the staged writes
    (∃ t, exec .footEmerge s = .next t ∧ t.work.here.arr.feet = (A.feet.filter fun f => f.left != 0).map (fun f => { f with left := f.left - 1 }) ∧
      (∀ n k, t.work.ctx n k = s.work.ctx n k) ∧
      (s.focus.direct = true ∨ (∀ f ∈ A.feet, f.left = 1 → f.tag = none) → t.mem = s.mem)) ∧
    ((∀ l ∈ A.staged, 1 < l.left) → becomes .latchActivate { A with staged := A.staged.map fun l => { l with left := l.left - 1 } }) ∧
    (∀ l, A.staged = [l] → l.left = 1 → ∃ B, becomes .latchActivate B ∧ B.staged = [] ∧
      (l.top = false → B.topT = A.topT ∧ ∀ j, j < 16 → field B.leftL (8 * j) 8 =
        if l.lo ≤ j ∧ j < l.lo + l.codes.length then l.codes.getD (j - l.lo) 0 else field A.leftL (8 * j) 8) ∧
      (l.top = true → B.leftL = A.leftL ∧ ∀ j, j < 256 → field (nth B.topT l.seg) (8 * j) 8 =
        if l.lo ≤ j ∧ j < l.lo + l.codes.length then l.codes.getD (j - l.lo) 0 else field (nth A.topT l.seg) (8 * j) 8)) ∧
    -- arming and staging
    (let w := sOp s 0 x
     let n := if (field w 10 11).toNat = 0 then 1024 else (field w 10 11).toNat
     let arm (add : Bool) : Arr := { A with arm := some ⟨add, (field w 0 10).toNat, n, (field w 0 10).toNat, c.toNat, d.toNat⟩ }
     becomes (.maccArmSet x c d) (arm false) ∧ becomes (.maccArmAdd x c d) (arm true) ∧ becomes .maccOff { A with arm := none }) ∧
    stages (.sclA v) [⟨3, false, 0, 0, (lineBytes (vOp s 0 v)).take 16⟩] ∧ stages (.sclB v e h) [⟨3, true, e.toNat, 128 * h.toNat, lineBytes (vOp s 0 v)⟩] ∧
    ∀ (q : BitVec 8) (w : BitVec 32), let b (j : Nat) : Byte := field w (8 * j) 8
      stages (.scliA e (.short q)) [⟨3, false, 0, 0, List.replicate 16 q⟩] ∧ stages (.scliB e (.short q)) [⟨3, true, e.toNat, 0, List.replicate 256 q⟩] ∧
      stages (.scliA e (.long w)) [⟨3, false, 0, 4 * e.toNat, [b 0, b 1, b 2, b 3]⟩] ∧
      stages (.scliB e (.long w)) ((List.range 4).map fun j => ⟨3, true, 4 * e.toNat + j, 0, List.replicate 256 (b j)⟩)

/-- R136, R139 to R144, R437, R438, R443: the accumulator store. MACC sets or adds a foot's columns of one row; MZERO zeroes rows and their poison bits and
leaves the status file; MDRAIN copies a row out as FP32, with NaN pairs canonical, rounded to BF16, or in blocks quantised to MXINT8, and its tile's NANINF
and SAT bits say what it met; MXCP moves rows to and from memory; MSTAT reads the status, with .clr clearing it. -/
def Obligations.AccumulatorStore : Prop :=
  ∀ (s : State) (i : BitVec 1) (r : BitVec 10) (c d : BitVec 4) (n : BitVec 6) (f : BitVec 2) (e : BitVec 6) (sp : BitVec 2) (a : BitVec 4) (off : Option (BitVec 32)),
    s.Inv →
    let core := s.focus.core
    let A := s.work.here.arr
    let row := if i = 1 then (field (sOp s 0 (r.setWidth 6)) 0 10).toNat else r.toNat
    -- R140
    (∃ t, exec (.mzero i r n) s = .next t ∧ (∀ k, Memory.get t.mem k =
        if ∃ j, j ≤ n.toNat ∧ accKey core ((row + j) % 1024) 0 ≤ k ∧ k < accKey core ((row + j) % 1024) 1024 then 0 else Memory.get s.mem k) ∧
      (∀ x, x < 1024 → t.work.here.arr.rowPoison.getLsbD x = (A.rowPoison.getLsbD x && !decide (∃ j, j ≤ n.toNat ∧ x = (row + j) % 1024))) ∧
      t.work.here.arr.nanInf = A.nanInf ∧ t.work.here.arr.sat = A.sat ∧ (∀ m k, t.work.ctx m k = s.work.ctx m k)) ∧
    -- R136
    (∀ (add : Bool) (ins : Instr), ins = (if add then .maccAdd i r c d else .maccSet i r c d) →
      ((∀ g ∈ A.feet, g.left ≠ 0) → exec ins s = .next s) ∧
      ∀ g, A.feet.find? (fun g => g.left == 0) = some g → c.toNat ≤ d.toNat →
        ∃ t, exec ins s = .next t ∧ (∀ m k, t.work.ctx m k = s.work.ctx m k) ∧
          (∀ j, j < 256 → (t.work.accRow core row)[j]? = some (
            let old := (s.work.accRow core row).getD j 0
            let foot := (field g.result (32 * j) 32).toNat
            if 16 * c.toNat ≤ j ∧ j < 16 * d.toNat + 16 then (if add then (fp32.add .even old foot).bits % 2 ^ 32 else foot) else old)) ∧
          (∀ k, k < accKey core row 0 ∨ accKey core row 1024 ≤ k → Memory.get t.mem k = Memory.get s.mem k) ∧
          t.work.here.arr.rowPoison.getLsbD row = (g.poison || (A.rowPoison.getLsbD row && !(!add && c == 0 && d == 15)))) ∧
    -- R141
    (A.rowPoison.getLsbD row = true → ∀ k g, exec (.mdrain f k g i r) s = .next (trapped s (.mdrain f k g i r) { code := 0x15, addr := BitVec.ofNat 64 row })) ∧
    (A.rowPoison.getLsbD row = false →
      let out := drainRow f (s.work.accRow core row)
      (∃ t, exec (.mdrain f 1 c i r) s = .next t ∧ t.mem = s.mem ∧
        (∀ k l, out.1[k]? = some l → t.work.me.inflight[s.work.me.inflight.length + k]? =
          some ⟨s.focus.issueAt + 5, s.focus.seqNo, s.focus.slot, .vReg, (c.setWidth 5 * 8 + BitVec.ofNat 5 k).toNat, 0, 0, l, false⟩) ∧
        t.work.me.inflight.length = s.work.me.inflight.length + out.1.length ∧
        t.work.here.arr = { A with nanInf := if out.2.1 then A.nanInf ||| (1#16 <<< (row / 64)) else A.nanInf,
                                   sat := if out.2.2 then A.sat ||| (1#16 <<< (row / 64)) else A.sat, lastDrain := some s.focus.issueAt }) ∧
      -- the four formats: f32, cf32, bf16, mx8
      (let at0 (j : Nat) : Nat := (s.work.accRow core row).getD j 0
       let nan (j : Nat) : Prop := (fp32.value (at0 j)).isNan = true
       let odd (j : Nat) : Prop := (fp32.value (at0 j)).isNan = true ∨ (fp32.value (at0 j)).isInf = true
       let short (j : Nat) : Nat := (fp32.convert bf16 .even (at0 j)).bits
       let block (n : Nat) : Quantised := quantise 0 ((List.range 32).map fun j => fp32.value (at0 (32 * n + j))) (List.replicate 32 .even)
       (f = 0 → out.1.length = 8 ∧ ∀ k j, k < 8 → j < 32 → ∃ l, out.1[k]? = some l ∧ (field l (32 * j) 32).toNat = at0 (32 * k + j)) ∧
       (f = 1 → out.1.length = 8 ∧ ∀ k j, k < 8 → j < 16 → ∃ l, out.1[k]? = some l ∧
         let x := 32 * k + 2 * j
         (nan x ∨ nan (x + 1) → field l (64 * j) 64 = 0x7FC000007FC00000#64) ∧
         (¬nan x → ¬nan (x + 1) → (field l (64 * j) 32).toNat = at0 x ∧ (field l (64 * j + 32) 32).toNat = at0 (x + 1))) ∧
       (f = 2 → out.1.length = 4 ∧ ∀ k j, k < 4 → j < 64 → ∃ l, out.1[k]? = some l ∧ (field l (16 * j) 16).toNat = short (64 * k + j) % 2 ^ 16) ∧
       (f = 3 → ∃ l0 l1 l2, out.1 = [l0, l1, l2] ∧
         (∀ j, j < 128 → ∃ x y, (block (j / 32)).codes[j % 32]? = some x ∧ field l0 (8 * j) 8 = BitVec.ofInt 8 x ∧
           (block (4 + j / 32)).codes[j % 32]? = some y ∧ field l1 (8 * j) 8 = BitVec.ofInt 8 y) ∧
         (∀ n, n < 8 → field l2 (8 * n) 8 = BitVec.ofNat 8 (block n).scale) ∧ field l2 64 960 = 0#960) ∧
       (f ≠ 2 → (out.2.1 = true ↔ ∃ j, j < 256 ∧ odd j)) ∧
       (f = 2 → (out.2.1 = true ↔ ∃ j, j < 256 ∧ (odd j ∨ (bf16.value (short j)).isNan = true ∨ (bf16.value (short j)).isInf = true))) ∧
       (f ≠ 3 → out.2.2 = false) ∧ (f = 3 → (out.2.2 = true ↔ ∃ n, n < 8 ∧ ((block n).sat = true ∨ (block n).rowBad = true)))) ∧
      ∀ w1, streamPut c (s.work.rdG i.toNat c) out.1 5 s.work = (.ok (), w1) → ∃ t, exec (.mdrain f 0 c i r) s = .next t ∧ t.mem = applyLog s.mem w1.log ∧
        t.work.me.inflight = w1.me.inflight) ∧
    -- R143
    (let word : Word := BitVec.ofNat 64 (((List.range 16).filter fun j => field A.rowPoison (64 * j) 64 != 0#64).foldl (fun x j => x + 2 ^ (32 + j)) (A.nanInf.toNat + 2 ^ 16 * A.sat.toNat))
     let lat := match A.lastDrain with | some t => max 1 (t + 6 - s.focus.issueAt) | none => 1
     exec (.mstat e) s = .next (left s (s.work.put ⟨.sReg, e.toNat, word.setWidth 1024, lat, 0, 0, true⟩)) ∧
     exec (.mstatClr e) s = .next (left s ((s.work.put ⟨.sReg, e.toNat, word.setWidth 1024, lat, 0, 0, true⟩).modArr core fun a => { a with nanInf := 0, sat := 0 }))) ∧
    -- R142
    ∀ space, spaceOf sp = some space →
      let base := aOp s 0 a + (off.getD 0).signExtend 64
      let rows := (List.range (n.toNat + 1)).map fun k => (r.toNat + k) % 1024
      let out := rows.any fun x => A.rowPoison.getLsbD x
      (base.toNat % 128 ≠ 0 → exec (.mxcpOut sp a r n off) s = .next (trapped s (.mxcpOut sp a r n off) { code := 0x10, addr := base }) ∧
        exec (.mxcpIn sp a r n off) s = .next (trapped s (.mxcpIn sp a r n off) { code := 0x10, addr := base })) ∧
      (base.toNat % 128 = 0 → ∀ us w1 w2, mxcpCheck space base (n.toNat + 1) true s.work = (.ok us, w1) → out = false →
        ((List.range us.length).zip us).forM (m := Act) (fun (u, ea, pl) => do
          access (writePlace s.work.issuer false pl ea ((rows.map fun x => s.work.bytes (accKey core x 0) 1024).flatten.drop (128 * u) |>.take 128))
          modify fun w => w.noteWrite pl 128) w1 = (.ok (), w2) →
        ∃ t, exec (.mxcpOut sp a r n off) s = .next t ∧ t.mem = applyLog s.mem w2.log ∧ t.work.here.arr.copyUntil = w2.focus.issueAt + 8 * (n.toNat + 1)) ∧
      (base.toNat % 128 = 0 → ∀ us w1 got w2, mxcpCheck space base (n.toNat + 1) false s.work = (.ok us, w1) →
        us.mapM (m := Act) (fun (ea, pl) => do
          let (bs, bad) ← access (readThrough s.work.issuer false pl ea 128)
          modify fun w => w.noteRead pl 128
          return (bs, bad)) w1 = (.ok got, w2) →
        (∀ x ∈ got, x.1.length = 128) → got.length = 8 * (n.toNat + 1) →
        ∃ t, exec (.mxcpIn sp a r n off) s = .next t ∧ (∀ m k, t.work.ctx m k = w2.ctx m k) ∧
          ∀ k x, k ≤ n.toNat → x < 1024 → t.work.byte (accKey core ((r.toNat + k) % 1024) x) = ((got.getD (8 * k + x / 128) ([], false)).1).getD (x % 128) 0)

/-! ## Engines, tile objects, rills and queues -/

/-- R195, R390, R394, R157, R210, R215, R230, R235, R214, R446, R447: the slots that place an entry on an engine queue put it at the end of their queue
or, where that is full, block; HQRY reads a handle; MON acts on a monitor unit of the partition. Misaligned addresses, handles and units of another
partition take ACCESS, CPY.net in user mode PRIV. Model's choices: CPY.net takes PRIV before ACCESS (log entry 47); ADDR of MON's ACCESS is a free value
(31). A unit that is armed takes the samples of its own cycle after the clearing. -/
def Obligations.EnginePlacement : Prop :=
  ∀ (s : State) (x y : BitVec 4) (p : BitVec 1) (q : BitVec 2) (c d e : BitVec 6),
    let entry (kind : EntryKind) (cw : Word) : Entry :=
      { kind := kind, cw := cw, who := s.work.issuer, started := false, desc := none, units := 0, page := .none, hold := [], net := none }
    let full (n : Nat) : Prop := s.work.queueFull s.focus.core n = true ∧ s.focus.admitted = false
    let places (i : Instr) (n : Nat) (kind : EntryKind) (cw : Word) : Prop :=
      (full n → exec i s = .next (lift (fun w => w.block (.queue n)) s)) ∧
      (¬full n → ∃ t, exec i s = .next t ∧ t.mem = s.mem ∧ (∀ m k, t.work.ctx m k = s.work.ctx m k) ∧
        nth t.work.here.queues n = nth s.work.here.queues n ++ [entry kind cw] ∧
        ∀ m, m % 8 ≠ n % 8 → nth t.work.here.queues m = nth s.work.here.queues m)
    let denies (i : Instr) (a : Word) : Prop := exec i s = .next (trapped s i { code := 0x10, addr := a })
    let ax := aOp s 0 x
    -- a descriptor at a multiple of n bytes, a completion word at a multiple of 8
    let descriptor (i : Instr) (n : Nat) (queue : Nat) (kind : EntryKind) (cw : Word) : Prop :=
      (ax.toNat % n ≠ 0 → denies i ax) ∧ (ax.toNat % n = 0 → cw.toNat % 8 ≠ 0 → denies i cw) ∧
      (ax.toNat % n = 0 → cw.toNat % 8 = 0 → places i queue kind cw)
    let transform (i : Instr) (inv : Bool) : Prop :=
      let src := aOp s 1 y
      let cw := sOp s 2 c
      (src.toNat % 64 ≠ 0 → denies i src) ∧ (src.toNat % 64 = 0 → ax.toNat % 64 ≠ 0 → denies i ax) ∧
      (src.toNat % 64 = 0 → ax.toNat % 64 = 0 → cw.toNat % 8 ≠ 0 → denies i cw) ∧
      (src.toNat % 64 = 0 → ax.toNat % 64 = 0 → cw.toNat % 8 = 0 → places i 4 (.dft inv (p == 0) ax src) cw)
    descriptor (.cpy q x c) 128 q.toNat (.copy false ax) (sOp s 1 c) ∧
    (s.focus.super = false → exec (.cpyNet q x c) s = .next (trapped s (.cpyNet q x c) { code := 0x16 })) ∧
    (s.focus.super = true → descriptor (.cpyNet q x c) 128 q.toNat (.copy true ax) (sOp s 1 c)) ∧
    transform (.dftFwd p x y c) false ∧ transform (.dftInv p x y c) true ∧
    descriptor (.route x c) 64 6 (.route ax) (sOp s 1 c) ∧ descriptor (.coll x c) 64 7 (.coll ax) (sOp s 1 c) ∧
    (let bank := sOp s 1 d
     let i : Instr := .rcnt x d c
     let cw := sOp s 2 c
     (ax.toNat % 128 ≠ 0 ∨ 16 ≤ bank.toNat → denies i ax) ∧ (ax.toNat % 128 = 0 → bank.toNat < 16 → cw.toNat % 8 ≠ 0 → denies i cw) ∧
     (ax.toNat % 128 = 0 → bank.toNat < 16 → cw.toNat % 8 = 0 → places i 6 (.rcnt ax bank.toNat) cw)) ∧
    (let h := sOp s 0 d
     let own := (s.work.part s.work.myPart).ownsHandle h = true
     let bad := HandleRec.requestBad (s.work.part s.work.myPart) h (sOp s 1 e) (sOp s 2 (e + 1)) (sOp s 3 c) = true
     (bad → denies (.hreq d e c) h) ∧ (¬bad → places (.hreq d e c) 5 (.hreq h (sOp s 1 e) (sOp s 2 (e + 1)) (sOp s 3 c)) 0) ∧
     (¬own → bad ∧ denies (.hrel d) h ∧ denies (.hqry e d) h) ∧ (own → places (.hrel d) 5 (.hrel h) 0) ∧
     (own → ∃ t, exec (.hqry e d) s = .next t ∧ t.mem = s.mem ∧ t.handles = s.handles ∧ regsOf t.work.me = regsOf { s.work.me with hqryHc := t.work.me.hqryHc } ∧
       (s.work.me.hqryHc ≤ t.work.me.hqryHc ∧ ((s.work.handle h.toNat).state = 3 → (s.work.handle h.toNat).hc ≤ t.work.me.hqryHc)) ∧
       (e ≠ 0 → ∃ f, t.work.me.inflight = s.work.me.inflight ++ [f] ∧ f.kind = .sReg ∧ f.reg = e.toNat ∧ f.interlocked = true ∧
         f.value = (s.work.handle h.toNat).word0.setWidth 1024))) ∧
    -- monitor units
    let u := sOp s 0 d
    let n := u.toNat % 16
    let mine := u.toNat < 16 ∧ (s.work.part s.work.myPart).monmask.getLsbD n = true
    let frozen : State := { s with freeNext := s.freeNext + 1 }
    let strange (i : Instr) : Prop := exec i s = .next (left s (frozen.work.slotTrap { code := 0x10, addr := Config.freeWord s.freeNext } (Work.operands i s.work)))
    let unit (i : Instr) (m : Monitor) : Prop := ∃ t, exec i s = .next t ∧ t.mem = s.mem ∧ (∀ k c, t.work.ctx k c = s.work.ctx k c) ∧
      ∀ k, k < 16 → t.work.monitor k = if k = n then m else s.work.monitor k
    let M := s.work.monitor n
    (¬mine → strange (.monArm d y) ∧ strange (.monStop d y) ∧ strange (.monSnap d y)) ∧
    let fresh : Monitor := ⟨(M.cfg &&& ~~~0x300#64) ||| 0x100#64, 0xFFFFFFFFFFFFFFFF#64, 0, .replicate 32 0, s.cycle, []⟩
    (mine → unit (.monArm d y) (if M.takenAt = s.cycle then M.taken.foldl (fun m v => m.takeAt s.cycle v) fresh else fresh) ∧
      (M.takenAt ≠ s.cycle → unit (.monArm d y) fresh) ∧
      unit (.monStop d y) { M with cfg := if field M.cfg 8 2 = 0#2 then M.cfg else (M.cfg &&& ~~~0x300#64) ||| 0x200#64 } ∧
      ((aOp s 1 y).toNat % 8 ≠ 0 → denies (.monSnap d y) (aOp s 1 y)) ∧
      ∀ w1, (aOp s 1 y).toNat % 8 = 0 →
        storeHome (aOp s 1 y) (([M.cfg, M.min, M.max] ++ M.hist.toList).map fun v => leBytes 8 v.toNat).flatten s.work = (.ok (), w1) →
        exec (.monSnap d y) s = .next (left s w1))

/-- R241, R245 to R249, R450, R463: the instructions that act on a tile object's header at its home slice. Each first checks the header; then PUB.open
claims the slot that is not current, or traps, or waits for its pins; PUB.close and SETTLE.PUB publish it; SETTLE makes the tile final; PIN, UNPIN and VWAIT. -/
def Obligations.TileObjects : Prop :=
  ∀ (s : State) (d v : BitVec 6) (a : BitVec 4) (l : BitVec 2), s.Inv →
    let addr := aOp s 0 a
    let traps (i : Instr) (w1 : Work) (t : Trap) : Prop :=
      exec i s = .next (left s ((carried s w1).work.slotTrap t (Work.operands i s.work)))
    (∀ t w1, headerAct addr true s.work = (.error t, w1) →
      traps (.pubOpen d a) w1 t ∧ traps (.pubClose a l) w1 t ∧ traps (.settlePub a l) w1 t ∧ traps (.settle a) w1 t ∧ traps (.pin d a) w1 t ∧
      traps (.unpin v a) w1 t) ∧
    (∀ t w1, headerAct addr false s.work = (.error t, w1) → traps (.vwait a v) w1 t) ∧
    (addr.toNat % 64 ≠ 0 → ∀ wr, headerAct addr wr s.work = (.error { code := 0x10, addr := addr }, s.work)) ∧
    (∀ pa bs w1, headerAct addr true s.work = (.ok (pa, bs), w1) → pa < 2 ^ 39 → pa % 64 = 0 →
      let st := Work.headerState bs
      let verord : Trap := { code := 0x1C, addr := addr, info := st }
      let pinfault : Trap := { code := 0x1D, addr := addr }
      let other := 1 - stSlot st
      let holds (slot : Nat) : Prop := ∃ i, w1.myInst? = some i ∧ i.holds pa slot = true
      -- PUB.open
      (stVer st = 15 ∨ stOpen st = true → traps (.pubOpen d a) w1 verord) ∧
      (stVer st ≠ 15 → stOpen st = false → stPin st other ≠ 0 → holds other → traps (.pubOpen d a) w1 pinfault) ∧
      (∀ bs2 w2, stVer st ≠ 15 → stOpen st = false → (stPin st other ≠ 0 → ¬holds other) →
        (if stPin st other = 0 then w1 else w1.stopPinners w1.myPart pa other bs).headerBytes w1.myPart pa = (bs2, w2) →
        let st2 := Work.headerState bs2
        (stPin st2 other ≠ 0 → exec (.pubOpen d a) s = .next (left s (w2.block (.pinned pa other (BitVec.ofNat 8 (stPin st2 other)) false)))) ∧
        (stPin st2 other = 0 → ∃ t, exec (.pubOpen d a) s = .next t ∧ t.work.word (pa + 24) = setField (setField st2 10 1 1) 51 13 w2.myTag ∧
          (d ≠ 0 → ∃ f, t.work.me.inflight.getLast? = some f ∧ f.kind = .sReg ∧ f.reg = d.toNat ∧ f.interlocked = true ∧
            f.value = (wordOf (bs2.drop (8 + 8 * other) |>.take 8)).setWidth 1024))) ∧
      -- PUB.close and SETTLE.PUB
      (∀ final : Bool, let i : Instr := if final then .settlePub a l else .pubClose a l
        let ver := if final then 15 else stVer st + 1
        (stOpen st = false ∨ (if final then 15 else 14) ≤ stVer st ∨ stProducer st ≠ s.work.myTag → traps i w1 verord) ∧
        (stOpen st = true → stVer st < (if final then 15 else 14) → stProducer st = s.work.myTag →
          exec i s = .next (left s (w1.publishVersion pa bs st l ver)) ∧
          ((∀ k, k < 4 → (regOf bs k).en = false) → ∀ t, exec i s = .next t →
            t.work.word (pa + 24) = setField (setField (setField (setField (setField st 0 4 ver) 8 1 other) 10 1 0) 16 2 l.toNat) 24 8
              (min ((field st 24 8).toNat + 1) 255) ∧ t.work.word (pa + 32) = BitVec.ofNat 64 s.ns))) ∧
      -- SETTLE
      (∃ t, exec (.settle a) s = .next t ∧ (stVer st ≠ 15 →
        t.work.word (pa + 24) = setField (setField (if stVer st = 0 then setField st 11 1 1 else st) 10 1 0) 0 4 15 ∧
        t.work.word (pa + 32) = BitVec.ofNat 64 s.ns)) ∧
      -- PIN
      (let slot := stSlot st
       let pins := ((w1.myInst?).map (·.pins.length)).getD 0
       let new := setField st (32 + 8 * slot) 8 (stPin st slot + 1)
       (stVer st = 0 → traps (.pin d a) w1 verord) ∧
       (stVer st ≠ 0 → 8 ≤ pins ∨ stPin st slot = 255 → traps (.pin d a) w1 pinfault) ∧
       (stVer st ≠ 0 → pins < 8 → stPin st slot ≠ 255 → ∃ t, exec (.pin d a) s = .next t ∧ t.work.word (pa + 24) = new ∧
          (∀ i, w1.myInst? = some i → ∃ j, t.work.myInst? = some j ∧ j.pins = i.pins ++ [⟨pa, slot⟩]) ∧
          (d ≠ 0 → ∃ f, t.work.me.inflight.getLast? = some f ∧ f.kind = .sReg ∧ f.reg = d.toNat ∧ f.interlocked = true ∧ f.value = new.setWidth 1024))) ∧
      -- UNPIN
      let slot := if (sOp s 1 v).getLsbD 8 then 1 else 0
      let held := ∃ i, s.work.myInst? = some i ∧ i.holds pa slot = true
      (¬held → traps (.unpin v a) w1 pinfault) ∧
      (held → ∃ t, exec (.unpin v a) s = .next t ∧ (∀ i, w1.myInst? = some i → ∃ j, t.work.myInst? = some j ∧ j.pins = i.pins.erase ⟨pa, slot⟩) ∧
        ∀ b w2, w1.release.homeRead w1.release.myPart (pa + 28 + slot) 1 = ([b], w2) → t.work.byte (pa + 28 + slot) = b - 1)) ∧
    -- VWAIT
    (∀ pa bs w1, headerAct addr false s.work = (.ok (pa, bs), w1) →
      let want := (sOp s 1 v).toNat % 16
      (want ≤ stVer (Work.headerState bs) → exec (.vwait a v) s = .next (left s (w1.acquire (w1.sStamp w1.myPart (headerPlace pa))))) ∧
      (stVer (Work.headerState bs) < want → exec (.vwait a v) s = .next (left s (w1.block (.version pa want))))) ∧
    -- a published version on a consumer's registration
    ∀ (p : Nat) (g : Registration) (w : Work),
      (g.en = false ∨ 2 ≤ g.policy → w.refire p g = w) ∧
      ∀ seq r i, g.en = true → w.reachOfTag p g.rtag = some (seq, r) →
        w.insts.find? (fun i => i.part == p && i.course == seq && i.reach == r && i.iter == g.iter && i.live) = some i →
        (g.policy = 0 → w.refire p g = w.killInst i.id true) ∧
        (g.policy = 1 → w.refire p g = w.modInst i.id fun i => { i with follow := true })

/-- R43, R49, R257, R269, R277, R403, R408 to R410, R416 to R418: SPAWN starts a rill on an idle context; DEPDEC takes one from a reach's counter; ENQ puts
a course on a reach queue, a record on a list, or closes it; the flume instructions put, take, wait for and drop entries. What cannot be done traps or, where
it may yet come to be possible, blocks. Model's choices: SPAWN's arguments past the third come from the register bank, replayed or not (log entry 22);
ADDR of DEPDEC's ACCESS is a free value (31); DEPDEC raises the partition's race clock as other releases of the scheduler's do (77). -/
def Obligations.SpawnsQueuesFlumes : Prop :=
  ∀ (s : State) (a b : BitVec 4) (x y : BitVec 6) (v : BitVec 5), s.Inv →
    let core := s.focus.core
    let part := s.work.myPart
    let stop (i : Instr) (w1 : Work) (t : Trap) : Prop :=
      exec i s = .next (left s ((carried s w1).work.slotTrap t (Work.operands i s.work)))
    -- SPAWN
    (∀ (c : BitVec 2) (m : BitVec 4),
      let ins : Instr := .spawn c x m y
      let next : BitVec 32 := Work.clockNext s.work.me.kclk.toNat
      (s.work.myInst? = none → exec ins s = .next s) ∧
      ∀ i, s.work.myInst? = some i →
        ((s.work.ctx core c.toNat).st ≠ .idle → exec ins s = .next (trapped s ins { code := 0x17, info := c.setWidth 64 })) ∧
        ((s.work.ctx core c.toNat).st = .idle → 16 ≤ i.rills.length → exec ins s = .next (trapped s ins { code := 0x18 })) ∧
        ∀ r, (s.work.ctx core c.toNat).st = .idle → i.rills.length < 16 → s.work.reach? i.part i.course i.reach = some r → ∃ t, exec ins s = .next t ∧
          (let n := t.work.ctx core c.toNat
           n.st = .ready ∧ n.readyAt = s.cycle + 1 ∧ n.inst = i.id ∧ n.rill = i.rills.length ∧ n.pc = sOp s 0 x ∧ n.kclk = Work.clockNext next.toNat ∧
           (∀ k, k < m.toNat → nth n.s (k + 1) =
             if k < 3 then sOp s (k + 1) (y + BitVec.ofNat 6 k) else s.work.me.sReg (y + BitVec.ofNat 6 k)) ∧
           (∀ k, k < 64 → k = 0 ∨ m.toNat < k → nth n.s k = 0) ∧ n.g = i.streams ∧ n.kstat = (if r.kchk then 2 else 0) ∧
           n.kid = kidWord i.course i.reach i.number core ((i.cores.idxOf? core).getD 0) c.toNat i.rills.length ∧
           n.krnd = r.kseed ++ 0#29 ++ r.krm ∧ n.inflight = [] ∧ n.loop = .none ∧ n.brPend = false) ∧
          t.work.inst? i.id = some { i with rills := i.rills ++ [⟨core, c.toNat, false, 0, false⟩] } ∧
          (c.toNat ≠ s.focus.ctx % 4 → t.work.me.kclk = next)) ∧
    -- DEPDEC
    (∀ (n : BitVec 8) (ins : Instr) (idx : Word), ins = .depdec n ∧ idx = n.setWidth 64 ∨ ins = .depdecS x ∧ idx = sOp s 0 x →
      (s.work.myInst? = none → exec ins s = .next s) ∧
      ∀ i, s.work.myInst? = some i →
        let reaches := ((s.work.course? i.part i.course).map (·.reaches.length)).getD 0
        let w0 := s.work.release.publish
        let w1 := (w0.modPart i.part fun p => { p with raceClock := max p.raceClock (Work.clockNext w0.me.kclk.toNat).toNat }).decrement
          i.part i.course idx.toNat
        (reaches ≤ idx.toNat → exec ins s = .next (left s ({ s.work with freeNext := s.freeNext + 1 }.slotTrap
          { code := 0x10, addr := Config.freeWord s.freeNext } (Work.operands ins s.work)))) ∧
        ∀ r, idx.toNat < reaches → s.work.reach? i.part i.course idx.toNat = some r →
          (r.counter ≠ 0 → exec ins s = .next (left s w1) ∧ w1.reach? i.part i.course idx.toNat = some { r with counter := r.counter - 1 }) ∧
          (r.counter = 0 → exec ins s = .next (left s (w1.slotTrap { code := 0x20, info := idx } (Work.operands ins s.work))) ∧
            ∃ z, w1.reach? i.part i.course idx.toNat = some z ∧ z.counter = 0 ∧ z.counts.depuf = true ∧ z.counts.nfault = r.counts.nfault + 1)) ∧
    -- flumes
    (∀ t w1, access (flumeAt s.work.issuer (aOp s 0 a)) s.work = (.error t, w1) →
      stop (.flput v a) w1 t ∧ stop (.flget v a) w1 t ∧ stop (.flwait a x) w1 t ∧ stop (.fldrop a x) w1 t) ∧
    (∀ f w1, flumeAt s.work.issuer (aOp s 0 a) s.work = (.ok f, w1) →
      let putWord := tileKey f.core (f.off + 8)
      let takeWord := tileKey f.core (f.off + 16)
      let n := (sOp s 1 x).toNat
      (f.count = f.size → exec (.flput v a) s = .next (left s (w1.block (.flumeRoom f.core f.off)))) ∧
      (f.count ≠ f.size → ∃ t, exec (.flput v a) s = .next t ∧ t.work.bytes putWord 4 = leBytes 4 (f.puts + 1).toNat ∧
        (∀ k, k < putWord ∨ putWord + 4 ≤ k →
          (f.entry f.puts ≤ k → k < f.entry f.puts + 128 → t.work.byte k = (lineBytes (vOp s 1 v)).getD (k - f.entry f.puts) 0) ∧
          (k < f.entry f.puts ∨ f.entry f.puts + 128 ≤ k → t.work.byte k = w1.release.byte k)) ∧
        t.work.me.kclk = Work.clockNext w1.me.kclk.toNat) ∧
      (f.count = 0 → exec (.flget v a) s = .next (left s (w1.block (.flumeEntries f.core f.off 1)))) ∧
      (f.count ≠ 0 → w1.badUnit (f.entry f.takes) 128 = none → ∃ t g, exec (.flget v a) s = .next t ∧
        t.work.bytes takeWord 4 = leBytes 4 (f.takes + 1).toNat ∧ (∀ k, k < takeWord ∨ takeWord + 4 ≤ k → t.work.byte k = w1.byte k) ∧
        t.work.me.inflight = w1.me.inflight ++ [g] ∧ g.kind = .vReg ∧ g.reg = v.toNat ∧ g.land = s.focus.issueAt + 5 ∧
        g.value = lineOf (w1.bytes (f.entry f.takes) 128)) ∧
      (f.size < n → stop (.flwait a x) w1 { code := 0x10, addr := aOp s 0 a }) ∧
      (n ≤ f.size → f.count < n → exec (.flwait a x) s = .next (left s (w1.block (.flumeEntries f.core f.off n)))) ∧
      (n ≤ f.size → n ≤ f.count → exec (.flwait a x) s = .next (left s (w1.acquire (w1.sStamp w1.myPart f.line)))) ∧
      ∃ t, exec (.fldrop a x) s = .next t ∧ t.work.bytes takeWord 4 = leBytes 4 (f.takes + BitVec.ofNat 32 (min n f.count)).toNat ∧
        ∀ k, k < takeWord ∨ takeWord + 4 ≤ k → t.work.byte k = w1.release.byte k) ∧
    -- ENQ of a course
    (let ah := aOp s 0 a
     let n := sOp s 1 x
     let ins : Instr := .enqC a x
     let pa := (s.work.part part).qbase + 32 * n.toNat
     (16 ≤ n.toNat ∨ ah.toNat % 128 ≠ 0 → exec ins s = .next (trapped s ins { code := 0x10, addr := ah })) ∧
     ∀ bs w1, n.toNat < 16 → ah.toNat % 128 = 0 → s.work.badUnit pa 32 = none → s.work.homeRead part pa 32 = (bs, w1) →
       let d := queueDesc pa bs
       (d.disabled = true → stop ins w1 { code := 0x10, addr := ah }) ∧
       (d.disabled = false → (d.prod - d.cons).toNat = 2 ^ d.logn → exec ins s = .next (left s (w1.block (.ring pa)))) ∧
       ∀ pl w2 img ph w3 pl2 w4, d.disabled = false → (d.prod - d.cons).toNat ≠ 2 ^ d.logn →
         place s.work.issuer true .global (d.slot d.prod) .write w1 = (.ok pl, w2) → loadAt .global ah 128 w2 = (.ok (img, ph), w3) →
         homeStore .global (d.slot d.prod) (withPhase img (d.phase d.prod)) (w3.release.homeWrite part (pa + 12) (leBytes 4 (d.prod + 1).toNat)) = (.ok pl2, w4) →
         exec ins s = .next (left s (((w4.raiseS part pl w4.me.kclk 128).publish).sample 3 (n.setWidth 16) (d.prod + 1 - d.cons).toNat))) ∧
    -- ENQ of a record, and closing a list
    let al := aOp s 0 a
    let ar := aOp s 1 b
    ∀ p : BitVec 4,
      (al.toNat % 64 ≠ 0 → exec (.enqR p a b) s = .next (trapped s (.enqR p a b) { code := 0x10, addr := al }) ∧
        exec (.enqX a) s = .next (trapped s (.enqX a) { code := 0x10, addr := al })) ∧
      (al.toNat % 64 = 0 → ar.toNat % 32 ≠ 0 → exec (.enqR p a b) s = .next (trapped s (.enqR p a b) { code := 0x10, addr := ar })) ∧
      (∀ t w1, al.toNat % 64 = 0 → listAt al s.work = (.error t, w1) → stop (.enqX a) w1 t ∧ (ar.toNat % 32 = 0 → stop (.enqR p a b) w1 t)) ∧
      ∀ d pl w1, al.toNat % 64 = 0 → listAt al s.work = (.ok (d, pl), w1) →
        (∀ pl2 w2, homeStore .global (al + 24#64) [1#8] w1.release = (.ok pl2, w2) →
          exec (.enqX a) s = .next (left s ((w2.raiseS w2.myPart pl2 w2.me.kclk 1).publish))) ∧
        (ar.toNat % 32 = 0 → d.closed = true → exec (.enqR p a b) s = .next (left s ((w1.release.putP p false 1).publish))) ∧
        ∀ bs p2 w2, ar.toNat % 32 = 0 → d.closed = false → loadAt .global ar 32 w1 = (.ok (bs, p2), w2) →
          (recordBad bs = true → exec (.enqR p a b) s = .next (left s (((w2.release.putP p false 1).countBadRec al).publish))) ∧
          (recordBad bs = false → (d.arrived - d.retired).toNat = 2 ^ d.logn → ∀ pa mt r, pl = .phys pa mt r →
            exec (.enqR p a b) s = .next (left s (w2.block (.list pa)))) ∧
          ∀ ps w3 v3 p4 w4 p5 w5, recordBad bs = false → (d.arrived - d.retired).toNat ≠ 2 ^ d.logn →
            let slot := d.record d.arrived.toNat
            place s.work.issuer true .global slot .write w2 = (.ok ps, w3) →
            -- no unit of the ring slot is uncorrectable
            ((∃ pa mt r, ps = .phys pa mt r ∧ w3.badUnit pa 32 = none ∧ v3 = w3) ∨
              (∃ z, (∀ pa mt r, ps ≠ .phys pa mt r) ∧ readPlace s.work.issuer false ps slot 32 w3 = (.ok z, v3))) →
            homeStore .global slot bs v3.release = (.ok p4, w4) →
            homeStore .global (al + 16#64) (leBytes 4 (d.arrived + 1).toNat) w4 = (.ok p5, w5) →
            exec (.enqR p a b) s = .next (left s (((w5.raiseS part p5 w5.me.kclk 4).putP p true 1).publish))

/-- R45 to R47, R99, R216, R424, R425: the helper cores. A helper that does not run does nothing; one that runs performs one instruction. The ordinary
instructions' meaning is the RISC-V standard's (presumed, log entry 10). ECALL ends the helper; an exception stops it with AUXFAULT, which goes to the lowest
unended rill of its braid on the core, else of the braid. The ix instructions place entries, wait, and move flume entries. -/
def Obligations.HelperCores : Prop :=
  ∀ (s : State) (t r d : BitVec 5), s.Inv →
    let W := s.work
    let core := s.focus.core
    let H := W.hNow
    let X (k : BitVec 5) : Word := W.hx k
    let set (v : BitVec 5 → Word) (pc : Word) (u : State) : Prop :=
      (∀ k, u.work.hx k = if k = 0 then 0 else v k) ∧ u.work.hNow.pc = pc ∧ u.work.hNow.instret = H.instret + 1 ∧ u.work.hNow.st = .running
    let put (k : BitVec 5) (v : Word) : BitVec 5 → Word := fun j => if j = k then v else X j
    let faults (i : Instr) (c v : Word) : Prop := exec i s = .next (lift (fun w => w.hFault c v) s)
    let does (i : Instr) (v : BitVec 5 → Word) (pc : Word) : Prop := ∃ u, exec i s = .next u ∧ set v pc u ∧ u.mem = s.mem
    -- one that does not run
    (H.st ≠ .running → (∀ op n, exec (.helperInstruction op n) s = .next s) ∧ exec .ecall s = .next s ∧ exec .ebreak s = .next s ∧
      exec (.ixCpy t r d) s = .next s ∧ exec (.ixHreq t r d) s = .next s ∧ exec (.ixHwait t r d) s = .next s ∧ exec (.ixQfence t r d) s = .next s ∧
      exec (.ixFlget t r d) s = .next s ∧ exec (.ixFlput t r d) s = .next s ∧ exec (.ixFlwait t r d) s = .next s ∧ exec (.ixFldrop t r d) s = .next s) ∧
    -- exceptions
    (∀ c v, (W.hFault c v).hNow.st = .faulted ∧ (W.hFault c v).hNow.fault = some (c, v, H.pc) ∧
      (W.hFault c v).pending = s.pending ++ [⟨core, s.focus.outfall.toNat, .auxfault⟩]) ∧
    (∀ i mc mv me, W.inst? H.inst = some i → H.fault = some (mc, mv, me) → ∃ u, exec .auxfault s = .next u ∧ u.mem = s.mem ∧ u.work.hNow.fault = none ∧
      (∀ x, W.reach? i.part i.course i.reach = some x → ∃ y, u.work.reach? i.part i.course i.reach = some y ∧ y.counts.nfault = x.counts.nfault + 1) ∧
      ∀ k n, u.work.ctx k n =
        if ∃ x, (((i.rills.filter fun x => !x.ended).filter fun x => x.core == core) ++ i.rills.filter fun x => !x.ended).head? = some x ∧
            x.core = k ∧ x.ctx % 4 = n % 4 ∧ (W.ctx k n).inst = i.id
        then { W.ctx k n with held := (W.ctx k n).held ++ [.aux s.focus.outfall mc mv me] } else W.ctx k n) ∧
    (H.st = .running →
      (∃ u, exec .ecall s = .next u ∧ u.work.hNow = { H with st := .ended } ∧ u.mem = s.mem) ∧ faults .ebreak 3 H.pc ∧
      -- ordinary instructions
      (∀ (n : BitVec 3) (a b : BitVec 5) (op : RvAlu) (un : RvUnary) (c : RvCond) (i20 : BitVec 20) (i12 : BitVec 12) (o13 : BitVec 13) (o21 : BitVec 21),
        let ins (o : RvInstr) : Instr := .helperInstruction o n
        let past := H.pc + BitVec.ofNat 64 n.toNat
        does (ins (.lui d i20)) (put d ((i20 ++ 0#12).signExtend 64)) past ∧
        does (ins (.auipc d i20)) (put d (H.pc + (i20 ++ 0#12).signExtend 64)) past ∧
        does (ins (.jal d o21)) (put d past) (H.pc + o21.signExtend 64) ∧
        does (ins (.jalr d a i12)) (put d past) ((X a + i12.signExtend 64) &&& ~~~1#64) ∧
        does (ins (.branch c a b o13)) X (if rvCond c (X a) (X b) then H.pc + o13.signExtend 64 else past) ∧
        does (ins (.opImm op d a i12)) (put d (rvAlu op (X a) (i12.signExtend 64))) past ∧ does (ins (.op op d a b)) (put d (rvAlu op (X a) (X b))) past ∧
        does (ins (.unary un d a)) (put d (rvUnary un (X a))) past ∧ does (ins .fence) X past ∧
        faults (ins .illegal) 2 (W.hWord n.toNat) ∧ (∀ ad, faults (ins (.fetchFault ad)) 1 ad) ∧
        (∀ (isImm : Bool) (num : BitVec 12), (W.hCsr num = none → faults (ins (.csr .rs isImm d a num)) 2 (W.hWord n.toNat)) ∧
          (a ≠ 0 → faults (ins (.csr .rs isImm d a num)) 2 (W.hWord n.toNat)) ∧ faults (ins (.csr .rw isImm d a num)) 2 (W.hWord n.toNat) ∧
          ∀ v, W.hCsr num = some v → does (ins (.csr .rs isImm d 0 num)) (put d v) past ∧ does (ins (.csr .rc isImm d 0 num)) (put d v) past) ∧
        -- loads, stores and atomics on private memory
        ∀ (z : BitVec 2) (zx dbl : Bool) (amo : RvAmo),
          let m := 2 ^ z.toNat
          let ad := X a + i12.signExtend 64
          let w := if dbl then 8 else 4
          let old := W.hRead (X a) w
          (ad.toNat % m ≠ 0 → faults (ins (.load z zx d a i12)) 4 ad ∧ faults (ins (.store z a b i12)) 6 ad) ∧
          (ad.toNat % m = 0 → (Work.isReadable ad m = false → faults (ins (.load z zx d a i12)) 5 ad) ∧
            (Work.isReadable ad m = true → does (ins (.load z zx d a i12)) (put d (Work.extend m zx (W.hRead ad m))) past) ∧
            (Work.isData ad m = false → faults (ins (.store z a b i12)) 7 ad) ∧
            (Work.isData ad m = true → ∃ u, exec (ins (.store z a b i12)) s = .next u ∧ set X past u ∧
              ∀ q, u.work.byte q = if W.hKey ad ≤ q ∧ q < W.hKey ad + m then (leBytes m (X b).toNat).getD (q - W.hKey ad) 0 else W.byte q)) ∧
          ((X a).toNat % w ≠ 0 → faults (ins (.lr dbl d a)) 4 (X a) ∧ faults (ins (.sc dbl d a b)) 6 (X a) ∧ faults (ins (.amo amo dbl d a b)) 6 (X a)) ∧
          ((X a).toNat % w = 0 → Work.isData (X a) w = false →
            faults (ins (.lr dbl d a)) 5 (X a) ∧ faults (ins (.sc dbl d a b)) 7 (X a) ∧ faults (ins (.amo amo dbl d a b)) 7 (X a)) ∧
          ((X a).toNat % w = 0 → Work.isData (X a) w = true →
            (∃ u, exec (ins (.lr dbl d a)) s = .next u ∧ set (put d (Work.extend w false old)) past u ∧ u.work.hNow.reserved = some ((X a).toNat, w) ∧ u.mem = s.mem) ∧
            (∃ u, exec (ins (.sc dbl d a b)) s = .next u ∧ u.work.hNow.reserved = none ∧
              (H.reserved = some ((X a).toNat, w) → set (put d 0) past u ∧
                ∀ q, u.work.byte q = if W.hKey (X a) ≤ q ∧ q < W.hKey (X a) + w then (leBytes w (X b).toNat).getD (q - W.hKey (X a)) 0 else W.byte q) ∧
              (H.reserved ≠ some ((X a).toNat, w) → set (put d 1) past u ∧ u.mem = s.mem)) ∧
            ∃ u, exec (ins (.amo amo dbl d a b)) s = .next u ∧ set (put d (Work.extend w false old)) past u ∧
              ∀ q, u.work.byte q = if W.hKey (X a) ≤ q ∧ q < W.hKey (X a) + w
                then (leBytes w (rvAmoNew amo w old (X b)).toNat).getD (q - W.hKey (X a)) 0 else W.byte q)) ∧
      -- ix.cpy and ix.hreq
      (let queued (i : Instr) (q : Nat) (kind : EntryKind) (cw : Word) : Prop :=
         (W.queueFull core q = true → exec i s = .next s) ∧
         (W.queueFull core q = false → ∃ u, exec i s = .next u ∧ set (put d 0) (H.pc + 4) u ∧ u.mem = s.mem ∧ nth u.work.here.queues q = nth W.here.queues q ++
           [{ kind := kind, cw := cw, who := W.helperWho, started := false, desc := none, units := 0, page := .none, hold := [], net := none }])
       let desc := lineOf (W.bytes (W.hKey (X t)) 128)
       let arg (k : Nat) : Word := wordOf (((W.bytes (W.hKey (X t)) 24).drop (8 * k)).take 8)
       let bad := HandleRec.requestBad (W.part W.helperWho.part) (X r) (arg 0) (arg 1) (arg 2) = true
       ((X t).toNat % 8 ≠ 0 → faults (.ixCpy t r d) 4 (X t) ∧ faults (.ixHreq t r d) 4 (X t)) ∧
       ((X t).toNat % 8 = 0 →
         (Work.isData (X t) 128 = false → faults (.ixCpy t r d) 5 (X t)) ∧ (Work.isData (X t) 24 = false → faults (.ixHreq t r d) 5 (X t)) ∧
         (Work.isData (X t) 128 = true → (4 ≤ (X r).toNat ∨ (CopyDesc.cwaddr desc).toNat % 8 ≠ 0 → does (.ixCpy t r d) (put d 1) (H.pc + 4)) ∧
           ((X r).toNat < 4 → (CopyDesc.cwaddr desc).toNat % 8 = 0 → queued (.ixCpy t r d) (X r).toNat (.ixCopy desc) (CopyDesc.cwaddr desc))) ∧
         (Work.isData (X t) 24 = true → (bad → does (.ixHreq t r d) (put d 1) (H.pc + 4)) ∧
           (¬bad → queued (.ixHreq t r d) 5 (.hreq (X r) (arg 0) (arg 1) (arg 2)) 0)))) ∧
      -- ix.hwait
      (let own := (W.part W.helperWho.part).ownsHandle (X r) = true
       let n := (X r).toNat
       let m : BitVec 2 := field (X t) 0 2
       let wait := (W.handle n).verdict m = .wait
       (∀ v, H.found = some v → does (.ixHwait t r d) (put d v) (H.pc + 4) ∧ ∀ u, exec (.ixHwait t r d) s = .next u → u.work.hNow.found = none) ∧
       (H.found = none → H.waiting.isSome = true → exec (.ixHwait t r d) s = .next s) ∧
       (H.found = none → H.waiting = none →
         (¬own → faults (.ixHwait t r d) 5 (X r)) ∧
         (own → wait → ∃ u, exec (.ixHwait t r d) s = .next u ∧ u.work.hNow = { H with waiting := some (n, m) } ∧
           u.work.handle n = { W.handle n with waiters := (W.handle n).waiters + 1 }) ∧
         (own → ¬wait → does (.ixHwait t r d) (put d (W.handle n).word0) (H.pc + 4)))) ∧
      -- a transition of the handle it waits for gives it what it found, and the record one waiter fewer
      (∀ n m, H.waiting = some (n, m) →
        ((W.handle n).verdict m = .wait → W.helperLooks n core s.focus.outfall = W) ∧
        ((W.handle n).verdict m ≠ .wait → let V := W.helperLooks n core s.focus.outfall
          V.hNow = { H with waiting := none, found := some (V.handle n).word0 } ∧
          V.handle n = if (W.handle n).waiters = 0 then W.handle n else { W.handle n with waiters := (W.handle n).waiters - 1 })) ∧
      -- ix.qfence
      (let m := X r
       let full := ∃ q, q < 8 ∧ m.getLsbD q = true ∧ W.queueFull core q = true
       (256 ≤ m.toNat → faults (.ixQfence t r d) 2 (W.hWord 4)) ∧ (m.toNat < 256 → full → exec (.ixQfence t r d) s = .next s) ∧
       (m.toNat < 256 → ¬full → does (.ixQfence t r d) X (H.pc + 4) ∧ ∀ u, exec (.ixQfence t r d) s = .next u → ∀ q, q < 8 →
         nth u.work.here.queues q = nth W.here.queues q ++ if m.getLsbD q then
           [{ kind := .marker s.markerNext m.toNat, cw := 0, who := W.helperWho, started := false, desc := none, units := 0, page := .none, hold := [],
              net := none }] else [])) ∧
      -- flumes
      (∀ b w1, flumeAt W.helperWho (X r) W = (.error b, w1) → ∀ i, i = .ixFlget t r d ∨ i = .ixFlput t r d ∨ i = .ixFlwait t r d ∨ i = .ixFldrop t r d →
        exec i s = .next (left s (w1.hFault 5 b.trap.addr))) ∧
      ∀ f w1, flumeAt W.helperWho (X r) W = (.ok f, w1) →
        let n := (X t).toNat
        let done (w : Work) (v : Word) : Host.Outcome State Fault Refusal := .next (left s ((w.setHx d v).hNext 4))
        (f.size < n → exec (.ixFlwait t r d) s = .next (left s (w1.hFault 5 (X r)))) ∧
        (n ≤ f.size → exec (.ixFlwait t r d) s = if f.count < n then .next (left s w1) else done w1 (BitVec.ofNat 64 f.count)) ∧
        exec (.ixFldrop t r d) s = done ((w1.raiseS W.helperWho.part f.line 1).flumeTake f (min n f.count)) (BitVec.ofNat 64 (min n f.count)) ∧
        (n % 128 ≠ 0 → exec (.ixFlget t r d) s = .next (left s (w1.hFault 5 (X t))) ∧ exec (.ixFlput t r d) s = .next (left s (w1.hFault 5 (X t)))) ∧
        (∀ pl w2, n % 128 = 0 → place W.helperWho false .cluster (X t) .write w1 = (.ok pl, w2) →
          (f.count = 0 → exec (.ixFlget t r d) s = .next (left s w2)) ∧
          ∀ w3, f.count ≠ 0 → w2.badUnit (f.entry f.takes) 128 = none →
            writePlace W.helperWho true pl (X t) (w2.bytes (f.entry f.takes) 128) w2 = (.ok (), w3) → exec (.ixFlget t r d) s = done (w3.flumeTake f 1) 0) ∧
        ∀ pl w2, n % 128 = 0 → place W.helperWho false .cluster (X t) .read w1 = (.ok pl, w2) →
          (f.count = f.size → exec (.ixFlput t r d) s = .next (left s w2)) ∧
          ∀ bs w3, f.count ≠ f.size → readPlace W.helperWho true pl (X t) 128 w2 = (.ok bs, w3) →
            exec (.ixFlput t r d) s = done ((w3.raiseS W.helperWho.part f.line 1).flumePut f bs) 0)

/-! ## The scheduler -/

/-- R255, R262 to R266, R272 to R275, R37, R85, R298 to R301: starting a course, selecting a reach (earliest deadline, then most tokens, then the queue
next in cyclic order), placing or pre-empting for it, ageing, loading and replaying what a placement needs, saving a frozen instance. A partition that is
absent, stopped or swapped out is left alone, and a step whose condition does not hold does nothing. Model's choices: a selection that needs a victim or waits
for DRAIN is held until it is placed, with the tokens and the deadline it had (log entry 79); a frozen instance is a record of State (61), and one swapped out
keeps the checkpoint it had (130); what a replay's page reads are ordered by (135). -/
def Obligations.Scheduling : Prop :=
  ∀ (s : State) (part q core seq k id b : Nat) (sigOk : Bool),
    let W := s.work
    let P := W.part part
    let idle := P.live = false ∨ P.stopped = true ∨ P.swapped = true
    -- what decides about LISTED iterations is read at their descriptors, which nothing but a hold of traffic can show
    let L := W.readLists part
    (W.noneHeld = true → L = W) ∧
    (idle → exec (.courseStart part q) s = .next s ∧ exec (.selectReach part) s = .next s ∧ exec (.placeInst part) s = .next s) ∧
    -- COURSE_START
    (¬idle → (W.courseReady part q = false → exec (.courseStart part q) s = .next s) ∧
      (∀ w1, W.queueHead part q = (none, w1) → exec (.courseStart part q) s = .next (left s (w1.stopPartition part))) ∧
      ∀ d h w1, W.queueHead part q = (some (d, some h), w1) → W.courseReady part q = true →
        exec (.courseStart part q) s = .next (left s (w1.startCourse part q d h))) ∧
    -- SELECT
    (¬idle → (P.selected.isSome = true → exec (.selectReach part) s = .next s) ∧
      (P.selected = none → L.candidates part = [] → exec (.selectReach part) s = .next (left s L)) ∧
      (P.selected = none → L.candidates part ≠ [] → ∃ x ∈ L.candidates part, ∃ t, exec (.selectReach part) s = .next t ∧
        t = left s (L.modPart part fun p => { p with selected := some ⟨x.1.seq, x.2.1, x.2.2.tokens, x.2.2.deadline, none⟩, lastQueue := x.1.queue }) ∧
        ∀ y ∈ L.candidates part, Work.chosenBefore P.lastQueue y x = false)) ∧
    (∀ (last : Nat) (x y : Course × Nat × Reach),
      let dl (z : Course × Nat × Reach) := z.2.2.deadline
      let tok (z : Course × Nat × Reach) := min z.2.2.tokens 65535
      let turn (z : Course × Nat × Reach) := (z.1.queue + 15 - last) % 16
      Work.chosenBefore last x y = true ↔ dl x < dl y ∨ dl x = dl y ∧ (tok y < tok x ∨ tok y = tok x ∧ turn x < turn y)) ∧
    (∀ x : Course × Nat × Reach, x ∈ W.candidates part ↔ x.1 ∈ P.courses ∧ x.1.reaches[x.2.1]? = some x.2.2 ∧ x.2.2.deferred = false ∧
      W.ready part x.1.seq x.2.1 x.2.2 = true) ∧
    (∀ r : Reach, W.ready part seq k r = true ↔ r.complete = false ∧ r.passed = false ∧ s.ns < r.deadline ∧ r.counter = 0 ∧ r.counts.rejected = false ∧
      (W.frozenOf part seq k ≠ [] ∨ r.reruns ≠ [] ∨ W.hasNew part r = true)) ∧
    -- PLACE
    (¬idle → ((L.part part).selected = none → exec (.placeInst part) s = .next (left s L)) ∧
      ∀ sel, (L.part part).selected = some sel →
        let drop (w : Work) : Work := w.modPart part fun p => { p with selected := none }
        (L.waitsFor sel = true → exec (.placeInst part) s = .next (left s L)) ∧
        (L.waitsFor sel = false →
          (L.reach? part sel.course sel.reach = none → exec (.placeInst part) s = .next (left s (drop L))) ∧
          ∀ r, L.reach? part sel.course sel.reach = some r →
            let fit := L.fitting part sel.course sel.reach r none (L.clustersOf part)
            (L.ready part sel.course sel.reach r = false → exec (.placeInst part) s = .next (left s (drop L))) ∧
            (L.ready part sel.course sel.reach r = true →
              (fit ≠ [] → ∃ cs ∈ fit, ∃ w1, L.pick fit = (some cs, w1) ∧
                exec (.placeInst part) s = .next (left s ((drop w1).placeOn part sel.course sel.reach r cs))) ∧
              (fit = [] →
                (∀ v x, sel.victim = none → L.victim part sel.course sel.reach sel.tokens sel.deadline r = some v →
                  L.reachOf v = some x →
                  exec (.placeInst part) s = .next (left s (L.preempt part sel.course sel.reach v x))) ∧
                (sel.victim.isSome = true ∨ L.victim part sel.course sel.reach sel.tokens sel.deadline r = none →
                  exec (.placeInst part) s = .next (left s (
                    (drop L).modReach part sel.course sel.reach fun r => { r with deferred := true }))))))) ∧
    -- no placement is made in a cluster where a core waits for its spare, and so no victim is taken for one
    (∀ c, c ∈ W.clustersOf part ↔ c < 32 ∧ P.live = true ∧ P.desc.getLsbD c = true ∧ ∀ k, k < 4 → (W.core (4 * c + k)).spareDue = none) ∧
    (∀ tok dl r v, W.victim part seq k tok dl r = some v → ∃ c ∈ W.clustersOf part, c = v.cores.getD 0 0 / 4 ∧ W.fitting part seq k r (some v.id) [c] ≠ []) ∧
    (∀ (w : Work) (r : Reach) (cs : List Nat),
      (∀ i rest sv, w.frozenOf part seq k = i :: rest → i.saved = some sv → w.placeOn part seq k r cs = w.bindFrozen i r sv cs) ∧
      (∀ it rest, w.frozenOf part seq k = [] → r.reruns = it :: rest →
        w.placeOn part seq k r cs = (w.modReach part seq k fun r => { r with reruns := rest }).bindNew part seq k r cs it true) ∧
      (w.frozenOf part seq k = [] → r.reruns = [] →
        w.placeOn part seq k r cs = (w.modReach part seq k fun r =>
          { r with nextIter := if r.kind = 0 then r.nextIter + 1 else (r.nextIter + 1) % 2 ^ 32 }).bindNew part seq k r cs r.nextIter false)) ∧
    (∀ (w : Work) (v : Inst) (x : Reach),
      let paid := ((w.modReach part seq k fun r => { r with tokens := r.tokens - 1 }).modReach part v.course v.reach fun r =>
        { r with tokens := min (r.tokens + 1) 65535, counts := { r.counts with preempt := r.counts.preempt + 1 } })
      let chosen := paid.modPart part fun p => { p with selected := p.selected.map fun s => { s with victim := some v.id } }
      let est := paid.estimate v
      (est ≤ x.drainLim → w.preempt part seq k v x = chosen.modInst v.id fun i => { i with drained := true }) ∧
      (x.drainLim < est → x.killable = true → x.killLim ≤ est → chosen.hasPublished v = false → w.preempt part seq k v x = chosen.killInst v.id true) ∧
      (x.drainLim < est → x.killable = false ∨ est < x.killLim ∨ chosen.hasPublished v = true → w.preempt part seq k v x = chosen.beginFreeze v.id)) ∧
    -- TOKEN_AGE
    ((L.reach? part seq k = none → exec (.tokenAge part seq k) s = .next (left s L)) ∧
      ∀ r, L.reach? part seq k = some r →
        let old := L.ready part seq k r = true ∧ r.waitNs + 10000 ≤ s.ns
        (¬old → exec (.tokenAge part seq k) s = .next (left s L)) ∧
        (old → exec (.tokenAge part seq k) s = .next (left s (L.modReach part seq k fun r =>
          { r with tokens := min (r.tokens + 1) 65535, waitNs := r.waitNs + 10000 })))) ∧
    -- DICT_LOAD
    (let loading := fun i : Inst => i.st == .loading && i.part == part && i.cores.contains core
     (s.insts.find? loading = none → exec (.dictLoad core part sigOk) s = .next s) ∧
     ∀ i r, s.insts.find? loading = some i → W.reachOf i = some r →
       (W.needsDict part r core = false → exec (.dictLoad core part sigOk) s = .next (lift (fun w => w.tryStart i.id) s)) ∧
       (W.needsDict part r core = true → exec (.dictLoad core part sigOk) s = .next (lift (fun w => (w.loadDict core part r sigOk).tryStart i.id) s)) ∧
       ∃ d, ((W.loadDict core part r sigOk).core core).dict = some d ∧ d.part = part ∧ d.addr = r.dict ∧ d.bundles.length = r.ndict ∧ d.loops.length = r.nloop ∧
         (sigOk = false → ∀ e ∈ d.bundles, e = .bad 0)) ∧
    (∀ (w : Work) (i : Inst), w.inst? id = some i →
      (i.st ≠ .loading ∨ w.loadsPending i = true → w.tryStart id = w) ∧
      (i.st = .loading → w.loadsPending i = false → (w.tryStart id).inst? id = some { i with st := .running } ∧
        ∀ r ∈ i.rills, (w.ctx r.core r.ctx).inst = id → (w.ctx r.core r.ctx).st = .reserved →
          ((w.tryStart id).ctx r.core r.ctx).st = if (w.ctx r.core r.ctx).block.isSome then .blocked else .ready)) ∧
    -- BPLANE_LOG_REPLAY
    ((∀ i, W.inst? id = some i → i.st = .loading →
        let at0 := i.cores.getD b 0
        let log := i.logs.getD b ⟨[], []⟩
        let hand := Tab.get i.replays b .none
        let again (w : Work) (h : PageHand) : Host.Outcome State Fault Refusal := .next (left s
          { w.modInst i.id fun i => { i with replays := Tab.set i.replays b h } with
            postponed := w.postponed ++ [⟨at0, 0, .bplaneLogReplay i.id b⟩] })
        -- with every flash page in hand the whole log is refetched; otherwise the page that is missing is read, and the log is begun again
        (∀ got v, hand.read = none → W.replayLog i at0 log hand = (got, v) →
          (got.read = none → exec (.bplaneLogReplay id b) s =
            .next (left s ((v.modInst i.id fun i => { i with replays := Tab.erase i.replays b }).tryStart i.id))) ∧
          (got.read.isSome = true → exec (.bplaneLogReplay id b) s = again { W with readNext := v.readNext } got)) ∧
        (∀ x y v, hand.read = some x → W.readOn x = (y, v) → exec (.bplaneLogReplay id b) s = again v (match y with
          | .waits => hand | .had => v.handPage hand x.page | .goesOn z => { hand with read := some z } | .lost => ⟨hand.pages ++ [(x.page, [])], none⟩))) ∧
      (W.inst? id = none → exec (.bplaneLogReplay id b) s = .next s) ∧
      (∀ i, W.inst? id = some i → i.st ≠ .loading → exec (.bplaneLogReplay id b) s = .next s) ∧
      ∀ c u, ∀ n, n ∈ (W.spoilUnit core c u).poison ↔ bplaneKey core c u 0 / 8 ≤ n ∧ n < bplaneKey core c u 0 / 8 + 8 ∨ n ∈ s.poison) ∧
    -- FREEZE
    ((W.inst? id = none → exec (.freezeInst id) s = .next s) ∧
      ∀ i, W.inst? id = some i → (W.freezeDue i = false → exec (.freezeInst id) s = .next s) ∧
        (W.freezeDue i = true → ∃ t j sv, exec (.freezeInst id) s = .next t ∧ t = lift (fun w => w.saveInst i) s ∧ t.work.inst? id = some j ∧
          j.st = .frozen ∧ j.keep = (if sv.inShadow then i.keep else none) ∧ j.saved = some sv ∧ sv.rills = i.rills ∧ sv.episodes = i.episodes ∧ sv.logs = i.logs ∧ sv.counter = i.counter))

/-- R48, R50, R253, R271, R276, R281, R295: a budget that runs out is told to every unended rill once, and kills an instance in grace; a deadline cancels
what is queued of its reach; events held for a rill are taken when it presents its next bundle, but not while a handler runs; instances, reaches and courses
complete when the rules say. -/
def Obligations.EventsCompletions : Prop :=
  ∀ (s : State) (part seq k id : Nat) (x : Word),
    let W := s.work
    let L := W.readLists part
    (W.noneHeld = true → L = W) ∧
    -- BUDGET_EXHAUSTED
    (W.inst? id = none → exec (.budgetExhausted id) s = .next s ∧ exec (.instanceComplete id) s = .next s) ∧
    (∀ i, W.inst? id = some i →
      (i.counter ≠ 0 ∨ i.st ≠ .running → exec (.budgetExhausted id) s = .next s) ∧
      (i.counter = 0 → i.st = .running →
        (i.grace = true → exec (.budgetExhausted id) s = .next (lift (fun w => w.killInst id false) s)) ∧
        (i.grace = false → i.budgetSent = true → exec (.budgetExhausted id) s = .next s) ∧
        (i.grace = false → i.budgetSent = false → exec (.budgetExhausted id) s = .next (lift (fun w =>
          ((w.modInst id fun i => { i with budgetSent := true }).modReach i.part i.course i.reach fun r =>
            { r with counts := { r.counts with budgets := r.counts.budgets + 1 } }).holdAll i .budget) s)))) ∧
    (∀ (w : Work) (i : Inst) (e : HeldEvent) (n c : Nat), ∃ m, (w.holdAll i e).ctx n c = { w.ctx n c with held := (w.ctx n c).held ++ List.replicate m e } ∧
      (0 < m ↔ ∃ r ∈ i.rills, r.ended = false ∧ r.core = n ∧ r.ctx % 4 = c % 4 ∧ (w.ctx n c).inst = i.id)) ∧
    -- BUDGET, DEADLINE and EXTERN reach a rill
    (let held (i : Instr) (e : HeldEvent) : Prop := ∃ t, exec i s = .next t ∧ t.mem = s.mem ∧
       t.work.me = (if W.me.inst = 0 then W.me else { W.me with held := W.me.held ++ [e] }) ∧
       ∀ n c, n ≠ s.focus.core ∨ c % 4 ≠ s.focus.ctx % 4 → t.work.ctx n c = W.ctx n c
     held .budgetTrap .budget ∧ held .deadlineTrap .deadline ∧ held (.externTrap x) (.external x)) ∧
    (∀ e rest, W.me.notBefore ≤ s.cycle → W.me.resumed = false → W.me.held = e :: rest → W.frameBusy.1 ≠ some true →
      present s = .next (lift (fun w => w.takeHeld e rest) s)) ∧
    -- REACH_DEADLINE
    ((W.reach? part seq k = none → exec (.reachDeadline part seq k) s = .next s) ∧ (L.reach? part seq k = none → exec (.reachComplete part seq k) s = .next (left s L)) ∧
      ∀ r, W.reach? part seq k = some r →
        (r.complete = true ∨ r.passed = true ∨ s.ns < r.deadline → exec (.reachDeadline part seq k) s = .next s) ∧
        (r.complete = false → r.passed = false → r.deadline ≤ s.ns →
          exec (.reachDeadline part seq k) s = .next (left s (L.deadlinePassed part seq k r))) ∧
        (r.kind = 0 → ∃ y, (W.cancel part seq k r).reach? part seq k = some y ∧ y.passed = true ∧ y.reruns = [] ∧ y.counts.deadline = true ∧
          y.counts.nskip = r.counts.nskip + (r.total - r.nextIter) + r.reruns.length ∧ r.total ≤ y.nextIter) ∧
        -- REACH_COMPLETE, once no instance is left, a killed one with queued entries among them
        (L.reach? part seq k = some r → L.reachDue part seq k r = false → exec (.reachComplete part seq k) s = .next (left s L)) ∧
        (L.reach? part seq k = some r → L.reachDue part seq k r = true → exec (.reachComplete part seq k) s = .next (left s (L.completeReach part seq k))) ∧
        (W.reachDue part seq k r = true ↔ r.complete = false ∧
          if r.passed then W.unendedOf part seq k = []
          else s.ns < r.deadline ∧ r.counter = 0 ∧ W.unendedOf part seq k = [] ∧ r.reruns = [] ∧ W.exhausted part r = true ∧
            ∀ g ∈ r.regs, W.tileSettled g.header = true)) ∧
    -- INSTANCE_COMPLETE
    (∀ i, W.inst? id = some i →
      (W.instDue i = false → exec (.instanceComplete id) s = .next s) ∧
      (W.instDue i = true → ∃ t, exec (.instanceComplete id) s = .next t ∧ t = left s ((W.readLists i.part).endInst i) ∧ (∀ j ∈ t.insts, j.id ≠ id) ∧
        ∀ j ∈ s.insts, j.id ≠ id → ∃ h ∈ t.insts, h.id = j.id) ∧
      (W.instDue i = true ↔ W.entriesOf id = [] ∧ (i.st = .killed ∨ i.st = .running ∧
        (∀ r ∈ i.rills, r.ended = true ∧ (W.ctx r.core r.ctx).inst ≠ id) ∧
        ∀ n ∈ i.cores, ∀ o : Bool, (W.helper n o).inst ≠ id ∨ (W.helper n o).st ≠ .running))) ∧
    -- COURSE_COMPLETE
    (W.course? part seq = none → exec (.courseComplete part seq) s = .next s) ∧
    ∀ c, W.course? part seq = some c →
      (W.courseDue c = false → exec (.courseComplete part seq) s = .next s) ∧
      (W.courseDue c = true → ∃ t, exec (.courseComplete part seq) s = .next t ∧ t = lift (fun w => w.completeCourse part seq) s ∧
        ∀ y ∈ (t.work.part part).courses, y.seq ≠ seq) ∧
      (W.courseDue c = true ↔ (∀ r ∈ c.reaches, r.complete = true ∧ r.reruns = []) ∧ ∀ g ∈ c.tiles, W.tileSettled g = true)

/-! ## Flash -/

/-- R209, R212, R215, R220 to R224, R227, R228, R24: a page read that decodes is written to its place, which must be HBM, and its plane may arrive; one
that fails is rebuilt from the other stacks of its stripe, each read first, or lost; blocks are queued, copied, switched, erased and retired; the health
registers are copied out. A step that is not due does nothing. Model's choices: FAULT 2 or 3 for a page that cannot be written to DEST (log entry 25); a
block out of service is queued, copied, switched and erased by steps of its own (42, 131); HH_SEQ is released at the race clock (137). -/
def Obligations.FlashPages : Prop :=
  ∀ (s : State) (h page j b : Nat) (corr : List (Option Nat)) (ok : Bool) (ms : List (Option Nat)), s.Inv →
    s.work.noneHeld = true →
    let W := s.work
    let R := W.handle h
    let started := R.reads.find? fun x => x.page == page && x.st == .started && decide (x.dueNs ≤ s.ns)
    let failed := R.reads.find? fun x => x.page == page && Work.PageRead.gathered W x
    -- PAGE_READ
    (started = none → ∀ c, exec (.pageRead h page c) s = .next s) ∧
    (∀ x, started = some x →
      let stack := pageStack (R.lpage.toNat + page)
      let read (c : Option Nat) (w : Work) : Work := (w.countRead stack x.block true c).sample 2 (BitVec.ofNat 16 (h / 8192))
        (s.ns + Config.flashNs - x.dueNs)
      (∀ c, exec (.pageRead h page (some c)) s = .next (lift (fun w => (read (some c) w).finishRead h page) s)) ∧
      exec (.pageRead h page none) s = .next (lift (fun w => (read none w).modRead h page (Work.PageRead.reconstruct (read none w) stack)) s)) ∧
    (∀ (w : Work) (k : Nat) (x : PageRead), let y := Work.PageRead.reconstruct w k x
      y.st = .failed ∧ y.page = x.page ∧ y.block = x.block ∧
      ∀ m, m ∈ y.members ↔ m.stack < 8 ∧ m.stack ≠ k ∧ (w.stack m.stack).inService = true ∧ m.dueNs = none ∧ m.block = 0) ∧
    (∀ x : PageRead, Work.PageRead.gathered W x = true ↔ x.st = .failed ∧ ∀ m ∈ x.members, (∃ t, m.dueNs = some t ∧ t ≤ s.ns) ∨
      m.dueNs = none ∧ (W.stack m.stack).inService = false) ∧
    (∀ (w : Work) (d : Bool) (c : Option Nat), let B := w.block_ j b
      ((w.countRead j b d c).block_ j b).disturb = (if d then min (B.disturb + 1) (2 ^ 32 - 1) else B.disturb) ∧
      ((w.countRead j b d c).block_ j b).reads = B.reads + 1) ∧
    -- a page that is had
    (∀ (w : Work) (res : Except Bad Unit) (w1 : Work), let r := w.handle h
      let at0 := r.dest + BitVec.ofNat 64 (16384 * page)
      (do Work.destPage r.who at0; engWriteMany r.who .global at0 (w.bytes (pageKey (r.lpage.toNat + page)) 16384) : Acc Unit) w = (res, w1) →
      let rest : HandleRec := { w1.handle h with reads := (w1.handle h).reads.filter fun x => x.page != page }
      (res = .ok () → w.finishRead h page = (w1.setHandle h rest).arrivals h) ∧
      ∀ e, res = .error e → w.finishRead h page = (w1.setHandle h rest).faultHandle h (match e with | .xlate _ _ => 2 | _ => 3)) ∧
    (∀ (w w1 : Work) (who : Issuer) (at0 : Word) (pa : Nat) (mt : BitVec 2) (race : Bool),
      place who false .global at0 .write w = (.ok (.phys pa mt race), w1) →
      Work.destPage who at0 w = (if isHbm pa = true ∧ mt.toNat < 2 then .ok () else .error (.access at0), w1)) ∧
    (∀ w : Work, let r := w.handle h
      let z := (w.arrivals h).handle h
      r.req = 1 → r.state = 1 ∨ r.state = 2 → r.arrived = 0 → r.cancelled.getLsbD 0 = false → (∀ x ∈ r.reads, r.planeOf x.page ≠ 0) →
        z.state = 3 ∧ z.arrived = 1 ∧ z.hc = r.clockNow ∧ z.lat = r.latAt w.ns) ∧
    (∀ w : Work, let r := w.handle h
      let z := (w.faultHandle h 1).handle h
      r.state ≠ 0 → r.state ≠ 4 → z.state = 4 ∧ z.fault = 1 ∧ (∀ x ∈ z.reads, PageRead.begun x = true) ∧
        ∀ x ∈ r.reads, PageRead.begun x = true → x ∈ z.reads) ∧
    -- a page whose stack was found out of service has not been started on before the first read of its stripe
    (∀ x : PageRead, PageRead.begun x = true ↔ x.st = .started ∨ x.dueNs ≠ 0 ∨ ∃ m ∈ x.members, m.dueNs.isSome = true) ∧
    -- PAGE_RECONSTRUCT
    (failed = none → exec (.pageReconstruct h page ms) s = .next s) ∧
    (∀ x w1 done, failed = some x →
      W.rebuild (pageStack (R.lpage.toNat + page)) (pageBlock (R.lpage.toNat + page)) x.block x.members ms = (done, w1) →
      (done = true → exec (.pageReconstruct h page ms) s = .next (left s (w1.finishRead h page))) ∧
      (done = false → exec (.pageReconstruct h page ms) s = .next (left s
        ((w1.setHandle h { w1.handle h with reads := (w1.handle h).reads.filter fun x => x.page != page }).faultHandle h 1))) ∧
      (done = true ↔ ∀ i, i < 7 → (∃ c, ms[i]? = some (some c)) ∧
        (W.stack (if i < pageStack (R.lpage.toNat + page) then i else i + 1)).inService = true)) ∧
    -- blocks
    (let B := W.block_ j b
     let blocks (i : Instr) (B' : Block) : Prop := ∃ t, exec i s = .next t ∧ t.work.block_ j b = B' ∧ t.mem = s.mem ∧
       ∀ k n, k % 8 ≠ j % 8 ∨ n ≠ b → t.work.block_ k n = W.block_ k n
     let queued (d : Bool) : Block := if B.st = .mapped then { B with st := .queued, byDisturb := d } else B
     blocks (.disturbLimit j b) (if (W.stack j).lim.toNat ≤ B.disturb then queued true else B) ∧
     blocks (.wearLevel j b) (if B.pec + 1000 ≤ W.pecMax j then queued false else B) ∧
     -- RELOCATION_COPY
     (B.st ≠ .queued ∨ W.freshBlock j = none → exec (.relocationCopy j b corr) s = .next s) ∧
     (∀ f w1, j < 8 → B.st = .queued → W.freshBlock j = some (f, w1) → f ≠ b → ∃ t, exec (.relocationCopy j b corr) s = .next t ∧ t.mem = s.mem ∧
       (let B' := t.work.block_ j b
        B'.st = .copied ∧ B'.target = f ∧ B'.pec = B.pec ∧ B'.disturb = B.disturb ∧ B'.reads = B.reads + corr.length ∧
        ((∀ c ∈ corr, c.isSome = true) → B' = { B with st := .copied, target := f, reads := B.reads + corr.length })) ∧
       (t.work.block_ j f).st = .copied ∧ (t.work.block_ j f).target = f ∧
       (t.work.block_ j f).disturb = 0 ∧ (t.work.block_ j f).pec = (W.block_ j f).pec ∧
       (t.work.stack j).totalReloc = min ((W.stack j).totalReloc + 1) (2 ^ 32 - 1) ∧
       (t.work.stack j).disturbReloc = if B.byDisturb then min ((W.stack j).disturbReloc + 1) (2 ^ 32 - 1) else (W.stack j).disturbReloc) ∧
     -- MAP_SWITCH
     (W.logicalOf j b = none ∨ B.st ≠ .copied ∨ B.target = b → exec (.mapSwitch j b) s = .next s) ∧
     (∀ l, W.logicalOf j b = some l → B.st = .copied → B.target ≠ b → ∃ t, exec (.mapSwitch j b) s = .next t ∧ t.mem = s.mem ∧
       t.work.physBlock j l = B.target ∧ (t.work.block_ j B.target).st = .mapped ∧ (t.work.block_ j B.target).disturb = 0 ∧
       t.work.block_ j b = { B with st := .switched }) ∧
     -- BLOCK_ERASE
     let busy := W.blockInUse j b = true
     (busy ↔ ∃ x ∈ W.openReads, (x.read.st ≠ .queued ∧ x.read.block = b ∧ pageStack x.page = j) ∨
       ∃ m ∈ x.read.members, m.stack = j ∧ m.block = b ∧ ∃ t, m.dueNs = some t ∧ s.ns < t) ∧
     (∀ x, x ∈ W.openReads ↔
       (∃ e ∈ s.handles, ∃ y ∈ e.2.reads, x = ⟨.handle e.1, e.2.prio.toNat, e.2.deadline.toNat, e.2.lpage.toNat + y.page, y⟩) ∨
       (∃ c ∈ s.cores, ∃ n, n < 8 ∧ ∃ e rest y, nth c.2.queues n = e :: rest ∧ e.page.read = some y ∧ x = ⟨.entry c.1 n, 0, e.who.kdead.toNat, y.page, y⟩) ∨
       ∃ i ∈ s.insts, i.st = .loading ∧ ∃ k ∈ i.replays, ∃ y, k.2.read = some y ∧ x = ⟨.replay i.id k.1, 0,
         (match i.rills.find? (!·.ended) with | some r => (W.ctx r.core r.ctx).kdead.toNat | none => 0), y.page, y⟩) ∧
     let gone := ok = false ∨ B.retire = true
     (B.st ≠ .switched ∨ busy → exec (.blockErase j b ok) s = .next s) ∧
     (B.st = .switched → ¬busy → ∃ t, exec (.blockErase j b ok) s = .next t ∧ t.mem = s.mem ∧
       let B' := t.work.block_ j b
       B'.pec = min (B.pec + 1) (2 ^ 32 - 1) ∧ B'.disturb = 0 ∧ B'.lastRecon = B.lastRecon ∧ B'.reads = B.reads ∧
       (gone → B'.st = .bad ∧ (t.work.stack j).retired = min ((W.stack j).retired + 1) (2 ^ 16 - 1) ∧ (t.work.stack j).spare = (W.stack j).spare - 1) ∧
       (¬gone → B'.st = .erased ∧ (t.work.stack j).retired = (W.stack j).retired ∧ (t.work.stack j).spare = (W.stack j).spare))) ∧
    -- HEALTH_COPY
    ∃ t, exec (.healthCopy j) s = .next t ∧ (t.work.stack j).seq = min ((W.stack j).seq + 1) (2 ^ 64 - 1) ∧ (t.work.stack j).copyDue = s.ns + 1000000 ∧
      ((∀ p, p < 4 → (W.part p).live = false) → t.mem = s.mem) ∧
      ∀ p, p < 4 → (W.part p).live = true → (∀ p', p' < 4 → p' ≠ p → (W.part p').live = false) → (∀ c ∈ s.cores, c.2.upd = []) →
        (∀ h ∈ s.hostL2, h.dirty = 0) →
        let a := (W.part p).hhbase + 0x100 * j
        a % 128 = 0 → a + 0x100 ≤ 2 ^ 39 →
          (∀ k, k < 0xF8 → t.work.byte (a + k) = (W.healthBytes j).getD k 0) ∧ t.work.bytes (a + 0xF8) 8 = leBytes 8 (t.work.stack j).seq ∧
          ∀ k, k < a ∨ a + 0x100 ≤ k → t.work.byte k = W.byte k

/-! ## Engines at work -/

/-- R158 to R160, R195 to R199, R210, R211, R215, R231 to R236, R238 to R240, R390 to R400: the entry at the head of an engine's queue is performed, a unit a
step, and completes with its code and completion word; a message's cells and metadata arrive; collectives are performed once every member's entry is there,
or time out. A step that finds nothing of its kind does nothing; one that reaches past L2 at a stack whose traffic is held does nothing yet (R18). A copy
that needs a flash page waits for its read. Model's choices: what a failing NETSEND has sent, and that a message to this package is delivered at once (log
entry 44); a held step happens as a whole once the hold ends (97); the S stamp of TOFLUME's append (109); what a failing transform has written (125); a
page's bytes are the entry's own from its read on (135); when a collective over several packages leaves (129). -/
def Obligations.EngineEntries : Prop :=
  ∀ (s : State) (q part group sender id : Nat) (seq : Word),
    let W := s.work
    let core := s.focus.core
    -- completion
    (∀ (w : Work) (e : Entry) (src code clock : Nat) (v : Word),
      (∀ es x, nth (w.core core).queues q = x :: es → nth ((w.popHead core q).core core).queues q = es) ∧
      (e.cw = 0 → w.finishEntry core q e src v code clock =
        if code = 0 then w.popHead core q else (w.popHead core q).countInstFault e.who.inst src code) ∧
      (e.cw ≠ 0 → ∀ r w1, putCompletion e.who e.cw v clock (w.popHead core q) = (r, w1) →
        w.finishEntry core q e src v code clock = match r with
          | .ok () => w1
          | .error _ => w1.countInstFault e.who.inst src (if code = 0 then 3 else code)) ∧
      w.finishCopy core q e code src = w.finishEntry core q e 5 (BitVec.ofNat 64 (2 ^ 63 + e.units % 2 ^ 32 * 2 ^ 16 + src * 2 ^ 12 + code)) code e.who.time ∧
      w.finishDft core e true code = w.finishEntry core 4 e 3 (BitVec.ofNat 64 (2 ^ 63 + 256 + code)) code e.who.time ∧
      w.finishRoute core e src code = w.finishEntry core 6 e 4 (BitVec.ofNat 64 (2 ^ 63 + src * 256 + code)) code e.who.time ∧
      w.finishColl core e code = w.finishEntry core 7 e 5 (BitVec.ofNat 64 (2 ^ 63 + code)) code e.who.time) ∧
    -- traffic that is held
    (∀ (w : Work) (f : Work → Work), let v := f (w.modFocus fun g => { g with heldRead := false, heldWrite := false, opened := [] })
      (w.noneHeld = true → w.unlessHeld f = f w) ∧
      (w.noneHeld = false → v.focus.heldRead = true ∨ v.focus.heldWrite = true → w.unlessHeld f = w) ∧
      (w.noneHeld = false → v.focus.heldRead = false → v.focus.heldWrite = false → w.unlessHeld f = v.modFocus fun g =>
        { g with heldRead := w.focus.heldRead, heldWrite := w.focus.heldWrite, opened := g.opened ++ w.focus.opened })) ∧
    -- messages and collectives that do not wait for it
    (∀ cell : Cell, ((W.part cell.part).group? cell.group = none → exec (.cellReceive cell) s = .next s) ∧
      ∀ g x w1, (W.part cell.part).group? cell.group = some g → W.openRx cell.part cell.group cell.sender cell.msg = (x, w1) →
        let w2 := w1.modRx x fun y => { y with rowBytes := cell.rowBytes }
        exec (.cellReceive cell) s = .next (left s (match x.base with
          | none => if x.refused then w2 else w2.modRx x fun y => { y with heldCells := y.heldCells ++ [cell] }
          | some _ => (w2.writeCell g x cell).deliverAll))) ∧
    (∀ (msg : BitVec 32) (m : BitVec 128), ((W.part part).group? group = none → exec (.metadataDeliver part group sender msg m) s = .next s) ∧
      ∀ g x w1 y, (W.part part).group? group = some g → W.openRx part group sender msg = (x, w1) →
        let w2 := w1.modRx x fun y => { y with
          entries := y.entries ++ [m], base := if y.base.isNone then some (metaSlot m % max g.rxrows 1) else y.base }
        w2.rx? part group sender msg = some y →
        exec (.metadataDeliver part group sender msg m) s = .next (left s
          (((y.heldCells.foldl (fun w c => w.writeCell g y c) w2).modRx y fun z => { z with heldCells := [] }).deliverAll))) ∧
    ((s.sent.find? (fun m => m.id == id) = none → ∀ r, exec (.cellAcknowledge id r) s = .next s) ∧
      ∀ m e r, s.sent.find? (fun m => m.id == id) = some m → W.headOf m.entry.who.core m.queue = some e → e.net = some id →
        exec (.cellAcknowledge id r) s = .next (lift (fun w => { w with sent := w.sent.filter fun x => x.id != id }.finishCopy m.entry.who.core m.queue
          { e with units := if r then 0 else m.units } (if r then 7 else 0) 0) s)) ∧
    (match W.collOf part group seq with
      | [] => exec (.collTimeout part group seq) s = .next s
      | x :: xs => exec (.collTimeout part group seq) s =
          if W.collReady part group seq = none ∧ x.limit ≤ s.ns then .next (lift (fun w => w.closeColl (x :: xs) 5) s) else .next s) ∧
    (∀ (w : Work) (xs : List CollArrival) (sends : List Nat), (sends = [] → w.deliverColl xs sends = w.closeColl xs 0) ∧
      (sends ≠ [] → (w.deliverColl xs sends).cores = w.cores ∧ (w.deliverColl xs sends).collDone = w.collDone ++ [⟨xs, sends⟩])) ∧
    (s.work.noneHeld = true →
    -- nothing at the head
    ((W.headOf core 5 = none → exec .hreqEntry s = .next s ∧ exec .hrelEntry s = .next s) ∧
      (W.headOf core 4 = none → exec .dftFwdEntry s = .next s ∧ exec .dftInvEntry s = .next s) ∧
      (W.headOf core 6 = none → exec .routeEntry s = .next s ∧ exec .rcntEntry s = .next s) ∧
      (4 ≤ q ∨ W.headOf core q = none → exec (.copyLinear q) s = .next s ∧ exec (.copyBfill q) s = .next s ∧ exec (.copyToFlume q) s = .next s ∧
        exec (.copyFromFlume q) s = .next s ∧ exec (.netSend q) s = .next s)) ∧
    -- handles
    (∀ e h ext dest ctl, W.headOf core 5 = some e → e.kind = .hreq h ext dest ctl →
      exec .hreqEntry s = .next (lift (fun w => (w.popHead core 5).performHreq e.who h.toNat ext dest ctl) s)) ∧
    (∀ (w w1 : Work) (who : Issuer) (h : Nat) (ext dest ctl : Word), let r := w.handle h
      let split := (field ext 48 16).toNat
      let npage := (field ext 32 16).toNat
      let req := field ctl 8 2
      let dl := who.kdead + (field ctl 32 32).setWidth 64
      (r.state = 0 → w.destCheck who dest npage = (0, w1) → let z := (w.performHreq who h ext dest ctl).handle h
        z.state = 1 ∧ z.dest = dest ∧ z.split = field ext 48 16 ∧ z.npage = field ext 32 16 ∧ z.lpage = field ext 0 32 ∧ z.req = req ∧
        z.prio = field ctl 0 4 ∧ z.ord = field ctl 4 2 ∧ z.deadline = dl ∧ z.arrived = 0 ∧
        z.reads.map (·.page) = (if req.getLsbD 0 then List.range split else []) ++ (if req.getLsbD 1 then (List.range (npage - split)).map (split + ·) else [])) ∧
      (∀ code, r.state = 0 → w.destCheck who dest npage = (code, w1) → code ≠ 0 → let z := (w.performHreq who h ext dest ctl).handle h
        z.state = 4 ∧ z.fault = BitVec.ofNat 8 code) ∧
      (r.state ≠ 0 → r.state = 4 ∨ r.lpage ≠ field ext 0 32 ∨ r.npage ≠ field ext 32 16 ∨ r.split ≠ field ext 48 16 ∨ r.dest ≠ dest →
        w.performHreq who h ext dest ctl = w.countInstFault who.inst 2 7) ∧
      (r.state ≠ 0 → r.state ≠ 4 → r.lpage = field ext 0 32 → r.npage = field ext 32 16 → r.split = field ext 48 16 → r.dest = dest →
        let z := (w.performHreq who h ext dest ctl).handle h
        z.prio = (if r.prio < field ctl 0 4 then field ctl 0 4 else r.prio) ∧ z.deadline = (if dl < r.deadline then dl else r.deadline) ∧
        z.req = r.req ||| req ∧ z.state = (if r.state = 3 ∧ req &&& ~~~r.req ≠ 0 then 2 else r.state)) ∧
      -- HREL
      (r.state = 0 → w.performHrel h = (true, w)) ∧
      (r.state ≠ 0 → (∀ x ∈ r.reads, PageRead.begun x = false) → (w.performHrel h).1 = true ∧ (w.performHrel h).2.handle h = .empty) ∧
      (r.state ≠ 0 → (∃ x ∈ r.reads, PageRead.begun x = true) → w.performHrel h =
        (false, w.setHandle h { r.cancel with releasing := true })) ∧
      (∀ x, x ∈ r.cancel.reads ↔ x ∈ r.reads ∧ PageRead.begun x = true) ∧
      ∀ p, p < 2 → r.cancel.cancelled.getLsbD p =
        (r.cancelled.getLsbD p || r.reads.any fun x => !x.begun && r.planeOf x.page == p)) ∧
    (∀ e h, W.headOf core 5 = some e → e.kind = .hrel h →
      exec .hrelEntry s = .next (left s (if (W.performHrel h.toNat).1 then (W.performHrel h.toNat).2.popHead core 5
        else (W.performHrel h.toNat).2.setHead core 5 { e with started := true }))) ∧
    -- transforms: the headers and what they forbid, then a transform a step
    (∀ e inv tile dst src, W.headOf core 4 = some e → e.kind = .dft inv tile dst src →
      let ins : Instr := if inv then .dftInvEntry else .dftFwdEntry
      let sp : Space := if tile then .tile else .global
      exec (if inv then .dftFwdEntry else .dftInvEntry) s = .next s ∧ exec ins s = .next (lift (fun w => w.dftStep core e inv tile dst src) s) ∧
      (∀ sh w1 dh w2, e.desc = none → readDftHeader e.who sp src W = (.ok sh, w1) → readDftHeader e.who sp dst w1 = (.ok dh, w2) →
        let x := dftExp inv sh
        (dftFormatBad inv sh dh = true → exec ins s = .next (left s (w2.finishDft core e false 1))) ∧
        (dftFormatBad inv sh dh = false → x < -32768 ∨ 32767 < x → exec ins s = .next (left s (w2.finishDft core e false 2))) ∧
        (dftFormatBad inv sh dh = false → -32768 ≤ x → x ≤ 32767 → exec ins s = .next (left s (w2.setHead core 4
          { e with started := true, desc := some (BitVec.ofNat 1024 (sh.pack + dh.pack * 2 ^ 193)) })))) ∧
      (∀ b w1, e.desc = none → readDftHeader e.who sp src W = (.error b, w1) → exec ins s = .next (left s (w1.finishDft core e false b.code))) ∧
      ∀ x, e.desc = some x →
        let sh := DftHeader.unpack (field x 0 193)
        let dh := DftHeader.unpack (field x 193 193)
        (∀ b w1, readTransform e.who sp inv sh dh (e.units / sh.nblk) (e.units % sh.nblk) W = (.error b, w1) →
          exec ins s = .next (left s (w1.finishDft core e (x.getLsbD 1023) b.code))) ∧
        ∀ bad outs w1 r w2, readTransform e.who sp inv sh dh (e.units / sh.nblk) (e.units % sh.nblk) W = (.ok (bad, outs), w1) →
          writeOutputs e.who sp dh.domain outs w1 = (r, w2) →
          let seen := x.getLsbD 1023 || bad
          let e1 : Entry := { e with units := e.units + 1, desc := some (if seen then x ||| (1#1024 <<< 1023) else x) }
          (∀ b, r = .error b → exec ins s = .next (left s (w2.finishDft core e seen b.code))) ∧
          (r = .ok () → e.units + 1 < sh.rows * sh.nblk → exec ins s = .next (left s (w2.setHead core 4 e1))) ∧
          ∀ r3 w3, r = .ok () → sh.rows * sh.nblk ≤ e.units + 1 → writeDftHeader e.who sp sh dh inv dst w2 = (r3, w3) →
            exec ins s = .next (left s (w3.finishDft core e1 seen (match r3 with | .ok () => 0 | .error b => b.code)))) ∧
    -- only the fields that the entry assigns change in the destination's header word
    (∀ (sh dh : DftHeader) (now : Word) (x : Int), let z := dftHeaderWord sh dh now x
      field z 0 2 = field now 0 2 ∧ field z 2 4 = BitVec.ofNat 4 sh.block ∧ field z 6 10 = field now 6 10 ∧
      field z 16 10 = BitVec.ofNat 10 sh.nblk ∧ field z 26 6 = BitVec.ofNat 6 sh.rows ∧
      field z (if dh.slot then 32 else 48) 16 = BitVec.ofInt 16 x ∧
      field z (if dh.slot then 48 else 32) 16 = field now (if dh.slot then 48 else 32) 16) ∧
    -- the router
    (∀ e a, W.headOf core 6 = some e → e.kind = .route a → exec .rcntEntry s = .next s ∧ exec .routeEntry s = .next (lift (fun w => w.routeStep core e a) s) ∧
      ∀ r w1, e.desc = none → readRoute e.who a W = (r, w1) → exec .routeEntry s = .next (left s (match r with
        | .error b => w1.finishRoute core e 0 b.code
        | .ok d => if RouteDesc.bad d then w1.finishRoute core e 0 1 else w1.setHead core 6 { e with started := true, desc := some d }))) ∧
    -- CONS read again is an acquire: it raises the entry's clock, and the core forgets what it held clean
    (∀ (w : Work) (e : Entry) (d : RouteDesc) (bs : List Byte) (w1 : Work) (pl : Place) (w2 : Work),
      engRead e.who .global (RouteDesc.ring d + 20#64) 4 w = (.ok bs, w1) → engPlace e.who .global (RouteDesc.ring d + 20#64) .read w1 = (.ok pl, w2) →
      let who1 : Issuer := if e.who.clock = 0xFFFFFFFF#32 then e.who else
        { e.who with clock := clockMax e.who.clock ((w2.sStamp e.who.part pl 4).toNat + 1) }
      let d1 := RouteDesc.setIndices d (RouteDesc.prod d) (BitVec.ofNat 32 (leNat bs))
      rereadCons e d w = (.ok ({ e with who := who1, desc := some d1 }, d1), w2.acquireFor who1)) ∧
    (∀ token expert weight flg rank : Nat, ∀ last : Bool, token < 2 ^ 20 → expert < 2 ^ 12 → weight < 2 ^ 16 → flg < 16 → rank < 16 →
      let x := routeRecord token expert weight flg rank last
      (field x 0 20).toNat = token ∧ (field x 20 12).toNat = expert ∧ (field x 32 16).toNat = weight ∧ (field x 48 4).toNat = flg ∧
      (field x 52 4).toNat = rank ∧ x.getLsbD 56 = last ∧ field x 57 7 = 0#7) ∧
    (∀ e dst bank r w1, W.headOf core 6 = some e → e.kind = .rcnt dst bank →
      exec .routeEntry s = .next s ∧
      (engWriteMany e.who .global dst (W.bankBytes e.who.part bank) W = (r, w1) → exec .rcntEntry s = .next (left s (match r with
        | .error b => w1.finishRoute core e 0 b.code
        | .ok () => (w1.modPart e.who.part fun p => { p with banks := p.banks.filter fun x => x.1 / 4096 != bank }).finishRoute core e 0 0)))) ∧
    -- copies
    (∀ e k ins, q < 4 → W.headOf core q = some e → k = 0 ∧ ins = .copyLinear q ∨ k = 1 ∧ ins = .copyBfill q ∨ k = 2 ∧ ins = .copyToFlume q ∨
        k = 3 ∧ ins = .copyFromFlume q →
      (W.copyKind e ≠ some k → exec ins s = .next s) ∧
      (W.copyKind e = some k → e.desc = none → exec ins s = .next (lift (fun w => w.beginCopy core q e) s)) ∧
      (∀ d x b w1, W.copyKind e = some k → e.desc = some d → e.page.read = some x → W.pageStep core q e x = (b, w1) →
        exec ins s = .next (left s (if b = true then w1 else w1.endCopy core q e d 4 0))) ∧
      ∀ d r w1, W.copyKind e = some k → e.desc = some d → e.page.read = none → Work.moveUnit core q e d W = (r, w1) → exec ins s = .next (left s (match r with
        | .error b => w1.endCopy core q ((w1.headOf core q).getD e) d b.code b.reason
        | .ok e1 => if CopyDesc.total d ≤ e1.units then (w1.setHead core q e1).endCopy core q e1 d 0 0 else w1.setHead core q e1))) ∧
    -- a flash page that a copy needs: queued, read, had, rebuilt or lost
    (∀ (w : Work) (pa n : Nat) (hand : PageHand), let p := (pa - 2 ^ 48) / 16384
      (∀ x, hand.pages.find? (fun x => x.1 == p) = some x → takePage pa n hand w =
        (if x.2 = [] then .error (.poison (BitVec.ofNat 64 pa)) else .ok (x.2.drop (pa % 16384) |>.take n, hand), w)) ∧
      (hand.pages.find? (fun x => x.1 == p) = none → takePage pa n hand w =
        (.ok (List.replicate n 0, { hand with read := some ⟨p, w.readNext + 1, .queued, 0, 0, []⟩ }), { w with readNext := w.readNext + 1 }))) ∧
    (∀ (w : Work) (e : Entry) (x : PageRead), let j := pageStack x.page
      let has (w : Work) : Work := w.setHead core q { e with page := ⟨e.page.pages ++ [(x.page, w.bytes (pageKey x.page) 16384)], none⟩ }
      (x.st = .queued ∨ x.st = .started ∧ w.ns < x.dueNs ∨ x.st = .failed ∧ Work.PageRead.gathered w x = false → w.pageStep core q e x = (true, w)) ∧
      (∀ c w1, x.st = .started → x.dueNs ≤ w.ns → w.decoded = (c, w1) →
        let w2 := (w1.countRead j x.block false c).sample 2 0xFFFF (w.ns + Config.flashNs - x.dueNs)
        w.pageStep core q e x = (true, if c.isSome then has w2 else w2.setHead core q { e with page := { e.page with read := some (Work.PageRead.reconstruct w2 j x) } })) ∧
      ∀ ms w1 ok w2, Work.PageRead.gathered w x = true → w.decodedMany 7 = (ms, w1) → w1.rebuild j (pageBlock x.page) x.block x.members ms = (ok, w2) →
        w.pageStep core q e x = if ok = true then (true, has w2) else (false, w2)) ∧
    (∀ (w : Work) (e : Entry) (d : CopyDesc), let who := e.who
      (∀ n, CopyDesc.unitAddr d.slay d.src n = d.src + BitVec.ofNat 64 (n / layoutRowLen d.slay) * layoutPitch d.slay +
        BitVec.ofNat 64 (128 * (n % layoutRowLen d.slay))) ∧
      (∀ bs page w1 w2, d.kind = 0 →
        let rows := who.super && d.src.toNat % 16384 == 0 && layoutRowLen d.slay == 128 && (d.nrows == 1 || (layoutPitch d.slay).toNat % 16384 == 0)
        layRead who d.slay (CopyDesc.unitAddr d.slay d.src e.units) 128 rows e.page w = (.ok (bs, page), w1) →
        (page.read.isSome = true → Work.moveUnit core q e d w = (.ok { e with page := page }, w1)) ∧
        (page.read = none → layWrite who d.dlay (CopyDesc.unitAddr d.dlay d.dst e.units) bs w1 = (.ok (), w2) →
        Work.moveUnit core q e d w = (.ok { e with units := e.units + 1, page := page }, w2))) ∧
      (∀ bs page w1, d.kind = 1 → fillRead who (Work.fillOf e d) e.units e.page w = (.ok (bs, page), w1) →
        Work.moveUnit core q e d w = if page.read.isSome = true then (.ok { e with page := page }, w1) else (.ok { e with units := e.units + 1, page := page },
          w1.write (bplaneKey core (d.c0 + e.units / d.nu) ((d.u0 + e.units % d.nu) % 256) 0) bs)) ∧
      (∀ f w1, d.kind = 2 → Work.flumeHere who d.dst w = (.ok f, w1) → f.count = f.size → Work.moveUnit core q e d w = (.ok e, w1)) ∧
      (∀ f w1 bs page w2, d.kind = 2 → Work.flumeHere who d.dst w = (.ok f, w1) → f.count ≠ f.size →
        layRead who d.slay (CopyDesc.unitAddr d.slay d.src e.units) 128 true e.page w1 = (.ok (bs, page), w2) →
        Work.moveUnit core q e d w = if page.read.isSome = true then (.ok { e with page := page }, w2) else (.ok { e with units := e.units + 1, page := page },
          ((w2.releaseFor who).raiseS who.part f.line (if who.helper then 1 else Work.clockNext who.clock.toNat)).flumePut f bs)) ∧
      (∀ f w1, d.kind = 3 → Work.flumeHere who d.src w = (.ok f, w1) → f.count = 0 → Work.moveUnit core q e d w = (.ok e, w1)) ∧
      (∀ f w1 w2, d.kind = 3 → Work.flumeHere who d.src w = (.ok f, w1) → f.count ≠ 0 → w1.badUnit (f.entry f.takes) 128 = none →
        ∀ who1, who1 = (if who.helper || who.clock == 0xFFFFFFFF#32 then who else
          { who with clock := clockMax who.clock ((w1.sStamp who.part f.line).toNat + 1) }) →
        layWrite who1 d.dlay (CopyDesc.unitAddr d.dlay d.dst e.units) (w1.bytes (f.entry f.takes) 128)
            (((w1.flumeTake f 1).acquireFor who1).setHead core q { e with who := who1 }) = (.ok (), w2) →
        Work.moveUnit core q e d w = (.ok { e with units := e.units + 1, who := who1 }, w2))) ∧
    -- the network
    (∀ e, q < 4 → W.headOf core q = some e → (W.copyKind e ≠ some 4 → exec (.netSend q) s = .next s) ∧
      (W.copyKind e = some 4 → exec (.netSend q) s = .next (lift (fun w => w.sendStep core q e) s))) ∧
    -- collectives
    (let ready := W.collReady part group seq
     (ready = none ∨ ready = some [] → exec (.allReduce part group seq) s = .next s ∧ exec (.allGather part group seq) s = .next s ∧
       exec (.allToAll part group seq) s = .next s) ∧
     ∀ g x xs op ins, (W.part part).group? group = some g → ready = some (x :: xs) →
       op = 0 ∧ ins = .allReduce part group seq ∨ op = 1 ∧ ins = .allGather part group seq ∨ op = 2 ∧ ins = .allToAll part group seq →
       let n := CollDesc.count x.desc * CollDesc.size x.desc
       let share (m : Nat) (bs : List Byte) : List Byte := bs.drop (m * n) |>.take n
       (CollDesc.op x.desc ≠ op → exec ins s = .next s) ∧
       (CollDesc.op x.desc = op → (∃ y ∈ xs, CollDesc.shape y.desc ≠ CollDesc.shape x.desc) → exec ins s = .next (lift (fun w => w.closeColl (x :: xs) 1) s)) ∧
       (CollDesc.op x.desc = op → (∀ y ∈ xs, CollDesc.shape y.desc = CollDesc.shape x.desc) →
         exec ins s = .next (lift (fun w => w.performColl g (x :: xs) (if op = 2 then (xs.length + 1) * n else n)
           (if op = 2 then share else fun _ bs => bs) fun w data =>
             if op = 0 then (fun _ => (w.reduceAll x.desc data).1, (w.reduceAll x.desc data).2)
             else if op = 1 then (fun _ => data.flatten, w)
             else (fun m => (data.map (share m)).flatten, w)) s))) ∧
    (∀ (w : Work) (d : CollDesc) (a b : List Byte), d.type < 2 → d.red = 0 → a.length = d.count * d.size → b.length = d.count * d.size → ∀ i, i < d.count →
      let el (bs : List Byte) : Nat := leNat (bs.drop (i * d.size) |>.take d.size)
      el (w.reduceAll d [a, b]).1 = (el a + el b) % 2 ^ (8 * d.size)) ∧
    ∀ type size x y, 2 ≤ type → ((Work.collFmt type).value ((Work.collFmt type).add .even x y).bits).isZero = true → Work.reduce2 type 0 size x y = 0)

/-! ## Hosts, power and failures -/

/-- R13, R15, R18, R222, R223, R228, R301, R303, R306 to R321, R391, R447: partition commands with their results, register writes, power, cooling, failures
of links, rails, channels and cores, monitor samples, attestation. A command on a block with no owner is denied unless it is CREATE; on another port's block
CREATE conflicts in its turn and the rest is ignored at once; while one runs or waits the port's next on the block reports BUSY, and one of another block
waits for it, as all wait that come after one whose accesses are held. A port's mailbox answers no request for a report where the firmware has failed. The layout of an attestation report is the model's
choice (log entry 34): R316 names its parts and no layout. So are when power is compared and how the clock steps (83), the results of a CREATE for which
the table gives no row (89), how BUSY and a waiting command end (90), what SWAPIN and a second SWAPOUT answer (91), what a core error does beside R303's
words (95), that a second channel failure stops every live partition (96), and how held traffic waits (97). And so are that every byte of SRAM and HBM, which
R321 leaves undefined then, reads 0 once the power is gone or a die has tripped (3), that what the L1 of a core in error still holds goes to L2 (121), and
that the messages being received for a partition are dropped at DESTROY and CREATE, and at SETGRP those of a group whose entry changes (122). -/
def Obligations.PartitionsPower : Prop :=
  ∀ (s : State) (part port j core : Nat), s.Inv →
    let W := s.work
    let does (i : Instr) (f : Work → Work) : Prop := exec i s = .next (lift f s)
    let cmd (i : Instr) (create : Bool) (f : Work → Option Nat × Work) : Prop := does i fun w => w.command i part port create f
    -- how a command ends; while a swap goes on or others wait, it waits in arrival order
    (∀ (w : Work) (i : Instr) (create : Bool) (f : Work → Option Nat × Work), let q := w.part part
      let busy := (w.modPart part fun q => { q with sts := BitVec.ofNat 64 (2 ^ 63 + 1) }).raiseMsi part 0
      let later : Work := { w with commands := w.commands ++ [i] }
      let run (w : Work) : Work := match f (w.modPart part fun q => { q with sts := 0 }) with
        | (some r, w1) => w1.endCommand part r
        | (none, w1) => w1.modPart part fun q => { q with busy := true }
      let mine : Prop := w.mayWrite part port = true ∧
        ((q.busy = true ∧ q.owner = some (port % 2)) ∨ ∃ c ∈ w.commands, Work.commandOn part port c = true)
      let waits : Prop := w.commands ≠ [] ∨ ∃ k, k < 4 ∧ (w.part k).busy = true
      (w.mayWrite part port = true ↔ q.owner = none ∨ q.owner = some (port % 2)) ∧
      (w.booted = false ∨ w.mayWrite part port = false ∧ create = false → w.command i part port create f = w) ∧
      (w.booted = true → mine → w.command i part port create f = busy) ∧
      (w.booted = true → w.mayWrite part port = true ∨ create = true → ¬mine → waits → w.command i part port create f = later) ∧
      (w.booted = true → ¬mine → ¬waits → q.owner = none → create = false → w.command i part port create f = w.endCommand part 4) ∧
      (∀ o, w.booted = true → ¬waits → q.owner = some o → o ≠ port % 2 → create = true → w.command i part port create f = w.endCommand part 2) ∧
      (w.booted = true → ¬mine → ¬waits → (q.owner = none ∧ create = true ∨ q.owner = some (port % 2)) →
        (w.noneHeld = true → w.command i part port create f = run w) ∧
        -- what reaches a stack whose traffic is held waits with those that come after it
        w.command i part port create f = if (w.tryHeld run).1 = true then (w.tryHeld run).2 else later) ∧
      ((∃ k, k < 4 ∧ (w.part k).busy = true) → w.runCommands = w) ∧
      ((∀ k, k < 4 → (w.part k).busy = false) → w.runCommands.commands = [] ∧
        w.runCommands.pending = w.pending ++ w.commands.map fun i => ⟨0, 0, i⟩) ∧
      ∀ r, ((w.endCommand part r).part part).sts = BitVec.ofNat 64 (2 ^ 63 + r) ∧ ((w.endCommand part r).part part).busy = false ∧
        (w.endCommand part r).msi = w.msi ++ match q.owner with | some o => [(o, 0)] | none => []) ∧
    (∀ (i : Instr) (a b : Nat), i = .createPart a b ∨ i = .destroyPart a b ∨ i = .swapOut a b ∨ i = .swapIn a b ∨ i = .remapPart a b ∨ i = .resetPart a b ∨
        i = .setGroups a b ∨ (∃ pages, i = .installModel a b pages) → (Work.commandOn part port i = true ↔ a = part ∧ b % 2 = port % 2)) ∧
    -- the commands
    cmd (.createPart part port) true (fun w => (some (w.create part port).1, (w.create part port).2)) ∧
    (∀ w : Work, let q := w.part part
      let da := (nth q.daddr port).toNat
      let d : BitVec 4096 := BitVec.ofNat 4096 (leNat (w.bytes (Work.hostAddr port da) 512))
      (q.live = true ∨ q.stopped = true → w.create part port = (2, w)) ∧
      (q.live = false → q.stopped = false → da % 64 ≠ 0 ∨ Work.descBad d = true → w.create part port = (3, w)) ∧
      ((w.create part port).1 ≠ 0 → { (w.create part port).2 with focus := w.focus } = w) ∧
      ((w.create part port).1 = 0 → part < 4 → let p := (w.create part port).2.part part
        p.live = true ∧ p.owner = some (port % 2) ∧ p.desc = d ∧ p.feat = (nth q.featImg port &&& 0x3F#256) ||| 1#256)) ∧
    cmd (.destroyPart part port) false (fun w => (some 0, w.destroy part)) ∧
    (∀ w : Work, let p := (w.destroy part).part part
      p.live = false ∧ p.courses = [] ∧ p.groups = [] ∧ p.owner = (w.part part).owner ∧ (∀ x ∈ (w.destroy part).rx, x.part ≠ part) ∧
      ((w.insts.map (·.id)).Nodup → ∀ i ∈ (w.destroy part).insts, i.part = part → i.st = .killed ∨ i.st = .completed)) ∧
    cmd (.swapOut part port) false (fun w =>
      if (w.part part).live = false ∨ (w.part part).swapen = false then (some 4, w)
      else if (List.range 4).any fun k => (w.part k).swapped && (w.diesOf part).any fun x => (w.diesOf k).contains x then (some 2, w)
      else (none, w.modPart part fun q => { q with swapped := true, selected := none })) ∧
    cmd (.swapIn part port) false (fun w => if (w.part part).live = false ∨ (w.part part).swapen = false then (some 4, w)
      else (some 0, (w.modPart part fun q => { q with swapped := false }).undefer part)) ∧
    cmd (.remapPart part port) false (fun w => (some 0, w.dropTlbs part)) ∧
    (∀ w : Work, (∀ n, ∀ e ∈ ((w.dropTlbs part).core n).tlb, e.part ≠ part) ∧ ∀ n, ∀ e ∈ nth (w.dropTlbs part).dieTlb n, e.part ≠ part) ∧
    (∀ pages, cmd (.installModel part port pages) false fun w => if w.flash.toList.any fun x => x.spare == 0 then (some 5, w)
      else (some 0, pages.foldl (fun w g => if 2 ^ 39 * 14 ≤ 16384 * g.lpage then w
        else w.write (pageKey g.lpage) (w.bytes (Work.hostAddr port g.src) 16384)) w)) ∧
    cmd (.resetPart part port) false (fun w => (some 0, ((w.destroy part).raiseMsi part 0).modPart part fun q => { q with owner := none, stopped := false })) ∧
    cmd (.setGroups part port) false (fun w =>
      let bs := w.bytes (Work.hostAddr port (nth (w.part part).daddr port).toNat) 4096
      let gs : List GroupEntry := (List.range 16).map fun k => BitVec.ofNat 2048 (leNat (bs.drop (256 * k) |>.take 256))
      if gs.any Work.groupBad then (some 3, w) else (some 0,
        (w.modPart part fun q => { q with groups := gs }).dropRx part fun k => (w.part part).groups[k]? == gs[k]?)) ∧
    -- registers
    (∀ (off : Nat) (bs : List Byte),
      does (.registerWrite port off bs) (fun w => w.barWrite port off bs) ∧
      (bs.length ≠ 4 ∧ bs.length ≠ 8 ∨ off % bs.length ≠ 0 ∨ s.booted = false →
        exec (.registerWrite port off bs) s = .next s ∧ exec (.featAcceptWrite part port off bs) s = .next s) ∧
      (bs.length = 8 → off = 0x10000 + 0x1000 * part + 0x40 → part < 4 → s.booted = true → W.mayWrite part port = true →
        ∃ t, exec (.registerWrite port off bs) s = .next t ∧ t.mem = s.mem ∧ nth (t.work.part part).daddr port = wordOf bs) ∧
      (bs.length = 4 ∨ bs.length = 8 → off % bs.length = 0 → s.booted = true → 0x80 ≤ off → off < 0xA0 →
        does (.featAcceptWrite part port off bs) fun w => w.writeFeat part port (off - 0x80) bs) ∧
      (∀ (w : Work) (lo : Nat), w.mayWrite part port = false ∨ (w.part part).live = true → w.writeFeat part port lo bs = w)) ∧
    (∀ off n : Nat, (n ≠ 4 → n ≠ 8 → 0 < n → W.barRead port off n = 0) ∧ (off % n ≠ 0 → W.barRead port off n = 0) ∧
      (off % 4 = 0 → W.barRead port off 4 = (field (W.barRead port (off / 8 * 8) 8) (8 * (off % 8)) 32).setWidth 64)) ∧
    (∀ v : BitVec 32, ∃ t, exec (.disturbLimWrite j v) s = .next t ∧ t.mem = s.mem ∧
      (s.booted = true → (t.work.stack j).lim = if v.toNat < 16 then 16 else v) ∧ (s.booted = false → t = s)) ∧
    -- power
    (let off (i : Instr) : Prop := ∃ t, exec i s = .next t ∧ t.power = false ∧ t.booted = false ∧ t.insts = [] ∧ t.cores = [] ∧ t.handles = [] ∧
       (∀ k, k < 2 ^ 48 ∨ 2 ^ 52 ≤ k ∧ k < 2 ^ 52 + 2 ^ 56 → t.work.byte k = 0) ∧
       (∀ k, 2 ^ 48 ≤ k ∧ k < 2 ^ 48 + 7 * 2 ^ 40 ∨ 2 ^ 51 ≤ k ∧ k < 2 ^ 52 → t.work.byte k = W.byte k) ∧
       ∀ n, (t.work.stack n).map = (W.stack n).map ∧ (t.work.stack n).retired = (W.stack n).retired ∧ (t.work.stack n).spare = (W.stack n).spare
     (s.power = false → exec .powerDown s = .next s ∧ ∀ d, exec (.thermalTrip d) s = .next s) ∧
     (s.power = true → off .powerDown ∧ (∀ d, d < 4 → off (.thermalTrip d)) ∧ ∀ d, 4 ≤ d → exec (.thermalTrip d) s = .next s) ∧
     (∀ i : BootImage, W.imageOk i = true ↔ s.fuseVersion ≤ i.version ∧ Config.signatureOk i.bytes i.signature = true) ∧
     ∀ (rom : List Byte) (control : BootImage) (flash : List BootImage), (s.power = true → exec (.powerUp rom control flash) s = .next s) ∧
       (s.power = false → let used := s.stagedImage.getD control
         ∃ t, exec (.powerUp rom control flash) s = .next t ∧ t.mem = s.mem ∧ t.power = true ∧ t.booted = W.imageOk used ∧ t.stagedImage = none ∧
         (∀ n, n < 8 → (t.work.stack n).inService = match flash[n]? with | some i => W.imageOk i | none => false) ∧
         t.measures = Work.measure ([rom, used.bytes] ++ flash.map (·.bytes)))) ∧
    (∀ (mw : Nat) (cs : List Nat), s.ns < s.powerDue → exec (.powerCheck mw cs) s = .next s) ∧
    (∀ (mw : Nat) (cs : List Nat), s.powerDue ≤ s.ns → ∃ t, exec (.powerCheck mw cs) s = .next t ∧ t.mem = s.mem ∧ t.powerDue = s.powerDue + 100000 ∧
      (let hot := 3200000 < mw ∨ ∃ c ∈ cs, 105000 < c
       let cool := mw ≤ 3040000 ∧ ∀ c ∈ cs, c ≤ 99750
       (cool → t.coolNs = s.coolNs + 100000) ∧ (¬cool → t.coolNs = 0) ∧ (hot → t.mhz = max 400 (s.mhz - 25)) ∧
       (¬hot → cool → 900000 ≤ s.coolNs → t.mhz = min 800 (s.mhz + 25)) ∧ (¬hot → ¬cool ∨ s.coolNs < 900000 → t.mhz = s.mhz)) ∧
      ((∃ c ∈ cs, 110000 ≤ c) → ∃ d, d < cs.length ∧ (⟨0, 0, .thermalTrip d⟩ : Todo) ∈ t.pending)) ∧
    -- failures
    (∀ link : Nat, ∃ t, exec (.linkFail link) s = .next t ∧ t.mem = s.mem ∧ nth t.linksUp link = false ∧ t.health = s.health ++ [.linkLost link]) ∧
    (∀ rail : Nat, (4 ≤ rail → exec (.railFail rail) s = .next s) ∧
      (rail < 4 → ∃ t, exec (.railFail rail) s = .next t ∧ t.mem = s.mem ∧ nth t.railsUp rail = false ∧ t.health = s.health ++ [.railLost rail] ∧
        ((∃ r, r < 4 ∧ nth t.railsUp r = true) → ∀ m ∈ t.sent, ∀ k ∈ m.packets, k.rail ≠ rail))) ∧
    (∀ cells : List (Nat × Nat), (∀ k ∈ Work.packetsOf cells, k.cells.length ≤ 8 ∧ ∀ c ∈ k.cells, (c, k.rail) ∈ cells) ∧
      ∀ x ∈ cells, x.2 < 4 → ∃ k ∈ Work.packetsOf cells, k.rail = x.2 ∧ x.1 ∈ k.cells) ∧
    (∃ t, exec (.channelReplaced j) s = .next t ∧ t = lift (fun w => { w with stackHeld := setNth w.stackHeld j none }) s) ∧
    (nth s.channelFails j = 0 → ∃ t, exec (.channelFail j) s = .next t ∧ t.mem = s.mem ∧ nth t.stackHeld j = some (s.ns + 200000) ∧
      nth t.channelFails j = 1 ∧ t.health = s.health ++ [.channelLost j]) ∧
    (nth s.channelFails j ≠ 0 → ∃ t, exec (.channelFail j) s = .next t ∧ t = lift (fun w =>
        { w with channelFails := setNth w.channelFails j (nth w.channelFails j + 1), health := w.health ++ [HealthEntry.channelLost j] }.unlessHeld Work.stopLost) s ∧
      (W.noneHeld = true → ∀ p, p < 4 → (W.part p).live = true → (t.work.part p).stopped = true)) ∧
    (∀ dmg : Bool, ((W.core core).enabled = false → exec (.coreError core dmg) s = .next s) ∧
      ((W.core core).enabled = true →
        let used := nth s.sparesUsed (core / 32)
        let spare := used < 2
        let w1 : Work := { (W.modCore core fun c => { c with enabled := false, spareDue := if spare then some (s.ns + 2000000) else none }) with
          sparesUsed := if spare then setNth s.sparesUsed (core / 32) (used + 1) else s.sparesUsed }
        let w2 := w1.cleanL1 (w1.corePart core) core fun _ => true
        let hit := w2.insts.filter fun i => i.live && i.st != .frozen && i.rills.any fun r => r.core == core
        exec (.coreError core dmg) s = .next (left s (hit.foldl (fun w i => let w := w.countInstFault i.id 1 0x3F
          if dmg then w.goBack i.id else w.beginFreeze i.id) w2)))) ∧
    (((W.core core).spareDue = none ∨ (∃ i ∈ s.insts, i.st = .freezing ∧ core ∈ i.cores) → exec (.spareTakeover core) s = .next s) ∧
      ((W.core core).spareDue ≠ none → (∀ i ∈ s.insts, i.st = .freezing → core ∉ i.cores) → ∃ t, exec (.spareTakeover core) s = .next t ∧
        t.work.core core = { Core.reset with queues := (W.core core).queues } ∧ ∀ p, p < 4 → core ∉ (t.work.part p).cleared)) ∧
    (∃ t, exec .unsupportedPacket s = .next t ∧ t.mem = s.mem ∧ t.health = s.health ++ [.unsupportedPacket]) ∧
    -- monitors
    (∀ (src : BitVec 8) (watched : BitVec 16) (v : Nat), ∃ t, exec (.monSample src watched v) s = .next t ∧ t.mem = s.mem ∧
      ∀ n, n < 16 → t.work.monitor n = if (W.monitor n).takes n src watched then (W.monitor n).takeAt s.cycle v else W.monitor n) ∧
    (∀ (m : Monitor) (c v : Nat), m.takeAt c v = { m.take v with takenAt := c, taken := if m.takenAt = c then m.taken ++ [v] else [v] }) ∧
    (∀ (m : Monitor) (v : Nat), let x := v / 2 ^ (field m.cfg 32 8).toNat
      let bin := if x = 0 then 0 else min (Nat.log2 x + 1) 31
      x < 2 ^ 64 → (m.take v).min.toNat = min m.min.toNat x ∧ (m.take v).max.toNat = max m.max.toNat x ∧ (m.take v).cfg = m.cfg ∧
        ∀ k, k < 32 → (nth (m.take v).hist k).toNat = if k = bin then min ((nth m.hist k).toNat + 1) (2 ^ 64 - 1) else (nth m.hist k).toNat) ∧
    -- attestation and firmware
    (∀ (nonce : List Byte) (via : ReportRoute), ∃ t body, exec (.attestationReport ⟨nonce, via⟩) s = .next t ∧ t.mem = s.mem ∧
      (match via with
        | .doe p => t.doe = (if s.booted = true then setNth s.doe (p % 2) (nth s.doe (p % 2) ++ [body ++ Config.identitySign body]) else s.doe) ∧ t.mctp = s.mctp
        | .mctp => t.mctp = s.mctp ++ [body ++ Config.identitySign body] ∧ t.doe = s.doe) ∧
      body = nonce ++ s.measures.flatMap (fun m => leBytes 64 m.toNat) ++ leBytes 32 0x3F ++
        (List.range 4).flatMap fun p => leBytes 32 (if (W.part p).live then (W.part p).feat.toNat else 0)) ∧
    ∀ image : BootImage, ∃ t, exec (.firmwareUpdate image) s = .next t ∧ t.mem = s.mem ∧ t.stagedImage = some image
end

