-- ==== Sys2Proof/Laws/Acts.lean ====
section
/-! SUPPORT. Running a slot's action: what each step of one does to the work, and what an instruction whose action ends, or traps, answers. -/
namespace Sys2Proof.Machine
open Sys2Proof.Claim

section Actions
variable {ε α β : Type}

@[simp] theorem act_pure (a : α) (w : Work) : (pure a : ExceptT ε (StateM Work) α) w = (.ok a, w) := rfl

@[simp] theorem act_bind (m : ExceptT ε (StateM Work) α) (f : α → ExceptT ε (StateM Work) β) (w : Work) :
    (m >>= f) w = match m w with | (.ok a, v) => f a v | (.error e, v) => (.error e, v) := by
  show (ExceptT.bind m f) w = _
  unfold ExceptT.bind ExceptT.mk
  show (StateT.bind m (ExceptT.bindCont f)) w = _
  unfold StateT.bind
  show (match m w with | (a, v) => ExceptT.bindCont f a v) = _
  rcases m w with ⟨a | a, v⟩ <;> rfl

@[simp] theorem act_get (w : Work) : (get : ExceptT ε (StateM Work) Work) w = (.ok w, w) := rfl
@[simp] theorem act_set (v w : Work) : (set v : ExceptT ε (StateM Work) PUnit) w = (.ok ⟨⟩, v) := rfl
@[simp] theorem act_modify (f : Work → Work) (w : Work) : (modify f : ExceptT ε (StateM Work) PUnit) w = (.ok ⟨⟩, f w) := rfl
@[simp] theorem act_throw (e : ε) (w : Work) : (throw e : ExceptT ε (StateM Work) α) w = (.error e, w) := rfl
@[simp] theorem act_trap (t : Trap) (w : Work) : (trap t : Act α) w = (.error t, w) := rfl
@[simp] theorem act_map (f : α → β) (m : ExceptT ε (StateM Work) α) (w : Work) :
    (f <$> m) w = match m w with | (.ok a, v) => (.ok (f a), v) | (.error e, v) => (.error e, v) := by
  show (ExceptT.map f m) w = _
  unfold ExceptT.map ExceptT.mk
  show (StateT.bind m _) w = _
  unfold StateT.bind
  show (match m w with | (a, v) => _) = _
  rcases m w with ⟨a | a, v⟩ <;> rfl
@[simp] theorem act_ite (p : Prop) [Decidable p] (m n : ExceptT ε (StateM Work) α) (w : Work) :
    (if p then m else n) w = if p then m w else n w := by split <;> rfl

/-- An access in an action: its failure is the trap it stands for. -/
theorem act_access (m : Acc α) (w : Work) :
    (access m : Act α) w = match m w with | (.ok a, v) => (.ok a, v) | (.error b, v) => (.error b.trap, v) := rfl

end Actions

/-- A slot whose action ends. -/
theorem runSlot_ok (s : State) (i : Instr) (m : Act Unit) (w : Work) (h : m s.work = (.ok (), w)) : runSlot i m s = .next (left s w) := by
  unfold runSlot run lift left slotAct; simp only [h]

@[simp] theorem carry_self (w : Work) : w.carry w = w := rfl

/-- A slot whose action traps: it has no effect but the trap, on what a trapping slot leaves. -/
theorem runSlot_trap (s : State) (i : Instr) (m : Act Unit) (w : Work) (t : Trap) (h : m s.work = (.error t, w)) :
    runSlot i m s = .next (lift (fun v => (v.carry w).slotTrap t (Work.operands i v)) s) := by
  unfold runSlot run lift slotAct; simp only [h]

/-- A slot whose action traps where it began. -/
theorem runSlot_trap_here (s : State) (i : Instr) (m : Act Unit) (t : Trap) (h : m s.work = (.error t, s.work)) :
    runSlot i m s = .next (trapped s i t) := by
  unfold runSlot run trapped lift slotAct; simp only [h, carry_self]

/-- The same of a slot that keeps what it did before its trap. -/
theorem runSlotKeep_ok (s : State) (i : Instr) (m : Act Unit) (w : Work) (h : m s.work = (.ok (), w)) :
    runSlotKeep i m s = .next (left s w) := by
  unfold runSlotKeep run lift left slotActKeep; simp only [h]

theorem runSlotKeep_trap (s : State) (i : Instr) (m : Act Unit) (t : Trap) (h : m s.work = (.error t, s.work)) :
    runSlotKeep i m s = .next (trapped s i t) := by
  unfold runSlotKeep run trapped lift slotActKeep; simp only [h]

/-! ## What has to wait (R18, R182) -/

/-- Where nothing has to wait, what is tried is done. -/
theorem tryHeld_free {w : Work} (f : Work → Work) (h : w.noneHeld = true) : w.tryHeld f = (true, f w) := by
  unfold Work.tryHeld; exact if_pos h

theorem unlessHeld_free {w : Work} (f : Work → Work) (h : w.noneHeld = true) : w.unlessHeld f = f w := by
  unfold Work.unlessHeld; rw [tryHeld_free f h]

/-- All that trying can do: the effect; the effect on a work whose marks are clear, with the marks of before; or nothing. -/
theorem tryHeld_cases (w : Work) (f : Work → Work) :
    w.tryHeld f = (true, f w) ∨
    (∃ h : Focus → Focus, w.tryHeld f = (true, (f (w.modFocus fun g => { g with heldRead := false, heldWrite := false, opened := [] })).modFocus h)) ∨
    w.tryHeld f = (false, w) := by
  unfold Work.tryHeld
  split
  · exact .inl rfl
  · dsimp only; split
    · exact .inr (.inr rfl)
    · exact .inr (.inl ⟨_, rfl⟩)

/-- Where nothing has to wait, a turn is what it did. -/
theorem holdBack_free {s : State} (o : Host.Outcome State Fault Refusal) (h : s.work.noneHeld = true) : holdBack s o = o := by
  unfold holdBack; exact if_pos h

/-- A turn that goes on leaves the state it reached, or, held back, the one it found. -/
theorem holdBack_next (s t : State) : holdBack s (.next t) = .next t ∨ holdBack s (.next t) = .next s := by
  unfold holdBack
  split
  · exact .inl rfl
  · dsimp only; split
    · exact .inr rfl
    · exact .inl rfl

/-- What a step leaves whose work is a function of its start. -/
theorem left_eq_lift (s : State) (f : Work → Work) : left s (f s.work) = lift f s := rfl

end Sys2Proof.Machine
end

