-- ==== Sys2Proof/Laws/Fields.lean ====
section
/-! SUPPORT. Reading a field of concatenated fields: what an encoding puts into a word is what its decoding reads there. Widths that are sums
match by evaluation, so these are given their widths as terms, not left to simp. -/
namespace Sys2Proof

/-- A field above the last piece lies in the pieces before it. -/
theorem field_append_high {m n : Nat} (a : BitVec m) (b : BitVec n) (lo len : Nat) : field (a ++ b) (n + lo) len = field a lo len := by
  rw [field, BitVec.extractLsb'_append_eq_of_le (Nat.le_add_right n lo), Nat.add_sub_cancel_left]
/-- A field within the last piece. -/
theorem field_append_low {m n : Nat} (a : BitVec m) (b : BitVec n) (lo len : Nat) (h : lo + len ≤ n) : field (a ++ b) lo len = field b lo len :=
  BitVec.extractLsb'_append_eq_of_add_le h
/-- The last piece itself. -/
theorem field_append_end {m n : Nat} (a : BitVec m) (b : BitVec n) : field (a ++ b) 0 n = b := by
  rw [field, BitVec.extractLsb'_append_eq_of_add_le (by omega), BitVec.extractLsb'_eq_self]
/-- All of a value. -/
theorem field_all {n : Nat} (a : BitVec n) : field a 0 n = a := BitVec.extractLsb'_eq_self
/-- The register pair number of STL's range form, which stands in two fields. -/
theorem field_split (rp : BitVec 5) : field rp 3 2 ++ field rp 0 3 = rp := by
  apply BitVec.eq_of_toNat_eq
  have := rp.isLt
  simp only [field, BitVec.toNat_append, BitVec.extractLsb'_toNat, Nat.shiftRight_eq_div_pow]
  rw [← Nat.shiftLeft_add_eq_or_of_lt (by omega), Nat.shiftLeft_eq]
  omega
end Sys2Proof
end

