-- ==== Sys2Proof/Laws/Memory.lean ====
section
/-! SUPPORT. Laws of memory, tables and byte lists: what a write leaves to be read, that it keeps the canonical form, what a table holds after
an update. -/
namespace Sys2Proof.Machine

/-! ## The canonical form -/

theorem Memory.wfFrom_none_of_some {l : Nat} : ∀ {m : Memory}, Memory.wfFrom (some l) m = true → Memory.wfFrom none m = true
  | [], _ => rfl
  | c :: m, h => by
    simp only [Memory.wfFrom, Bool.and_eq_true] at h ⊢
    exact ⟨⟨trivial, h.1.2⟩, h.2⟩

/-- In a memory of canonical form above `l`, every key is above `l`, no byte is 0 and keys rise. -/
theorem Memory.wfFrom_some_iff {l : Nat} : ∀ {m : Memory}, Memory.wfFrom (some l) m = true ↔
    ((∀ c ∈ m, l < c.1 ∧ c.2 ≠ 0#8) ∧ m.Pairwise (fun a b => a.1 < b.1))
  | [] => by simp [Memory.wfFrom]
  | c :: m => by
    have ih := Memory.wfFrom_some_iff (l := c.1) (m := m)
    simp only [Memory.wfFrom, Bool.and_eq_true, decide_eq_true_eq, ih, List.mem_cons, List.pairwise_cons]
    constructor
    · rintro ⟨⟨h1, h2⟩, h3, h4⟩
      refine ⟨?_, fun d hd => (h3 d hd).1, h4⟩
      rintro d (rfl | hd)
      · exact ⟨h1, h2⟩
      · exact ⟨lt_trans h1 (h3 d hd).1, (h3 d hd).2⟩
    · rintro ⟨h1, h2, h3⟩
      exact ⟨h1 c (.inl rfl), fun d hd => ⟨h2 d hd, (h1 d (.inr hd)).2⟩, h3⟩

/-- The canonical form: no listed byte is 0, keys rise strictly. -/
theorem Memory.wf_iff {m : Memory} : Memory.wf m = true ↔ ((∀ c ∈ m, c.2 ≠ 0#8) ∧ m.Pairwise (fun a b => a.1 < b.1)) := by
  cases m with
  | nil => simp [Memory.wf, Memory.wfFrom]
  | cons c m =>
    simp only [Memory.wf, Memory.wfFrom, Bool.and_eq_true, decide_eq_true_eq, Memory.wfFrom_some_iff, List.mem_cons, List.pairwise_cons]
    constructor
    · rintro ⟨⟨-, h2⟩, h3, h4⟩
      refine ⟨?_, fun d hd => (h3 d hd).1, h4⟩
      rintro d (rfl | hd)
      · exact h2
      · exact (h3 d hd).2
    · rintro ⟨h1, h2, h3⟩
      exact ⟨⟨trivial, h1 c (.inl rfl)⟩, fun d hd => ⟨h2 d hd, h1 d (.inr hd)⟩, h3⟩

/-- Cells of a byte list lie in its range, hold its bytes and rise. -/
theorem cellsAt_mem : ∀ {k : Nat} {bs : List Byte} {c : Host.Cell}, c ∈ cellsAt k bs →
    k ≤ c.1 ∧ c.1 < k + bs.length ∧ c.2 = bs.getD (c.1 - k) 0#8 ∧ c.2 ≠ 0#8
  | _, [], c, h => by simp [cellsAt] at h
  | k, b :: bs, c, h => by
    have tail : c ∈ cellsAt (k + 1) bs → k ≤ c.1 ∧ c.1 < k + (b :: bs).length ∧ c.2 = (b :: bs).getD (c.1 - k) 0#8 ∧ c.2 ≠ 0#8 := by
      intro h
      obtain ⟨h1, h2, h3, h4⟩ := cellsAt_mem h
      refine ⟨by omega, by simp only [List.length_cons]; omega, ?_, h4⟩
      rw [h3, show c.1 - k = (c.1 - (k + 1)) + 1 by omega]
      rfl
    unfold cellsAt at h
    split at h
    · exact tail h
    · rcases List.mem_cons.mp h with rfl | h
      · exact ⟨le_refl _, by simp, by simp, by assumption⟩
      · exact tail h

theorem cellsAt_pairwise : ∀ (k : Nat) (bs : List Byte), (cellsAt k bs).Pairwise (fun a b => a.1 < b.1)
  | _, [] => List.Pairwise.nil
  | k, b :: bs => by
    unfold cellsAt
    split
    · exact cellsAt_pairwise (k + 1) bs
    · refine List.pairwise_cons.mpr ⟨fun c hc => ?_, cellsAt_pairwise (k + 1) bs⟩
      have := (cellsAt_mem hc).1
      simp only; omega

/-- A byte of the list that is not 0 has its cell. -/
theorem cellsAt_has : ∀ {k : Nat} {bs : List Byte} {a : Nat}, k ≤ a → a < k + bs.length → bs.getD (a - k) 0#8 ≠ 0#8 →
    (a, bs.getD (a - k) 0#8) ∈ cellsAt k bs
  | k, [], a, h1, h2, _ => by simp at h2; omega
  | k, b :: bs, a, h1, h2, h3 => by
    unfold cellsAt
    rcases Nat.eq_or_lt_of_le h1 with rfl | h
    · simp only [Nat.sub_self, List.getD_cons_zero] at h3 ⊢
      rw [if_neg h3]; exact List.mem_cons_self
    · have e : a - k = (a - (k + 1)) + 1 := by omega
      rw [e, List.getD_cons_succ] at h3 ⊢
      have := cellsAt_has (k := k + 1) (bs := bs) h (by simp only [List.length_cons] at h2; omega) h3
      split
      · exact this
      · exact List.mem_cons_of_mem _ this

/-- A write keeps the canonical form. -/
theorem Memory.put_wf {m : Memory} (h : Memory.wf m = true) (k n : Nat) (bs : List Byte) : Memory.wf (m.put k n bs) = true := by
  rw [Memory.wf_iff] at h ⊢
  obtain ⟨hz, hp⟩ := h
  unfold Memory.put
  constructor
  · intro c hc
    simp only [List.mem_append, List.mem_filter] at hc
    rcases hc with (hc | hc) | hc
    · exact hz c hc.1
    · exact (cellsAt_mem hc).2.2.2
    · exact hz c hc.1
  · rw [List.pairwise_append, List.pairwise_append]
    refine ⟨⟨hp.filter _, cellsAt_pairwise k bs, ?_⟩, hp.filter _, ?_⟩
    · intro a ha b hb
      have h1 := (List.mem_filter.mp ha).2
      have h2 := (cellsAt_mem hb).1
      simp only [decide_eq_true_eq] at h1; omega
    · intro a ha b hb
      have h2 := (List.mem_filter.mp hb).2
      simp only [decide_eq_true_eq] at h2
      simp only [List.mem_append, List.mem_filter, decide_eq_true_eq] at ha
      rcases ha with ha | ha
      · omega
      · have := (cellsAt_mem ha).2.1; omega

/-- Reading a memory of canonical form: the byte of the cell, if there is one. -/
theorem Memory.get_eq_iff {m : Memory} (h : Memory.wf m = true) {k : Nat} {b : Byte} (hb : b ≠ 0#8) : m.get k = b ↔ (k, b) ∈ m := by
  rw [Memory.wf_iff] at h
  unfold Memory.get
  constructor
  · intro e
    cases hf : m.find? (fun c => c.1 == k) with
    | none => rw [hf] at e; exact absurd e.symm hb
    | some c =>
      rw [hf] at e
      have h1 := List.find?_some hf
      have h2 := List.mem_of_find?_eq_some hf
      simp only [beq_iff_eq] at h1
      simp only at e
      rw [← h1, ← e]; exact h2
  · intro hm
    cases hf : m.find? (fun c => c.1 == k) with
    | none => exact absurd (List.find?_eq_none.mp hf _ hm) (by simp)
    | some c =>
      have h1 := List.find?_some hf
      have h2 := List.mem_of_find?_eq_some hf
      simp only [beq_iff_eq] at h1
      have : c = (k, b) := by
        by_contra hne
        have hs : Std.Symm (fun a b : Host.Cell => a.1 ≠ b.1) := ⟨fun _ _ h => Ne.symm h⟩
        exact (List.Pairwise.forall (R := fun a b : Host.Cell => a.1 ≠ b.1) (h.2.imp fun h => Nat.ne_of_lt h) h2 hm hne) h1
      rw [this]

/-- What is read after a write: the bytes written, then zeros, and elsewhere what was there. -/
theorem Memory.get_put {m : Memory} (h : Memory.wf m = true) (k n : Nat) (bs : List Byte) (a : Nat) :
    (m.put k n bs).get a = if k ≤ a ∧ a < k + max n bs.length then bs.getD (a - k) 0#8 else m.get a := by
  have hw := Memory.put_wf h k n bs
  have mem : ∀ b : Byte, (a, b) ∈ m.put k n bs ↔ (a, b) ∈ m ∧ a < k ∨ (a, b) ∈ cellsAt k bs ∨ (a, b) ∈ m ∧ k + max n bs.length ≤ a := by
    intro b; simp only [Memory.put, List.mem_append, List.mem_filter, decide_eq_true_eq, or_assoc]
  by_cases hr : k ≤ a ∧ a < k + max n bs.length
  · rw [if_pos hr]
    by_cases hz : bs.getD (a - k) 0#8 = 0#8
    · rw [hz]
      by_contra hne
      have := (mem _).mp ((Memory.get_eq_iff hw hne).mp rfl)
      rcases this with h1 | h1 | h1
      · omega
      · obtain ⟨-, -, h3, h4⟩ := cellsAt_mem h1
        simp only at h3; rw [hz] at h3; exact h4 h3
      · omega
    · rw [Memory.get_eq_iff hw hz, mem]
      refine .inr (.inl (cellsAt_has hr.1 ?_ hz))
      by_contra hge
      rw [List.getD_eq_default _ _ (by omega)] at hz
      exact hz rfl
  · rw [if_neg hr]
    have out : ∀ b : Byte, (a, b) ∈ m.put k n bs ↔ (a, b) ∈ m := by
      intro b
      rw [mem]
      constructor
      · rintro (h1 | h1 | h1)
        · exact h1.1
        · have := cellsAt_mem h1; simp only at this; omega
        · exact h1.1
      · intro h1
        by_cases ha : a < k
        · exact .inl ⟨h1, ha⟩
        · exact .inr (.inr ⟨h1, by omega⟩)
    by_cases hz : m.get a = 0#8
    · rw [hz]
      by_contra hne
      have h1 := (out _).mp ((Memory.get_eq_iff hw hne).mp rfl)
      have := (Memory.get_eq_iff h hne).mpr h1
      rw [hz] at this; exact hne this.symm
    · rw [Memory.get_eq_iff hw hz, out, ← Memory.get_eq_iff h hz]

/-! ## Tables -/

theorem Tab.get_set {α : Type} (t : List (Nat × α)) (k j : Nat) (x d : α) :
    Tab.get (Tab.set t k x) j d = if j = k then x else Tab.get t j d := by
  induction t with
  | nil =>
    by_cases h : j = k
    · simp [Tab.get, Tab.set, h]
    · simp [Tab.get, Tab.set, h, Ne.symm h]
  | cons e t ih =>
    unfold Tab.set
    by_cases he : e.1 = k
    · by_cases h : j = k
      · simp [Tab.get, he, h]
      · simp [Tab.get, he, h, Ne.symm h]
    · by_cases hj : j = e.1
      · have : j ≠ k := fun h => he (hj.symm.trans h)
        simp [Tab.get, he, hj]
      · have hb : (e.1 == j) = false := by simp [Ne.symm hj]
        simp only [Tab.get, he, if_false, List.find?_cons, hb] at ih ⊢
        exact ih

@[simp] theorem Tab.get_set_same {α : Type} (t : List (Nat × α)) (k : Nat) (x d : α) : Tab.get (Tab.set t k x) k d = x := by
  simp [Tab.get_set]

theorem Tab.get_set_other {α : Type} (t : List (Nat × α)) {k j : Nat} (x d : α) (h : j ≠ k) :
    Tab.get (Tab.set t k x) j d = Tab.get t j d := by
  simp [Tab.get_set, h]

@[simp] theorem nth_setNth_same {α : Type} {n : Nat} (v : Vector α (n + 1)) (i : Nat) (x : α) : nth (setNth v i x) i = x := by
  show (v.set _ x _)[(Fin.ofNat (n + 1) i).val] = x
  simp

theorem nth_setNth_other {α : Type} {n : Nat} (v : Vector α (n + 1)) {i j : Nat} (x : α) (h : i % (n + 1) ≠ j % (n + 1)) :
    nth (setNth v i x) j = nth v j := by
  have hj : j % (n + 1) < n + 1 := Nat.mod_lt _ (Nat.succ_pos n)
  show (v.set (i % (n + 1)) x _)[j % (n + 1)]'hj = v[j % (n + 1)]'hj
  rw [Vector.getElem_set, if_neg h]

/-! ## Bytes of numbers -/

@[simp] theorem leBytes_length : ∀ (n x : Nat), (leBytes n x).length = n
  | 0, _ => rfl
  | n + 1, x => by simp [leBytes, leBytes_length n]

/-- A number is the value of its bytes. -/
theorem leNat_leBytes : ∀ (n x : Nat), leNat (leBytes n x) = x % 256 ^ n
  | 0, x => by simp [leBytes, leNat, Nat.mod_one]
  | n + 1, x => by
    have h := Nat.mod_mul (x := x) (a := 256) (b := 256 ^ n)
    rw [leBytes, leNat, leNat_leBytes n, BitVec.toNat_ofNat, pow_succ' 256, h]

end Sys2Proof.Machine
end

