-- ==== Sys2Proof/Laws/State.lean ====
section
/-! SUPPORT. Laws of the state: each field under each update, what is read where something was written, and the steps' effect on memory's form. -/
namespace Sys2Proof.Machine

/-! ## Fields under updates -/

namespace Work

@[simp] theorem modFocus_power (w : Work) (f : Focus → Focus) : (w.modFocus f).power = w.power := rfl
@[simp] theorem modFocus_booted (w : Work) (f : Focus → Focus) : (w.modFocus f).booted = w.booted := rfl
@[simp] theorem modFocus_cycle (w : Work) (f : Focus → Focus) : (w.modFocus f).cycle = w.cycle := rfl
@[simp] theorem modFocus_ns (w : Work) (f : Focus → Focus) : (w.modFocus f).ns = w.ns := rfl
@[simp] theorem modFocus_mhz (w : Work) (f : Focus → Focus) : (w.modFocus f).mhz = w.mhz := rfl
@[simp] theorem modFocus_inputs (w : Work) (f : Focus → Focus) : (w.modFocus f).inputs = w.inputs := rfl
@[simp] theorem modFocus_pending (w : Work) (f : Focus → Focus) : (w.modFocus f).pending = w.pending := rfl
@[simp] theorem modFocus_postponed (w : Work) (f : Focus → Focus) : (w.modFocus f).postponed = w.postponed := rfl
@[simp] theorem modFocus_swept (w : Work) (f : Focus → Focus) : (w.modFocus f).swept = w.swept := rfl
@[simp] theorem modFocus_turn (w : Work) (f : Focus → Focus) : (w.modFocus f).turn = w.turn := rfl
@[simp] theorem modFocus_freeNext (w : Work) (f : Focus → Focus) : (w.modFocus f).freeNext = w.freeNext := rfl
@[simp] theorem modFocus_issueNo (w : Work) (f : Focus → Focus) : (w.modFocus f).issueNo = w.issueNo := rfl
@[simp] theorem modFocus_poison (w : Work) (f : Focus → Focus) : (w.modFocus f).poison = w.poison := rfl
@[simp] theorem modFocus_hostL2 (w : Work) (f : Focus → Focus) : (w.modFocus f).hostL2 = w.hostL2 := rfl
@[simp] theorem modFocus_l2 (w : Work) (f : Focus → Focus) : (w.modFocus f).l2 = w.l2 := rfl
@[simp] theorem modFocus_floors (w : Work) (f : Focus → Focus) : (w.modFocus f).floors = w.floors := rfl
@[simp] theorem modFocus_windows (w : Work) (f : Focus → Focus) : (w.modFocus f).windows = w.windows := rfl
@[simp] theorem modFocus_cores (w : Work) (f : Focus → Focus) : (w.modFocus f).cores = w.cores := rfl
@[simp] theorem modFocus_parts (w : Work) (f : Focus → Focus) : (w.modFocus f).parts = w.parts := rfl
@[simp] theorem modFocus_insts (w : Work) (f : Focus → Focus) : (w.modFocus f).insts = w.insts := rfl
@[simp] theorem modFocus_handles (w : Work) (f : Focus → Focus) : (w.modFocus f).handles = w.handles := rfl
@[simp] theorem modFocus_flash (w : Work) (f : Focus → Focus) : (w.modFocus f).flash = w.flash := rfl
@[simp] theorem modFocus_monitors (w : Work) (f : Focus → Focus) : (w.modFocus f).monitors = w.monitors := rfl
@[simp] theorem modFocus_msi (w : Work) (f : Focus → Focus) : (w.modFocus f).msi = w.msi := rfl
@[simp] theorem modFocus_health (w : Work) (f : Focus → Focus) : (w.modFocus f).health = w.health := rfl
@[simp] theorem modFocus_coll (w : Work) (f : Focus → Focus) : (w.modFocus f).coll = w.coll := rfl
@[simp] theorem modFocus_base (w : Work) (f : Focus → Focus) : (w.modFocus f).base = w.base := rfl
@[simp] theorem modFocus_log (w : Work) (f : Focus → Focus) : (w.modFocus f).log = w.log := rfl

@[simp] theorem setCore_power (w : Work) (n : Nat) (c : Core) : (w.setCore n c).power = w.power := rfl
@[simp] theorem setCore_booted (w : Work) (n : Nat) (c : Core) : (w.setCore n c).booted = w.booted := rfl
@[simp] theorem setCore_cycle (w : Work) (n : Nat) (c : Core) : (w.setCore n c).cycle = w.cycle := rfl
@[simp] theorem setCore_ns (w : Work) (n : Nat) (c : Core) : (w.setCore n c).ns = w.ns := rfl
@[simp] theorem setCore_mhz (w : Work) (n : Nat) (c : Core) : (w.setCore n c).mhz = w.mhz := rfl
@[simp] theorem setCore_inputs (w : Work) (n : Nat) (c : Core) : (w.setCore n c).inputs = w.inputs := rfl
@[simp] theorem setCore_pending (w : Work) (n : Nat) (c : Core) : (w.setCore n c).pending = w.pending := rfl
@[simp] theorem setCore_postponed (w : Work) (n : Nat) (c : Core) : (w.setCore n c).postponed = w.postponed := rfl
@[simp] theorem setCore_swept (w : Work) (n : Nat) (c : Core) : (w.setCore n c).swept = w.swept := rfl
@[simp] theorem setCore_turn (w : Work) (n : Nat) (c : Core) : (w.setCore n c).turn = w.turn := rfl
@[simp] theorem setCore_focus (w : Work) (n : Nat) (c : Core) : (w.setCore n c).focus = w.focus := rfl
@[simp] theorem setCore_freeNext (w : Work) (n : Nat) (c : Core) : (w.setCore n c).freeNext = w.freeNext := rfl
@[simp] theorem setCore_issueNo (w : Work) (n : Nat) (c : Core) : (w.setCore n c).issueNo = w.issueNo := rfl
@[simp] theorem setCore_poison (w : Work) (n : Nat) (c : Core) : (w.setCore n c).poison = w.poison := rfl
@[simp] theorem setCore_hostL2 (w : Work) (n : Nat) (c : Core) : (w.setCore n c).hostL2 = w.hostL2 := rfl
@[simp] theorem setCore_l2 (w : Work) (n : Nat) (c : Core) : (w.setCore n c).l2 = w.l2 := rfl
@[simp] theorem setCore_floors (w : Work) (n : Nat) (c : Core) : (w.setCore n c).floors = w.floors := rfl
@[simp] theorem setCore_windows (w : Work) (n : Nat) (c : Core) : (w.setCore n c).windows = w.windows := rfl
@[simp] theorem setCore_parts (w : Work) (n : Nat) (c : Core) : (w.setCore n c).parts = w.parts := rfl
@[simp] theorem setCore_insts (w : Work) (n : Nat) (c : Core) : (w.setCore n c).insts = w.insts := rfl
@[simp] theorem setCore_handles (w : Work) (n : Nat) (c : Core) : (w.setCore n c).handles = w.handles := rfl
@[simp] theorem setCore_flash (w : Work) (n : Nat) (c : Core) : (w.setCore n c).flash = w.flash := rfl
@[simp] theorem setCore_monitors (w : Work) (n : Nat) (c : Core) : (w.setCore n c).monitors = w.monitors := rfl
@[simp] theorem setCore_msi (w : Work) (n : Nat) (c : Core) : (w.setCore n c).msi = w.msi := rfl
@[simp] theorem setCore_health (w : Work) (n : Nat) (c : Core) : (w.setCore n c).health = w.health := rfl
@[simp] theorem setCore_coll (w : Work) (n : Nat) (c : Core) : (w.setCore n c).coll = w.coll := rfl
@[simp] theorem setCore_base (w : Work) (n : Nat) (c : Core) : (w.setCore n c).base = w.base := rfl
@[simp] theorem setCore_log (w : Work) (n : Nat) (c : Core) : (w.setCore n c).log = w.log := rfl

@[simp] theorem modCore_power (w : Work) (n : Nat) (f : Core → Core) : (w.modCore n f).power = w.power := rfl
@[simp] theorem modCore_booted (w : Work) (n : Nat) (f : Core → Core) : (w.modCore n f).booted = w.booted := rfl
@[simp] theorem modCore_cycle (w : Work) (n : Nat) (f : Core → Core) : (w.modCore n f).cycle = w.cycle := rfl
@[simp] theorem modCore_ns (w : Work) (n : Nat) (f : Core → Core) : (w.modCore n f).ns = w.ns := rfl
@[simp] theorem modCore_mhz (w : Work) (n : Nat) (f : Core → Core) : (w.modCore n f).mhz = w.mhz := rfl
@[simp] theorem modCore_inputs (w : Work) (n : Nat) (f : Core → Core) : (w.modCore n f).inputs = w.inputs := rfl
@[simp] theorem modCore_pending (w : Work) (n : Nat) (f : Core → Core) : (w.modCore n f).pending = w.pending := rfl
@[simp] theorem modCore_postponed (w : Work) (n : Nat) (f : Core → Core) : (w.modCore n f).postponed = w.postponed := rfl
@[simp] theorem modCore_swept (w : Work) (n : Nat) (f : Core → Core) : (w.modCore n f).swept = w.swept := rfl
@[simp] theorem modCore_turn (w : Work) (n : Nat) (f : Core → Core) : (w.modCore n f).turn = w.turn := rfl
@[simp] theorem modCore_focus (w : Work) (n : Nat) (f : Core → Core) : (w.modCore n f).focus = w.focus := rfl
@[simp] theorem modCore_freeNext (w : Work) (n : Nat) (f : Core → Core) : (w.modCore n f).freeNext = w.freeNext := rfl
@[simp] theorem modCore_issueNo (w : Work) (n : Nat) (f : Core → Core) : (w.modCore n f).issueNo = w.issueNo := rfl
@[simp] theorem modCore_poison (w : Work) (n : Nat) (f : Core → Core) : (w.modCore n f).poison = w.poison := rfl
@[simp] theorem modCore_hostL2 (w : Work) (n : Nat) (f : Core → Core) : (w.modCore n f).hostL2 = w.hostL2 := rfl
@[simp] theorem modCore_l2 (w : Work) (n : Nat) (f : Core → Core) : (w.modCore n f).l2 = w.l2 := rfl
@[simp] theorem modCore_floors (w : Work) (n : Nat) (f : Core → Core) : (w.modCore n f).floors = w.floors := rfl
@[simp] theorem modCore_windows (w : Work) (n : Nat) (f : Core → Core) : (w.modCore n f).windows = w.windows := rfl
@[simp] theorem modCore_parts (w : Work) (n : Nat) (f : Core → Core) : (w.modCore n f).parts = w.parts := rfl
@[simp] theorem modCore_insts (w : Work) (n : Nat) (f : Core → Core) : (w.modCore n f).insts = w.insts := rfl
@[simp] theorem modCore_handles (w : Work) (n : Nat) (f : Core → Core) : (w.modCore n f).handles = w.handles := rfl
@[simp] theorem modCore_flash (w : Work) (n : Nat) (f : Core → Core) : (w.modCore n f).flash = w.flash := rfl
@[simp] theorem modCore_monitors (w : Work) (n : Nat) (f : Core → Core) : (w.modCore n f).monitors = w.monitors := rfl
@[simp] theorem modCore_msi (w : Work) (n : Nat) (f : Core → Core) : (w.modCore n f).msi = w.msi := rfl
@[simp] theorem modCore_health (w : Work) (n : Nat) (f : Core → Core) : (w.modCore n f).health = w.health := rfl
@[simp] theorem modCore_coll (w : Work) (n : Nat) (f : Core → Core) : (w.modCore n f).coll = w.coll := rfl
@[simp] theorem modCore_base (w : Work) (n : Nat) (f : Core → Core) : (w.modCore n f).base = w.base := rfl
@[simp] theorem modCore_log (w : Work) (n : Nat) (f : Core → Core) : (w.modCore n f).log = w.log := rfl

@[simp] theorem modCtx_power (w : Work) (n i : Nat) (f : Ctx → Ctx) : (w.modCtx n i f).power = w.power := rfl
@[simp] theorem modCtx_booted (w : Work) (n i : Nat) (f : Ctx → Ctx) : (w.modCtx n i f).booted = w.booted := rfl
@[simp] theorem modCtx_cycle (w : Work) (n i : Nat) (f : Ctx → Ctx) : (w.modCtx n i f).cycle = w.cycle := rfl
@[simp] theorem modCtx_ns (w : Work) (n i : Nat) (f : Ctx → Ctx) : (w.modCtx n i f).ns = w.ns := rfl
@[simp] theorem modCtx_mhz (w : Work) (n i : Nat) (f : Ctx → Ctx) : (w.modCtx n i f).mhz = w.mhz := rfl
@[simp] theorem modCtx_inputs (w : Work) (n i : Nat) (f : Ctx → Ctx) : (w.modCtx n i f).inputs = w.inputs := rfl
@[simp] theorem modCtx_pending (w : Work) (n i : Nat) (f : Ctx → Ctx) : (w.modCtx n i f).pending = w.pending := rfl
@[simp] theorem modCtx_postponed (w : Work) (n i : Nat) (f : Ctx → Ctx) : (w.modCtx n i f).postponed = w.postponed := rfl
@[simp] theorem modCtx_swept (w : Work) (n i : Nat) (f : Ctx → Ctx) : (w.modCtx n i f).swept = w.swept := rfl
@[simp] theorem modCtx_turn (w : Work) (n i : Nat) (f : Ctx → Ctx) : (w.modCtx n i f).turn = w.turn := rfl
@[simp] theorem modCtx_focus (w : Work) (n i : Nat) (f : Ctx → Ctx) : (w.modCtx n i f).focus = w.focus := rfl
@[simp] theorem modCtx_freeNext (w : Work) (n i : Nat) (f : Ctx → Ctx) : (w.modCtx n i f).freeNext = w.freeNext := rfl
@[simp] theorem modCtx_issueNo (w : Work) (n i : Nat) (f : Ctx → Ctx) : (w.modCtx n i f).issueNo = w.issueNo := rfl
@[simp] theorem modCtx_poison (w : Work) (n i : Nat) (f : Ctx → Ctx) : (w.modCtx n i f).poison = w.poison := rfl
@[simp] theorem modCtx_hostL2 (w : Work) (n i : Nat) (f : Ctx → Ctx) : (w.modCtx n i f).hostL2 = w.hostL2 := rfl
@[simp] theorem modCtx_l2 (w : Work) (n i : Nat) (f : Ctx → Ctx) : (w.modCtx n i f).l2 = w.l2 := rfl
@[simp] theorem modCtx_floors (w : Work) (n i : Nat) (f : Ctx → Ctx) : (w.modCtx n i f).floors = w.floors := rfl
@[simp] theorem modCtx_windows (w : Work) (n i : Nat) (f : Ctx → Ctx) : (w.modCtx n i f).windows = w.windows := rfl
@[simp] theorem modCtx_parts (w : Work) (n i : Nat) (f : Ctx → Ctx) : (w.modCtx n i f).parts = w.parts := rfl
@[simp] theorem modCtx_insts (w : Work) (n i : Nat) (f : Ctx → Ctx) : (w.modCtx n i f).insts = w.insts := rfl
@[simp] theorem modCtx_handles (w : Work) (n i : Nat) (f : Ctx → Ctx) : (w.modCtx n i f).handles = w.handles := rfl
@[simp] theorem modCtx_flash (w : Work) (n i : Nat) (f : Ctx → Ctx) : (w.modCtx n i f).flash = w.flash := rfl
@[simp] theorem modCtx_monitors (w : Work) (n i : Nat) (f : Ctx → Ctx) : (w.modCtx n i f).monitors = w.monitors := rfl
@[simp] theorem modCtx_msi (w : Work) (n i : Nat) (f : Ctx → Ctx) : (w.modCtx n i f).msi = w.msi := rfl
@[simp] theorem modCtx_health (w : Work) (n i : Nat) (f : Ctx → Ctx) : (w.modCtx n i f).health = w.health := rfl
@[simp] theorem modCtx_coll (w : Work) (n i : Nat) (f : Ctx → Ctx) : (w.modCtx n i f).coll = w.coll := rfl
@[simp] theorem modCtx_base (w : Work) (n i : Nat) (f : Ctx → Ctx) : (w.modCtx n i f).base = w.base := rfl
@[simp] theorem modCtx_log (w : Work) (n i : Nat) (f : Ctx → Ctx) : (w.modCtx n i f).log = w.log := rfl

@[simp] theorem modMe_power (w : Work) (f : Ctx → Ctx) : (w.modMe f).power = w.power := rfl
@[simp] theorem modMe_booted (w : Work) (f : Ctx → Ctx) : (w.modMe f).booted = w.booted := rfl
@[simp] theorem modMe_cycle (w : Work) (f : Ctx → Ctx) : (w.modMe f).cycle = w.cycle := rfl
@[simp] theorem modMe_ns (w : Work) (f : Ctx → Ctx) : (w.modMe f).ns = w.ns := rfl
@[simp] theorem modMe_mhz (w : Work) (f : Ctx → Ctx) : (w.modMe f).mhz = w.mhz := rfl
@[simp] theorem modMe_inputs (w : Work) (f : Ctx → Ctx) : (w.modMe f).inputs = w.inputs := rfl
@[simp] theorem modMe_pending (w : Work) (f : Ctx → Ctx) : (w.modMe f).pending = w.pending := rfl
@[simp] theorem modMe_postponed (w : Work) (f : Ctx → Ctx) : (w.modMe f).postponed = w.postponed := rfl
@[simp] theorem modMe_swept (w : Work) (f : Ctx → Ctx) : (w.modMe f).swept = w.swept := rfl
@[simp] theorem modMe_turn (w : Work) (f : Ctx → Ctx) : (w.modMe f).turn = w.turn := rfl
@[simp] theorem modMe_focus (w : Work) (f : Ctx → Ctx) : (w.modMe f).focus = w.focus := rfl
@[simp] theorem modMe_freeNext (w : Work) (f : Ctx → Ctx) : (w.modMe f).freeNext = w.freeNext := rfl
@[simp] theorem modMe_issueNo (w : Work) (f : Ctx → Ctx) : (w.modMe f).issueNo = w.issueNo := rfl
@[simp] theorem modMe_poison (w : Work) (f : Ctx → Ctx) : (w.modMe f).poison = w.poison := rfl
@[simp] theorem modMe_hostL2 (w : Work) (f : Ctx → Ctx) : (w.modMe f).hostL2 = w.hostL2 := rfl
@[simp] theorem modMe_l2 (w : Work) (f : Ctx → Ctx) : (w.modMe f).l2 = w.l2 := rfl
@[simp] theorem modMe_floors (w : Work) (f : Ctx → Ctx) : (w.modMe f).floors = w.floors := rfl
@[simp] theorem modMe_windows (w : Work) (f : Ctx → Ctx) : (w.modMe f).windows = w.windows := rfl
@[simp] theorem modMe_parts (w : Work) (f : Ctx → Ctx) : (w.modMe f).parts = w.parts := rfl
@[simp] theorem modMe_insts (w : Work) (f : Ctx → Ctx) : (w.modMe f).insts = w.insts := rfl
@[simp] theorem modMe_handles (w : Work) (f : Ctx → Ctx) : (w.modMe f).handles = w.handles := rfl
@[simp] theorem modMe_flash (w : Work) (f : Ctx → Ctx) : (w.modMe f).flash = w.flash := rfl
@[simp] theorem modMe_monitors (w : Work) (f : Ctx → Ctx) : (w.modMe f).monitors = w.monitors := rfl
@[simp] theorem modMe_msi (w : Work) (f : Ctx → Ctx) : (w.modMe f).msi = w.msi := rfl
@[simp] theorem modMe_health (w : Work) (f : Ctx → Ctx) : (w.modMe f).health = w.health := rfl
@[simp] theorem modMe_coll (w : Work) (f : Ctx → Ctx) : (w.modMe f).coll = w.coll := rfl
@[simp] theorem modMe_base (w : Work) (f : Ctx → Ctx) : (w.modMe f).base = w.base := rfl
@[simp] theorem modMe_log (w : Work) (f : Ctx → Ctx) : (w.modMe f).log = w.log := rfl

@[simp] theorem modHere_power (w : Work) (f : Core → Core) : (w.modHere f).power = w.power := rfl
@[simp] theorem modHere_booted (w : Work) (f : Core → Core) : (w.modHere f).booted = w.booted := rfl
@[simp] theorem modHere_cycle (w : Work) (f : Core → Core) : (w.modHere f).cycle = w.cycle := rfl
@[simp] theorem modHere_ns (w : Work) (f : Core → Core) : (w.modHere f).ns = w.ns := rfl
@[simp] theorem modHere_mhz (w : Work) (f : Core → Core) : (w.modHere f).mhz = w.mhz := rfl
@[simp] theorem modHere_inputs (w : Work) (f : Core → Core) : (w.modHere f).inputs = w.inputs := rfl
@[simp] theorem modHere_pending (w : Work) (f : Core → Core) : (w.modHere f).pending = w.pending := rfl
@[simp] theorem modHere_postponed (w : Work) (f : Core → Core) : (w.modHere f).postponed = w.postponed := rfl
@[simp] theorem modHere_swept (w : Work) (f : Core → Core) : (w.modHere f).swept = w.swept := rfl
@[simp] theorem modHere_turn (w : Work) (f : Core → Core) : (w.modHere f).turn = w.turn := rfl
@[simp] theorem modHere_focus (w : Work) (f : Core → Core) : (w.modHere f).focus = w.focus := rfl
@[simp] theorem modHere_freeNext (w : Work) (f : Core → Core) : (w.modHere f).freeNext = w.freeNext := rfl
@[simp] theorem modHere_issueNo (w : Work) (f : Core → Core) : (w.modHere f).issueNo = w.issueNo := rfl
@[simp] theorem modHere_poison (w : Work) (f : Core → Core) : (w.modHere f).poison = w.poison := rfl
@[simp] theorem modHere_hostL2 (w : Work) (f : Core → Core) : (w.modHere f).hostL2 = w.hostL2 := rfl
@[simp] theorem modHere_l2 (w : Work) (f : Core → Core) : (w.modHere f).l2 = w.l2 := rfl
@[simp] theorem modHere_floors (w : Work) (f : Core → Core) : (w.modHere f).floors = w.floors := rfl
@[simp] theorem modHere_windows (w : Work) (f : Core → Core) : (w.modHere f).windows = w.windows := rfl
@[simp] theorem modHere_parts (w : Work) (f : Core → Core) : (w.modHere f).parts = w.parts := rfl
@[simp] theorem modHere_insts (w : Work) (f : Core → Core) : (w.modHere f).insts = w.insts := rfl
@[simp] theorem modHere_handles (w : Work) (f : Core → Core) : (w.modHere f).handles = w.handles := rfl
@[simp] theorem modHere_flash (w : Work) (f : Core → Core) : (w.modHere f).flash = w.flash := rfl
@[simp] theorem modHere_monitors (w : Work) (f : Core → Core) : (w.modHere f).monitors = w.monitors := rfl
@[simp] theorem modHere_msi (w : Work) (f : Core → Core) : (w.modHere f).msi = w.msi := rfl
@[simp] theorem modHere_health (w : Work) (f : Core → Core) : (w.modHere f).health = w.health := rfl
@[simp] theorem modHere_coll (w : Work) (f : Core → Core) : (w.modHere f).coll = w.coll := rfl
@[simp] theorem modHere_base (w : Work) (f : Core → Core) : (w.modHere f).base = w.base := rfl
@[simp] theorem modHere_log (w : Work) (f : Core → Core) : (w.modHere f).log = w.log := rfl

@[simp] theorem modArr_power (w : Work) (n : Nat) (f : Arr → Arr) : (w.modArr n f).power = w.power := rfl
@[simp] theorem modArr_booted (w : Work) (n : Nat) (f : Arr → Arr) : (w.modArr n f).booted = w.booted := rfl
@[simp] theorem modArr_cycle (w : Work) (n : Nat) (f : Arr → Arr) : (w.modArr n f).cycle = w.cycle := rfl
@[simp] theorem modArr_ns (w : Work) (n : Nat) (f : Arr → Arr) : (w.modArr n f).ns = w.ns := rfl
@[simp] theorem modArr_mhz (w : Work) (n : Nat) (f : Arr → Arr) : (w.modArr n f).mhz = w.mhz := rfl
@[simp] theorem modArr_inputs (w : Work) (n : Nat) (f : Arr → Arr) : (w.modArr n f).inputs = w.inputs := rfl
@[simp] theorem modArr_pending (w : Work) (n : Nat) (f : Arr → Arr) : (w.modArr n f).pending = w.pending := rfl
@[simp] theorem modArr_postponed (w : Work) (n : Nat) (f : Arr → Arr) : (w.modArr n f).postponed = w.postponed := rfl
@[simp] theorem modArr_swept (w : Work) (n : Nat) (f : Arr → Arr) : (w.modArr n f).swept = w.swept := rfl
@[simp] theorem modArr_turn (w : Work) (n : Nat) (f : Arr → Arr) : (w.modArr n f).turn = w.turn := rfl
@[simp] theorem modArr_focus (w : Work) (n : Nat) (f : Arr → Arr) : (w.modArr n f).focus = w.focus := rfl
@[simp] theorem modArr_freeNext (w : Work) (n : Nat) (f : Arr → Arr) : (w.modArr n f).freeNext = w.freeNext := rfl
@[simp] theorem modArr_issueNo (w : Work) (n : Nat) (f : Arr → Arr) : (w.modArr n f).issueNo = w.issueNo := rfl
@[simp] theorem modArr_poison (w : Work) (n : Nat) (f : Arr → Arr) : (w.modArr n f).poison = w.poison := rfl
@[simp] theorem modArr_hostL2 (w : Work) (n : Nat) (f : Arr → Arr) : (w.modArr n f).hostL2 = w.hostL2 := rfl
@[simp] theorem modArr_l2 (w : Work) (n : Nat) (f : Arr → Arr) : (w.modArr n f).l2 = w.l2 := rfl
@[simp] theorem modArr_floors (w : Work) (n : Nat) (f : Arr → Arr) : (w.modArr n f).floors = w.floors := rfl
@[simp] theorem modArr_windows (w : Work) (n : Nat) (f : Arr → Arr) : (w.modArr n f).windows = w.windows := rfl
@[simp] theorem modArr_parts (w : Work) (n : Nat) (f : Arr → Arr) : (w.modArr n f).parts = w.parts := rfl
@[simp] theorem modArr_insts (w : Work) (n : Nat) (f : Arr → Arr) : (w.modArr n f).insts = w.insts := rfl
@[simp] theorem modArr_handles (w : Work) (n : Nat) (f : Arr → Arr) : (w.modArr n f).handles = w.handles := rfl
@[simp] theorem modArr_flash (w : Work) (n : Nat) (f : Arr → Arr) : (w.modArr n f).flash = w.flash := rfl
@[simp] theorem modArr_monitors (w : Work) (n : Nat) (f : Arr → Arr) : (w.modArr n f).monitors = w.monitors := rfl
@[simp] theorem modArr_msi (w : Work) (n : Nat) (f : Arr → Arr) : (w.modArr n f).msi = w.msi := rfl
@[simp] theorem modArr_health (w : Work) (n : Nat) (f : Arr → Arr) : (w.modArr n f).health = w.health := rfl
@[simp] theorem modArr_coll (w : Work) (n : Nat) (f : Arr → Arr) : (w.modArr n f).coll = w.coll := rfl
@[simp] theorem modArr_base (w : Work) (n : Nat) (f : Arr → Arr) : (w.modArr n f).base = w.base := rfl
@[simp] theorem modArr_log (w : Work) (n : Nat) (f : Arr → Arr) : (w.modArr n f).log = w.log := rfl

@[simp] theorem modHelper_power (w : Work) (n : Nat) (o : Bool) (f : Helper → Helper) : (w.modHelper n o f).power = w.power := rfl
@[simp] theorem modHelper_booted (w : Work) (n : Nat) (o : Bool) (f : Helper → Helper) : (w.modHelper n o f).booted = w.booted := rfl
@[simp] theorem modHelper_cycle (w : Work) (n : Nat) (o : Bool) (f : Helper → Helper) : (w.modHelper n o f).cycle = w.cycle := rfl
@[simp] theorem modHelper_ns (w : Work) (n : Nat) (o : Bool) (f : Helper → Helper) : (w.modHelper n o f).ns = w.ns := rfl
@[simp] theorem modHelper_mhz (w : Work) (n : Nat) (o : Bool) (f : Helper → Helper) : (w.modHelper n o f).mhz = w.mhz := rfl
@[simp] theorem modHelper_inputs (w : Work) (n : Nat) (o : Bool) (f : Helper → Helper) : (w.modHelper n o f).inputs = w.inputs := rfl
@[simp] theorem modHelper_pending (w : Work) (n : Nat) (o : Bool) (f : Helper → Helper) : (w.modHelper n o f).pending = w.pending := rfl
@[simp] theorem modHelper_postponed (w : Work) (n : Nat) (o : Bool) (f : Helper → Helper) : (w.modHelper n o f).postponed = w.postponed := rfl
@[simp] theorem modHelper_swept (w : Work) (n : Nat) (o : Bool) (f : Helper → Helper) : (w.modHelper n o f).swept = w.swept := rfl
@[simp] theorem modHelper_turn (w : Work) (n : Nat) (o : Bool) (f : Helper → Helper) : (w.modHelper n o f).turn = w.turn := rfl
@[simp] theorem modHelper_focus (w : Work) (n : Nat) (o : Bool) (f : Helper → Helper) : (w.modHelper n o f).focus = w.focus := rfl
@[simp] theorem modHelper_freeNext (w : Work) (n : Nat) (o : Bool) (f : Helper → Helper) : (w.modHelper n o f).freeNext = w.freeNext := rfl
@[simp] theorem modHelper_issueNo (w : Work) (n : Nat) (o : Bool) (f : Helper → Helper) : (w.modHelper n o f).issueNo = w.issueNo := rfl
@[simp] theorem modHelper_poison (w : Work) (n : Nat) (o : Bool) (f : Helper → Helper) : (w.modHelper n o f).poison = w.poison := rfl
@[simp] theorem modHelper_hostL2 (w : Work) (n : Nat) (o : Bool) (f : Helper → Helper) : (w.modHelper n o f).hostL2 = w.hostL2 := rfl
@[simp] theorem modHelper_l2 (w : Work) (n : Nat) (o : Bool) (f : Helper → Helper) : (w.modHelper n o f).l2 = w.l2 := rfl
@[simp] theorem modHelper_floors (w : Work) (n : Nat) (o : Bool) (f : Helper → Helper) : (w.modHelper n o f).floors = w.floors := rfl
@[simp] theorem modHelper_windows (w : Work) (n : Nat) (o : Bool) (f : Helper → Helper) : (w.modHelper n o f).windows = w.windows := rfl
@[simp] theorem modHelper_parts (w : Work) (n : Nat) (o : Bool) (f : Helper → Helper) : (w.modHelper n o f).parts = w.parts := rfl
@[simp] theorem modHelper_insts (w : Work) (n : Nat) (o : Bool) (f : Helper → Helper) : (w.modHelper n o f).insts = w.insts := rfl
@[simp] theorem modHelper_handles (w : Work) (n : Nat) (o : Bool) (f : Helper → Helper) : (w.modHelper n o f).handles = w.handles := rfl
@[simp] theorem modHelper_flash (w : Work) (n : Nat) (o : Bool) (f : Helper → Helper) : (w.modHelper n o f).flash = w.flash := rfl
@[simp] theorem modHelper_monitors (w : Work) (n : Nat) (o : Bool) (f : Helper → Helper) : (w.modHelper n o f).monitors = w.monitors := rfl
@[simp] theorem modHelper_msi (w : Work) (n : Nat) (o : Bool) (f : Helper → Helper) : (w.modHelper n o f).msi = w.msi := rfl
@[simp] theorem modHelper_health (w : Work) (n : Nat) (o : Bool) (f : Helper → Helper) : (w.modHelper n o f).health = w.health := rfl
@[simp] theorem modHelper_coll (w : Work) (n : Nat) (o : Bool) (f : Helper → Helper) : (w.modHelper n o f).coll = w.coll := rfl
@[simp] theorem modHelper_base (w : Work) (n : Nat) (o : Bool) (f : Helper → Helper) : (w.modHelper n o f).base = w.base := rfl
@[simp] theorem modHelper_log (w : Work) (n : Nat) (o : Bool) (f : Helper → Helper) : (w.modHelper n o f).log = w.log := rfl

@[simp] theorem modPart_power (w : Work) (p : Nat) (f : Partition → Partition) : (w.modPart p f).power = w.power := rfl
@[simp] theorem modPart_booted (w : Work) (p : Nat) (f : Partition → Partition) : (w.modPart p f).booted = w.booted := rfl
@[simp] theorem modPart_cycle (w : Work) (p : Nat) (f : Partition → Partition) : (w.modPart p f).cycle = w.cycle := rfl
@[simp] theorem modPart_ns (w : Work) (p : Nat) (f : Partition → Partition) : (w.modPart p f).ns = w.ns := rfl
@[simp] theorem modPart_mhz (w : Work) (p : Nat) (f : Partition → Partition) : (w.modPart p f).mhz = w.mhz := rfl
@[simp] theorem modPart_inputs (w : Work) (p : Nat) (f : Partition → Partition) : (w.modPart p f).inputs = w.inputs := rfl
@[simp] theorem modPart_pending (w : Work) (p : Nat) (f : Partition → Partition) : (w.modPart p f).pending = w.pending := rfl
@[simp] theorem modPart_postponed (w : Work) (p : Nat) (f : Partition → Partition) : (w.modPart p f).postponed = w.postponed := rfl
@[simp] theorem modPart_swept (w : Work) (p : Nat) (f : Partition → Partition) : (w.modPart p f).swept = w.swept := rfl
@[simp] theorem modPart_turn (w : Work) (p : Nat) (f : Partition → Partition) : (w.modPart p f).turn = w.turn := rfl
@[simp] theorem modPart_focus (w : Work) (p : Nat) (f : Partition → Partition) : (w.modPart p f).focus = w.focus := rfl
@[simp] theorem modPart_freeNext (w : Work) (p : Nat) (f : Partition → Partition) : (w.modPart p f).freeNext = w.freeNext := rfl
@[simp] theorem modPart_issueNo (w : Work) (p : Nat) (f : Partition → Partition) : (w.modPart p f).issueNo = w.issueNo := rfl
@[simp] theorem modPart_poison (w : Work) (p : Nat) (f : Partition → Partition) : (w.modPart p f).poison = w.poison := rfl
@[simp] theorem modPart_hostL2 (w : Work) (p : Nat) (f : Partition → Partition) : (w.modPart p f).hostL2 = w.hostL2 := rfl
@[simp] theorem modPart_l2 (w : Work) (p : Nat) (f : Partition → Partition) : (w.modPart p f).l2 = w.l2 := rfl
@[simp] theorem modPart_floors (w : Work) (p : Nat) (f : Partition → Partition) : (w.modPart p f).floors = w.floors := rfl
@[simp] theorem modPart_windows (w : Work) (p : Nat) (f : Partition → Partition) : (w.modPart p f).windows = w.windows := rfl
@[simp] theorem modPart_cores (w : Work) (p : Nat) (f : Partition → Partition) : (w.modPart p f).cores = w.cores := rfl
@[simp] theorem modPart_insts (w : Work) (p : Nat) (f : Partition → Partition) : (w.modPart p f).insts = w.insts := rfl
@[simp] theorem modPart_handles (w : Work) (p : Nat) (f : Partition → Partition) : (w.modPart p f).handles = w.handles := rfl
@[simp] theorem modPart_flash (w : Work) (p : Nat) (f : Partition → Partition) : (w.modPart p f).flash = w.flash := rfl
@[simp] theorem modPart_monitors (w : Work) (p : Nat) (f : Partition → Partition) : (w.modPart p f).monitors = w.monitors := rfl
@[simp] theorem modPart_msi (w : Work) (p : Nat) (f : Partition → Partition) : (w.modPart p f).msi = w.msi := rfl
@[simp] theorem modPart_health (w : Work) (p : Nat) (f : Partition → Partition) : (w.modPart p f).health = w.health := rfl
@[simp] theorem modPart_coll (w : Work) (p : Nat) (f : Partition → Partition) : (w.modPart p f).coll = w.coll := rfl
@[simp] theorem modPart_base (w : Work) (p : Nat) (f : Partition → Partition) : (w.modPart p f).base = w.base := rfl
@[simp] theorem modPart_log (w : Work) (p : Nat) (f : Partition → Partition) : (w.modPart p f).log = w.log := rfl

@[simp] theorem modInst_power (w : Work) (id : Nat) (f : Inst → Inst) : (w.modInst id f).power = w.power := rfl
@[simp] theorem modInst_booted (w : Work) (id : Nat) (f : Inst → Inst) : (w.modInst id f).booted = w.booted := rfl
@[simp] theorem modInst_cycle (w : Work) (id : Nat) (f : Inst → Inst) : (w.modInst id f).cycle = w.cycle := rfl
@[simp] theorem modInst_ns (w : Work) (id : Nat) (f : Inst → Inst) : (w.modInst id f).ns = w.ns := rfl
@[simp] theorem modInst_mhz (w : Work) (id : Nat) (f : Inst → Inst) : (w.modInst id f).mhz = w.mhz := rfl
@[simp] theorem modInst_inputs (w : Work) (id : Nat) (f : Inst → Inst) : (w.modInst id f).inputs = w.inputs := rfl
@[simp] theorem modInst_pending (w : Work) (id : Nat) (f : Inst → Inst) : (w.modInst id f).pending = w.pending := rfl
@[simp] theorem modInst_postponed (w : Work) (id : Nat) (f : Inst → Inst) : (w.modInst id f).postponed = w.postponed := rfl
@[simp] theorem modInst_swept (w : Work) (id : Nat) (f : Inst → Inst) : (w.modInst id f).swept = w.swept := rfl
@[simp] theorem modInst_turn (w : Work) (id : Nat) (f : Inst → Inst) : (w.modInst id f).turn = w.turn := rfl
@[simp] theorem modInst_focus (w : Work) (id : Nat) (f : Inst → Inst) : (w.modInst id f).focus = w.focus := rfl
@[simp] theorem modInst_freeNext (w : Work) (id : Nat) (f : Inst → Inst) : (w.modInst id f).freeNext = w.freeNext := rfl
@[simp] theorem modInst_issueNo (w : Work) (id : Nat) (f : Inst → Inst) : (w.modInst id f).issueNo = w.issueNo := rfl
@[simp] theorem modInst_poison (w : Work) (id : Nat) (f : Inst → Inst) : (w.modInst id f).poison = w.poison := rfl
@[simp] theorem modInst_hostL2 (w : Work) (id : Nat) (f : Inst → Inst) : (w.modInst id f).hostL2 = w.hostL2 := rfl
@[simp] theorem modInst_l2 (w : Work) (id : Nat) (f : Inst → Inst) : (w.modInst id f).l2 = w.l2 := rfl
@[simp] theorem modInst_floors (w : Work) (id : Nat) (f : Inst → Inst) : (w.modInst id f).floors = w.floors := rfl
@[simp] theorem modInst_windows (w : Work) (id : Nat) (f : Inst → Inst) : (w.modInst id f).windows = w.windows := rfl
@[simp] theorem modInst_cores (w : Work) (id : Nat) (f : Inst → Inst) : (w.modInst id f).cores = w.cores := rfl
@[simp] theorem modInst_parts (w : Work) (id : Nat) (f : Inst → Inst) : (w.modInst id f).parts = w.parts := rfl
@[simp] theorem modInst_handles (w : Work) (id : Nat) (f : Inst → Inst) : (w.modInst id f).handles = w.handles := rfl
@[simp] theorem modInst_flash (w : Work) (id : Nat) (f : Inst → Inst) : (w.modInst id f).flash = w.flash := rfl
@[simp] theorem modInst_monitors (w : Work) (id : Nat) (f : Inst → Inst) : (w.modInst id f).monitors = w.monitors := rfl
@[simp] theorem modInst_msi (w : Work) (id : Nat) (f : Inst → Inst) : (w.modInst id f).msi = w.msi := rfl
@[simp] theorem modInst_health (w : Work) (id : Nat) (f : Inst → Inst) : (w.modInst id f).health = w.health := rfl
@[simp] theorem modInst_coll (w : Work) (id : Nat) (f : Inst → Inst) : (w.modInst id f).coll = w.coll := rfl
@[simp] theorem modInst_base (w : Work) (id : Nat) (f : Inst → Inst) : (w.modInst id f).base = w.base := rfl
@[simp] theorem modInst_log (w : Work) (id : Nat) (f : Inst → Inst) : (w.modInst id f).log = w.log := rfl

@[simp] theorem modStack_power (w : Work) (j : Nat) (f : Stack → Stack) : (w.modStack j f).power = w.power := rfl
@[simp] theorem modStack_booted (w : Work) (j : Nat) (f : Stack → Stack) : (w.modStack j f).booted = w.booted := rfl
@[simp] theorem modStack_cycle (w : Work) (j : Nat) (f : Stack → Stack) : (w.modStack j f).cycle = w.cycle := rfl
@[simp] theorem modStack_ns (w : Work) (j : Nat) (f : Stack → Stack) : (w.modStack j f).ns = w.ns := rfl
@[simp] theorem modStack_mhz (w : Work) (j : Nat) (f : Stack → Stack) : (w.modStack j f).mhz = w.mhz := rfl
@[simp] theorem modStack_inputs (w : Work) (j : Nat) (f : Stack → Stack) : (w.modStack j f).inputs = w.inputs := rfl
@[simp] theorem modStack_pending (w : Work) (j : Nat) (f : Stack → Stack) : (w.modStack j f).pending = w.pending := rfl
@[simp] theorem modStack_postponed (w : Work) (j : Nat) (f : Stack → Stack) : (w.modStack j f).postponed = w.postponed := rfl
@[simp] theorem modStack_swept (w : Work) (j : Nat) (f : Stack → Stack) : (w.modStack j f).swept = w.swept := rfl
@[simp] theorem modStack_turn (w : Work) (j : Nat) (f : Stack → Stack) : (w.modStack j f).turn = w.turn := rfl
@[simp] theorem modStack_focus (w : Work) (j : Nat) (f : Stack → Stack) : (w.modStack j f).focus = w.focus := rfl
@[simp] theorem modStack_freeNext (w : Work) (j : Nat) (f : Stack → Stack) : (w.modStack j f).freeNext = w.freeNext := rfl
@[simp] theorem modStack_issueNo (w : Work) (j : Nat) (f : Stack → Stack) : (w.modStack j f).issueNo = w.issueNo := rfl
@[simp] theorem modStack_poison (w : Work) (j : Nat) (f : Stack → Stack) : (w.modStack j f).poison = w.poison := rfl
@[simp] theorem modStack_hostL2 (w : Work) (j : Nat) (f : Stack → Stack) : (w.modStack j f).hostL2 = w.hostL2 := rfl
@[simp] theorem modStack_l2 (w : Work) (j : Nat) (f : Stack → Stack) : (w.modStack j f).l2 = w.l2 := rfl
@[simp] theorem modStack_floors (w : Work) (j : Nat) (f : Stack → Stack) : (w.modStack j f).floors = w.floors := rfl
@[simp] theorem modStack_windows (w : Work) (j : Nat) (f : Stack → Stack) : (w.modStack j f).windows = w.windows := rfl
@[simp] theorem modStack_cores (w : Work) (j : Nat) (f : Stack → Stack) : (w.modStack j f).cores = w.cores := rfl
@[simp] theorem modStack_parts (w : Work) (j : Nat) (f : Stack → Stack) : (w.modStack j f).parts = w.parts := rfl
@[simp] theorem modStack_insts (w : Work) (j : Nat) (f : Stack → Stack) : (w.modStack j f).insts = w.insts := rfl
@[simp] theorem modStack_handles (w : Work) (j : Nat) (f : Stack → Stack) : (w.modStack j f).handles = w.handles := rfl
@[simp] theorem modStack_monitors (w : Work) (j : Nat) (f : Stack → Stack) : (w.modStack j f).monitors = w.monitors := rfl
@[simp] theorem modStack_msi (w : Work) (j : Nat) (f : Stack → Stack) : (w.modStack j f).msi = w.msi := rfl
@[simp] theorem modStack_health (w : Work) (j : Nat) (f : Stack → Stack) : (w.modStack j f).health = w.health := rfl
@[simp] theorem modStack_coll (w : Work) (j : Nat) (f : Stack → Stack) : (w.modStack j f).coll = w.coll := rfl
@[simp] theorem modStack_base (w : Work) (j : Nat) (f : Stack → Stack) : (w.modStack j f).base = w.base := rfl
@[simp] theorem modStack_log (w : Work) (j : Nat) (f : Stack → Stack) : (w.modStack j f).log = w.log := rfl

@[simp] theorem setHandle_power (w : Work) (h : Nat) (r : HandleRec) : (w.setHandle h r).power = w.power := rfl
@[simp] theorem setHandle_booted (w : Work) (h : Nat) (r : HandleRec) : (w.setHandle h r).booted = w.booted := rfl
@[simp] theorem setHandle_cycle (w : Work) (h : Nat) (r : HandleRec) : (w.setHandle h r).cycle = w.cycle := rfl
@[simp] theorem setHandle_ns (w : Work) (h : Nat) (r : HandleRec) : (w.setHandle h r).ns = w.ns := rfl
@[simp] theorem setHandle_mhz (w : Work) (h : Nat) (r : HandleRec) : (w.setHandle h r).mhz = w.mhz := rfl
@[simp] theorem setHandle_inputs (w : Work) (h : Nat) (r : HandleRec) : (w.setHandle h r).inputs = w.inputs := rfl
@[simp] theorem setHandle_pending (w : Work) (h : Nat) (r : HandleRec) : (w.setHandle h r).pending = w.pending := rfl
@[simp] theorem setHandle_postponed (w : Work) (h : Nat) (r : HandleRec) : (w.setHandle h r).postponed = w.postponed := rfl
@[simp] theorem setHandle_swept (w : Work) (h : Nat) (r : HandleRec) : (w.setHandle h r).swept = w.swept := rfl
@[simp] theorem setHandle_turn (w : Work) (h : Nat) (r : HandleRec) : (w.setHandle h r).turn = w.turn := rfl
@[simp] theorem setHandle_focus (w : Work) (h : Nat) (r : HandleRec) : (w.setHandle h r).focus = w.focus := rfl
@[simp] theorem setHandle_freeNext (w : Work) (h : Nat) (r : HandleRec) : (w.setHandle h r).freeNext = w.freeNext := rfl
@[simp] theorem setHandle_issueNo (w : Work) (h : Nat) (r : HandleRec) : (w.setHandle h r).issueNo = w.issueNo := rfl
@[simp] theorem setHandle_poison (w : Work) (h : Nat) (r : HandleRec) : (w.setHandle h r).poison = w.poison := rfl
@[simp] theorem setHandle_hostL2 (w : Work) (h : Nat) (r : HandleRec) : (w.setHandle h r).hostL2 = w.hostL2 := rfl
@[simp] theorem setHandle_l2 (w : Work) (h : Nat) (r : HandleRec) : (w.setHandle h r).l2 = w.l2 := rfl
@[simp] theorem setHandle_floors (w : Work) (h : Nat) (r : HandleRec) : (w.setHandle h r).floors = w.floors := rfl
@[simp] theorem setHandle_windows (w : Work) (h : Nat) (r : HandleRec) : (w.setHandle h r).windows = w.windows := rfl
@[simp] theorem setHandle_cores (w : Work) (h : Nat) (r : HandleRec) : (w.setHandle h r).cores = w.cores := rfl
@[simp] theorem setHandle_parts (w : Work) (h : Nat) (r : HandleRec) : (w.setHandle h r).parts = w.parts := rfl
@[simp] theorem setHandle_insts (w : Work) (h : Nat) (r : HandleRec) : (w.setHandle h r).insts = w.insts := rfl
@[simp] theorem setHandle_flash (w : Work) (h : Nat) (r : HandleRec) : (w.setHandle h r).flash = w.flash := rfl
@[simp] theorem setHandle_monitors (w : Work) (h : Nat) (r : HandleRec) : (w.setHandle h r).monitors = w.monitors := rfl
@[simp] theorem setHandle_msi (w : Work) (h : Nat) (r : HandleRec) : (w.setHandle h r).msi = w.msi := rfl
@[simp] theorem setHandle_health (w : Work) (h : Nat) (r : HandleRec) : (w.setHandle h r).health = w.health := rfl
@[simp] theorem setHandle_coll (w : Work) (h : Nat) (r : HandleRec) : (w.setHandle h r).coll = w.coll := rfl
@[simp] theorem setHandle_base (w : Work) (h : Nat) (r : HandleRec) : (w.setHandle h r).base = w.base := rfl
@[simp] theorem setHandle_log (w : Work) (h : Nat) (r : HandleRec) : (w.setHandle h r).log = w.log := rfl

@[simp] theorem todo_power (w : Work) (n c : Nat) (i : Instr) : (w.todo n c i).power = w.power := rfl
@[simp] theorem todo_booted (w : Work) (n c : Nat) (i : Instr) : (w.todo n c i).booted = w.booted := rfl
@[simp] theorem todo_cycle (w : Work) (n c : Nat) (i : Instr) : (w.todo n c i).cycle = w.cycle := rfl
@[simp] theorem todo_ns (w : Work) (n c : Nat) (i : Instr) : (w.todo n c i).ns = w.ns := rfl
@[simp] theorem todo_mhz (w : Work) (n c : Nat) (i : Instr) : (w.todo n c i).mhz = w.mhz := rfl
@[simp] theorem todo_inputs (w : Work) (n c : Nat) (i : Instr) : (w.todo n c i).inputs = w.inputs := rfl
@[simp] theorem todo_postponed (w : Work) (n c : Nat) (i : Instr) : (w.todo n c i).postponed = w.postponed := rfl
@[simp] theorem todo_swept (w : Work) (n c : Nat) (i : Instr) : (w.todo n c i).swept = w.swept := rfl
@[simp] theorem todo_turn (w : Work) (n c : Nat) (i : Instr) : (w.todo n c i).turn = w.turn := rfl
@[simp] theorem todo_focus (w : Work) (n c : Nat) (i : Instr) : (w.todo n c i).focus = w.focus := rfl
@[simp] theorem todo_freeNext (w : Work) (n c : Nat) (i : Instr) : (w.todo n c i).freeNext = w.freeNext := rfl
@[simp] theorem todo_issueNo (w : Work) (n c : Nat) (i : Instr) : (w.todo n c i).issueNo = w.issueNo := rfl
@[simp] theorem todo_poison (w : Work) (n c : Nat) (i : Instr) : (w.todo n c i).poison = w.poison := rfl
@[simp] theorem todo_hostL2 (w : Work) (n c : Nat) (i : Instr) : (w.todo n c i).hostL2 = w.hostL2 := rfl
@[simp] theorem todo_l2 (w : Work) (n c : Nat) (i : Instr) : (w.todo n c i).l2 = w.l2 := rfl
@[simp] theorem todo_floors (w : Work) (n c : Nat) (i : Instr) : (w.todo n c i).floors = w.floors := rfl
@[simp] theorem todo_windows (w : Work) (n c : Nat) (i : Instr) : (w.todo n c i).windows = w.windows := rfl
@[simp] theorem todo_cores (w : Work) (n c : Nat) (i : Instr) : (w.todo n c i).cores = w.cores := rfl
@[simp] theorem todo_parts (w : Work) (n c : Nat) (i : Instr) : (w.todo n c i).parts = w.parts := rfl
@[simp] theorem todo_insts (w : Work) (n c : Nat) (i : Instr) : (w.todo n c i).insts = w.insts := rfl
@[simp] theorem todo_handles (w : Work) (n c : Nat) (i : Instr) : (w.todo n c i).handles = w.handles := rfl
@[simp] theorem todo_flash (w : Work) (n c : Nat) (i : Instr) : (w.todo n c i).flash = w.flash := rfl
@[simp] theorem todo_monitors (w : Work) (n c : Nat) (i : Instr) : (w.todo n c i).monitors = w.monitors := rfl
@[simp] theorem todo_msi (w : Work) (n c : Nat) (i : Instr) : (w.todo n c i).msi = w.msi := rfl
@[simp] theorem todo_health (w : Work) (n c : Nat) (i : Instr) : (w.todo n c i).health = w.health := rfl
@[simp] theorem todo_coll (w : Work) (n c : Nat) (i : Instr) : (w.todo n c i).coll = w.coll := rfl
@[simp] theorem todo_base (w : Work) (n c : Nat) (i : Instr) : (w.todo n c i).base = w.base := rfl
@[simp] theorem todo_log (w : Work) (n c : Nat) (i : Instr) : (w.todo n c i).log = w.log := rfl

@[simp] theorem write_power (w : Work) (k : Nat) (bs : List Byte) : (w.write k bs).power = w.power := by unfold write; split <;> rfl
@[simp] theorem write_booted (w : Work) (k : Nat) (bs : List Byte) : (w.write k bs).booted = w.booted := by unfold write; split <;> rfl
@[simp] theorem write_cycle (w : Work) (k : Nat) (bs : List Byte) : (w.write k bs).cycle = w.cycle := by unfold write; split <;> rfl
@[simp] theorem write_ns (w : Work) (k : Nat) (bs : List Byte) : (w.write k bs).ns = w.ns := by unfold write; split <;> rfl
@[simp] theorem write_mhz (w : Work) (k : Nat) (bs : List Byte) : (w.write k bs).mhz = w.mhz := by unfold write; split <;> rfl
@[simp] theorem write_inputs (w : Work) (k : Nat) (bs : List Byte) : (w.write k bs).inputs = w.inputs := by unfold write; split <;> rfl
@[simp] theorem write_pending (w : Work) (k : Nat) (bs : List Byte) : (w.write k bs).pending = w.pending := by unfold write; split <;> rfl
@[simp] theorem write_postponed (w : Work) (k : Nat) (bs : List Byte) : (w.write k bs).postponed = w.postponed := by unfold write; split <;> rfl
@[simp] theorem write_swept (w : Work) (k : Nat) (bs : List Byte) : (w.write k bs).swept = w.swept := by unfold write; split <;> rfl
@[simp] theorem write_turn (w : Work) (k : Nat) (bs : List Byte) : (w.write k bs).turn = w.turn := by unfold write; split <;> rfl
@[simp] theorem write_focus (w : Work) (k : Nat) (bs : List Byte) : (w.write k bs).focus = w.focus := by unfold write; split <;> rfl
@[simp] theorem write_freeNext (w : Work) (k : Nat) (bs : List Byte) : (w.write k bs).freeNext = w.freeNext := by unfold write; split <;> rfl
@[simp] theorem write_issueNo (w : Work) (k : Nat) (bs : List Byte) : (w.write k bs).issueNo = w.issueNo := by unfold write; split <;> rfl
@[simp] theorem write_hostL2 (w : Work) (k : Nat) (bs : List Byte) : (w.write k bs).hostL2 = w.hostL2 := by unfold write; split <;> rfl
@[simp] theorem write_l2 (w : Work) (k : Nat) (bs : List Byte) : (w.write k bs).l2 = w.l2 := by unfold write; split <;> rfl
@[simp] theorem write_floors (w : Work) (k : Nat) (bs : List Byte) : (w.write k bs).floors = w.floors := by unfold write; split <;> rfl
@[simp] theorem write_windows (w : Work) (k : Nat) (bs : List Byte) : (w.write k bs).windows = w.windows := by unfold write; split <;> rfl
@[simp] theorem write_cores (w : Work) (k : Nat) (bs : List Byte) : (w.write k bs).cores = w.cores := by unfold write; split <;> rfl
@[simp] theorem write_parts (w : Work) (k : Nat) (bs : List Byte) : (w.write k bs).parts = w.parts := by unfold write; split <;> rfl
@[simp] theorem write_insts (w : Work) (k : Nat) (bs : List Byte) : (w.write k bs).insts = w.insts := by unfold write; split <;> rfl
@[simp] theorem write_handles (w : Work) (k : Nat) (bs : List Byte) : (w.write k bs).handles = w.handles := by unfold write; split <;> rfl
@[simp] theorem write_flash (w : Work) (k : Nat) (bs : List Byte) : (w.write k bs).flash = w.flash := by unfold write; split <;> rfl
@[simp] theorem write_monitors (w : Work) (k : Nat) (bs : List Byte) : (w.write k bs).monitors = w.monitors := by unfold write; split <;> rfl
@[simp] theorem write_msi (w : Work) (k : Nat) (bs : List Byte) : (w.write k bs).msi = w.msi := by unfold write; split <;> rfl
@[simp] theorem write_health (w : Work) (k : Nat) (bs : List Byte) : (w.write k bs).health = w.health := by unfold write; split <;> rfl
@[simp] theorem write_coll (w : Work) (k : Nat) (bs : List Byte) : (w.write k bs).coll = w.coll := by unfold write; split <;> rfl
@[simp] theorem write_base (w : Work) (k : Nat) (bs : List Byte) : (w.write k bs).base = w.base := by unfold write; split <;> rfl

@[simp] theorem wipe_power (w : Work) (k n : Nat) : (w.wipe k n).power = w.power := rfl
@[simp] theorem wipe_booted (w : Work) (k n : Nat) : (w.wipe k n).booted = w.booted := rfl
@[simp] theorem wipe_cycle (w : Work) (k n : Nat) : (w.wipe k n).cycle = w.cycle := rfl
@[simp] theorem wipe_ns (w : Work) (k n : Nat) : (w.wipe k n).ns = w.ns := rfl
@[simp] theorem wipe_mhz (w : Work) (k n : Nat) : (w.wipe k n).mhz = w.mhz := rfl
@[simp] theorem wipe_inputs (w : Work) (k n : Nat) : (w.wipe k n).inputs = w.inputs := rfl
@[simp] theorem wipe_pending (w : Work) (k n : Nat) : (w.wipe k n).pending = w.pending := rfl
@[simp] theorem wipe_postponed (w : Work) (k n : Nat) : (w.wipe k n).postponed = w.postponed := rfl
@[simp] theorem wipe_swept (w : Work) (k n : Nat) : (w.wipe k n).swept = w.swept := rfl
@[simp] theorem wipe_turn (w : Work) (k n : Nat) : (w.wipe k n).turn = w.turn := rfl
@[simp] theorem wipe_focus (w : Work) (k n : Nat) : (w.wipe k n).focus = w.focus := rfl
@[simp] theorem wipe_freeNext (w : Work) (k n : Nat) : (w.wipe k n).freeNext = w.freeNext := rfl
@[simp] theorem wipe_issueNo (w : Work) (k n : Nat) : (w.wipe k n).issueNo = w.issueNo := rfl
@[simp] theorem wipe_hostL2 (w : Work) (k n : Nat) : (w.wipe k n).hostL2 = w.hostL2 := rfl
@[simp] theorem wipe_l2 (w : Work) (k n : Nat) : (w.wipe k n).l2 = w.l2 := rfl
@[simp] theorem wipe_floors (w : Work) (k n : Nat) : (w.wipe k n).floors = w.floors := rfl
@[simp] theorem wipe_windows (w : Work) (k n : Nat) : (w.wipe k n).windows = w.windows := rfl
@[simp] theorem wipe_cores (w : Work) (k n : Nat) : (w.wipe k n).cores = w.cores := rfl
@[simp] theorem wipe_parts (w : Work) (k n : Nat) : (w.wipe k n).parts = w.parts := rfl
@[simp] theorem wipe_insts (w : Work) (k n : Nat) : (w.wipe k n).insts = w.insts := rfl
@[simp] theorem wipe_handles (w : Work) (k n : Nat) : (w.wipe k n).handles = w.handles := rfl
@[simp] theorem wipe_flash (w : Work) (k n : Nat) : (w.wipe k n).flash = w.flash := rfl
@[simp] theorem wipe_monitors (w : Work) (k n : Nat) : (w.wipe k n).monitors = w.monitors := rfl
@[simp] theorem wipe_msi (w : Work) (k n : Nat) : (w.wipe k n).msi = w.msi := rfl
@[simp] theorem wipe_health (w : Work) (k n : Nat) : (w.wipe k n).health = w.health := rfl
@[simp] theorem wipe_coll (w : Work) (k n : Nat) : (w.wipe k n).coll = w.coll := rfl
@[simp] theorem wipe_base (w : Work) (k n : Nat) : (w.wipe k n).base = w.base := rfl

@[simp] theorem put_power (w : Work) (r : Res) : (w.put r).power = w.power := by unfold put; dsimp only; split <;> rfl
@[simp] theorem put_booted (w : Work) (r : Res) : (w.put r).booted = w.booted := by unfold put; dsimp only; split <;> rfl
@[simp] theorem put_cycle (w : Work) (r : Res) : (w.put r).cycle = w.cycle := by unfold put; dsimp only; split <;> rfl
@[simp] theorem put_ns (w : Work) (r : Res) : (w.put r).ns = w.ns := by unfold put; dsimp only; split <;> rfl
@[simp] theorem put_mhz (w : Work) (r : Res) : (w.put r).mhz = w.mhz := by unfold put; dsimp only; split <;> rfl
@[simp] theorem put_inputs (w : Work) (r : Res) : (w.put r).inputs = w.inputs := by unfold put; dsimp only; split <;> rfl
@[simp] theorem put_pending (w : Work) (r : Res) : (w.put r).pending = w.pending := by unfold put; dsimp only; split <;> rfl
@[simp] theorem put_postponed (w : Work) (r : Res) : (w.put r).postponed = w.postponed := by unfold put; dsimp only; split <;> rfl
@[simp] theorem put_swept (w : Work) (r : Res) : (w.put r).swept = w.swept := by unfold put; dsimp only; split <;> rfl
@[simp] theorem put_turn (w : Work) (r : Res) : (w.put r).turn = w.turn := by unfold put; dsimp only; split <;> rfl
@[simp] theorem put_focus (w : Work) (r : Res) : (w.put r).focus = w.focus := by unfold put; dsimp only; split <;> rfl
@[simp] theorem put_freeNext (w : Work) (r : Res) : (w.put r).freeNext = w.freeNext := by unfold put; dsimp only; split <;> rfl
@[simp] theorem put_issueNo (w : Work) (r : Res) : (w.put r).issueNo = w.issueNo := by unfold put; dsimp only; split <;> rfl
@[simp] theorem put_poison (w : Work) (r : Res) : (w.put r).poison = w.poison := by unfold put; dsimp only; split <;> rfl
@[simp] theorem put_hostL2 (w : Work) (r : Res) : (w.put r).hostL2 = w.hostL2 := by unfold put; dsimp only; split <;> rfl
@[simp] theorem put_l2 (w : Work) (r : Res) : (w.put r).l2 = w.l2 := by unfold put; dsimp only; split <;> rfl
@[simp] theorem put_floors (w : Work) (r : Res) : (w.put r).floors = w.floors := by unfold put; dsimp only; split <;> rfl
@[simp] theorem put_windows (w : Work) (r : Res) : (w.put r).windows = w.windows := by unfold put; dsimp only; split <;> rfl
@[simp] theorem put_parts (w : Work) (r : Res) : (w.put r).parts = w.parts := by unfold put; dsimp only; split <;> rfl
@[simp] theorem put_insts (w : Work) (r : Res) : (w.put r).insts = w.insts := by unfold put; dsimp only; split <;> rfl
@[simp] theorem put_handles (w : Work) (r : Res) : (w.put r).handles = w.handles := by unfold put; dsimp only; split <;> rfl
@[simp] theorem put_flash (w : Work) (r : Res) : (w.put r).flash = w.flash := by unfold put; dsimp only; split <;> rfl
@[simp] theorem put_monitors (w : Work) (r : Res) : (w.put r).monitors = w.monitors := by unfold put; dsimp only; split <;> rfl
@[simp] theorem put_msi (w : Work) (r : Res) : (w.put r).msi = w.msi := by unfold put; dsimp only; split <;> rfl
@[simp] theorem put_health (w : Work) (r : Res) : (w.put r).health = w.health := by unfold put; dsimp only; split <;> rfl
@[simp] theorem put_coll (w : Work) (r : Res) : (w.put r).coll = w.coll := by unfold put; dsimp only; split <;> rfl
@[simp] theorem put_base (w : Work) (r : Res) : (w.put r).base = w.base := by unfold put; dsimp only; split <;> rfl
@[simp] theorem put_log (w : Work) (r : Res) : (w.put r).log = w.log := by unfold put; dsimp only; split <;> rfl

theorem write_log (w : Work) (k : Nat) (bs : List Byte) : (w.write k bs).log = ⟨k, bs.length, bs⟩ :: w.log := by unfold write; split <;> rfl

end Work

/-! ## A step's work and its effect -/

@[simp] theorem State.work_power (s : State) : s.work.power = s.power := rfl
@[simp] theorem State.work_booted (s : State) : s.work.booted = s.booted := rfl
@[simp] theorem State.work_cycle (s : State) : s.work.cycle = s.cycle := rfl
@[simp] theorem State.work_ns (s : State) : s.work.ns = s.ns := rfl
@[simp] theorem State.work_nsRest (s : State) : s.work.nsRest = s.nsRest := rfl
@[simp] theorem State.work_mhz (s : State) : s.work.mhz = s.mhz := rfl
@[simp] theorem State.work_coolNs (s : State) : s.work.coolNs = s.coolNs := rfl
@[simp] theorem State.work_powerDue (s : State) : s.work.powerDue = s.powerDue := rfl
@[simp] theorem State.work_inputs (s : State) : s.work.inputs = s.inputs := rfl
@[simp] theorem State.work_pending (s : State) : s.work.pending = s.pending := rfl
@[simp] theorem State.work_postponed (s : State) : s.work.postponed = s.postponed := rfl
@[simp] theorem State.work_swept (s : State) : s.work.swept = s.swept := rfl
@[simp] theorem State.work_turn (s : State) : s.work.turn = s.turn := rfl
@[simp] theorem State.work_focus (s : State) : s.work.focus = s.focus := rfl
@[simp] theorem State.work_freeNext (s : State) : s.work.freeNext = s.freeNext := rfl
@[simp] theorem State.work_issueNo (s : State) : s.work.issueNo = s.issueNo := rfl
@[simp] theorem State.work_instNext (s : State) : s.work.instNext = s.instNext := rfl
@[simp] theorem State.work_markerNext (s : State) : s.work.markerNext = s.markerNext := rfl
@[simp] theorem State.work_readNext (s : State) : s.work.readNext = s.readNext := rfl
@[simp] theorem State.work_poison (s : State) : s.work.poison = s.poison := rfl
@[simp] theorem State.work_hostL2 (s : State) : s.work.hostL2 = s.hostL2 := rfl
@[simp] theorem State.work_l2 (s : State) : s.work.l2 = s.l2 := rfl
@[simp] theorem State.work_floors (s : State) : s.work.floors = s.floors := rfl
@[simp] theorem State.work_windows (s : State) : s.work.windows = s.windows := rfl
@[simp] theorem State.work_dieTlb (s : State) : s.work.dieTlb = s.dieTlb := rfl
@[simp] theorem State.work_cores (s : State) : s.work.cores = s.cores := rfl
@[simp] theorem State.work_sparesUsed (s : State) : s.work.sparesUsed = s.sparesUsed := rfl
@[simp] theorem State.work_parts (s : State) : s.work.parts = s.parts := rfl
@[simp] theorem State.work_insts (s : State) : s.work.insts = s.insts := rfl
@[simp] theorem State.work_handles (s : State) : s.work.handles = s.handles := rfl
@[simp] theorem State.work_flash (s : State) : s.work.flash = s.flash := rfl
@[simp] theorem State.work_channelFails (s : State) : s.work.channelFails = s.channelFails := rfl
@[simp] theorem State.work_stackHeld (s : State) : s.work.stackHeld = s.stackHeld := rfl
@[simp] theorem State.work_linksUp (s : State) : s.work.linksUp = s.linksUp := rfl
@[simp] theorem State.work_railsUp (s : State) : s.work.railsUp = s.railsUp := rfl
@[simp] theorem State.work_monitors (s : State) : s.work.monitors = s.monitors := rfl
@[simp] theorem State.work_msi (s : State) : s.work.msi = s.msi := rfl
@[simp] theorem State.work_health (s : State) : s.work.health = s.health := rfl
@[simp] theorem State.work_msgNext (s : State) : s.work.msgNext = s.msgNext := rfl
@[simp] theorem State.work_sent (s : State) : s.work.sent = s.sent := rfl
@[simp] theorem State.work_sentNext (s : State) : s.work.sentNext = s.sentNext := rfl
@[simp] theorem State.work_rx (s : State) : s.work.rx = s.rx := rfl
@[simp] theorem State.work_coll (s : State) : s.work.coll = s.coll := rfl
@[simp] theorem State.work_measures (s : State) : s.work.measures = s.measures := rfl
@[simp] theorem State.work_msix (s : State) : s.work.msix = s.msix := rfl
@[simp] theorem State.work_ide (s : State) : s.work.ide = s.ide := rfl
@[simp] theorem State.work_doe (s : State) : s.work.doe = s.doe := rfl
@[simp] theorem State.work_mctp (s : State) : s.work.mctp = s.mctp := rfl
@[simp] theorem State.work_sensors (s : State) : s.work.sensors = s.sensors := rfl
@[simp] theorem State.work_commands (s : State) : s.work.commands = s.commands := rfl
@[simp] theorem State.work_collSent (s : State) : s.work.collSent = s.collSent := rfl
@[simp] theorem State.work_collDone (s : State) : s.work.collDone = s.collDone := rfl
@[simp] theorem State.work_fuseVersion (s : State) : s.work.fuseVersion = s.fuseVersion := rfl
@[simp] theorem State.work_stagedImage (s : State) : s.work.stagedImage = s.stagedImage := rfl
@[simp] theorem State.work_base (s : State) : s.work.base = s.mem := rfl
@[simp] theorem State.work_log (s : State) : s.work.log = [] := rfl

@[simp] theorem lift_power (f : Work → Work) (s : State) : (lift f s).power = (f s.work).power := rfl
@[simp] theorem lift_booted (f : Work → Work) (s : State) : (lift f s).booted = (f s.work).booted := rfl
@[simp] theorem lift_cycle (f : Work → Work) (s : State) : (lift f s).cycle = (f s.work).cycle := rfl
@[simp] theorem lift_ns (f : Work → Work) (s : State) : (lift f s).ns = (f s.work).ns := rfl
@[simp] theorem lift_nsRest (f : Work → Work) (s : State) : (lift f s).nsRest = (f s.work).nsRest := rfl
@[simp] theorem lift_mhz (f : Work → Work) (s : State) : (lift f s).mhz = (f s.work).mhz := rfl
@[simp] theorem lift_coolNs (f : Work → Work) (s : State) : (lift f s).coolNs = (f s.work).coolNs := rfl
@[simp] theorem lift_powerDue (f : Work → Work) (s : State) : (lift f s).powerDue = (f s.work).powerDue := rfl
@[simp] theorem lift_inputs (f : Work → Work) (s : State) : (lift f s).inputs = (f s.work).inputs := rfl
@[simp] theorem lift_pending (f : Work → Work) (s : State) : (lift f s).pending = (f s.work).pending := rfl
@[simp] theorem lift_postponed (f : Work → Work) (s : State) : (lift f s).postponed = (f s.work).postponed := rfl
@[simp] theorem lift_swept (f : Work → Work) (s : State) : (lift f s).swept = (f s.work).swept := rfl
@[simp] theorem lift_turn (f : Work → Work) (s : State) : (lift f s).turn = (f s.work).turn := rfl
@[simp] theorem lift_focus (f : Work → Work) (s : State) : (lift f s).focus = (f s.work).focus := rfl
@[simp] theorem lift_freeNext (f : Work → Work) (s : State) : (lift f s).freeNext = (f s.work).freeNext := rfl
@[simp] theorem lift_issueNo (f : Work → Work) (s : State) : (lift f s).issueNo = (f s.work).issueNo := rfl
@[simp] theorem lift_instNext (f : Work → Work) (s : State) : (lift f s).instNext = (f s.work).instNext := rfl
@[simp] theorem lift_markerNext (f : Work → Work) (s : State) : (lift f s).markerNext = (f s.work).markerNext := rfl
@[simp] theorem lift_readNext (f : Work → Work) (s : State) : (lift f s).readNext = (f s.work).readNext := rfl
@[simp] theorem lift_poison (f : Work → Work) (s : State) : (lift f s).poison = (f s.work).poison := rfl
@[simp] theorem lift_hostL2 (f : Work → Work) (s : State) : (lift f s).hostL2 = (f s.work).hostL2 := rfl
@[simp] theorem lift_l2 (f : Work → Work) (s : State) : (lift f s).l2 = (f s.work).l2 := rfl
@[simp] theorem lift_floors (f : Work → Work) (s : State) : (lift f s).floors = (f s.work).floors := rfl
@[simp] theorem lift_windows (f : Work → Work) (s : State) : (lift f s).windows = (f s.work).windows := rfl
@[simp] theorem lift_dieTlb (f : Work → Work) (s : State) : (lift f s).dieTlb = (f s.work).dieTlb := rfl
@[simp] theorem lift_cores (f : Work → Work) (s : State) : (lift f s).cores = (f s.work).cores := rfl
@[simp] theorem lift_sparesUsed (f : Work → Work) (s : State) : (lift f s).sparesUsed = (f s.work).sparesUsed := rfl
@[simp] theorem lift_parts (f : Work → Work) (s : State) : (lift f s).parts = (f s.work).parts := rfl
@[simp] theorem lift_insts (f : Work → Work) (s : State) : (lift f s).insts = (f s.work).insts := rfl
@[simp] theorem lift_handles (f : Work → Work) (s : State) : (lift f s).handles = (f s.work).handles := rfl
@[simp] theorem lift_flash (f : Work → Work) (s : State) : (lift f s).flash = (f s.work).flash := rfl
@[simp] theorem lift_channelFails (f : Work → Work) (s : State) : (lift f s).channelFails = (f s.work).channelFails := rfl
@[simp] theorem lift_stackHeld (f : Work → Work) (s : State) : (lift f s).stackHeld = (f s.work).stackHeld := rfl
@[simp] theorem lift_linksUp (f : Work → Work) (s : State) : (lift f s).linksUp = (f s.work).linksUp := rfl
@[simp] theorem lift_railsUp (f : Work → Work) (s : State) : (lift f s).railsUp = (f s.work).railsUp := rfl
@[simp] theorem lift_monitors (f : Work → Work) (s : State) : (lift f s).monitors = (f s.work).monitors := rfl
@[simp] theorem lift_msi (f : Work → Work) (s : State) : (lift f s).msi = (f s.work).msi := rfl
@[simp] theorem lift_health (f : Work → Work) (s : State) : (lift f s).health = (f s.work).health := rfl
@[simp] theorem lift_msgNext (f : Work → Work) (s : State) : (lift f s).msgNext = (f s.work).msgNext := rfl
@[simp] theorem lift_sent (f : Work → Work) (s : State) : (lift f s).sent = (f s.work).sent := rfl
@[simp] theorem lift_sentNext (f : Work → Work) (s : State) : (lift f s).sentNext = (f s.work).sentNext := rfl
@[simp] theorem lift_rx (f : Work → Work) (s : State) : (lift f s).rx = (f s.work).rx := rfl
@[simp] theorem lift_coll (f : Work → Work) (s : State) : (lift f s).coll = (f s.work).coll := rfl
@[simp] theorem lift_measures (f : Work → Work) (s : State) : (lift f s).measures = (f s.work).measures := rfl
@[simp] theorem lift_msix (f : Work → Work) (s : State) : (lift f s).msix = (f s.work).msix := rfl
@[simp] theorem lift_ide (f : Work → Work) (s : State) : (lift f s).ide = (f s.work).ide := rfl
@[simp] theorem lift_doe (f : Work → Work) (s : State) : (lift f s).doe = (f s.work).doe := rfl
@[simp] theorem lift_mctp (f : Work → Work) (s : State) : (lift f s).mctp = (f s.work).mctp := rfl
@[simp] theorem lift_sensors (f : Work → Work) (s : State) : (lift f s).sensors = (f s.work).sensors := rfl
@[simp] theorem lift_commands (f : Work → Work) (s : State) : (lift f s).commands = (f s.work).commands := rfl
@[simp] theorem lift_collSent (f : Work → Work) (s : State) : (lift f s).collSent = (f s.work).collSent := rfl
@[simp] theorem lift_collDone (f : Work → Work) (s : State) : (lift f s).collDone = (f s.work).collDone := rfl
@[simp] theorem lift_fuseVersion (f : Work → Work) (s : State) : (lift f s).fuseVersion = (f s.work).fuseVersion := rfl
@[simp] theorem lift_stagedImage (f : Work → Work) (s : State) : (lift f s).stagedImage = (f s.work).stagedImage := rfl
@[simp] theorem lift_mem (f : Work → Work) (s : State) : (lift f s).mem = applyLog s.mem (f s.work).log := rfl

/-- An effect that changes nothing leaves the state as it is. -/
@[simp] theorem lift_id (s : State) : lift (fun w => w) s = s := rfl

/-! ## What is read after an update -/

namespace Work

@[simp] theorem core_setCore (w : Work) (n m : Nat) (c : Core) : (w.setCore n c).core m = if m = n then c else w.core m := Tab.get_set ..

@[simp] theorem core_modCore_same (w : Work) (n : Nat) (f : Core → Core) : (w.modCore n f).core n = f (w.core n) := by
  simp [modCore]

theorem core_modCore_other (w : Work) {n m : Nat} (f : Core → Core) (h : m ≠ n) : (w.modCore n f).core m = w.core m := by
  simp [modCore, h]

@[simp] theorem ctx_modCtx_same (w : Work) (n i : Nat) (f : Ctx → Ctx) : (w.modCtx n i f).ctx n i = f (w.ctx n i) := by
  simp [modCtx, ctx]

theorem ctx_modCtx_other (w : Work) {n m i j : Nat} (f : Ctx → Ctx) (h : m ≠ n ∨ i % 4 ≠ j % 4) : (w.modCtx n i f).ctx m j = w.ctx m j := by
  by_cases hm : m = n
  · subst hm
    rcases h with h | h
    · exact absurd rfl h
    · simp only [modCtx, ctx, core_modCore_same]; exact nth_setNth_other _ _ h
  · simp only [modCtx, ctx, core_modCore_other _ _ hm]

@[simp] theorem me_modMe (w : Work) (f : Ctx → Ctx) : (w.modMe f).me = f w.me := ctx_modCtx_same ..

@[simp] theorem here_modHere (w : Work) (f : Core → Core) : (w.modHere f).here = f w.here := core_modCore_same ..

@[simp] theorem me_modFocus (w : Work) (f : Focus → Focus) (h : (f w.focus).core = w.focus.core) (h' : (f w.focus).ctx = w.focus.ctx) :
    (w.modFocus f).me = w.me := by
  simp only [me, modFocus, h, h', ctx, core]

@[simp] theorem part_modPart_same (w : Work) (p : Nat) (f : Partition → Partition) : (w.modPart p f).part p = f (w.part p) := by
  simp [modPart, part]

theorem part_modPart_other (w : Work) {p q : Nat} (f : Partition → Partition) (h : p % 4 ≠ q % 4) : (w.modPart p f).part q = w.part q := by
  simp only [modPart, part]; exact nth_setNth_other _ _ h

@[simp] theorem stack_modStack_same (w : Work) (j : Nat) (f : Stack → Stack) : (w.modStack j f).stack j = f (w.stack j) := by
  simp [modStack, stack]

end Work

/-! ## Memory's form -/

/-- The writes of a step keep the canonical form. -/
theorem applyLog_wf {m : Memory} (h : Memory.wf m = true) : ∀ cs : List Chunk, Memory.wf (applyLog m cs) = true
  | [] => h
  | c :: cs => Memory.put_wf (applyLog_wf h cs) c.key c.len c.data

theorem lift_wf {s : State} (f : Work → Work) (h : Memory.wf s.mem = true) : Memory.wf (lift f s).mem = true := applyLog_wf h _

/-- Every instruction answers a next state: an effect on the step's work. -/
theorem exec_lift (i : Instr) (s : State) : ∃ f : Work → Work, exec i s = .next (lift f s) := by
  cases i <;> exact ⟨_, rfl⟩

end Sys2Proof.Machine
end

