-- ==== Sys2Proof/Laws/Results.lean ====
section
/-! SUPPORT. What putting a result in flight does, once for every kind of result (03_core R55, R56). -/
namespace Sys2Proof.Machine
open Sys2Proof.Claim

/-- A result without flags: one record in flight, none where the register discards writes. -/
theorem put_eq (w : Work) (r : Res) (h : r.flags.getLsbD 0 = false) (hx : r.xtra = 0) :
    w.put r = if r.kept = .flagsOnly ∧ r.flags = 0 then w
      else w.modMe fun c => { c with inflight := c.inflight ++
        [⟨w.focus.issueAt + r.lat, w.focus.seqNo, w.focus.slot, r.kept, r.reg, r.flags, 0, r.value, r.interlocked⟩] } := by
  unfold Work.put
  simp only [h, hx, Bool.and_eq_true, decide_eq_true_eq, Bool.false_eq_true, if_false]

/-- The same of states: nothing, or one record more. -/
theorem lift_put (s : State) (r : Res) (h : r.flags.getLsbD 0 = false) (hx : r.xtra = 0) :
    lift (fun w => w.put r) s = if r.kept = .flagsOnly ∧ r.flags = 0 then s
      else addResult s ⟨s.focus.issueAt + r.lat, s.focus.seqNo, s.focus.slot, r.kept, r.reg, r.flags, 0, r.value, r.interlocked⟩ := by
  unfold lift
  dsimp only
  rw [put_eq s.work r h hx]
  split <;> rfl

/-- A scalar result of a value that the step's start gives. -/
theorem lift_putS (s : State) (d : BitVec 6) (v : Word) (lat : Nat) (fl : Flags) (h : fl.getLsbD 0 = false) :
    lift (fun w => w.putS d v lat fl) s = sResult s d v lat fl := by
  unfold Work.putS
  rw [lift_put s ⟨.sReg, d.toNat, v.setWidth 1024, lat, fl, 0, false⟩ h rfl]
  unfold sResult result
  have hk : d.toNat = 0 ↔ d = 0#6 := by simp [BitVec.toNat_eq]
  by_cases hd : d = 0#6 <;> simp [Res.kept, hd, hk]

/-- An address register result. -/
theorem lift_putA (s : State) (d : BitVec 4) (v : Word) (lat : Nat) : lift (fun w => w.putA d v lat) s = aResult s d v lat := by
  unfold Work.putA
  rw [lift_put s ⟨.aReg, d.toNat, v.setWidth 1024, lat, 0, 0, false⟩ (by simp) rfl]
  simp [aResult, result, Res.kept]

/-- A predicate result. -/
theorem lift_putP (s : State) (d : BitVec 4) (v : Bool) (lat : Nat) (fl : Flags) (h : fl.getLsbD 0 = false) :
    lift (fun w => w.putP d v lat fl) s = pResult s d v lat fl := by
  unfold Work.putP
  rw [lift_put s ⟨.pReg, d.toNat, if v then 1 else 0, lat, fl, 0, false⟩ h rfl]
  unfold pResult result
  have hk : d.toNat = 0 ↔ d = 0#4 := by simp [BitVec.toNat_eq]
  by_cases hd : d = 0#4 <;> simp [Res.kept, hd, hk]

/-- A vector result. -/
theorem lift_putV (s : State) (d : BitVec 5) (v : Line) (lat : Nat) (fl : Flags) (h : fl.getLsbD 0 = false) :
    lift (fun w => w.putV d v lat fl) s = vResult s d v lat fl := by
  unfold Work.putV
  rw [lift_put s ⟨.vReg, d.toNat, v, lat, fl, 0, false⟩ h rfl]
  simp [vResult, result, Res.kept]

/-- A mask result. -/
theorem lift_putQ (s : State) (d : BitVec 3) (v : BitVec 128) (lat : Nat) (fl : Flags) (h : fl.getLsbD 0 = false) :
    lift (fun w => w.putQ d v lat fl) s = qResult s d v lat fl := by
  unfold Work.putQ
  rw [lift_put s ⟨.qReg, d.toNat, v.setWidth 1024, lat, fl, 0, false⟩ h rfl]
  simp [qResult, result, Res.kept]

/-- Results of values read from the step's start: the form the meanings have. -/
theorem lift_putS_of (s : State) (f : Work → Word) (d : BitVec 6) (lat : Nat) :
    lift (fun w => w.putS d (f w) lat) s = sResult s d (f s.work) lat := lift_putS s d (f s.work) lat 0 (by decide)

theorem lift_putA_of (s : State) (f : Work → Word) (d : BitVec 4) (lat : Nat) :
    lift (fun w => w.putA d (f w) lat) s = aResult s d (f s.work) lat := lift_putA s d (f s.work) lat

theorem lift_putP_of (s : State) (f : Work → Bool) (d : BitVec 4) (lat : Nat) :
    lift (fun w => w.putP d (f w) lat) s = pResult s d (f s.work) lat := lift_putP s d (f s.work) lat 0 (by decide)

theorem lift_putV_of (s : State) (f : Work → Line) (d : BitVec 5) (lat : Nat) :
    lift (fun w => w.putV d (f w) lat) s = vResult s d (f s.work) lat := lift_putV s d (f s.work) lat 0 (by decide)

/-- A quotient or remainder: the result, and the divider busy. -/
theorem lift_putS_divider (s : State) (f : Work → Word) (d : BitVec 6) (lat : Nat) :
    lift (fun w => (w.putS d (f w) lat).useDivider) s = dividerBusy (sResult s d (f s.work) lat) := by
  rw [← lift_putS_of s f d lat]
  unfold dividerBusy
  have h := put_eq s.work ⟨.sReg, d.toNat, (f s.work).setWidth 1024, lat, 0, 0, false⟩ (by simp) rfl
  simp only [lift, Work.useDivider, Work.putS]
  rw [h]
  split <;> rfl

end Sys2Proof.Machine
end

