-- ==== Sys2Proof/Tests/Slice0.lean ====
section
/-! SUPPORT. Tests: ill-formed terms that the check refuses, words written out from the encodings of the spec, results worked out by hand from its
rules, and for each statement with hypotheses a state and operands that meet them (`witness_<statement>`; a clause each). -/
namespace Sys2Proof.Tests
set_option Elab.async false
open Sys2Proof Sys2Proof.Machine Sys2Proof.Claim

/-! ## A small state: one supervisor rill of partition 0 on core 0, the first 2 MiB of HBM mapped at address 0 on every die -/

def chip0 : Chip :=
  { Chip.reset with
    cycle := 1, instNext := 2, insts := [placedInst 1 0], dieTlb := .replicate 4 [⟨0, 0, 2 ^ 21, 0x3F⟩],
    parts := setNth Chip.reset.parts 0 { Partition.absent with owner := some 0, live := true, desc := 1 + 2 ^ 720 * 16, feat := 0x3F },
    cores := [(0, { Core.reset with
      tlb := [⟨0, 0, 2 ^ 21, 0x3F⟩],
      ctxs := setNth Core.reset.ctxs 0 { Ctx.reset with st := .ready, inst := 1, pc := 0x10004, kstat := 1, kframe := 0x20000, kclk := 1 } })],
    focus := { Focus.reset with super := true, issueAt := 1, seqNo := 1, slot := 1 } }

/-- The small state. -/
def base : State := { chip0 with mem := [] }
/-- It with another context at work. -/
def me (f : Ctx → Ctx) (s : State := base) : State := onMe s f
/-- It with another focus. -/
def foc (f : Focus → Focus) (s : State := base) : State := onFocus s f
/-- It with bytes in memory. -/
def having (k : Nat) (bs : List Byte) (s : State := base) : State := lift (fun w => w.write k bs) s
/-- It with values in s1, s2, ... and in a1, a2, ... -/
def regs (ss as_ : List Word) (s : State := base) : State :=
  me (fun c => { c with s := (ss.foldl (fun (x : Nat × Vector Word 64) v => (x.1 + 1, setNth x.2 x.1 v)) (1, c.s)).2,
                        a := (as_.foldl (fun (x : Nat × Vector Word 16) v => (x.1 + 1, setNth x.2 x.1 v)) (1, c.a)).2 }) s

/-- The state an instruction leaves. -/
def after (i : Instr) (s : State) : State := match exec i s with | .next t => t | _ => State.reset
/-- Does an outcome go on? -/
def goesOn (o : Host.Outcome State Fault Refusal) : Bool := match o with | .next _ => true | _ => false

/-- Did an access or an action answer? -/
def answers {ε α : Type} (x : Except ε α × Work) : Bool := match x.1 with | .ok _ => true | .error _ => false
/-- What it answered, if `P` holds of it. -/
def answersWith {ε α : Type} (x : Except ε α × Work) (P : α → Bool) : Bool := match x.1 with | .ok a => P a | .error _ => false
/-- What it failed with, if `P` holds of it. -/
def failsWith {ε α : Type} (x : Except ε α × Work) (P : ε → Bool) : Bool := match x.1 with | .ok _ => false | .error e => P e

/-- Where the tests say that an access answers, the hypothesis of a statement that it answers something is met. -/
theorem answers_spec {ε α : Type} (x : Except ε α × Work) (h : answers x = true) : ∃ r w, x = (.ok r, w) := by
  obtain ⟨_ | r, w⟩ := x
  · simp [answers] at h
  · exact ⟨r, w, rfl⟩

theorem answersWith_spec {ε α : Type} (x : Except ε α × Work) (P : α → Bool) (h : answersWith x P = true) : ∃ r w, x = (.ok r, w) ∧ P r = true := by
  obtain ⟨_ | r, w⟩ := x
  · simp [answersWith] at h
  · exact ⟨r, w, rfl, h⟩

theorem failsWith_spec {ε α : Type} (x : Except ε α × Work) (P : ε → Bool) (h : failsWith x P = true) : ∃ e w, x = (.error e, w) ∧ P e = true := by
  obtain ⟨e | _, w⟩ := x
  · exact ⟨e, w, rfl, h⟩
  · simp [failsWith] at h

theorem pair_spec {α β : Type} (x : α × β) : ∃ a b, x = (a, b) := ⟨_, _, rfl⟩

/-! ## Every encoded row of the table: a word laid out from its fields, and the instruction it stands for -/

def words_int20 : List (BitVec 32 × Instr) := [
  (0x4A891800#32, .abs 4 35), (0x00F55350#32, .add 58 42 53), (0x40A69DDE#32, .addI 19 19 (.short 478#10)),
  (0xCE106940#32, .adda 8 13 20), (0x4E0A2751#32, .addaI 5 4 (.short 849#10)), (0xC4590880#32, .and 44 33 8),
  (0x84692FE7#32, .andI 52 37 (.short 999#10)), (0xC5CBD9A0#32, .andn 37 59 26), (0xC5AECD23#32, .andnI 23 25 (.short 291#10)),
  (0x8DB6F890#32, .bfi 27 31 9), (0x0D6450F0#32, .bfx 50 10 15), (0xC83E2800#32, .clz 31 5),
  (0x08899800#32, .ctz 4 51), (0xC922A800#32, .popc 17 21), (0x012DCB20#32, .sub 22 57 50),
  (0x013BE5C7#32, .subI 29 60 (.short 455#10))]
theorem test_words_int20 : words_int20.all (fun e => decodeSlot .int2 e.1 none == some e.2) = true := by decide +kernel

def words_int21 : List (BitVec 32 × Instr) := [
  (0x818992E0#32, .mul 4 50 46), (0x01C854B0#32, .mulI 36 10 (.short 176#10)), (0x021EFBE1#32, .mulh 15 31 62 1),
  (0x824B545D#32, .mulhI 37 42 (.short 93#10)), (0xC2FB81C0#32, .mad 61 48 28), (0x429CB556#32, .madI 14 22 (.short 342#10)),
  (0x832B7BF0#32, .div 21 47 63 0), (0xC37D7EE6#32, .divI 62 47 (.short 742#10)), (0x03C72261#32, .rem 35 36 38 1),
  (0xC3EDD7C6#32, .remI 54 58 (.short 966#10)), (0xC4D22150#32, .or 41 4 21), (0x44C38EDA#32, .orI 33 49 (.short 730#10)),
  (0x052AF9D0#32, .xor 21 31 29), (0xC55CDD46#32, .xorI 46 27 (.short 326#10)), (0xC60B8A70#32, .shl 5 49 39),
  (0xC6059EB2#32, .shlI 2 51 690)]
theorem test_words_int21 : words_int21.all (fun e => decodeSlot .int2 e.1 none == some e.2) = true := by decide +kernel

def words_int22 : List (BitVec 32 × Instr) := [
  (0x069DE940#32, .shr 14 61 20), (0x86C26719#32, .shrI 33 12 793), (0xC73BEBE0#32, .sra 29 61 62),
  (0x87056C10#32, .sraI 2 45 16), (0x87979070#32, .rol 11 50 7), (0x4783547F#32, .rolI 1 42 127),
  (0x89FAC100#32, .min 61 24 16 0), (0x49C4A595#32, .minI 34 20 (.short 405#10)), (0xCA7A51B1#32, .max 61 10 27 1),
  (0x0A722708#32, .maxI 57 4 (.short 776#10)), (0x0B283860#32, .cmp 1 4 7 6 0), (0xCB701678#32, .cmpI 3 8 2 (.short 632#10)),
  (0x0B9810CE#32, .sel 12 2 12 14), (0x0BDB15B1#32, .selI 45 34 27 1), (0x4C0F9800#32, .mov 7 51),
  (0x0C94732B#32, .movi 10 0 (.short 29483#16))]
theorem test_words_int22 : words_int22.all (fun e => decodeSlot .int2 e.1 none == some e.2) = true := by decide +kernel

def words_int23 : List (BitVec 32 × Instr) := [
  (0x0E9EB800#32, .movaToA 15 23), (0x8E8E0801#32, .movaToS 7 1), (0x0F0258D1#32, .plog 1 11 13 1),
  (0xCFCEB40D#32, .sext 39 22 13), (0x10600000#32, .mstat 48), (0xD0170000#32, .mstatClr 11)]
theorem test_words_int23 : words_int23.all (fun e => decodeSlot .int2 e.1 none == some e.2) = true := by decide +kernel

def words_ctrl0 : List (BitVec 32 × Instr) := [
  (0x80D9E5AF#32, .br (.short 5891503#23)), (0xC101A000#32, .brx 52), (0x01DD809B#32, .call (.short 6127771#23)),
  (0x8201F000#32, .callx 62), (0x42800000#32, .ret), (0x0437E800#32, .loop 27 61),
  (0x848CE800#32, .loopm 6 29), (0x45400000#32, .lexit 4), (0x08000000#32, .endRill),
  (0x88800000#32, .yield), (0xC900DF1F#32, .barr 57119), (0x89D98000#32, .hwait 44 3),
  (0x8A2DC000#32, .vwait 5 46), (0x0AF16000#32, .mwait 14 11), (0x4C008E6C#32, .trapImm 36460),
  (0xCC800000#32, .rft)]
theorem test_words_ctrl0 : words_ctrl0.all (fun e => decodeSlot .ctrl e.1 none == some e.2) = true := by decide +kernel

def words_ctrl1 : List (BitVec 32 × Instr) := [
  (0xD02C0000#32, .fence 1 3), (0x502AE580#32, .fenceR 1 2 7 11), (0x90800099#32, .qfence 153),
  (0x14424800#32, .mfsr 33 9), (0xD4A47800#32, .mtsr 18 15), (0x15360000#32, .est 54),
  (0x55401CD8#32, .estI (.short 7384#16))]
theorem test_words_ctrl1 : words_ctrl1.all (fun e => decodeSlot .ctrl e.1 none == some e.2) = true := by decide +kernel

def words_int10 : List (BitVec 32 × Instr) := [
  (0xB83EDE19#32, .brS1 (.short 4120089#23)), (0xB881D000#32, .brxS1 58), (0x395AFE30#32, .callS1 (.short 5963312#23)),
  (0x39817800#32, .callxS1 47)]
theorem test_words_int10 : words_int10.all (fun e => decodeSlot .int1 e.1 none == some e.2) = true := by decide +kernel

def words_mem0 : List (BitVec 32 × Instr) := [
  (0x80C06B42#32, .ld 32 3 1 1 2 1 (.short 2#6)), (0xC13B3284#32, .st 29 9 2 1 1 (.short 4#6)), (0x01B72B8A#32, .vld 27 9 1 1 (.short 10#6)),
  (0x02355389#32, .vst 26 10 2 1 (.short 9#6)), (0x82F7D1B8#32, .vldx 29 15 8 3 1 1 4), (0x8310A7BE#32, .vstx 4 2 19 3 1 1 7),
  (0x83F04522#32, .lda 56 2 2 2 0 4 2), (0x44470292#32, .stl 35 8 1 1 2 2), (0x840B4D62#32, .stlR 5 10 10 2 4),
  (0x848FD99A#32, .atom 3 30 6 6 0 3 2), (0x0571EFC0#32, .upd 56 15 7 3), (0x45B1D600#32, .cmnt 1 2 3 43),
  (0x063E0E00#32, .alloc 31 7), (0x865FD200#32, .allocNf 47 13 1), (0xC680E600#32, .free 7 3)]
theorem test_words_mem0 : words_mem0.all (fun e => decodeSlot .mem e.1 none == some e.2) = true := by decide +kernel

def words_vec0 : List (BitVec 32 × Instr) := [
  (0xC0ED7691#32, .vadd 27 11 22 1 1 1), (0x81197398#32, .vsub 6 11 19 1 1 8), (0x81BF3592#32, .vmul 15 25 21 1 1 2),
  (0xC222D091#32, .vfma 8 22 16 1 1 1), (0x42872F88#32, .vmin 1 25 15 1 0 8), (0x035C5EBB#32, .vmax 23 2 30 1 3 11),
  (0x83C100E6#32, .vabs 16 8 1 6 6), (0x441660D3#32, .vneg 5 19 1 5 3), (0xC4A6F3B1#32, .vcmp 1 1 23 19 1 3 1),
  (0xC56FFDFB#32, .vsel 27 31 29 7 11), (0x45FBF792#32, .vand 30 31 23 1 1 2), (0xC66BC6F7#32, .vor 26 30 6 1 7 7),
  (0x06F92AC9#32, .vxor 30 9 10 1 4 9), (0xC70516B5#32, .vshl 1 8 22 1 3 5), (0xC7B371A1#32, .vshr 12 27 17 1 2 1),
  (0x0858A6BD#32, .vcvt 22 5 0 6 1 3 13)]
theorem test_words_vec0 : words_vec0.all (fun e => decodeSlot .vec e.1 none == some e.2) = true := by decide +kernel

def words_vec1 : List (BitVec 32 × Instr) := [
  (0x08A4833B#32, .vqnt 9 4 3 3 11), (0x890EA54B#32, .vdq 3 21 5 4 11), (0x49DD2329#32, .vfn 23 9 3 0 2 9),
  (0x8A2FA098#32, .vred 11 29 0 1 1 8), (0x8AC241D9#32, .vscan 16 18 1 1 5 9), (0x0B1D7FC3#32, .vperm 7 11 31 1 4 3),
  (0xCBB9FE00#32, .vbcst 14 63 3), (0xCBFA07A6#32, .vbcstI 30 3 (.short 422#9)), (0xCC3905E4#32, .vget 28 16 1 60 1),
  (0x4CA38C38#32, .vput 8 56 3 7), (0x0D1B75D5#32, .vdot 6 27 21 1 5 5), (0x0DEDFF3B#32, .vcmul 27 15 31 0 3 11),
  (0x4E73D000#32, .qlog 7 1 7 2), (0xD0000000#32, .xclr), (0x50E43C00#32, .xfma 50 7 1),
  (0x51780000#32, .xadd 60 0)]
theorem test_words_vec1 : words_vec1.all (fun e => decodeSlot .vec e.1 none == some e.2) = true := by decide +kernel

def words_vec2 : List (BitVec 32 × Instr) := [
  (0x11ABC400#32, .xrnd 21 7 1), (0xD2690000#32, .xsgn 13 2)]
theorem test_words_vec2 : words_vec2.all (fun e => decodeSlot .vec e.1 none == some e.2) = true := by decide +kernel

def words_mtx0 : List (BitVec 32 × Instr) := [
  (0x40C40000#32, .mmode 4 1), (0x010C0000#32, .mpush 6), (0x414A0000#32, .mpushV 5),
  (0x41E88D00#32, .mshift 1 1 4 0 141), (0x020524AE#32, .maccSet 0 658 10 14), (0x02128015#32, .maccAdd 0 320 1 5),
  (0xC2285667#32, .maccArmSet 43 6 7), (0x423814AB#32, .maccArmAdd 10 10 11), (0xC2400000#32, .maccOff),
  (0x42C44560#32, .mdrain 2 0 4 0 555), (0x03324400#32, .mzero 0 804 16), (0x03A3F459#32, .mxcpOut 2 3 977 25 none),
  (0x83CD4FD8#32, .mxcpIn 0 13 319 24 none)]
theorem test_words_mtx0 : words_mtx0.all (fun e => decodeSlot .mtx e.1 none == some e.2) = true := by decide +kernel

def words_scl0 : List (BitVec 32 × Instr) := [
  (0x40BE0000#32, .sclA 31), (0x40F4D000#32, .sclB 26 6 1), (0x01000093#32, .scliA 0 (.short 147#8)),
  (0x0141A024#32, .scliB 13 (.short 36#8))]
theorem test_words_scl0 : words_scl0.all (fun e => decodeSlot .scl e.1 none == some e.2) = true := by decide +kernel

def words_flow0 : List (BitVec 32 × Instr) := [
  (0x40EE8600#32, .gset 13 52 12), (0x012C8000#32, .gldd 5 9), (0x01B6E000#32, .gadv 6 55),
  (0x84376400#32, .cpy 3 7 25), (0x045EB800#32, .cpyNet 1 14 46), (0xC4A73600#32, .dftFwd 1 3 9 44),
  (0x84EB3C80#32, .dftInv 1 5 9 57), (0x881BB380#32, .hreq 13 54 28), (0xC8EE0000#32, .hrel 55),
  (0x0936F000#32, .hqry 27 30), (0x0C34C000#32, .route 6 38), (0x8CACE400#32, .rcnt 5 39 8),
  (0xD007F000#32, .pubOpen 7 15), (0x5040F800#32, .pubClose 15 2), (0x90804000#32, .settle 4),
  (0x10C02C00#32, .settlePub 2 3)]
theorem test_words_flow0 : words_flow0.all (fun e => decodeSlot .flow e.1 none == some e.2) = true := by decide +kernel

def words_flow1 : List (BitVec 32 × Instr) := [
  (0x1113E000#32, .pin 19 14), (0x918E2000#32, .unpin 14 2), (0x1432AA40#32, .spawn 1 37 5 18),
  (0x14810138#32, .enqC 8 39), (0x14BD7000#32, .enqR 14 11 8), (0x54C1A000#32, .enqX 13),
  (0x95006900#32, .depdec 105), (0x955D0000#32, .depdecS 29), (0x985A8000#32, .flget 22 10),
  (0x18948000#32, .flput 5 2), (0xD9008B00#32, .flwait 2 11), (0xD9812100#32, .fldrop 4 33),
  (0x1C1BE000#32, .coll 3 31), (0x9CA80000#32, .tstamp 20), (0x9D105000#32, .monArm 32 10),
  (0xDD284000#32, .monStop 16 8)]
theorem test_words_flow1 : words_flow1.all (fun e => decodeSlot .flow e.1 none == some e.2) = true := by decide +kernel

def words_flow2 : List (BitVec 32 × Instr) := [
  (0xDD556800#32, .monSnap 42 13)]
theorem test_words_flow2 : words_flow2.all (fun e => decodeSlot .flow e.1 none == some e.2) = true := by decide +kernel

def words_ix0 : List (BitVec 32 × Instr) := [
  (0x014E820B#32, .ixCpy 20 29 4), (0x0012140B#32, .ixHreq 1 4 8), (0x013EA08B#32, .ixHwait 19 29 1),
  (0x018C310B#32, .ixQfence 24 24 2), (0x0083882B#32, .ixFlget 8 7 16), (0x00419EAB#32, .ixFlput 4 3 29),
  (0x0147A62B#32, .ixFlwait 20 15 12), (0x012E342B#32, .ixFldrop 18 28 8)]
theorem test_words_ix0 : words_ix0.all (fun e => decodeHelper e.1 == e.2) = true := by decide +kernel

/-- R89: the imm32 of a long form stands in the next slot, whose U bit is IMM10[0]; a branch offset and an MXCP offset too. -/
theorem test_words_long : [
    (SlotClass.int2, 0x00810C00#32, 0xFFFFFFF0#32, Instr.addI 0 33 (.long false 0xFFFFFFF0#32)),
    (.int2, 0x03050C01#32, 0x80000000#32, .divI 2 33 (.long true 0x80000000#32)),
    (.ctrl, 0x00800000#32, 0x00000010#32, .br (.long 0x10#32)),
    (.mem, 0x008E4580#32, 0x00000100#32, .ld 7 2 0 2 3 0 (.long 0x100#32)),
    (.mtx, 0x03A30040#32, 0xFFFFFF80#32, .mxcpOut 2 3 1 0 (some 0xFFFFFF80#32))].all
    (fun e => decodeSlot e.1 e.2.1 (some e.2.2.1) == some e.2.2.2) = true := by decide +kernel

/-! ## Well-formed instructions: for each check a term that breaks it, and one that meets it -/

theorem test_ill_formed : [
    Instr.addI 1 2 (.long true 5), .addaI 1 2 (.long true 5), .cmp 1 2 3 4 1, .cmpI 0 2 3 (.long true 4), .sext 1 2 0, .sext 1 2 65, .lexit 6,
    .fence 3 0, .fence 0 6, .fenceR 0 7 1 2, .mfsr 1 11, .mfsr 1 16, .mtsr 1 63,
    .ld 1 2 3 0 0 0 (.short 0), .ld 1 2 0 3 0 0 (.short 0), .ld 1 2 1 0 0 0 (.long 0), .ld 1 2 0 0 3 1 (.short 0), .st 1 2 0 3 0 (.short 0),
    .vld 1 2 2 0 (.long 0), .vst 1 2 3 0 (.short 0), .vldx 1 2 3 0 3 0 0, .vstx 1 2 3 0 3 0 0,
    .lda 1 2 3 0 0 0 0, .lda 1 2 0 0 0 6 0, .lda 1 2 0 3 1 0 0, .stl 1 2 3 0 0 0, .stl 1 2 0 0 6 0, .stlR 1 2 0 0 0, .stlR 1 2 1 0 6,
    .atom 1 2 3 11 0 0 0, .atom 1 2 3 0 0 0 3, .atom 1 2 3 0 0 1 6, .upd 1 2 9 2, .upd 1 2 1 1, .upd 1 2 8 3, .cmnt 3 0 1 2, .cmnt 0 3 1 2,
    .vadd 1 2 3 0 0 10, .vadd 1 2 3 0 5 9, .vadd 1 2 3 0 1 4, .vmin 1 2 3 0 1 9, .vcmp 0 1 2 3 0 0 12, .vsel 1 2 3 0 14, .vand 1 2 3 0 0 15,
    .vshl 1 2 3 0 0 8, .vcvt 1 2 0 14 0 0 4, .vcvt 1 2 1 4 0 0 4, .vcvt 1 2 0 9 0 6 5, .vqnt 1 2 4 0 9, .vqnt 1 2 0 0 10, .vqnt 1 3 0 0 8,
    .vqnt 1 2 0 6 9, .vdq 1 2 6 0 9, .vdq 1 2 0 0 12, .vdq 3 2 0 0 8, .vfn 1 2 6 0 0 9, .vfn 1 2 0 0 0 10, .vfn 1 2 5 0 1 9,
    .vred 1 2 6 0 0 4, .vred 1 2 3 0 0 9, .vred 1 2 0 0 4 9, .vscan 1 2 0 0 1 4, .vperm 1 2 3 0 1 0, .vget 1 2 1 64 0,
    .vget 1 2 3 0 1, .vput 1 2 3 16, .vdot 1 2 3 0 0 6, .vcmul 1 2 3 0 0 8, .vcmul 1 2 3 0 4 9, .qlog 1 2 3 5, .qlog 1 2 3 4, .xrnd 1 5 0, .xsgn 3 3,
    .mmode 6 0, .mmode 0 3, .mmode 1 1, .mshift 0 0 1 0 0, .mshift 0 1 1 1 64, .maccSet 0 0 5 4, .maccAdd 1 64 0 0, .maccArmSet 1 2 1, .maccArmAdd 1 2 1,
    .mdrain 3 0 0 0 0, .mdrain 0 1 4 0 0, .mdrain 0 0 0 1 64, .mzero 1 64 0, .mxcpOut 3 0 0 0 none, .mxcpIn 3 0 0 0 none, .scliA 1 (.short 0),
    .scliA 4 (.long 0), .scliB 4 (.long 0), .hreq 1 3 2, .hreq 1 0 2, .hreq 1 62 2, .spawn 0 1 9 2, .spawn 0 1 0 2, .spawn 0 1 8 57].all
    (fun i => !i.wellFormed) = true := by decide +kernel

theorem test_well_formed : [
    Instr.addI 1 2 (.long false 5), .cmp 2 2 3 4 1, .cmpI 3 2 3 (.long true 4), .sext 1 2 1, .sext 1 2 64, .lexit 5, .fence 2 5, .fenceR 0 5 1 2,
    .mfsr 1 15, .mtsr 1 10, .ld 1 2 2 2 3 0 (.short 0), .ld 1 2 0 0 2 1 (.long 0), .stlR 1 2 1 0 5, .atom 1 2 3 10 0 0 2, .atom 1 2 3 0 0 1 5,
    .upd 1 2 0 0, .upd 1 2 8 2, .cmnt 2 2 1 2, .vadd 1 2 3 0 4 9, .vadd 1 2 3 1 7 4, .vsel 1 2 3 0 13, .vcvt 1 2 1 9 0 0 11, .vqnt 1 2 3 4 8,
    .vdq 2 2 5 0 10, .vfn 1 2 5 0 0 9, .vred 1 2 5 0 0 7, .vget 1 2 3 15 0, .vput 1 2 0 127, .vdot 1 2 3 0 0 9, .qlog 1 2 0 4, .xsgn 3 4, .mmode 5 2,
    .mshift 0 1 1 1 63, .maccSet 1 63 4 4, .mdrain 3 1 3 0 1023, .scliB 3 (.long 0), .hreq 1 60 2, .spawn 0 1 8 56].all Instr.wellFormed = true := by decide +kernel

/-! ## The encoder, and the integer slots -/

/-- O2 to O4: a well-formed instruction of each class with its words, a long form and one of the helper cores among them. -/
theorem witness_RoundTrip : [
    (Instr.endRill, SlotClass.ctrl, none), (.brS1 (.short 5), .int1, none), (.addI 1 2 (.long false 7), .int2, some 7#32),
    (.ld 1 2 0 0 3 0 (.short 1), .mem, none), (.vadd 1 2 3 0 0 4, .vec, none), (.mzero 0 5 1, .mtx, none), (.sclA 3, .scl, none),
    (.coll 1 2, .flow, none)].all (fun e => e.1.wellFormed &&
      match encode 2 e.1 with | some (.slot c _ x) => c == e.2.1 && x == e.2.2 | _ => false) = true ∧
    (match encode 0 (.ixCpy 1 2 3) with | some (.ix _) => true | _ => false) = true ∧ encode 0 .ecall = some (.ix 0x73) := by decide +kernel

/-- O5: with and without a replay. -/
theorem witness_OperandReads : base.focus.replay = none ∧ (foc fun f => { f with replay := some [5, 0] }).focus.replay = some [5, 0] := by decide +kernel

/-- R441, R71: 7 + 5 lands in s3; a result to s0 is dropped. -/
theorem test_add : ((after (.add 3 1 2) (regs [7, 5] [])).work.me.inflight.map fun f => (f.reg, f.value, f.land)) = [(3, 12, 2)] ∧
    (after (.add 0 1 2) (regs [7, 5] [])).work.me.inflight = [] := by decide +kernel

/-- R406: the table's rows. -/
theorem test_div : ((after (.div 3 1 2 0) (regs [-7, 2] [])).work.me.inflight.map fun f => f.value) = [0xFFFFFFFFFFFFFFFD] ∧
    ((after (.div 3 1 2 1) (regs [-7, 2] [])).work.me.inflight.map fun f => f.value) = [0x7FFFFFFFFFFFFFFC] := by decide +kernel

/-- O9, O10, O11, O12: operands where the clauses part: a zero divisor, the overflow of the signed quotient, plain values signed and U. -/
theorem witness_Divisions : sOp (regs [9, 0] []) 0 1 = 9 ∧ sOp (regs [9, 0] []) 1 2 = 0 ∧
    sOp (regs [0x8000000000000000, -1] []) 0 1 = 0x8000000000000000#64 ∧ sOp (regs [0x8000000000000000, -1] []) 1 2 = 0xFFFFFFFFFFFFFFFF#64 ∧
    sOp (regs [9, 2] []) 1 2 ≠ 0 ∧ XImm.isU (.short 9) = false ∧ XImm.isU (.long true 9) = true := by decide +kernel

/-! ## Results, branches, loops -/

/-- A context with these results in flight. -/
def flying (fs : List InFlight) : State := me fun c => { c with inflight := fs }
/-- A result of a kind to register 3, landing in cycle `t`. -/
def res (k : ResKind) (t : Nat) : InFlight := ⟨t, 1, 1, k, 3, 0, 0, 1, false⟩

/-- An ended rill's context that waits for its results; a bundle that has been resumed. -/
def ended (s : State) : State := me (fun c => { c with st := .blocked, block := none }) s
def resumed (s : State) : State := me (fun c => { c with resumed := true }) s

/-- O13: each kind of result, due in this cycle and not before the next; two results that land together, and one after the other; a resumed context;
an ended one whose result is due, is interlocked, is neither. -/
theorem witness_ResultLanding :
    [ResKind.sReg, .aReg, .pReg, .vReg, .qReg, .gReg, .gPos, .gBase, .xaccOp, .flagsOnly].all (fun k => [1, 2].all fun t =>
      (flying [res k t]).work.me.inflight == [res k t] && (flying [res k t]).work.me.st != .blocked &&
      !(flying [res k t]).work.me.resumed && (decide (t ≤ (flying [res k t]).cycle) == (t == 1))) = true ∧
    (let f := res .sReg 1; let g := { res .sReg 1 with slot := 2 }; let h := { res .sReg 0 with seqNo := 2 }
     [[f, g], [f, h]].all fun l => (flying l).work.me.inflight == l && l.all fun x => decide (x.land ≤ (flying l).cycle)) = true ∧
    (resumed base).work.me.resumed = true ∧
    [res .sReg 1, res .sReg 2, { res .sReg 2 with interlocked := true }].all (fun f => let c := (ended (flying [f])).work.me
      c.inflight == [f] && !c.resumed && c.st == .blocked && c.block.isNone && c.inst != 0) = true := by decide +kernel

/-- R60: of two results to s3 in one cycle the higher slot's stays. -/
theorem test_landing_order : nth (after .resultLand (flying [{ res .sReg 1 with value := 8 }, { res .sReg 1 with slot := 2, value := 9 }])).work.me.s 3 = 9 := by
  decide +kernel

/-- O14, O15: no branch before in the bundle, the address after the delay slots, and a taken branch before. -/
theorem witness_Branches : base.focus.branch = none ∧ (∃ l w, base.work.addrAfter base.work.me.pc 3 = (l, w)) ∧
    (foc fun f => { f with branch := some 0x100 }).focus.branch = some 0x100 := ⟨by decide +kernel, pair_spec _, by decide +kernel⟩

/-- R386: an offset of 4 from the code word at 0x10004 is 8 bytes on. -/
theorem test_branch : (after (.br (.short 4)) base).work.me.brTgt = 0x1000C ∧ (after (.br (.short 4)) base).work.me.dsRem = 2 := by decide +kernel

/-- O16: the end of a bundle with no branch pending, with two delay slots to go, with one. -/
theorem witness_DelaySlots : (let s := foc fun f => { f with nextAddr := some 0x10038 }
    let ok (s : State) : Bool := !s.focus.ending && s.focus.branch.isNone && s.focus.redirect.isNone && s.focus.trap.isNone &&
      s.focus.nextAddr == some 0x10038 && s.work.me.loop.levels == []
    ok s && !s.work.me.brPend && [2, 1].all fun n => let t := me (fun c => { c with brPend := true, dsRem := n, brTgt := 0x200 }) s
      ok t && t.work.me.brPend && t.work.me.dsRem == n) = true := by decide +kernel

/-- A loop descriptor of a body of two bundles and one level over both, with trip count `n` and kind bits `k` in byte 22. -/
def desc (n k : Nat) (modulo : Bool) : BitVec 1024 :=
  BitVec.ofNat 1024 (1 + 2 * 2 ^ 8 + (if modulo then 2 ^ 16 + 2 * 2 ^ 24 + 2 * 2 ^ 32 else 0) + n * 2 ^ 128 + 2 ^ 168 + k * 2 ^ 176)
/-- Core 0 with a dictionary that holds a loop descriptor. -/
def looping (d : BitVec 1024) : State :=
  lift (fun w => w.modCore 0 fun c => { c with dict := some ⟨0, 0x40, [], [some d]⟩ }) (regs [3] [])

/-- O17: a descriptor with a trip count, one with 0, one whose count is a register's, a modulo one. -/
theorem witness_LoopSetup : [(3, 0, false), (0, 0, false), (0, 1, false), (3, 0, true)].all (fun x => let d := desc x.1 x.2.1 x.2.2
    let w := (looping d).work.frameBusy
    w.1 == some false && w.2.loopDesc false 0 == some (some d) && descByte d 0 == 1 && descByte d 20 == 0 && descByte d 21 + 1 == descByte d 1 &&
    decide ((descByte d 2 % 2 == 1) = true → 1 ≤ descByte d 4) && ((descWord d 16).toNat == x.1)) = true := by decide +kernel

/-- The small state in a handler, whose loop table at 0x36000 has one descriptor. -/
def handling (d : BitVec 1024) : State :=
  having 0x20007 [0x80] (having 0x36000 (lineBytes d) (lift (fun w => w.modPart 0 fun p => { p with desc := p.desc ||| BitVec.ofNat 4096 ((0x36000 + 1) * 2 ^ 3648) }) base))
/-- A body of two bundles, both levels over the whole of it. -/
def desc3 (n0 n1 : Nat) : BitVec 1024 := BitVec.ofNat 1024 (2 + 2 * 2 ^ 8 + n0 * 2 ^ 128 + 2 ^ 168 + n1 * 2 ^ 256 + 2 ^ 296)

/-- O17: a descriptor in the dictionary, none, in a handler's table, with an error there, and past it; a body whose first bundle has an address. -/
theorem witness_LoopSetup_tables : (looping (desc 3 0 false)).work.loopDesc false 0 = some (some (desc 3 0 false)) ∧ base.work.here.dict = none ∧
    (let s := handling (desc 3 0 false)
     let w := s.work.frameBusy.2
     s.work.frameBusy.1 = some true ∧ (w.part w.myPart).hlcnt = 1 ∧ 128 * (w.part w.myPart).hltab = 0x36000 ∧ w.loopDesc true 0 = some (some (desc 3 0 false)) ∧
       (∀ c ∈ w.cores, c.2.upd = []) ∧ w.badUnit 0x36000 128 = none ∧
       (({ s with poison := [0x36000 / 8] } : State).work.badUnit 0x36000 128) = some (0x36000 / 8)) ∧
    (let d := desc3 3 0
     [descByte d 0, descByte d 36, descByte d 37, descByte d 21, (descWord d 16).toNat, (descWord d 32).toNat]) = [2, 0, 1, 1, 3, 0] ∧
    ∃ a w, (looping (desc 3 0 false)).work.addrAfter 0x10004 1 = (a, w) := ⟨by decide +kernel, by decide +kernel, by decide +kernel, by decide +kernel, pair_spec _⟩

/-- R66: LOOP with a trip count of 3 stands at its first pass with three to go. -/
theorem test_loop : ((after (.loop 0 1) (looping (desc 3 0 false))).work.me.loop.levels.map fun x => (x.left, x.pass, x.last)) = [(3, 0, 1)] := by decide +kernel

/-- A level over one bundle with `n` passes left, at its end. -/
def atEnd (n : Nat) : State := me fun c => { c with loop := ⟨0x10004, 0, 1,
  [⟨2, n, 0, 0, false, false, 0, 0, 3, 0, 4, 0, 0, 0⟩], [(0, ⟨0x10004, 0, false, some 0x10036⟩)]⟩ }

/-- O18, O19: with passes left and at the last one; the address after the body. -/
theorem witness_LoopIteration : [2, 1].all (fun n => let q := (atEnd n).work.me.loop
    (match q.levels with | [x] => q.offset == x.last && decide (x.first ≤ x.last) && x.amt1 == 0 && x.amt0 != 0 && x.left == n &&
        (q.replay.find? (fun e => e.1 == x.first)).isSome | _ => false) &&
    decide (0 < q.bodyLen) && (q.replay.find? (fun e => e.1 == q.bodyLen)).isNone && (q.replay.find? (fun e => e.1 + 1 == q.bodyLen)).isSome) = true ∧
    ∃ a w, (atEnd 2).work.loopAddr (atEnd 2).work.me.loop (atEnd 2).work.me.loop.bodyLen = (a, w) := ⟨by decide +kernel, pair_spec _⟩

/-- A loop descriptor of a body of three bundles, an outer level over all and an inner one over the first two, with trip counts. -/
def desc2 (n0 n1 : Nat) : BitVec 1024 := BitVec.ofNat 1024 (2 + 3 * 2 ^ 8 + n0 * 2 ^ 128 + 2 * 2 ^ 168 + n1 * 2 ^ 256 + 2 ^ 296)

/-- O17: two levels that both have iterations, and an inner one without. -/
theorem witness_LoopSetup_nested : [(3, 2), (3, 0)].all (fun x => let d := desc2 x.1 x.2
    let w := (looping d).work.frameBusy
    w.1 == some false && w.2.loopDesc false 0 == some (some d) && descByte d 0 == 2 && descByte d 20 == 0 && descByte d 21 + 1 == descByte d 1 &&
    descByte d 2 == 0 && descByte d 22 == 0 && descByte d 38 == 0 && descByte d 36 == 0 && decide (descByte d 37 < descByte d 21) &&
    (descWord d 16).toNat == x.1 && (descWord d 32).toNat == x.2) = true := by decide +kernel

/-- R66: an idle run: the next bundle of a LOOP whose body is skipped, of one entered, and behind a skipped inner level. -/
theorem test_loop_skip : ([desc 0 0 false, desc 2 0 false, desc2 2 0, desc3 2 0].map fun d =>
      let s := having 0x10000 (leBytes 64 (2 ^ 30 + 1 + 0x1007 * 2 ^ 32)) (looping d)
      let t := after (.loop 0 0) s
      (t.focus.redirect, t.work.me.loop.levels.length, t.work.me.loop.offset)) =
    [(some (withRun 0x10004 3), 0, 0), (some (withRun 0x10004 1), 1, 0), (some (withRun 0x10004 3), 2, 2), (some (withRun 0x10004 3), 0, 0)] := by decide +kernel

/-- Two levels over three bundles, the inner from `f` to `e` with `n` passes left and the outer with two, at the inner one's end. -/
def nested (n f e : Nat) : State := me fun c => { c with loop := ⟨0x10004, e, 3,
  [⟨2, 2, 0, 2, false, false, 0, 0, 3, 0, 4, 0, 0, 0⟩, ⟨2, n, f, e, false, false, 0, 0, 3, 5, 4, 8, 0, 0⟩],
  (List.range 3).map fun k => (k, ⟨0x10004 + BitVec.ofNat 64 (50 * k), 0, false, some (0x10036 + BitVec.ofNat 64 (50 * k))⟩)⟩ }

/-- O18, O19: the inner level with a pass left, at its last pass before the outer one's end and with it. -/
theorem witness_LoopIteration_nested : [(2, 1, 1, 1), (1, 1, 1, 2), (1, 1, 2, 0)].all (fun x => let q := (nested x.1 x.2.1 x.2.2.1).work.me.loop
    (match q.levels with
      | [x', y] => q.offset == y.last && decide (x'.first ≤ y.first) && decide (y.first ≤ y.last) && decide (y.last ≤ x'.last) && y.left == x.1 &&
          decide (1 < x'.left) && decide (x'.first < y.first)
      | _ => false) && (q.replay.find? fun e => e.1 == x.2.2.2).isSome) = true := by decide +kernel

/-- Three levels over three bundles, with passes left and ranges, at an offset. -/
def nest3 (o : Nat) (ls : List (Nat × Nat × Nat)) : State := me fun c => { c with loop := ⟨0x10004, o, 3,
  ls.map fun x => ⟨2, x.1, x.2.1, x.2.2, false, false, 0, 0, 3, 5, 4, 8, 0, 0⟩,
  (List.range 3).map fun k => (k, ⟨0x10004 + BitVec.ofNat 64 (50 * k), 0, false, some (0x10036 + BitVec.ofNat 64 (50 * k))⟩)⟩ }

/-- O18: three levels: the middle one goes on behind the innermost, back at its own first offset, and all end; an inner level that is entered, one without
iterations, one at the offset where its outer one begins again. -/
theorem witness_LoopIteration_any :
    [(1, [(2, 0, 2), (2, 0, 2), (1, 1, 1)], 1, 2, true), (2, [(2, 0, 2), (2, 0, 2), (1, 1, 2)], 1, 0, true), (2, [(1, 0, 2), (1, 0, 2), (1, 2, 2)], 0, 9, true)].all
      (fun x => let q := (nest3 x.1 x.2.1).work.me.loop
        let z := q.levels.getD x.2.2.1 ⟨0, 0, 0, 0, false, false, 0, 0, 0, 0, 0, 0, 0, 0⟩
        q.offset == x.1 && (q.levels.take (x.2.2.1 + 1)).all (fun k => decide (k.first ≤ q.offset) && decide (q.offset ≤ k.last)) &&
          (q.levels.drop (x.2.2.1 + 1)).all (fun k => decide (k.first ≤ q.offset) && k.last == q.offset && decide (k.left ≤ 1)) &&
          (if x.2.2.2.1 = 9 then z.last == q.offset && decide (z.left ≤ 1) && (q.replay.find? fun e => e.1 + 1 == 3).isSome && (q.replay.find? fun e => e.1 == 3).isNone
           else (decide (q.offset < z.last) || decide (1 < z.left)) && (q.replay.find? fun e => e.1 == x.2.2.2.1).isSome)) = true ∧
    ((nest3 0 [(2, 0, 2), (1, 1, 1)]).work.me.loop.levels.map fun y => (y.first, y.last, y.modulo, decide (0 < y.total))) =
      [(0, 2, false, true), (1, 1, false, true)] ∧ (nest3 0 [(2, 0, 2), (1, 1, 1)]).work.me.loop.offset + 1 = 1 ∧
    ((nest3 2 [(2, 0, 2), (1, 0, 2)]).work.me.loop.levels.map fun y => (y.first, y.last, y.left)) = [(0, 2, 2), (0, 2, 1)] := by decide +kernel

/-- R66: three levels that end together leave the body; the increments of all are in flight. -/
theorem test_loop_end : (let r := (nest3 2 [(1, 0, 2), (1, 0, 2), (1, 2, 2)]).work.loopNext
    (r.1, r.2.me.loop.levels.length, r.2.me.inflight.length)) = (0x1009A, 0, 6) ∧
    (let r := (nest3 2 [(2, 0, 2), (1, 0, 2)]).work.loopNext
     (r.1, r.2.me.loop.levels.map (·.left), r.2.me.inflight.length)) = (0x10004, [1, 2], 4) := by decide +kernel

/-- O19: LEXIT of an inner level whose enclosing one goes on and one that ends there; the bundle behind it in the replay buffer, or behind one that is there. -/
theorem witness_LoopExit : (let q := (nest3 1 [(2, 0, 2), (2, 0, 1), (1, 1, 1)]).work.me.loop
     (match q.levels with | [x, y, z] => decide (x.first ≤ y.first) && decide (y.last < x.last) && decide (y.first ≤ z.first) && decide (z.last ≤ y.last) | _ => false) &&
       (q.replay.find? fun e => e.1 == 2).isSome && (q.replay.find? fun e => e.1 == 1).isSome) = true ∧
    (let q := (nest3 1 [(2, 0, 2), (2, 1, 2)]).work.me.loop
     (match q.levels with | [x, y] => decide (x.first < y.first) && y.last == x.last && decide (1 < x.left) | _ => false)) = true ∧
    (∃ a w, base.work.loopAddr base.work.me.loop 2 = (a, w)) ∧
    (foc fun f => { f with redirect := some 5 }).focus.redirect = some 5 ∧ base.focus.ending = false ∧ base.focus.trap = none ∧ base.work.me.brPend = false :=
  ⟨by decide +kernel, by decide +kernel, pair_spec _, by decide +kernel, by decide +kernel, by decide +kernel, by decide +kernel⟩

/-- R69: LEXIT of the middle level of three goes on behind it. -/
theorem test_lexit : (let t := after (.lexit 1) (nest3 1 [(2, 0, 2), (2, 0, 1), (1, 1, 1)])
    (t.focus.redirect, t.work.me.loop.offset, t.work.me.loop.levels.map (·.left), t.work.me.inflight.length)) = (some 0x10068, 2, [2, 0, 0], 0) := by decide +kernel

/-- O20: an idle run of two, at its first bundle and at its last, whose packet can be fetched. -/
theorem witness_IdleRuns : runPos (0x10004#64) < (1#8).toNat ∧ (1#8).toNat ≤ runPos (withRun 0x10004 1) ∧
    answers ((me fun c => { c with pc := withRun 0x10004 1 }).work.fetchPacket (packetOf (withRun 0x10004 1))) = true := by decide +kernel
/-! ## System registers, waits, fences, ends -/

/-- The small state in user mode. -/
def user : State := me (fun c => { c with kstat := 0 }) (foc fun f => { f with super := false })
/-- It with an instance changed. -/
def inst (f : Inst → Inst) (s : State := base) : State := lift (fun w => w.modInst 1 f) s
/-- It with a handle record. -/
def hand (n : Nat) (r : HandleRec) (s : State := base) : State := lift (fun w => w.setHandle n r) s
/-- It with entries on a queue of core 0. -/
def queued (q : Nat) (es : List Entry) (s : State := base) : State := lift (fun w => w.modCore 0 fun c => { c with queues := setNth c.queues q es }) s
/-- It with its array changed, or its partition. -/
def arr (f : Arr → Arr) (s : State := base) : State := lift (fun w => w.modArr 0 f) s
def parted (f : Partition → Partition) (s : State := base) : State := lift (fun w => w.modPart 0 f) s
/-- It with its rill the owner of the array, in mode 1. -/
def owning : State := arr (fun a => { a with mode := 1 }) (inst fun i => { i with owners := [some 0] })
/-- A marker on behalf of nobody. -/
def entry (k : EntryKind) : Entry := ⟨k, 0, .nobody, false, none, 0, .none, [], none⟩

/-- O21, O22: both modes, with an instance, and KFEAT words at both ends. -/
theorem witness_SystemReads : user.focus.super = false ∧ base.focus.super = true ∧ base.focus.replay = none ∧ base.work.myInst?.isSome = true ∧
    12 ≤ (12#6).toNat ∧ (15#6).toNat < 16 ∧ (sOp (regs [4] []) 0 1).toNat % 8 < 5 := by decide +kernel

/-- R76: MFSR of KSTAT lands in 2 cycles. -/
theorem test_mfsr : ((after (.mfsr 3 0) base).work.me.inflight.map fun f => (f.value, f.land)) = [(1, 3)] := by decide +kernel

/-- O23: a write of each system register, due. -/
theorem witness_SystemWriteLanding : [0, 1, 2, 3, 4, 6, 8, 9].all (fun n => let f := { res .sysReg 1 with reg := n }
    let c := (flying [f]).work.me
    let d := (ended (flying [f])).work.me
    c.inflight == [f] && !c.resumed && c.st != .blocked && f.flags == 0 && decide (f.land ≤ (flying [f]).cycle) &&
    (resumed (flying [f])).work.me.resumed && d.inflight == [f] && !d.resumed && d.st == .blocked && d.block.isNone && d.inst != 0) = true := by
  decide +kernel

/-- R445, R77: KSTAT keeps MODE, takes CHK, clears the flags written 1. -/
theorem test_kstat : (after .resultLand (me (fun c => { c with inflight := [{ res .sysReg 1 with reg := 0, value := 0x0102 }], kstat := 0x0301 }) base)).work.me.kstat = 0x0203 := by
  decide +kernel

/-- Two rills, of which the first is at work. -/
def two : State := inst fun i => { i with rills := [⟨0, 0, false, 0, false⟩, ⟨0, 1, false, 0, false⟩] }

/-- O24: a barrier that is dead; an episode of this BARR that has completed, and one of another mask; a mask without the rill, one that names no rill;
a barrier that waits for the other rill. -/
theorem witness_Barriers : (let c := me (fun c => { c with barrGo := [⟨0x10004, 3, 5⟩] }) two
      c.work.myInst?.isSome && !c.work.me.barrDead && c.work.me.barrPass? 3 == some ⟨0x10004, 3, 5⟩ && (c.work.me.barrPass? 1).isNone) = true ∧
    (let c := me (fun c => { c with barrDead := true }) two
     c.work.myInst?.isSome && c.work.me.barrDead) = true ∧
    two.work.me.barrPass? 3 = none ∧ two.work.me.rill = 0 ∧ (2#16).getLsbD 0 = false ∧ (5#16).getLsbD 0 = true ∧ (5#16).getLsbD 2 = true ∧
    (two.work.myInst?.map fun i => i.rills.length) = some 2 ∧
    (let w := (two.work.release.joinEpisode 1 3 0).block (.barrier 3)
     (w.inst? 1).any (fun j => j.episodes.all fun e => !j.episodeDone e) && !w.barrierDead 1) = true := by decide +kernel

/-- R40: the rill whose barrier waits is blocked. -/
theorem test_barr : (after (.barr 3) two).work.me.st = .blocked ∧ (after (.barr 3) two).work.me.block = some (.barrier 3) := by decide +kernel

/-- Rill `n` of two waiting at a barrier. -/
def atBarrier (n : Nat) (m : BitVec 16) (s : State := two) : State := lift (fun w => w.modCtx 0 n fun c => { c with st := .blocked, block := some (.barrier m) }) s
/-- The instance with an episode open. -/
def open_ (m : BitVec 16) (joined : List Nat) (s : State := two) : State := inst (fun i => { i with episodes := [⟨m, joined, 0⟩] }) s

/-- O24: what joining the last rill leaves, where it completes the episode and where nothing can complete; an episode that both have joined; one whose other
rill has ended, with nothing to write back; every rill waiting. -/
theorem witness_Barriers_complete :
    (let go (s : State) : Work := (((s.work.release.joinEpisode 1 3 0).block (.barrier 3)).completeEpisodes 1).raiseDead 1
     ((go (atBarrier 1 3 (open_ 3 [1]))).me.barrPass? 3).isSome && ((go (atBarrier 1 7)).me.barrPass? 3).isNone && (go (atBarrier 1 7)).me.barrDead) = true ∧
    ((open_ 3 [0, 1]).work.inst? 1).any (fun i => i.episodes.length == 1 && i.episodes.all i.episodeDone) = true ∧
    ((inst (fun i => { i with rills := [⟨0, 0, false, 0, false⟩, ⟨0, 1, true, 5, false⟩] }) (open_ 3 [0])).work.inst? 1).any
      (fun i => i.episodes.all i.episodeDone) = true ∧ (two.work.core 0).l1 = [] ∧ (two.work.core 0).upd = [] ∧
    (atBarrier 0 3 (atBarrier 1 2)).work.barrierDead 1 = true ∧ two.work.barrierDead 1 = false := by decide +kernel

/-- A handle record in a state, requested for both planes. -/
def rec_ (st : BitVec 3) (req arrived : BitVec 2) : HandleRec := { HandleRec.empty with state := st, req := req, arrived := arrived }

/-- O25: a handle of the partition and one that is not; each check of HWAIT in turn. -/
theorem witness_HandleWaits : (base.work.part base.work.myPart).ownsHandle 20 = false ∧ (base.work.part base.work.myPart).ownsHandle 3 = true ∧
    base.work.me.hres = none ∧ [0, 5].all (fun x => (me fun c => { c with hres := some (x, 7) }).work.me.hres == some (x, 7)) = true ∧
    (let ok (r : HandleRec) (m : BitVec 2) : Bool := let x := (hand 3 r).work.handle 3
       x.req == r.req && x.state == r.state && (m &&& ~~~x.req == 0)
     !ok (rec_ 1 1 0) 2 && ok (rec_ 1 3 0) 2 && ok (rec_ 3 3 3) 0 && ok (rec_ 4 3 1) 2 && ok (rec_ 1 3 1) 1) = true ∧
    (base.work.handle 3).state = 0 ∧ 1#2 &&& (rec_ 1 3 1).arrived = 1 ∧ ¬(2#2 &&& (rec_ 4 3 1).arrived = 2) := by decide +kernel

/-- O26: an aligned word that can be read, equal to the awaited-against value and not; a misaligned one; a context that was woken. -/
theorem witness_MemoryWaits : (aOp (regs [] [0x30001]) 0 1).toNat % 8 ≠ 0 ∧
    answersWith (place (regs [] [0x30000]).work.issuer true .global 0x30000 .read (regs [] [0x30000]).work)
      (fun p => match p with | .phys _ mt _ => decide (mt.toNat < 2) | _ => false) = true ∧
    (me fun c => { c with woken := some 3 }).work.me.woken = some 3 ∧ base.work.me.woken = none ∧
    answersWith (homeLoad .global 0x30000 8 base.work) (fun x => wordOf x.1 == 0) = true ∧ sOp (regs [7] []) 1 1 ≠ 0 ∧ sOp base 1 1 = 0 := by
  decide +kernel

/-- R448: MWAIT on a word that holds the value it waits against blocks. -/
theorem test_mwait : (after (.mwait 1 0) (regs [] [0x30000])).work.me.block = some (.memWord 0x30000 0 false) ∧
    (after (.mwait 1 1) (regs [7] [0x30000])).work.me.block = none := by decide +kernel

theorem lift_core (f : Work → Work) (s : State) (n : Nat) : (lift f s).work.core n = (f s.work).core n := rfl

/-- O27, O52, O55: some number of entries fills a queue; an empty queue is not full. -/
theorem witness_full_queue (q : Nat) : (∃ es, (queued q es).work.queueFull 0 q = true) ∧ ∀ k, base.work.queueFull 0 k = false := by
  refine ⟨⟨List.replicate (Config.queueExtra + 1) (entry (.marker 0 1)), ?_⟩, fun k => ?_⟩
  · simp [Work.queueFull, queued, lift_core, List.replicate_succ]
  · have h : (base.work.core 0).queues = Vector.replicate 8 [] := by decide +kernel
    simp [Work.queueFull, h, nth, Vector.get]

/-- O28: scopes 0 and 5, lengths at both sides of 2^32. -/
theorem witness_Fences : (5#3) ≠ 0 ∧ (sOp (regs [0, 0xFFFFFFFF] []) 1 2).toNat < 2 ^ 32 ∧ 2 ^ 32 ≤ (sOp (regs [0, 0x100000000] []) 1 2).toNat := by decide +kernel

/-- R203: a release raises KCLK by one; at rill scope it does nothing. -/
theorem test_fence : (after (.fence 1 5) base).work.me.kclk = 2 ∧ (after (.fence 1 0) base).work.me.kclk = 1 := by decide +kernel

/-- O29: an instance with no open episode whose rills wait at no barrier. -/
theorem witness_EndsAndSwitches : (base.work.myInst?.any fun i => i.episodes == [] &&
    i.rills.all fun r => match (base.work.ctx r.core r.ctx).block with | some (.barrier _) => false | _ => true) = true := by decide +kernel

/-- O29: the other rill waits at a barrier that names both, in a core whose L1 is empty. -/
theorem witness_EndsAndSwitches_episode : (let s := atBarrier 1 3 (open_ 3 [1])
    (s.work.myInst?.any fun i => (i.episodes.map fun e => e.joined) == [[1]] && i.rills.map (fun x => (x.core, x.ctx, x.ended)) == [(0, 0, false), (0, 1, false)]) &&
      s.focus.core == 0 && s.focus.ctx == 0 && s.work.here.l1 == [] && s.work.here.upd == [] && (s.work.ctx 0 1).st == .blocked) = true := by decide +kernel

/-- R28: with context 2 ready too, YIELD in context 0 hands over to it. -/
theorem test_yield : (after .yield (lift (fun w => w.modCtx 0 2 fun c => { c with st := .ready }) base)).work.here.switching = some 2 := by decide +kernel
/-! ## Traps -/

/-- A trap at the small state's bundle: TRAP's cause, no operands. -/
def site : Site := ⟨{ code := 0x21, info := 7 }, 1, 0x10004, 0, 0, []⟩
/-- The small state with its frame at `f`, its vectors at `v` and one more translation. -/
def framed (f v : Word) (e : TlbEntry) : State :=
  lift (fun w => w.modCore 0 fun c => { c with tlb := e :: c.tlb }) (me fun c => { c with kframe := f, kvec := v })
/-- A page that can be read, not written; a range of 1 KiB; an uncached page. -/
def readOnly : TlbEntry := ⟨0, 0x400000, 2 ^ 21, 0x400037⟩
def short : TlbEntry := ⟨0, 0x600000, 0x400, 0x60003F⟩
def uncached : TlbEntry := ⟨0, 2 ^ 21, 2 ^ 21, 0x20007F⟩
/-- The frame's two parts as entry writes them, from a state whose BUSY word has been read. -/
def writeHead (s : State) : Except Bad Unit × Work :=
  let w := s.work.frameBusy.2.countTrap 0x21
  writeFrame { w.issuer with super := true } w.me.frameBase (frameHead w.me w.focus.super site 0 w.ns) w
def writeTail (s : State) (w : Work) : Except Bad Unit × Work :=
  writeFrame { s.work.issuer with super := true } (s.work.me.frameBase + 0x400#64) (frameTail [] 1) w

/-- O30: in an END bundle; while other slots are still to complete, with nothing noted, with a lower slot and with a higher; else; a bundle that has completed,
of a rill without an instance. -/
theorem witness_TrapInstruction : (foc fun f => { f with ending := true }).focus.ending = true ∧ base.focus.ending = false ∧ base.focus.bundle = false ∧
    [none, some 0, some 9].all (fun n => let s := foc fun f => { f with bundle := true, slot := 5, trap := n.map fun k => ⟨k, 0x21, 0, 0, 0, 0, 0, none, []⟩ }
      s.focus.bundle && s.focus.trap.map (·.slot) == n) = true ∧
    (let s := me (fun c => { c with inst := 9 }) (foc fun f => { f with
        branch := some 0x200, nextAddr := some 0x10038, trap := some ⟨1, 0x21, 0, 0, 0, 0, 0, none, []⟩ })
     s.work.me.inst == 9 && !s.focus.ending && s.focus.branch.isSome && s.focus.redirect.isNone && s.focus.trap.isSome && s.focus.nextAddr.isSome &&
       s.work.me.loop.levels == [] && s.work.me.barrGo == [] && (s.work.inst? 9).isNone) = true := by decide +kernel

/-- O31: BUSY 1; a frame that cannot be read, one that cannot be written, one whose second part cannot be. -/
theorem witness_TrapEntry : (having 0x20007 [0x80]).work.frameBusy.1 = some true ∧ (framed 0x800000 0 readOnly).work.frameBusy.1 = none ∧
    (framed 0x400000 0 readOnly).work.frameBusy.1 = some false ∧ failsWith (writeHead (framed 0x400000 0 readOnly)) (fun _ => true) = true ∧
    (framed 0x600000 0 short).work.frameBusy.1 = some false ∧
    (match writeHead (framed 0x600000 0 short) with
      | (.ok _, w) => failsWith (writeTail (framed 0x600000 0 short) w) (fun _ => true)
      | _ => false) = true := by decide +kernel

/-- O31: the whole frame written, and a vector that can be read and one that cannot. -/
theorem witness_TrapEntry_vector : (match writeHead (framed 0x200000 0 uncached) with
    | (.ok _, w) => match writeTail (framed 0x200000 0 uncached) w with
      | (.ok _, w) => [0, 0x800000].map fun v : Word => answers (readSync { w.issuer with super := true } false .global (v + BitVec.ofNat 64 (8 * 0x21)) 8 w)
      | _ => []
    | _ => []) = [true, false] := by decide +kernel

/-- O32: each kind of result at its largest register, the largest cause, slot and counts. -/
theorem witness_FrameLayout : [(ResKind.sReg, 63), (.aReg, 15), (.pReg, 15), (.vReg, 31), (.qReg, 7), (.gReg, 15), (.gPos, 15), (.sysReg, 15),
    (.xaccOp, 255), (.flagsOnly, 0), (.gBase, 15)].all (fun x => kindOf x.1.code x.2 == some x.1) = true ∧
    96 ≤ 96 ∧ (⟨{ code := 0x3F, sub := 255 }, 15, 0, 0, 0, [1, 2, 3, 4]⟩ : Site).ops.length ≤ 4 := by decide +kernel

/-- O32: a sequencer that is idle, and one with two levels within the record's ranges. -/
theorem witness_FrameLayout_levels : Ctx.reset.loop.levels = [] ∧ (let q := (nested 2 1 1).work.me.loop
    q.levels.length == 2 && decide (q.offset < 256) && q.levels.all fun x => decide (x.left < 2 ^ 32) && decide (x.first < 256) && decide (x.last < 256) &&
      decide (x.stages < 256) && decide (x.ii < 256) && decide (x.ldi < 256) && decide (x.pass < 2 ^ 32)) = true := by decide +kernel

/-- R286, R287: BUSY, PMODE, SLOT and CODE of a frame's cause word, and its PC. -/
theorem test_frame : (let f : FrameImage := ⟨frameHead Ctx.reset true site 0 0, []⟩
    (f.cause, f.word 8, f.word 0x28)) = (0xC000000000100021#64, 0x10004#64, 7#64) := by decide +kernel

/-- A frame that RFT accepts, with a RESUME. -/
def frame (resume : Nat) : List Byte := leBytes 8 (causeWord true true resume false 0 0 0 1 0x21).toNat

/-- O33: user mode; a frame that cannot be read; one that breaks the rules and ones that keep them, with each RESUME. -/
theorem witness_TrapReturn : user.focus.super = false ∧ base.focus.super = true ∧ failsWith (readFrame (framed 0x800000 0 readOnly).work) (fun _ => true) = true ∧
    (⟨[], []⟩ : FrameImage).bad = true ∧
    [0, 1, 2].all (fun r => let f : FrameImage := ⟨frame r, []⟩
      !f.bad && f.resume == r && f.code != 0x30 && isClassS f.code && !f.brPend) = true := by decide +kernel

/-- A frame taken in user mode for a BUDGET event, with one level of a trip count kept. -/
def budgetFrame : FrameImage :=
  ⟨leBytes 8 (causeWord true false 0 false 0 0 0 15 0x30).toNat ++ List.replicate 0x278 0 ++ leBytes 16 (3 + 2 ^ 40 + 2 ^ 48) ++ List.replicate 0x58 0 ++ [1, 0], []⟩

/-- O33: a frame with a level whose descriptor is there, is in no table, and is there with an error; a BUDGET event of which this rill's return is the last, and not. -/
theorem witness_TrapReturn_levels : budgetFrame.bad = false ∧ budgetFrame.nlev = 1 ∧ budgetFrame.code = 0x30 ∧ budgetFrame.lev 0 10 = 0 ∧
    (looping (desc 3 0 false)).work.loopDesc false 0 = some (some (desc 3 0 false)) ∧ base.work.loopDesc false 0 = none ∧
    [[false], [true]].all (fun more => let s := inst (fun i => { i with
          budgetSent := true, counter := 0, rills := [⟨0, 0, false, 0, true⟩] ++ more.map fun b => ⟨0, 1, false, 0, b⟩ }) base
      (s.work.inst? s.work.me.inst).any fun i => i.st == .running && i.budgetSent && i.counter == 0) = true ∧ isClassS 0x30 = false ∧
    base.work.me.trapMicro = none := by decide +kernel

/-- R294, R290: the trip count of a plain level that no entry kept is its descriptor's. -/
theorem test_restoreLevel : (let x := restoreLevel (looping (desc 3 0 false)).work budgetFrame 0
    (x.total, x.left, x.first, x.last, x.amt0)) = (3, 3, 0, 1, 0) := by decide +kernel

/-- O33: a slot of RFT's bundle that has trapped, while a handler runs and the bundle moves on. -/
theorem witness_TrapReturn_nested : (let s := having 0x20007 [0x80] (foc fun f => { f with trap := some ⟨3, 0x10, 0, 0, 0, 0, 0, none, []⟩ })
    s.focus.trap.isSome && !s.focus.ending && s.focus.redirect.isNone && (s.work.awaitInterlocked fun _ => true).frameBusy.1 == some true && s.focus.super) = true := by
  decide +kernel

/-- O33: such a frame in memory; its BUSY word can be written. -/
theorem witness_TrapReturn_frame : answersWith (readFrame { framed 0x200000 0 uncached with mem := [(0x200000, 0x21), (0x200002, 0x10), (0x200007, 0xE0)] }.work)
    (fun f => !f.bad) = true := by decide +kernel
theorem witness_TrapReturn_busy : answers (writeSync { base.work.issuer with super := true } false .global base.work.me.frameBase (leBytes 8 0) base.work) = true := by
  decide +kernel

/-! ## Steps, fetch, slots -/

/-- O34: a step that is pending; a running helper core at its turn; no power. -/
theorem witness_StepPerformsPending : { base with pending := [⟨0, 0, .healthCopy 0⟩] }.pending = [⟨0, 0, .healthCopy 0⟩] ∧
    (let s := lift (fun w => w.modHelper 0 false fun h => { h with st := .running, inst := 1 }) { base with turn := [.intake 0] }
     s.pending == [] && s.power && s.turn == [.intake 0] && (s.work.helper 0 false).st == .running &&
       s.work.noneHeld && (s.work.inst? 1).any fun i => i.st == .running) = true ∧
    { base with stackHeld := .replicate 8 (some 5) }.work.noneHeld = false ∧
    ({ base with power := false } : State).pending = [] ∧ ({ base with power := false } : State).inputs = [] := by decide +kernel

/-- The small state while stack `n` holds its traffic. -/
def holds (n : Nat) (s : State := base) : State := { s with stackHeld := setNth s.stackHeld n (some 200000) }

/-- What a step that stands first reads or writes past L2 at a stack whose traffic is held. -/
def heldBy (i : Instr) (s : State) : Bool × Bool :=
  match exec i (lift (fun w => w.aim 0 0) s) with | .next t => (t.focus.heldRead, t.focus.heldWrite) | _ => (false, false)

/-- O34: traffic held; a step that reaches the stack, by a read, and one that does not. -/
theorem witness_StepPerformsPending_held : (holds 0 (regs [] [0x30000])).work.noneHeld = false ∧
    heldBy (.ld 3 1 0 2 3 0 (.short 0)) (holds 0 (regs [] [0x30000])) = (true, false) ∧ heldBy .budgetTrap (holds 0) = (false, false) := by decide +kernel

/-- The small state with a packet at 0x10000, the program counter at a halfword of it. -/
def packet (p : Nat) (half : Nat) : State := having 0x10000 (leBytes 64 p) (me fun c => { c with pc := BitVec.ofNat 64 (0x10000 + 2 * half) })
/-- One literal bundle, one dictionary index, an idle run of two, a literal that passes the packet's end. -/
def literal : Nat := 2 ^ 30 + 1 + 0xFFFF * 2 ^ 32 + 0x0C942000 * 2 ^ 144
def index : Nat := 2 ^ 30 + 1
def idles : Nat := 2 ^ 30 + 1 + 0x1001 * 2 ^ 32
def broken : Nat := 2 ^ 30 + 2 ^ 18 + 0xFFFF * 2 ^ 320

/-- O35: each kind of code word, a place where none starts, a malformed packet. -/
theorem witness_FetchReadsCodeWords : [(literal, 2, true, 0), (index, 2, true, 1), (idles, 2, true, 2), (literal, 3, false, 0)].all (fun x =>
      let pc := (packet x.1 x.2.1).work.me.pc
      !pc.getLsbD 0 && decide (2 ≤ halfOf pc) && runPos pc == 0 && answersWith ((packet x.1 x.2.1).work.fetchPacket (packetOf pc)) fun p =>
        !packetMalformed p && packetStart p (halfOf pc) == x.2.2.1 && (!x.2.2.1 || match codeWordAt p (halfOf pc) with
          | .literal _ => x.2.2.2 == 0 | .dictionary j => x.2.2.2 == 1 && j == 0 | .idle n => x.2.2.2 == 2 && n == 1 | _ => false)) = true ∧
    answersWith ((packet broken 20).work.fetchPacket 0x10000) packetMalformed = true ∧
    (∃ a w, (packet literal 2).work.successor 0x10000 0 2 = (a, w)) ∧
    (let w := (lift (fun w => w.modCore 0 fun c => { c with dict := some ⟨0, 0x40, [.ok 0], []⟩ }) (packet index 2)).work
     w.here.dict.any fun d => d.bundles[0]? == some (.ok 0)) = true := ⟨by decide +kernel, by decide +kernel, pair_spec _, by decide +kernel⟩

/-- A reserved code word; a literal whose packet goes on in the next. -/
def reservedCode : Nat := 2 ^ 30 + 1 + 0x1100 * 2 ^ 32
def goingOn : Nat := 1 + 0xFFFF * 2 ^ 32

/-- O35: an index past the image's count, entries that could not be loaded, a reserved code word, a run position on a literal, halfwords of a header. -/
theorem witness_FetchReadsCodeWords_bad :
    [([] : List DictEntry), [.bad 0], [.bad 5]].all (fun es =>
      let w := (lift (fun w => w.modCore 0 fun c => { c with dict := some ⟨0, 0x40, es, []⟩ }) (packet index 2)).work
      w.here.dict.any (fun d => d.bundles == es) && answersWith (w.fetchPacket 0x10000) fun p => !packetMalformed p && packetStart p 2 &&
        codeWordAt p 2 == .dictionary 0) = true ∧
    answersWith ((packet reservedCode 2).work.fetchPacket 0x10000) (fun p => !packetMalformed p && packetStart p 2 && codeWordAt p 2 == .reservedWord) = true ∧
    runPos (withRun 0x10004 1) ≠ 0 ∧ halfOf (withRun 0x10004 1) = 2 ∧ halfOf 0x10002 < 2 ∧ (0x10005#64).getLsbD 0 = true ∧ runPos 0x10005 = 0 := by decide +kernel

/-- O35: code words with a next one in the packet, and without: at an END, before a packet that is well formed, that is not, that cannot be read. -/
theorem witness_FetchReadsCodeWords_next : (packetNext (BitVec.ofNat 512 (2 ^ 30 + 3)) 2).isSome = true ∧
    [literal, goingOn].map (fun p => let p := BitVec.ofNat 512 p; ((packetNext p 2).isNone, packetEnd p, packetStart p 2)) =
      [(true, true, true), (true, false, true)] ∧
    [(0x10000#64, literal), (0x10000, 0), (0x1FFFC0, 0)].map (fun x => let s := having 0x10040 (leBytes 64 x.2)
      match (s.work.fetchPacket (x.1 + 64#64)).1 with | .ok q => if packetMalformed q then 1 else 0 | .error _ => 2) = [0, 1, 2] := by decide +kernel

/-- R84, R82: the bundle of a literal code word has its word in slot s1; the second bundle of an idle run is at position 1. -/
theorem test_fetch : answersWith ((packet literal 2).work.fetchAt 0x10004 true) (fun f => field f.bundle 96 32 == 0x0C942000#32) = true ∧
    answersWith ((packet idles 2).work.fetchAt 0x10004 true) (fun f => f.isIdle && f.next == some (withRun 0x10004 1)) = true := by decide +kernel

/-- O36: a bundle whose slot 1 is guarded by the bundle's predicate, slot 2 by none, and slot 4 surrendered to slot 3. -/
theorem witness_SlotsAreDecoded : (let b : Bundle := BitVec.ofNat 384 (2 ^ 8 + (2 ^ 30) * 2 ^ 96 + 0x0C942000 * 2 ^ 128)
    (base.work.slotViews b).any (fun v => v.n == 1 && field v.word 30 2 == 1#2) && (base.work.slotViews b).any (fun v => v.n == 2 && field v.word 30 2 == 0#2) &&
      (base.work.slotViews b).all (fun v => v.n != 4) && hdrSurr b 4 && hdrMode b == 0#2 && base.work.me.loop.levels == []) = true := by decide +kernel

/-- O36: a guard of each of the header's predicates; a first or last mode with a level; a stage in a modulo level, of which the pass is one and not. -/
theorem witness_SlotsAreDecoded_held : (let view (s : State) (hdr w : Nat) : List Bool :=
      (s.work.slotViews (BitVec.ofNat 384 (hdr + w * 2 ^ 96))).filterMap fun v => if v.n = 1 then some v.held else none
    let kernel (p : Nat) : State := me fun c => { c with p := 2, loop := ⟨0x10004, 0, 1, [⟨2, 2, 0, 0, true, false, 2, 1, 0, 0, 0, 0, 0, p⟩], []⟩ }
    [view base 0 (2 ^ 30), view base (2 ^ 19) (2 ^ 30), view base (2 ^ 24) (2 ^ 31), view (kernel 0) (2 ^ 24) (2 ^ 31), view (kernel 0) (2 ^ 24 + 2 ^ 27) (2 ^ 31),
      view (kernel 0) (2 ^ 14) 0, view (kernel 0) (2 ^ 15) 0, view (kernel 0) (2 ^ 31) 0, view (kernel 1) (2 ^ 31) 0, view (kernel 2) 0 0]) =
    [[true], [false], [false], [true], [false], [false], [false], [false], [true], [false]] := by decide +kernel

/-- A bundle with words in slots, and other header bits. -/
def bundle (hdr : Nat) (ws : List (Nat × Nat)) : Bundle := BitVec.ofNat 384 (hdr + (ws.map fun x => x.2 * 2 ^ (64 + 32 * x.1)).sum)
/-- What the issue checks say of it. -/
def checks (s : State) (b : Bundle) : Option (Nat × Nat) := (s.work.issueCheck b (s.work.slotViews b)).map fun t => (t.slot, t.trap.code)

/-- O36, R61: each check in turn, none before it failing. A header with a reserved bit, a stage without a loop; a reserved guard, a reserved opcode, a
feature the partition lacks, MMODE outside an owner, XFMA in both vector slots, KRND with a reserved mode, VWAIT on a register of 16, an odd pair in
mode 1, LOOP with no table and with a bad descriptor. -/
theorem witness_SlotsAreDecoded_checks :
    [checks base (bundle (2 ^ 49) []), checks base (bundle (2 ^ 29) []), checks base (bundle 0 [(1, 3 * 2 ^ 30)]), checks base (bundle 0 [(9, 0x3F800000)]),
      checks (parted fun p => { p with feat := 0 }) (bundle 0 [(9, 0x04E2C480)]),
      checks (inst fun i => { i with owners := [none] }) (bundle 0 [(7, 0x00C40000)]),
      checks base (bundle 0 [(5, 0x10E43C00), (6, 0x10E43C00)]), checks (regs [7] []) (bundle 0 [(0, 0x14824000)]),
      checks (regs [16] []) (bundle 0 [(0, 0x0A082000)]), checks owning (bundle 0 [(7, 0x014A0000)]), checks base (bundle 0 [(0, 0x04000800)]),
      checks (looping 0) (bundle 0 [(0, 0x04000800)])] =
    [some (15, 1), some (15, 1), some (1, 2), some (9, 2), some (9, 2), some (7, 2), some (6, 2), some (0, 2), some (0, 2), some (7, 2), some (0, 2),
      some (0, 2)] := by decide +kernel

/-- O36, R61: a LOOP in a delay slot; a branch in a loop, LEXIT of no level; a source that is pending, a guard that is; a result that clashes with one in
flight, and one with a lower slot's; two branches; a bundle of which no check says anything, and one whose checks are off. -/
theorem witness_SlotsAreDecoded_later :
    (let add (d : Nat) : Nat := 0x00800000 + d * 2 ^ 17 + 2 ^ 11 + 2 * 16
     let chk (s : State) : State := foc (fun f => { f with chk := true }) s
     let fly (f : InFlight) : State := chk (flying [f])
     [checks (me fun c => { c with brPend := true }) (bundle 0 [(0, 0x05400000)]), checks (atEnd 2) (bundle 0 [(0, 0x00D9E5AF)]),
       checks base (bundle 0 [(0, 0x05400000)]), checks (fly { res .sReg 5 with reg := 1 }) (bundle 0 [(1, add 4)]),
       checks (fly { res .pReg 5 with reg := 1 }) (bundle (9 * 2 ^ 19) [(1, 2 ^ 30 + add 4)]), checks (fly { res .sReg 2 with reg := 4 }) (bundle 0 [(1, add 4)]),
       checks (chk base) (bundle 0 [(1, add 4), (2, add 4)]), checks (chk base) (bundle 0 [(0, 0x00D9E5AF), (1, 0x70 * 2 ^ 23)]),
       checks (chk base) (bundle 0 [(1, add 4)]), checks base (bundle 0 [(0, 0x00D9E5AF), (1, 0x70 * 2 ^ 23)])]) =
    [some (0, 3), some (0, 4), some (0, 4), some (1, 5), some (1, 5), some (1, 6), some (2, 6), some (0, 7), none, none] := by decide +kernel

/-- O15: no branch yet in the bundle, a rill that is not blocked with nothing in flight; a bundle with a branch in each slot, unchecked and checked, of which
no earlier check says anything. -/
theorem witness_SecondBranch : base.focus.branch = none ∧ base.work.me.resumed = false ∧ base.work.me.st ≠ .blocked ∧ base.work.me.inflight = [] ∧
    [false, true].all (fun k => let w := (foc fun f => { f with chk := k }).work
      let b := bundle 0 [(0, 0x00D9E5AF), (1, 0x70 * 2 ^ 23)]
      let vs := w.slotViews b
      w.focus.chk == k && !w.illBundle b && !w.me.brPend &&
      (vs.filter fun v => match v.instr with | some (.br _) => v.n == 0 | some (.brS1 _) => v.n == 1 | _ => false).length == 2 &&
      vs.all fun v => !w.slotIll vs v && v.instr.all fun i => !w.loopSeqBad i && (w.stallShort b v i).isNone &&
        (w.wrClash ((vs.filter fun u => decide (u.n < v.n)).filterMap (·.instr)) i).isNone) = true := by decide +kernel

/-- O36: a fetch that fails and ones that answer, without and with a stall; no poisoned descriptor, and one. -/
theorem witness_SlotsAreDecoded_prepare :
    (let go (s : State) : Option (Except Nat Nat) := match s.work.fetchHere with
       | (.ok f, v) => if v.focus.heldRead || v.me.micro == some .skip then none else some (.ok (field f.bundle 0 4).toNat)
       | (.error e, v) => if v.focus.heldRead then none else some (.error e.code)
     [go (me fun c => { c with pc := 0x10005 }), go (packet literal 2), go (packet (literal + 3 * 2 ^ 48) 2)]) =
    [some (.error 0x0A), some (.ok 0), some (.ok 3)] ∧
    (let vs (s : State) : Bool := s.work.poisonedLoop (s.work.slotViews (bundle 0 [(0, 0x04000800)]))
     (vs base, vs (lift (fun w => w.modCore 0 fun c => { c with dict := some ⟨0, 0x40, [], [none]⟩ }) base))) = (false, true) := by decide +kernel

/-- The small state at its turn, before its bundle issues, with a packet at the program counter. -/
def ready (p : Nat) : State := { packet p 2 with turn := [.core 0], cycle := 1, pending := [], focus := .reset }

/-- O37: a bundle of one instruction, which issues. -/
theorem witness_StepRunsDecoded : (let s := inst (fun i => { i with owners := [none] }) (ready literal)
    let c := s.work.core 0
    let x := s.work.ctx 0 0
    s.work.noneHeld && s.pending == [] && s.power && s.turn == [.core 0] && c.switching.isNone && decide (c.stallUntil ≤ s.cycle) && x.st == .ready && decide (x.readyAt < s.cycle) &&
      decide (x.notBefore ≤ s.cycle) && !x.resumed && x.held == [] && x.micro.isNone &&
      match (lift (fun w => w.aim 0 c.cur) { s with turn := [] }).ask Work.prepare with
      | (.bundle b idle vs, s1) => match inOrder vs with
        | [(v, i)] => !idle && !mayBlock i && v.n != 0 && !s1.work.ownsHere && i == .movi 10 0 (.short 0x2000) &&
            match exec i (lift (fun w => (w.beginIssue false).modFocus fun g => { g with hdr := field b 0 64, slot := v.n, slotWord := v.word }) s1) with
            | .next _ => true
            | _ => false
        | _ => false
      | _ => false) = true := by decide +kernel

/-- O37: a core whose context is not ready, or blocked in the cycle before, while another is ready. -/
theorem witness_StepRunsDecoded_leaves : [false, true].all (fun back =>
      let s : State := { lift (fun w => (w.modCtx 0 2 fun c => { c with st := .ready }).modCtx 0 0 fun c =>
        { c with st := if back then .ready else .blocked, blockedAt := 0 }) base with turn := [.core 0], pending := [] }
      let x := s.work.ctx 0 0
      s.power && (s.work.core 0).switching.isNone && decide ((s.work.core 0).stallUntil ≤ s.cycle) && s.work.nextCtx 0 == some 2 &&
        (s.work.core 0).cur == 0 && (x.st != .ready || x.blockedAt + 1 == s.cycle)) = true := by decide +kernel

/-- O37: a bundle whose load would reach a stack that holds its traffic, fetched from another. -/
theorem witness_StepRunsDecoded_held :
    (let s := holds 1 (regs [] [0x31000] (ready (2 ^ 30 + 1 + 0xFFFF * 2 ^ 32 + 0x00862580 * 2 ^ 208)))
     match (lift (fun w => w.aim 0 0) { s with turn := [] }).ask Work.prepare with
     | (.bundle b idle vs, s1) => match runBundle b idle vs s1 with
       | .next t => ((inOrder vs).map fun x => x.2, t.focus.heldRead || t.focus.heldWrite)
       | _ => ([], false)
     | _ => ([], false)) = ([.ld 3 1 0 2 3 0 (.short 0)], true) := by decide +kernel

/-- R54, R94: a step at the turn of a core issues that bundle: s10 is in flight, and the place after the packet is next. -/
theorem test_step : (match step (ready literal) with
    | .next t => (t.work.ctx 0 0).inflight.map fun f => (f.kind, f.reg, f.value)
    | _ => []) = [(ResKind.sReg, 10, 0x2000)] := by decide +kernel
/-! ## Vectors -/

/-- The small state with vectors in v1, v2. -/
def vecs (a b : Line) : State := me fun c => { c with v := setNth (setNth c.v 1 a) 2 b }
/-- The results in flight. -/
def got (i : Instr) (s : State) : List (Nat × Line × BitVec 8) := (after i s).work.me.inflight.map fun f => (f.reg, f.value, f.flags)

/-- R467, R108: bytes wrap on their own; under a mask with only byte 0 the others keep v3's zeros. -/
theorem test_vadd : (got (.vadd 3 1 2 0 0 0) (vecs 0x01FF 0x0101)).map (fun x => field x.2.1 0 24) = [0x0200] ∧
    (got (.vadd 3 1 2 1 4 0) (me (fun c => { c with q := setNth c.q 4 1 }) (vecs 0x0102 0x0101))).map (fun x => field x.2.1 0 24) = [0x0003] := by decide +kernel

/-- R467, R117: in f32, 1 + 1 is 2; 2^24 + 1 rounds to 2^24 and sets NX. -/
theorem test_vadd_float : (got (.vadd 3 1 2 0 0 9) (vecs 0x3F800000 0x3F800000)).map (fun x => (field x.2.1 0 32, x.2.2)) = [(0x40000000, 0)] ∧
    (got (.vadd 3 1 2 0 0 9) (vecs 0x4B800000 0x3F800000)).map (fun x => (field x.2.1 0 32, x.2.2)) = [(0x4B800000, 0x40)] := by decide +kernel

/-- R468: a compare of bytes, below, gives the mask of those that are. -/
theorem test_vcmp : (got (.vcmp 2 3 1 2 0 0 0) (vecs 0x05 0x0A)).map (fun x => field x.2.1 0 8) = [1] := by decide +kernel

/-- R470: 1.5 as f32 to a signed 32-bit integer, to nearest even, is 2 and inexact. -/
theorem test_vcvt : (got (.vcvt 3 1 0 4 0 0 9) (vecs 0x3FC00000 0)).map (fun x => field x.2.1 0 32) = [2] := by decide +kernel

/-- O38 to O41: types at both ends of their ranges, a mode that does not draw, element numbers at their ends. -/
theorem witness_lanes : (0#4).toNat < 8 ∧ (7#4).toNat < 8 ∧ 8 ≤ (8#4).toNat ∧ (13#4).toNat ≤ 13 ∧ base.work.rmV 0 0 ≠ 4 ∧ base.work.rmCode 0 ≠ 4 ∧
    (0#7).toNat < 128 / 2 ^ (0#2).toNat ∧ (15#7).toNat < 128 / 2 ^ (3#2).toNat ∧ cvtRounds 4 5 = false ∧ (5#3).toNat < 6 ∧ (4#3).toNat < 5 ∧ (3#3).toNat < 4 := by
  decide +kernel

/-- O42: finite operands and NaN ones; each class that X can have; a register to read to. -/
theorem witness_ExactAccumulator : (match fp64.value 0x3FF8000000000000 with | .fin n p i => (n, p, i) == (false, 0x18000000000000, -52) | _ => false) = true ∧
    (∃ g, fp64.value 0x7FF8000000000000 = .nan g) ∧ Ctx.reset.xclass = 0 ∧
    [0, 1, 2, 3].all (fun x : BitVec 2 => (me fun c => { c with xclass := x }).work.me.xclass == x) = true ∧ (3#6) ≠ 0 ∧ base.work.rmCode 0 ≠ 4 :=
  ⟨by decide +kernel, ⟨false, by decide +kernel⟩, by decide +kernel, by decide +kernel, by decide, by decide +kernel⟩

/-- R127: 1.5 · 2 is added to X with weight 2^2148 for 1. -/
theorem test_xfma : ((Ctx.reset.xaccLand 1 0x3FF8000000000000 0x4000000000000000).1.xacc == 3#4352 <<< 2148) = true := by decide +kernel

/-- O42: infinite operands of each sign, a zero, signalling and quiet NaNs; operations in flight, one and two, due together and one after the other. -/
theorem witness_ExactAccumulator_classes :
    (match fp64.value 0x7FF0000000000000, fp64.value 0xFFF0000000000000 with | .inf m, .inf n => (m, n) == (false, true) | _, _ => false) = true ∧
    (match fp64.value 0 with | .fin _ p _ => p == 0 | _ => false) = true ∧ (fp64.value 0x7FF8000000000000).isNan = true ∧
    (fp64.value 0x7FF8000000000000).isSnan = false ∧ (fp64.value 0x7FF0000000000001).isSnan = true ∧
    [(1, 1, 2), (0, 1, 1)].all (fun x => let f := { res .xaccOp x.1 with slot := 5 }; let g := { res .xaccOp x.2.1 with slot := 4 + x.2.2 }
      [[f], [f, g], [g, f]].all (fun l => let c := (flying l).work.me
        c.inflight == l && !c.resumed && c.st != .blocked && l.all fun h => decide (h.land ≤ (flying l).cycle) && h.flags == 0) &&
      (decide (f.land < g.land) || f.land == g.land && f.seqNo == g.seqNo && decide (f.slot < g.slot))) = true := by decide +kernel

/-- R127, R480: infinity times zero makes the class NaN and sets NV; as it lands, an XFMA of 1.5 and 2 changes X. -/
theorem test_xacc : ((Ctx.reset.xaccLand 1 0x7FF0000000000000 0).1.xclass, (Ctx.reset.xaccLand 1 0x7FF0000000000000 0).2) = (3, 0x04) ∧
    (after .resultLand (flying [{ res .xaccOp 1 with xtra := 1, value := 0x4000000000000000 * 2 ^ 64 + 0x3FF8000000000000 }])).work.me.xacc == 3#4352 <<< 2148 := by
  decide +kernel

/-! ## Memory -/

/-- O44, O45: a canonical memory, and a state of which a step goes on. -/
theorem witness_memory : Memory.wf base.work.base = true ∧ (ready literal).Inv ∧ goesOn (step (ready literal)) = true ∧
    Memory.wf [(4, 1), (7, 2)] = true ∧ Memory.wf [(7, 1), (4, 2)] = false ∧ Memory.wf [(4, 0)] = false := by
  refine ⟨by decide +kernel, ?_, by decide +kernel, by decide +kernel, by decide +kernel, by decide +kernel⟩
  show Memory.wf (ready literal).mem = true
  decide +kernel

/-- O44: places at both ends of each range, and physical addresses that exist. -/
theorem witness_memory_places : tileKey 127 0x1FFFFF < 2 ^ 53 ∧ bplaneKey 127 255 255 63 < 2 ^ 54 ∧ accKey 127 1023 1023 < 2 ^ 55 ∧
    privKey 127 true 0x1FFFF < 2 ^ 56 ∧ [0, 2 ^ 39 - 1, 2 ^ 48, 2 ^ 51].all (fun pa => !isReservedPa pa) = true := by decide +kernel

/-- Is a place ordinary memory with a memory type, and if `hbm` in HBM? -/
def isPhys (mt : BitVec 2) (hbm : Bool) : Place → Bool | .phys pa m _ => m == mt && (!hbm || isHbm pa) | _ => false

/-- O46: each address form; a misaligned address; in the tile store an access within it, one at its last bytes, one past its end; in global memory one that
answers, one that fails, and one on an uncached page, which nothing races with. -/
theorem witness_LoadsStores : [0#2, 1, 2].map spaceOf = [some .tile, some .cluster, some .global] ∧
    (let s := regs [16] [0x30000]
     s.work.memAddr 1 0 (.short 2) 8 = (0x30010, none) ∧ s.work.memAddr 1 1 (.short 1) 8 = (0x30010, none) ∧
       s.work.memAddr 1 2 (.short (-1)) 8 = (0x30000, some 0x2FFF8) ∧ s.work.memAddr 1 0 (.long 4) 8 = (0x30004, none)) ∧
    (0x30004#64).toNat % 8 ≠ 0 ∧ answers (loadAt .global 0x30000 8 base.work) = true ∧ failsWith (loadAt .global 0x800000 8 base.work) (fun _ => true) = true ∧
    answers (storeAt .global 0x30000 (leBytes 8 1) base.work) = true ∧ failsWith (storeAt .global 0x800000 (leBytes 8 1) base.work) (fun _ => true) = true ∧
    [0, 0x1FFFF8].all (fun a => (base.work.badUnit (tileKey 0 a) 8).isNone && [false, true].all fun wr =>
      match Work.raceStep (base.work.tileStamps 0 (a / 128)) base.work.me.rser base.work.me.kclk (Work.unitMask (a % 128) 8) wr with | .ok _ => true | _ => false) = true ∧
    (0x1FFFF8#64).toNat + 8 ≤ 2 ^ 21 ∧ 2 ^ 21 ≤ (0x200000#64).toNat ∧ (0xFFFFF8#64).toNat < 2 ^ 24 ∧
    (let s := framed 0x200000 0 uncached
     answersWith (place s.work.issuer true .global 0x200000 .write s.work) (fun p => isPhys 1 true p &&
       match s.work.raceCheck s.work.issuer p 0x200000 8 true with | .ok _ => true | _ => false) && s.cores.all fun c => c.2.upd == []) = true ∧
    Memory.wf base.mem = true ∧ base.hostL2.all (fun h => h.dirty == 0) = true := by decide +kernel

/-- R426, R2: a store of 0x0102 as two bytes in the tile store, little-endian; the load of one of them, sign-extended or not. -/
theorem test_store : (after (.st 1 1 0 0 1 (.short 0)) (regs [0x0102] [0x40])).mem = [(tileKey 0 0x40, 2), (tileKey 0 0x41, 1)] ∧
    ((after (.ld 3 1 0 0 0 0 (.short 0)) (having (tileKey 0 0x40) [0x80] (regs [] [0x40]))).work.me.inflight.map fun f => (f.value, f.land)) =
      [(0xFFFFFFFFFFFFFF80, 5)] ∧
    ((after (.ld 3 1 0 0 0 1 (.short 0)) (having (tileKey 0 0x40) [0x80] (regs [] [0x40]))).work.me.inflight.map fun f => f.value) = [0x80] := by decide +kernel

/-- O47: two active elements of 8 bytes, and none; both instructions' checks and accesses answer; a range form below and at 2^32 bytes. -/
theorem witness_GatherSynchronise : (let es := gatherElems 3 0x40 0x800000000 (some 0x0101)
    es == [(0, 0x40), (1, 0x48)] && answers (checkElems .tile 8 .read es base.work) && answers (checkElems .tile 8 .write es base.work) &&
    answersWith (es.mapM (m := Act) (fun (i, ea) => do let (bs, pl) ← access (loadAt .tile ea 8); return (i, ea, bs, pl)) base.work)
      (fun g => g.all fun x => x.2.2.1.length == 8) &&
    answers (es.mapM (m := Act) (fun (i, ea) => do
      let pl ← access (storeAt .tile ea ((lineBytes 5).drop (8 * i) |>.take 8)); return (ea, pl)) base.work)) = true ∧
    (aOp (regs [] [0x44]) 0 1 + BitVec.ofNat 64 ((0#3).toNat * 8)).toNat % 8 ≠ 0 ∧ answers (homeLoad .global 0x30000 8 base.work) = true ∧
    answers (homeStore .global 0x30000 (leBytes 8 1) base.work) = true ∧
    answers (homeStore .global 0x30000 (leBytes 8 1) (base.work.cleanL1 base.work.myPart 0 fun _ => true).tick) = true ∧
    (sOp (regs [0, 0xFFFFFFFF] []) 3 2).toNat < 2 ^ 32 ∧ 2 ^ 32 ≤ (sOp (regs [0, 0x100000000] []) 3 2).toNat := by decide +kernel

/-- O47: an element that fails its check, a first one that is misaligned; one that fails as it is read or written, behind one that does not; words that cannot
be read or written. -/
theorem witness_GatherSynchronise_fails : (let s : State := lift (fun w => w.setTileStamps 0 1 ⟨⟨7, 5, 2 ^ 8⟩, ⟨0, 0, 0⟩, 0, 0⟩) base
     let es : List (Nat × Word) := [(0, 0x40), (1, 0xC0)]
     failsWith (checkElems .tile 8 .read [(0, 0x40), (1, 0x44)] base.work) (fun t => t.code == 0x10) &&
     answers (checkElems .tile 8 .read es s.work) && answers (checkElems .tile 8 .write es s.work) &&
     failsWith (es.mapM (m := Act) (fun (i, ea) => do let (bs, pl) ← access (loadAt .tile ea 8); return (i, ea, bs, pl)) s.work) (fun _ => true) &&
     failsWith (es.mapM (m := Act) (fun (i, ea) => do
       let pl ← access (storeAt .tile ea ((lineBytes 5).drop (8 * i) |>.take 8)); return (ea, pl)) s.work) (fun _ => true)) = true ∧
    failsWith (checkElems .global 8 .read [(0, 0x800000)] base.work) (fun _ => true) = true ∧
    failsWith (homeLoad .global 0x800000 8 base.work) (fun _ => true) = true ∧ failsWith (homeStore .global 0x800000 (leBytes 8 1) base.work) (fun _ => true) = true ∧
    (0x800001#64).toNat % 8 ≠ 0 := by decide +kernel

/-- R476: two gathered bytes; the element the mask leaves out keeps v3's value. -/
theorem test_vldx : (got (.vldx 3 1 2 0 0 1 4) (having (tileKey 0 0x40) [7, 8, 9] (me (fun c => { c with q := setNth c.q 4 0b101, v := setNth (setNth c.v 2 0x0000000200000001) 3 0xAAAAAA })
    (regs [] [0x40])))).map (fun x => field x.2.1 0 24) = [0x07AA08] := by decide +kernel

/-- O48: a misaligned word; an aligned one in the tile store, at its start and its last word; a line of global memory, cached and not. -/
theorem witness_Atomics : (aOp (regs [] [0x44]) 0 1).toNat % 8 ≠ 0 ∧ (0x1FFFF8#64).toNat + 8 ≤ 2 ^ 21 ∧ base.work.badUnit (tileKey 0 0x1FFFF8) 8 = none ∧
    [(Space.tile, 0x40), (.global, 0x30000)].all (fun x => answers (atomPlace x.1 x.2 [.read, .write] base.work)) = true ∧
    (let pl : Place := .phys 0x30000 0 false
     match homeTake base.work.issuer pl 0x30000 8 (base.work.flushLine 0 0 0x600) with
     | (.ok _, w) => answers (writePlace base.work.issuer true pl 0x30000 (leBytes 8 1) w.release)
     | _ => false) = true ∧
    answersWith (atomPlace .global 0x30000 [.write] base.work) (isPhys 0 true) = true ∧ Work.cached 0 false = true ∧
    (let s := framed 0x200000 0 uncached
     answersWith (atomPlace .global 0x200000 [.write] s.work) (isPhys 1 true) && !Work.cached 1 false &&
     match homeTake s.work.issuer (.phys 0x200000 1 false) 0x200000 4 (s.work.flushLine 0 0 0x4000) with
     | (.ok _, w) => answers (writePlace s.work.issuer true (.phys 0x200000 1 false) 0x200000 (leBytes 4 1) w)
     | _ => false) = true := by decide +kernel

/-- O48: a line of an uncached page with an uncorrectable unit outside the addressed bytes, and one without. -/
theorem witness_Atomics_line : (let s := framed 0x200000 0 uncached
    let w (s : State) : Work := s.work.flushLine s.work.issuer.part 0 (0x200000 / 128)
    ((w s).badUnit 0x200000 128).isNone && ((w { s with poison := [0x200000 / 8 + 15] }).badUnit 0x200000 128) == some (0x200000 / 8 + 15)) = true := by decide +kernel

/-- R383: an ATOM add of 5 to the word 7 in the tile store. -/
theorem test_atom : (after (.atom 3 1 1 2 1 0 0) (having (tileKey 0 0x40) [7] (regs [5] [0x40]))).mem = [(tileKey 0 0x40, 12)] ∧
    ((after (.atom 3 1 1 2 1 0 0) (having (tileKey 0 0x40) [7] (regs [5] [0x40]))).work.me.inflight.map fun f => f.value) = [7] := by decide +kernel

/-- A class descriptor at `0x1000 + 32 · 1` for class 1: enabled or not, `free` of 64 blocks free, bitmap at 0x2000, base 0x100000; ALLOCPA 0x1000. -/
def heap (en free : Nat) (bitmap : List Byte) : State :=
  let d := leBytes 32 (en + 64 * 2 ^ 64 + free * 2 ^ 96 + 0x2000 * 2 ^ 128 + 0x100000 * 2 ^ 192)
  having 0x2000 bitmap (having 0x1020 d (lift (fun w => w.modPart 0 fun p => { p with desc := p.desc ||| BitVec.ofNat 4096 (0x1000 * 2 ^ 256) }) base))

/-- O49: lengths at both sides of 2^32, an empty one, one within a page; a line in no cache and one in L2; classes that are disabled, used up, and
not; a block that is allocated and one that is not. -/
theorem witness_CachesAllocator : 2 ^ 32 ≤ (sOp (regs [0x100000000] []) 1 1).toNat ∧ (sOp (regs [0xFFFFFFFF] []) 1 1).toNat < 2 ^ 32 ∧ sOp base 1 1 = 0 ∧
    user.focus.super = false ∧ 0xFF00 + 0x100 ≤ 65536 ∧ (List.range 8).all (fun k => !((base.work.part 0).aperture k).on) = true ∧
    answersWith (place base.work.issuer true .global 0x30000 .read base.work) (isPhys 0 true) = true ∧
    (base.work.l1Find 0 5).isNone = true ∧
    ((lift (fun w => w.setL2Stamps 5 ⟨⟨0, 0, 0⟩, ⟨0, 0, 0⟩, 9, 0⟩) base).l2.find? fun e => e.1 == 5).isSome = true ∧
    answersWith (readClass 1 (heap 0 3 []).work) (fun k => !k.enabled) = true ∧ answersWith (readClass 1 (heap 1 0 []).work) (fun k => k.enabled && k.free == 0) = true ∧
    answersWith (readClass 1 (heap 1 3 [7]).work) (fun k => k.enabled && k.free == 3 && k.base == 0x100000 && k.count == 64) = true ∧
    (match readClass 1 (heap 1 3 [7]).work with
     | (.ok k, w) => match findClear k.bitmap k.count (k.count / 64 + 2) k.hint w with
       | (.ok (some i), w) => i == 3 && answers (allocRead (k.bitmap + i / 64 * 8) 8 (k.bitmap + i / 64 * 8) w)
       | _ => false
     | _ => false) = true ∧
    answersWith (allocBlock 1 (heap 1 3 [7]).work) (fun x => x == some 0x100600) = true ∧ answersWith (allocBlock 1 (heap 1 0 []).work) (fun x => x.isNone) = true ∧
    (match readClass 1 (heap 1 3 [7]).work with
     | (.ok _, w) => answersWith (allocRead 0x2000 8 0x2000 w) fun bs => leNat bs / 2 ^ 2 % 2 == 1 && leNat bs / 2 ^ 3 % 2 == 0
     | _ => false) = true := by decide +kernel

/-- O52: a unit that has taken samples in this cycle, and one that has not. -/
theorem witness_EnginePlacement_arm : (base.work.monitor 4).takenAt ≠ base.cycle ∧
    ((lift (fun w => w.modMonitor 4 fun m => m.takeAt 1 9) base).work.monitor 4).takenAt = base.cycle := by decide +kernel

/-- R447: a sample of the arm's own cycle falls after the clearing. -/
theorem test_arm : ((Monitor.reset.takeAt 1 3).rearm 1).min = 3 ∧ ((Monitor.reset.takeAt 1 3).rearm 2).min = 0xFFFFFFFFFFFFFFFF := by decide +kernel

/-! ## The array -/

/-- A foot with an emergence count. -/
def foot (n : Nat) : Foot := ⟨n, 0x3F800000, false, none⟩

/-- O50: a descriptor that is aligned and one that is not; a stream that answers and one that fails; an arm pointer at the ring's last row; staged writes at
each count, of both latches. -/
theorem witness_MatrixArray : (aOp (regs [] [0x30010]) 0 1).toNat % 32 ≠ 0 ∧ answers (loadAt .global 0x30020 24 base.work) = true ∧
    answers (streamUnits 3 (base.work.rdG 0 3) 1 base.work) = true ∧
    failsWith (streamUnits 3 ⟨0x1000000, 0, 0⟩ 1 base.work) (fun _ => true) = true ∧
    (let k : Arm := ⟨false, 1000, 24, 1023, 0, 15⟩; decide (k.first < 1024) && decide (k.first ≤ k.ptr) && decide (k.ptr < 1024) && decide (0 < k.count)) = true ∧
    ((arr fun a => { a with feet := [foot 1, foot 0] }).work.here.arr.feet.all fun f => f.left != 1 || f.tag.isNone) = true ∧
    [false, true].all (fun top => [3, 1].all fun n => (arr fun a => { a with staged := [⟨n, top, 1, 0, [5]⟩] }).work.here.arr.staged == [⟨n, top, 1, 0, [5]⟩]) = true := by
  decide +kernel

/-- The beat of ones in every place of MXINT8 against B codes of the array's own width. -/
def ones (m : BitVec 3) (z0 : Bool) (l : BitVec 128) : Beat := ⟨m, 0, BitVec.ofNat 2048 ((List.range 128).map fun k => 2 ^ (8 * k)).sum, l, .replicate 16 (BitVec.ofNat 2048 (127 * 2 ^ 8 + 127)), z0⟩

/-- O50: beats of a real and a complex mode, with a scale code of 0xFF and without; a unit of the B-plane that is uncorrectable. -/
theorem witness_MatrixArray_columns : ((ones 0 false 0).mode.toNat, (ones 4 true 0).bsrc, (ones 4 true 0).z0) = (0, 0, true) ∧
    field (ones 0 false 255).left 0 8 = 255 ∧ field (ones 0 false 127).left 0 8 ≠ 255 ∧
    (({ base with poison := [bplaneKey 0 0 0 0 / 8] } : State).work.badUnit (bplaneKey 0 0 0 0) 64).isSome = true := by decide +kernel

/-- R138: a staged write that is due becomes active. -/
theorem test_latch : field (after .latchActivate (arr fun a => { a with staged := [⟨1, false, 0, 2, [5]⟩] })).work.here.arr.leftL 16 8 = 5 := by decide +kernel

/-- O51: a foot that has emerged and none; a poisoned row and a whole one; a stream to drain to; rows to copy both ways; a misaligned address. -/
theorem witness_AccumulatorStore : Memory.wf base.mem = true ∧ (arr fun a => { a with feet := [foot 3] }).work.here.arr.feet.all (fun f => f.left != 0) = true ∧
    ((arr fun a => { a with feet := [foot 0] }).work.here.arr.feet.find? fun f => f.left == 0).isSome = true ∧ (2#4).toNat ≤ (15#4).toNat ∧
    (arr fun a => { a with rowPoison := 32 }).work.here.arr.rowPoison.getLsbD 5 = true ∧ base.work.here.arr.rowPoison.getLsbD 5 = false ∧
    answers (streamPut 3 (base.work.rdG 0 3) [1, 2] 5 base.work) = true ∧ (0x30040#64).toNat % 128 ≠ 0 ∧ (0x30000#64).toNat % 128 = 0 ∧
    answers (mxcpCheck .global 0x30000 1 true base.work) = true ∧ answersWith (mxcpCheck .global 0x30000 1 false base.work) (fun us => us.length == 8) = true ∧
    answers (writePlace base.work.issuer false (.phys 0x30000 0 false) 0x30000 (lineBytes 5) base.work) = true ∧
    answersWith (readThrough base.work.issuer false (.phys 0x30000 0 false) 0x30000 128 base.work) (fun x => x.1.length == 128) = true := by decide +kernel

/-- O51: FP32 values that are and are not NaN or infinite, and one that only BF16 makes infinite. -/
theorem witness_AccumulatorStore_formats : [0x7FC00000, 0x7F800000, 0x3F800000, 0x7F7FFFFF].map (fun x =>
      ((fp32.value x).isNan, (fp32.value x).isInf, (bf16.value (fp32.convert bf16 .even x).bits).isInf)) =
    [(true, false, false), (false, true, true), (false, false, false), (false, false, true)] ∧
    (drainRow 3 ((List.range 256).map fun _ => 0x3F800000)).1.length = 3 := by decide +kernel

/-- R140: MZERO of two rows from the last wraps, and clears their poison bits. -/
theorem test_mzero : (after (.mzero 0 1023 1) (having (accKey 0 0 4) [9] (arr fun a => { a with rowPoison := 3 }))).work.here.arr.rowPoison = 2 ∧
    (after (.mzero 0 1023 1) (having (accKey 0 0 4) [9] (arr fun a => { a with rowPoison := 3 }))).mem = [] := by decide +kernel
/-! ## Engine slots, tile objects, rills, queues, flumes -/

/-- O52: aligned and misaligned descriptors and completion words, both modes, banks at both sides of their range, requests that are refused and not, monitor
units that are the partition's and not, and a snapshot's store that answers. (Full and free queues: `witness_full_queue`.) -/
theorem witness_EnginePlacement : base.focus.admitted = false ∧ user.focus.super = false ∧ base.focus.super = true ∧
    [(0x30001, 64), (0x30040, 128)].all (fun x => (aOp (regs [] [BitVec.ofNat 64 x.1]) 0 1).toNat % x.2 != 0) = true ∧
    (aOp (regs [] [0x30080]) 0 1).toNat % 128 = 0 ∧ (sOp (regs [4] []) 1 1).toNat % 8 ≠ 0 ∧ (sOp (regs [8] []) 1 1).toNat % 8 = 0 ∧
    16 ≤ (sOp (regs [16] []) 1 1).toNat ∧ (sOp (regs [15] []) 1 1).toNat < 16 ∧
    (let p := base.work.part 0
     let ext : Word := 2 ^ 48 + 2 ^ 32
     HandleRec.requestBad p 15 ext 0x4000 0x100 = false ∧ HandleRec.requestBad p 15 ext 0x4001 0x100 = true ∧ HandleRec.requestBad p 16 ext 0x4000 0x100 = true ∧
       p.ownsHandle 15 = true ∧ p.ownsHandle 16 = false) ∧
    (let s := parted (fun p => { p with desc := p.desc ||| 2 ^ 975 }) (regs [15] [0x30008])
     (s.work.part s.work.myPart).monmask.getLsbD 15 = true ∧ (base.work.part 0).monmask.getLsbD 15 = false ∧ (aOp s 1 1).toNat % 8 = 0 ∧
       answers (storeHome (aOp s 1 1) (List.replicate 280 1) s.work) = true) := by decide +kernel

/-- A tile object's header at 0x30000 with a state word. -/
def header (st : Nat) (s : State := base) : State := having 0x30000 (leBytes 64 (st * 2 ^ 192)) s
/-- An instance with pins. -/
def pinned (n slot : Nat) (s : State) : State := inst (fun i => { i with pins := List.replicate n ⟨0x30000, slot⟩ }) s
/-- Does the header check answer with a state word of which `P` holds? -/
def checked (wr : Bool) (s : State) (P : Word → Bool) : Bool :=
  answersWith (headerAct 0x30000 wr s.work) fun x => x.1 == 0x30000 && P (Work.headerState x.2) && (List.range 4).all fun k => !(regOf x.2 k).en

/-- O53: headers that fail and headers that answer; for each instruction a state word of each case. -/
theorem witness_TileObjects : failsWith (headerAct 0x800000 true base.work) (fun _ => true) = true ∧
    failsWith (headerAct 0x800000 false base.work) (fun _ => true) = true ∧ (0x30001#64).toNat % 64 ≠ 0 ∧
    checked true (header 15) (fun st => stVer st == 15) = true ∧ checked true (header 0x400) (fun st => stOpen st && decide (stVer st < 14)) = true ∧
    checked true (header 0x40E) (fun st => stOpen st && stVer st == 14) = true ∧
    checked true (pinned 1 1 (header (2 ^ 40 + 1))) (fun st => stPin st 1 == 1 && stSlot st == 0 && !stOpen st) = true ∧
    checked true (header 1) (fun st => stVer st == 1 && stPin st 1 == 0 && stPin st 0 == 0) = true ∧
    checked true (header 0) (fun st => stVer st == 0 && stProducer st == base.work.myTag) = true ∧
    checked true (header (2 ^ 40 - 2 ^ 32 + 1)) (fun st => stPin st 0 == 255) = true ∧
    (pinned 8 1 (header 1)).work.myInst?.map (fun i => (i.pins.length, i.holds 0x30000 1, i.holds 0x30000 0)) = some (8, true, false) ∧
    (sOp (regs [0x100] []) 1 1).getLsbD 8 = true ∧ ((pinned 1 1 (header 1)).work.release.homeRead 0 0x3001D 1).1.length = 1 ∧
    checked false (header 3) (fun st => decide ((sOp (regs [3] []) 1 1).toNat % 16 ≤ stVer st) && decide (stVer st < (sOp (regs [4] []) 1 1).toNat % 16)) = true := by
  decide +kernel

/-- O53: a slot that is pinned by others and one that is not, as PUB.open finds it again. -/
theorem witness_TileObjects_open : [2 ^ 40 + 1, 1].map (fun st => match headerAct 0x30000 true (header st).work with
    | (.ok (pa, bs), w1) => stPin (Work.headerState ((if stPin (Work.headerState bs) 1 = 0 then w1 else w1.stopPinners w1.myPart pa 1 bs).headerBytes w1.myPart pa).1) 1
    | _ => 9) = [1, 0] := by decide +kernel

/-- A reach of record and kernel zero but for bits given: DENSE, one iteration, one rill on one core. -/
def reach (record : Nat := 0) (f : Reach → Reach := id) : Reach := f (Reach.fresh 5 (BitVec.ofNat 2048 (2 ^ 128 * 1000000 ||| record)) 0)
/-- The small state's course: number 0, these reaches. -/
def course (rs : List Reach) (s : State := base) : State := parted (fun p => { p with courses := [⟨0, 0, 0, 0, rs, false⟩] }) s

/-- O53: registrations that are off, that keep, and that name a live instance's reach, with each policy. -/
theorem witness_TileObjects_refire : (⟨false, 0, 5, 0⟩ : Registration).en = false ∧ 2 ≤ (⟨true, 2, 5, 0⟩ : Registration).policy ∧
    (course [reach]).work.reachOfTag 0 5 = some (0, 0) ∧
    ((course [reach]).work.insts.find? fun i => i.part == 0 && i.course == 0 && i.reach == 0 && i.iter == 0 && i.live).isSome = true := by decide +kernel

/-- R245, R246: PUB.open of version 1's other slot hands out its payload address; PUB.close publishes version 2 in it. -/
theorem test_publish : ((after (.pubOpen 3 1) (regs [] [0x30000] (having 0x30010 [0x77] (header 1)))).work.me.inflight.map fun f => f.value) = [0x77] ∧
    field ((after (.pubClose 1 2) (regs [] [0x30000] (header 0x401))).work.word 0x30018) 0 32 = 0x01020102#32 := by decide +kernel

/-- A flume of two entries whose descriptor lies at 0x40 of core 0's tile store and which holds `n`. -/
def flume (n : Nat) (s : State := base) : State := having (tileKey 0 0x40) (leBytes 24 (0x1000 + 2 ^ 32 + n * 2 ^ 64)) s
/-- A ring of two slots at 0x32000 as reach queue 0, whose descriptor lies at 0x31000, of which `n` are filled; `bits` more in it. -/
def ring (n : Nat) (bits : Nat := 0) (s : State := base) : State :=
  having 0x31000 (leBytes 32 (0x32000 + 2 ^ 64 + n * 2 ^ 96 + bits)) (parted (fun p => { p with desc := p.desc ||| BitVec.ofNat 4096 (0x31000 * 2 ^ 384) }) s)
/-- A list of four records at 0x34000 whose descriptor lies at 0x33000: arrived, closed. -/
def list (arrived closed : Nat) (s : State := base) : State :=
  having 0x33000 (leBytes 64 (0x34000 + 2 * 2 ^ 64 + arrived * 2 ^ 128 + closed * 2 ^ 192)) s
/-- A tile record at 0x35000 of WIDTH n. -/
def record (n : Nat) (s : State) : State := having 0x35010 (leBytes 8 (n * 2 ^ 12)) s

/-- O31: a rill of a reach, whose first part of the frame can be written. -/
theorem witness_TrapEntry_reach : (let s := course [reach] (framed 0x200000 0 uncached)
    (s.work.myInst?.any fun i => (s.work.reach? i.part i.course i.reach).isSome) && s.work.frameBusy.1 == some false && answers (writeHead s)) = true := by
  decide +kernel

/-- O54, SPAWN and DEPDEC: no instance; a context that is busy; an instance with 16 rills; a reach; counters at 0 and above; an index past the last. -/
theorem witness_SpawnsQueuesFlumes : (me fun c => { c with inst := 0 }).work.myInst? = none ∧ (base.work.ctx 0 0).st ≠ .idle ∧ (base.work.ctx 0 1).st = .idle ∧
    (inst fun i => { i with rills := List.replicate 16 ⟨0, 0, false, 0, false⟩ }).work.myInst?.map (fun i => i.rills.length) = some 16 ∧
    (course [reach]).work.myInst?.map (fun i => ((course [reach]).work.reach? i.part i.course i.reach).isSome && decide (i.rills.length < 16)) = some true ∧
    ((course [reach]).work.reach? 0 0 0).map (·.counter) = some 0 ∧ ((course [reach 0 fun r => { r with counter := 65535 }]).work.reach? 0 0 0).map (·.counter) = some 65535 ∧
    (((course [reach]).work.course? 0 0).map (·.reaches.length)) = some 1 ∧ (∃ w x : Word, w.toNat = 0 ∧ x.toNat = 1) := by
  refine ⟨by decide +kernel, by decide +kernel, by decide +kernel, by decide +kernel, by decide +kernel, by decide +kernel, by decide +kernel, by decide +kernel,
    ⟨0, 1, by decide, by decide⟩⟩

/-- O54, flumes: an address that fails; empty, holding one, full; counts up to the size and past it. -/
theorem witness_flumes : failsWith (access (flumeAt base.work.issuer 0x41) base.work) (fun _ => true) = true ∧
    [0, 1, 2].all (fun n => answersWith (flumeAt (flume n).work.issuer 0x40 (flume n).work) fun f => f.count == n && f.size == 2) = true ∧
    (flume 1).work.badUnit (tileKey 0 0x1000) 128 = none := by decide +kernel

/-- O54, ENQ of a course: a queue number of 16 and one of 0; a misaligned header; a disabled, a full and a free queue; each access of the last answers. -/
theorem witness_enqueue_course : 16 ≤ (16#64).toNat ∧ (0x30040#64).toNat % 128 ≠ 0 ∧ (0x30080#64).toNat % 128 = 0 ∧ base.work.badUnit 0x31000 32 = none ∧
    [(2, 0), (0, 2 ^ 255), (1, 0)].map (fun x => let s := ring x.1 x.2
      let d := queueDesc (s.work.part 0).qbase (s.work.homeRead 0 (s.work.part 0).qbase 32).1
      (d.disabled, (d.prod - d.cons).toNat == 2 ^ d.logn)) = [(false, true), (true, false), (false, false)] ∧
    (let s := ring 1
     match place s.work.issuer true .global 0x32080 .write s.work with
     | (.ok _, w2) => match loadAt .global 0x30080 128 w2 with
       | (.ok (img, _), w3) => answers (homeStore .global 0x32080 (withPhase img false) (w3.release.homeWrite 0 0x3100C (leBytes 4 2)))
       | _ => false
     | _ => false) = true := by decide +kernel

/-- O54, ENQ of a record: misaligned lists and records; a list that fails; open, closed and full ones; a bad record and a good one; each access answers. -/
theorem witness_enqueue_record : (0x33020#64).toNat % 64 ≠ 0 ∧ (0x33000#64).toNat % 64 = 0 ∧ (0x35010#64).toNat % 32 ≠ 0 ∧ (0x35000#64).toNat % 32 = 0 ∧
    failsWith (listAt 0x33000 base.work) (fun _ => true) = true ∧
    [(0, 0), (0, 1), (4, 0)].all (fun x => answersWith (listAt 0x33000 (list x.1 x.2).work) fun l =>
      l.1.closed == decide (x.2 = 1) && ((l.1.arrived - l.1.retired).toNat == 2 ^ l.1.logn) == decide (x.1 = 4) && isPhys 0 true l.2) = true ∧
    [0, 33, 1].map (fun n => (loadAt .global 0x35000 32 (record n (list 0 0)).work).1.toOption.map fun x => recordBad x.1) = [some true, some true, some false] ∧
    (let s := record 1 (list 0 0)
     answersWith (place s.work.issuer true .global 0x34000 .write s.work) (isPhys 0 true) && (s.work.badUnit 0x34000 32).isNone &&
     match homeStore .global 0x34000 (List.replicate 32 1) s.work.release with
     | (.ok _, w4) => answers (homeStore .global 0x33010 (leBytes 4 1) w4)
     | _ => false) = true ∧
    answers (homeStore .global 0x33018 [1] (list 0 0).work.release) = true := by decide +kernel

/-- R408, R277: FLPUT counts one entry more; DEPDEC one dependence fewer. -/
theorem test_flow : (after (.flput 1 1) (regs [] [0x40] (flume 0))).work.bytes (tileKey 0 0x48) 4 = [1, 0, 0, 0] ∧
    ((after (.depdec 0) (course [reach 0 fun r => { r with counter := 2 }])).work.reach? 0 0 0).map (·.counter) = some 1 := by decide +kernel

/-! ## Helper cores -/

/-- The small state with its intake helper running, registers x1, x2, ... given. -/
def aide (xs : List Word) (f : Helper → Helper := id) (s : State := base) : State :=
  lift (fun w => w.modHelper 0 false fun h => f { h with
    st := .running, inst := 1, x := (xs.foldl (fun (a : Nat × Vector Word 32) v => (a.1 + 1, setNth a.2 a.1 v)) (1, h.x)).2 }) s

/-- O55: helpers that stand still, run and have faulted; registers of the table and none; addresses in and out of the private memory, at its ends. -/
theorem witness_HelperCores : base.work.hNow.st ≠ .running ∧ (aide []).work.hNow.st = .running ∧
    (let s := aide [] fun h => { h with st := .faulted, fault := some (2, 3, 4) }
     (s.work.inst? s.work.hNow.inst).isSome = true ∧ s.work.hNow.fault = some (2, 3, 4)) ∧
    ((course [reach]).work.reach? 0 0 0).isSome = true ∧ (aide []).work.hCsr 0x300 = none ∧ ((aide []).work.hCsr 0xC00).isSome = true ∧
    (0x10001#64).toNat % 2 ≠ 0 ∧ (0x10002#64).toNat % 2 = 0 ∧ Work.isReadable 0x14000 1 = false ∧ Work.isReadable 0xFFFF 1 = true ∧ Work.isReadable 0x13FF8 8 = true ∧
    Work.isData 0xFFF8 8 = false ∧ Work.isData 0x10000 8 = true ∧ Work.isData 0x13FF8 8 = true ∧
    (aide [0x10000] fun h => { h with reserved := some (0x10000, 8) }).work.hNow.reserved = some (((aide [0x10000]).work.hx 1).toNat, 8) ∧
    (aide []).work.hNow.reserved = none := by decide +kernel

/-- O55, the ix instructions: operands; requests; handles that are the partition's and not, that wait and do not. -/
theorem witness_HelperCores_ix : (0x10004#64).toNat % 8 ≠ 0 ∧ (0x10000#64).toNat % 8 = 0 ∧ Work.isData 0x13FC0 128 = false ∧ Work.isData 0x13FF0 24 = false ∧
    Work.isData 0x10000 128 = true ∧ Work.isData 0x10000 24 = true ∧ (CopyDesc.cwaddr (4 <<< 448)).toNat % 8 ≠ 0 ∧ (CopyDesc.cwaddr 0).toNat % 8 = 0 ∧
    (let p := (aide []).work.part (aide []).work.helperWho.part
     HandleRec.requestBad p 3 (2 ^ 48 + 2 ^ 32) 0 0x100 = false ∧ HandleRec.requestBad p 3 0 0 0 = true ∧ p.ownsHandle 3 = true ∧ p.ownsHandle 16 = false) ∧
    ((hand 3 (rec_ 1 3 0)).work.handle 3).verdict 1 = .wait ∧ ((hand 3 (rec_ 1 3 1)).work.handle 3).verdict 1 ≠ .wait ∧
    (aide [] fun h => { h with waiting := some (3, 1) }).work.hNow.waiting = some (3, 1) ∧
    (aide [] fun h => { h with found := some 7 }).work.hNow.found = some 7 ∧ (aide []).work.hNow.found = none ∧ (aide []).work.hNow.waiting = none ∧ 256 ≤ (256#64).toNat ∧ (255#64).toNat < 256 := by
  decide +kernel

/-- O55, flumes of a helper: an address that fails; empty, holding one and full; a unit's place and its bytes. -/
theorem witness_HelperCores_flumes : failsWith (flumeAt (aide []).work.helperWho 0x41 (aide []).work) (fun _ => true) = true ∧
    [0, 1, 2].all (fun n => let w := (aide [] id (flume n)).work
      answersWith (flumeAt w.helperWho 0x40 w) (fun f => f.count == n && f.size == 2) &&
      match place w.helperWho false .cluster 0x2000 .write w with
      | (.ok pl, w2) => answers (writePlace w.helperWho true pl 0x2000 (List.replicate 128 1) w2) && answers (readPlace w.helperWho true pl 0x2000 128 w2)
      | _ => false) = true ∧ (129#64).toNat % 128 ≠ 0 ∧ (0x2000#64).toNat % 128 = 0 := by decide +kernel

/-- The RISC-V standard: addi x3, x1, -1 (presumed, log entry 10). -/
theorem test_helper : (after (.helperInstruction (.opImm .add 3 1 0xFFF) 4) (aide [5])).work.hx 3 = 4 ∧
    (after (.helperInstruction (.opImm .add 3 1 0xFFF) 4) (aide [5])).work.hNow.pc = 4 := by decide +kernel
/-! ## The scheduler -/

/-- A reach's record with a deadline of its own: budget 9, pre-emptible, drain and kill limits 0x10 and 0x20. -/
def victimReach : Reach := reach (2 ^ 125 + 0x20 * 2 ^ 256 + 0x10 * 2 ^ 288) fun r => { r with tag := 6, deadline := 2000000 }
/-- No instance; the course of one reach. -/
def quiet (r : Reach) : State := { course [r] with insts := [] }
/-- It selected. -/
def selecting (r : Reach) (victim : Option Nat := none) : State := parted (fun p => { p with selected := some ⟨0, 0, r.tokens, r.deadline, victim⟩ }) (quiet r)
/-- Reach 0 waits with five tokens, reach 1 runs on the partition's only cluster, all of whose contexts are taken; one checkpoint slot. -/
def crowded : State :=
  lift (fun w => [1, 2, 3].foldl (fun w n => w.modCore n fun c => { c with enabled := false }) (w.modCore 0 fun c => { c with
      ctxs := Vector.map (fun x : Ctx => { x with st := .ready, inst := 1 }) c.ctxs }))
    (inst (fun i => { i with reach := 1 }) (parted (fun p => { p with desc := p.desc ||| 2 ^ 640, selected := some ⟨0, 0, 5, reach.deadline, none⟩ })
      (course [reach 0 fun r => { r with tokens := 5 }, victimReach])))

/-- O56, COURSE_START: a partition that is left alone; a queue whose next slot is not valid, one in error, one with a course. -/
theorem witness_Scheduling : (base.work.part 1).live = false ∧ (base.work.part 0).live = true ∧ (base.work.part 0).stopped = false ∧
    (base.work.part 0).swapped = false ∧ (having 0x32008 [1] (ring 0)).work.courseReady 0 0 = false ∧
    (({ ring 0 with poison := [0x31000 / 8] } : State).work.queueHead 0 0).1.isNone = true ∧ (ring 0).work.courseReady 0 0 = true ∧
    ((ring 0).work.queueHead 0 0).1.map (fun x => x.2.isSome) = some true := by decide +kernel

/-- O56, SELECT and readiness: a selection made, none made, no reach to select and one. -/
theorem witness_Scheduling_select : ((selecting reach).work.part 0).selected.isSome = true ∧ ((quiet reach).work.part 0).selected = none ∧
    base.work.candidates 0 = [] ∧ (quiet reach).work.candidates 0 ≠ [] := by decide +kernel

/-- O56, PLACE: a victim waited for; a reach that is gone, not ready, ready with a place, and without one, with a victim and without. -/
theorem witness_Scheduling_place : (course [reach]).work.waitsFor ⟨0, 0, 0, 0, some 1⟩ = true ∧
    (selecting reach).work.waitsFor ⟨0, 0, 0, 0, none⟩ = false ∧ (base.work.reach? 0 0 0).isNone = true ∧ (quiet reach).work.ready 0 0 0 reach = true ∧
    (quiet (reach 0 fun r => { r with counter := 1 })).work.ready 0 0 0 (reach 0 fun r => { r with counter := 1 }) = false ∧
    (selecting reach).work.fitting 0 0 0 reach none ((selecting reach).work.clustersOf 0) ≠ [] ∧
    (let w := crowded.work
     let r : Reach := reach 0 fun r => { r with tokens := 5 }
     w.ready 0 0 0 r && (w.fitting 0 0 0 r none (w.clustersOf 0)).isEmpty && ((w.victim 0 0 0 5 r.deadline r).bind w.reachOf).isSome && (w.victim 0 0 0 0 r.deadline reach).isNone &&
       (w.fitting 0 0 0 reach none (w.clustersOf 0)).isEmpty) = true := by decide +kernel

/-- O56: a frozen instance with what was saved; iterations to run again; none. Limits of pre-emption on either side of an estimate. -/
theorem witness_Scheduling_policies : (let sv : Saved := ⟨[], [], [], [], 0, [], [], none, false⟩
      let s := inst (fun i => { i with st := .frozen, saved := some sv }) (course [reach])
      (s.work.frozenOf 0 0 0).map fun i => i.saved) = [some ⟨[], [], [], [], 0, [], [], none, false⟩] ∧
    base.work.frozenOf 0 0 0 = [] ∧ (reach 0 fun r => { r with reruns := [3] }).reruns = [3] ∧ reach.reruns = [] ∧
    (let est (k : Word) := (me fun c => { c with kest := k }).work.estimate (placedInst 1 0)
     (est 0x10, est 0x11, est 0x20)) = (0x10, 0x11, 0x20) ∧ victimReach.drainLim = 0x10 ∧ victimReach.killLim = 0x20 ∧ victimReach.killable = false ∧
    (reach (2 ^ 124)).killable = true ∧ base.work.hasPublished (placedInst 1 0) = false ∧
    base.work.hasPublished { placedInst 1 0 with published := true } = true := by decide +kernel

/-- O56, ageing, loading, replay, saving: reaches that are old enough and not; instances of each state. -/
theorem witness_Scheduling_loads : (base.work.reach? 0 0 0).isNone = true ∧ ((quiet reach).work.reach? 0 0 0).isSome = true ∧
    ({ quiet reach with ns := 10000 } : State).work.ready 0 0 0 reach = true ∧
    (base.insts.find? fun i => i.st == .loading && i.part == 0 && i.cores.contains 0).isNone = true ∧
    (let s := inst (fun i => { i with st := .loading }) (course [reach])
     (s.insts.find? fun i => i.st == .loading && i.part == 0 && i.cores.contains 0).isSome = true ∧ (s.work.reachOf { placedInst 1 0 with st := .loading }).isSome = true ∧
       s.work.needsDict 0 reach 0 = true ∧ (lift (fun w => w.modCore 0 fun c => { c with dict := some ⟨0, 0, [], []⟩ }) s).work.needsDict 0 reach 0 = false ∧
       s.work.loadsPending { placedInst 1 0 with st := .loading } = false ∧
       ({ s with pending := [⟨0, 0, .dictLoad 0 0 true⟩] } : State).work.loadsPending { placedInst 1 0 with st := .loading } = true) ∧
    (base.work.inst? 9).isNone = true ∧ (base.work.inst? 1).map (·.st) = some .running ∧
    (let s := lift (fun w => w.modCtx 0 0 fun c => { c with st := .reserved }) base
     (s.work.ctx 0 0).inst = 1 ∧ (s.work.ctx 0 0).st = .reserved) ∧
    base.work.freezeDue (placedInst 1 0) = false ∧ (inst fun i => { i with st := .freezing }).work.freezeDue { placedInst 1 0 with st := .freezing } = true := by
  decide +kernel

/-- O56: a replay with a page read to come and with none; what the lists are read in while traffic is held. -/
theorem witness_Scheduling_replay : (let i : Inst := { placedInst 1 0 with st := .loading, replays := [(0, ⟨[], some ⟨0, 1, .queued, 0, 0, []⟩⟩)] }
      ((Tab.get i.replays 0 PageHand.none).read.isSome, (Tab.get i.replays 1 PageHand.none).read.isNone)) = (true, true) ∧
    (let s : State := { course [reach] with stackHeld := setNth base.stackHeld 0 (some 200000) }
     (s.work.noneHeld, base.work.noneHeld)) = (false, true) ∧
    (crowded.work.clustersOf 0 = [0] ∧ (lift (fun w => w.modCore 1 fun c => { c with spareDue := some 5 }) crowded).work.clustersOf 0 = []) := by decide +kernel

/-- R263, R266: SELECT takes the ready reach; a wait of 10 µs gives a token. -/
theorem test_schedule : ((after (.selectReach 0) (quiet reach)).work.part 0).selected = some ⟨0, 0, 0, reach.deadline, none⟩ ∧
    ((after (.tokenAge 0 0 0) { quiet reach with ns := 10000 }).work.reach? 0 0 0).map (·.tokens) = some 1 := by decide +kernel

/-- O57: instances out of budget, in grace or not, told or not; a held event to take. -/
theorem witness_EventsCompletions : (base.work.inst? 9).isNone = true ∧ (base.work.inst? 1).map (fun i => (i.counter == 0, i.st)) = some (false, .running) ∧
    [(true, false), (false, true), (false, false)].all (fun x => ((inst fun i => { i with counter := 0, grace := x.1, budgetSent := x.2 }).work.inst? 1).any fun i =>
      i.counter == 0 && i.st == .running && i.grace == x.1 && i.budgetSent == x.2) = true ∧
    (let s := me fun c => { c with held := [.budget] }
     (decide (s.work.me.notBefore ≤ s.cycle) && !s.work.me.resumed && s.work.me.held == [.budget] && s.work.frameBusy.1 != some true)) = true := by decide +kernel

/-- O57: reaches before and past their deadline, complete and not; due and not, before the deadline and past it; instances and courses that are due and not. -/
theorem witness_EventsCompletions_due : (base.work.reach? 0 0 0).isNone = true ∧ (reach.complete, reach.passed, reach.kind, decide (0 < reach.deadline)) = (false, false, 0, true) ∧
    decide (reach.deadline ≤ ({ quiet reach with ns := 1048576 } : State).ns) = true ∧ (reach 0 fun r => { r with complete := true }).complete = true ∧
    (let done : Reach := reach 0 fun r => { r with nextIter := 1 }
     let past : Reach := reach 0 fun r => { r with passed := true }
     (quiet done).work.reachDue 0 0 0 done && !(quiet reach).work.reachDue 0 0 0 reach && (quiet past).work.reachDue 0 0 0 past &&
       !(course [past]).work.reachDue 0 0 0 past) = true ∧
    base.work.instDue (placedInst 1 0) = false ∧ (inst fun i => { i with st := .killed }).work.instDue { placedInst 1 0 with st := .killed } = true ∧
    (let i : Inst := { placedInst 1 0 with rills := [⟨0, 0, true, 5, false⟩] }
     (me (fun c => { c with inst := 0 }) (inst fun _ => i)).work.instDue i) = true ∧
    (base.work.course? 0 0).isNone = true ∧ ((course [reach]).work.course? 0 0).map (course [reach]).work.courseDue = some false ∧
    (let s := course [reach 0 fun r => { r with complete := true }]
     (s.work.course? 0 0).map s.work.courseDue) = some true := by decide +kernel

/-- O57: a reach whose deadline has passed with a killed instance that has not ended. -/
theorem witness_EventsCompletions_killed : (inst (fun i => { i with st := .killed }) (course [reach])).work.unendedOf 0 0 0 ≠ [] ∧
    (inst (fun i => { i with st := .killed }) (course [reach])).work.instsOf 0 0 0 = [] := by decide +kernel

/-- R295: a BUDGET event stands for the rill's next bundle; R281: a due reach completes. -/
theorem test_events : (after .budgetTrap base).work.me.held = [.budget] ∧
    ((after (.reachComplete 0 0 0) (quiet (reach 0 fun r => { r with nextIter := 1 }))).work.reach? 0 0 0).map (·.complete) = some true := by decide +kernel

/-! ## Flash -/

/-- A read of page `p`. -/
def pageOf (p : Nat) (st : PageState) : PageRead := ⟨p, 1, st, 0, 0, []⟩
/-- Handle 3 requested for both planes, with two pages of which the first is plane 0, these of them still to come. -/
def reading (xs : List PageRead) : State := hand 3 { rec_ 1 3 0 with split := 1, npage := 2, reads := xs }
/-- Stack 2's block `b` changed. -/
def blockd (b : Nat) (f : Block → Block) (s : State := base) : State := lift (fun w => w.modBlock 2 b f) s

/-- On whose behalf the small state's rill acts. -/
def mine : Issuer := base.work.issuer

/-- O58, reads: none due, one due in each state; a page written and one whose write fails; a plane whose pages are had; live handles; a stripe whose members
all decode and one whose do not. -/
theorem witness_FlashPages : (let due (s : State) (st : PageState) := (s.work.handle 3).reads.any fun x => x.page == 0 && x.st == st && decide (x.dueNs ≤ s.ns)
      (due base .started, due (reading [pageOf 0 .started]) .started, due base .failed, due (reading [pageOf 0 .failed]) .failed)) = (false, true, false, true) ∧
    base.work.noneHeld = true ∧ Work.PageRead.gathered base.work (pageOf 0 .failed) = true ∧
    Work.PageRead.gathered base.work { pageOf 0 .failed with members := [⟨1, some 7, 0⟩] } = false ∧
    (let w := (reading [pageOf 0 .started]).work
     (answers (engWriteMany mine .global 0x40000 (List.replicate 256 1) w), failsWith (engWriteMany mine .global 0x800000 (List.replicate 256 1) w) fun _ => true)) =
      (true, true) ∧
    (let r := (reading [pageOf 1 .queued]).work.handle 3
     r.req.getLsbD 0 && r.state == 1 && r.cancelled == 0 && r.arrived == 0 && r.reads.all fun x => r.planeOf x.page != 0) = true ∧
    (let s := hand 3 { rec_ 1 1 0 with split := 1, npage := 1 }
     let r := s.work.handle 3
     r.req == 1 && r.state == 1 && r.cancelled == 0 && r.arrived == 0 && r.reads.all fun x => r.planeOf x.page != 0) = true ∧
    (base.work.rebuild 0 0 0 [] (List.replicate 7 (some 0))).1 = true ∧ (base.work.rebuild 0 0 0 [] (none :: List.replicate 6 (some 0))).1 = false ∧
    (base.work.stack 0).inService = true := by decide +kernel

/-- O58, blocks: counts on both sides of the limits, each state of a relocation, with a fresh block and without, busy and not. -/
theorem witness_FlashPages_blocks : (base.work.block_ 2 7).st = .mapped ∧ ¬(base.work.stack 2).lim.toNat ≤ (base.work.block_ 2 7).disturb ∧
    (let w := (blockd 7 fun b => { b with disturb := 1000000 }).work; (w.stack 2).lim.toNat ≤ (w.block_ 2 7).disturb) ∧
    ¬(base.work.block_ 2 7).pec + 1000 ≤ base.work.pecMax 2 ∧ (let w := (blockd 8 fun b => { b with pec := 1000 }).work; (w.block_ 2 7).pec + 1000 ≤ w.pecMax 2) ∧
    ((blockd 7 fun b => { b with st := .queued }).work.freshBlock 2).map (·.1) = some 262144 ∧
    ((lift (fun w => w.modStack 2 fun s => { s with spare := 0 }) base).work.freshBlock 2).isNone = true ∧
    base.work.logicalOf 2 262144 = none ∧
    (let w := (blockd 7 fun b => { b with st := .copied, target := 262144 }).work
     (w.logicalOf 2 7, (w.block_ 2 7).st, (w.block_ 2 7).target)) = (some 7, .copied, 262144) ∧
    (blockd 7 fun b => { b with st := .switched }).handles = [] ∧ ((blockd 7 fun b => { b with st := .switched }).work.block_ 2 7).st = .switched ∧
    (let s := hand 3 { rec_ 1 3 0 with lpage := 1, reads := [{ pageOf 0 .started with block := 7 }] }
     s.handles.any fun e => e.2.reads.any fun y => y.st != .queued && y.block == 7 && pageStack (e.2.lpage.toNat + y.page) == 2) = true := by decide +kernel

/-- O58, HEALTH_COPY: no partition, and one alone with HHBASE at a multiple of 128. -/
theorem witness_FlashPages_health : (List.range 4).all (fun p => !(State.reset.work.part p).live) = true ∧
    (let s := parted fun p => { p with desc := p.desc ||| BitVec.ofNat 4096 (0x36000 * 2 ^ 512) }
     (s.work.part 0).live && (List.range 4).all (fun p => p == 0 || !(s.work.part p).live) && s.cores.all (fun c => c.2.upd == []) &&
       s.hostL2.all (fun h => h.dirty == 0) && (s.work.part 0).hhbase == 0x36000) = true := by decide +kernel

/-- R221, R222: a block that reaches the limit is queued; erased, it counts one erase more. -/
theorem test_blocks : ((after (.disturbLimit 2 7) (blockd 7 fun b => { b with disturb := 1000000 })).work.block_ 2 7).st = .queued ∧
    ((after (.blockErase 2 7 true) (blockd 7 fun b => { b with st := .switched })).work.block_ 2 7).pec = 1 := by decide +kernel

/-! ## Engines at work -/

/-- An entry on behalf of the small state's rill. -/
def work_ (k : EntryKind) (desc : Option (BitVec 1024) := none) : Entry := { entry k with who := base.work.issuer, desc := desc }
/-- The head of queue `q` when one entry of a kind stands there. -/
def headed (q : Nat) (k : EntryKind) : Bool := (queued q [work_ k]).work.headOf 0 q == some (work_ k)

/-- The small state while stack 0 holds its traffic. -/
def holding : State := { base with stackHeld := setNth base.stackHeld 0 (some 200000) }

/-- O59, traffic that is held: an access that waits for it and one that does not. -/
theorem witness_EngineEntries_held : base.work.noneHeld = true ∧ holding.work.noneHeld = false ∧
    [0x30000, 0].map (fun a => let v := (engRead base.work.issuer (if a = 0 then .tile else .global) (BitVec.ofNat 64 a) 8 (holding.work.modFocus fun g =>
      { g with heldRead := false, heldWrite := false, opened := [] })).2
      v.focus.heldRead || v.focus.heldWrite) = [true, false] := by decide +kernel

/-- O59, completions: no completion word; one that can be written and one that cannot. No head, and heads of each kind. -/
theorem witness_EngineEntries : (entry (.hrel 3)).cw = 0 ∧ answers (putCompletion base.work.issuer 0x30000 1 1 base.work) = true ∧
    failsWith (putCompletion base.work.issuer 0x800000 1 1 base.work) (fun _ => true) = true ∧ (List.range 8).all (fun q => (base.work.headOf 0 q).isNone) = true ∧
    headed 5 (.hreq 3 (2 ^ 48 + 2 ^ 32) 0x4000 0x100) = true ∧ headed 5 (.hrel 3) = true ∧ headed 4 (.dft true false 0x38000 0x39000) = true ∧
    headed 6 (.route 0x3A000) = true ∧ headed 6 (.rcnt 0x3A000 2) = true ∧ headed 3 (.ixCopy 0) = true := by decide +kernel

/-- O59, handles: destinations that pass and fail; EMPTY, FAULTED, LOADED, with another extent; reads that have started and have not. -/
theorem witness_EngineEntries_handles : (base.work.destCheck base.work.issuer 0x4000 1).1 = 0 ∧ (base.work.destCheck base.work.issuer 0x800000 1).1 ≠ 0 ∧
    (base.work.handle 3).state = 0 ∧ ((hand 3 (rec_ 4 1 0)).work.handle 3).state = 4 ∧
    (let r := (hand 3 { rec_ 3 1 1 with split := 1, npage := 2, dest := 0x4000 }).work.handle 3
     (r.state, r.lpage, r.npage, r.split, r.dest)) = (3, 0, 2, 1, 0x4000) ∧
    [[pageOf 0 .queued], [pageOf 0 .failed], [pageOf 0 .started], [{ pageOf 0 .failed with members := [⟨2, some 5, 7⟩] }]].map (fun xs =>
      ((reading xs).work.handle 3).reads.map PageRead.begun) = [[false], [false], [true], [true]] := by decide +kernel

/-- Transform headers: FP32 of blocks of 16 at 0x39000, half spectrum at 0x38000. -/
def transforms (src dst : Nat) : State := having 0x39000 (leBytes 8 src) (having 0x38000 (leBytes 8 dst) (queued 4 [work_ (.dft false false 0x38000 0x39000)]))

/-- O59, transforms: headers that cannot be read; that break the format, overflow the exponent, and pass. -/
theorem witness_EngineEntries_transforms : failsWith (readDftHeader base.work.issuer .global 0x800000 base.work) (fun _ => true) = true ∧
    [(0, 0), (4 * 4 + 9 * 64 + 0x7FFF * 2 ^ 32, 1 + 21 * 64), (4 * 4 + 9 * 64, 1 + 21 * 64)].map (fun x => let s := transforms x.1 x.2
      match readDftHeader base.work.issuer .global 0x39000 s.work with
      | (.ok sh, w1) => match readDftHeader base.work.issuer .global 0x38000 w1 with
        | (.ok dh, _) => if dftFormatBad false sh dh then 1 else if 32767 < dftExp false sh then 2 else 3
        | _ => 0
      | _ => 0) = [1, 2, 3] := by decide +kernel

/-- An inverse transform of one block of 16, in a tile store: from 0x2000 to 0x3000. -/
def spectrum : DftHeader := ⟨BitVec.ofNat 64 (1 + 4 * 4 + 21 * 64 + 2 ^ 16 + 2 ^ 26), 0x2000, 0x2000, false⟩
def samples : DftHeader := ⟨BitVec.ofNat 64 (9 * 64), 0x3000, 0x3000, false⟩

/-- O59, transforms at work: headers as they are kept; a source that cannot be read; one that can, with outputs that can be written and that cannot; a
header that can be written. -/
theorem witness_EngineEntries_dft :
    (let z := BitVec.ofNat 1024 (spectrum.pack + samples.pack * 2 ^ 193)
     let s := DftHeader.unpack (field z 0 193)
     let d := DftHeader.unpack (field z 193 193)
     failsWith (readTransform mine .global true { s with pay0 := 0x800000, pay1 := 0x800000 } d 0 0 base.work) (fun _ => true) &&
     decide (s.rows * s.nblk ≤ 0 + 1) &&
     match readTransform mine .tile true s d 0 0 base.work with
     | (.ok (_, outs), w) => (match writeOutputs mine .tile d.domain outs w with
         | (.ok (), w) => answers (writeDftHeader mine .tile s d true 0x1000 w)
         | _ => false) && failsWith (writeOutputs mine .tile d.domain [(0x1000000, [0, 0, 0, 0])] w) (fun _ => true)
     | _ => false) = true := by decide +kernel

/-- O59, router: fields at the ends of their ranges. -/
theorem witness_EngineEntries_router : 2 ^ 20 - 1 < 2 ^ 20 ∧ 0xFFF < 2 ^ 12 ∧ 0xFFFF < 2 ^ 16 ∧ 15 < 16 ∧
    (∃ r w1, readRoute base.work.issuer 0x3A000 base.work = (r, w1)) := ⟨by decide, by decide, by decide, by decide, pair_spec _⟩

/-- A layout of one unit a row: global space, or the tile store. -/
def lay (global : Bool) : Nat := 2 ^ 36 + 128 + if global then 2 ^ 63 else 0
/-- A copy descriptor of a KIND from `src` to `dst` with their layouts, one row. -/
def copy (kind src dst slay dlay : Nat) : BitVec 1024 := BitVec.ofNat 1024 (src + dst * 2 ^ 64 + slay * 2 ^ 128 + dlay * 2 ^ 192 + 2 ^ 256 + kind * 2 ^ 316)

/-- O59, copies: each KIND read and not read; a unit of each KIND that moves; flumes that are full and empty. -/
theorem witness_EngineEntries_copies : [0, 1, 2, 3, 4].all (fun k => base.work.copyKind (work_ (.copy false 0) (some (copy k 0 0 0 0))) == some k) = true ∧
    base.work.copyKind (work_ (.copy false 0x3B000)) = some 0 ∧ base.work.copyKind (work_ (.hrel 3)) = none ∧
    (let w := (flume 1).work
     let g := BitVec.ofNat 64 (lay true)
     (match layRead mine g 0x30000 128 false .none w with | (.ok (bs, _), w1) => answers (layWrite mine g 0x31000 bs w1) | _ => false) &&
     answers (fillRead mine ⟨0x30000, g, false, 0, 0, 0, 1, 0, true⟩ 0 .none w) &&
     [0, 1, 2].all (fun n => answersWith (Work.flumeHere mine 0x40 (flume n).work) fun f => f.count == n && f.size == 2) &&
     (match Work.flumeHere mine 0x40 w with
      | (.ok f, w1) => (w1.badUnit (f.entry f.takes) 128).isNone && answers (layRead mine g 0x30000 128 true .none w1) &&
          answers (layWrite mine g 0x31000 (w1.bytes (f.entry f.takes) 128) (w1.flumeTake f 1))
      | _ => false)) = true := by decide +kernel

/-- A member of a stripe read from stack `k`'s block 7, due at a time; a copy entry's page read in a state. -/
def member (k : Nat) (due : Option Nat) : MemberRead := ⟨k, due, 7⟩
def paging (x : PageRead) : State := queued 2 [{ work_ (.copy false 0) (some (copy 0 (2 ^ 48) 0x31000 (lay true) (lay true))) with page := ⟨[], some x⟩ }]

/-- O58: blocks in use by a read of their own page, by a reconstruction that goes on, by one that is over, by none; a member whose stack is out of service. -/
theorem witness_FlashPages_use :
    [paging { pageOf 1 .started with block := 7 }, paging { pageOf 0 .failed with members := [member 2 (some 5)] },
      paging { pageOf 0 .failed with members := [member 2 (some 0)] }, base].map (fun s => s.work.blockInUse 2 7) = [true, true, false, false] ∧
    (let s := lift (fun w => w.modStack 3 fun x => { x with inService := false }) base
     Work.PageRead.gathered s.work { pageOf 0 .failed with members := [member 3 none] } && !(s.work.stack 3).inService) = true := by decide +kernel

/-- O59: a page that is in hand and one that is not; reads of an entry that are queued, not due, due, not gathered and gathered. -/
theorem witness_EngineEntries_pages : (let hand : PageHand := ⟨[(0, [5])], none⟩
      ((hand.pages.find? fun x => x.1 == 0).isSome, (hand.pages.find? fun x => x.1 == 1).isNone)) = (true, true) ∧
    [pageOf 0 .queued, { pageOf 0 .started with dueNs := 9 }, pageOf 0 .started, { pageOf 0 .failed with members := [member 1 (some 9)] }, pageOf 0 .failed].map
      (fun x => ((paging x).work.headOf 0 2).map fun e => (e.page.read == some x, Work.PageRead.due base.work x)) =
    [some (true, false), some (true, false), some (true, true), some (true, false), some (true, true)] ∧
    (match layRead mine (BitVec.ofNat 64 (lay true)) 0x30000 128 true .none base.work with | (.ok x, _) => x.2.read.isNone | _ => false) = true ∧
    (match takePage (2 ^ 48) 128 .none base.work with | (.ok x, _) => x.2.read.isSome | _ => false) = true := by decide +kernel

/-- Group 0 of two members, both here, partitions 0 and 1: TIMEOUT 50, rows of 128 bytes, 8 of them at 0x3C000, a receive ring at 0x3D000. -/
def group : GroupEntry := BitVec.ofNat 2048 (1 + 2 ^ 8 + 50 * 2 ^ 64 + 0x3C000 * 2 ^ 128 + 8 * 2 ^ 192 + 128 * 2 ^ 224 + 0x3D000 * 2 ^ 256 +
  0xFFFFFFFF * 2 ^ 1056 + (0xFFFFFFFF * 2 ^ 32 + 1) * 2 ^ 1088)
/-- The small state with the group. -/
def grouped (s : State := base) : State := parted (fun p => { p with groups := [group] }) s
/-- Member `m`'s entry of a collective of one 32-bit element, operation `op`. -/
def arrival (m op count : Nat) : CollArrival := ⟨m, 0, 7, m, BitVec.ofNat 512 (op * 2 ^ 148 + m * 2 ^ 152 + count * 2 ^ 160 + 7 * 2 ^ 192), 0, 50, none, []⟩
/-- Arrivals at the engine. -/
def arrived (xs : List CollArrival) : State := { grouped with coll := xs.map fun x => { x with entry := some (entry (.coll 0)) } }
/-- A message sent whose entry stands at the head of queue 2. -/
def sending : State :=
  let e : Entry := { work_ (.copy true 0) (some (copy 4 0 0 0 0)) with net := some 3 }
  { queued 2 [e] with sent := [⟨3, e, 2, 1, [], [], [⟨0, [0]⟩], 1⟩] }

/-- O59, the network: a group and none; messages that are open and not; a message sent and none, at the head of its queue. -/
theorem witness_EngineEntries_network : ((base.work.part 0).group? 0).isNone = true ∧ ((grouped.work.part 0).group? 0).isSome = true ∧
    (∃ x w1, grouped.work.openRx 0 0 1 4 = (x, w1)) ∧
    (let x := grouped.work.openRx 0 0 1 4
     (((x.2.modRx x.1 fun y => { y with entries := y.entries ++ [1], base := some 1 }).rx? 0 0 1 4).map (·.entries)) = some [1]) ∧
    (base.sent.find? fun m => m.id == 3).isNone = true ∧ (sending.sent.find? fun m => m.id == 3).map (fun m => (m.queue, m.entry.who.core)) = some (2, 0) ∧
    (sending.work.headOf 0 2).map (·.net) = some (some 3) :=
  ⟨by decide +kernel, by decide +kernel, pair_spec _, by decide +kernel, by decide +kernel, by decide +kernel, by decide +kernel⟩

/-- O59, collectives: nobody there, one member of two, both, of each operation, of different shapes; elements to add. -/
theorem witness_EngineEntries_collectives : (base.work.collReady 0 0 7).isNone = true ∧ grouped.work.collOf 0 0 7 = [] ∧
    (let s := arrived [arrival 0 0 1]
     (s.work.collReady 0 0 7).isNone && (s.work.collOf 0 0 7).map (fun x => (x.member, x.limit)) == [(0, 50)]) = true ∧
    [0, 1, 2].all (fun op => ((arrived [arrival 0 op 1, arrival 1 op 1]).work.collReady 0 0 7).any fun xs =>
      xs.all fun x => CollDesc.op x.desc == op && CollDesc.shape x.desc == (op, 0, 0, 1)) = true ∧
    ((arrived [arrival 0 0 1, arrival 1 0 2]).work.collReady 0 0 7).map (fun xs => xs.map fun x => CollDesc.count x.desc) = some [1, 2] ∧
    (let d : CollDesc := (arrival 0 0 1).desc
     d.type < 2 ∧ d.red = 0 ∧ ([1, 2, 3, 4] : List Byte).length = d.count * d.size ∧ 0 < d.count) := by decide +kernel

/-- The LINEAR copy of a unit from 0x30000 to 0x31000 at the head of queue 2. -/
def linear : State := having 0x30000 [9] (queued 2 [work_ (.copy false 0) (some (copy 0 0x30000 0x31000 (lay true) (lay true)))])

/-- O59, the router: CONS can be read again. -/
theorem witness_EngineEntries_cons : answers (engRead base.work.issuer .global (0x3B000 + 20#64) 4 base.work) = true ∧
    answers (engPlace base.work.issuer .global (0x3B000 + 20#64) .read base.work) = true := by decide +kernel

/-- R396: its unit lands at its destination, and the entry is over. -/
theorem test_copy : (after (.copyLinear 2) linear).work.byte 0x31000 = 9 ∧ ((after (.copyLinear 2) linear).work.headOf 0 2).isNone = true := by decide +kernel

/-! ## Hosts, power and failures -/

/-- Partition 0 with an owner. -/
def owned (o : Option Nat) (busy : Bool := false) : State := parted fun p => { p with owner := o, busy := busy }

/-- O60, commands: a hub that is up and not; blocks with no owner, another's, one's own, busy and not; live partitions, stopped ones and none; descriptor
addresses that are aligned and not, descriptors that are bad. -/
theorem witness_PartitionsPower : base.booted = true ∧ ({ base with booted := false } : State).booted = false ∧ ((owned none).work.part 0).owner = none ∧
    ((owned (some 1)).work.part 0).owner = some 1 ∧ 1 ≠ 0 % 2 ∧ ((owned (some 0) true).work.part 0).busy = true ∧ ((owned (some 0)).work.part 0).busy = false ∧
    (base.work.part 0).live = true ∧ ((base.work.part 1).live, (base.work.part 1).stopped) = (false, false) ∧ (1#64).toNat % 64 ≠ 0 ∧ Work.descBad 0 = true ∧
    Memory.wf base.mem = true ∧ base.insts.map (·.id) = [1] ∧ (base.work.part 0).swapen = false ∧
    (List.range 4).map (fun k => ((owned (some 0) true).work.part k).busy) = [true, false, false, false] ∧
    ((parted fun p => { p with desc := p.desc ||| 2 ^ 672 }).work.part 0).swapen = true ∧ base.power = true := by decide +kernel

/-- O60: a command that waits for the block, one for another, none; a hub that runs a command; a unit armed on the samples' source; a mailbox that answers. -/
theorem witness_PartitionsPower_waiting :
    [[Instr.remapPart 0 0], [.remapPart 1 0], []].map (fun cs => (({ owned (some 0) with commands := cs } : State).work.commands.any (Work.commandOn 0 0), cs.isEmpty)) =
      [(true, false), (false, false), (false, true)] ∧
    ((lift (fun w => w.modMonitor 3 fun m => { m with cfg := 0x105 }) base).work.monitor 3).takes 3 5 0 = true ∧ (base.work.monitor 3).takes 3 5 0 = false ∧
    base.booted = true ∧ ({ base with booted := false } : State).booted = false := by decide +kernel

/-- O60: a port that may not write the block; a command held back, and one that is not. -/
theorem witness_PartitionsPower_held : ((owned (some 1)).work.mayWrite 0 0, (owned none).work.mayWrite 0 0) = (false, true) ∧
    (let go (w : Work) : Work := w.modFocus fun g => { g with heldRead := true }
     ((holding.work.tryHeld go).1, (holding.work.tryHeld id).1, (base.work.tryHeld go).1)) = (false, true, true) := by decide +kernel

/-- R307, R309: a port's second command on a block whose first still waits reports BUSY; of another block it waits behind it. -/
theorem test_waiting : (let s : State := { owned (some 0) with commands := [.remapPart 0 0] }
    (((after (.remapPart 0 0) s).work.part 0).sts, (after (.remapPart 1 0) s).commands.length)) = (2 ^ 63 + 1, 2) := by decide +kernel

/-- Words of 8 bytes in memory, none of them 0, at rising addresses. -/
def words (xs : List (Nat × Nat)) (s : State) : State := xs.foldl (fun s x => having x.1 (leBytes 8 x.2) s) s
/-- No partition yet; a host's descriptor at address 64 of port 0's host: cluster 8, tables at 0x40000 that map 1 GiB, reach queue 0 at 0x31000, a boot course at
0x30000. -/
def creating : State :=
  words [(2 ^ 51 + 64, 2 ^ 8), (2 ^ 51 + 72, 0x40000), (2 ^ 51 + 112, 0x31000), (2 ^ 51 + 512, 0x30000), (0x40000, 0x41001), (0x41000, 0x42001), (0x42000, 0x3F),
    (0x31000, 0x32000), (0x31008, 1)]
    { base with insts := [], parts := setNth (setNth base.parts 0 .absent) 1 { Partition.absent with daddr := setNth Partition.absent.daddr 0 64 } }

/-- O60, CREATE succeeds there. -/
theorem witness_PartitionsPower_create : (creating.work.create 1 0).1 = 0 ∧ ((creating.work.create 1 0).2.part 1).live = true := by decide +kernel

/-- O60, registers, power, cooling: sizes and offsets at the ends of their ranges; temperatures and powers on each side. -/
theorem witness_PartitionsPower_registers : ([1] : List Byte).length ≠ 4 ∧ ([1, 2, 3, 4] : List Byte).length = 4 ∧ 0x82 % 4 ≠ 0 ∧ 0x80 % 8 = 0 ∧ 0x9C < 0xA0 ∧
    base.powerDue ≤ ({ base with ns := 100000 } : State).ns ∧ base.ns < ({ base with powerDue := 200000 } : State).powerDue ∧ base.work.mayWrite 0 1 = false ∧ base.work.mayWrite 0 0 = true ∧ ({ base with power := false } : State).power = false ∧
    nth base.channelFails 3 = 0 ∧ nth ({ base with channelFails := setNth base.channelFails 3 1 } : State).channelFails 3 ≠ 0 ∧
    (∃ r, r < 4 ∧ nth base.railsUp r = true) ∧ (base.work.core 0).enabled = true ∧
    (lift (fun w => w.modCore 0 fun c => { c with enabled := false }) base |>.work.core 0).enabled = false ∧ (base.work.core 0).spareDue = none ∧
    (lift (fun w => w.modCore 0 fun c => { c with spareDue := some 5 }) base |>.work.core 0).spareDue = some 5 ∧
    (inst fun i => { i with st := .freezing }).insts.map (fun i => (i.st, i.cores)) = [(.freezing, [0])] ∧
    base.insts.map (fun i => i.st) = [.running] := by
  refine ⟨by decide, by decide, by decide, by decide, by decide, by decide +kernel, by decide +kernel, by decide +kernel, by decide +kernel, by decide +kernel, by decide +kernel, by decide +kernel,
    ⟨0, by decide, by decide +kernel⟩, by decide +kernel, by decide +kernel, by decide +kernel, by decide +kernel, by decide +kernel, by decide +kernel⟩

/-- R307: while a swap of another partition goes on, a command waits. R313: nine cells of one rail go in two packets. -/
theorem test_commands : (after (.remapPart 1 0) (owned (some 0) true)).commands = [.remapPart 1 0] ∧
    (Work.packetsOf ((List.range 9).map fun c => (c, 2))).map (fun k => (k.rail, k.cells.length)) = [(2, 8), (2, 1)] := by decide +kernel

/-- R308, R309: CREATE on that block answers OK; R317: a sample of 5 falls into bin 3. -/
theorem test_create : ((after (.createPart 1 0) creating).work.part 1).sts = 2 ^ 63 ∧ nth (Monitor.reset.take 5).hist 3 = 1 := by decide +kernel

end Sys2Proof.Tests
end

section
/-! PROOFS. Memory (00_scope R2, R16, R20): the refutation of O44, and what holds of memory where no write of the step's log lists more bytes
than it covers, which is every log that `Work.write` and `Work.wipe` make. -/
namespace Sys2Proof.Machine

/-! ## Where the step's view and the applied log part -/

/-- A step's work whose log holds a chunk of length 0 with one byte: `Work.byte` looks within the chunk's length alone, `Memory.put` writes every
byte listed. -/
def overlongWork : Work := { State.reset.work with log := [⟨0, 0, [1#8]⟩] }

/-- Refutes O44: its work is any work, and of a log chunk that lists more bytes than its length, here one byte at key 0 with length 0, the step
reads 0 while the applied log holds 1. No operation of the model makes such a chunk; `memoryReadsBack_of_logFits` is the statement without it. -/
theorem not_memoryReadsBack : ¬ Obligations.MemoryReadsBack := by
  unfold Obligations.MemoryReadsBack
  intro h
  obtain ⟨-, -, -, hbyte, -⟩ := h overlongWork 0 [] (by decide)
  have seen : overlongWork.byte 0 = 0#8 := by decide
  have applied : (applyLog overlongWork.base overlongWork.log).get 0 = 1#8 := by decide
  exact absurd (seen.symm.trans ((hbyte 0).trans applied)) (by decide)

/-! ## Logs that fit -/

namespace Work

/-- No chunk of the log lists more bytes than it covers. -/
def LogFits (w : Work) : Prop := ∀ c ∈ w.log, c.data.length ≤ c.len

theorem logFits_work (s : State) : s.work.LogFits := fun _ hc => absurd hc List.not_mem_nil

theorem LogFits.write {w : Work} (h : w.LogFits) (k : Nat) (bs : List Byte) : (w.write k bs).LogFits := by
  unfold LogFits
  rw [write_log]
  exact List.forall_mem_cons.mpr ⟨le_rfl, h⟩

theorem LogFits.wipe {w : Work} (h : w.LogFits) (k n : Nat) : (w.wipe k n).LogFits :=
  List.forall_mem_cons.mpr ⟨Nat.zero_le n, h⟩

/-! ## Reading in a step -/

/-- The newest chunk answers for the keys it covers, the work without it for the rest. -/
theorem byte_of_log_cons {w v : Work} {c : Chunk} (hb : w.base = v.base) (hl : w.log = c :: v.log) (a : Nat) :
    w.byte a = if c.key ≤ a ∧ a < c.key + c.len then c.data.getD (a - c.key) 0#8 else v.byte a := by
  unfold byte
  rw [hb, hl, List.find?_cons]
  by_cases hc : c.key ≤ a ∧ a < c.key + c.len
  · simp [hc]
  · rw [if_neg hc, show (decide (c.key ≤ a) && decide (a < c.key + c.len)) = false by simpa using hc]

theorem byte_write (w : Work) (k : Nat) (bs : List Byte) (a : Nat) :
    (w.write k bs).byte a = if k ≤ a ∧ a < k + bs.length then bs.getD (a - k) 0#8 else w.byte a :=
  byte_of_log_cons (w.write_base k bs) (w.write_log k bs) a

/-- Dropping what a search passes over leaves what it finds. -/
theorem find?_filter_of_imp {α : Type} {p q : α → Bool} (h : ∀ x, q x = true → p x = true) (l : List α) : (l.filter p).find? q = l.find? q := by
  rw [List.find?_filter]
  congr 1
  funext x
  rw [Bool.eq_iff_iff, decide_eq_true_eq]
  exact and_iff_right_of_imp (h x)

/-- Narrowing the base and the log to a range leaves its bytes to be read. -/
theorem bytes_eq_map_byte (w : Work) (k n : Nat) : w.bytes k n = (List.range n).map fun i => w.byte (k + i) := by
  refine List.map_congr_left fun i hi => ?_
  have hi : i < n := List.mem_range.mp hi
  unfold byte Memory.get
  rw [find?_filter_of_imp fun c hc => ?chunk, find?_filter_of_imp fun c hc => ?cell]
  all_goals simp only [Bool.and_eq_true, decide_eq_true_eq, beq_iff_eq] at hc ⊢; omega

/-- Bytes written read back. -/
theorem bytes_write_same (w : Work) (k : Nat) (bs : List Byte) : (w.write k bs).bytes k bs.length = bs := by
  rw [bytes_eq_map_byte]
  refine List.ext_getElem (by simp) fun i hi _ => ?_
  have hi : i < bs.length := by simpa using hi
  simp [byte_write, hi]

/-- Bytes apart from those written are as they were. -/
theorem bytes_write_disjoint (w : Work) {k a n : Nat} {bs : List Byte} (h : a + n ≤ k ∨ k + bs.length ≤ a) :
    (w.write k bs).bytes a n = w.bytes a n := by
  rw [bytes_eq_map_byte, bytes_eq_map_byte]
  refine List.map_congr_left fun i hi => ?_
  have hi : i < n := List.mem_range.mp hi
  rw [byte_write, if_neg (by omega)]

/-- Memory after a write is applied: its bytes, and elsewhere what the log before it leaves. -/
theorem get_applyLog_write (w : Work) {m : Memory} (h : Memory.wf m = true) (k : Nat) (bs : List Byte) (a : Nat) :
    (applyLog m (w.write k bs).log).get a = if k ≤ a ∧ a < k + bs.length then bs.getD (a - k) 0#8 else (applyLog m w.log).get a := by
  rw [write_log, applyLog, Memory.get_put (applyLog_wf h w.log), max_self]

/-- Where the log fits, a step reads what its log leaves in memory. -/
theorem byte_eq_get_applyLog {w : Work} (hb : Memory.wf w.base = true) (hf : w.LogFits) (a : Nat) :
    w.byte a = (applyLog w.base w.log).get a := by
  obtain ⟨chip, m, cs⟩ := w
  induction cs with
  | nil => rfl
  | cons c cs ih =>
    obtain ⟨hc, hcs⟩ := List.forall_mem_cons.mp hf
    have seen := byte_of_log_cons (w := ⟨chip, m, c :: cs⟩) (v := ⟨chip, m, cs⟩) rfl rfl a
    have applied := Memory.get_put (applyLog_wf hb cs) c.key c.len c.data a
    rw [max_eq_left hc] at applied
    rw [ih hb hcs] at seen
    exact seen.trans applied.symm

end Work

/-! ## Byte order (R2) -/

theorem leBytes_getElem? : ∀ {n j : Nat} (x : Nat), j < n → (leBytes n x)[j]? = some (BitVec.ofNat 8 (x / 256 ^ j))
  | n + 1, 0, x, _ => by simp [leBytes]
  | n + 1, j + 1, x, h => by
    rw [leBytes, List.getElem?_cons_succ, leBytes_getElem? (x / 256) (Nat.lt_of_succ_lt_succ h), Nat.div_div_eq_div_mul, pow_succ' 256]

/-- Byte `j` of a bit vector's bytes is its bits `8 j` to `8 j + 7`. -/
theorem leBytes_toNat_getElem? {m n j : Nat} (v : BitVec m) (h : j < n) : (leBytes n v.toNat)[j]? = some (field v (8 * j) 8) := by
  rw [leBytes_getElem? _ h, show 256 = 2 ^ 8 from rfl, ← pow_mul, ← Nat.shiftRight_eq_div_pow]
  rfl

theorem ofNat_leNat_leBytes {m n : Nat} (hm : m = 8 * n) (v : BitVec m) : BitVec.ofNat m (leNat (leBytes n v.toNat)) = v := by
  subst hm
  have width : 256 ^ n = 2 ^ (8 * n) := by rw [pow_mul]; rfl
  rw [leNat_leBytes, width, Nat.mod_eq_of_lt v.isLt, BitVec.ofNat_toNat, BitVec.setWidth_eq]

@[simp] theorem wordOf_leBytes (x : Word) : wordOf (leBytes 8 x.toNat) = x := by
  rw [wordOf, ofNat_leNat_leBytes (n := 8) rfl]

@[simp] theorem lineOf_lineBytes (l : Line) : lineOf (lineBytes l) = l := by
  rw [lineOf, lineBytes, ofNat_leNat_leBytes (n := 128) rfl]

/-! ## Keys: each place has its own, each region its own range (R16, R20) -/

theorem tileKey_inj {c d o p : Nat} (ho : o < 2 ^ 21) (hp : p < 2 ^ 21) (h : tileKey c o = tileKey d p) : c = d ∧ o = p := by
  simp only [tileKey] at h; omega

theorem tileKey_range {c o : Nat} (hc : c < 128) (ho : o < 2 ^ 21) : 2 ^ 52 ≤ tileKey c o ∧ tileKey c o < 2 ^ 53 := by
  simp only [tileKey]; omega

theorem bplaneKey_inj {c d x y u v i j : Nat} (hx : x < 256) (hy : y < 256) (hu : u < 256) (hv : v < 256) (hi : i < 64) (hj : j < 64)
    (h : bplaneKey c x u i = bplaneKey d y v j) : c = d ∧ x = y ∧ u = v ∧ i = j := by
  simp only [bplaneKey] at h; omega

theorem bplaneKey_range {c x u i : Nat} (hc : c < 128) (hx : x < 256) (hu : u < 256) (hi : i < 64) :
    2 ^ 53 ≤ bplaneKey c x u i ∧ bplaneKey c x u i < 2 ^ 54 := by
  simp only [bplaneKey]; omega

theorem accKey_inj {c d r x i j : Nat} (hr : r < 1024) (hx : x < 1024) (hi : i < 1024) (hj : j < 1024) (h : accKey c r i = accKey d x j) :
    c = d ∧ r = x ∧ i = j := by
  simp only [accKey] at h; omega

theorem accKey_range {c r i : Nat} (hc : c < 128) (hr : r < 1024) (hi : i < 1024) : 2 ^ 54 ≤ accKey c r i ∧ accKey c r i < 2 ^ 55 := by
  simp only [accKey]; omega

theorem privKey_inj {c d o p : Nat} {f g : Bool} (ho : o < 2 ^ 17) (hp : p < 2 ^ 17) (h : privKey c f o = privKey d g p) : c = d ∧ f = g ∧ o = p := by
  have hf := f.toNat_lt
  have hg := g.toNat_lt
  simp only [privKey] at h
  exact ⟨by omega, Function.LeftInverse.injective Bool.ofNat_toNat (by omega), by omega⟩

theorem privKey_range {c o : Nat} (f : Bool) (hc : c < 128) (ho : o < 2 ^ 17) : 2 ^ 55 ≤ privKey c f o ∧ privKey c f o < 2 ^ 56 := by
  have hf := f.toNat_lt
  simp only [privKey]; omega

theorem lt_of_isReservedPa_eq_false {pa : Nat} (h : isReservedPa pa = false) : pa < 2 ^ 52 := by
  simp only [isReservedPa, isHbm, isFlash, isHost, Bool.not_eq_false', Bool.or_eq_true, Bool.and_eq_true, decide_eq_true_eq] at h
  omega

/-! ## The statement of O44, of logs that fit -/

/-- O44's statement with the hypothesis it lacks. -/
theorem memoryReadsBack_of_logFits (w : Work) (k : Nat) (bs : List Byte) (hb : Memory.wf w.base = true) (hf : w.LogFits) :
    (w.write k bs).bytes k bs.length = bs ∧
    (∀ a n, a + n ≤ k ∨ k + bs.length ≤ a → (w.write k bs).bytes a n = w.bytes a n) ∧
    (∀ a, (applyLog w.base (w.write k bs).log).get a = if k ≤ a ∧ a < k + bs.length then bs.getD (a - k) 0 else (applyLog w.base w.log).get a) ∧
    (∀ a, w.byte a = (applyLog w.base w.log).get a) ∧
    (∀ x : Word, wordOf (leBytes 8 x.toNat) = x ∧ (leBytes 8 x.toNat).length = 8 ∧ ∀ j, j < 8 → (leBytes 8 x.toNat)[j]? = some (field x (8 * j) 8)) ∧
    (∀ l : Line, lineOf (lineBytes l) = l) ∧
    (∀ c d o p, c < 128 → d < 128 → o < 2 ^ 21 → p < 2 ^ 21 → (tileKey c o = tileKey d p → c = d ∧ o = p) ∧ 2 ^ 52 ≤ tileKey c o ∧ tileKey c o < 2 ^ 53) ∧
    (∀ c d x y u v i j, c < 128 → d < 128 → x < 256 → y < 256 → u < 256 → v < 256 → i < 64 → j < 64 →
      (bplaneKey c x u i = bplaneKey d y v j → c = d ∧ x = y ∧ u = v ∧ i = j) ∧ 2 ^ 53 ≤ bplaneKey c x u i ∧ bplaneKey c x u i < 2 ^ 54) ∧
    (∀ c d r x i j, c < 128 → d < 128 → r < 1024 → x < 1024 → i < 1024 → j < 1024 →
      (accKey c r i = accKey d x j → c = d ∧ r = x ∧ i = j) ∧ 2 ^ 54 ≤ accKey c r i ∧ accKey c r i < 2 ^ 55) ∧
    (∀ c d (f g : Bool) o p, c < 128 → d < 128 → o < 2 ^ 17 → p < 2 ^ 17 →
      (privKey c f o = privKey d g p → c = d ∧ f = g ∧ o = p) ∧ 2 ^ 55 ≤ privKey c f o ∧ privKey c f o < 2 ^ 56) ∧
    ∀ pa, isReservedPa pa = false → pa < 2 ^ 52 := by
  refine ⟨w.bytes_write_same k bs, fun _ _ => w.bytes_write_disjoint, w.get_applyLog_write hb k bs, Work.byte_eq_get_applyLog hb hf, ?words, lineOf_lineBytes,
    ?tile, ?bplane, ?acc, ?priv, fun _ => lt_of_isReservedPa_eq_false⟩
  case words => exact fun x => ⟨wordOf_leBytes x, leBytes_length 8 _, fun _ => leBytes_toNat_getElem? x⟩
  case tile => exact fun _ _ _ _ hc _ ho hp => ⟨tileKey_inj ho hp, tileKey_range hc ho⟩
  case bplane =>
    exact fun _ _ _ _ _ _ _ _ hc _ hx hy hu hv hi hj => ⟨bplaneKey_inj hx hy hu hv hi hj, bplaneKey_range hc hx hu hi⟩
  case acc => exact fun _ _ _ _ _ _ hc _ hr hx hi hj => ⟨accKey_inj hr hx hi hj, accKey_range hc hr hi⟩
  case priv => exact fun _ _ f _ _ _ hc _ ho hp => ⟨privKey_inj ho hp, privKey_range f hc ho⟩

/-- A step's work that wrote two bytes, one over a byte that memory held, and set one of them to 0 again. -/
def fittingWork : Work := (({ State.reset with mem := [(4, 7)] } : State).work.write 4 [1, 2]).wipe 5 1

theorem logFits_fittingWork : fittingWork.LogFits := ((Work.logFits_work _).write 4 [1, 2]).wipe 5 1

/-- The hypotheses of `memoryReadsBack_of_logFits` are met there. -/
theorem witness_memoryReadsBack_of_logFits : (fittingWork.write 5 [3]).bytes 5 1 = [3] ∧ (applyLog fittingWork.base fittingWork.log).get 4 = 1#8 := by
  obtain ⟨same, -, -, hbyte, -⟩ := memoryReadsBack_of_logFits fittingWork 5 [3] (by decide) logFits_fittingWork
  exact ⟨same, (hbyte 4).symm.trans (by decide)⟩

end Sys2Proof.Machine
end

section
/-! PROOFS. The order of steps (log entry 35): what one step performs, by what stands next. -/
namespace Sys2Proof.Machine

/-! ## What a step performs -/

section
variable {s : State}

theorem stepOnce_of_pending {t : Todo} {rest : List Todo} (hp : s.pending = t :: rest) :
    stepOnce s = holdBack { s with pending := rest, postponed := s.postponed ++ [t] } (performTodo t { s with pending := rest }) := by
  unfold stepOnce
  split
  · rename_i x xs e
    obtain ⟨rfl, rfl⟩ := List.cons.inj (e.symm.trans hp)
    rfl
  · rename_i e
    exact absurd (e.symm.trans hp) nofun

section
variable (hp : s.pending = [])
include hp

theorem stepOnce_of_dark (hw : s.power = false) (hi : s.inputs = []) : stepOnce s = .fault .poweredOff := by
  unfold stepOnce
  split
  · rename_i e
    exact absurd (hp.symm.trans e) nofun
  · rw [hw, hi]
    rfl

theorem stepOnce_of_darkInput (hw : s.power = false) {x : Nat × Input} {xs : List (Nat × Input)} (hi : s.inputs = x :: xs) :
    stepOnce s = .next (lift (fun w => w.dark x.1 x.2) s) := by
  unfold stepOnce
  split
  · rename_i e
    exact absurd (hp.symm.trans e) nofun
  · rw [hw, hi]
    rfl

theorem stepOnce_of_turn (hw : s.power = true) {a : Agent} {rest : List Agent} (ht : s.turn = a :: rest) :
    stepOnce s = holdBack { s with turn := rest } (agentTurn a { s with turn := rest }) := by
  unfold stepOnce
  split
  · rename_i e
    exact absurd (hp.symm.trans e) nofun
  · rw [hw, if_neg (by decide)]
    split
    · rename_i e
      obtain ⟨rfl, rfl⟩ := List.cons.inj (e.symm.trans ht)
      rfl
    · rename_i e
      exact absurd (e.symm.trans ht) nofun

theorem stepOnce_of_idle (hw : s.power = true) (ht : s.turn = []) :
    stepOnce s = .next (lift (if s.swept then Work.advance else Work.sweep) s) := by
  unfold stepOnce
  split
  · rename_i e
    exact absurd (hp.symm.trans e) nofun
  · rw [hw, if_neg (by decide)]
    split
    · rename_i e
      exact absurd (ht.symm.trans e) nofun
    · split <;> rfl

end
end

/-! ## What is held back, and the turn of a helper core -/

theorem holdBack_next_of_held {s t : State} (hs : s.work.noneHeld = false) (ht : t.work.heldNow = true) : holdBack s (.next t) = .next s := by
  simp [holdBack, hs, ht]

theorem holdBack_next_of_not_held {s t : State} (ht : t.work.heldNow = false) : holdBack s (.next t) = .next t := by
  simp [holdBack, ht]

theorem heldNow_eq_false {w : Work} (hr : w.focus.heldRead = false) (hw : w.focus.heldWrite = false) : w.heldNow = false := by
  simp [Work.heldNow, hr, hw]

theorem heldNow_eq_true {w : Work} (h : w.focus.heldRead = true ∨ w.focus.heldWrite = true) : w.heldNow = true := by
  rcases h with h | h <;> simp [Work.heldNow, h]

/-- The turn of a helper core that runs for a running instance is the instruction it fetches. -/
theorem helperTurn_of_running {s : State} {n : Nat} {o : Bool} {i : Inst} (hh : (s.work.helper n o).st = .running)
    (hi : s.work.inst? (s.work.helper n o).inst = some i) (hr : i.st = .running) :
    helperTurn n o s = exec (s.work.helperFetch n o) (lift (fun w => w.aim n o.toNat) s) := by
  unfold helperTurn
  dsimp only
  rw [hi]
  exact if_neg (by simp [hh, hr])

theorem agentTurn_helper (n : Nat) (o : Bool) (s : State) : agentTurn (if o then .outfall n else .intake n) s = helperTurn n o s := by
  cases o <;> rfl

/-- Settles O34: the branches of `stepOnce` for a step that stands, a helper core's turn and no power, with what `holdBack` does in each. -/
theorem stepPerformsPending : Obligations.StepPerformsPending := by
  intro s rest
  refine ⟨fun t hp => ⟨fun hf => ?free, fun u hu hf => ⟨fun hr hw => ?goes, fun hh => ?held⟩⟩, fun n o more i hp hw ht hh hi hr t he hf => ?helper,
    fun hp hw hi => ?dark⟩
  case free =>
    rw [step, stepOnce_of_pending hp, holdBack_free (s := { s with pending := rest, postponed := s.postponed ++ [t] }) _ hf]
    rfl
  case goes =>
    rw [step, stepOnce_of_pending hp, performTodo, hu, holdBack_next_of_not_held (heldNow_eq_false hr hw), andThen]
  case held =>
    rw [step, stepOnce_of_pending hp, performTodo, hu, holdBack_next_of_held (s := { s with pending := rest, postponed := s.postponed ++ [t] }) hf (heldNow_eq_true hh), andThen]
  case helper =>
    have turn : agentTurn (if o then .outfall n else .intake n) { s with turn := more } = .next t := by
      rw [agentTurn_helper]
      exact (helperTurn_of_running (s := { s with turn := more }) hh hi hr).trans he
    rw [step, stepOnce_of_turn hp hw ht, turn]
    rcases hf with hf | ⟨hr, hw⟩
    · rw [holdBack_free (s := { s with turn := more }) _ hf, andThen]
    · rw [holdBack_next_of_not_held (heldNow_eq_false hr hw), andThen]
  case dark =>
    rw [step, stepOnce_of_dark hp hw hi, andThen]

end Sys2Proof.Machine
end

section
/-! PROOFS. Memory's canonical form along steps (00_scope R16, R20): each part of a step that goes on from a state of canonical memory leaves one. -/
namespace Sys2Proof.Machine

/-! ## Outcomes whose state has canonical memory -/

/-- Where the outcome goes on, memory is in its canonical form. -/
def KeepsInv : Host.Outcome State Fault Refusal → Prop
  | .next t => t.Inv
  | .fault _ => True
  | .refused _ => True

theorem keepsInv_next {t : State} (h : t.Inv) : KeepsInv (.next t) := h

theorem keepsInv_andThen {o : Host.Outcome State Fault Refusal} {f : State → Host.Outcome State Fault Refusal} (ho : KeepsInv o)
    (hf : ∀ t : State, t.Inv → KeepsInv (f t)) : KeepsInv (andThen o f) := by
  cases o with
  | next t => exact hf t ho
  | fault r => exact trivial
  | refused r => exact trivial

theorem keepsInv_ite {p : Prop} [Decidable p] {o u : Host.Outcome State Fault Refusal} (ho : KeepsInv o) (hu : KeepsInv u) :
    KeepsInv (if p then o else u) := by
  split
  · exact ho
  · exact hu

/-! ## The parts of a step -/

section
variable {s : State} (h : s.Inv)
include h

theorem lift_inv (f : Work → Work) : (lift f s).Inv := lift_wf f h

theorem ask_inv {α : Type} (f : Work → α × Work) : (s.ask f).2.Inv := applyLog_wf h _

theorem keepsInv_lift (f : Work → Work) : KeepsInv (.next (lift f s)) := keepsInv_next (lift_inv h f)

theorem exec_keepsInv (i : Instr) : KeepsInv (exec i s) := by
  obtain ⟨f, hf⟩ := exec_lift i s
  rw [hf]
  exact keepsInv_lift h f

theorem runOne_keepsInv (v : SlotView) (i : Instr) : KeepsInv (runOne v i s) := exec_keepsInv (lift_inv h _) i

theorem ownerBundle_keepsInv (owner : Bool) : KeepsInv (ownerBundle owner s) :=
  keepsInv_ite (keepsInv_andThen (exec_keepsInv h _) fun _ ht => exec_keepsInv ht _) (keepsInv_next h)

omit h in
theorem runSlots_keepsInv (id : Nat) : ∀ (is : List (SlotView × Instr)) {s : State}, s.Inv → KeepsInv (runSlots id is s)
  | [], _, h => keepsInv_next h
  | (v, i) :: rest, _, h =>
    keepsInv_ite (keepsInv_next h) (keepsInv_andThen (runOne_keepsInv h v i) fun _ ht => runSlots_keepsInv id rest ht)

theorem runBundle_keepsInv (b : Bundle) (idle : Bool) (vs : List SlotView) : KeepsInv (runBundle b idle vs s) := by
  have slots (id : Nat) (rft : Bool) (owner : Bool) (is : List (SlotView × Instr)) {t : State} (ht : t.Inv) :
      KeepsInv (andThen (ownerBundle owner t) fun u => andThen (runSlots id is u) fun x => .next (lift (fun w => w.finishBundle id rft) x)) :=
    keepsInv_andThen (ownerBundle_keepsInv ht owner) fun _ hu =>
      keepsInv_andThen (runSlots_keepsInv id is hu) fun _ hx => keepsInv_lift hx _
  unfold runBundle
  extract_lets id is rft owner s1 again finish go
  have h1 : s1.Inv := lift_inv h _
  have hgo : ∀ t : State, t.Inv → KeepsInv (go t) := by
    intro t ht
    dsimp only [go]
    cases is with
    | cons x rest =>
      exact keepsInv_ite (keepsInv_andThen (runOne_keepsInv ht _ _) fun u hu => keepsInv_ite (keepsInv_lift hu _) (slots _ _ _ _ hu))
        (slots _ _ _ _ ht)
    | nil => exact keepsInv_andThen (ownerBundle_keepsInv ht _) fun u hu => keepsInv_lift hu _
  split
  · refine keepsInv_andThen (ownerBundle_keepsInv h1 owner) fun t ht => ?_
    split
    · exact keepsInv_andThen (exec_keepsInv ht _) fun u hu => keepsInv_lift hu _
    · exact keepsInv_lift ht _
  · split
    · exact keepsInv_andThen (exec_keepsInv (lift_inv h1 _) _) fun t ht => keepsInv_ite (keepsInv_lift ht _) (hgo _ h1)
    · exact hgo _ h1

theorem runMicro_keepsInv : KeepsInv (runMicro s) := by
  unfold runMicro
  extract_lets c id finish
  split
  · split
    · exact keepsInv_lift h _
    · refine keepsInv_ite (keepsInv_lift h _) (keepsInv_andThen (exec_keepsInv (lift_inv h _) _) fun t ht => ?_)
      exact keepsInv_ite (keepsInv_next ht) (keepsInv_lift ht _)
  · exact keepsInv_lift (lift_inv h _) _

/-- Presenting the bundle at the program counter, or running what RFT left in its place. -/
theorem presentBundle_keepsInv (micro : Bool) : KeepsInv (if micro then runMicro s else
    match s.ask Work.prepare with
    | (.stop, t) => .next t
    | (.bundle b idle vs, t) => runBundle b idle vs t) := by
  refine keepsInv_ite (runMicro_keepsInv h) ?_
  have ht := ask_inv h Work.prepare
  revert ht
  obtain ⟨p, t⟩ := s.ask Work.prepare
  intro ht
  cases p with
  | stop => exact keepsInv_next ht
  | bundle b idle vs => exact runBundle_keepsInv ht b idle vs

theorem present_keepsInv : KeepsInv (present s) := by
  unfold present
  extract_lets c s1
  refine keepsInv_ite (keepsInv_next h) ?_
  have h1 : s1.Inv := by
    dsimp only [s1]
    split
    · exact lift_inv h _
    · exact h
  cases c.held with
  | nil => exact presentBundle_keepsInv h1 _
  | cons e rest =>
    have h2 := ask_inv h1 fun w => let (b, v) := w.frameBusy; (b, w.alsoHeld v)
    revert h2
    dsimp only
    generalize s1.ask _ = r
    obtain ⟨busy, s2⟩ := r
    intro h2
    exact keepsInv_ite (presentBundle_keepsInv h2 _) (keepsInv_lift h2 _)

theorem coreTurn_keepsInv (n : Nat) : KeepsInv (coreTurn n s) := by
  unfold coreTurn
  extract_lets w c x
  refine keepsInv_ite (exec_keepsInv (lift_inv h _) _) (keepsInv_ite (keepsInv_next h) (keepsInv_ite ?stays ?leaves))
  case stays => exact keepsInv_ite (present_keepsInv (lift_inv h _)) (keepsInv_next h)
  case leaves =>
    split
    · exact keepsInv_next h
    · exact exec_keepsInv (lift_inv h _) _

theorem helperTurn_keepsInv (n : Nat) (outfall : Bool) : KeepsInv (helperTurn n outfall s) := by
  unfold helperTurn
  extract_lets w x
  split
  · exact keepsInv_ite (keepsInv_next h) (exec_keepsInv (lift_inv h _) _)
  · exact keepsInv_next h

theorem agentTurn_keepsInv : ∀ a : Agent, KeepsInv (agentTurn a s)
  | .core n => coreTurn_keepsInv h n
  | .rill _ _ => keepsInv_ite (present_keepsInv (lift_inv h _)) (keepsInv_next h)
  | .intake n => helperTurn_keepsInv h n false
  | .outfall n => helperTurn_keepsInv h n true

theorem holdBack_keepsInv {o : Host.Outcome State Fault Refusal} (ho : KeepsInv o) : KeepsInv (holdBack s o) := by
  cases o with
  | next t =>
    rcases holdBack_next s t with e | e <;> rw [e]
    · exact ho
    · exact h
  | fault r => exact keepsInv_ite ho ho
  | refused r => exact keepsInv_ite ho ho

theorem stepOnce_keepsInv : KeepsInv (stepOnce s) := by
  rcases hp : s.pending with - | ⟨t, rest⟩
  case cons =>
    rw [stepOnce_of_pending hp]
    exact holdBack_keepsInv (s := { s with pending := rest, postponed := s.postponed ++ [t] }) h
      (exec_keepsInv (lift_inv (s := { s with pending := rest }) h _) _)
  case nil =>
    cases hw : s.power with
    | false =>
      rcases hi : s.inputs with - | ⟨x, xs⟩
      · rw [stepOnce_of_dark hp hw hi]
        exact trivial
      · rw [stepOnce_of_darkInput hp hw hi]
        exact keepsInv_lift h _
    | true =>
      rcases ht : s.turn with - | ⟨a, rest⟩
      · rw [stepOnce_of_idle hp hw ht]
        exact keepsInv_lift h _
      · rw [stepOnce_of_turn hp hw ht]
        exact holdBack_keepsInv (s := { s with turn := rest }) h (agentTurn_keepsInv (s := { s with turn := rest }) h a)

theorem step_keepsInv : KeepsInv (step s) := keepsInv_andThen (stepOnce_keepsInv h) fun _ ht => keepsInv_lift ht _

end

/-- Settles O45: a step is made of instructions' effects and functions on the step's work, whose writes keep the canonical form (`applyLog_wf`). -/
theorem stepsKeepMemoryCanonical : Obligations.StepsKeepMemoryCanonical := by
  intro s t h e
  have hs : KeepsInv (step s) := step_keepsInv h
  rwa [e] at hs

end Sys2Proof.Machine
end

section
/-! PROOFS. Engine entries (09_ordering R195 to R205): what completes an entry, and the refutation of O59, whose completion clause leaves out the
clock that the entry's instance keeps. -/
namespace Sys2Proof.Machine

namespace Work

/-! ## The completion of an entry: what holds in the place of O59's clause -/

/-- An entry leaves its queue, and its instance keeps the largest clock that an entry of it reached (R204, R205). -/
def performed (w : Work) (core q inst clock : Nat) : Work :=
  (w.popHead core q).modInst inst fun i => { i with engClock := max i.engClock clock }

section
variable (w : Work) (core q src code clock : Nat) (v : Word) {e : Entry}

/-- Without a completion word only a fault is counted (R199). -/
theorem finishEntry_of_no_cw (h : e.cw = 0) : w.finishEntry core q e src v code clock =
    if code = 0 then w.performed core q e.who.inst clock else (w.performed core q e.who.inst clock).countInstFault e.who.inst src code :=
  if_pos h

/-- A completion word is written after the entry has left its queue. -/
theorem finishEntry_of_cw (h : e.cw ≠ 0) {w1 : Work} (hw : putCompletion e.who e.cw v clock (w.performed core q e.who.inst clock) = (.ok (), w1)) :
    w.finishEntry core q e src v code clock = w1 := by
  unfold finishEntry performed at *
  dsimp only
  rw [if_neg h, hw]

/-- One that cannot be written counts as a fault. -/
theorem finishEntry_of_lost_cw (h : e.cw ≠ 0) {b : Bad} {w1 : Work}
    (hw : putCompletion e.who e.cw v clock (w.performed core q e.who.inst clock) = (.error b, w1)) :
    w.finishEntry core q e src v code clock = w1.countInstFault e.who.inst src (if code = 0 then 3 else code) := by
  unfold finishEntry performed at *
  dsimp only
  rw [if_neg h, hw]

end

end Work

/-! ## Where O59's completion clause and the model part -/

/-- An entry of instance 1, without a completion word. -/
def plainEntry : Entry :=
  { kind := .hrel 0, cw := 0, who := { Issuer.nobody with inst := 1 }, started := false, desc := none, units := 0, page := .none, hold := [], net := none }

/-- A work in which instance 1 runs, no entry of which has been performed. -/
def placedWork : Work := { State.reset.work with insts := [placedInst 1 0] }

/-- Refutes O59: its completion clause says that an entry without a completion word that succeeds only leaves its queue. The model also raises the
largest clock that an entry of the instance reached, here from 0 to 1 (`Work.performed`; R204, R205). -/
theorem not_engineEntries : ¬ Obligations.EngineEntries := by
  intro h
  have completion := (h State.reset 0 0 0 0 0 0).1 placedWork plainEntry 0 0 1 0
  have popped : placedWork.finishEntry 0 0 plainEntry 0 0 0 1 = placedWork.popHead 0 0 := completion.2.1 rfl
  have raised : placedWork.finishEntry 0 0 plainEntry 0 0 0 1 = placedWork.performed 0 0 1 1 := placedWork.finishEntry_of_no_cw 0 0 0 0 1 0 rfl
  have clocks : (placedWork.performed 0 0 1 1).insts.map (·.engClock) = [1] := by decide
  rw [← raised, popped] at clocks
  exact absurd clocks (by decide)

end Sys2Proof.Machine
end

section
/-! PROOFS. What accesses to memory leave as it is (08_memory R173 to R184, 09_ordering R200 to R203): an access changes caches, translations, stamps,
merge windows, the marks of uncorrectable units, samples, free values and the marks of what the step waits for; nothing else of the machine, and of a core
nothing of its queues. -/
namespace Sys2Proof.Machine

/-- A chip without what accesses to memory change; its cores are compared apart. -/
def Chip.apart (c : Chip) : Chip :=
  { c with pending := [], focus := .reset, freeNext := 0, poison := [], hostL2 := [], l2 := [], floors := [], windows := [], dieTlb := .replicate 4 [], cores := [] }

namespace Work

/-- From `w` to `v` only what accesses to memory change has changed. -/
structure Quiet (w v : Work) : Prop where
  apart : v.toChip.apart = w.toChip.apart
  queues : ∀ n, (v.core n).queues = (w.core n).queues

namespace Quiet

theorem refl (w : Work) : Quiet w w := ⟨rfl, fun _ => rfl⟩

variable {u w v : Work}

theorem trans (h : Quiet u w) (k : Quiet w v) : Quiet u v := ⟨k.apart.trans h.apart, fun n => (k.queues n).trans (h.queues n)⟩

theorem parts (h : Quiet u w) : w.parts = u.parts :=
  have e : w.toChip.apart.parts = u.toChip.apart.parts := congrArg Chip.parts h.apart
  e
theorem insts (h : Quiet u w) : w.insts = u.insts :=
  have e : w.toChip.apart.insts = u.toChip.apart.insts := congrArg Chip.insts h.apart
  e

theorem part (h : Quiet u w) (p : Nat) : w.part p = u.part p := by rw [Work.part, Work.part, h.parts]

/-! ## The updates that accesses are made of -/

/-- An update that leaves the cores alone. -/
theorem beside (h : Quiet u w) (ha : v.toChip.apart = w.toChip.apart) (hc : v.cores = w.cores) : Quiet u v :=
  h.trans ⟨ha, fun n => by rw [core, core, hc]⟩

theorem ite {p : Prop} [Decidable p] (h : Quiet u w) (k : Quiet u v) : Quiet u (if p then w else v) := by
  split
  · exact h
  · exact k

theorem foldl {α : Type} {f : Work → α → Work} {l : List α} (h : Quiet u w) (hf : ∀ v x, Quiet u v → Quiet u (f v x)) : Quiet u (l.foldl f w) := by
  induction l generalizing w with
  | nil => exact h
  | cons x xs ih => exact ih (hf w x h)

section
variable {n c k i j pa part core line slice joined : Nat} {bs : List Byte} {mt : BitVec 2}

theorem modCore {f : Core → Core} (h : Quiet u w) (hf : ∀ c, (f c).queues = c.queues) : Quiet u (w.modCore n f) :=
  h.trans ⟨rfl, fun m => by
    by_cases e : m = n
    · rw [e, core_modCore_same, hf]
    · rw [core_modCore_other w f e]⟩

variable (h : Quiet u w)
include h

theorem modFocus {f : Focus → Focus} : Quiet u (w.modFocus f) := h.beside rfl rfl

theorem modCtx {f : Ctx → Ctx} : Quiet u (w.modCtx n i f) := h.modCore fun _ => rfl

theorem write : Quiet u (w.write k bs) := h.beside (by unfold Work.write; split <;> rfl) (w.write_cores k bs)

theorem todo {i : Instr} : Quiet u (w.todo n c i) := h.beside rfl rfl

theorem sample {src : BitVec 8} {watched : BitVec 16} : Quiet u (w.sample src watched n) := ite h.todo h

theorem free : Quiet u w.free.2 := h.beside rfl rfl

theorem setL2Stamps {s : LineStamps} : Quiet u (w.setL2Stamps line s) := h.beside rfl rfl

/-! ## L2 -/

theorem cleanHost : Quiet u (w.cleanHost line) := by
  unfold Work.cleanHost
  split
  · exact h
  · exact beside (foldl h fun _ _ hv => hv.write) rfl rfl

theorem evictLine : Quiet u (w.evictLine line) := by
  unfold Work.evictLine
  extract_lets w1 w2
  have h2 : Quiet u w2 := h.cleanHost.beside rfl rfl
  split
  · exact h2
  · exact h2.beside rfl rfl

theorem l2Room : Quiet u (w.l2Room slice) := by
  unfold Work.l2Room
  refine ite h ?_
  split
  · exact h
  · exact ite h h.evictLine

theorem l2Trim : Quiet u w.l2Trim := ite h (foldl h fun _ _ hv => foldl hv fun _ _ hx => hx.evictLine)

theorem endWindow : Quiet u (w.endWindow line) := by
  unfold Work.endWindow
  split
  · exact h
  · refine sample ?_
    exact h.beside rfl rfl

theorem joinWindow : Quiet u (w.joinWindow line joined) := h.beside rfl rfl

theorem afterWindow : Quiet u (w.afterWindow line) := ite h (ite h.modFocus h)

theorem l2Fill {b : Bool} : Quiet u (w.l2Fill part line b joined) := by
  unfold Work.l2Fill
  extract_lets w1 w2 w3 w4
  have h3 : Quiet u w3 := setL2Stamps (ite h.l2Room.modFocus h.l2Room)
  refine ite h (ite h3.joinWindow (modFocus ?_))
  exact h3.endWindow.beside rfl rfl

theorem l2Touch : Quiet u (w.l2Touch part line) := ite (ite h h.joinWindow) h.l2Fill

theorem l2Data : Quiet u (w.l2Data pa n mt).2 := by
  unfold Work.l2Data
  split
  · split
    · exact h
    · exact h.beside rfl rfl
  · exact h

theorem l2Read : Quiet u (w.l2Read part pa n mt).2 := by
  unfold Work.l2Read
  split
  · exact h
  · exact h.l2Touch.l2Data

theorem l2Take : Quiet u (w.l2Take part pa n mt).2 := h.afterWindow.l2Fill.l2Data

theorem noteWaits : Quiet u (w.noteWaits pa n) :=
  foldl h fun _ _ hv => foldl hv fun _ _ hx => by
    split
    · exact ite hx.modCtx hx
    · exact hx

theorem l2Write : Quiet u (w.l2Write part pa bs mt) := by
  unfold Work.l2Write
  extract_lets line w1 w2
  have h1 : Quiet u w1 := h.afterWindow.l2Fill
  have h2 : Quiet u w2 := ite h1 (h1.beside rfl rfl)
  exact ite h.write (ite (h2.beside rfl rfl) h1.write.noteWaits)

theorem l2WriteMasked {data : Line} {mask : BitVec 128} : Quiet u (w.l2WriteMasked part line data mask mt) :=
  foldl h fun _ _ hv => hv.l2Write

theorem mergeUpd {x : UpdLine} : Quiet u (w.mergeUpd core x) := by
  unfold Work.mergeUpd
  extract_lets n p marks w1 bs w2
  have h1 : Quiet u w1 := h.modCore fun _ => rfl
  have h2 : Quiet u w2 := foldl h1 fun _ _ hv => ite hv.l2Take.l2Write hv
  exact h2.beside rfl rfl

theorem recallLine : Quiet u (w.recallLine line) :=
  foldl h fun _ _ hv => by
    split
    · exact hv.mergeUpd
    · exact hv

theorem sendLine : Quiet u (w.sendLine core part pa) := ite h (ite h.sample h.free.sample)

/-! ## L1 -/

theorem l1Clean : Quiet u (w.l1Clean part core line) := by
  unfold Work.l1Clean
  split
  · exact ite h (h.l2WriteMasked.modCore fun _ => rfl)
  · exact h

theorem l1Drop : Quiet u (w.l1Drop core line) := h.modCore fun _ => rfl

theorem l1Room : Quiet u (w.l1Room part core) := by
  unfold Work.l1Room
  extract_lets c
  refine ite h ?_
  split
  · exact h.l1Clean.l1Drop
  · exact h.mergeUpd
  · exact h

theorem l1Fill {l : L1Line} : Quiet u (w.l1Fill part core l) := h.l1Room.modCore fun _ => rfl

theorem flushLine : Quiet u (w.flushLine part core line) := h.l1Clean.l1Drop

theorem l2Through : Quiet u (w.l2Through core part pa n mt).2 := by
  have hr : Quiet u ((if mt = 3#2 ∧ isHost pa then w else w.sendLine core part pa).l2Read part pa n mt).2 := l2Read (ite h h.sendLine)
  unfold Work.l2Through
  dsimp only
  split
  · exact hr
  · exact hr

theorem physRead {engine race : Bool} : Quiet u (w.physRead core part engine pa n mt race).2 := by
  unfold Work.physRead
  extract_lets line w1
  have h1 : Quiet u w1 := ite h.recallLine h
  split
  · exact h1.l2Through
  · split
    · split
      · exact h1
      · exact h1
    · split
      · exact h1.l2Through
      · exact ite h1.l2Through.l1Fill (h1.l2Through.modCore fun _ => rfl)

theorem physWrite {engine race : Bool} : Quiet u (w.physWrite core part engine pa bs mt race) := by
  unfold Work.physWrite
  extract_lets line w1 m w2 w3
  have h1 : Quiet u w1 := ite h.recallLine h
  have h3 : Quiet u w3 := ite h1 h1.sendLine.l2Read.l1Fill
  refine ite (h1.l2Write.modCore fun c => ?_) (h3.modCore fun _ => rfl)
  split <;> rfl

/-! ## Releases and acquires -/

theorem cleanL1 {which : Nat → Bool} : Quiet u (w.cleanL1 part core which) :=
  foldl (foldl h fun _ _ hv => hv.l1Clean) fun _ _ hv => hv.mergeUpd

theorem cleanCores {cores : List Nat} : Quiet u (w.cleanCores part cores) := foldl h fun _ _ hv => hv.cleanL1

/-! ## Stamps -/

theorem raiseS {pl : Place} {x : BitVec 32} : Quiet u (w.raiseS part pl x n) := by
  unfold Work.raiseS
  extract_lets up upLine
  have line {v : Work} {l : Nat} (hv : Quiet u v) : Quiet u (upLine v l) := hv.l2Fill.setL2Stamps
  split
  · exact h.modCore fun _ => rfl
  · exact ite h (line h)
  · exact foldl h fun _ _ hv => line hv
  · exact h

theorem homeRead : Quiet u (w.homeRead part pa n).2 := h.recallLine.l2Read
theorem homeWrite : Quiet u (w.homeWrite part pa bs) := h.recallLine.l2Write

end
end Quiet
end Work
end Sys2Proof.Machine
end

section
/-! PROOFS. The same of accesses as actions (08_memory R163 to R172, 13_scheduler R281): whatever an access answers, it leaves what accesses leave. -/
namespace Sys2Proof.Machine
open Work

/-- Whatever the access answers, only what accesses to memory change has changed. -/
def QuietAcc {α : Type} (m : Acc α) : Prop := ∀ w, Quiet w (m w).2

namespace QuietAcc
variable {α β : Type}

theorem pure (a : α) : QuietAcc (Pure.pure a : Acc α) := fun w => Quiet.refl w
theorem throw (b : Bad) : QuietAcc (MonadExcept.throw b : Acc α) := fun w => Quiet.refl w
theorem get : QuietAcc (MonadState.get : Acc Work) := fun w => Quiet.refl w
theorem modify {f : Work → Work} (h : ∀ w, Quiet w (f w)) : QuietAcc (modify f : Acc PUnit) := h
theorem modifyGet {f : Work → α × Work} (h : ∀ w, Quiet w (f w).2) : QuietAcc (modifyGet f : Acc α) := h

theorem bind {m : Acc α} {f : α → Acc β} (hm : QuietAcc m) (hf : ∀ a, QuietAcc (f a)) : QuietAcc (m >>= f) := by
  intro w
  have h := hm w
  rw [act_bind]
  revert h
  rcases m w with ⟨a | a, v⟩
  · exact id
  · exact fun h => h.trans (hf a v)

theorem ite {p : Prop} [Decidable p] {m n : Acc α} (hm : QuietAcc m) (hn : QuietAcc n) : QuietAcc (if p then m else n) := by
  split
  · exact hm
  · exact hn

theorem mapM {f : α → Acc β} (hf : ∀ a, QuietAcc (f a)) : ∀ l : List α, QuietAcc (l.mapM f)
  | [] => by
    rw [List.mapM_nil]
    exact pure []
  | a :: l => by
    rw [List.mapM_cons]
    exact (hf a).bind fun _ => (mapM hf l).bind fun _ => pure _

theorem forM {f : α → Acc PUnit} (hf : ∀ a, QuietAcc (f a)) : ∀ l : List α, QuietAcc (l.forM f)
  | [] => pure _
  | a :: l => (hf a).bind fun _ => forM hf l

end QuietAcc

/-! ## Translation and places -/

namespace Work.Quiet
variable {u w : Work}

theorem walk (part va : Nat) : ∀ (lvl t : Nat) {w : Work}, Quiet u w → Quiet u (Work.walk part va lvl t w).2
  | 0, _, _, h => h
  | lvl + 1, t, w, h => by
    unfold Work.walk
    extract_lets a w1
    have h1 : Quiet u w1 := h.recallLine
    split
    · exact h
    · split
      · exact h1
      · have h2 : Quiet u (w1.l2Read part a 8 0#2).2 := h1.l2Read
        revert h2
        generalize w1.l2Read part a 8 0#2 = r
        obtain ⟨bs, w2⟩ := r
        intro h2
        dsimp only
        split
        · exact h2
        · split
          · exact h2
          · split
            · exact h2
            · exact walk part va lvl _ h2

theorem translate {core part : Nat} {rill super : Bool} {va : Word} {kind : Access} (h : Quiet u w) :
    Quiet u (w.translate core part rill va kind super).2 := by
  unfold Work.translate
  split
  · exact h
  · extract_lets v die coreHit dieHit
    split
    rename_i found w1 e
    have h1 : Quiet u w1 := by
      rw [← show _ = w1 from congrArg Prod.snd e]
      clear_value coreHit dieHit
      rcases coreHit with - | _
      · rcases dieHit with - | _
        · have hw := walk part v 5 (w.part part).ptroot h
          revert hw
          generalize Work.walk part v 5 (w.part part).ptroot w = r
          rcases r with ⟨_ | _, _⟩
          · exact id
          · exact id
        · exact h
      · exact h
    split
    · exact h1
    · split
      · exact h1
      · extract_lets w2 w3
        have h2 : Quiet u w2 := ite (h1.modCore fun _ => rfl) h1
        exact ite (h2.beside rfl rfl) h2

end Work.Quiet

namespace QuietAcc

theorem place {who : Issuer} {rill : Bool} {sp : Space} {addr : Word} {kind : Access} : QuietAcc (place who rill sp addr kind) := by
  intro w
  have h := Quiet.refl w
  cases sp with
  | tile =>
    unfold Machine.place
    dsimp only
    split
    · exact h
    · split
      · exact h
      · exact h
  | cluster =>
    unfold Machine.place
    dsimp only
    split
    · exact h
    · split
      · exact h
      · exact h
  | global =>
    unfold Machine.place
    dsimp only
    split
    · exact h
    · split
      · split
        · exact h
        · split
          · exact h
          · exact h
      · have ht : Quiet w (w.translate who.core who.part rill addr kind who.super).2 := h.translate
        split
        · rename_i e
          rw [e] at ht
          exact ht
        · rename_i e
          rw [e] at ht
          split
          · exact ht
          · exact ht

theorem checkSpan {who : Issuer} {pl : Place} {addr : Word} {n : Nat} : QuietAcc (checkSpan who pl addr n) := by
  intro w
  unfold Machine.checkSpan
  split
  · dsimp only
    split
    · exact .refl w
    · exact .refl w
  · exact .refl w

theorem checkUnits {addr : Word} {k n : Nat} : QuietAcc (checkUnits addr k n) := by
  intro w
  unfold Machine.checkUnits
  split
  · exact .refl w
  · exact .refl w

theorem viewCheck {who : Issuer} {n off : Nat} {addr : Word} : QuietAcc (viewCheck who n off addr) := by
  intro w
  unfold Machine.viewCheck
  extract_lets a srcs
  split
  · exact .refl w
  · split
    · exact .refl w
    · exact .refl w

theorem viewByteAt {who : Issuer} {n off : Nat} : QuietAcc (viewByteAt who n off) := by
  intro w
  unfold Machine.viewByteAt
  dsimp only
  split
  · exact (Quiet.refl w).free
  · exact .refl w

theorem viewRead {who : Issuer} {n off len : Nat} : QuietAcc (viewRead who n off len) :=
  bind (modify fun w => Quiet.foldl (.refl w) fun _ _ hv => hv.recallLine.sendLine.l2Touch) fun _ => mapM (fun _ => viewByteAt) _

theorem openView {who : Issuer} {engine : Bool} {n off len : Nat} (w : Work) : Quiet w (w.openView who engine n off len) :=
  Quiet.ite (.refl w) (Quiet.foldl (.refl w) fun _ _ hv => hv.flushLine)

theorem checkReadable {who : Issuer} {engine : Bool} {pl : Place} {addr : Word} {n : Nat} : QuietAcc (checkReadable who engine pl addr n) := by
  cases pl with
  | past => exact pure _
  | tile core off => exact checkUnits
  | phys pa mt race => exact bind get fun w => ite checkUnits (pure _)
  | view a off => exact bind (modify openView) fun _ => forM (fun _ => viewCheck) _

theorem readPlace {who : Issuer} {engine : Bool} {pl : Place} {addr : Word} {n : Nat} : QuietAcc (readPlace who engine pl addr n) := by
  refine bind checkReadable fun _ => ?_
  cases pl with
  | past => exact pure _
  | tile core off => exact bind get fun _ => pure _
  | phys pa mt race => exact modifyGet fun w => (Quiet.refl w).physRead
  | view a off => exact viewRead

theorem writePlace {who : Issuer} {engine : Bool} {pl : Place} {addr : Word} {bs : List Byte} : QuietAcc (writePlace who engine pl addr bs) := by
  cases pl with
  | past => exact pure _
  | tile core off => exact modify fun w => (Quiet.refl w).write
  | phys pa mt race => exact modify fun w => (Quiet.refl w).physWrite
  | view a off =>
    refine bind get fun _ => bind checkSpan fun _ => modify fun w => ?_
    dsimp only
    exact Quiet.beside (Quiet.foldl (openView w) fun _ _ hv => hv.physWrite) rfl rfl

/-! ## The scheduler's accesses (R281) -/

theorem schedRead {part : Nat} {va : Word} {n : Nat} : QuietAcc (schedRead part va n) := by
  refine bind (mapM (fun x => bind place fun pl => ?_) _) fun _ => pure _
  cases pl with
  | phys pa mt race => exact ite (throw _) readPlace
  | _ => exact readPlace

theorem schedWrite {part : Nat} {va : Word} {bs : List Byte} : QuietAcc (schedWrite part va bs) := by
  refine bind place fun pl => ?_
  have rest : QuietAcc (Machine.writePlace (schedWho part) true pl va bs >>= fun _ => MonadState.modifyGet fun w => (PUnit.unit,
    let w := w.raiseS part pl (BitVec.ofNat 32 (w.part part).raceClock) bs.length
    match pl with
    | .phys pa _ _ => if isHost pa then w.cleanHost (pa / 128) else w
    | _ => w)) := by
    refine bind writePlace fun _ => modify fun w => ?_
    have h : Quiet w (w.raiseS part pl (BitVec.ofNat 32 (w.part part).raceClock) bs.length) := (Quiet.refl w).raiseS
    cases pl with
    | phys pa mt race => exact Quiet.ite h.cleanHost h
    | _ => exact h
  cases pl with
  | phys pa mt race => exact ite (throw _) (bind checkUnits fun _ => rest)
  | _ => exact rest

end QuietAcc

theorem Work.Quiet.attempt {α : Type} {u w : Work} {m : Acc α} (h : Quiet u w) (hm : QuietAcc m) : Quiet u (w.attempt m).2 := by
  have e : (w.attempt m).2 = (m w).2 := by
    unfold Work.attempt
    rcases m w with ⟨_ | _, _⟩ <;> rfl
  rw [e]
  exact h.trans (hm w)

end Sys2Proof.Machine
end

section
/-! PROOFS. What killing instances, completing reaches and courses and stopping a partition leave (14_traps R297, R304, 13_scheduler R281): who owns each
partition, whether it is live or stopped, and of each instance its number, its partition and, unless it is killed, its state. -/
namespace Sys2Proof.Machine

/-- Owner, and whether the partition is live and stopped. -/
def Partition.standing (q : Partition) : Option Nat × Bool × Bool := (q.owner, q.live, q.stopped)

/-- The same instance, in the same state or killed. -/
structure Inst.SameOrKilled (i j : Inst) : Prop where
  id : j.id = i.id
  part : j.part = i.part
  st : j.st = i.st ∨ j.st = .killed

theorem Inst.SameOrKilled.refl (i : Inst) : i.SameOrKilled i := ⟨rfl, rfl, .inl rfl⟩

theorem Inst.SameOrKilled.trans {i j k : Inst} (h : i.SameOrKilled j) (g : j.SameOrKilled k) : i.SameOrKilled k :=
  ⟨g.id.trans h.id, g.part.trans h.part, g.st.elim (fun e => h.st.imp e.trans e.trans) .inr⟩

theorem nth_congr {α : Type} {n : Nat} (v : Vector α (n + 1)) {i j : Nat} (h : i % (n + 1) = j % (n + 1)) : nth v i = nth v j :=
  congrArg v.get (Fin.ext h)

namespace Work

/-- From `w` to `v` every partition keeps its standing, and every instance is the same or killed. -/
structure Kept (w v : Work) : Prop where
  standing : ∀ p, (v.part p).standing = (w.part p).standing
  insts : ∃ f : Inst → Inst, v.insts = w.insts.map f ∧ ∀ i : Inst, i.SameOrKilled (f i)

namespace Kept

variable {u w v : Work}

/-- An update that leaves partitions and instances alone. -/
theorem of_eq (hp : v.parts = w.parts) (hi : v.insts = w.insts) : Kept w v :=
  ⟨fun p => by rw [part, part, hp], id, by rw [hi, List.map_id], .refl⟩

theorem refl (w : Work) : Kept w w := of_eq rfl rfl

theorem trans (h : Kept u w) (k : Kept w v) : Kept u v := by
  obtain ⟨hp, f, hf, hs⟩ := h
  obtain ⟨kp, g, hg, ks⟩ := k
  exact ⟨fun p => (kp p).trans (hp p), g ∘ f, by rw [hg, hf, List.map_map], fun i => (hs i).trans (ks (f i))⟩

theorem quiet (h : Kept u w) (k : Quiet w v) : Kept u v := h.trans (of_eq k.parts k.insts)

theorem beside (h : Kept u w) (hp : v.parts = w.parts) (hi : v.insts = w.insts) : Kept u v := h.trans (of_eq hp hi)

theorem ite {p : Prop} [Decidable p] (h : Kept u w) (k : Kept u v) : Kept u (if p then w else v) := by
  split
  · exact h
  · exact k

theorem foldl {α : Type} {f : Work → α → Work} {l : List α} (h : Kept u w) (hf : ∀ v x, Kept u v → Kept u (f v x)) : Kept u (l.foldl f w) := by
  induction l generalizing w with
  | nil => exact h
  | cons x xs ih => exact ih (hf w x h)

theorem modPart {p : Nat} {f : Partition → Partition} (h : Kept u w) (hf : ∀ q, (f q).standing = q.standing) : Kept u (w.modPart p f) :=
  h.trans ⟨fun q => by
    by_cases e : p % 4 = q % 4
    · rw [part, part, ← nth_congr _ e, ← nth_congr w.parts e]
      exact (congrArg _ (part_modPart_same w p f)).trans (hf _)
    · rw [part_modPart_other w f e], id, (List.map_id _).symm, .refl⟩

theorem modInst {id : Nat} {f : Inst → Inst} (h : Kept u w) (hf : ∀ i : Inst, i.SameOrKilled (f i)) : Kept u (w.modInst id f) :=
  h.trans ⟨fun _ => rfl, _, rfl, fun i => by
    split
    · exact hf i
    · exact .refl i⟩

section
variable {n c k part seq : Nat} (h : Kept u w)
include h

theorem modReach {f : Reach → Reach} : Kept u (w.modReach part seq k f) := by
  unfold Work.modReach Work.modCourse
  exact h.modPart fun _ => rfl

theorem countFault {src code : Nat} : Kept u (w.countFault part seq k src code) := h.modReach

theorem undefer : Kept u (w.undefer part) := h.modPart fun _ => rfl

theorem bumpClock : Kept u (w.bumpClock part) := h.modPart fun _ => rfl

theorem raiseMsi : Kept u (w.raiseMsi part n) := by
  unfold Work.raiseMsi
  split
  · exact ite (h.beside rfl rfl) h
  · exact h

/-! ## Killing an instance (R297) -/

theorem leaveHandle : Kept u (w.leaveHandle n) := ite h (h.beside rfl rfl)

theorem freeCtx : Kept u (w.freeCtx n c) := by
  unfold Work.freeCtx
  extract_lets w1
  have h1 : Kept u w1 := by
    dsimp only [w1]
    split
    · exact h.leaveHandle
    · exact h
  exact h1.beside rfl rfl

theorem helperLeaves {o : Bool} : Kept u (w.helperLeaves n o) := by
  unfold Work.helperLeaves
  split
  · exact h.leaveHandle.beside rfl rfl
  · exact h

theorem stopHelper {id : Nat} {o : Bool} : Kept u (w.stopHelper id n o) := ite (h.helperLeaves.beside rfl rfl) h

theorem releasePin {clk : BitVec 32} {x : Pin} : Kept u (w.releasePin part clk x) :=
  have hq : Quiet w (w.releasePin part clk x) := by
    unfold Work.releasePin
    exact Quiet.raiseS (Quiet.homeWrite (Quiet.homeRead (.refl w)))
  h.quiet hq

theorem releasePins {id : Nat} : Kept u (w.releasePins id) := by
  unfold Work.releasePins
  split
  · exact h
  · rename_i i _
    extract_lets w1 w2
    have h1 : Kept u w1 := ite h (h.quiet (Quiet.cleanCores (.refl w)))
    have h2 : Kept u w2 := foldl h1 fun _ _ hv => hv.releasePin
    exact h2.modInst fun _ => ⟨rfl, rfl, .inl rfl⟩

/-- Killing an instance keeps everything's standing; that it is killed says `killInst_settles`. -/
theorem killInst {id : Nat} {requeue : Bool} : Kept u (w.killInst id requeue) := by
  unfold Work.killInst
  split
  · exact h
  · rename_i i _
    extract_lets w1 finals w2 w3 w4 w5 again w6 w7
    have h1 : Kept u w1 := releasePins (h.quiet (Quiet.cleanCores (.refl w)))
    have h2 : Kept u w2 := foldl h1 fun _ _ hv => ite hv.freeCtx hv
    have h3 : Kept u w3 := foldl h2 fun _ _ hv => hv.stopHelper.stopHelper
    have h4 : Kept u w4 := h3.modPart fun _ => rfl
    have h5 : Kept u w5 := h4.modInst fun _ => ⟨rfl, rfl, .inr rfl⟩
    have h7 : Kept u w7 := h5.modReach.modPart fun _ => rfl
    exact ite h h7.undefer

/-! ## Completing reaches and courses (R281) -/

theorem attempt {α : Type} {m : Acc α} (hm : QuietAcc m) : Kept u (w.attempt m).2 := h.quiet (Quiet.attempt (.refl w) hm)

theorem homeWrite {bs : List Byte} : Kept u (w.homeWrite part n bs) := h.quiet (Quiet.homeWrite (.refl w))

theorem putState {new : Word} {stamp : Bool} : Kept u (w.putState part n new stamp) := by
  unfold Work.putState
  extract_lets w1
  have h1 : Kept u w1 := ite (h.modPart fun _ => rfl) h
  exact h1.homeWrite

theorem settleTile : Kept u (w.settleTile part n) := by
  have hb : Kept u (w.headerBytes part n).2 := h.quiet (Quiet.homeRead (.refl w))
  unfold Work.settleTile
  exact ite hb (putState (hb.quiet (Quiet.raiseS (.refl _))))

theorem settleProduced {tag : Nat} {late : Bool} : Kept u (w.settleProduced part seq tag late) := by
  unfold Work.settleProduced
  split
  · exact h
  · exact foldl h fun _ _ hv => ite (hv.settleTile.modPart fun _ => rfl) hv.settleTile

theorem putRegistration {tag : Nat} {en : Bool} {g : TileReg} : Kept u (w.putRegistration part tag en g) := by
  have hb : Kept u (w.headerBytes part g.header).2 := h.quiet (Quiet.homeRead (.refl w))
  unfold Work.putRegistration
  exact ite hb.homeWrite hb

theorem putRecord {va : Word} {bs : List Byte} : Kept u (w.putRecord part va bs).2 := by
  have hs : Kept u (schedWrite part va bs w).2 := h.quiet (QuietAcc.schedWrite w)
  unfold Work.putRecord
  split
  · rename_i e
    rw [e] at hs
    exact hs
  · rename_i e
    rw [e] at hs
    exact hs.beside rfl rfl

theorem decrement : Kept u (w.decrement part seq k) := by
  unfold Work.decrement
  split
  · exact h
  · exact ite h.countFault.modReach h.modReach

theorem retire {all : Bool} : Kept u (w.retire part seq k all) := by
  unfold Work.retire
  split
  · exact h
  · refine ite h ?_
    split
    · exact h
    · exact ite h (h.modReach.attempt QuietAcc.schedWrite)

/-- A record or signal that may be written, and its failure counted. -/
theorem recorded {p : Prop} [Decidable p] {va : Word} {bs : List Byte} {src code : Nat} :
    Kept u (let r := if p then w.putRecord part va bs else (true, w); if r.1 then r.2 else r.2.countFault part seq k src code) := by
  have hr : Kept u (if p then w.putRecord part va bs else (true, w)).2 := by
    split
    · exact h.putRecord
    · exact h
  exact ite hr hr.countFault

theorem completeReach : Kept u (w.completeReach part seq k) := by
  unfold Work.completeReach
  split
  · exact h
  · rename_i r _
    extract_lets w1 w2 w3 counts good
    have h1 : Kept u w1 := h.bumpClock.settleProduced
    have h3 : Kept u w3 := foldl h1.modReach fun _ _ hv => hv.putRegistration
    refine ite h (ite h3 ?_)
    have h4 := h3.recorded (part := part) (seq := seq) (k := k) (p := good r.crec 64 = true) (va := r.crec)
      (bs := counts.bytes (!r.regs.isEmpty) w3.ns r.tag seq) (src := 6) (code := 5)
    exact retire (foldl (recorded h4) fun _ _ hv => hv.decrement)

theorem finishCourse {c : Course} {counts : RecordCounts} : Kept u (w.finishCourse part c counts) := by
  unfold Work.finishCourse
  extract_lets w1 crec sig w2 w3 w4
  have h2 : Kept u w2 := ite h.bumpClock.putRecord h.bumpClock
  have h3 : Kept u w3 := ite h2.putRecord h2
  have h4 : Kept u w4 := ite h3.raiseMsi h3
  exact h4.modPart fun _ => rfl

theorem completeCourse : Kept u (w.completeCourse part seq) := by
  unfold Work.completeCourse
  split
  · exact h
  · exact h.finishCourse

end
end Kept
end Work
end Sys2Proof.Machine
end

section
/-! PROOFS. Stopping a partition for a lost stack (13_scheduler R304, R18) and DESTROY (15_partitioning R309): every partition that is live is stopped;
no instance of the destroyed partition goes on. -/
namespace Sys2Proof.Machine

/-- Killed or completed: the instance's course has gone on without it. -/
def Inst.Settled (i : Inst) : Prop := i.st = .killed ∨ i.st = .completed

theorem Inst.SameOrKilled.settled {i j : Inst} (h : i.SameOrKilled j) (hi : i.Settled) : j.Settled := by
  obtain e | e := h.st
  · rw [Inst.Settled, e]
    exact hi
  · exact .inl e

namespace Work

/-- Every instance of the number is killed or completed. -/
def SettledId (w : Work) (id : Nat) : Prop := ∀ i ∈ w.insts, i.id = id → i.Settled

namespace Kept

variable {w v : Work}

theorem settledId (h : Kept w v) {id : Nat} (hw : w.SettledId id) : v.SettledId id := by
  obtain ⟨-, f, hf, hs⟩ := h
  intro j hj hid
  rw [hf] at hj
  obtain ⟨i, hi, rfl⟩ := List.mem_map.mp hj
  exact (hs i).settled (hw i hi ((hs i).id.symm.trans hid))

theorem ids (h : Kept w v) : v.insts.map (·.id) = w.insts.map (·.id) := by
  obtain ⟨-, f, hf, hs⟩ := h
  rw [hf, List.map_map]
  exact List.map_congr_left fun i _ => (hs i).id

theorem nodup (h : Kept w v) (hw : (w.insts.map (·.id)).Nodup) : (v.insts.map (·.id)).Nodup := by rwa [h.ids]

theorem owner (h : Kept w v) (p : Nat) : (v.part p).owner = (w.part p).owner := congrArg (·.1) (h.standing p)
theorem live (h : Kept w v) (p : Nat) : (v.part p).live = (w.part p).live := congrArg (·.2.1) (h.standing p)
theorem stopped (h : Kept w v) (p : Nat) : (v.part p).stopped = (w.part p).stopped := congrArg (·.2.2) (h.standing p)

end Kept

/-- Where instances have different numbers, the one found for a number is the only one that has it. -/
theorem eq_of_inst? {w : Work} {id : Nat} {i j : Inst} (hn : (w.insts.map (·.id)).Nodup) (hi : w.inst? id = some i) (hj : j ∈ w.insts) (e : j.id = id) :
    j = i :=
  have hid : i.id = id := by simpa using List.find?_some hi
  List.inj_on_of_nodup_map hn hj (List.mem_of_find?_eq_some hi) (e.trans hid.symm)

theorem settledId_of_inst?_none {w : Work} {id : Nat} (h : w.inst? id = none) : w.SettledId id :=
  fun i hi e => absurd e (by simpa using List.find?_eq_none.mp h i hi)

theorem settledId_modInst {w : Work} {id : Nat} {f : Inst → Inst} (hf : ∀ i, (f i).id = i.id ∧ (f i).Settled) : (w.modInst id f).SettledId id := by
  intro j hj e
  obtain ⟨i, -, rfl⟩ := List.mem_map.mp hj
  split at e
  · rename_i hi
    rw [if_pos hi]
    exact (hf i).2
  · contradiction

theorem killInst_settles {w : Work} {id : Nat} {requeue : Bool} (hn : (w.insts.map (·.id)).Nodup) : (w.killInst id requeue).SettledId id := by
  unfold killInst
  split
  · rename_i hi
    exact settledId_of_inst?_none hi
  · rename_i i hi
    extract_lets w1 finals w2 w3 w4 w5 again w6 w7
    have h5 : w5.SettledId id := settledId_modInst fun i => ⟨rfl, .inl rfl⟩
    have h7 : Kept w5 w7 := (Kept.refl w5).modReach.modPart fun _ => rfl
    split
    · rename_i hs
      intro j hj e
      rw [eq_of_inst? hn hi hj e]
      exact hs
    · exact h7.undefer.settledId h5

/-- Kill the instances of a list. -/
def killAll (w : Work) (l : List Inst) : Work := l.foldl (fun w i => w.killInst i.id false) w

theorem Kept.killAll {u w : Work} (h : Kept u w) (l : List Inst) : Kept u (w.killAll l) := Kept.foldl h fun _ _ hv => hv.killInst

theorem killAll_settles {w : Work} {l : List Inst} (hn : (w.insts.map (·.id)).Nodup) {i : Inst} (hi : i ∈ l) : (w.killAll l).SettledId i.id := by
  induction l generalizing w with
  | nil => exact absurd hi List.not_mem_nil
  | cons x xs ih =>
    have hx : Kept w (w.killInst x.id false) := (Kept.refl w).killInst
    obtain rfl | hi := List.mem_cons.mp hi
    · exact ((Kept.refl _).killAll xs).settledId (killInst_settles hn)
    · exact ih (hx.nodup hn) hi

/-- The instances of a partition, killed: they are killed or completed, whatever else stands. -/
theorem killAll_part_settled {w : Work} {p : Nat} (hn : (w.insts.map (·.id)).Nodup) {j : Inst}
    (hj : j ∈ (w.killAll (w.insts.filter fun i => i.part == p)).insts) (hp : j.part = p) : j.Settled := by
  have hk : Kept w (w.killAll (w.insts.filter fun i => i.part == p)) := (Kept.refl w).killAll _
  obtain ⟨-, f, hf, hs⟩ := hk
  have hj' := hj
  rw [hf] at hj'
  obtain ⟨i, hi, rfl⟩ := List.mem_map.mp hj'
  have hl : i ∈ w.insts.filter fun i => i.part == p := List.mem_filter.mpr ⟨hi, by simpa using (hs i).part.symm.trans hp⟩
  exact killAll_settles hn hl _ hj (hs i).id

/-! ## What is dropped with a partition -/

theorem Quiet.dropTlbs {u w : Work} {p : Nat} (h : Quiet u w) : Quiet u (w.dropTlbs p) := by
  unfold Work.dropTlbs
  extract_lets keep w1
  have h1 : Quiet u w1 := h.beside rfl rfl
  exact Quiet.foldl h1 fun _ _ hv => hv.modCore fun _ => rfl

/-- What DESTROY makes of the partition's block. -/
def destroyed (q : Partition) : Partition :=
  { q with live := false, swapped := false, busy := false, courses := [], selected := none, groups := [], ckUsed := [], cleared := []
           late := [], images := [] }

theorem destroy_eq (w : Work) (p : Nat) :
    w.destroy p = ((((w.killAll (w.insts.filter fun i => i.part == p)).modPart p destroyed).dropTlbs p).dropRx p fun _ => false) := rfl

theorem destroy_part (w : Work) (p : Nat) : (w.destroy p).part p = destroyed ((w.killAll (w.insts.filter fun i => i.part == p)).part p) := by
  exact ((Quiet.refl _).dropTlbs.part p).trans (part_modPart_same ..)

theorem destroy_insts (w : Work) (p : Nat) : (w.destroy p).insts = (w.killAll (w.insts.filter fun i => i.part == p)).insts := by
  rw [destroy_eq]
  exact (Quiet.refl _).dropTlbs.insts

theorem destroy_owner (w : Work) (p : Nat) : ((w.destroy p).part p).owner = (w.part p).owner := by
  rw [destroy_part]
  exact ((Kept.refl w).killAll _).owner p

theorem part_ne_of_mem_destroy_rx {w : Work} {p : Nat} : ∀ x ∈ (w.destroy p).rx, x.part ≠ p := by
  intro x hx
  rw [destroy_eq] at hx
  simpa using (List.mem_filter.mp hx).2

/-- The entries of a table that are not the partition's. -/
def otherEntries (p : Nat) (t : List TlbEntry) : List TlbEntry := t.filter fun e => e.part != p

theorem part_ne_of_mem_otherEntries {p : Nat} {t : List TlbEntry} : ∀ e ∈ otherEntries p t, e.part ≠ p := fun e he => by
  simpa using (List.mem_filter.mp he).2

theorem dropTlbs_eq (w : Work) (p : Nat) : w.dropTlbs p = w.coreNumbers.foldl (fun w n => w.modCore n fun c => { c with tlb := otherEntries p c.tlb })
    { w with dieTlb := Vector.map (otherEntries p) w.dieTlb } := rfl

theorem foldl_modCore_dieTlb (f : Core → Core) (l : List Nat) (w : Work) : (l.foldl (fun w n => w.modCore n f) w).dieTlb = w.dieTlb := by
  induction l generalizing w with
  | nil => rfl
  | cons n ns ih => exact ih (w.modCore n f)

theorem part_ne_of_mem_dropTlbs_die {w : Work} {p n : Nat} : ∀ e ∈ nth (w.dropTlbs p).dieTlb n, e.part ≠ p := by
  rw [dropTlbs_eq, foldl_modCore_dieTlb]
  have h : nth (Vector.map (otherEntries p) w.dieTlb) n = otherEntries p (nth w.dieTlb n) := by simp [nth, Vector.get]
  rw [h]
  exact part_ne_of_mem_otherEntries

/-- A core whose table is filtered, or has no entry of the partition, has none afterwards. -/
theorem foldl_otherEntries {p m : Nat} (l : List Nat) (w : Work) (h : m ∈ l ∨ ∀ e ∈ (w.core m).tlb, e.part ≠ p) :
    ∀ e ∈ ((l.foldl (fun w n => w.modCore n fun c => { c with tlb := otherEntries p c.tlb }) w).core m).tlb, e.part ≠ p := by
  induction l generalizing w with
  | nil => exact h.resolve_left List.not_mem_nil
  | cons n ns ih =>
    refine ih _ ?_
    by_cases e : m = n
    · rw [e, core_modCore_same]
      exact .inr part_ne_of_mem_otherEntries
    · rw [core_modCore_other _ _ e]
      exact h.imp_left fun hm => (List.mem_cons.mp hm).resolve_left e

theorem core_eq_reset {w : Work} {n : Nat} (h : n ∉ w.coreNumbers) : w.core n = Core.reset := by
  have hf : w.cores.find? (fun e => e.1 == n) = none := by
    rw [List.find?_eq_none]
    intro e he hn
    exact h (List.mem_map.mpr ⟨e, he, by simpa using hn⟩)
  rw [core, Tab.get, hf]

theorem part_ne_of_mem_dropTlbs_core {w : Work} {p n : Nat} : ∀ e ∈ ((w.dropTlbs p).core n).tlb, e.part ≠ p := by
  rw [dropTlbs_eq]
  refine foldl_otherEntries _ _ ?_
  by_cases h : n ∈ w.coreNumbers
  · exact .inl h
  · have hr : ({ w with dieTlb := Vector.map (otherEntries p) w.dieTlb } : Work).core n = Core.reset := core_eq_reset h
    rw [hr]
    exact .inr fun e he => absurd he List.not_mem_nil

/-! ## Stopping -/

/-- A course with its reaches completed. -/
theorem Kept.completeReaches {u w : Work} {p : Nat} (h : Kept u w) (c : Course) (l : List (Nat × Reach)) :
    Kept u (l.foldl (fun w (k, r) => if r.complete then w else (w.countFault p c.seq k 1 cUncont).completeReach p c.seq k) w) :=
  Kept.foldl h fun _ _ hv => Kept.ite hv hv.countFault.completeReach

/-- Stopping a partition stops it and leaves who is live, and who is stopped besides. -/
theorem stopPartition_standing (w : Work) (p : Nat) : ((w.stopPartition p).part p).stopped = true ∧
    ∀ q, ((w.stopPartition p).part q).live = (w.part q).live ∧ ((w.part q).stopped = true → ((w.stopPartition p).part q).stopped = true) := by
  unfold stopPartition
  split
  · rename_i hs
    exact ⟨hs, fun q => ⟨rfl, id⟩⟩
  · extract_lets w1 w2 w3
    have h1 : Kept w w1 := (Kept.refl w).killAll _
    have h2 : Kept w w2 := Kept.foldl h1 fun _ c hv => (hv.completeReaches c _).completeCourse
    have h3 : w3.part p = { w2.part p with stopped := true, selected := none } := part_modPart_same ..
    refine ⟨congrArg Partition.stopped h3, fun q => ?_⟩
    change (w3.part q).live = _ ∧ (_ → (w3.part q).stopped = _)
    by_cases e : p % 4 = q % 4
    · have hq : w3.part q = w3.part p := (nth_congr _ e).symm
      rw [hq, h3, ← h2.live, part, part, nth_congr w2.parts e]
      exact ⟨rfl, fun _ => rfl⟩
    · have hq : w3.part q = w2.part q := part_modPart_other _ _ e
      rw [hq, h2.live, h2.stopped]
      exact ⟨rfl, id⟩

/-- Stop a partition that is live and not stopped. -/
def stopLive (w : Work) (p : Nat) : Work := if (w.part p).live && !(w.part p).stopped then w.stopPartition p else w

theorem stopLive_standing (w : Work) (p : Nat) : ((w.part p).live = true → ((w.stopLive p).part p).stopped = true) ∧
    ∀ q, ((w.stopLive p).part q).live = (w.part q).live ∧ ((w.part q).stopped = true → ((w.stopLive p).part q).stopped = true) := by
  unfold stopLive
  split
  · exact ⟨fun _ => (stopPartition_standing w p).1, (stopPartition_standing w p).2⟩
  · rename_i hc
    exact ⟨fun hl => by simpa [hl] using hc, fun q => ⟨rfl, id⟩⟩

theorem foldl_stopLive_stops (l : List Nat) (w : Work) (q : Nat) (h : (w.part q).stopped = true ∨ q ∈ l ∧ (w.part q).live = true) :
    ((l.foldl stopLive w).part q).stopped = true := by
  induction l generalizing w with
  | nil => exact h.resolve_right fun h => absurd h.1 List.not_mem_nil
  | cons x xs ih =>
    obtain ⟨hx, hq⟩ := stopLive_standing w x
    refine ih _ ?_
    obtain h | ⟨hm, hl⟩ := h
    · exact .inl ((hq q).2 h)
    · obtain rfl | hm := List.mem_cons.mp hm
      · exact .inl (hx hl)
      · exact .inr ⟨hm, (hq q).1.trans hl⟩

/-- With a second channel of a stack lost every live partition stops (R304, R18). -/
theorem stopLost_stops {w : Work} (h : ¬ w.channelFails.toList.all (· < 2)) {p : Nat} (hp : p < 4) (hl : (w.part p).live = true) :
    (w.stopLost.part p).stopped = true := by
  unfold stopLost
  rw [if_neg h]
  exact foldl_stopLive_stops _ _ _ (.inr ⟨List.mem_range.mpr hp, hl⟩)

end Work
end Sys2Proof.Machine
end

section
/-! PROOFS. How a partition command is taken (15_partitioning R307 to R309): in the order of the conditions that `command` asks, an equation per answer. -/
namespace Sys2Proof.Machine
namespace Work

variable {w : Work} {part port : Nat}

/-- A command of the port for the block goes on, or waits. -/
def Mine (w : Work) (part port : Nat) : Prop := w.mayWrite part port = true ∧
  (((w.part part).busy = true ∧ (w.part part).owner = some (port % 2)) ∨ ∃ c ∈ w.commands, commandOn part port c = true)

/-- Some command goes on or waits. -/
def Waits (w : Work) : Prop := w.commands ≠ [] ∨ ∃ k, k < 4 ∧ (w.part k).busy = true

/-- Perform a command, with the end it has or as one that goes on. -/
def perform (part : Nat) (f : Work → Option Nat × Work) (w : Work) : Work :=
  match f (w.modPart part fun q => { q with sts := 0 }) with
  | (some r, w1) => w1.endCommand part r
  | (none, w1) => w1.modPart part fun q => { q with busy := true }

theorem mayWrite_iff : w.mayWrite part port = true ↔ (w.part part).owner = none ∨ (w.part part).owner = some (port % 2) := by
  unfold mayWrite
  cases (w.part part).owner <;> simp

theorem any_busy_iff : ((List.range 4).any fun k => (w.part k).busy) = true ↔ ∃ k, k < 4 ∧ (w.part k).busy = true := by simp

theorem mine_iff : (w.mayWrite part port && (((w.part part).busy && (w.part part).owner == some (port % 2)) || w.commands.any (commandOn part port))) = true ↔
    w.Mine part port := by simp [Mine]

theorem waits_iff : (!w.commands.isEmpty || (List.range 4).any fun k => (w.part k).busy) = true ↔ w.Waits := by
  rw [Bool.or_eq_true, any_busy_iff, Waits]
  simp

theorem mayWrite_of_owner_ne {o : Nat} (ho : (w.part part).owner = some o) (hp : o ≠ port % 2) : w.mayWrite part port = false := by
  simp [mayWrite, ho, hp]

theorem not_mine_of_mayWrite (h : w.mayWrite part port = false) : ¬ w.Mine part port := fun hm => absurd hm.1 (by simp [h])

/-- The command performed; or, where its accesses are held, waiting. -/
def performOrWait (i : Instr) (part : Nat) (f : Work → Option Nat × Work) (w : Work) : Work :=
  if (w.tryHeld (perform part f)).1 = true then (w.tryHeld (perform part f)).2 else { w with commands := w.commands ++ [i] }

theorem performOrWait_eq (i : Instr) (f : Work → Option Nat × Work) (w : Work) : performOrWait i part f w =
    match w.tryHeld (perform part f) with
    | (true, v) => v
    | (false, _) => { w with commands := w.commands ++ [i] } := by
  unfold performOrWait
  rcases w.tryHeld (perform part f) with ⟨_ | _, v⟩ <;> rfl

theorem performOrWait_of_noneHeld {i : Instr} {f : Work → Option Nat × Work} (h : w.noneHeld = true) : performOrWait i part f w = perform part f w := by
  have ht : w.tryHeld (perform part f) = (true, perform part f w) := if_pos h
  rw [performOrWait, ht]
  rfl

/-- What the block's owner makes of a command that nothing goes before. -/
def perOwner (w : Work) (i : Instr) (part port : Nat) (create : Bool) (f : Work → Option Nat × Work) : Work :=
  match (w.part part).owner with
  | none => if create then performOrWait i part f w else w.endCommand part 4
  | some o => if o = port % 2 then performOrWait i part f w else if create then w.endCommand part 2 else w

section
variable {i : Instr} {create : Bool} {f : Work → Option Nat × Work} {o : Nat}

theorem perOwner_of_no_owner (ho : (w.part part).owner = none) :
    w.perOwner i part port create f = if create then performOrWait i part f w else w.endCommand part 4 := by rw [perOwner, ho]

theorem perOwner_of_other (ho : (w.part part).owner = some o) (hp : o ≠ port % 2) (hc : create = true) :
    w.perOwner i part port create f = w.endCommand part 2 := by
  rw [perOwner, ho]
  exact (if_neg hp).trans (if_pos hc)

theorem perOwner_performs (h : (w.part part).owner = none ∧ create = true ∨ (w.part part).owner = some (port % 2)) :
    w.perOwner i part port create f = performOrWait i part f w := by
  obtain ⟨ho, hc⟩ | ho := h
  · exact (perOwner_of_no_owner ho).trans (if_pos hc)
  · rw [perOwner, ho]
    exact if_pos rfl

end

section
variable {i : Instr} {create : Bool} {f : Work → Option Nat × Work}

theorem command_ignored (h : w.booted = false ∨ w.mayWrite part port = false ∧ create = false) : w.command i part port create f = w := by
  unfold command
  exact if_pos (by simpa using h)

section
variable (hb : w.booted = true)
include hb

variable (h : w.mayWrite part port = true ∨ create = true)
include h

theorem not_ignored : ¬ (!w.booted || (!w.mayWrite part port && !create)) = true := by
  obtain h | h := h <;> simp [hb, h]

theorem command_mine (hm : w.Mine part port) :
    w.command i part port create f = (w.modPart part fun q => { q with sts := BitVec.ofNat 64 (2 ^ 63 + 1) }).raiseMsi part 0 := by
  unfold command
  exact (if_neg (not_ignored hb h)).trans (if_pos (mine_iff.mpr hm))

theorem command_waits (hm : ¬ w.Mine part port) (hw : w.Waits) : w.command i part port create f = { w with commands := w.commands ++ [i] } := by
  unfold command
  exact (if_neg (not_ignored hb h)).trans ((if_neg (mt mine_iff.mp hm)).trans (if_pos (waits_iff.mpr hw)))

theorem command_first (hm : ¬ w.Mine part port) (hw : ¬ w.Waits) : w.command i part port create f = w.perOwner i part port create f := by
  unfold command perOwner
  refine (if_neg (not_ignored hb h)).trans ((if_neg (mt mine_iff.mp hm)).trans ((if_neg (mt waits_iff.mp hw)).trans ?_))
  rw [performOrWait_eq]
  rfl

end
end

/-- Every answer to a command that a port gives on a block (R307, R309). -/
theorem command_answers (w : Work) (part port : Nat) (i : Instr) (create : Bool) (f : Work → Option Nat × Work) :
    (w.booted = false ∨ w.mayWrite part port = false ∧ create = false → w.command i part port create f = w) ∧
    (w.booted = true → w.Mine part port →
      w.command i part port create f = (w.modPart part fun q => { q with sts := BitVec.ofNat 64 (2 ^ 63 + 1) }).raiseMsi part 0) ∧
    (w.booted = true → w.mayWrite part port = true ∨ create = true → ¬ w.Mine part port → w.Waits →
      w.command i part port create f = { w with commands := w.commands ++ [i] }) ∧
    (w.booted = true → ¬ w.Mine part port → ¬ w.Waits → (w.part part).owner = none → create = false →
      w.command i part port create f = w.endCommand part 4) ∧
    (∀ o, w.booted = true → ¬ w.Waits → (w.part part).owner = some o → o ≠ port % 2 → create = true →
      w.command i part port create f = w.endCommand part 2) ∧
    (w.booted = true → ¬ w.Mine part port → ¬ w.Waits → ((w.part part).owner = none ∧ create = true ∨ (w.part part).owner = some (port % 2)) →
      (w.noneHeld = true → w.command i part port create f = perform part f w) ∧
      w.command i part port create f = performOrWait i part f w) := by
  refine ⟨command_ignored, fun hb hm => command_mine hb (.inl hm.1) hm, fun hb => command_waits hb, fun hb hm hw ho hc => ?_,
    fun o hb hw ho hp hc => ?_, fun hb hm hw ho => ?_⟩
  · rw [command_first hb (.inl (mayWrite_iff.mpr (.inl ho))) hm hw, perOwner_of_no_owner ho, hc]
    rfl
  · rw [command_first hb (.inr hc) (not_mine_of_mayWrite (mayWrite_of_owner_ne ho hp)) hw, perOwner_of_other ho hp hc]
  · have hr : w.command i part port create f = performOrWait i part f w := by
      rw [command_first hb (.inl (mayWrite_iff.mpr (ho.imp_left And.left))) hm hw, perOwner_performs ho]
    exact ⟨fun hn => hr.trans (performOrWait_of_noneHeld hn), hr⟩

theorem runCommands_of_busy (h : ∃ k, k < 4 ∧ (w.part k).busy = true) : w.runCommands = w := if_pos (any_busy_iff.mpr h)

theorem runCommands_of_idle (h : ∀ k, k < 4 → (w.part k).busy = false) :
    w.runCommands = { w with commands := [], pending := w.pending ++ w.commands.map fun i => ⟨0, 0, i⟩ } :=
  if_neg fun hb => by
    obtain ⟨k, hk, e⟩ := any_busy_iff.mp hb
    rw [h k hk] at e
    contradiction

theorem raiseMsi_parts (w : Work) (p v : Nat) : (w.raiseMsi p v).parts = w.parts := by
  unfold raiseMsi
  split
  · split <;> rfl
  · rfl

theorem raiseMsi_part (w : Work) (p v q : Nat) : (w.raiseMsi p v).part q = w.part q := by rw [part, raiseMsi_parts, part]

theorem raiseMsi_msi (w : Work) (p : Nat) : (w.raiseMsi p 0).msi = w.msi ++ match (w.part p).owner with | some o => [(o, 0)] | none => [] := by
  unfold raiseMsi
  cases (w.part p).owner with
  | none => exact (List.append_nil _).symm
  | some o => rfl

theorem endCommand_part (w : Work) (part r : Nat) :
    (w.endCommand part r).part part = { w.part part with sts := BitVec.ofNat 64 (2 ^ 63 + r), busy := false } := by
  unfold endCommand
  rw [raiseMsi_part]
  exact part_modPart_same ..

theorem endCommand_msi (w : Work) (part r : Nat) :
    (w.endCommand part r).msi = w.msi ++ match (w.part part).owner with | some o => [(o, 0)] | none => [] := by
  unfold endCommand
  rw [raiseMsi_msi, part_modPart_same]
  rfl

/-- Which block and port a command is on. -/
theorem commandOn_iff {port : Nat} {i : Instr} {a b : Nat} (h : i = .createPart a b ∨ i = .destroyPart a b ∨ i = .swapOut a b ∨ i = .swapIn a b ∨
    i = .remapPart a b ∨ i = .resetPart a b ∨ i = .setGroups a b ∨ ∃ pages, i = .installModel a b pages) :
    commandOn part port i = true ↔ a = part ∧ b % 2 = port % 2 := by
  obtain rfl | rfl | rfl | rfl | rfl | rfl | rfl | ⟨pages, rfl⟩ := h <;> simp [commandOn]

end Work
end Sys2Proof.Machine
end

section
/-! PROOFS. CREATE (15_partitioning R309, R310): its results in the order in which it asks; what it has made of the block where it succeeds. -/
namespace Sys2Proof.Machine

/-- What an access leaves behind, whatever it answered. -/
theorem QuietAcc.of_eq {α : Type} {m : Acc α} {u w v : Work} {r : Except Bad α} (hm : QuietAcc m) (h : Work.Quiet u w) (e : m w = (r, v)) : Work.Quiet u v :=
  h.trans (by
    have hw := hm w
    rw [e] at hw
    exact hw)

namespace Work

/-- Reading and writing the boot course's queue changes no partition. -/
theorem Quiet.enqueueBoot {u w : Work} {p : Nat} (h : Quiet u w) : Quiet u (w.enqueueBoot p).2 := by
  have ha : Quiet u (w.attempt (schedRead p (w.part p).bootc 128)).2 := h.attempt QuietAcc.schedRead
  unfold Work.enqueueBoot
  dsimp only
  generalize w.attempt (schedRead p (w.part p).bootc 128) = r at ha ⊢
  obtain ⟨img, w1⟩ := r
  cases img with
  | none => exact ha
  | some img =>
    have hr : Quiet u (w1.homeRead p (w.part p).qbase 32).2 := ha.homeRead
    dsimp only
    split
    · exact ha
    · split
      · exact hr
      · split
        · rename_i e
          exact (QuietAcc.schedWrite.of_eq hr.homeWrite e).sample
        · rename_i e
          exact QuietAcc.schedWrite.of_eq hr.homeWrite e

/-- Address of the descriptor, and the descriptor there. -/
def descAddr (w : Work) (p port : Nat) : Nat := (nth (w.part p).daddr port).toNat
def descAt (w : Work) (p port : Nat) : BitVec 4096 := BitVec.ofNat 4096 (leNat (w.bytes (hostAddr port (w.descAddr p port)) 512))

/-- The block as CREATE makes it. -/
def createdBlock (w : Work) (p port : Nat) : Partition := { Partition.absent with
  owner := some (port % 2), live := true, sts := (w.part p).sts, daddr := (w.part p).daddr, featImg := (w.part p).featImg
  feat := featLocked (nth (w.part p).featImg port), desc := w.descAt p port }

/-- The block made, with no line, translation or message left of what was in it. -/
def emptyBlock (w : Work) (p port : Nat) : Work :=
  let v := ((w.modPart p fun _ => w.createdBlock p port).dropTlbs p).dropRx p fun _ => false
  (((v.l2.filter fun e => e.2.part == p).map (·.1)).foldl (fun w l => w.evictLine l) v).l2Trim

/-- It with the block's handles and floors cleared. -/
def clearedBlock (w : Work) (p port : Nat) : Work := { w.emptyBlock p port with
  handles := (w.emptyBlock p port).handles.filter fun e => !(w.createdBlock p port).ownsHandle (BitVec.ofNat 64 e.1)
  floors := (w.emptyBlock p port).floors.filter fun e => e.1 % 4 != p }

/-- CREATE past its checks: the boot course is queued, or nothing has happened. -/
def bootBlock (w : Work) (p port : Nat) : Nat × Work :=
  match (w.clearedBlock p port).enqueueBoot p with
  | (true, v) => (0, v)
  | (false, v) => (3, w.alsoHeld v)

theorem create_eq (w : Work) (p port : Nat) : w.create p port =
    if (w.part p).live || (w.part p).stopped then (2, w)
    else if w.descAddr p port % 64 ≠ 0 then (3, w)
    else if descBad (w.descAt p port) then (3, w)
    else if (List.range 4).any fun k => k != p && (w.part k).live && descClash { w.part p with desc := w.descAt p port } (w.part k) then (2, w)
    else w.bootBlock p port := rfl

variable {w : Work} {p port : Nat}

theorem clearedBlock_part : (w.clearedBlock p port).part p = w.createdBlock p port := by
  have hd : Quiet (w.modPart p fun _ => w.createdBlock p port) ((w.modPart p fun _ => w.createdBlock p port).dropTlbs p) := (Quiet.refl _).dropTlbs
  have hq : Quiet (((w.modPart p fun _ => w.createdBlock p port).dropTlbs p).dropRx p fun _ => false) (w.emptyBlock p port) := by
    unfold emptyBlock
    extract_lets v
    have hv : Quiet v (((v.l2.filter fun e => e.2.part == p).map (·.1)).foldl (fun w l => w.evictLine l) v) :=
      Quiet.foldl (.refl v) fun _ _ hv => hv.evictLine
    exact hv.l2Trim
  have hc : (w.clearedBlock p port).parts = (w.emptyBlock p port).parts := rfl
  calc (w.clearedBlock p port).part p = (w.emptyBlock p port).part p := by rw [part, hc, part]
    _ = (((w.modPart p fun _ => w.createdBlock p port).dropTlbs p).dropRx p fun _ => false).part p := hq.part p
    _ = ((w.modPart p fun _ => w.createdBlock p port).dropTlbs p).part p := rfl
    _ = (w.modPart p fun _ => w.createdBlock p port).part p := hd.part p
    _ = w.createdBlock p port := part_modPart_same ..

theorem bootBlock_cases (w : Work) (p port : Nat) :
    (∃ v, w.bootBlock p port = (0, v) ∧ v.part p = w.createdBlock p port) ∨ ∃ v, w.bootBlock p port = (3, w.alsoHeld v) := by
  unfold bootBlock
  split
  · rename_i v e
    have hp : v.part p = (w.clearedBlock p port).part p := by
      have hq := (Quiet.refl (w.clearedBlock p port)).enqueueBoot (p := p)
      rw [e] at hq
      exact hq.part p
    exact .inl ⟨v, rfl, hp.trans clearedBlock_part⟩
  · exact .inr ⟨_, rfl⟩

theorem create_conflict (h : (w.part p).live = true ∨ (w.part p).stopped = true) : w.create p port = (2, w) := by
  rw [create_eq]
  exact if_pos (by simpa using h)

theorem create_badDesc (hl : (w.part p).live = false) (hs : (w.part p).stopped = false)
    (h : w.descAddr p port % 64 ≠ 0 ∨ descBad (w.descAt p port) = true) : w.create p port = (3, w) := by
  rw [create_eq]
  refine (if_neg (by simp [hl, hs])).trans ?_
  by_cases ha : w.descAddr p port % 64 ≠ 0
  · exact if_pos ha
  · exact (if_neg ha).trans (if_pos (h.resolve_left ha))

/-- CREATE fails and leaves everything, but for what it waits for; or it has made the block. -/
theorem create_cases (w : Work) (p port : Nat) :
    ((w.create p port).1 ≠ 0 ∧ { (w.create p port).2 with focus := w.focus } = w) ∨
      (w.create p port).1 = 0 ∧ (w.create p port).2.part p = w.createdBlock p port := by
  rw [create_eq]
  split_ifs
  · exact .inl ⟨Nat.succ_ne_zero _, rfl⟩
  · exact .inl ⟨Nat.succ_ne_zero _, rfl⟩
  · exact .inl ⟨Nat.succ_ne_zero _, rfl⟩
  · exact .inl ⟨Nat.succ_ne_zero _, rfl⟩
  · obtain ⟨v, e, hp⟩ | ⟨v, e⟩ := bootBlock_cases w p port
    · rw [e]
      exact .inr ⟨rfl, hp⟩
    · rw [e]
      exact .inl ⟨Nat.succ_ne_zero _, rfl⟩

end Work
end Sys2Proof.Machine
end

section
/-! PROOFS. What each partition command performs (15_partitioning R307 to R309, R312, 11_flash R222, 12_network R391). -/
namespace Sys2Proof.Machine

variable {part port : Nat} {s : State}

theorem ite_bool_not_and {α : Type} (a b : Bool) (x y : α) : (if !(a && b) then x else y) = if a = false ∨ b = false then x else y := by
  cases a <;> cases b <;> rfl

theorem exec_createPart : exec (.createPart part port) s = .next (lift (fun w => w.command (.createPart part port) part port true
    fun w => (some (w.create part port).1, (w.create part port).2)) s) := rfl

theorem exec_destroyPart : exec (.destroyPart part port) s = .next (lift (fun w => w.command (.destroyPart part port) part port false
    fun w => (some 0, w.destroy part)) s) := rfl

theorem exec_swapOut : exec (.swapOut part port) s = .next (lift (fun w => w.command (.swapOut part port) part port false fun w =>
    if (w.part part).live = false ∨ (w.part part).swapen = false then (some 4, w)
    else if (List.range 4).any fun k => (w.part k).swapped && (w.diesOf part).any fun x => (w.diesOf k).contains x then (some 2, w)
    else (none, w.modPart part fun q => { q with swapped := true, selected := none })) s) := by
  simp only [← ite_bool_not_and]
  rfl

theorem exec_swapIn : exec (.swapIn part port) s = .next (lift (fun w => w.command (.swapIn part port) part port false fun w =>
    if (w.part part).live = false ∨ (w.part part).swapen = false then (some 4, w)
    else (some 0, (w.modPart part fun q => { q with swapped := false }).undefer part)) s) := by
  simp only [← ite_bool_not_and]
  rfl

theorem exec_remapPart : exec (.remapPart part port) s = .next (lift (fun w => w.command (.remapPart part port) part port false
    fun w => (some 0, w.dropTlbs part)) s) := rfl

theorem exec_installModel {pages : List FlashPage} : exec (.installModel part port pages) s =
    .next (lift (fun w => w.command (.installModel part port pages) part port false fun w =>
      if w.flash.toList.any fun x => x.spare == 0 then (some 5, w)
      else (some 0, pages.foldl (fun w g => if 2 ^ 39 * 14 ≤ 16384 * g.lpage then w
        else w.write (pageKey g.lpage) (w.bytes (Work.hostAddr port g.src) 16384)) w)) s) := rfl

theorem exec_resetPart : exec (.resetPart part port) s = .next (lift (fun w => w.command (.resetPart part port) part port false
    fun w => (some 0, ((w.destroy part).raiseMsi part 0).modPart part fun q => { q with owner := none, stopped := false })) s) := rfl

theorem exec_setGroups : exec (.setGroups part port) s = .next (lift (fun w => w.command (.setGroups part port) part port false fun w =>
    let bs := w.bytes (Work.hostAddr port (nth (w.part part).daddr port).toNat) 4096
    let gs : List GroupEntry := (List.range 16).map fun k => BitVec.ofNat 2048 (leNat (bs.drop (256 * k) |>.take 256))
    if gs.any Work.groupBad then (some 3, w) else (some 0,
      (w.modPart part fun q => { q with groups := gs }).dropRx part fun k => (w.part part).groups[k]? == gs[k]?)) s) := rfl

end Sys2Proof.Machine
end

section
/-! PRoff % bs.length = 0FS. The register space as the hosts write and read it (15_partitioning R306, R308, R312, 11_flash R228). -/
namespace Sys2Proof.Machine

theorem lift_eq_self {f : Work → Work} {s : State} (h : f s.work = s.work) : lift f s = s := by
  rw [← left_eq_lift, h]
  rfl

theorem lift_congr {f g : Work → Work} {s : State} (h : f s.work = g s.work) : lift f s = lift g s := by
  rw [← left_eq_lift, ← left_eq_lift, h]

theorem lift_ite_pos {c : Work → Prop} [∀ w, Decidable (c w)] {f g : Work → Work} {s : State} (h : c s.work) :
    lift (fun w => if c w then f w else g w) s = lift f s := lift_congr (if_pos h)

theorem lift_ite_neg {c : Work → Prop} [∀ w, Decidable (c w)] {f g : Work → Work} {s : State} (h : ¬ c s.work) :
    lift (fun w => if c w then f w else g w) s = lift g s := lift_congr (if_neg h)

theorem lift_mem_of_log {f : Work → Work} {s : State} (h : (f s.work).log = []) : (lift f s).mem = s.mem := by
  rw [lift_mem, h]
  rfl

/-- A register's bytes replaced whole. -/
theorem patchBytes_whole {old bs : List Byte} (h : bs.length = old.length) : patchBytes old 0 bs = bs := by
  simp [patchBytes, ← h]

namespace Work
variable {w : Work} {part port off : Nat} {bs : List Byte}

theorem barWrite_ignored (h : bs.length ≠ 4 ∧ bs.length ≠ 8 ∨ off % bs.length ≠ 0 ∨ w.booted = false) : w.barWrite port off bs = w := by
  unfold barWrite
  exact if_pos (by simpa using h)

/-- A write within a partition's control block. -/
theorem barWrite_control {k : Nat} (hl : bs.length = 4 ∨ bs.length = 8) (ha : off % bs.length = 0) (hb : w.booted = true) (hp : part < 4)
    (hk : k < 0x1000) (ho : off = 0x10000 + 0x1000 * part + k) : w.barWrite port off bs = w.writeControl part port k bs := by
  unfold barWrite
  refine (if_neg (by simp [ha, hb]; omega)).trans ((if_pos (by omega)).trans ?_)
  rw [show (off - 0x10000) / 0x1000 = part by omega, show off % 0x1000 = k by omega]

/-- DADDR written whole. -/
theorem writeControl_daddr (hl : bs.length = 8) (hw : w.mayWrite part port = true) :
    w.writeControl part port 0x40 bs = w.modPart part fun q => { q with daddr := setNth q.daddr port (wordOf bs) } := by
  have hb (q : Partition) : patchBytes (leBytes 8 (nth q.daddr port).toNat) 0 bs = bs := patchBytes_whole (by rw [hl, leBytes_length])
  simp [writeControl, hw, hb]

theorem writeFeat_ignored {lo : Nat} (h : w.mayWrite part port = false ∨ (w.part part).live = true) : w.writeFeat part port lo bs = w := by
  unfold writeFeat
  exact if_pos (by simpa using h)

theorem barRead_of_size {n : Nat} (h4 : n ≠ 4) (h8 : n ≠ 8) : w.barRead port off n = 0 := by
  simp [barRead, h4, h8]

theorem barRead_of_misaligned {n : Nat} (h : off % n ≠ 0) : w.barRead port off n = 0 := if_pos h

theorem barRead_four (h : off % 4 = 0) :
    w.barRead port off 4 = (field (w.barRead port (off / 8 * 8) 8) (8 * (off % 8)) 32).setWidth 64 := by
  simp [barRead, h]

end Work

variable {part port off j : Nat} {bs : List Byte} {s : State}

theorem exec_registerWrite : exec (.registerWrite port off bs) s = .next (lift (fun w => w.barWrite port off bs) s) := rfl

theorem exec_registerWrite_ignored (h : bs.length ≠ 4 ∧ bs.length ≠ 8 ∨ off % bs.length ≠ 0 ∨ s.booted = false) :
    exec (.registerWrite port off bs) s = .next s := congrArg _ (lift_eq_self (Work.barWrite_ignored h))

/-- Whether a write to FEAT_ACCEPT counts. -/
theorem featAcceptWrite_ignored_iff {b : Bool} : (!b || (bs.length != 4 && bs.length != 8) || off % bs.length != 0 || off < 0x80 || 0xA0 ≤ off) = true ↔
    b = false ∨ (bs.length ≠ 4 ∧ bs.length ≠ 8) ∨ off % bs.length ≠ 0 ∨ off < 0x80 ∨ 0xA0 ≤ off := by simp [or_assoc]

theorem exec_featAcceptWrite_eq : exec (.featAcceptWrite part port off bs) s = .next (lift (fun w =>
    if !w.booted || (bs.length != 4 && bs.length != 8) || off % bs.length != 0 || off < 0x80 || 0xA0 ≤ off then w
    else w.writeFeat part port (off - 0x80) bs) s) := rfl

theorem exec_featAcceptWrite_ignored (h : bs.length ≠ 4 ∧ bs.length ≠ 8 ∨ off % bs.length ≠ 0 ∨ s.booted = false) :
    exec (.featAcceptWrite part port off bs) s = .next s := by
  have hc : s.work.booted = false ∨ (bs.length ≠ 4 ∧ bs.length ≠ 8) ∨ off % bs.length ≠ 0 ∨ off < 0x80 ∨ 0xA0 ≤ off := by
    obtain h | h | h := h
    · exact .inr (.inl h)
    · exact .inr (.inr (.inl h))
    · exact .inl h
  rw [exec_featAcceptWrite_eq, lift_ite_pos (featAcceptWrite_ignored_iff.mpr hc), lift_id]

theorem exec_registerWrite_daddr (hl : bs.length = 8) (ho : off = 0x10000 + 0x1000 * part + 0x40) (hp : part < 4) (hb : s.booted = true)
    (hw : s.work.mayWrite part port = true) :
    ∃ t, exec (.registerWrite port off bs) s = .next t ∧ t.mem = s.mem ∧ nth (t.work.part part).daddr port = wordOf bs := by
  have he : s.work.barWrite port off bs = s.work.modPart part fun q => { q with daddr := setNth q.daddr port (wordOf bs) } :=
    (Work.barWrite_control (.inr hl) (by rw [hl]; omega) hb hp (by omega) ho).trans (Work.writeControl_daddr hl hw)
  refine ⟨_, exec_registerWrite, lift_mem_of_log (by rw [he]; rfl), ?_⟩
  have hp : (lift (fun w => w.barWrite port off bs) s).work.part part = (s.work.barWrite port off bs).part part := rfl
  rw [hp, he, Work.part_modPart_same]
  exact nth_setNth_same ..

theorem exec_featAcceptWrite (hl : bs.length = 4 ∨ bs.length = 8) (ha : off % bs.length = 0) (hb : s.booted = true) (h0 : 0x80 ≤ off) (h1 : off < 0xA0) :
    exec (.featAcceptWrite part port off bs) s = .next (lift (fun w => w.writeFeat part port (off - 0x80) bs) s) := by
  rw [exec_featAcceptWrite_eq]
  refine congrArg _ (lift_congr (if_neg (mt featAcceptWrite_ignored_iff.mp ?_)))
  rintro (h | h | h | h)
  · exact absurd (hb.symm.trans h) nofun
  all_goals omega

theorem setLimit_lim {w : Work} {v : BitVec 32} : ((w.setLimit j v).stack j).lim = if v.toNat < 16 then 16 else v :=
  congrArg Stack.lim (Work.stack_modStack_same ..)

theorem exec_disturbLimWrite {v : BitVec 32} : ∃ t, exec (.disturbLimWrite j v) s = .next t ∧ t.mem = s.mem ∧
    (s.booted = true → (t.work.stack j).lim = if v.toNat < 16 then 16 else v) ∧ (s.booted = false → t = s) := by
  have he : exec (.disturbLimWrite j v) s = .next (lift (fun w => if w.booted then w.setLimit j v else w) s) := rfl
  cases hb : s.booted with
  | false =>
    rw [he, lift_ite_neg (by rw [State.work_booted, hb]; nofun), lift_id]
    exact ⟨s, rfl, rfl, nofun, fun _ => rfl⟩
  | true =>
    rw [he, lift_ite_pos hb]
    exact ⟨_, rfl, rfl, fun _ => setLimit_lim (w := s.work), nofun⟩

end Sys2Proof.Machine
end

section
/-! PROOFS. Power (15_partitioning R315, R316, R320, R321): what is gone when it goes, and what a package has when it comes. -/
namespace Sys2Proof.Machine

theorem nth_map {α β : Type} {n : Nat} (f : α → β) (v : Vector α (n + 1)) (i : Nat) : nth (Vector.map f v) i = f (nth v i) := by
  simp [nth, Vector.get]

namespace Work

/-- Memory after a wipe is applied: 0 in it, and elsewhere what the log before it leaves. -/
theorem get_applyLog_wipe (w : Work) {m : Memory} (h : Memory.wf m = true) (k n a : Nat) :
    (applyLog m (w.wipe k n).log).get a = if k ≤ a ∧ a < k + n then 0#8 else (applyLog m w.log).get a := by
  have hl : (w.wipe k n).log = ⟨k, n, []⟩ :: w.log := rfl
  rw [hl, applyLog, Memory.get_put (applyLog_wf h w.log), List.length_nil, Nat.max_zero, List.getD_nil]

end Work

/-- The rails go down: what the machine is without power, its memory, and its flash. -/
structure Dark (s t : State) : Prop where
  power : t.power = false
  booted : t.booted = false
  insts : t.insts = []
  cores : t.cores = []
  handles : t.handles = []
  gone : ∀ k, k < 2 ^ 48 ∨ 2 ^ 52 ≤ k ∧ k < 2 ^ 52 + 2 ^ 56 → t.work.byte k = 0
  stays : ∀ k, 2 ^ 48 ≤ k ∧ k < 2 ^ 48 + 7 * 2 ^ 40 ∨ 2 ^ 51 ≤ k ∧ k < 2 ^ 52 → t.work.byte k = s.work.byte k
  flash : ∀ n, (t.work.stack n).map = (s.work.stack n).map ∧ (t.work.stack n).retired = (s.work.stack n).retired ∧ (t.work.stack n).spare = (s.work.stack n).spare

theorem powerLost_byte {s : State} (h : s.Inv) (k : Nat) : (lift Work.powerLost s).work.byte k =
    if 2 ^ 52 ≤ k ∧ k < 2 ^ 52 + 2 ^ 56 then 0
    else if 2 ^ 48 + 7 * 2 ^ 40 ≤ k ∧ k < 2 ^ 48 + 7 * 2 ^ 40 + (2 ^ 51 - 2 ^ 48 - 7 * 2 ^ 40) then 0
    else if 0 ≤ k ∧ k < 0 + 2 ^ 48 then 0 else s.work.byte k := by
  have hb : (lift Work.powerLost s).work.byte k = (applyLog s.mem (((s.work.wipe 0 (2 ^ 48)).wipe (2 ^ 48 + 7 * 2 ^ 40)
      (2 ^ 51 - 2 ^ 48 - 7 * 2 ^ 40)).wipe (2 ^ 52) (2 ^ 56)).log).get k := rfl
  rw [hb, Work.get_applyLog_wipe _ h, Work.get_applyLog_wipe _ h, Work.get_applyLog_wipe _ h]
  rfl

theorem dark_powerLost {s : State} (h : s.Inv) : Dark s (lift Work.powerLost s) where
  power := rfl
  booted := rfl
  insts := rfl
  cores := rfl
  handles := rfl
  gone k hk := by
    rw [powerLost_byte h]
    obtain hk | hk := hk
    · rw [if_neg (by omega), if_neg (by omega), if_pos (by omega)]
    · rw [if_pos hk]
  stays k hk := by
    rw [powerLost_byte h, if_neg (by omega), if_neg (by omega), if_neg (by omega)]
  flash n := by
    have hf : (lift Work.powerLost s).work.stack n = (s.work.stack n).kept := nth_map Stack.kept s.flash n
    rw [hf]
    exact ⟨rfl, rfl, rfl⟩

section
variable {s : State}

theorem exec_powerDown_eq : exec .powerDown s = .next (lift (fun w => if w.power then w.powerLost else w) s) := rfl

theorem exec_thermalTrip_eq {d : Nat} : exec (.thermalTrip d) s = .next (lift (fun w => if w.power && decide (d < 4) then w.powerLost else w) s) := rfl

theorem exec_powerDown_of_dark (hp : s.power = false) : exec .powerDown s = .next s := by
  rw [exec_powerDown_eq, lift_ite_neg (by rw [State.work_power, hp]; nofun), lift_id]

theorem exec_thermalTrip_of_none {d : Nat} (h : s.power = false ∨ 4 ≤ d) : exec (.thermalTrip d) s = .next s := by
  have hc : ¬ (s.work.power && decide (d < 4)) = true := by
    obtain h | h := h
    · simp [h]
    · simp [h]
  rw [exec_thermalTrip_eq, lift_ite_neg hc, lift_id]

theorem exec_powerDown (hp : s.power = true) : exec .powerDown s = .next (lift Work.powerLost s) := by
  rw [exec_powerDown_eq, lift_ite_pos hp]

theorem exec_thermalTrip {d : Nat} (hp : s.power = true) (hd : d < 4) : exec (.thermalTrip d) s = .next (lift Work.powerLost s) := by
  rw [exec_thermalTrip_eq, lift_ite_pos (by simp [hp, hd])]

end

/-! ## Power-up -/

/-- A fold that changes the member of each number of a list, and no other, applies each change once. -/
theorem foldl_members {σ α : Type} {b : Nat} {get : σ → Nat → α} {step : σ → Nat → σ} {g : Nat → α → α}
    (same : ∀ v j, get (step v j) j = g j (get v j)) (other : ∀ v j k, j < b → k < b → j ≠ k → get (step v j) k = get v k)
    {k : Nat} (hk : k < b) : ∀ (l : List Nat) (v : σ), l.Nodup → (∀ j ∈ l, j < b) →
      get (l.foldl step v) k = if k ∈ l then g k (get v k) else get v k
  | [], v, _, _ => rfl
  | j :: l, v, hn, hb => by
    obtain ⟨hj, hl⟩ := List.nodup_cons.mp hn
    have ih := foldl_members same other hk l (step v j) hl fun i hi => hb i (.tail j hi)
    rw [List.foldl_cons, ih]
    by_cases e : k = j
    · rw [e, if_neg hj, if_pos (.head l), same]
    · rw [other v j k (hb j (.head l)) hk (Ne.symm e)]
      simp [e]

/-- The same over the first numbers. -/
theorem foldl_range_members {σ α : Type} {b : Nat} {get : σ → Nat → α} {step : σ → Nat → σ} {g : Nat → α → α}
    (same : ∀ v j, get (step v j) j = g j (get v j)) (other : ∀ v j k, j < b → k < b → j ≠ k → get (step v j) k = get v k)
    {k : Nat} (hk : k < b) (v : σ) : get ((List.range b).foldl step v) k = g k (get v k) :=
  (foldl_members same other hk _ v List.nodup_range fun _ hj => List.mem_range.mp hj).trans (if_pos (List.mem_range.mpr hk))

/-- What POWER_UP does to the machine without power. -/
def Work.bootFrom (rom : List Byte) (control : BootImage) (flash : List BootImage) (w : Work) : Work :=
  let ok (j : Nat) : Bool := match flash[j]? with | some i => w.imageOk i | none => false
  { w with
    power := true
    booted := w.imageOk (w.stagedImage.getD control)
    flash := (List.range 8).foldl (fun (f : Vector Stack 8) j => setNth f j { nth f j with inService := ok j }) w.flash
    stagedImage := none
    measures := Work.measure ([rom, (w.stagedImage.getD control).bytes] ++ flash.map (·.bytes)) }

theorem Work.bootFrom_inService (rom : List Byte) (control : BootImage) (flash : List BootImage) (w : Work) {n : Nat} (hn : n < 8) :
    ((w.bootFrom rom control flash).stack n).inService = match flash[n]? with | some i => w.imageOk i | none => false :=
  congrArg Stack.inService (foldl_range_members (get := nth)
    (step := fun (f : Vector Stack 8) j => setNth f j { nth f j with inService := match flash[j]? with | some i => w.imageOk i | none => false })
    (g := fun j (x : Stack) => { x with inService := match flash[j]? with | some i => w.imageOk i | none => false })
    (fun v j => nth_setNth_same v j _) (fun v j k hj hk e => nth_setNth_other v _ (by omega)) hn w.flash)

section
variable {s : State} {rom : List Byte} {control : BootImage} {flash : List BootImage}

theorem exec_powerUp_eq : exec (.powerUp rom control flash) s = .next (lift (fun w => if w.power then w else w.bootFrom rom control flash) s) := rfl

theorem exec_powerUp_of_power (hp : s.power = true) : exec (.powerUp rom control flash) s = .next s := by
  rw [exec_powerUp_eq, lift_ite_pos hp, lift_id]

theorem exec_powerUp (hp : s.power = false) : exec (.powerUp rom control flash) s = .next (lift (Work.bootFrom rom control flash) s) := by
  rw [exec_powerUp_eq, lift_ite_neg (by rw [State.work_power, hp]; nofun)]

end

theorem imageOk_iff {w : Work} {i : BootImage} : w.imageOk i = true ↔ w.fuseVersion ≤ i.version ∧ Config.signatureOk i.bytes i.signature = true := by
  simp [Work.imageOk]

end Sys2Proof.Machine
end

section
/-! PROOFS. The power and cooling check (15_partitioning R320): the clock's steps, and the trip of a die at 110 °C. -/
namespace Sys2Proof.Machine

/-- The same machine but for what is to be performed. -/
def Work.SameButPending (w v : Work) : Prop := { v with pending := w.pending } = w

namespace Work.SameButPending
variable {u w v : Work}

theorem refl (w : Work) : SameButPending w w := rfl

theorem trans (h : SameButPending u w) (k : SameButPending w v) : SameButPending u v := by
  have e : ({ v with pending := u.pending } : Work) = { ({ v with pending := w.pending } : Work) with pending := u.pending } := rfl
  rw [SameButPending, e, k]
  exact h

theorem todo (h : SameButPending u w) {n c : Nat} {i : Instr} : SameButPending u (w.todo n c i) := h

theorem ite {p : Prop} [Decidable p] (h : SameButPending u w) (k : SameButPending u v) : SameButPending u (if p then w else v) := by
  split
  · exact h
  · exact k

theorem sample (h : SameButPending u w) {src : BitVec 8} {watched : BitVec 16} {x : Nat} : SameButPending u (w.sample src watched x) := ite h.todo h

theorem foldl {α : Type} {f : Work → α → Work} {l : List α} (h : SameButPending u w) (hf : ∀ v x, SameButPending u v → SameButPending u (f v x)) :
    SameButPending u (l.foldl f w) := by
  induction l generalizing w with
  | nil => exact h
  | cons x xs ih => exact ih (hf w x h)

end Work.SameButPending

/-- Too much power, or a die too hot. -/
def tooHot (mw : Nat) (cs : List Nat) : Bool := decide (3200000 < mw) || cs.any fun t => decide (105000 < t)
/-- At least 5 % below both limits. -/
def coolEnough (mw : Nat) (cs : List Nat) : Bool := decide (mw ≤ 3040000) && cs.all fun t => decide (t ≤ 99750)

theorem tooHot_iff {mw : Nat} {cs : List Nat} : tooHot mw cs = true ↔ 3200000 < mw ∨ ∃ c ∈ cs, 105000 < c := by simp [tooHot]
theorem coolEnough_iff {mw : Nat} {cs : List Nat} : coolEnough mw cs = true ↔ mw ≤ 3040000 ∧ ∀ c ∈ cs, c ≤ 99750 := by simp [coolEnough]

namespace Work

/-- The clock and its counters after a check. -/
def regulated (mw : Nat) (cs : List Nat) (w : Work) : Work :=
  let long := if coolEnough mw cs then w.coolNs + 100000 else 0
  { w with
    mhz := if tooHot mw cs then max 400 (w.mhz - 25) else if coolEnough mw cs && decide (1000000 ≤ long) then min 800 (w.mhz + 25) else w.mhz
    coolNs := long, powerDue := w.powerDue + 100000 }

/-- It with the check's samples. -/
def checked (mw : Nat) (cs : List Nat) (w : Work) : Work :=
  let v := (w.regulated mw cs).sample 9 0xFFFF (w.regulated mw cs).mhz
  if w.powerDue / 100000 % 10 = 0 then ((List.range cs.length).zip cs).foldl (fun w (d, t) => w.sample 8 (BitVec.ofNat 16 d) t) v else v

/-- A check that is due. -/
def powerCheck (mw : Nat) (cs : List Nat) (w : Work) : Work :=
  match hotDie cs with
  | some d => (w.checked mw cs).todo 0 0 (.thermalTrip d)
  | none => w.checked mw cs

variable {mw : Nat} {cs : List Nat} {w : Work}

theorem checked_same : SameButPending (w.regulated mw cs) (w.checked mw cs) :=
  have hv : SameButPending (w.regulated mw cs) ((w.regulated mw cs).sample 9 0xFFFF (w.regulated mw cs).mhz) := (SameButPending.refl _).sample
  .ite (hv.foldl fun _ _ h => h.sample) hv

theorem powerCheck_same : SameButPending (w.regulated mw cs) (w.powerCheck mw cs) := by
  unfold powerCheck
  split
  · exact checked_same.todo
  · exact checked_same

theorem powerCheck_trips {c : Nat} (hc : c ∈ cs) (hot : 110000 ≤ c) :
    ∃ d, d < cs.length ∧ (⟨0, 0, .thermalTrip d⟩ : Todo) ∈ (w.powerCheck mw cs).pending := by
  have hd : ∃ d, hotDie cs = some d := by
    rw [← Option.isSome_iff_exists, hotDie, List.findIdx?_isSome]
    simpa using ⟨c, hc, hot⟩
  obtain ⟨d, hd⟩ := hd
  obtain ⟨hl, -⟩ := List.findIdx?_eq_some_iff_getElem.mp hd
  refine ⟨d, hl, ?_⟩
  unfold powerCheck
  rw [hd]
  exact List.mem_append_right _ (.head _)

end Work

variable {s : State} {mw : Nat} {cs : List Nat}

theorem exec_powerCheck_eq : exec (.powerCheck mw cs) s = .next (lift (fun w => if w.ns < w.powerDue then w else w.powerCheck mw cs) s) := rfl

theorem exec_powerCheck_of_early (h : s.ns < s.powerDue) : exec (.powerCheck mw cs) s = .next s := by
  rw [exec_powerCheck_eq, lift_ite_pos h, lift_id]

/-- The clock steps down while it is too hot, and up where it has been cool enough for a millisecond. -/
theorem regulated_mhz (w : Work) (hot cool : Prop) (hh : tooHot mw cs = true ↔ hot) (hc : coolEnough mw cs = true ↔ cool) :
    (cool → (w.regulated mw cs).coolNs = w.coolNs + 100000) ∧ (¬cool → (w.regulated mw cs).coolNs = 0) ∧
    (hot → (w.regulated mw cs).mhz = max 400 (w.mhz - 25)) ∧ (¬hot → cool → 900000 ≤ w.coolNs → (w.regulated mw cs).mhz = min 800 (w.mhz + 25)) ∧
    (¬hot → ¬cool ∨ w.coolNs < 900000 → (w.regulated mw cs).mhz = w.mhz) := by
  rw [← hh, ← hc]
  refine ⟨fun h => if_pos h, fun h => if_neg h, fun h => if_pos h, fun h hk hl => ?_, fun h hk => ?_⟩
  · simp only [Work.regulated]
    rw [if_neg h, if_pos (by simpa [hk] using by omega)]
  · simp only [Work.regulated]
    rw [if_neg h, if_neg]
    cases e : coolEnough mw cs with
    | false => nofun
    | true =>
      have hl : w.coolNs < 900000 := hk.resolve_left fun hn => hn e
      simpa using hl

theorem exec_powerCheck (h : s.powerDue ≤ s.ns) : exec (.powerCheck mw cs) s = .next (lift (Work.powerCheck mw cs) s) := by
  rw [exec_powerCheck_eq, lift_ite_neg (Nat.not_lt.mpr h)]

/-- A check that is due, with what it leaves. -/
theorem powerCheck_leaves (s : State) (mw : Nat) (cs : List Nat) : let t := lift (Work.powerCheck mw cs) s
    t.mem = s.mem ∧ t.powerDue = s.powerDue + 100000 ∧ t.coolNs = (s.work.regulated mw cs).coolNs ∧ t.mhz = (s.work.regulated mw cs).mhz := by
  have hs : Work.SameButPending (s.work.regulated mw cs) (s.work.powerCheck mw cs) := Work.powerCheck_same
  exact ⟨lift_mem_of_log (congrArg Work.log hs), congrArg (·.powerDue) hs, congrArg (·.coolNs) hs, congrArg (·.mhz) hs⟩

end Sys2Proof.Machine
end

section
/-! PROOFS. Failures of links, rails and channels (02_memory R13, R15, R18, 15_system R313): what is noted, what moves to other rails, what stops. -/
namespace Sys2Proof.Machine

theorem nth_mem {α : Type} {n : Nat} (v : Vector α (n + 1)) (i : Nat) : nth v i ∈ v.toList := by
  simp [nth, Vector.get]

namespace Work

/-! ## Packets (R313) -/

/-- The cells that go on a rail. -/
def onRail (cells : List (Nat × Nat)) (r : Nat) : List Nat := (cells.filter fun x => x.2 == r).map (·.1)

theorem mem_onRail {cells : List (Nat × Nat)} {r c : Nat} : c ∈ onRail cells r ↔ (c, r) ∈ cells := by
  simp [onRail]

theorem mem_packetsOf {cells : List (Nat × Nat)} {k : Packet} : k ∈ packetsOf cells ↔
    ∃ r < 4, ∃ j < ((onRail cells r).length + 7) / 8, (⟨r, ((onRail cells r).drop (8 * j)).take 8⟩ : Packet) = k := by
  simp only [packetsOf, List.mem_flatMap, List.mem_range, List.mem_map]
  rfl

theorem packetsOf_cells {cells : List (Nat × Nat)} {k : Packet} (hk : k ∈ packetsOf cells) :
    k.cells.length ≤ 8 ∧ ∀ c ∈ k.cells, (c, k.rail) ∈ cells := by
  obtain ⟨r, -, j, -, rfl⟩ := mem_packetsOf.mp hk
  exact ⟨List.length_take_le .., fun c hc => mem_onRail.mp (List.mem_of_mem_drop (List.mem_of_mem_take hc))⟩

/-- A packet's rail is one that some cell goes on. -/
theorem packetsOf_rail {cells : List (Nat × Nat)} {k : Packet} (hk : k ∈ packetsOf cells) : ∃ c, (c, k.rail) ∈ cells := by
  obtain ⟨r, -, j, hj, rfl⟩ := mem_packetsOf.mp hk
  obtain ⟨c, hc⟩ := List.exists_mem_of_length_pos (l := onRail cells r) (by omega)
  exact ⟨c, mem_onRail.mp hc⟩

theorem packetsOf_complete {cells : List (Nat × Nat)} {x : Nat × Nat} (hx : x ∈ cells) (hr : x.2 < 4) :
    ∃ k ∈ packetsOf cells, k.rail = x.2 ∧ x.1 ∈ k.cells := by
  obtain ⟨i, hi, hc⟩ := List.getElem_of_mem (mem_onRail.mpr hx)
  refine ⟨_, mem_packetsOf.mpr ⟨x.2, hr, i / 8, by omega, rfl⟩, rfl, ?_⟩
  have hlt : i - 8 * (i / 8) < (((onRail cells x.2).drop (8 * (i / 8))).take 8).length := by
    simp only [List.length_take, List.length_drop]
    omega
  refine List.mem_iff_getElem.mpr ⟨i - 8 * (i / 8), hlt, ?_⟩
  simp only [List.getElem_take, List.getElem_drop, show 8 * (i / 8) + (i - 8 * (i / 8)) = i by omega]
  exact hc

/-! ## A rail leaves service (R240) -/

/-- The machine with the rail down. -/
def railDown (rail : Nat) (w : Work) : Work := { w with railsUp := setNth w.railsUp rail false, health := w.health ++ [HealthEntry.railLost rail] }

/-- Where a cell goes when its rail is down. -/
def moved (w : Work) (rail c : Nat) : Nat × Nat := (c, w.railsIn.getD (c % max w.railsIn.length 1) rail)

/-- A message's packets when a rail is down: its cells are packed again. -/
def repacked (w : Work) (rail : Nat) (m : SentMessage) : SentMessage := { m with
  packets := (m.packets.filter fun k => k.rail != rail) ++ packetsOf ((m.packets.filter fun k => k.rail == rail).flatMap fun k => k.cells.map (w.moved rail)) }

/-- The rail down, and its cells moved. -/
def leaveRail (rail : Nat) (w : Work) : Work := { w.railDown rail with sent := (w.railDown rail).sent.map ((w.railDown rail).repacked rail) }

theorem railsUp_of_mem_railsIn {w : Work} {r : Nat} : r ∈ w.railsIn ↔ r < 4 ∧ nth w.railsUp r = true := by
  simp [railsIn]

/-- A cell goes to a rail in service where there is one. -/
theorem moved_up {w : Work} {rail c : Nat} (h : ∃ r, r < 4 ∧ nth w.railsUp r = true) : nth w.railsUp (w.moved rail c).2 = true := by
  obtain ⟨r, hr⟩ := h
  have hp : 0 < w.railsIn.length := List.length_pos_of_mem (railsUp_of_mem_railsIn.mpr hr)
  have hi : c % max w.railsIn.length 1 < w.railsIn.length := by
    rw [Nat.max_eq_left hp]
    exact Nat.mod_lt _ hp
  have hm : (w.moved rail c).2 ∈ w.railsIn := by
    rw [moved, List.getD_eq_getElem _ _ hi]
    exact List.getElem_mem hi
  exact (railsUp_of_mem_railsIn.mp hm).2

/-- While a rail is in service, no packet stays on the one that left. -/
theorem leaveRail_moves {w : Work} {rail : Nat} (h : ∃ r, r < 4 ∧ nth (w.leaveRail rail).railsUp r = true) :
    ∀ m ∈ (w.leaveRail rail).sent, ∀ k ∈ m.packets, k.rail ≠ rail := by
  intro m hm k hk e
  obtain ⟨m, -, rfl⟩ := List.mem_map.mp hm
  obtain hk | hk := List.mem_append.mp hk
  · simp [e] at hk
  · obtain ⟨c, hc⟩ := packetsOf_rail hk
    obtain ⟨p, -, hc⟩ := List.mem_flatMap.mp hc
    obtain ⟨x, -, hx⟩ := List.mem_map.mp hc
    have hr : ((w.railDown rail).moved rail x).2 = k.rail := congrArg Prod.snd hx
    have hup : nth (w.railDown rail).railsUp k.rail = true := hr ▸ moved_up h
    rw [e] at hup
    exact absurd hup (by simp [railDown])

end Work

section
variable {s : State} {rail j : Nat}

theorem exec_railFail_eq : exec (.railFail rail) s = .next (lift (fun w => if 4 ≤ rail then w else w.leaveRail rail) s) := rfl

theorem exec_railFail_of_none (h : 4 ≤ rail) : exec (.railFail rail) s = .next s := by
  rw [exec_railFail_eq, lift_ite_pos h, lift_id]

theorem exec_railFail (h : rail < 4) : exec (.railFail rail) s = .next (lift (Work.leaveRail rail) s) := by
  rw [exec_railFail_eq, lift_ite_neg (by omega)]

/-! ## A channel fails (R18, R304) -/

/-- A channel of the stack noted as lost. -/
def Work.channelLost (j : Nat) (w : Work) : Work :=
  { w with channelFails := setNth w.channelFails j (nth w.channelFails j + 1), health := w.health ++ [HealthEntry.channelLost j] }

theorem exec_channelFail_eq : exec (.channelFail j) s = .next (lift (fun w => if nth w.channelFails j = 0
    then { w.channelLost j with stackHeld := setNth w.stackHeld j (some (w.ns + 200000)) } else (w.channelLost j).unlessHeld Work.stopLost) s) := rfl

theorem exec_channelFail_first (h : nth s.channelFails j = 0) : exec (.channelFail j) s =
    .next (lift (fun w => { w.channelLost j with stackHeld := setNth w.stackHeld j (some (w.ns + 200000)) }) s) := by
  rw [exec_channelFail_eq, lift_ite_pos h]

theorem exec_channelFail_second (h : nth s.channelFails j ≠ 0) : exec (.channelFail j) s =
    .next (lift (fun w => (w.channelLost j).unlessHeld Work.stopLost) s) := by
  rw [exec_channelFail_eq, lift_ite_neg h]

/-- The second channel of a stack stops every live partition. -/
theorem channelLost_stops {w : Work} (h : nth w.channelFails j ≠ 0) (hn : w.noneHeld = true) {p : Nat} (hp : p < 4) (hl : (w.part p).live = true) :
    ((((w.channelLost j).unlessHeld Work.stopLost).part p).stopped) = true := by
  have hu : (w.channelLost j).unlessHeld Work.stopLost = (w.channelLost j).stopLost := by
    rw [Work.unlessHeld, Work.tryHeld]
    exact congrArg Prod.snd (if_pos hn)
  have hf : ¬ (w.channelLost j).channelFails.toList.all (· < 2) = true := by
    intro ha
    have hj : nth (w.channelLost j).channelFails j < 2 := by
      simpa using List.all_eq_true.mp ha _ (nth_mem _ j)
    have he : nth (w.channelLost j).channelFails j = nth w.channelFails j + 1 := nth_setNth_same ..
    omega
  rw [hu]
  exact Work.stopLost_stops hf hp hl

end
end Sys2Proof.Machine
end

section
/-! PROOFS. A core in error and its spare (14_traps R303): what stops, and what the spare takes over. -/
namespace Sys2Proof.Machine

variable {s : State} {core : Nat}

/-! ## A core in error (R303) -/

namespace Work

/-- The core is retired; a spare is on its way while the die has one left. -/
def retireCore (core : Nat) (w : Work) : Work :=
  { (w.modCore core fun c => { c with enabled := false, spareDue := if nth w.sparesUsed (core / 32) < 2 then some (w.ns + 2000000) else none }) with
    sparesUsed := if nth w.sparesUsed (core / 32) < 2 then setNth w.sparesUsed (core / 32) (nth w.sparesUsed (core / 32) + 1) else w.sparesUsed }

/-- Every instance with a rill on the core counts the error, and goes back or is frozen. -/
def haltRills (core : Nat) (dmg : Bool) (w : Work) : Work :=
  (w.insts.filter fun i => i.live && i.st != .frozen && i.rills.any fun r => r.core == core).foldl (fun w i =>
    let w := w.countInstFault i.id 1 0x3F
    if dmg then w.goBack i.id else w.beginFreeze i.id) w

/-- A core in error: retired, its L1 sent on, its rills halted. -/
def coreError (core : Nat) (dmg : Bool) (w : Work) : Work :=
  haltRills core dmg ((w.retireCore core).cleanL1 ((w.retireCore core).corePart core) core fun _ => true)

theorem retireCore_eq (core : Nat) (w : Work) : w.retireCore core =
    let used := nth w.sparesUsed (core / 32)
    let v := w.modCore core fun c => { c with enabled := false, spareDue := if used < 2 then some (w.ns + 2000000) else none }
    if used < 2 then { v with sparesUsed := setNth v.sparesUsed (core / 32) (used + 1) } else v := by
  unfold retireCore
  by_cases h : nth w.sparesUsed (core / 32) < 2
  · simp only [if_pos h]
    rfl
  · simp only [if_neg h]
    rfl

end Work

theorem exec_coreError_eq {dmg : Bool} : exec (.coreError core dmg) s =
    .next (lift (fun w => if !(w.core core).enabled then w else w.coreError core dmg) s) := by
  simp only [Work.coreError, Work.retireCore_eq]
  rfl

theorem exec_coreError_of_disabled {dmg : Bool} (h : (s.work.core core).enabled = false) : exec (.coreError core dmg) s = .next s := by
  rw [exec_coreError_eq, lift_ite_pos (by simp [h]), lift_id]

theorem exec_coreError {dmg : Bool} (h : (s.work.core core).enabled = true) : exec (.coreError core dmg) s = .next (lift (Work.coreError core dmg) s) := by
  rw [exec_coreError_eq, lift_ite_neg (by simp [h])]

/-! ## The spare takes over (R303) -/

namespace Work

/-- Forget in every block that the core's cluster has been cleared. -/
def unclear (core : Nat) (w : Work) : Work :=
  (List.range 4).foldl (fun w p => w.modPart p fun q => { q with cleared := q.cleared.filter (· != core) }) w

/-- The spare in the core's place. -/
def takeOver (core : Nat) (w : Work) : Work :=
  ((w.unclear core).cleanL1 ((w.unclear core).corePart core) core fun _ => true).modCore core fun c => { Core.reset with queues := c.queues }

theorem unclear_part {core : Nat} {w : Work} {p : Nat} (hp : p < 4) :
    (w.unclear core).part p = { w.part p with cleared := (w.part p).cleared.filter (· != core) } :=
  foldl_range_members (get := part) (g := fun _ q => { q with cleared := q.cleared.filter (· != core) })
    (fun v j => part_modPart_same v j _) (fun v j k hj hk e => part_modPart_other v _ (by omega)) hp w

theorem foldl_modPart_cores (f : Partition → Partition) (l : List Nat) (w : Work) : (l.foldl (fun w p => w.modPart p f) w).cores = w.cores := by
  induction l generalizing w with
  | nil => rfl
  | cons n ns ih => exact ih (w.modPart n f)

theorem takeOver_core (core : Nat) (w : Work) : (w.takeOver core).core core = { Core.reset with queues := (w.core core).queues } := by
  have hq : Quiet (w.unclear core) ((w.unclear core).cleanL1 ((w.unclear core).corePart core) core fun _ => true) := (Quiet.refl _).cleanL1
  have hu : (w.unclear core).core core = w.core core := by
    rw [Work.core, Work.core, unclear, foldl_modPart_cores]
  rw [takeOver, core_modCore_same, hq.queues, hu]

theorem takeOver_cleared {core : Nat} {w : Work} {p : Nat} (hp : p < 4) : core ∉ ((w.takeOver core).part p).cleared := by
  have hq : Quiet (w.unclear core) ((w.unclear core).cleanL1 ((w.unclear core).corePart core) core fun _ => true) := (Quiet.refl _).cleanL1
  have hc : (w.takeOver core).part p = (w.unclear core).part p := hq.part p
  rw [hc, unclear_part hp]
  simp

theorem any_freezing_iff {core : Nat} {w : Work} : (w.insts.any fun i => i.st == .freezing && i.cores.contains core) = true ↔
    ∃ i ∈ w.insts, i.st = .freezing ∧ core ∈ i.cores := by
  simp

end Work

theorem exec_spareTakeover_eq : exec (.spareTakeover core) s = .next (lift (fun w => if (w.core core).spareDue.isNone then w
    else if w.insts.any fun i => i.st == .freezing && i.cores.contains core then w else w.takeOver core) s) := rfl

theorem exec_spareTakeover_waits (h : (s.work.core core).spareDue = none ∨ ∃ i ∈ s.insts, i.st = .freezing ∧ core ∈ i.cores) :
    exec (.spareTakeover core) s = .next s := by
  rw [exec_spareTakeover_eq]
  obtain h | h := h
  · rw [lift_ite_pos (by rw [h]; rfl), lift_id]
  · refine congrArg _ (lift_eq_self ?_)
    have hf := Work.any_freezing_iff (w := s.work).mpr h
    rw [if_pos hf, ite_self]

theorem exec_spareTakeover (hd : (s.work.core core).spareDue ≠ none) (hf : ∀ i ∈ s.insts, i.st = .freezing → core ∉ i.cores) :
    exec (.spareTakeover core) s = .next (lift (Work.takeOver core) s) := by
  rw [exec_spareTakeover_eq, lift_ite_neg (by simpa using hd), lift_ite_neg]
  intro h
  obtain ⟨i, hi, hs, hc⟩ := Work.any_freezing_iff.mp h
  exact hf i hi hs hc

end Sys2Proof.Machine
end

section
/-! PROOFS. Monitor samples (15_partitioning R317, R318) and attestation (R316). -/
namespace Sys2Proof.Machine

/-! ## A sample offered to every unit -/

namespace Work

/-- Unit `n` is offered a sample. -/
def offer (src : BitVec 8) (watched : BitVec 16) (v : Nat) (w : Work) (n : Nat) : Work :=
  if (w.monitor n).takes n src watched then w.modMonitor n fun m => m.takeAt w.cycle v else w

variable {src : BitVec 8} {watched : BitVec 16} {v : Nat} {w : Work}

theorem offer_cycle (n : Nat) : (w.offer src watched v n).cycle = w.cycle := by
  unfold offer
  split <;> rfl

theorem offer_log (n : Nat) : (w.offer src watched v n).log = w.log := by
  unfold offer
  split <;> rfl

theorem offer_monitor_same (n : Nat) : (w.offer src watched v n).monitor n =
    if (w.monitor n).takes n src watched then (w.monitor n).takeAt w.cycle v else w.monitor n := by
  unfold offer
  split
  · exact nth_setNth_same ..
  · rfl

theorem offer_monitor_other {n k : Nat} (h : n % 16 ≠ k % 16) : (w.offer src watched v n).monitor k = w.monitor k := by
  unfold offer
  split
  · exact nth_setNth_other _ _ h
  · rfl

/-- The sample offered to all units: each that takes it has it, with the cycle. -/
theorem foldl_offer_monitor {n : Nat} (hn : n < 16) : ((List.range 16).foldl (offer src watched v) w).monitor n =
    if (w.monitor n).takes n src watched then (w.monitor n).takeAt w.cycle v else w.monitor n :=
  congrArg Prod.snd (foldl_range_members (get := fun (w : Work) n => (w.cycle, w.monitor n))
    (g := fun n (x : Nat × Monitor) => (x.1, if x.2.takes n src watched then x.2.takeAt x.1 v else x.2))
    (fun w j => Prod.ext (offer_cycle j) (offer_monitor_same j))
    (fun w j k hj hk e => Prod.ext (offer_cycle j) (offer_monitor_other (by omega))) hn w)

theorem foldl_offer_log (l : List Nat) (w : Work) : (l.foldl (offer src watched v) w).log = w.log := by
  induction l generalizing w with
  | nil => rfl
  | cons n ns ih => exact (ih _).trans (offer_log n)

end Work

theorem exec_monSample {s : State} {src : BitVec 8} {watched : BitVec 16} {v : Nat} :
    exec (.monSample src watched v) s = .next (lift (fun w => (List.range 16).foldl (Work.offer src watched v) w) s) := rfl

/-! ## What a unit makes of a sample -/

/-- A bin counts up to all ones. -/
theorem toNat_count (x : Word) : (if x = 0xFFFFFFFFFFFFFFFF#64 then x else x + 1).toNat = min (x.toNat + 1) (2 ^ 64 - 1) := by
  split
  · rename_i h
    rw [h]
    rfl
  · rename_i h
    bv_omega

section
variable {m : Monitor} {v : Nat}

/-- The sample as a unit counts it. -/
def Monitor.scaled (m : Monitor) (v : Nat) : Nat := v / 2 ^ (field m.cfg 32 8).toNat

/-- The scaled sample as it is compared. -/
def Monitor.clipped (m : Monitor) (v : Nat) : Word := BitVec.ofNat 64 (Nat.min (m.scaled v) (2 ^ 64 - 1))

theorem toNat_clipped (h : m.scaled v < 2 ^ 64) : (m.clipped v).toNat = m.scaled v := by
  rw [Monitor.clipped, BitVec.toNat_ofNat, show Nat.min (m.scaled v) (2 ^ 64 - 1) = m.scaled v from Nat.min_eq_left (by omega)]
  exact Nat.mod_eq_of_lt h

theorem take_min (h : m.scaled v < 2 ^ 64) : (m.take v).min.toNat = min m.min.toNat (m.scaled v) := by
  have ht : (m.take v).min = if (m.clipped v).toNat < m.min.toNat then m.clipped v else m.min := rfl
  rw [ht, apply_ite BitVec.toNat, toNat_clipped h]
  split <;> omega

theorem take_max (h : m.scaled v < 2 ^ 64) : (m.take v).max.toNat = max m.max.toNat (m.scaled v) := by
  have ht : (m.take v).max = if m.max.toNat < (m.clipped v).toNat then m.clipped v else m.max := rfl
  rw [ht, apply_ite BitVec.toNat, toNat_clipped h]
  split <;> omega

theorem monBin_lt (x : Nat) : monBin x < 32 := by
  unfold monBin
  split <;> omega

theorem take_hist {k : Nat} (hk : k < 32) : (nth (m.take v).hist k).toNat =
    if k = monBin (m.scaled v) then min ((nth m.hist k).toNat + 1) (2 ^ 64 - 1) else (nth m.hist k).toNat := by
  have ht : (m.take v).hist = setNth m.hist (monBin (m.scaled v)) (if nth m.hist (monBin (m.scaled v)) = 0xFFFFFFFFFFFFFFFF#64
    then nth m.hist (monBin (m.scaled v)) else nth m.hist (monBin (m.scaled v)) + 1) := rfl
  have hb := monBin_lt (m.scaled v)
  rw [ht]
  by_cases e : k = monBin (m.scaled v)
  · rw [if_pos e, ← e, nth_setNth_same, toNat_count]
  · rw [if_neg e, nth_setNth_other _ _ (by omega)]

end

/-! ## Attestation (R316) -/

/-- The report's body: nonce, measurements, FEAT_OFFER, and each partition's locked features (log entry 34). -/
def reportBody (s : State) (nonce : List Byte) : List Byte :=
  nonce ++ s.measures.flatMap (fun m => leBytes 64 m.toNat) ++ leBytes 32 0x3F ++
    (List.range 4).flatMap fun p => leBytes 32 (if (s.work.part p).live then (s.work.part p).feat.toNat else 0)

/-- The report with its signature. -/
def report (s : State) (nonce : List Byte) : List Byte := reportBody s nonce ++ Config.identitySign (reportBody s nonce)

theorem exec_attestationReport_doe {s : State} {nonce : List Byte} {p : Nat} : exec (.attestationReport ⟨nonce, .doe p⟩) s =
    .next (lift (fun w => if !w.booted then w else { w with doe := setNth w.doe (p % 2) (nth w.doe (p % 2) ++ [report s nonce]) }) s) := rfl

theorem exec_attestationReport_mctp {s : State} {nonce : List Byte} : exec (.attestationReport ⟨nonce, .mctp⟩) s =
    .next (lift (fun w => { w with mctp := w.mctp ++ [report s nonce] }) s) := rfl

end Sys2Proof.Machine
end

section
/-! PROOFS. Partition commands, registers, power, failures, monitors and attestation, assembled (15_partitioning R306 to R321, 14_traps R303). -/
namespace Sys2Proof.Machine

/-- CREATE's results, and what it has made of the block. -/
theorem create_answers (w : Work) (part port : Nat) :
    ((w.part part).live = true ∨ (w.part part).stopped = true → w.create part port = (2, w)) ∧
    ((w.part part).live = false → (w.part part).stopped = false → w.descAddr part port % 64 ≠ 0 ∨ Work.descBad (w.descAt part port) = true →
      w.create part port = (3, w)) ∧
    ((w.create part port).1 ≠ 0 → { (w.create part port).2 with focus := w.focus } = w) ∧
    ((w.create part port).1 = 0 → part < 4 → let p := (w.create part port).2.part part
      p.live = true ∧ p.owner = some (port % 2) ∧ p.desc = w.descAt part port ∧ p.feat = (nth (w.part part).featImg port &&& 0x3F#256) ||| 1#256) := by
  have hc := Work.create_cases w part port
  refine ⟨Work.create_conflict, Work.create_badDesc, fun h => ?_, fun h _ => ?_⟩
  · exact (hc.resolve_right fun hz => h hz.1).2
  · obtain ⟨-, hp⟩ := hc.resolve_left fun hz => hz.1 h
    dsimp only
    rw [hp]
    exact ⟨rfl, rfl, rfl, rfl⟩

/-- What DESTROY leaves of the partition. -/
theorem destroy_leaves (w : Work) (part : Nat) : let p := (w.destroy part).part part
    p.live = false ∧ p.courses = [] ∧ p.groups = [] ∧ p.owner = (w.part part).owner ∧ (∀ x ∈ (w.destroy part).rx, x.part ≠ part) ∧
    ((w.insts.map (·.id)).Nodup → ∀ i ∈ (w.destroy part).insts, i.part = part → i.st = .killed ∨ i.st = .completed) := by
  intro p
  have hp : p = Work.destroyed ((w.killAll (w.insts.filter fun i => i.part == part)).part part) := Work.destroy_part w part
  have ho : p.owner = (w.part part).owner := Work.destroy_owner w part
  refine ⟨congrArg Partition.live hp, congrArg Partition.courses hp, congrArg Partition.groups hp, ho, Work.part_ne_of_mem_destroy_rx, fun hn i hi hip => ?_⟩
  rw [Work.destroy_insts] at hi
  exact Work.killAll_part_settled hn hi hip

/-- Power-off and power-up. -/
theorem power_answers (s : State) (h : s.Inv) :
    let off (i : Instr) : Prop := ∃ t, exec i s = .next t ∧ t.power = false ∧ t.booted = false ∧ t.insts = [] ∧ t.cores = [] ∧ t.handles = [] ∧
      (∀ k, k < 2 ^ 48 ∨ 2 ^ 52 ≤ k ∧ k < 2 ^ 52 + 2 ^ 56 → t.work.byte k = 0) ∧
      (∀ k, 2 ^ 48 ≤ k ∧ k < 2 ^ 48 + 7 * 2 ^ 40 ∨ 2 ^ 51 ≤ k ∧ k < 2 ^ 52 → t.work.byte k = s.work.byte k) ∧
      ∀ n, (t.work.stack n).map = (s.work.stack n).map ∧ (t.work.stack n).retired = (s.work.stack n).retired ∧
        (t.work.stack n).spare = (s.work.stack n).spare
    (s.power = false → exec .powerDown s = .next s ∧ ∀ d, exec (.thermalTrip d) s = .next s) ∧
    (s.power = true → off .powerDown ∧ (∀ d, d < 4 → off (.thermalTrip d)) ∧ ∀ d, 4 ≤ d → exec (.thermalTrip d) s = .next s) := by
  intro off
  have hoff {i : Instr} (hi : exec i s = .next (lift Work.powerLost s)) : off i := by
    obtain ⟨hp, hb, hi', hc, hh, hg, hs, hf⟩ := dark_powerLost h
    exact ⟨_, hi, hp, hb, hi', hc, hh, hg, hs, hf⟩
  exact ⟨fun hp => ⟨exec_powerDown_of_dark hp, fun d => exec_thermalTrip_of_none (.inl hp)⟩,
    fun hp => ⟨hoff (exec_powerDown hp), fun d hd => hoff (exec_thermalTrip hp hd), fun d hd => exec_thermalTrip_of_none (.inr hd)⟩⟩

/-- What a power check that is due leaves. -/
theorem powerCheck_answers {s : State} (mw : Nat) (cs : List Nat) (h : s.powerDue ≤ s.ns) :
    ∃ t, exec (.powerCheck mw cs) s = .next t ∧ t.mem = s.mem ∧ t.powerDue = s.powerDue + 100000 ∧
      (let hot := 3200000 < mw ∨ ∃ c ∈ cs, 105000 < c
       let cool := mw ≤ 3040000 ∧ ∀ c ∈ cs, c ≤ 99750
       (cool → t.coolNs = s.coolNs + 100000) ∧ (¬cool → t.coolNs = 0) ∧ (hot → t.mhz = max 400 (s.mhz - 25)) ∧
       (¬hot → cool → 900000 ≤ s.coolNs → t.mhz = min 800 (s.mhz + 25)) ∧ (¬hot → ¬cool ∨ s.coolNs < 900000 → t.mhz = s.mhz)) ∧
      ((∃ c ∈ cs, 110000 ≤ c) → ∃ d, d < cs.length ∧ (⟨0, 0, .thermalTrip d⟩ : Todo) ∈ t.pending) := by
  obtain ⟨hm, hd, hc, hz⟩ := powerCheck_leaves s mw cs
  refine ⟨_, exec_powerCheck h, hm, hd, ?_, fun ⟨c, hc, hot⟩ => Work.powerCheck_trips hc hot⟩
  rw [hc, hz]
  exact regulated_mhz s.work _ _ tooHot_iff coolEnough_iff

/-- A report by either route. -/
theorem attestationReport_answers (s : State) (nonce : List Byte) (via : ReportRoute) :
    ∃ t body, exec (.attestationReport ⟨nonce, via⟩) s = .next t ∧ t.mem = s.mem ∧
      (match via with
        | .doe p => t.doe = (if s.booted = true then setNth s.doe (p % 2) (nth s.doe (p % 2) ++ [body ++ Config.identitySign body]) else s.doe) ∧ t.mctp = s.mctp
        | .mctp => t.mctp = s.mctp ++ [body ++ Config.identitySign body] ∧ t.doe = s.doe) ∧
      body = nonce ++ s.measures.flatMap (fun m => leBytes 64 m.toNat) ++ leBytes 32 0x3F ++
        (List.range 4).flatMap fun p => leBytes 32 (if (s.work.part p).live then (s.work.part p).feat.toNat else 0) := by
  cases via with
  | mctp => exact ⟨_, reportBody s nonce, exec_attestationReport_mctp, rfl, ⟨rfl, rfl⟩, rfl⟩
  | doe p =>
    rw [exec_attestationReport_doe]
    cases hb : s.booted with
    | false =>
      rw [lift_ite_pos (by rw [State.work_booted, hb]; rfl), lift_id]
      exact ⟨s, reportBody s nonce, rfl, rfl, ⟨rfl, rfl⟩, rfl⟩
    | true =>
      rw [lift_ite_neg (by rw [State.work_booted, hb]; nofun)]
      exact ⟨_, reportBody s nonce, rfl, rfl, ⟨rfl, rfl⟩, rfl⟩

/-- Every answer to a command, how commands wait, and how one ends. -/
theorem command_clauses (w : Work) (part port : Nat) (i : Instr) (create : Bool) (f : Work → Option Nat × Work) :
    (w.mayWrite part port = true ↔ (w.part part).owner = none ∨ (w.part part).owner = some (port % 2)) ∧
    (w.booted = false ∨ w.mayWrite part port = false ∧ create = false → w.command i part port create f = w) ∧
    (w.booted = true → w.Mine part port →
      w.command i part port create f = (w.modPart part fun q => { q with sts := BitVec.ofNat 64 (2 ^ 63 + 1) }).raiseMsi part 0) ∧
    (w.booted = true → w.mayWrite part port = true ∨ create = true → ¬ w.Mine part port → w.Waits →
      w.command i part port create f = { w with commands := w.commands ++ [i] }) ∧
    (w.booted = true → ¬ w.Mine part port → ¬ w.Waits → (w.part part).owner = none → create = false →
      w.command i part port create f = w.endCommand part 4) ∧
    (∀ o, w.booted = true → ¬ w.Waits → (w.part part).owner = some o → o ≠ port % 2 → create = true →
      w.command i part port create f = w.endCommand part 2) ∧
    (w.booted = true → ¬ w.Mine part port → ¬ w.Waits → ((w.part part).owner = none ∧ create = true ∨ (w.part part).owner = some (port % 2)) →
      (w.noneHeld = true → w.command i part port create f = Work.perform part f w) ∧
      w.command i part port create f = Work.performOrWait i part f w) ∧
    ((∃ k, k < 4 ∧ (w.part k).busy = true) → w.runCommands = w) ∧
    ((∀ k, k < 4 → (w.part k).busy = false) → w.runCommands.commands = [] ∧
      w.runCommands.pending = w.pending ++ w.commands.map fun i => ⟨0, 0, i⟩) ∧
    ∀ r, ((w.endCommand part r).part part).sts = BitVec.ofNat 64 (2 ^ 63 + r) ∧ ((w.endCommand part r).part part).busy = false ∧
      (w.endCommand part r).msi = w.msi ++ match (w.part part).owner with | some o => [(o, 0)] | none => [] := by
  obtain ⟨h1, h2, h3, h4, h5, h6⟩ := Work.command_answers w part port i create f
  refine ⟨Work.mayWrite_iff, h1, h2, h3, h4, h5, h6, Work.runCommands_of_busy, fun h => ?_, fun r => ?_⟩
  · rw [Work.runCommands_of_idle h]
    exact ⟨rfl, rfl⟩
  · rw [Work.endCommand_part]
    exact ⟨rfl, rfl, Work.endCommand_msi w part r⟩

/-- Settles O60, clause by clause: commands, registers, power, failures, monitors and attestation. -/
theorem partitionsPower : Obligations.PartitionsPower := by
  unfold Obligations.PartitionsPower
  intro s part port j core h W does cmd
  refine ⟨fun w i create f => command_clauses w part port i create f, fun i a b hi => Work.commandOn_iff hi,
    exec_createPart, fun w => create_answers w part port, exec_destroyPart, fun w => destroy_leaves w part, exec_swapOut, exec_swapIn, exec_remapPart,
    fun w => ⟨fun n => Work.part_ne_of_mem_dropTlbs_core, fun n => Work.part_ne_of_mem_dropTlbs_die⟩, fun pages => exec_installModel, exec_resetPart,
    exec_setGroups,
    -- registers
    fun off bs => ⟨exec_registerWrite, fun hi => ⟨exec_registerWrite_ignored hi, exec_featAcceptWrite_ignored hi⟩,
      fun hl ho hp hb hw => exec_registerWrite_daddr hl ho hp hb hw, fun hl ha hb h0 h1 => exec_featAcceptWrite hl ha hb h0 h1,
      fun w lo hi => Work.writeFeat_ignored hi⟩,
    fun off n => ⟨fun h4 h8 _ => Work.barRead_of_size h4 h8, Work.barRead_of_misaligned, Work.barRead_four⟩,
    fun v => exec_disturbLimWrite,
    -- power
    ?power, fun mw cs => exec_powerCheck_of_early, fun mw cs hd => powerCheck_answers mw cs hd,
    -- failures
    fun link => ⟨_, rfl, rfl, nth_setNth_same .., rfl⟩,
    fun rail => ⟨exec_railFail_of_none, fun hr => ⟨_, exec_railFail hr, rfl, nth_setNth_same .., rfl, Work.leaveRail_moves⟩⟩,
    fun cells => ⟨fun k hk => Work.packetsOf_cells hk, fun x hx hr => Work.packetsOf_complete hx hr⟩,
    ⟨_, rfl, rfl⟩,
    fun hz => ⟨_, exec_channelFail_first hz, rfl, nth_setNth_same .., ?first, rfl⟩,
    fun hz => ⟨_, exec_channelFail_second hz, rfl, fun hn p hp hl => channelLost_stops hz hn hp hl⟩,
    fun dmg => ⟨exec_coreError_of_disabled, fun he => exec_coreError he⟩,
    ⟨exec_spareTakeover_waits, fun hd hf => ⟨_, exec_spareTakeover hd hf, Work.takeOver_core core s.work, fun p hp => Work.takeOver_cleared hp⟩⟩,
    ⟨_, rfl, rfl, rfl⟩,
    -- monitors and attestation
    fun src watched v => ⟨_, exec_monSample, lift_mem_of_log (Work.foldl_offer_log _ _), fun n hn => Work.foldl_offer_monitor hn⟩,
    fun m c v => rfl, fun m v hx => ⟨take_min hx, take_max hx, rfl, fun k hk => take_hist hk⟩,
    fun nonce via => attestationReport_answers s nonce via, fun image => ⟨_, rfl, rfl, rfl⟩⟩
  case power =>
    obtain ⟨hoff, hon⟩ := power_answers s h
    refine ⟨hoff, hon, fun i => imageOk_iff, fun rom control flash => ⟨exec_powerUp_of_power, fun hp => ⟨_, exec_powerUp hp, rfl, rfl, rfl, rfl,
      fun n hn => Work.bootFrom_inService rom control flash s.work hn, rfl⟩⟩⟩
  case first =>
    have hf : nth (s.work.channelLost j).channelFails j = nth s.channelFails j + 1 := nth_setNth_same ..
    exact hf.trans (by rw [hz])

end Sys2Proof.Machine
end

section
/-! PROOFS. What accesses to memory leave of contexts, of the step's focus and of memory's log (08_memory R173 to R184, 09_ordering R201): a context keeps all
but what its wait has seen; a log that fits still does. -/
namespace Sys2Proof.Machine

/-- The focus without what an access notes there: what it waits for, and the merge windows it opened. -/
def Focus.apart (g : Focus) : Focus := { g with heldRead := false, heldWrite := false, opened := [] }

/-- The context without what its wait has seen. -/
def Ctx.apart (c : Ctx) : Ctx := { c with block := none }

namespace Work

/-- From `w` to `v` only what an access changes of contexts, of the focus and of memory's log has changed. -/
structure Still (w v : Work) : Prop where
  ctx : ∀ n k, (v.ctx n k).apart = (w.ctx n k).apart
  focus : v.focus.apart = w.focus.apart
  base : v.base = w.base
  fits : w.LogFits → v.LogFits

namespace Still

theorem refl (w : Work) : Still w w := ⟨fun _ _ => rfl, rfl, rfl, id⟩

variable {u w v : Work}

theorem trans (h : Still u w) (k : Still w v) : Still u v :=
  ⟨fun n i => (k.ctx n i).trans (h.ctx n i), k.focus.trans h.focus, k.base.trans h.base, fun f => k.fits (h.fits f)⟩

/-! ## The updates that accesses are made of -/

/-- An update that leaves cores, memory and its log alone. -/
theorem beside (h : Still u w) (hc : v.cores = w.cores) (hf : v.focus.apart = w.focus.apart) (hb : v.base = w.base) (hl : v.log = w.log) : Still u v :=
  h.trans ⟨fun n k => by rw [Work.ctx, Work.ctx, core, core, hc], hf, hb, fun f => by rwa [LogFits, hl]⟩

theorem ite {p : Prop} [Decidable p] (h : Still u w) (k : Still u v) : Still u (if p then w else v) := by
  split
  · exact h
  · exact k

theorem foldl {α : Type} {f : Work → α → Work} {l : List α} (h : Still u w) (hf : ∀ v x, Still u v → Still u (f v x)) : Still u (l.foldl f w) := by
  induction l generalizing w with
  | nil => exact h
  | cons x xs ih => exact ih (hf w x h)

section
variable {n k i pa part core line slice joined : Nat} {bs : List Byte} {mt : BitVec 2}

theorem modCore {f : Core → Core} (h : Still u w) (hf : ∀ c, (f c).ctxs = c.ctxs) : Still u (w.modCore n f) :=
  h.trans ⟨fun m k => by
    by_cases e : m = n
    · rw [Work.ctx, Work.ctx, e, core_modCore_same, hf]
    · rw [Work.ctx, Work.ctx, core_modCore_other w f e], rfl, rfl, id⟩

theorem modCtx {f : Ctx → Ctx} (h : Still u w) (hf : ∀ c, (f c).apart = c.apart) : Still u (w.modCtx n i f) :=
  h.trans ⟨fun m k => by
    by_cases e : m ≠ n ∨ i % 4 ≠ k % 4
    · rw [ctx_modCtx_other w f e]
    · obtain ⟨hm, hk⟩ := not_or.mp e
      obtain rfl := not_not.mp hm
      have same (w : Work) : w.ctx m k = w.ctx m i := nth_congr _ (not_not.mp hk).symm
      rw [same, same, ctx_modCtx_same, hf], rfl, rfl, id⟩

theorem modFocus {f : Focus → Focus} (h : Still u w) (hf : ∀ g, (f g).apart = g.apart) : Still u (w.modFocus f) := h.beside rfl (hf _) rfl rfl

variable (h : Still u w)
include h

theorem write : Still u (w.write k bs) :=
  h.trans ⟨fun n k => by rw [Work.ctx, Work.ctx, Work.core, Work.core, write_cores], by rw [write_focus], write_base .., fun f => f.write k bs⟩

theorem todo {c : Nat} {i : Instr} : Still u (w.todo n c i) := h.beside rfl rfl rfl rfl

theorem sample {src : BitVec 8} {watched : BitVec 16} : Still u (w.sample src watched n) := ite h.todo h

theorem setL2Stamps {s : LineStamps} : Still u (w.setL2Stamps line s) := h.beside rfl rfl rfl rfl

/-! ## L2 -/

theorem cleanHost : Still u (w.cleanHost line) := by
  unfold Work.cleanHost
  split
  · exact h
  · exact beside (foldl h fun _ _ hv => hv.write) rfl rfl rfl rfl

theorem evictLine : Still u (w.evictLine line) := by
  unfold Work.evictLine
  extract_lets w1 w2
  have h2 : Still u w2 := h.cleanHost.beside rfl rfl rfl rfl
  split
  · exact h2
  · exact h2.beside rfl rfl rfl rfl

theorem l2Room : Still u (w.l2Room slice) := by
  unfold Work.l2Room
  refine ite h ?_
  split
  · exact h
  · exact ite h h.evictLine

theorem endWindow : Still u (w.endWindow line) := by
  unfold Work.endWindow
  split
  · exact h
  · refine sample ?_
    exact h.beside rfl rfl rfl rfl

theorem joinWindow : Still u (w.joinWindow line joined) := h.beside rfl rfl rfl rfl

theorem afterWindow : Still u (w.afterWindow line) := ite h (ite (h.modFocus fun _ => rfl) h)

theorem l2Fill {b : Bool} : Still u (w.l2Fill part line b joined) := by
  unfold Work.l2Fill
  extract_lets w1 w2 w3 w4
  have h2 : Still u w2 := ite (h.l2Room.modFocus fun _ => by split <;> rfl) h.l2Room
  have h4 : Still u w4 := h2.setL2Stamps.endWindow
  exact ite h (ite h2.setL2Stamps.joinWindow (modFocus (h4.beside rfl rfl rfl rfl) fun _ => rfl))

theorem l2Data : Still u (w.l2Data pa n mt).2 := by
  unfold Work.l2Data
  split
  · split
    · exact h
    · exact h.beside rfl rfl rfl rfl
  · exact h

theorem l2Take : Still u (w.l2Take part pa n mt).2 := h.afterWindow.l2Fill.l2Data

theorem noteWaits : Still u (w.noteWaits pa n) :=
  foldl h fun _ _ hv => foldl hv fun _ _ hx => by
    split
    · exact ite (hx.modCtx fun _ => rfl) hx
    · exact hx

theorem l2Write : Still u (w.l2Write part pa bs mt) := by
  unfold Work.l2Write
  extract_lets line w1 w2
  have h1 : Still u w1 := h.afterWindow.l2Fill
  have h2 : Still u w2 := ite h1 (h1.beside rfl rfl rfl rfl)
  exact ite h.write (ite (h2.beside rfl rfl rfl rfl) h1.write.noteWaits)

theorem l2WriteMasked {data : Line} {mask : BitVec 128} : Still u (w.l2WriteMasked part line data mask mt) :=
  foldl h fun _ _ hv => hv.l2Write

theorem mergeUpd {x : UpdLine} : Still u (w.mergeUpd core x) := by
  unfold Work.mergeUpd
  extract_lets n p marks w1 bs w2
  have h1 : Still u w1 := h.modCore fun _ => rfl
  have h2 : Still u w2 := foldl h1 fun _ _ hv => ite hv.l2Take.l2Write hv
  exact h2.beside rfl rfl rfl rfl

/-! ## L1 at a release -/

theorem l1Clean : Still u (w.l1Clean part core line) := by
  unfold Work.l1Clean
  split
  · exact ite h (h.l2WriteMasked.modCore fun _ => rfl)
  · exact h

theorem cleanL1 {which : Nat → Bool} : Still u (w.cleanL1 part core which) :=
  foldl (foldl h fun _ _ hv => hv.l1Clean) fun _ _ hv => hv.mergeUpd

end

/-! ## What it says -/

variable (h : Still w v)
include h

/-- A field of a context that its wait is not. -/
theorem ctxField {α : Type} (f : Ctx → α) (hf : ∀ c, f c.apart = f c) (n k : Nat) : f (v.ctx n k) = f (w.ctx n k) := by
  rw [← hf, h.ctx, hf]

theorem focusField {α : Type} (f : Focus → α) (hf : ∀ g, f g.apart = f g) : f v.focus = f w.focus := by
  rw [← hf, h.focus, hf]

theorem meField {α : Type} (f : Ctx → α) (hf : ∀ c, f c.apart = f c) : f v.me = f w.me := by
  have hc : v.focus.core = w.focus.core := h.focusField (·.core) fun _ => rfl
  have hk : v.focus.ctx = w.focus.ctx := h.focusField (·.ctx) fun _ => rfl
  rw [me, me, hc, hk, h.ctxField f hf]

end Still
end Work
end Sys2Proof.Machine
end

section
/-! PROOFS. Contexts woken together, and instances under changes (02_execution R28, R40, R41): what each of them is afterwards. -/
namespace Sys2Proof.Machine

/-- A context whose wait ends at cycle `t` (R28). -/
def Ctx.awake (t : Nat) (c : Ctx) : Ctx := { c with st := if c.st = .blocked then .ready else c.st, block := none, readyAt := t }

/-- Some of rill number `r` that `which` picks runs on context `k` of core `n`. -/
def Inst.RunsOn (i : Inst) (which : Nat → Bool) (n k : Nat) : Prop :=
  ∃ r x, i.rills[r]? = some x ∧ which r = true ∧ x.core = n ∧ x.ctx % 4 = k % 4

/-- A fold of steps that keep a component keeps it. -/
theorem foldl_keeps {α β σ : Type} (g : σ → β) {f : σ → α → σ} (h : ∀ v x, g (f v x) = g v) (l : List α) (w : σ) : g (l.foldl f w) = g w := by
  induction l generalizing w with
  | nil => rfl
  | cons x xs ih => exact (ih (f w x)).trans (h w x)

namespace Work

section
variable (w : Work) (src : BitVec 8) (watched : BitVec 16) (v : Nat)
@[simp] theorem sample_cores : (w.sample src watched v).cores = w.cores := by unfold sample; split <;> rfl
@[simp] theorem sample_cycle : (w.sample src watched v).cycle = w.cycle := by unfold sample; split <;> rfl
@[simp] theorem sample_turn : (w.sample src watched v).turn = w.turn := by unfold sample; split <;> rfl
@[simp] theorem sample_insts : (w.sample src watched v).insts = w.insts := by unfold sample; split <;> rfl
@[simp] theorem sample_log : (w.sample src watched v).log = w.log := by unfold sample; split <;> rfl
end

theorem ctx_of_cores {w v : Work} (h : v.cores = w.cores) (n k : Nat) : v.ctx n k = w.ctx n k := by rw [ctx, ctx, core, core, h]

theorem ctx_mod (w : Work) (n : Nat) {i j : Nat} (h : i % 4 = j % 4) : w.ctx n i = w.ctx n j := nth_congr _ h

theorem ctx_modCtx (w : Work) (n i : Nat) (f : Ctx → Ctx) (m j : Nat) :
    (w.modCtx n i f).ctx m j = if n = m ∧ i % 4 = j % 4 then f (w.ctx m j) else w.ctx m j := by
  split
  · rename_i h
    obtain ⟨rfl, h⟩ := h
    rw [← ctx_mod _ n h, ← ctx_mod _ n h, ctx_modCtx_same]
  · rename_i h
    exact ctx_modCtx_other w f (by tauto)

theorem ctx_modCore (w : Work) (m : Nat) {f : Core → Core} (hf : ∀ c, (f c).ctxs = c.ctxs) (n k : Nat) : (w.modCore m f).ctx n k = w.ctx n k := by
  by_cases h : n = m
  · rw [ctx, ctx, h, core_modCore_same, hf]
  · rw [ctx, ctx, core_modCore_other w f h]

/-! ## Waking -/

theorem wakeCtx_eq (w : Work) (n i : Nat) : w.wakeCtx n i = (if (w.ctx n i).st = .blocked
    then w.sample 4 (BitVec.ofNat 16 n) (w.cycle - (w.ctx n i).blockedAt) else w).modCtx n i (Ctx.awake w.cycle) := by
  unfold wakeCtx
  by_cases h : (w.ctx n i).st = .blocked
  · simp only [if_pos h, sample_cycle]
    rfl
  · simp only [if_neg h]
    rfl

/-- Waking touches what a change of the context and a sample touch. -/
theorem wakeCtx_keeps {β : Type} (g : Work → β) (hm : ∀ v n i f, g (modCtx v n i f) = g v) (hs : ∀ v a b c, g (sample v a b c) = g v) (w : Work) (n i : Nat) :
    g (w.wakeCtx n i) = g w := by
  rw [wakeCtx_eq, hm]
  split
  · exact hs ..
  · rfl

theorem wakeCtx_insts (w : Work) (n k : Nat) : (w.wakeCtx n k).insts = w.insts := wakeCtx_keeps (·.insts) (fun _ _ _ _ => rfl) sample_insts w n k
theorem wakeCtx_turn (w : Work) (n k : Nat) : (w.wakeCtx n k).turn = w.turn := wakeCtx_keeps (·.turn) (fun _ _ _ _ => rfl) sample_turn w n k
theorem wakeCtx_cycle (w : Work) (n k : Nat) : (w.wakeCtx n k).cycle = w.cycle := wakeCtx_keeps (·.cycle) (fun _ _ _ _ => rfl) sample_cycle w n k

theorem wakeCtx_ctx (w : Work) (n i m j : Nat) :
    (w.wakeCtx n i).ctx m j = if n = m ∧ i % 4 = j % 4 then (w.ctx m j).awake w.cycle else w.ctx m j := by
  rw [wakeCtx_eq, ctx_modCtx]
  have same : (if (w.ctx n i).st = .blocked then w.sample 4 (BitVec.ofNat 16 n) (w.cycle - (w.ctx n i).blockedAt) else w).ctx m j = w.ctx m j := by
    split
    · exact ctx_of_cores (sample_cores ..) m j
    · rfl
  rw [same]

section
variable {w : Work} {i : Inst} {which : Nat → Bool} {f : Ctx → Ctx} {n k : Nat}

/-- A component that neither a context's change nor its waking touches. -/
theorem wakeRills_keeps {β : Type} (g : Work → β) (hm : ∀ v n k, g (modCtx v n k f) = g v) (hw : ∀ v n k, g (wakeCtx v n k) = g v) :
    g (w.wakeRills i which f) = g w :=
  foldl_keeps g (fun v r => by
    split
    · split
      · rw [hw, hm]
      · rfl
    · rfl) _ w

theorem wakeRills_insts : (w.wakeRills i which f).insts = w.insts := wakeRills_keeps (·.insts) (fun _ _ _ => rfl) wakeCtx_insts
theorem wakeRills_turn : (w.wakeRills i which f).turn = w.turn := wakeRills_keeps (·.turn) (fun _ _ _ => rfl) wakeCtx_turn

/-- The number of picked rills that run on a context is the number of times that it is changed and woken. -/
theorem wakeRills_ctx : ∃ m, (w.wakeRills i which f).ctx n k = (fun c => (f c).awake w.cycle)^[m] (w.ctx n k) ∧ (0 < m ↔ i.RunsOn which n k) := by
  let picks (r : Nat) : Bool := i.rills[r]?.any fun x => which r && x.core == n && x.ctx % 4 == k % 4
  have fold : ∀ (l : List Nat) (v : Work), v.cycle = w.cycle → (l.foldl (fun v r =>
      match i.rills[r]? with
      | some x => if which r then (v.modCtx x.core x.ctx f).wakeCtx x.core x.ctx else v
      | none => v) v).ctx n k = (fun c => (f c).awake w.cycle)^[l.countP picks] (v.ctx n k) := by
    intro l
    induction l with
    | nil => exact fun _ _ => rfl
    | cons r rs ih =>
      intro v hv
      rw [List.foldl_cons, List.countP_cons]
      cases hr : i.rills[r]? with
      | none => simpa [picks, hr] using ih v hv
      | some x =>
        cases hp : which r with
        | false => simpa [picks, hr, hp] using ih v hv
        | true =>
          have hx : picks r = true ↔ x.core = n ∧ x.ctx % 4 = k % 4 := by simp [picks, hr, hp]
          have hc : ((v.modCtx x.core x.ctx f).wakeCtx x.core x.ctx).cycle = w.cycle := (wakeCtx_cycle ..).trans hv
          dsimp only
          rw [if_pos rfl, ih _ hc, wakeCtx_ctx, ctx_modCtx]
          by_cases hc : x.core = n ∧ x.ctx % 4 = k % 4
          · rw [if_pos hc, if_pos hc, if_pos (hx.mpr hc), Function.iterate_succ_apply, modCtx_cycle, hv]
          · rw [if_neg hc, if_neg hc, if_neg (mt hx.mp hc)]
            rfl
  refine ⟨(List.range i.rills.length).countP picks, fold _ w rfl, ?_⟩
  rw [List.countP_pos_iff]
  constructor
  · rintro ⟨r, -, hr⟩
    obtain ⟨x, hx, hr⟩ := Option.any_eq_true _ _ |>.mp hr
    simp only [Bool.and_eq_true, beq_iff_eq] at hr
    exact ⟨r, x, hx, hr.1.1, hr.1.2, hr.2⟩
  · rintro ⟨r, x, hx, hw, hn, hk⟩
    exact ⟨r, List.mem_range.mpr (List.getElem?_eq_some_iff.mp hx).1, by simp [picks, hx, hw, hn, hk]⟩

/-- What the first change and waking of a context give and every further one keeps. -/
theorem wakeRills_woken {p : Ctx → Prop} (h : i.RunsOn which n k) (first : p ((f (w.ctx n k)).awake w.cycle))
    (keep : ∀ c, p c → p ((f c).awake w.cycle)) : p ((w.wakeRills i which f).ctx n k) := by
  obtain ⟨m, hm, hp⟩ := wakeRills_ctx (w := w) (i := i) (which := which) (f := f) (n := n) (k := k)
  obtain ⟨m, rfl⟩ := Nat.exists_eq_add_of_lt (hp.mpr h)
  rw [hm, Nat.zero_add, Function.iterate_succ_apply]
  clear hm hp
  generalize (f (w.ctx n k)).awake w.cycle = c at first ⊢
  induction m generalizing c with
  | zero => exact first
  | succ m ih => exact ih _ (keep c first)

theorem wakeRills_ctx_other (h : ¬ i.RunsOn which n k) : (w.wakeRills i which f).ctx n k = w.ctx n k := by
  obtain ⟨m, hm, hp⟩ := wakeRills_ctx (w := w) (i := i) (which := which) (f := f) (n := n) (k := k)
  obtain rfl : m = 0 := Nat.eq_zero_of_not_pos (mt hp.mp h)
  exact hm

end

/-! ## Instances -/

theorem id_of_inst? {w : Work} {id : Nat} {i : Inst} (h : w.inst? id = some i) : i.id = id := by simpa using List.find?_some h

theorem inst?_of_insts {w v : Work} (h : v.insts = w.insts) (id : Nat) : v.inst? id = w.inst? id := by rw [inst?, inst?, h]

theorem inst?_modInst {w : Work} {id : Nat} {i : Inst} {f : Inst → Inst} (h : w.inst? id = some i) (hf : ∀ i, (f i).id = i.id) :
    (w.modInst id f).inst? id = some (f i) := by
  have same : ((fun i : Inst => i.id == id) ∘ fun i => if i.id = id then f i else i) = fun i => i.id == id := by
    funext i
    simp only [Function.comp_apply]
    split
    · rw [hf]
    · rfl
  have hid := id_of_inst? h
  rw [inst?] at h
  rw [inst?, modInst, List.find?_map, same, h, Option.map_some, if_pos hid]

end Work
end Sys2Proof.Machine
end

section
/-! PROOFS. Barriers (02_execution R40, R41, 09_ordering R204): what BARR answers, in the order in which it asks; how an episode is joined and completed; what
becomes of rills that wait for good. -/
namespace Sys2Proof.Machine
open Sys2Proof.Claim

theorem mem_maskRills {m : BitVec 16} {r : Nat} : r ∈ maskRills m ↔ r < 16 ∧ m.getLsbD r = true := by simp [maskRills]

theorem Inst.episodeDone_iff {i : Inst} {e : Episode} : i.episodeDone e = true ↔
    ∀ r, r < 16 → e.mask.getLsbD r = true → r ∈ e.joined ∨ ∃ x, i.rills[r]? = some x ∧ x.ended = true := by
  rw [Inst.episodeDone, List.all_eq_true]
  refine forall_congr' fun r => ?_
  rw [mem_maskRills, and_imp]
  cases i.rills[r]? <;> simp

/-- Has rill `r` not ended? -/
def Inst.lives (i : Inst) (r : Nat) : Bool := i.rills[r]?.any fun x => !x.ended

theorem Inst.lives_eq (i : Inst) : i.lives = fun r => match i.rills[r]? with | some x => !x.ended | none => false := by
  funext r
  unfold Inst.lives
  cases i.rills[r]? <;> rfl

theorem Inst.runsOn_lives_iff {i : Inst} {n k : Nat} : i.RunsOn i.lives n k ↔ ∃ r ∈ i.rills, r.ended = false ∧ r.core = n ∧ r.ctx % 4 = k % 4 := by
  constructor
  · rintro ⟨r, x, hx, hl, hn, hk⟩
    rw [Inst.lives, hx] at hl
    exact ⟨x, List.mem_of_getElem? hx, by simpa using hl, hn, hk⟩
  · rintro ⟨x, hx, hl, hn, hk⟩
    obtain ⟨r, hr⟩ := List.getElem?_of_mem hx
    exact ⟨r, x, hr, by simp [Inst.lives, hr, hl], hn, hk⟩

namespace Work

/-! ## A release and a block -/

theorem release_quiet (w : Work) : Quiet w w.release := by
  unfold release tick modMe
  exact ((Quiet.refl w).cleanL1).modCtx

theorem cleanL1_still (w : Work) (p n : Nat) (which : Nat → Bool) : Still w (w.cleanL1 p n which) := (Still.refl w).cleanL1

/-- What a release leaves of the focus, and of the context but for its clock. -/
theorem release_focus (w : Work) {α : Type} (f : Focus → α) (hf : ∀ g, f g.apart = f g) : f w.release.focus = f w.focus :=
  (cleanL1_still w ..).focusField f hf

theorem release_me (w : Work) {α : Type} (f : Ctx → α) (hf : ∀ c, f c.apart = f c) (hk : ∀ c x, f { c with kclk := x } = f c) : f w.release.me = f w.me := by
  have e : w.release.me = { (w.cleanL1 w.myPart w.focus.core fun _ => true).me with
      kclk := clockNext (w.cleanL1 w.myPart w.focus.core fun _ => true).me.kclk.toNat } := me_modMe ..
  rw [e, hk]
  exact (cleanL1_still w ..).meField f hf

theorem release_kclk (w : Work) : w.release.me.kclk = clockNext w.me.kclk.toNat := by
  have e : (w.cleanL1 w.myPart w.focus.core fun _ => true).me.kclk = w.me.kclk := (cleanL1_still w ..).meField (·.kclk) fun _ => rfl
  rw [← e]
  exact congrArg Ctx.kclk (me_modMe ..)

theorem block_me (w : Work) (r : BlockReason) : (w.block r).me = { w.me with st := .blocked, block := some r, blockedAt := w.cycle } := by
  unfold block
  rw [me_modFocus _ _ rfl rfl, me_modMe]

/-! ## Joining an episode -/

section
variable {w : Work} {id : Nat} {i : Inst} (h : w.inst? id = some i) (m : BitVec 16) (r : Nat)
include h

theorem joinEpisode_opens (hm : ∀ e ∈ i.episodes, e.mask ≠ m) :
    (w.joinEpisode id m r).inst? id = some { i with episodes := i.episodes ++ [⟨m, [r], w.cycle⟩] } := by
  have new : ¬ i.episodes.any (fun e => e.mask == m) = true := by simpa using hm
  rw [joinEpisode, inst?_modInst h, if_neg new]
  exact fun _ => by split <;> rfl

theorem joinEpisode_joins (hm : ∃ e ∈ i.episodes, e.mask = m) : (w.joinEpisode id m r).inst? id =
    some { i with episodes := i.episodes.map fun e => if e.mask = m then { e with joined := e.joined ++ [r] } else e } := by
  have open_ : i.episodes.any (fun e => e.mask == m) = true := by simpa using hm
  rw [joinEpisode, inst?_modInst h, if_pos open_]
  exact fun _ => by split <;> rfl

end

/-! ## Completing an episode -/

theorem cleanL1_of_empty {w : Work} {n : Nat} (hl : (w.core n).l1 = []) (hu : (w.core n).upd = []) (p : Nat) (which : Nat → Bool) :
    w.cleanL1 p n which = w := by
  unfold cleanL1
  dsimp only
  rw [hl, hu]
  rfl

theorem cleanCores_of_empty {w : Work} {l : List Nat} (h : ∀ n ∈ l, (w.core n).l1 = [] ∧ (w.core n).upd = []) (p : Nat) : w.cleanCores p l = w := by
  induction l with
  | nil => rfl
  | cons n l ih =>
    obtain ⟨⟨hl, hu⟩, h⟩ := List.forall_mem_cons.mp h
    rw [cleanCores, List.foldl_cons, cleanL1_of_empty hl hu]
    exact ih h

theorem completeEpisodes_of_waiting {w : Work} {id : Nat} (hd : ∀ i, w.inst? id = some i → ∀ e ∈ i.episodes, i.episodeDone e = false) :
    w.completeEpisodes id = w := by
  unfold completeEpisodes
  split
  · rfl
  · rename_i i h
    have waiting : i.episodes.filter i.episodeDone = [] := List.filter_eq_nil_iff.mpr fun e he => by simp [hd i h e he]
    rw [waiting, List.foldl_nil]

/-- The one episode of an instance completes: it is closed, and every rill that joined it is woken with the episode's clock. -/
theorem completeEpisodes_of_done {w : Work} {id : Nat} {i : Inst} {e : Episode} (h : w.inst? id = some i) (he : i.episodes = [e]) (hd : i.episodeDone e = true)
    (hc : ∀ r x, r < 16 → e.mask.getLsbD r = true → i.rills[r]? = some x → x.ended = true → (w.core x.core).l1 = [] ∧ (w.core x.core).upd = []) :
    w.completeEpisodes id = (w.modInst id fun j => { j with episodes := j.episodes.filter fun x => x.mask != e.mask }).wakeRills i
      (fun r => e.joined.contains r) fun c => { c with barrGo := c.barrGo ++ [⟨c.pc, e.mask, w.episodeClock i e⟩] } := by
  unfold completeEpisodes
  rw [h]
  dsimp only
  rw [he, List.filter_singleton, hd, cond_true, List.foldl_cons, List.foldl_nil, cleanCores_of_empty]
  intro n hn
  simp only [List.mem_map, List.mem_filter, List.mem_filterMap, mem_maskRills] at hn
  obtain ⟨x, ⟨⟨r, ⟨hr, hm⟩, hx⟩, hended⟩, rfl⟩ := hn
  exact hc r x hr hm hx hended

/-! ## The clock of an episode (R204) -/

theorem foldl_max_spec (l : List Nat) (a : Nat) :
    a ≤ l.foldl max a ∧ (∀ x ∈ l, x ≤ l.foldl max a) ∧ (l.foldl max a = a ∨ l.foldl max a ∈ l) := by
  induction l generalizing a with
  | nil => simp
  | cons y ys ih =>
    obtain ⟨first, rest, attained⟩ := ih (max a y)
    rw [List.foldl_cons, List.forall_mem_cons, List.mem_cons]
    refine ⟨le_trans (le_max_left a y) first, ⟨le_trans (le_max_right a y) first, rest⟩, ?_⟩
    rcases max_choice a y with h | h
    · rw [h] at attained ⊢
      tauto
    · rw [h] at attained ⊢
      tauto

theorem clockNext_cases (x : Nat) : x + 1 ≤ 0xFFFFFFFF ∧ (clockNext x).toNat = x + 1 ∨ clockNext x = 0xFFFFFFFF#32 := by
  unfold clockNext
  by_cases hx : x + 1 ≤ 0xFFFFFFFF
  · refine .inl ⟨hx, ?_⟩
    rw [min_eq_left hx, BitVec.toNat_ofNat, Nat.mod_eq_of_lt (by omega)]
  · exact .inr (by rw [min_eq_right (by omega)])

/-- The episode's clock is past the clock of every rill of its mask, and no further than one of them asks for. -/
theorem episodeClock_spec (w : Work) (i : Inst) (e : Episode) :
    (∀ r x, r < 16 → e.mask.getLsbD r = true → i.rills[r]? = some x → w.rillClock x + 1 ≤ (w.episodeClock i e).toNat ∨ w.episodeClock i e = 0xFFFFFFFF#32) ∧
    ((w.episodeClock i e).toNat = 1 ∨ w.episodeClock i e = 0xFFFFFFFF#32 ∨
      ∃ r x, r < 16 ∧ e.mask.getLsbD r = true ∧ i.rills[r]? = some x ∧ (w.episodeClock i e).toNat = w.rillClock x + 1) := by
  have mem {k : Nat} : k ∈ ((maskRills e.mask).filterMap fun r => i.rills[r]?).map w.rillClock ↔
      ∃ r x, r < 16 ∧ e.mask.getLsbD r = true ∧ i.rills[r]? = some x ∧ k = w.rillClock x := by
    simp only [List.mem_map, List.mem_filterMap, mem_maskRills]
    constructor
    · rintro ⟨x, ⟨r, ⟨hr, hm⟩, hx⟩, rfl⟩
      exact ⟨r, x, hr, hm, hx, rfl⟩
    · rintro ⟨r, x, hr, hm, hx, rfl⟩
      exact ⟨x, ⟨r, ⟨hr, hm⟩, hx⟩, rfl⟩
  obtain ⟨-, least, attained⟩ := foldl_max_spec (((maskRills e.mask).filterMap fun r => i.rills[r]?).map w.rillClock) 0
  rcases clockNext_cases ((((maskRills e.mask).filterMap fun r => i.rills[r]?).map w.rillClock).foldl max 0) with ⟨-, h⟩ | h
  · refine ⟨fun r x hr hm hx => .inl ?_, ?_⟩
    · exact (Nat.succ_le_succ (least _ (mem.mpr ⟨r, x, hr, hm, hx, rfl⟩))).trans_eq h.symm
    · rcases attained with h0 | hk
      · exact .inl (h.trans (by rw [h0]))
      · obtain ⟨r, x, hr, hm, hx, hk⟩ := mem.mp hk
        exact .inr (.inr ⟨r, x, hr, hm, hx, h.trans (by rw [hk])⟩)
  · exact ⟨fun _ _ _ _ _ => .inr h, .inr (.inl h)⟩

/-! ## Waiting for good (R41) -/

theorem barrierDead_iff {w : Work} {id : Nat} : w.barrierDead id = true ↔ ∃ i, w.inst? id = some i ∧ (∃ r ∈ i.rills, r.ended = false) ∧
    ∀ r ∈ i.rills, r.ended = false → ∃ m, (w.ctx r.core r.ctx).block = some (.barrier m) := by
  unfold barrierDead
  cases w.inst? id with
  | none => simp
  | some i =>
    have waits (b : Option BlockReason) : (match b with | some (.barrier _) => true | _ => false) = true ↔ ∃ m, b = some (.barrier m) := by
      constructor
      · intro h
        split at h
        · exact ⟨_, rfl⟩
        · contradiction
      · rintro ⟨m, rfl⟩
        rfl
    have live : (i.rills.filter fun r => !r.ended).isEmpty = false ↔ ∃ r ∈ i.rills, r.ended = false := by simp [List.filter_eq_nil_iff]
    simp only [Option.some.injEq, exists_eq_left', Bool.and_eq_true, Bool.not_eq_true', live, List.all_eq_true, List.mem_filter, and_imp]
    exact and_congr_right fun _ => forall_congr' fun r => forall_congr' fun _ => forall_congr' fun _ => waits _

theorem raiseDead_of_not {w : Work} {id : Nat} (h : w.barrierDead id = false) : w.raiseDead id = w := by
  unfold raiseDead
  rw [h]
  rfl

/-- The rills that have not ended take BARRDEAD, by turns that follow at once. -/
theorem raiseDead_of_dead {w : Work} {id : Nat} {i : Inst} (h : w.barrierDead id = true) (hi : w.inst? id = some i) : w.raiseDead id =
    let v := (w.modInst id fun j => { j with episodes := [] }).wakeRills i i.lives fun c => { c with barrDead := true }
    { v with turn := ((i.rills.filter fun x => !x.ended).map fun x => .rill x.core x.ctx) ++ v.turn } := by
  unfold raiseDead
  rw [h, hi, Inst.lives_eq]
  rfl

end Work
end Sys2Proof.Machine
end

section
/-! PROOFS. BARR (02_execution R40, R41, 09_ordering R204), assembled. -/
namespace Sys2Proof.Machine
open Sys2Proof.Claim Work

/-- A slot that keeps what it did before its trap. -/
theorem runSlotKeep_trap_left (s : State) (i : Instr) (m : Act Unit) {t : Trap} {w : Work} (h : m s.work = (.error t, w)) :
    runSlotKeep i m s = .next (left s (w.slotTrap t (Work.operands i s.work))) := by
  unfold runSlotKeep run lift left slotActKeep
  simp only [h]

section
variable {s : State} {m : BitVec 16} {i : Inst} (hi : s.work.myInst? = some i)
include hi

theorem exec_barr_dead (hd : s.work.me.barrDead = true) :
    exec (.barr m) s = .next (trapped (onMe s fun c => { c with barrDead := false }) (.barr m) { code := 0x1A, info := m.setWidth 64 }) := by
  have h : barrAct m s.work = (.error { code := cBarrDead, info := m.setWidth 64 }, s.work.modMe fun c => { c with barrDead := false }) := by
    simp [barrAct, hi, hd]
  exact runSlotKeep_trap_left s (.barr m) (barrAct m) h

variable (hd : s.work.me.barrDead = false)
include hd

theorem exec_barr_pass {g : BarrierPass} (hg : s.work.me.barrPass? m = some g) : exec (.barr m) s = .next (lift (fun w => w.passBarrier g) s) :=
  runSlotKeep_ok s (.barr m) (barrAct m) (s.work.passBarrier g) (by simp [barrAct, hi, hd, hg])

variable (hg : s.work.me.barrPass? m = none)
include hg

theorem exec_barr_mask (hm : m.getLsbD s.work.me.rill = false ∨ ∃ r, r < 16 ∧ m.getLsbD r = true ∧ i.rills.length ≤ r) :
    exec (.barr m) s = .next (trapped s (.barr m) { code := 0x19, info := m.setWidth 64 }) := by
  have bad : (!m.getLsbD s.work.me.rill || (maskRills m).any fun r => decide (i.rills.length ≤ r)) = true := by
    simpa [mem_maskRills, and_assoc] using hm
  refine runSlotKeep_trap s (.barr m) (barrAct m) _ ?_
  unfold barrAct
  simp only [act_bind, act_get, hi, hd, hg, bad, act_trap, if_true, Bool.false_eq_true, if_false]
  rfl

theorem exec_barr_joins (hr : m.getLsbD s.work.me.rill = true) (hm : ∀ r, r < 16 → m.getLsbD r = true → r < i.rills.length) :
    exec (.barr m) s = .next (left s ((((s.work.release.joinEpisode i.id m s.work.me.rill).block (.barrier m)).completeEpisodes i.id).raiseDead i.id)) := by
  have good : (maskRills m).any (fun r => decide (i.rills.length ≤ r)) = false := by simpa [mem_maskRills] using hm
  refine runSlotKeep_ok s (.barr m) (barrAct m) _ ?_
  unfold barrAct
  simp only [act_bind, act_get, hi, hd, hg, hr, good, Bool.false_eq_true, if_false, Bool.not_true, Bool.or_false, act_modify]

end

/-- The rill that joins an episode blocks, and its bundle is presented again. -/
theorem joined_blocks (s : State) (id r : Nat) (m : BitVec 16) : let w := (s.work.release.joinEpisode id m r).block (.barrier m)
    w.me.st = .blocked ∧ w.me.block = some (.barrier m) ∧ w.focus.waits = true ∧ w.me.pc = s.work.me.pc := by
  intro w
  have hme := block_me (s.work.release.joinEpisode id m r) (.barrier m)
  have hpc : (s.work.release.joinEpisode id m r).me.pc = s.work.me.pc := s.work.release_me (·.pc) (fun _ => rfl) fun _ _ => rfl
  rw [show w.me = _ from hme]
  exact ⟨rfl, rfl, rfl, hpc⟩

theorem completeEpisodes_leaves {w : Work} {id : Nat} {i : Inst} {e : Episode} (h : w.inst? id = some i) (he : i.episodes = [e]) (hd : i.episodeDone e = true)
    (hc : ∀ r x, r < 16 → e.mask.getLsbD r = true → i.rills[r]? = some x → x.ended = true → (w.core x.core).l1 = [] ∧ (w.core x.core).upd = []) :
    let v := w.completeEpisodes id
    (v.inst? id = some { i with episodes := [] }) ∧
    (∀ r x, r ∈ e.joined → i.rills[r]? = some x → (v.ctx x.core x.ctx).block = none ∧
      ((w.ctx x.core x.ctx).st = .blocked → (v.ctx x.core x.ctx).st = .ready) ∧
      (⟨(w.ctx x.core x.ctx).pc, e.mask, w.episodeClock i e⟩ : BarrierPass) ∈ (v.ctx x.core x.ctx).barrGo) ∧
    ∀ n k, (∀ r x, r ∈ e.joined → i.rills[r]? = some x → x.core ≠ n ∨ x.ctx % 4 ≠ k % 4) → v.ctx n k = w.ctx n k := by
  rw [completeEpisodes_of_done h he hd hc]
  refine ⟨?closed, fun r x hr hx => ?woken, fun n k hn => ?others⟩
  case closed =>
    rw [inst?_of_insts wakeRills_insts, inst?_modInst h, he]
    · simp
    · exact fun _ => rfl
  case woken =>
    have on : i.RunsOn (fun r => e.joined.contains r) x.core x.ctx := ⟨r, x, hx, by simpa using hr, rfl, rfl⟩
    refine wakeRills_woken (p := fun c => c.block = none ∧ ((w.ctx x.core x.ctx).st = .blocked → c.st = .ready) ∧
      (⟨(w.ctx x.core x.ctx).pc, e.mask, w.episodeClock i e⟩ : BarrierPass) ∈ c.barrGo) on ?_ ?_
    · exact ⟨rfl, fun hst => if_pos hst, List.mem_append_right _ List.mem_cons_self⟩
    · rintro c ⟨-, hst, hgo⟩
      refine ⟨rfl, fun hb => ?_, List.mem_append_left _ hgo⟩
      rw [Ctx.awake, hst hb]
      rfl
  case others =>
    refine wakeRills_ctx_other ?_
    rintro ⟨r, x, hx, hr, hcore, hk⟩
    exact (hn r x (by simpa using hr) hx).elim (absurd hcore) (absurd hk)

theorem raiseDead_leaves {w : Work} {id : Nat} {i : Inst} (h : w.barrierDead id = true) (hi : w.inst? id = some i) :
    let v := w.raiseDead id
    (v.inst? id = some { i with episodes := [] }) ∧
    (∀ r ∈ i.rills, r.ended = false → (v.ctx r.core r.ctx).barrDead = true ∧ (v.ctx r.core r.ctx).block = none ∧
      ((w.ctx r.core r.ctx).st = .blocked → (v.ctx r.core r.ctx).st = .ready)) ∧
    (∀ n k, (∀ r ∈ i.rills, r.ended = false → r.core ≠ n ∨ r.ctx % 4 ≠ k % 4) → v.ctx n k = w.ctx n k) ∧
    v.turn = ((i.rills.filter fun x => !x.ended).map fun x => .rill x.core x.ctx) ++ w.turn := by
  rw [raiseDead_of_dead h hi]
  refine ⟨?closed, fun r hr hl => ?woken, fun n k hn => ?others, ?turns⟩
  case closed =>
    refine (inst?_of_insts wakeRills_insts id).trans ?_
    rw [inst?_modInst hi]
    exact fun _ => rfl
  case woken =>
    have on : i.RunsOn i.lives r.core r.ctx := Inst.runsOn_lives_iff.mpr ⟨r, hr, hl, rfl, rfl⟩
    refine wakeRills_woken (p := fun c => c.barrDead = true ∧ c.block = none ∧ ((w.ctx r.core r.ctx).st = .blocked → c.st = .ready)) on ?_ ?_
    · exact ⟨rfl, rfl, fun hst => if_pos hst⟩
    · rintro c ⟨-, -, hst⟩
      refine ⟨rfl, rfl, fun hb => ?_⟩
      rw [Ctx.awake, hst hb]
      rfl
  case others =>
    refine wakeRills_ctx_other fun on => ?_
    obtain ⟨r, hr, hl, hcore, hk⟩ := Inst.runsOn_lives_iff.mp on
    exact (hn r hr hl).elim (absurd hcore) (absurd hk)
  case turns => exact congrArg _ wakeRills_turn

/-- Settles O24: BARR by the cases in which it asks, joining by whether an episode of the mask is open, and what waking the rills of an episode, or of a
deadlock, leaves of each context. -/
theorem barriers : Obligations.Barriers := by
  refine ⟨fun s m i => ?barr, fun w id r m i h => ⟨fun hm => ?opens, fun hm => ?joins⟩, fun i e => Inst.episodeDone_iff,
    fun w id i h hd => completeEpisodes_of_waiting fun j hj => ?waits,
    fun w id i e h he hd hc => ?completes, fun w id => barrierDead_iff, fun w id => raiseDead_of_not, fun w id i h hi => ?dead⟩
  case barr =>
    intro c hi
    refine ⟨exec_barr_dead hi, fun hd => ⟨fun g hg => ?_, exec_barr_mask hi hd, fun hg hr hm => ?_⟩⟩
    · have found := List.find?_some hg
      simp only [Bool.and_eq_true, beq_iff_eq] at found
      exact ⟨found.1, found.2, List.mem_of_find?_eq_some hg, exec_barr_pass hi hd hg⟩
    obtain ⟨hst, hblock, hwaits, hpc⟩ := joined_blocks s i.id c.rill m
    refine ⟨exec_barr_joins hi hd hg hr hm, hst, hblock, hwaits, hpc, fun hopen hlive => ?_⟩
    rw [exec_barr_joins hi hd hg hr hm]
    rw [completeEpisodes_of_waiting hopen, raiseDead_of_not hlive]
  case opens => exact ⟨_, _, joinEpisode_opens h m r hm, rfl, rfl, rfl⟩
  case joins => exact ⟨_, joinEpisode_joins h m r hm, rfl⟩
  case waits =>
    obtain rfl := Option.some.inj (h.symm.trans hj)
    exact hd
  case completes =>
    obtain ⟨closed, woken, others⟩ := completeEpisodes_leaves h he hd hc
    obtain ⟨past, attained⟩ := w.episodeClock_spec i e
    exact ⟨⟨_, closed, rfl⟩, ⟨_, past, attained, woken⟩, others⟩
  case dead =>
    obtain ⟨closed, woken, others, turns⟩ := raiseDead_leaves h hi
    exact ⟨⟨_, closed, rfl⟩, woken, others, turns⟩

end Sys2Proof.Machine
end

section
/-! PROOFS. END, YIELD and the switch cycle (02_execution R28, R39, R40, 23_ref R407, 25_ref R482). -/
namespace Sys2Proof.Machine
open Sys2Proof.Claim Work

/-! ## END -/

/-- The rill as END leaves it, where it is the unended one of the context. -/
def Rill.endAt (core ctx : Nat) (clk : BitVec 32) (r : Rill) : Rill :=
  if r.core = core ∧ r.ctx = ctx ∧ !r.ended then { r with ended := true, finalClock := clk } else r

theorem Rill.endAt_core (core ctx : Nat) (clk : BitVec 32) (r : Rill) : (r.endAt core ctx clk).core = r.core := by unfold Rill.endAt; split <;> rfl
theorem Rill.endAt_ctx (core ctx : Nat) (clk : BitVec 32) (r : Rill) : (r.endAt core ctx clk).ctx = r.ctx := by unfold Rill.endAt; split <;> rfl

theorem Rill.endAt_here {core ctx : Nat} {clk : BitVec 32} {r : Rill} (hn : r.core = core) (hk : r.ctx = ctx) : (r.endAt core ctx clk).ended = true := by
  unfold Rill.endAt
  split
  · rfl
  · rename_i h
    simpa [hn, hk] using h

theorem Rill.endAt_elsewhere {core ctx : Nat} {clk : BitVec 32} {r : Rill} (h : r.core ≠ core ∨ r.ctx % 4 ≠ ctx % 4) : r.endAt core ctx clk = r :=
  if_neg fun ⟨hn, hk, _⟩ => h.elim (absurd hn) (absurd (congrArg (· % 4) hk))

/-- The instance whose rill on the context has ended. -/
def Inst.endAt (core ctx : Nat) (clk : BitVec 32) (i : Inst) : Inst := { i with rills := i.rills.map (Rill.endAt core ctx clk) }

/-- The context of a rill that has ended: its results still land. -/
def Ctx.ending (c : Ctx) : Ctx :=
  { c with st := .blocked, block := none, loop := .none, brPend := false, dsRem := 0, micro := none, held := [] }

/-- What END does before episodes are looked at (R39). -/
def Work.endHere (w : Work) : Work := (w.modMe Ctx.ending).modInst w.me.inst (Inst.endAt w.focus.core w.focus.ctx w.me.kclk)

theorem exec_endRill (s : State) :
    exec .endRill s = .next (left s ((s.work.endHere.completeEpisodes s.work.me.inst).raiseDead s.work.me.inst)) := rfl

section
variable {w : Work} {i : Inst}

theorem endHere_inst? (hi : w.myInst? = some i) : w.endHere.inst? w.me.inst = some (i.endAt w.focus.core w.focus.ctx w.me.kclk) :=
  inst?_modInst (w := w.modMe Ctx.ending) hi fun _ => rfl

theorem endHere_ctx (n k : Nat) : w.endHere.ctx n k = if w.focus.core = n ∧ w.focus.ctx % 4 = k % 4 then (w.ctx n k).ending else w.ctx n k := ctx_modCtx ..

theorem endHere_core : w.endHere.core w.focus.core =
    { w.here with ctxs := setNth w.here.ctxs w.focus.ctx (nth w.here.ctxs w.focus.ctx).ending } :=
  core_modCore_same w w.focus.core fun c => { c with ctxs := setNth c.ctxs w.focus.ctx (nth c.ctxs w.focus.ctx).ending }

/-- Without an episode, and with no rill waiting in BARR, that is all that END does. -/
theorem endHere_alone (hi : w.myInst? = some i) (he : i.episodes = []) (hb : ∀ r ∈ i.rills, ∀ m, (w.ctx r.core r.ctx).block ≠ some (.barrier m)) :
    (w.endHere.completeEpisodes w.me.inst).raiseDead w.me.inst = w.endHere := by
  rw [completeEpisodes_of_waiting, raiseDead_of_not]
  · by_contra dead
    obtain ⟨j, hj, ⟨r, hr, hl⟩, waits⟩ := barrierDead_iff.mp (Bool.of_not_eq_false dead)
    obtain ⟨m, hm⟩ := waits r hr hl
    obtain rfl := Option.some.inj ((endHere_inst? hi).symm.trans hj)
    obtain ⟨x, hx, rfl⟩ := List.mem_map.mp hr
    rw [endHere_ctx, Rill.endAt_core, Rill.endAt_ctx] at hm
    split at hm
    · exact absurd hm nofun
    · exact hb x hx m hm
  · intro j hj e hej
    obtain rfl := Option.some.inj ((endHere_inst? hi).symm.trans hj)
    exact absurd (he ▸ hej) List.not_mem_nil

end

/-- The last rill that an episode waited for ends: every rill that joined it is ready, and passes its BARR. -/
theorem endRill_completes {s : State} {i : Inst} {e : Episode} (hi : s.work.myInst? = some i) (he : i.episodes = [e]) (hl : s.work.here.l1 = [])
    (hu : s.work.here.upd = [])
    (hlast : ∀ r, r < 16 → e.mask.getLsbD r = true →
      r ∈ e.joined ∨ ∃ x, i.rills[r]? = some x ∧ x.core = s.focus.core ∧ x.ctx = s.focus.ctx ∧ x.ended = false)
    (hj : ∀ r ∈ e.joined, ∃ x, i.rills[r]? = some x ∧ x.ended = false ∧ (s.work.ctx x.core x.ctx).st = .blocked ∧
      (x.core ≠ s.focus.core ∨ x.ctx % 4 ≠ s.focus.ctx % 4)) (hne : e.joined ≠ []) :
    ∃ t, exec .endRill s = .next t ∧ ∀ r x, r ∈ e.joined → i.rills[r]? = some x → (t.work.ctx x.core x.ctx).st = .ready ∧
      ∃ g ∈ (t.work.ctx x.core x.ctx).barrGo, g.pc = (s.work.ctx x.core x.ctx).pc ∧ g.mask = e.mask := by
  have found := endHere_inst? hi
  set j := i.endAt s.work.focus.core s.work.focus.ctx s.work.me.kclk with hjdef
  have at_ (r : Nat) : j.rills[r]? = (i.rills[r]?).map (Rill.endAt s.work.focus.core s.work.focus.ctx s.work.me.kclk) := List.getElem?_map
  have joined {r : Nat} {x : Rill} (hr : r ∈ e.joined) (hx : i.rills[r]? = some x) : j.rills[r]? = some x ∧ x.ended = false ∧
      (s.work.endHere.ctx x.core x.ctx) = s.work.ctx x.core x.ctx ∧ (s.work.ctx x.core x.ctx).st = .blocked := by
    obtain ⟨y, hy, live, hst, away⟩ := hj r hr
    obtain rfl := Option.some.inj (hx.symm.trans hy)
    refine ⟨by rw [at_, hx, Option.map_some, Rill.endAt_elsewhere (core := s.work.focus.core) (ctx := s.work.focus.ctx) away], live, ?_, hst⟩
    rw [endHere_ctx]
    refine if_neg fun ⟨hn, hk⟩ => away.elim (absurd hn.symm) (absurd hk.symm)
  have done : j.episodeDone e = true := Inst.episodeDone_iff.mpr fun r hr hm => (hlast r hr hm).imp id fun ⟨x, hx, hn, hk, _⟩ =>
    ⟨_, by rw [at_, hx]; rfl, Rill.endAt_here hn hk⟩
  have clean : ∀ r x, r < 16 → e.mask.getLsbD r = true → j.rills[r]? = some x → x.ended = true →
      (s.work.endHere.core x.core).l1 = [] ∧ (s.work.endHere.core x.core).upd = [] := by
    intro r x hr hm hx hended
    rcases hlast r hr hm with hjoin | ⟨y, hy, hn, -, -⟩
    · obtain ⟨y, hy, -⟩ := hj r hjoin
      obtain ⟨same, live, -⟩ := joined hjoin hy
      obtain rfl := Option.some.inj (same.symm.trans hx)
      rw [live] at hended
      contradiction
    · rw [at_, hy] at hx
      obtain rfl := Option.some.inj hx
      rw [Rill.endAt_core, hn]
      exact ⟨(congrArg Core.l1 endHere_core).trans hl, (congrArg Core.upd endHere_core).trans hu⟩
  obtain ⟨closed, woken, -⟩ := completeEpisodes_leaves found he done clean
  have awake : (s.work.endHere.completeEpisodes s.work.me.inst).barrierDead s.work.me.inst = false := by
    by_contra dead
    obtain ⟨k, hk, -, waits⟩ := barrierDead_iff.mp (Bool.of_not_eq_false dead)
    obtain rfl := Option.some.inj (closed.symm.trans hk)
    obtain ⟨r, hr⟩ := List.exists_mem_of_ne_nil _ hne
    obtain ⟨x, hx, -⟩ := hj r hr
    obtain ⟨same, live, -⟩ := joined hr hx
    obtain ⟨m, hm⟩ := waits x (List.mem_of_getElem? same) live
    rw [(woken r x hr same).1] at hm
    contradiction
  refine ⟨_, exec_endRill s, fun r x hr hx => ?_⟩
  rw [raiseDead_of_not awake]
  obtain ⟨same, -, kept, hst⟩ := joined hr hx
  obtain ⟨-, ready, passes⟩ := woken r x hr same
  rw [kept] at ready passes
  exact ⟨ready hst, _, passes, rfl, rfl⟩

/-! ## The next context in cyclic order (R28) -/

/-- The four contexts after the current one, itself last. -/
theorem find?_cyclic (p : Nat → Bool) (cur : Nat) : ([1, 2, 3, 4].map fun k => (cur + k) % 4).find? p =
    ((List.range' 1 4).find? fun k => p ((cur + k) % 4)).map fun k => (cur + k) % 4 := List.find?_map

theorem find?_cyclic_eq_some {p : Nat → Bool} {cur i : Nat} : ([1, 2, 3, 4].map fun k => (cur + k) % 4).find? p = some i ↔
    ∃ k, 1 ≤ k ∧ k ≤ 4 ∧ i = (cur + k) % 4 ∧ p i = true ∧ ∀ j, 1 ≤ j → j < k → ¬ p ((cur + j) % 4) = true := by
  rw [find?_cyclic, Option.map_eq_some_iff]
  refine exists_congr fun k => ?_
  rw [List.find?_range'_eq_some, List.mem_range'_1]
  constructor
  · rintro ⟨⟨hp, ⟨h1, h4⟩, hb⟩, rfl⟩
    exact ⟨h1, by omega, rfl, hp, fun j hj hk => by simpa using hb j hj hk⟩
  · rintro ⟨h1, h4, rfl, hp, hb⟩
    exact ⟨⟨hp, ⟨h1, by omega⟩, fun j hj hk => by simpa using hb j hj hk⟩, rfl⟩

theorem find?_cyclic_eq_none {p : Nat → Bool} {cur : Nat} : ([1, 2, 3, 4].map fun k => (cur + k) % 4).find? p = none ↔ ∀ i, i < 4 → ¬ p i = true := by
  rw [find?_cyclic, Option.map_eq_none_iff, List.find?_eq_none]
  constructor
  · intro h i hi
    have hk := h ((i + 3 - cur % 4) % 4 + 1) (List.mem_range'_1.mpr ⟨by omega, by omega⟩)
    rwa [show (cur + ((i + 3 - cur % 4) % 4 + 1)) % 4 = i by omega] at hk
  · exact fun h k _ => h _ (Nat.mod_lt _ (by omega))

theorem selectable_iff {w : Work} {n i : Nat} : w.selectable n i = true ↔ (w.ctx n i).st = .ready ∧ (w.ctx n i).readyAt ≤ w.cycle := by
  simp [selectable]

/-! ## YIELD and the switch cycle -/

/-- The core that switches next, to the given context. -/
def Core.yields (next : Option Nat) (c : Core) : Core := { c with switching := next }

/-- The core after a switch cycle, in which `next` is the next context that was ready before. -/
def Core.switched (next : Option Nat) (c : Core) : Core :=
  match c.switching with
  | some n => { c with cur := next.getD n, switching := none }
  | none => c

theorem Core.switched_ctxs (next : Option Nat) (c : Core) : (c.switched next).ctxs = c.ctxs := by
  unfold Core.switched
  split <;> rfl

theorem Core.switched_switching (next : Option Nat) (c : Core) : (c.switched next).switching = none := by
  unfold Core.switched
  split
  · rfl
  · assumption

theorem Core.switched_cur (next : Option Nat) (c : Core) : (c.switched next).cur = (c.switching.map next.getD).getD c.cur := by
  unfold Core.switched
  split <;> rename_i h <;> rw [h] <;> rfl

theorem exec_yield (s : State) : exec .yield s = .next (lift (fun w => w.modHere (Core.yields (w.nextReady w.focus.core))) s) := rfl

theorem exec_contextSwitch (s : State) : exec .contextSwitch s = .next (lift (fun w => w.modHere (Core.switched (w.nextCtx w.focus.core))) s) := rfl

theorem lift_modHere_here (f : Work → Core → Core) (s : State) : (lift (fun w => w.modHere (f w)) s).work.here = f s.work s.work.here :=
  here_modHere s.work (f s.work)

theorem lift_modHere_ctx (f : Work → Core → Core) (s : State) (hf : ∀ c, (f s.work c).ctxs = c.ctxs) (n k : Nat) :
    (lift (fun w => w.modHere (f w)) s).work.ctx n k = s.work.ctx n k := ctx_modCore s.work s.focus.core hf n k

/-- Was the context ready before this cycle? -/
def Work.wasReady (w : Work) (n i : Nat) : Bool := (w.ctx n i).st == .ready && decide ((w.ctx n i).readyAt < w.cycle)

theorem wasReady_iff {w : Work} {n i : Nat} : w.wasReady n i = true ↔ (w.ctx n i).st = .ready ∧ (w.ctx n i).readyAt < w.cycle := by
  simp [Work.wasReady]

theorem nextCtx_eq (w : Work) (n : Nat) : w.nextCtx n = ([1, 2, 3, 4].map fun k => ((w.core n).cur + k) % 4).find? (w.wasReady n) := rfl

/-- Settles O29: END by the episode that it leaves to wait or completes, YIELD and the switch cycle by the search in cyclic order. -/
theorem endsAndSwitches : Obligations.EndsAndSwitches := by
  refine fun s => ⟨fun i hi he hb => ?alone, ⟨exec_endRill s, fun i e hi he hl hu hlast hj hne => endRill_completes hi he hl hu hlast hj hne⟩, ?yield, ?switch⟩
  case alone =>
    rw [exec_endRill, endHere_alone hi he hb]
    rfl
  case yield =>
    have here := lift_modHere_here (fun w => Core.yields (w.nextReady w.focus.core)) s
    refine ⟨_, exec_yield s, rfl, lift_modHere_ctx _ s fun _ => rfl, fun i hi => ?_, fun hi => ?_⟩
    · obtain ⟨k, h1, h4, hk, hp, hb⟩ := find?_cyclic_eq_some.mp ((congrArg Core.switching here).symm.trans hi)
      exact ⟨k, h1, h4, hk, selectable_iff.mp hp, fun j hj hjk hr => hb j hj hjk (selectable_iff.mpr hr)⟩
    · have none := find?_cyclic_eq_none.mp ((congrArg Core.switching here).symm.trans hi)
      exact fun i h4 hr => none i h4 (selectable_iff.mpr hr)
  case switch =>
    have here := lift_modHere_here (fun w => Core.switched (w.nextCtx w.focus.core)) s
    have cur := (congrArg Core.cur here).trans (Core.switched_cur ..)
    refine ⟨_, exec_contextSwitch s, rfl, lift_modHere_ctx _ s (Core.switched_ctxs _), (congrArg Core.switching here).trans (Core.switched_switching ..),
      fun hn => cur.trans (by rw [hn]; rfl), fun n hn => ⟨fun hr => ?_, fun k h1 h4 hr hb => ?_⟩⟩
    · have next : s.work.nextCtx s.focus.core = none := by
        rw [nextCtx_eq]
        exact find?_cyclic_eq_none.mpr fun i h4 hp => hr i h4 (wasReady_iff.mp hp)
      exact cur.trans (by rw [hn]; exact congrArg (Option.getD · n) next)
    · have next : s.work.nextCtx s.focus.core = some ((s.work.here.cur + k) % 4) := by
        rw [nextCtx_eq]
        exact find?_cyclic_eq_some.mpr ⟨k, h1, h4, rfl, wasReady_iff.mpr hr, fun j hj hjk hp => hb j hj hjk (wasReady_iff.mp hp)⟩
      exact cur.trans (by rw [hn]; exact congrArg (Option.getD · n) next)

end Sys2Proof.Machine
end

section
/-! PROOFS. A core's turn (02_execution R28, R54, R61, R62, 01_package R18): the bundle that it presents, the order of its slots, and a switch of context. -/
namespace Sys2Proof.Machine
open Sys2Proof.Claim Work

/-! ## Steps that follow one another -/

/-- A step that writes nothing leaves the next one its work as it stands. -/
theorem lift_work {g : Work → Work} {s : State} (hl : (g s.work).log = []) (hb : (g s.work).base = s.mem) : (lift g s).work = g s.work := by
  unfold lift
  dsimp only
  generalize g s.work = w at hl hb ⊢
  obtain ⟨chip, base, log⟩ := w
  obtain rfl : log = [] := hl
  obtain rfl : base = s.mem := hb
  rfl

theorem lift_lift {f g : Work → Work} {s : State} (hl : (g s.work).log = []) (hb : (g s.work).base = s.mem) :
    lift f (lift g s) = lift (fun w => f (g w)) s := by
  have hm : (lift g s).mem = s.mem := congrArg (applyLog s.mem) hl
  show ({ toChip := (f (lift g s).work).toChip, mem := applyLog (lift g s).mem (f (lift g s).work).log } : State) = _
  rw [lift_work hl hb, hm]
  rfl

/-! ## What is presented -/

section
variable {s : State} (hn : s.work.me.notBefore ≤ s.cycle) (hr : s.work.me.resumed = false) (hh : s.work.me.held = []) (hm : s.work.me.micro = none)
include hn hr hh hm

theorem present_of_stop {t : State} (hp : s.ask Work.prepare = (.stop, t)) : present s = .next t := by
  unfold present
  simp only [hr, hh, hm, hp, Nat.not_lt.mpr hn, if_false, Option.isSome_none, Bool.false_and, Bool.false_eq_true]

theorem present_of_bundle {b : Bundle} {idle : Bool} {vs : List SlotView} {t : State} (hp : s.ask Work.prepare = (.bundle b idle vs, t)) :
    present s = runBundle b idle vs t := by
  unfold present
  simp only [hr, hh, hm, hp, Nat.not_lt.mpr hn, if_false, Option.isSome_none, Bool.false_and, Bool.false_eq_true]

end

theorem stop_ne_bundle {v x : Work} {b : Bundle} {idle : Bool} {vs : List SlotView} : ((.stop, x) : Prepared × Work) ≠ (.bundle b idle vs, v) :=
  fun h => nomatch (Prod.mk.inj h).1

/-- The slots of a prepared bundle are those that the work it leaves sees. -/
theorem prepare_views {w v : Work} {b : Bundle} {idle : Bool} {vs : List SlotView} (h : w.prepare = (.bundle b idle vs, v)) : vs = v.slotViews b := by
  unfold prepare at h
  generalize w.fetchHere = r at h
  obtain ⟨e | f, u⟩ := r <;> dsimp only at h <;> split at h
  · exact absurd h stop_ne_bundle
  · exact absurd h stop_ne_bundle
  · exact absurd h stop_ne_bundle
  · generalize (if (u.me.micro == some .skip) = true then (0 : Bundle) else f.bundle) = fetched at h
    split at h
    · exact absurd h stop_ne_bundle
    · split at h
      · exact absurd h stop_ne_bundle
      · split at h
        · exact absurd h stop_ne_bundle
        · split at h
          · exact absurd h stop_ne_bundle
          · obtain ⟨hb, rfl⟩ := Prod.mk.inj h
            obtain ⟨rfl, -, rfl⟩ := Prepared.bundle.inj hb
            rfl

theorem ask_views {s t : State} {b : Bundle} {idle : Bool} {vs : List SlotView} (h : s.ask Work.prepare = (.bundle b idle vs, t)) :
    vs = t.work.slotViews b := by
  obtain ⟨hp, rfl⟩ := Prod.mk.inj h
  exact prepare_views (v := s.work.prepare.2) (Prod.ext hp rfl)

/-! ## Slots in order -/

theorem mem_insertBy {α : Type} {le : α → α → Bool} {x y : α} {l : List α} : y ∈ insertBy le x l ↔ y = x ∨ y ∈ l := by
  induction l with
  | nil => simp [insertBy]
  | cons z zs ih =>
    unfold insertBy
    split
    · exact List.mem_cons
    · rw [List.mem_cons, ih, List.mem_cons]
      tauto

theorem mem_sortBy {α : Type} {le : α → α → Bool} {x : α} {l : List α} : x ∈ sortBy le l ↔ x ∈ l := by
  induction l with
  | nil => exact Iff.rfl
  | cons y ys ih => rw [sortBy, mem_insertBy, ih, List.mem_cons]

theorem mem_inOrder {vs : List SlotView} {x : SlotView × Instr} : x ∈ inOrder vs ↔ x.1 ∈ vs ∧ x.1.instr = some x.2 := by
  obtain ⟨v, i⟩ := x
  unfold inOrder
  rw [mem_sortBy]
  simp

theorem runSlots_of_gone {id : Nat} {is : List (SlotView × Instr)} {s : State} (h : s.work.me.inst ≠ id) : runSlots id is s = .next s := by
  cases is with
  | nil => rfl
  | cons x is => exact if_pos h

theorem runSlots_cons {id : Nat} {v : SlotView} {i : Instr} {more : List (SlotView × Instr)} {s t : State} (h : s.work.me.inst = id)
    (ht : runOne v i s = .next t) : runSlots id ((v, i) :: more) s = runSlots id more t := by
  rw [runSlots, if_neg (not_not.mpr h), ht]
  rfl

/-- A bundle of one instruction that may not wait, on an array that the rill does not own. -/
theorem runBundle_single {b : Bundle} {vs : List SlotView} {v : SlotView} {i : Instr} {s t : State} (hvs : inOrder vs = [(v, i)]) (hb : mayBlock i = false)
    (h0 : v.n ≠ 0) (ho : s.work.ownsHere = false)
    (ht : exec i (lift (fun w => (w.beginIssue false).modFocus fun g => { g with
      hdr := field b 0 64, ending := i == .endRill, direct := Work.directMaccs i,
      slot := v.n, slotWord := v.word, ext := v.ext, admitted := v.n == 9, bundle := true }) s) = .next t) :
    runBundle b false vs s = .next (lift (fun w => w.finishBundle s.work.me.inst (i == .rft)) t) := by
  unfold runBundle
  rw [hvs, ho]
  simp only [List.any_cons, List.any_nil, Bool.or_false, List.find?_cons, hb, Bool.and_false, List.find?_nil, Bool.false_eq_true, if_false, h0, false_and,
    ownerBundle, andThen]
  have issued : runOne v i (lift (fun w => (w.beginIssue false).modFocus fun g => { g with
      hdr := field b 0 64, ending := i == .endRill, direct := Work.directMaccs i }) s) = .next t := by
    rw [runOne, lift_lift]
    · exact ht
    · rfl
    · rfl
  rw [runSlots_cons (id := s.work.me.inst)]
  · rfl
  · rfl
  · exact issued

/-! ## A core's turn -/

section
variable {s : State} {n : Nat} (hsw : (s.work.core n).switching = none) (hst : (s.work.core n).stallUntil ≤ s.cycle)
include hsw hst

theorem coreTurn_presents (hr : (s.work.ctx n (s.work.core n).cur).st = .ready) (hb : (s.work.ctx n (s.work.core n).cur).blockedAt + 1 ≠ s.cycle)
    (hra : (s.work.ctx n (s.work.core n).cur).readyAt < s.cycle) : coreTurn n s = present (lift (fun w => w.aim n (s.work.core n).cur) s) := by
  have stays : s.work.leaves n = false := by simp [Work.leaves, hr, hb]
  unfold coreTurn
  dsimp only
  rw [hsw, stays]
  simp only [Option.isSome_none, Bool.false_eq_true, if_false, State.work_cycle, Nat.not_lt.mpr hst, Bool.not_false, if_true, hra]

theorem coreTurn_switches {m : Nat} (hm : s.work.nextCtx n = some m) (hl : (s.work.ctx n (s.work.core n).cur).st ≠ .ready ∨
      (s.work.ctx n (s.work.core n).cur).blockedAt + 1 = s.cycle ∧ m ≠ (s.work.core n).cur) :
    coreTurn n s = exec .contextSwitch (lift (fun w => (w.aim n (s.work.core n).cur).modCore n (Core.yields (some m))) s) := by
  have leaves : s.work.leaves n = true := by simpa [Work.leaves, hm] using hl
  unfold coreTurn
  dsimp only
  rw [hsw, leaves, hm]
  simp only [Option.isSome_none, Bool.false_eq_true, if_false, State.work_cycle, Nat.not_lt.mpr hst, Bool.not_true]
  rfl

end

theorem step_core {s : State} {n : Nat} {rest : List Agent} (hp : s.pending = []) (hw : s.power = true) (ht : s.turn = .core n :: rest) :
    step s = andThen (holdBack { s with turn := rest } (coreTurn n { s with turn := rest })) fun t => .next (wake t) := by
  rw [step, stepOnce_of_turn hp hw ht]
  rfl

/-! ## What waking leaves -/

/-- A component of the work that neither a context's change nor a sample touches. -/
theorem wakeWaits_keeps {β : Type} (g : Work → β) (hm : ∀ v n i f, g (modCtx v n i f) = g v) (hs : ∀ v a b c, g (sample v a b c) = g v) (w : Work) :
    g w.wakeWaits = g w := by
  refine foldl_keeps g (fun v n => foldl_keeps g (fun v i => ?_) _ v) _ w
  split
  · rfl
  · split
    · split
      · rw [hm, wakeCtx_keeps g hm hs]
      · rw [hm, wakeCtx_keeps g hm hs]
      · exact wakeCtx_keeps g hm hs v n i
    · rfl

theorem modCtx_core_cur (w : Work) (n i : Nat) (f : Ctx → Ctx) (m : Nat) :
    (((w.modCtx n i f).core m).cur, ((w.modCtx n i f).core m).switching) = ((w.core m).cur, (w.core m).switching) := by
  by_cases h : m = n
  · rw [h, modCtx, core_modCore_same]
  · rw [modCtx, core_modCore_other w _ h]

theorem wake_cur (s : State) (n : Nat) : ((wake s).work.core n).cur = (s.work.core n).cur ∧ ((wake s).work.core n).switching = (s.work.core n).switching :=
  Prod.mk.inj (wakeWaits_keeps (fun w => ((w.core n).cur, (w.core n).switching)) (fun v m i f => modCtx_core_cur v m i f n)
    (fun v a b c => by rw [Work.core, Work.core, sample_cores]) s.work)

theorem wake_mem (s : State) : (wake s).mem = s.mem := lift_mem_of_log (wakeWaits_keeps (·.log) (fun _ _ _ _ => rfl) sample_log s.work)

/-- A core that switches has the next context as its current one, and no switch left to make. -/
theorem switch_leaves (s : State) {n m : Nat} (hm : s.work.nextCtx n = some m) :
    ∃ t, exec .contextSwitch (lift (fun w => (w.aim n (s.work.core n).cur).modCore n (Core.yields (some m))) s) = .next t ∧
      t.work.heldNow = false ∧ (t.work.core n).cur = m ∧ (t.work.core n).switching = none ∧ t.mem = s.mem := by
  set v := (s.work.aim n (s.work.core n).cur).modCore n (Core.yields (some m)) with hv
  have hcore : v.core n = (s.work.core n).yields (some m) := core_modCore_same ..
  have hready : v.wasReady n = s.work.wasReady n := by
    funext i
    have hctx : v.ctx n i = s.work.ctx n i := ctx_modCore (s.work.aim n (s.work.core n).cur) n (f := Core.yields (some m)) (fun _ => rfl) n i
    rw [Work.wasReady, Work.wasReady, hctx]
    rfl
  have hnext : v.nextCtx n = some m := by
    rw [nextCtx_eq, hready, hcore]
    exact hm
  have hswitched : (v.modHere (Core.switched (v.nextCtx v.focus.core))).core n = ((s.work.core n).yields (some m)).switched (some m) := by
    rw [← hcore]
    exact (core_modCore_same v n (Core.switched (v.nextCtx n))).trans (by rw [hnext])
  refine ⟨_, exec_contextSwitch _, ?_⟩
  rw [lift_lift]
  · exact ⟨rfl, (congrArg Core.cur hswitched).trans (Core.switched_cur ..), (congrArg Core.switching hswitched).trans (Core.switched_switching ..), rfl⟩
  · rfl
  · rfl

/-- Settles O37: what a core's turn comes to, by whether it presents or leaves its context, with what `holdBack` and `wake` do to it. -/
theorem stepRunsDecoded : Obligations.StepRunsDecoded := by
  refine ⟨fun s s1 n rest => ?presents, fun s n m rest => ?leaves, fun id v i more s => ⟨runSlots_of_gone, fun h t ht => runSlots_cons h ht, fun vs x hx => ?order⟩⟩
  case presents =>
    intro c x s0 hp hw ht hsw hst hr hb hra hnb hres hheld hmicro
    have turn : step s = andThen (holdBack s0 (present (lift (fun w => w.aim n c.cur) s0))) fun t => .next (wake t) := by
      rw [step_core hp hw ht, coreTurn_presents (s := s0) hsw hst hr hb hra]
      rfl
    have done {t : State} (hf : s.work.noneHeld = true ∨ t.focus.heldRead = false ∧ t.focus.heldWrite = false)
        (hpr : present (lift (fun w => w.aim n c.cur) s0) = .next t) : step s = .next (wake t) := by
      rw [turn, hpr]
      rcases hf with hf | ⟨hr, hw⟩
      · rw [holdBack_free (s := s0) _ hf, andThen]
      · rw [holdBack_next_of_not_held (heldNow_eq_false hr hw), andThen]
    refine ⟨fun hprep hf => done hf (present_of_stop (s := lift (fun w => w.aim n c.cur) s0) hnb hres hheld hmicro hprep), fun b idle vs hprep => ?_⟩
    have bundle : present (lift (fun w => w.aim n c.cur) s0) = runBundle b idle vs s1 :=
      present_of_bundle (s := lift (fun w => w.aim n c.cur) s0) hnb hres hheld hmicro hprep
    refine ⟨ask_views hprep, fun t hrun hf => done hf (bundle.trans hrun), fun t hrun hnone hheld => ?_, fun v i hvs hi hmb hn ho hf t hexec => ?_⟩
    · rw [turn, bundle, hrun, holdBack_next_of_held (s := s0) hnone (heldNow_eq_true hheld), andThen]
    · subst hi
      exact done (.inl hf) (bundle.trans (runBundle_single hvs hmb hn ho hexec))
  case leaves =>
    intro c x hp hw ht hsw hst hm hl
    obtain ⟨t, hexec, hheld, hcur, hdone, hmem⟩ := switch_leaves { s with turn := rest } hm
    refine ⟨wake t, ?_, (wake_cur t n).1.trans hcur, (wake_cur t n).2.trans hdone, (wake_mem t).trans hmem⟩
    rw [step_core hp hw ht, coreTurn_switches (s := { s with turn := rest }) hsw hst hm hl]
    exact (congrArg (fun o => andThen (holdBack { s with turn := rest } o) fun t => .next (wake t)) hexec).trans (by
      rw [holdBack_next_of_not_held hheld, andThen])
  case order =>
    obtain ⟨hv, hi⟩ := mem_inOrder.mp hx
    exact ⟨x.1, hv, rfl, hi⟩

end Sys2Proof.Machine
end

section
/-! PROOFS. The helper of the focus (02_execution R45 to R47): its record under what a helper instruction does, its faults, and bytes that a step leaves. -/
namespace Sys2Proof.Machine
open Sys2Proof.Claim

/-- The helper with a register written. -/
def Helper.put (d : BitVec 5) (v : Word) (h : Helper) : Helper := { h with x := setNth h.x d.toNat v }
/-- The helper past an instruction. -/
def Helper.past (pc : Word) (h : Helper) : Helper := { h with pc := pc, instret := h.instret + 1 }
/-- The helper with that reservation. -/
def Helper.reserve (r : Option (Nat × Nat)) (h : Helper) : Helper := { h with reserved := r }
/-- A register of the helper; x0 reads zero. -/
def Helper.reg (h : Helper) (r : BitVec 5) : Word := if r = 0 then 0 else nth h.x r.toNat

theorem Helper.reg_put (d : BitVec 5) (v : Word) (h : Helper) (k : BitVec 5) :
    (h.put d v).reg k = if k = 0 then 0 else if k = d then v else h.reg k := by
  unfold Helper.reg Helper.put
  by_cases h0 : k = 0
  · rw [if_pos h0, if_pos h0]
  · rw [if_neg h0, if_neg h0, if_neg h0]
    by_cases hd : k = d
    · rw [if_pos hd, hd]
      exact nth_setNth_same ..
    · rw [if_neg hd]
      refine nth_setNth_other _ _ fun e => hd (BitVec.eq_of_toNat_eq ?_)
      rwa [Nat.mod_eq_of_lt d.isLt, Nat.mod_eq_of_lt k.isLt, eq_comm] at e

namespace Work

theorem helper_modHelper (w : Work) (n : Nat) (o : Bool) (f : Helper → Helper) : (w.modHelper n o f).helper n o = f (w.helper n o) := by
  unfold modHelper helper
  rw [core_modCore_same]
  cases o <;> rfl

section
variable (w : Work) (d : BitVec 5) (v pc : Word) (len : Nat)
@[simp] theorem hNow_modH (f : Helper → Helper) : (w.modH f).hNow = f w.hNow := helper_modHelper ..
@[simp] theorem hNow_setHx : (w.setHx d v).hNow = w.hNow.put d v := hNow_modH ..
@[simp] theorem hNow_hNext : (w.hNext len).hNow = w.hNow.past (w.hNow.pc + BitVec.ofNat 64 len) := hNow_modH ..
@[simp] theorem hNow_hGoto : (w.hGoto pc).hNow = w.hNow.past pc := hNow_modH ..
theorem hx_eq (k : BitVec 5) : w.hx k = w.hNow.reg k := rfl
end

theorem hNow_of_cores {w v : Work} (hc : v.cores = w.cores) (hf : v.focus = w.focus) : v.hNow = w.hNow := by
  rw [hNow, hNow, helper, helper, core, core, hc, hf]

/-! ## Faults (R47) -/

theorem leaveHandle_beside (w : Work) (n : Nat) : (w.leaveHandle n).cores = w.cores ∧ (w.leaveHandle n).focus = w.focus ∧ (w.leaveHandle n).pending = w.pending := by
  unfold leaveHandle
  dsimp only
  split <;> exact ⟨rfl, rfl, rfl⟩

/-- The helper leaves what it waits for, and nothing else of it changes. -/
theorem helperLeaves_hNow (w : Work) : let v := w.helperLeaves w.focus.core w.focus.outfall
    v.hNow = { w.hNow with waiting := none } ∧ v.focus = w.focus ∧ v.pending = w.pending := by
  unfold helperLeaves
  split
  · rename_i n m _
    obtain ⟨hc, hf, hp⟩ := w.leaveHandle_beside n
    refine ⟨?_, hf, hp⟩
    have h := hNow_modH (w.leaveHandle n) fun x => { x with waiting := none }
    rw [modH, hf, hNow_of_cores hc hf] at h
    exact h
  · rename_i hw
    refine ⟨?_, rfl, rfl⟩
    have hn : w.hNow.waiting = none := hw
    rw [← hn]

theorem hFault_leaves (w : Work) (c v : Word) : (w.hFault c v).hNow.st = .faulted ∧ (w.hFault c v).hNow.fault = some (c, v, w.hNow.pc) ∧
    (w.hFault c v).pending = w.pending ++ [⟨w.focus.core, w.focus.outfall.toNat, .auxfault⟩] := by
  obtain ⟨hh, hf, hp⟩ := w.helperLeaves_hNow
  set u := w.helperLeaves w.focus.core w.focus.outfall
  have hnow : (w.hFault c v).hNow = { u.hNow with st := .faulted, fault := some (c, v, u.hNow.pc) } :=
    hNow_modH u fun h => { h with st := .faulted, fault := some (c, v, h.pc) }
  refine ⟨congrArg Helper.st hnow, ?_, ?_⟩
  · rw [hnow, hh]
  · have pending : (w.hFault c v).pending = u.pending ++ [⟨u.focus.core, u.focus.outfall.toNat, .auxfault⟩] := rfl
    rw [pending, hp, hf]

end Work

/-! ## What a helper instruction does -/

section
variable (s : State)

/-- The registers of the helper with one of them written. -/
def putReg (d : BitVec 5) (v : Word) : BitVec 5 → Word := fun k => if k = d then v else s.work.hx k

/-- The helper has gone on to `pc` with registers `v`. -/
def WentOn (v : BitVec 5 → Word) (pc : Word) (u : State) : Prop :=
  (∀ k, u.work.hx k = if k = 0 then 0 else v k) ∧ u.work.hNow.pc = pc ∧ u.work.hNow.instret = s.work.hNow.instret + 1 ∧ u.work.hNow.st = .running

/-- The instruction does that and no more to memory. -/
def Does (i : Instr) (v : BitVec 5 → Word) (pc : Word) : Prop := ∃ u, exec i s = .next u ∧ WentOn s v pc u ∧ u.mem = s.mem

/-- The instruction faults. -/
def Faults (i : Instr) (c v : Word) : Prop := exec i s = .next (lift (fun w => w.hFault c v) s)

end

section
variable {s : State} (hr : s.work.hNow.st = .running)

theorem lift_onHelper_idle (hi : s.work.hNow.st ≠ .running) (f : Work → Work) : lift (fun w => w.onHelper f) s = s := lift_eq_self (if_neg hi)

include hr

theorem lift_onHelper (f : Work → Work) : lift (fun w => w.onHelper f) s = left s (f s.work) := lift_congr (g := f) (if_pos hr)

/-- Whatever else of the helper has changed. -/
theorem wentOn_beside {w : Work} {h : Helper} {d : BitVec 5} {v pc : Word} (hx : h.x = s.work.hNow.x) (hi : h.instret = s.work.hNow.instret)
    (hs : h.st = s.work.hNow.st) (hw : w.hNow = (h.put d v).past pc) : WentOn s (putReg s d v) pc (left s w) := by
  have hnow : (left s w).work.hNow = _ := hw
  refine ⟨fun k => ?_, ?_, ?_, ?_⟩
  · have same : ((h.put d v).past pc).reg k = (s.work.hNow.put d v).reg k := by
      unfold Helper.reg Helper.put Helper.past
      rw [hx]
    rw [Work.hx_eq, hnow, same]
    exact Helper.reg_put d v s.work.hNow k
  all_goals rw [hnow]
  · rfl
  · exact congrArg (· + 1) hi
  · exact hs.trans hr

theorem wentOn_reserve {w : Work} {d : BitVec 5} {v pc : Word} {r : Option (Nat × Nat)}
    (h : w.hNow = ((s.work.hNow.put d v).reserve r).past pc) : WentOn s (putReg s d v) pc (left s w) :=
  wentOn_beside hr (h := s.work.hNow.reserve r) rfl rfl rfl h

theorem wentOn_put {w : Work} {d : BitVec 5} {v pc : Word} (h : w.hNow = (s.work.hNow.put d v).past pc) : WentOn s (putReg s d v) pc (left s w) :=
  wentOn_reserve hr (r := s.work.hNow.reserved) h

theorem wentOn_past {w : Work} {pc : Word} (h : w.hNow = s.work.hNow.past pc) : WentOn s s.work.hx pc (left s w) := by
  have hnow : (left s w).work.hNow = _ := h
  refine ⟨fun k => ?_, ?_, ?_, ?_⟩
  · rw [Work.hx_eq, hnow, Work.hx_eq]
    unfold Helper.reg
    split <;> rfl
  all_goals rw [hnow]
  · rfl
  · rfl
  · exact hr

variable {i : Instr} {w : Work}

theorem does_put {d : BitVec 5} {v pc : Word} (he : exec i s = .next (left s w)) (hl : w.log = []) (h : w.hNow = (s.work.hNow.put d v).past pc) :
    Does s i (putReg s d v) pc := ⟨_, he, wentOn_put hr h, congrArg (applyLog s.mem) hl⟩

theorem does_past {pc : Word} (he : exec i s = .next (left s w)) (hl : w.log = []) (h : w.hNow = s.work.hNow.past pc) :
    Does s i s.work.hx pc := ⟨_, he, wentOn_past hr h, congrArg (applyLog s.mem) hl⟩

end

/-! ## Bytes that a step leaves -/

theorem left_byte {s : State} {w : Work} (h : s.Inv) (hb : w.base = s.mem) (hf : w.LogFits) (q : Nat) : (left s w).work.byte q = w.byte q := by
  rw [Work.byte_eq_get_applyLog (hb ▸ h) hf, hb]
  rfl

theorem byte_of_log {w v : Work} (hl : v.log = w.log) (hb : v.base = w.base) (q : Nat) : v.byte q = w.byte q := by
  rw [Work.byte, Work.byte, hl, hb]

/-- A step whose one write is known leaves its bytes, and the others as they were. -/
theorem left_byte_write {s : State} {w : Work} {k n x : Nat} (h : s.Inv) (hl : w.log = (s.work.write k (leBytes n x)).log) (hb : w.base = s.mem) (q : Nat) :
    (left s w).work.byte q = if k ≤ q ∧ q < k + n then (leBytes n x).getD (q - k) 0 else s.work.byte q := by
  have hf : w.LogFits := by
    rw [Work.LogFits, hl]
    exact (Work.logFits_work s).write k _
  rw [left_byte h hb hf, byte_of_log hl (hb.trans (s.work.write_base k _).symm), Work.byte_write, leBytes_length]
  rfl

end Sys2Proof.Machine
end

section
/-! PROOFS. The ordinary instructions of a helper core (02_execution R45 to R47): registers, jumps, CSRs, and private memory. -/
namespace Sys2Proof.Machine
open Sys2Proof.Claim

namespace Work
variable (w : Work) (d : BitVec 5) (v pc : Word) (len : Nat)

theorem hNow_set : ((w.setHx d v).hNext len).hNow = (w.hNow.put d v).past (w.hNow.pc + BitVec.ofNat 64 len) := by
  rw [hNow_hNext, hNow_setHx]
  rfl

theorem hNow_jump : ((w.setHx d v).hGoto pc).hNow = (w.hNow.put d v).past pc := by rw [hNow_hGoto, hNow_setHx]

theorem hNow_reserve (r : Option (Nat × Nat)) : (((w.setHx d v).modH fun h => { h with reserved := r }).hNext len).hNow =
    ((w.hNow.put d v).reserve r).past (w.hNow.pc + BitVec.ofNat 64 len) := by
  rw [hNow_hNext, hNow_modH, hNow_setHx]
  rfl

@[simp] theorem hNow_hWrite (a : Word) (n : Nat) : (w.hWrite a n v).hNow = w.hNow :=
  hNow_of_cores (write_cores ..) (write_focus ..)

@[simp] theorem hWrite_base (a : Word) (n : Nat) : (w.hWrite a n v).base = w.base := write_base ..

/-! What LR, SC and AMO do with an operand in private data. -/

/-- The bytes of an atomic's operand. -/
def wideOr (dbl : Bool) : Nat := if dbl then 8 else 4

def lrAct (ad : Word) (n : Nat) : Work := ((w.setHx d (extend n false (w.hRead ad n))).modH fun h => { h with reserved := some (ad.toNat, n) }).hNext len

def scAct (b : BitVec 5) (ad : Word) (n : Nat) : Work :=
  let ok := w.hNow.reserved = some (ad.toNat, n)
  (((if ok then w.hWrite ad n (w.hx b) else w).setHx d (if ok then 0 else 1)).modH fun h => { h with reserved := none }).hNext len

def amoAct (op : RvAmo) (b : BitVec 5) (ad : Word) (n : Nat) : Work :=
  ((w.hWrite ad n (rvAmoNew op n (w.hRead ad n) (w.hx b))).setHx d (extend n false (w.hRead ad n))).hNext len

theorem step_lr (dbl : Bool) (a : BitVec 5) :
    w.helperStep (.lr dbl d a) len = w.atomic (w.hx a) (wideOr dbl) false fun u => u.lrAct d len (w.hx a) (wideOr dbl) := by
  rw [helperStep]
  rfl

theorem step_sc (dbl : Bool) (a b : BitVec 5) :
    w.helperStep (.sc dbl d a b) len = w.atomic (w.hx a) (wideOr dbl) true fun u => u.scAct d len b (w.hx a) (wideOr dbl) := by
  rw [helperStep]
  rfl

theorem step_amo (op : RvAmo) (dbl : Bool) (a b : BitVec 5) :
    w.helperStep (.amo op dbl d a b) len = w.atomic (w.hx a) (wideOr dbl) true fun u => u.amoAct d len op b (w.hx a) (wideOr dbl) := by
  rw [helperStep]
  rfl

end Work

section
variable {s : State} (hr : s.work.hNow.st = .running)
include hr

/-- An instruction that a helper performs by one function of the machine. -/
theorem does_set {i : Instr} {d : BitVec 5} {v : Word} {len : Nat} (he : exec i s = .next (left s ((s.work.setHx d v).hNext len))) :
    Does s i (putReg s d v) (s.work.hNow.pc + BitVec.ofNat 64 len) :=
  does_put hr he rfl (s.work.hNow_set d v len)

theorem does_next {i : Instr} {len : Nat} (he : exec i s = .next (left s (s.work.hNext len))) :
    Does s i s.work.hx (s.work.hNow.pc + BitVec.ofNat 64 len) :=
  does_past hr he rfl (s.work.hNow_hNext len)

theorem exec_helper (op : RvInstr) (n : BitVec 3) : exec (.helperInstruction op n) s = .next (left s (s.work.helperStep op n.toNat)) :=
  congrArg Host.Outcome.next (lift_onHelper hr _)

theorem faults_of_step {op : RvInstr} {n : BitVec 3} {c v : Word} (h : s.work.helperStep op n.toNat = s.work.hFault c v) :
    Faults s (.helperInstruction op n) c v := by
  rw [Faults, exec_helper hr, h]
  rfl

variable (n : BitVec 3) (d a b : BitVec 5)

theorem does_jal (off : BitVec 21) : Does s (.helperInstruction (.jal d off) n) (putReg s d (s.work.hNow.pc + BitVec.ofNat 64 n.toNat))
    (s.work.hNow.pc + off.signExtend 64) :=
  does_put hr (exec_helper hr _ n) rfl (s.work.hNow_jump ..)

theorem does_jalr (off : BitVec 12) : Does s (.helperInstruction (.jalr d a off) n) (putReg s d (s.work.hNow.pc + BitVec.ofNat 64 n.toNat))
    ((s.work.hx a + off.signExtend 64) &&& ~~~1#64) :=
  does_put hr (exec_helper hr _ n) rfl (s.work.hNow_jump ..)

theorem does_branch (c : RvCond) (off : BitVec 13) : Does s (.helperInstruction (.branch c a b off) n) s.work.hx
    (if rvCond c (s.work.hx a) (s.work.hx b) then s.work.hNow.pc + off.signExtend 64 else s.work.hNow.pc + BitVec.ofNat 64 n.toNat) := by
  have he := exec_helper hr (.branch c a b off) n
  by_cases hc : rvCond c (s.work.hx a) (s.work.hx b)
  · rw [if_pos hc]
    rw [Work.helperStep, if_pos hc] at he
    exact does_past hr he rfl (s.work.hNow_hGoto _)
  · rw [if_neg hc]
    rw [Work.helperStep, if_neg hc] at he
    exact does_next hr he

/-! ## CSRs: reads alone are allowed (R46) -/

section
variable {num : BitVec 12} (isImm : Bool)

theorem csr_absent (op : RvCsr) (h : s.work.hCsr num = none) : Faults s (.helperInstruction (.csr op isImm d a num) n) 2 (s.work.hWord n.toNat) :=
  faults_of_step hr (by rw [Work.helperStep, h]; rfl)

theorem csr_written (op : RvCsr) (h : op = .rw ∨ a ≠ 0#5) : Faults s (.helperInstruction (.csr op isImm d a num) n) 2 (s.work.hWord n.toNat) := by
  cases hv : s.work.hCsr num with
  | none => exact csr_absent hr n d a isImm op hv
  | some v => exact faults_of_step hr (by rw [Work.helperStep, hv]; exact if_pos h)

theorem csr_read {op : RvCsr} {v : Word} (h : op ≠ .rw) (hv : s.work.hCsr num = some v) :
    Does s (.helperInstruction (.csr op isImm d 0 num) n) (putReg s d v) (s.work.hNow.pc + BitVec.ofNat 64 n.toNat) := by
  have he := exec_helper hr (.csr op isImm d 0 num) n
  rw [Work.helperStep, hv] at he
  exact does_set hr (he.trans (congrArg _ (congrArg _ (if_neg (not_or.2 ⟨h, not_not.2 rfl⟩)))))

end

/-! ## Private memory -/

section
variable (z : BitVec 2) (zx : Bool) (off : BitVec 12)

theorem access_misaligned (h : (s.work.hx a + off.signExtend 64).toNat % 2 ^ z.toNat ≠ 0) :
    Faults s (.helperInstruction (.load z zx d a off) n) 4 (s.work.hx a + off.signExtend 64) ∧
      Faults s (.helperInstruction (.store z a b off) n) 6 (s.work.hx a + off.signExtend 64) :=
  ⟨faults_of_step hr (if_pos h), faults_of_step hr (if_pos h)⟩

variable (h : ¬(s.work.hx a + off.signExtend 64).toNat % 2 ^ z.toNat ≠ 0)
include h

theorem load_outside (hd : Work.isReadable (s.work.hx a + off.signExtend 64) (2 ^ z.toNat) = false) :
    Faults s (.helperInstruction (.load z zx d a off) n) 5 (s.work.hx a + off.signExtend 64) :=
  faults_of_step hr ((if_neg h).trans (if_pos (by rw [hd]; rfl)))

theorem does_load (hd : Work.isReadable (s.work.hx a + off.signExtend 64) (2 ^ z.toNat) = true) :
    Does s (.helperInstruction (.load z zx d a off) n)
      (putReg s d (Work.extend (2 ^ z.toNat) zx (s.work.hRead (s.work.hx a + off.signExtend 64) (2 ^ z.toNat))))
      (s.work.hNow.pc + BitVec.ofNat 64 n.toNat) :=
  does_set hr ((exec_helper hr _ n).trans (congrArg _ (congrArg _ ((if_neg h).trans (if_neg (by rw [hd]; decide))))))

theorem store_outside (hd : Work.isData (s.work.hx a + off.signExtend 64) (2 ^ z.toNat) = false) :
    Faults s (.helperInstruction (.store z a b off) n) 7 (s.work.hx a + off.signExtend 64) :=
  faults_of_step hr ((if_neg h).trans (if_pos (by rw [hd]; rfl)))

theorem exec_store (hs : s.Inv) (hd : Work.isData (s.work.hx a + off.signExtend 64) (2 ^ z.toNat) = true) :
    ∃ u, exec (.helperInstruction (.store z a b off) n) s = .next u ∧ WentOn s s.work.hx (s.work.hNow.pc + BitVec.ofNat 64 n.toNat) u ∧
      ∀ q, u.work.byte q = if s.work.hKey (s.work.hx a + off.signExtend 64) ≤ q ∧ q < s.work.hKey (s.work.hx a + off.signExtend 64) + 2 ^ z.toNat
        then (leBytes (2 ^ z.toNat) (s.work.hx b).toNat).getD (q - s.work.hKey (s.work.hx a + off.signExtend 64)) 0 else s.work.byte q :=
  ⟨_, (exec_helper hr _ n).trans (congrArg _ (congrArg _ ((if_neg h).trans (if_neg (by rw [hd]; decide))))),
    wentOn_past hr (by rw [Work.hNow_hNext, Work.hNow_hWrite]), left_byte_write hs rfl (Work.hWrite_base ..)⟩

end

/-! ## Atomics -/

section
variable (w : Work) (ad : Word) (m : Nat) (f : Work → Work)

omit hr in
theorem atomic_misaligned (st : Bool) (h : ad.toNat % m ≠ 0) : w.atomic ad m st f = w.hFault (if st then 6 else 4) ad := if_pos h

omit hr in
theorem atomic_outside (st : Bool) (h : ad.toNat % m = 0) (hd : Work.isData ad m = false) : w.atomic ad m st f = w.hFault (if st then 7 else 5) ad :=
  (if_neg (not_not.2 h)).trans (if_pos (by rw [hd]; rfl))

omit hr in
theorem atomic_data (st : Bool) (h : ad.toNat % m = 0) (hd : Work.isData ad m = true) : w.atomic ad m st f = f w :=
  (if_neg (not_not.2 h)).trans (if_neg (by rw [hd]; decide))

end

variable (dbl : Bool) (amo : RvAmo)

theorem atomics_misaligned (h : (s.work.hx a).toNat % Work.wideOr dbl ≠ 0) :
    Faults s (.helperInstruction (.lr dbl d a) n) 4 (s.work.hx a) ∧ Faults s (.helperInstruction (.sc dbl d a b) n) 6 (s.work.hx a) ∧
      Faults s (.helperInstruction (.amo amo dbl d a b) n) 6 (s.work.hx a) :=
  ⟨faults_of_step hr ((Work.step_lr ..).trans (atomic_misaligned _ _ _ _ false h)), faults_of_step hr ((Work.step_sc ..).trans (atomic_misaligned _ _ _ _ true h)),
    faults_of_step hr ((Work.step_amo ..).trans (atomic_misaligned _ _ _ _ true h))⟩

variable (h : (s.work.hx a).toNat % Work.wideOr dbl = 0)
include h

theorem atomics_outside (hd : Work.isData (s.work.hx a) (Work.wideOr dbl) = false) :
    Faults s (.helperInstruction (.lr dbl d a) n) 5 (s.work.hx a) ∧ Faults s (.helperInstruction (.sc dbl d a b) n) 7 (s.work.hx a) ∧
      Faults s (.helperInstruction (.amo amo dbl d a b) n) 7 (s.work.hx a) :=
  ⟨faults_of_step hr ((Work.step_lr ..).trans (atomic_outside _ _ _ _ false h hd)),
    faults_of_step hr ((Work.step_sc ..).trans (atomic_outside _ _ _ _ true h hd)),
    faults_of_step hr ((Work.step_amo ..).trans (atomic_outside _ _ _ _ true h hd))⟩

variable (hd : Work.isData (s.work.hx a) (Work.wideOr dbl) = true)
include hd

theorem exec_lr : ∃ u, exec (.helperInstruction (.lr dbl d a) n) s = .next u ∧
    WentOn s (putReg s d (Work.extend (Work.wideOr dbl) false (s.work.hRead (s.work.hx a) (Work.wideOr dbl)))) (s.work.hNow.pc + BitVec.ofNat 64 n.toNat) u ∧
    u.work.hNow.reserved = some ((s.work.hx a).toNat, Work.wideOr dbl) ∧ u.mem = s.mem := by
  have he := exec_helper hr (.lr dbl d a) n
  rw [Work.step_lr, atomic_data _ _ _ _ _ h hd] at he
  exact ⟨_, he, wentOn_reserve hr (Work.hNow_reserve ..), congrArg Helper.reserved (Work.hNow_reserve ..), rfl⟩

theorem exec_amo (hs : s.Inv) : ∃ u, exec (.helperInstruction (.amo amo dbl d a b) n) s = .next u ∧
    WentOn s (putReg s d (Work.extend (Work.wideOr dbl) false (s.work.hRead (s.work.hx a) (Work.wideOr dbl)))) (s.work.hNow.pc + BitVec.ofNat 64 n.toNat) u ∧
    ∀ q, u.work.byte q = if s.work.hKey (s.work.hx a) ≤ q ∧ q < s.work.hKey (s.work.hx a) + Work.wideOr dbl
      then (leBytes (Work.wideOr dbl) (rvAmoNew amo (Work.wideOr dbl) (s.work.hRead (s.work.hx a) (Work.wideOr dbl)) (s.work.hx b)).toNat).getD
        (q - s.work.hKey (s.work.hx a)) 0 else s.work.byte q := by
  have he := exec_helper hr (.amo amo dbl d a b) n
  rw [Work.step_amo, atomic_data _ _ _ _ _ h hd] at he
  exact ⟨_, he, wentOn_put hr ((Work.hNow_set ..).trans (by rw [Work.hNow_hWrite])), left_byte_write hs rfl (Work.hWrite_base ..)⟩

/-- SC writes where the reservation stands, and ends it either way. -/
theorem exec_sc (hs : s.Inv) : ∃ u, exec (.helperInstruction (.sc dbl d a b) n) s = .next u ∧ u.work.hNow.reserved = none ∧
    (s.work.hNow.reserved = some ((s.work.hx a).toNat, Work.wideOr dbl) →
      WentOn s (putReg s d 0) (s.work.hNow.pc + BitVec.ofNat 64 n.toNat) u ∧
      ∀ q, u.work.byte q = if s.work.hKey (s.work.hx a) ≤ q ∧ q < s.work.hKey (s.work.hx a) + Work.wideOr dbl
        then (leBytes (Work.wideOr dbl) (s.work.hx b).toNat).getD (q - s.work.hKey (s.work.hx a)) 0 else s.work.byte q) ∧
    (s.work.hNow.reserved ≠ some ((s.work.hx a).toNat, Work.wideOr dbl) →
      WentOn s (putReg s d 1) (s.work.hNow.pc + BitVec.ofNat 64 n.toNat) u ∧ u.mem = s.mem) := by
  have he := exec_helper hr (.sc dbl d a b) n
  rw [Work.step_sc, atomic_data _ _ _ _ _ h hd] at he
  refine ⟨_, he, congrArg Helper.reserved (Work.hNow_reserve ..), ?_⟩
  by_cases ok : s.work.hNow.reserved = some ((s.work.hx a).toNat, Work.wideOr dbl)
  · refine ⟨fun _ => ?_, fun no => absurd ok no⟩
    rw [Work.scAct, if_pos ok, if_pos ok]
    exact ⟨wentOn_reserve hr ((Work.hNow_reserve ..).trans (by rw [Work.hNow_hWrite])), left_byte_write hs rfl (Work.hWrite_base ..)⟩
  · refine ⟨fun yes => absurd yes ok, fun _ => ?_⟩
    rw [Work.scAct, if_neg ok, if_neg ok]
    exact ⟨wentOn_reserve hr (Work.hNow_reserve ..), rfl⟩

end

end Sys2Proof.Machine
end

section
/-! PROOFS. What a helper places, waits for and counts (02_execution R47, 10_streaming R216): reaches, handles, the ingress queues. -/
namespace Sys2Proof.Machine
open Sys2Proof.Claim

/-! ## Tables and fields -/

theorem Tab.get_erase {α : Type} (t : List (Nat × α)) (k : Nat) (d : α) : Tab.get (Tab.erase t k) k d = d := by
  have none : (Tab.erase t k).find? (fun e => e.1 == k) = none :=
    List.find?_eq_none.2 fun e he h => by
      have := List.of_mem_filter he
      simp_all
  rw [Tab.get, none]

/-- The upper bits of a field that reaches the top are zero where the value is below it. -/
theorem field_top_eq_zero {lo len : Nat} (x : BitVec (lo + len)) : field x lo len = 0 ↔ x.toNat < 2 ^ lo := by
  have hx : x.toNat / 2 ^ lo < 2 ^ len := Nat.div_lt_of_lt_mul (by rw [← Nat.pow_add]; exact x.isLt)
  rw [BitVec.toNat_eq, field, BitVec.extractLsb'_toNat, Nat.shiftRight_eq_div_pow, Nat.mod_eq_of_lt hx]
  exact Nat.div_eq_zero_iff_lt (Nat.two_pow_pos lo)

namespace Work

theorem bytes_length (w : Work) (k n : Nat) : (w.bytes k n).length = n := by simp [bytes]

/-! ## Reaches -/

theorem course?_modCourse {w : Work} {p seq : Nat} {c : Course} {f : Course → Course} (h : w.course? p seq = some c) (hf : ∀ c, (f c).seq = c.seq) :
    (w.modCourse p seq f).course? p seq = some (f c) := by
  have same : ((fun c : Course => c.seq == seq) ∘ fun c => if c.seq = seq then f c else c) = fun c => c.seq == seq := by
    funext c
    show ((if c.seq = seq then f c else c).seq == seq) = _
    split
    · rw [hf]
    · rfl
  have hseq : c.seq = seq := by simpa using List.find?_some h
  rw [course?, modCourse, part_modPart_same]
  show List.find? _ (List.map _ _) = _
  rw [List.find?_map, same, ← course?, h]
  simp [hseq]

theorem reach?_modReach {w : Work} {p seq r : Nat} {x : Reach} {f : Reach → Reach} (h : w.reach? p seq r = some x) :
    (w.modReach p seq r f).reach? p seq r = some (f x) := by
  obtain ⟨c, hc, hx⟩ := Option.bind_eq_some_iff.1 h
  rw [reach?, modReach, course?_modCourse (f := fun c => { c with reaches := c.reaches.modify r f }) hc fun _ => rfl]
  simp [hx]

theorem reach?_of_parts {w v : Work} (h : v.parts = w.parts) (p seq r : Nat) : v.reach? p seq r = w.reach? p seq r := by
  rw [reach?, reach?, course?, course?, part, part, h]

/-! ## Handles -/

theorem handle_setHandle (w : Work) (n : Nat) (r : HandleRec) : (w.setHandle n r).handle n = r := by
  unfold setHandle handle
  dsimp only
  split
  · rename_i h
    rw [Tab.get_erase, h]
  · exact Tab.get_set_same ..

theorem handle_leaveHandle (w : Work) (n : Nat) : (w.leaveHandle n).handle n =
    if (w.handle n).waiters = 0 then w.handle n else { w.handle n with waiters := (w.handle n).waiters - 1 } := by
  unfold leaveHandle
  dsimp only
  split
  · rfl
  · exact handle_setHandle ..

/-! ## Ingress queues -/

theorem queues_enqueue (w : Work) (k : Nat) (e : Entry) {q : Nat} (hk : k < 8) (hq : q < 8) :
    nth ((w.enqueue w.focus.core k e).here.queues) q = nth w.here.queues q ++ if q = k then [e] else [] := by
  have core : (w.enqueue w.focus.core k e).here = { w.here with queues := setNth w.here.queues k (nth w.here.queues k ++ [e]) } := core_modCore_same ..
  rw [core]
  split
  · rename_i h
    rw [h]
    exact nth_setNth_same ..
  · rename_i h
    rw [List.append_nil]
    refine nth_setNth_other _ _ fun e => h ?_
    rw [Nat.mod_eq_of_lt hk, Nat.mod_eq_of_lt hq] at e
    exact e.symm

theorem enqueue_hNow (w : Work) (k : Nat) (e : Entry) : (w.enqueue w.focus.core k e).hNow = w.hNow := by
  have core : (w.enqueue w.focus.core k e).here = { w.here with queues := setNth w.here.queues k (nth w.here.queues k ++ [e]) } := core_modCore_same ..
  show (if w.focus.outfall then (w.enqueue w.focus.core k e).here.outfall else (w.enqueue w.focus.core k e).here.intake) = _
  rw [core]
  rfl

/-- One entry placed on each of several queues of the core. -/
theorem queues_enqueue_all (e : Entry) {n q : Nat} (hq : q < 8) : ∀ (qs : List Nat) (w : Work), w.focus.core = n → qs.Nodup → (∀ k ∈ qs, k < 8) →
    let v := qs.foldl (fun w k => w.enqueue n k e) w
    v.hNow = w.hNow ∧ v.log = w.log ∧ nth v.here.queues q = nth w.here.queues q ++ if q ∈ qs then [e] else []
  | [], w, _, _, _ => ⟨rfl, rfl, (List.append_nil _).symm⟩
  | k :: qs, w, hn, nd, lt => by
    obtain ⟨hk, nd⟩ := List.nodup_cons.1 nd
    obtain ⟨hnow, hl, hqs⟩ := queues_enqueue_all e hq qs (w.enqueue n k e) hn nd fun j hj => lt j (.tail _ hj)
    subst hn
    refine ⟨hnow.trans (w.enqueue_hNow k e), hl, hqs.trans ?_⟩
    rw [queues_enqueue w k e (lt k (.head _)) hq, List.append_assoc]
    by_cases h : q = k
    · rw [if_pos h, h, if_neg hk, if_pos (.head _)]
      rfl
    · rw [if_neg h]
      simp [h]

/-- A marker on each queue that the mask names. -/
theorem placeMarker_spec (w : Work) (m : Word) (who : Issuer) {q : Nat} (hq : q < 8) : let v := w.placeMarker w.focus.core m.toNat who
    v.hNow = w.hNow ∧ v.log = w.log ∧ nth v.here.queues q = nth w.here.queues q ++ if m.getLsbD q then
      [{ kind := .marker w.markerNext m.toNat, cw := 0, who := who, started := false, desc := none, units := 0, page := .none, hold := [], net := none }]
      else [] := by
  have named : q ∈ ((List.range 8).filter fun q => m.toNat / 2 ^ q % 2 == 1) ↔ m.getLsbD q = true := by
    rw [List.mem_filter, List.mem_range, BitVec.getLsbD, Nat.testBit_eq_decide_div_mod_eq, decide_eq_true_iff, beq_iff_eq]
    exact and_iff_right hq
  obtain ⟨hn, hl, hqs⟩ := queues_enqueue_all
    { kind := .marker w.markerNext m.toNat, cw := 0, who := who, started := false, desc := none, units := 0, page := .none, hold := [], net := none } hq
    ((List.range 8).filter fun q => m.toNat / 2 ^ q % 2 == 1) { w with markerNext := w.markerNext + 1 } rfl (List.nodup_range.filter _)
    fun k hk => List.mem_range.1 (List.mem_of_mem_filter hk)
  refine ⟨hn, hl, hqs.trans ?_⟩
  congr 1
  exact if_congr named rfl rfl

end Work
end Sys2Proof.Machine
end

section
/-! PROOFS. AUXFAULT and the ix instructions of a helper core (02_execution R47, 10_streaming R216, 23_ref R424, R425), and the settling of what is stated
of the helper cores. -/
namespace Sys2Proof.Machine
open Sys2Proof.Claim

/-! ## AUXFAULT -/

/-- Those that may hear of a helper's fault, the first of them does: the unended rills of the braid on the core, then all of the braid. -/
def Inst.hearers (i : Inst) (core : Nat) : List Rill :=
  ((i.rills.filter fun x => !x.ended).filter fun x => x.core == core) ++ i.rills.filter fun x => !x.ended

namespace Work

/-- The fault is counted, and gone from the helper. -/
def auxCounted (w : Work) (i : Inst) : Work := (w.countInstFault i.id 6 4).modH fun h => { h with fault := none }

theorem auxCounted_hNow (w : Work) (i : Inst) : (w.auxCounted i).hNow.fault = none := congrArg Helper.fault (hNow_modH ..)

theorem countInstFault_beside (w : Work) (id src code : Nat) :
    (w.countInstFault id src code).cores = w.cores ∧ (w.countInstFault id src code).focus = w.focus ∧ (w.countInstFault id src code).log = w.log := by
  unfold countInstFault
  split <;> exact ⟨rfl, rfl, rfl⟩

theorem ctx_modHelper (w : Work) (m : Nat) (o : Bool) (f : Helper → Helper) (n k : Nat) : (w.modHelper m o f).ctx n k = w.ctx n k :=
  ctx_modCore _ _ (fun c => by split <;> rfl) n k

theorem auxCounted_ctx (w : Work) (i : Inst) (n k : Nat) : (w.auxCounted i).ctx n k = w.ctx n k :=
  (ctx_modHelper ..).trans (ctx_of_cores (w.countInstFault_beside i.id 6 4).1 n k)

theorem auxCounted_reach (w : Work) {i : Inst} {x : Reach} (hi : w.inst? i.id = some i) (hx : w.reach? i.part i.course i.reach = some x) :
    ∃ y, (w.auxCounted i).reach? i.part i.course i.reach = some y ∧ y.counts.nfault = x.counts.nfault + 1 := by
  have counted : w.countInstFault i.id 6 4 = w.countFault i.part i.course i.reach 6 4 := by rw [countInstFault, hi]
  have parts : (w.auxCounted i).parts = (w.countFault i.part i.course i.reach 6 4).parts := congrArg (fun w => w.toChip.parts) counted
  refine ⟨_, (reach?_of_parts parts _ _ _).trans (reach?_modReach hx), ?_⟩
  dsimp only
  split
  · rename_i h
    rw [h]
  · rfl

/-- The rill that hears holds the event, if its context is still the instance's. -/
def auxHeld (w : Work) (i : Inst) (a b c : Word) : Work :=
  match i.hearers w.focus.core with
  | r :: _ => w.modCtx r.core r.ctx fun x => if x.inst = i.id then { x with held := x.held ++ [.aux w.focus.outfall a b c] } else x
  | [] => w

theorem auxHeld_ctx (w : Work) (i : Inst) (a b c : Word) (k n : Nat) : (w.auxHeld i a b c).ctx k n =
    if ∃ x, (i.hearers w.focus.core).head? = some x ∧ x.core = k ∧ x.ctx % 4 = n % 4 ∧ (w.ctx k n).inst = i.id
    then { w.ctx k n with held := (w.ctx k n).held ++ [.aux w.focus.outfall a b c] } else w.ctx k n := by
  unfold auxHeld
  cases i.hearers w.focus.core with
  | nil => simp
  | cons r rs =>
    dsimp only
    rw [ctx_modCtx]
    by_cases h : r.core = k ∧ r.ctx % 4 = n % 4
    · simp [h]
    · rw [if_neg h, if_neg]
      rintro ⟨x, hx, hc, hn, -⟩
      cases hx
      exact h ⟨hc, hn⟩

theorem helper_modCtx (w : Work) (n i : Nat) (f : Ctx → Ctx) (m : Nat) (o : Bool) : (w.modCtx n i f).helper m o = w.helper m o := by
  rw [helper, helper, modCtx]
  by_cases h : m = n
  · rw [h, core_modCore_same]
  · rw [core_modCore_other _ _ h]

theorem auxHeld_beside (w : Work) (i : Inst) (a b c : Word) :
    (w.auxHeld i a b c).hNow = w.hNow ∧ (w.auxHeld i a b c).parts = w.parts ∧ (w.auxHeld i a b c).log = w.log := by
  unfold auxHeld
  split
  · exact ⟨helper_modCtx .., rfl, rfl⟩
  · exact ⟨rfl, rfl, rfl⟩

end Work

theorem exec_auxfault {s : State} {i : Inst} {a b c : Word} (hi : s.work.inst? s.work.hNow.inst = some i) (hf : s.work.hNow.fault = some (a, b, c)) :
    exec .auxfault s = .next (left s ((s.work.auxCounted i).auxHeld i a b c)) := by
  refine congrArg Host.Outcome.next (lift_congr (g := fun _ => (s.work.auxCounted i).auxHeld i a b c) ?_)
  dsimp only
  rw [hi, hf]
  rfl

/-! ## Entries that a helper places -/

/-- A helper's entry of a queue. -/
def helperEntry (who : Issuer) (kind : EntryKind) (cw : Word) : Entry :=
  { kind := kind, cw := cw, who := who, started := false, desc := none, units := 0, page := .none, hold := [], net := none }

/-- The instruction waits for its queue, or places its entry and answers 0. -/
def Queued (s : State) (i : Instr) (d : BitVec 5) (q : Nat) (kind : EntryKind) (cw : Word) : Prop :=
  (s.work.queueFull s.focus.core q = true → exec i s = .next s) ∧
  (s.work.queueFull s.focus.core q = false → ∃ u, exec i s = .next u ∧ WentOn s (putReg s d 0) (s.work.hNow.pc + 4) u ∧ u.mem = s.mem ∧
    nth u.work.here.queues q = nth s.work.here.queues q ++ [helperEntry s.work.helperWho kind cw])

theorem Work.here_queues_modH (w : Work) (f : Helper → Helper) : (w.modH f).here.queues = w.here.queues := by
  have core : (w.modH f).here = if w.focus.outfall then { w.here with outfall := f w.here.outfall } else { w.here with intake := f w.here.intake } :=
    core_modCore_same ..
  rw [core]
  split <;> rfl

theorem Work.here_queues_hNext (w : Work) (len : Nat) : (w.hNext len).here.queues = w.here.queues := here_queues_modH ..

theorem Work.here_queues_set (w : Work) (d : BitVec 5) (v : Word) (len : Nat) : ((w.setHx d v).hNext len).here.queues = w.here.queues :=
  (here_queues_modH ..).trans (here_queues_modH ..)

/-- What ix.cpy does with the descriptor it reads. -/
def ixCpyAct (s : State) (r d : BitVec 5) (w : Work) (bs : List Byte) : Work :=
  if field (s.work.hx r) 2 62 ≠ 0#62 ∨ (CopyDesc.cwaddr (lineOf bs)).toNat % 8 ≠ 0 then (w.setHx d 1).hNext 4
  else w.hEnqueue ((s.work.hx r).toNat % 4) (.ixCopy (lineOf bs)) (CopyDesc.cwaddr (lineOf bs)) d

/-- What ix.hreq does with the words it reads. -/
def ixHreqDo (s : State) (r d : BitVec 5) (w : Work) (ext dest ctl : Word) : Work :=
  if HandleRec.requestBad (w.part w.helperWho.part) (s.work.hx r) ext dest ctl then (w.setHx d 1).hNext 4
  else w.hEnqueue 5 (.hreq (s.work.hx r) ext dest ctl) 0 d

def ixHreqAct (s : State) (r d : BitVec 5) (w : Work) (bs : List Byte) : Work :=
  ixHreqDo s r d w (wordOf (bs.take 8)) (wordOf (bs.drop 8 |>.take 8)) (wordOf (bs.drop 16))

theorem left_self (s : State) : left s s.work = s := rfl

section
variable {s : State} (hr : s.work.hNow.st = .running) {i : Instr} (t r d : BitVec 5)
include hr

theorem queued_of_exec {q : Nat} {kind : EntryKind} {cw : Word} (hq : q < 8) (he : exec i s = .next (left s (s.work.hEnqueue q kind cw d))) :
    Queued s i d q kind cw := by
  rw [Work.hEnqueue] at he
  constructor
  · intro full
    have full : s.work.queueFull s.work.focus.core q = true := full
    rw [if_pos full] at he
    exact he.trans (congrArg _ (left_self s))
  · intro free
    have hn : ¬s.work.queueFull s.work.focus.core q = true := by rw [show s.work.queueFull s.work.focus.core q = false from free]; decide
    rw [if_neg hn] at he
    refine ⟨_, he, wentOn_put hr ((Work.hNow_set ..).trans (by rw [Work.enqueue_hNow]; rfl)), rfl, ?_⟩
    have placed := s.work.queues_enqueue q (helperEntry s.work.helperWho kind cw) hq hq
    rw [if_pos rfl] at placed
    exact (congrArg (nth · q) (Work.here_queues_set ..)).trans placed

/-- One that answers at once and goes on. -/
theorem does_answer {v : Word} (he : exec i s = .next (left s ((s.work.setHx d v).hNext 4))) : Does s i (putReg s d v) (s.work.hNow.pc + 4) := does_set hr he

omit hr in
theorem operand_misaligned (w : Work) (a : Word) (n : Nat) (f : Work → List Byte → Work) (h : a.toNat % 8 ≠ 0) : w.hOperand a n f = w.hFault 4 a := if_pos h

omit hr in
theorem operand_outside (w : Work) (a : Word) (n : Nat) (f : Work → List Byte → Work) (h : a.toNat % 8 = 0) (hd : Work.isData a n = false) :
    w.hOperand a n f = w.hFault 5 a := (if_neg (not_not.2 h)).trans (if_pos (by rw [hd]; rfl))

omit hr in
theorem operand_data (w : Work) (a : Word) (n : Nat) (f : Work → List Byte → Work) (h : a.toNat % 8 = 0) (hd : Work.isData a n = true) :
    w.hOperand a n f = f w (w.bytes (w.hKey a) n) := (if_neg (not_not.2 h)).trans (if_neg (by rw [hd]; decide))

theorem exec_ixCpy : exec (.ixCpy t r d) s = .next (left s (s.work.hOperand (s.work.hx t) 128 (ixCpyAct s r d))) :=
  congrArg Host.Outcome.next (lift_onHelper hr _)

theorem exec_ixHreq : exec (.ixHreq t r d) s = .next (left s (s.work.hOperand (s.work.hx t) 24 (ixHreqAct s r d))) :=
  congrArg Host.Outcome.next (lift_onHelper hr _)

theorem ix_misaligned (h : (s.work.hx t).toNat % 8 ≠ 0) : Faults s (.ixCpy t r d) 4 (s.work.hx t) ∧ Faults s (.ixHreq t r d) 4 (s.work.hx t) := by
  constructor
  · rw [Faults, exec_ixCpy hr, operand_misaligned _ _ _ _ h]
    rfl
  · rw [Faults, exec_ixHreq hr, operand_misaligned _ _ _ _ h]
    rfl

section
variable (h : (s.work.hx t).toNat % 8 = 0)
include h

theorem cpy_outside (hd : Work.isData (s.work.hx t) 128 = false) : Faults s (.ixCpy t r d) 5 (s.work.hx t) := by
  rw [Faults, exec_ixCpy hr, operand_outside _ _ _ _ h hd]
  rfl

theorem hreq_outside (hd : Work.isData (s.work.hx t) 24 = false) : Faults s (.ixHreq t r d) 5 (s.work.hx t) := by
  rw [Faults, exec_ixHreq hr, operand_outside _ _ _ _ h hd]
  rfl

/-- ix.cpy with its descriptor in private data: refused with 1, or queued. -/
theorem cpy_data (hd : Work.isData (s.work.hx t) 128 = true) :
    let desc := lineOf (s.work.bytes (s.work.hKey (s.work.hx t)) 128)
    (4 ≤ (s.work.hx r).toNat ∨ (CopyDesc.cwaddr desc).toNat % 8 ≠ 0 → Does s (.ixCpy t r d) (putReg s d 1) (s.work.hNow.pc + 4)) ∧
      ((s.work.hx r).toNat < 4 → (CopyDesc.cwaddr desc).toNat % 8 = 0 →
        Queued s (.ixCpy t r d) d (s.work.hx r).toNat (.ixCopy desc) (CopyDesc.cwaddr desc)) := by
  intro desc
  have he := exec_ixCpy hr t r d
  rw [operand_data _ _ _ _ h hd, ixCpyAct] at he
  have small : field (s.work.hx r) 2 62 = 0#62 ↔ (s.work.hx r).toNat < 4 := field_top_eq_zero (lo := 2) (len := 62) (s.work.hx r)
  constructor
  · intro bad
    rw [if_pos (bad.imp_left fun h4 h0 => absurd (small.1 h0) (not_lt.2 h4))] at he
    exact does_answer hr d he
  · intro h4 h8
    rw [if_neg (not_or.2 ⟨not_not.2 (small.2 h4), not_not.2 h8⟩), Nat.mod_eq_of_lt h4] at he
    exact queued_of_exec hr d (by omega) he

/-- ix.hreq with its words in private data: refused with 1, or queued. -/
theorem hreq_data (hd : Work.isData (s.work.hx t) 24 = true) :
    let arg (k : Nat) : Word := wordOf (((s.work.bytes (s.work.hKey (s.work.hx t)) 24).drop (8 * k)).take 8)
    (HandleRec.requestBad (s.work.part s.work.helperWho.part) (s.work.hx r) (arg 0) (arg 1) (arg 2) = true →
        Does s (.ixHreq t r d) (putReg s d 1) (s.work.hNow.pc + 4)) ∧
      (¬HandleRec.requestBad (s.work.part s.work.helperWho.part) (s.work.hx r) (arg 0) (arg 1) (arg 2) = true →
        Queued s (.ixHreq t r d) d 5 (.hreq (s.work.hx r) (arg 0) (arg 1) (arg 2)) 0) := by
  intro arg
  have he := exec_ixHreq hr t r d
  have last : (s.work.bytes (s.work.hKey (s.work.hx t)) 24).drop 16 = ((s.work.bytes (s.work.hKey (s.work.hx t)) 24).drop (8 * 2)).take 8 :=
    (List.take_of_length_le (by rw [List.length_drop, Work.bytes_length])).symm
  rw [operand_data _ _ _ _ h hd, ixHreqAct, last] at he
  have he : exec (.ixHreq t r d) s = .next (left s (ixHreqDo s r d s.work (arg 0) (arg 1) (arg 2))) := he
  rw [ixHreqDo] at he
  constructor
  · intro hb
    rw [if_pos hb] at he
    exact does_answer hr d he
  · intro hb
    rw [if_neg hb] at he
    exact queued_of_exec hr d (by decide) he

end

/-! ## ix.hwait -/

theorem exec_ixHwait_found {v : Word} (h : s.work.hNow.found = some v) :
    exec (.ixHwait t r d) s = .next (left s (((s.work.modH fun h => { h with found := none }).setHx d v).hNext 4)) := by
  refine congrArg Host.Outcome.next ((lift_onHelper hr _).trans (congrArg (left s) ?_))
  dsimp only
  rw [h]

theorem hwait_found {v : Word} (h : s.work.hNow.found = some v) :
    Does s (.ixHwait t r d) (putReg s d v) (s.work.hNow.pc + 4) ∧ ∀ u, exec (.ixHwait t r d) s = .next u → u.work.hNow.found = none := by
  have he := exec_ixHwait_found hr t r d h
  have now := (Work.hNow_set (s.work.modH fun h => { h with found := none }) d v 4)
  rw [Work.hNow_modH] at now
  refine ⟨⟨_, he, ?_, rfl⟩, fun u hu => ?_⟩
  · exact wentOn_beside hr (h := { s.work.hNow with found := none }) rfl rfl rfl now
  · rw [he] at hu
    injection hu with hu
    rw [← hu]
    exact congrArg Helper.found now

theorem hwait_waiting (h : s.work.hNow.found = none) (hw : s.work.hNow.waiting.isSome = true) : exec (.ixHwait t r d) s = .next s := by
  obtain ⟨x, hx⟩ := Option.isSome_iff_exists.1 hw
  refine congrArg Host.Outcome.next ((lift_onHelper hr _).trans (congrArg (left s) (a₂ := s.work) ?_))
  dsimp only
  rw [h, hx]

/-- The helper waits for the handle, counted. -/
def Work.hWaits (w : Work) (n : Nat) (m : BitVec 2) : Work :=
  (w.setHandle n { w.handle n with waiters := (w.handle n).waiters + 1 }).modH fun h => { h with waiting := some (n, m) }

/-- ix.hwait of a helper that neither waits nor has found something. -/
def ixHwaitAct (s : State) (t r d : BitVec 5) : Work :=
  let n := s.work.hx r
  let m : BitVec 2 := field (s.work.hx t) 0 2
  if !(s.work.part s.work.helperWho.part).ownsHandle n then s.work.hFault 5 n
  else if (s.work.handle n.toNat).verdict m = .wait then s.work.hWaits n.toNat m
  else (s.work.setHx d (s.work.handle n.toNat).word0).hNext 4

theorem exec_ixHwait (h : s.work.hNow.found = none) (hw : s.work.hNow.waiting = none) :
    exec (.ixHwait t r d) s = .next (left s (ixHwaitAct s t r d)) := by
  refine congrArg Host.Outcome.next ((lift_onHelper hr _).trans (congrArg (left s) ?_))
  dsimp only
  rw [h, hw]
  rfl

/-- ix.hwait of a helper that neither waits nor has found something: a fault, a wait, or the record. -/
theorem hwait_fresh (h : s.work.hNow.found = none) (hw : s.work.hNow.waiting = none) :
    let own := (s.work.part s.work.helperWho.part).ownsHandle (s.work.hx r) = true
    let n := (s.work.hx r).toNat
    let m : BitVec 2 := field (s.work.hx t) 0 2
    (¬own → Faults s (.ixHwait t r d) 5 (s.work.hx r)) ∧
      (own → (s.work.handle n).verdict m = .wait → ∃ u, exec (.ixHwait t r d) s = .next u ∧ u.work.hNow = { s.work.hNow with waiting := some (n, m) } ∧
        u.work.handle n = { s.work.handle n with waiters := (s.work.handle n).waiters + 1 }) ∧
      (own → ¬(s.work.handle n).verdict m = .wait → Does s (.ixHwait t r d) (putReg s d (s.work.handle n).word0) (s.work.hNow.pc + 4)) := by
  intro own n m
  have he := exec_ixHwait hr t r d h hw
  have owned (yes : own) : ¬(!(s.work.part s.work.helperWho.part).ownsHandle (s.work.hx r)) = true := by simpa [own] using yes
  refine ⟨fun no => ?_, fun yes wait => ?_, fun yes go => ?_⟩
  · have act : ixHwaitAct s t r d = s.work.hFault 5 (s.work.hx r) := if_pos (by simpa [own] using no)
    rw [Faults, he, act]
    rfl
  · have act : ixHwaitAct s t r d = s.work.hWaits n m := (if_neg (owned yes)).trans (if_pos wait)
    rw [act] at he
    exact ⟨_, he, (by rw [Work.hWaits, Work.hNow_modH]; rfl : (s.work.hWaits n m).hNow = _), s.work.handle_setHandle n _⟩
  · have act : ixHwaitAct s t r d = (s.work.setHx d (s.work.handle n).word0).hNext 4 := (if_neg (owned yes)).trans (if_neg go)
    rw [act] at he
    exact does_answer hr d he

omit hr in
/-- A helper that waits looks again when the handle has changed (R216). -/
theorem helperLooks_waiting {w : Work} {n : Nat} {m : BitVec 2} (h : w.hNow.waiting = some (n, m)) :
    ((w.handle n).verdict m = .wait → w.helperLooks n w.focus.core w.focus.outfall = w) ∧
    ((w.handle n).verdict m ≠ .wait → let v := w.helperLooks n w.focus.core w.focus.outfall
      v.hNow = { w.hNow with waiting := none, found := some (v.handle n).word0 } ∧
      v.handle n = if (w.handle n).waiters = 0 then w.handle n else { w.handle n with waiters := (w.handle n).waiters - 1 }) := by
  have h : (w.helper w.focus.core w.focus.outfall).waiting = some (n, m) := h
  unfold Work.helperLooks
  rw [h]
  dsimp only
  constructor
  · intro wait
    rw [if_pos (.inr wait)]
  · intro go
    rw [if_neg (not_or.2 ⟨not_not.2 rfl, go⟩)]
    obtain ⟨hc, hf, -⟩ := w.leaveHandle_beside n
    refine ⟨?_, w.handle_leaveHandle n⟩
    have now := Work.hNow_modH (w.leaveHandle n) fun x => { x with waiting := none, found := some ((w.leaveHandle n).handle n).word0 }
    rw [Work.modH, hf, Work.hNow_of_cores hc hf] at now
    exact now

end

end Sys2Proof.Machine
end

section
/-! PROOFS. ix.qfence and the flume instructions of a helper core (23_ref R424, R425), and the settling of what is stated of the helper cores. -/
namespace Sys2Proof.Machine
open Sys2Proof.Claim

section
variable {s : State} (hr : s.work.hNow.st = .running) (t r d : BitVec 5)
include hr

/-! ## ix.qfence -/

/-- The markers that ix.qfence places. -/
def qfencePlaced (s : State) (r : BitVec 5) : Work :=
  if s.work.hx r = 0 then s.work else s.work.placeMarker s.work.focus.core (s.work.hx r).toNat s.work.helperWho

/-- ix.qfence of a helper that runs. -/
def ixQfenceAct (s : State) (r : BitVec 5) : Work :=
  if field (s.work.hx r) 8 56 ≠ 0#56 then s.work.hIllegal 4
  else if (List.range 8).any fun q => (s.work.hx r).getLsbD q && s.work.queueFull s.work.focus.core q then s.work
  else (qfencePlaced s r).hNext 4

theorem exec_ixQfence : exec (.ixQfence t r d) s = .next (left s (ixQfenceAct s r)) := congrArg Host.Outcome.next (lift_onHelper hr _)

omit hr in
theorem qfencePlaced_spec {q : Nat} (hq : q < 8) : (qfencePlaced s r).hNow = s.work.hNow ∧ (qfencePlaced s r).log = [] ∧
    nth (qfencePlaced s r).here.queues q = nth s.work.here.queues q ++ if (s.work.hx r).getLsbD q then
      [{ kind := .marker s.markerNext (s.work.hx r).toNat, cw := 0, who := s.work.helperWho, started := false, desc := none, units := 0, page := .none,
         hold := [], net := none }] else [] := by
  unfold qfencePlaced
  split
  · rename_i h
    refine ⟨rfl, rfl, ?_⟩
    rw [h]
    simp
  · exact s.work.placeMarker_spec (s.work.hx r) s.work.helperWho hq

omit hr in
theorem any_full_iff : ((List.range 8).any fun q => (s.work.hx r).getLsbD q && s.work.queueFull s.work.focus.core q) = true ↔
    ∃ q, q < 8 ∧ (s.work.hx r).getLsbD q = true ∧ s.work.queueFull s.work.focus.core q = true := by
  simp only [List.any_eq_true, List.mem_range, Bool.and_eq_true]

theorem qfence_cases :
    let m := s.work.hx r
    let full := ∃ q, q < 8 ∧ m.getLsbD q = true ∧ s.work.queueFull s.focus.core q = true
    (256 ≤ m.toNat → Faults s (.ixQfence t r d) 2 (s.work.hWord 4)) ∧ (m.toNat < 256 → full → exec (.ixQfence t r d) s = .next s) ∧
    (m.toNat < 256 → ¬full → Does s (.ixQfence t r d) s.work.hx (s.work.hNow.pc + 4) ∧ ∀ u, exec (.ixQfence t r d) s = .next u → ∀ q, q < 8 →
      nth u.work.here.queues q = nth s.work.here.queues q ++ if m.getLsbD q then
        [{ kind := .marker s.markerNext m.toNat, cw := 0, who := s.work.helperWho, started := false, desc := none, units := 0, page := .none, hold := [],
           net := none }] else []) := by
  intro m full
  have small : field (s.work.hx r) 8 56 = 0#56 ↔ m.toNat < 256 := field_top_eq_zero (lo := 8) (len := 56) (s.work.hx r)
  have he := exec_ixQfence hr t r d
  refine ⟨fun big => ?_, fun h hf => ?_, fun h hf => ?_⟩
  · have act : ixQfenceAct s r = s.work.hIllegal 4 := if_pos fun h0 => absurd (small.1 h0) (not_lt.2 big)
    rw [Faults, he, act]
    rfl
  · have act : ixQfenceAct s r = s.work := (if_neg (not_not.2 (small.2 h))).trans (if_pos ((any_full_iff r).2 hf))
    rw [he, act, left_self]
  · have act : ixQfenceAct s r = (qfencePlaced s r).hNext 4 :=
      (if_neg (not_not.2 (small.2 h))).trans (if_neg fun any => hf ((any_full_iff r).1 any))
    rw [act] at he
    obtain ⟨hn, hl, -⟩ := qfencePlaced_spec (s := s) r (q := 0) (by decide)
    refine ⟨does_past hr he hl (by rw [Work.hNow_hNext, hn]; rfl), fun u hu q hq => ?_⟩
    rw [he] at hu
    injection hu with hu
    rw [← hu]
    obtain ⟨-, -, hqs⟩ := qfencePlaced_spec (s := s) r hq
    have queues : (left s ((qfencePlaced s r).hNext 4)).work.here.queues = (qfencePlaced s r).here.queues := Work.here_queues_hNext ..
    rw [queues]
    exact hqs

end

/-! ## Flumes -/

section
variable {w v : Work} {d : BitVec 5} {m : Issuer → Acc (Option Word)}

theorem hFlume_some {a : Word} (h : m w.helperWho w = (.ok (some a), v)) : w.hFlume m d = (v.setHx d a).hNext 4 := by rw [Work.hFlume, h]

theorem hFlume_none (h : m w.helperWho w = (.ok none, v)) : w.hFlume m d = v := by rw [Work.hFlume, h]

theorem hFlume_error {b : Bad} (h : m w.helperWho w = (.error b, v)) : w.hFlume m d = v.hFault 5 b.trap.addr := by rw [Work.hFlume, h]

end

theorem unitPlace_aligned {who : Issuer} {a : Word} {kind : Access} (h : a.toNat % 128 = 0) : unitPlace who a kind = place who false .cluster a kind := by
  funext w
  rw [unitPlace, act_ite, if_neg (not_not.2 h)]

theorem unitPlace_misaligned {who : Issuer} {a : Word} {kind : Access} (h : a.toNat % 128 ≠ 0) (w : Work) :
    unitPlace who a kind w = (.error (.access a), w) := by
  simp [unitPlace, h]

theorem checkUnits_ok {addr : Word} {k n : Nat} {w : Work} (h : w.badUnit k n = none) : checkUnits addr k n w = (.ok (), w) := by rw [checkUnits, h]

/-- ix.flget as an access. -/
def flgetAcc (fa ua : Word) (who : Issuer) : Acc (Option Word) := do
  let f ← flumeAt who fa
  let pl ← unitPlace who ua .write
  if f.count = 0 then return none
  checkUnits fa (f.entry f.takes) 128
  let w ← get
  writePlace who true pl ua (w.bytes (f.entry f.takes) 128)
  modify fun w => w.flumeTake f 1
  return some 0

/-- ix.flput as an access. -/
def flputAcc (fa ua : Word) (who : Issuer) : Acc (Option Word) := do
  let f ← flumeAt who fa
  let pl ← unitPlace who ua .read
  if f.count = f.size then return none
  let bs ← readPlace who true pl ua 128
  modify fun w => (w.raiseS who.part f.line 1).flumePut f bs
  return some 0

/-- ix.flwait as an access. -/
def flwaitAcc (fa : Word) (n : Nat) (who : Issuer) : Acc (Option Word) := do
  let f ← flumeAt who fa
  if f.size < n then throw (.access fa)
  return if f.count < n then none else some (BitVec.ofNat 64 f.count)

/-- ix.fldrop as an access. -/
def fldropAcc (fa : Word) (n : Nat) (who : Issuer) : Acc (Option Word) := do
  let f ← flumeAt who fa
  let k := min n f.count
  modify fun w => (w.raiseS who.part f.line 1).flumeTake f k
  return some (BitVec.ofNat 64 k)

section
variable {who : Issuer} {fa ua : Word} {n : Nat} {w w1 : Work}

theorem flumeAcc_error {b : Bad} (h : flumeAt who fa w = (.error b, w1)) : flgetAcc fa ua who w = (.error b, w1) ∧ flputAcc fa ua who w = (.error b, w1) ∧
    flwaitAcc fa n who w = (.error b, w1) ∧ fldropAcc fa n who w = (.error b, w1) := by
  refine ⟨?_, ?_, ?_, ?_⟩
  · rw [flgetAcc, act_bind, h]
  · rw [flputAcc, act_bind, h]
  · rw [flwaitAcc, act_bind, h]
  · rw [fldropAcc, act_bind, h]

variable {f : Flume} (h : flumeAt who fa w = (.ok f, w1))
include h

theorem flwaitAcc_beyond (hn : f.size < n) : flwaitAcc fa n who w = (.error (.access fa), w1) := by
  simp [flwaitAcc, h, hn]

theorem flwaitAcc_within (hn : n ≤ f.size) : flwaitAcc fa n who w = (.ok (if f.count < n then none else some (BitVec.ofNat 64 f.count)), w1) := by
  simp [flwaitAcc, h, Nat.not_lt.2 hn]

theorem fldropAcc_eq : fldropAcc fa n who w = (.ok (some (BitVec.ofNat 64 (min n f.count))), (w1.raiseS who.part f.line 1).flumeTake f (min n f.count)) := by
  rw [fldropAcc, act_bind, h]
  rfl

theorem unitAcc_misaligned (hu : ua.toNat % 128 ≠ 0) :
    flgetAcc fa ua who w = (.error (.access ua), w1) ∧ flputAcc fa ua who w = (.error (.access ua), w1) := by
  constructor
  · simp [flgetAcc, h, unitPlace_misaligned hu]
  · simp [flputAcc, h, unitPlace_misaligned hu]

variable {pl : Place} {w2 : Work}

theorem flgetAcc_empty (hu : ua.toNat % 128 = 0) (hp : place who false .cluster ua .write w1 = (.ok pl, w2)) (hc : f.count = 0) :
    flgetAcc fa ua who w = (.ok none, w2) := by
  simp [flgetAcc, h, unitPlace_aligned hu, hp, hc]

theorem flgetAcc_takes {w3 : Work} (hu : ua.toNat % 128 = 0) (hp : place who false .cluster ua .write w1 = (.ok pl, w2)) (hc : f.count ≠ 0)
    (hb : w2.badUnit (f.entry f.takes) 128 = none) (hw : writePlace who true pl ua (w2.bytes (f.entry f.takes) 128) w2 = (.ok (), w3)) :
    flgetAcc fa ua who w = (.ok (some 0), w3.flumeTake f 1) := by
  simp [flgetAcc, h, unitPlace_aligned hu, hp, hc, checkUnits_ok hb, hw]

theorem flputAcc_full (hu : ua.toNat % 128 = 0) (hp : place who false .cluster ua .read w1 = (.ok pl, w2)) (hc : f.count = f.size) :
    flputAcc fa ua who w = (.ok none, w2) := by
  simp [flputAcc, h, unitPlace_aligned hu, hp, hc]

theorem flputAcc_puts {bs : List Byte} {w3 : Work} (hu : ua.toNat % 128 = 0) (hp : place who false .cluster ua .read w1 = (.ok pl, w2))
    (hc : f.count ≠ f.size) (hr : readPlace who true pl ua 128 w2 = (.ok bs, w3)) :
    flputAcc fa ua who w = (.ok (some 0), (w3.raiseS who.part f.line 1).flumePut f bs) := by
  simp [flputAcc, h, unitPlace_aligned hu, hp, hc, hr]

end

section
variable {s : State} (hr : s.work.hNow.st = .running) (t r d : BitVec 5)
include hr

theorem exec_ixFlget : exec (.ixFlget t r d) s = .next (left s (s.work.hFlume (flgetAcc (s.work.hx r) (s.work.hx t)) d)) :=
  congrArg Host.Outcome.next (lift_onHelper hr _)
theorem exec_ixFlput : exec (.ixFlput t r d) s = .next (left s (s.work.hFlume (flputAcc (s.work.hx r) (s.work.hx t)) d)) :=
  congrArg Host.Outcome.next (lift_onHelper hr _)
theorem exec_ixFlwait : exec (.ixFlwait t r d) s = .next (left s (s.work.hFlume (flwaitAcc (s.work.hx r) (s.work.hx t).toNat) d)) :=
  congrArg Host.Outcome.next (lift_onHelper hr _)
theorem exec_ixFldrop : exec (.ixFldrop t r d) s = .next (left s (s.work.hFlume (fldropAcc (s.work.hx r) (s.work.hx t).toNat) d)) :=
  congrArg Host.Outcome.next (lift_onHelper hr _)

theorem flume_failed {b : Bad} {w1 : Work} (h : flumeAt s.work.helperWho (s.work.hx r) s.work = (.error b, w1)) (i : Instr)
    (hi : i = .ixFlget t r d ∨ i = .ixFlput t r d ∨ i = .ixFlwait t r d ∨ i = .ixFldrop t r d) : exec i s = .next (left s (w1.hFault 5 b.trap.addr)) := by
  obtain ⟨hget, hput, hwait, hdrop⟩ := flumeAcc_error (ua := s.work.hx t) (n := (s.work.hx t).toNat) h
  rcases hi with rfl | rfl | rfl | rfl
  · rw [exec_ixFlget hr, hFlume_error hget]
  · rw [exec_ixFlput hr, hFlume_error hput]
  · rw [exec_ixFlwait hr, hFlume_error hwait]
  · rw [exec_ixFldrop hr, hFlume_error hdrop]

theorem flume_waits {f : Flume} {w1 : Work} (h : flumeAt s.work.helperWho (s.work.hx r) s.work = (.ok f, w1)) (hn : (s.work.hx t).toNat ≤ f.size) :
    exec (.ixFlwait t r d) s = if f.count < (s.work.hx t).toNat then .next (left s w1) else .next (left s ((w1.setHx d (BitVec.ofNat 64 f.count)).hNext 4)) := by
  have acc := flwaitAcc_within h hn
  rw [exec_ixFlwait hr]
  split
  · rename_i hc
    rw [if_pos hc] at acc
    rw [hFlume_none acc]
  · rename_i hc
    rw [if_neg hc] at acc
    rw [hFlume_some acc]

end

/-! ## What is stated of the helper cores -/

theorem exec_idle {s : State} (h : s.work.hNow.st ≠ .running) (t r d : BitVec 5) :
    (∀ op n, exec (.helperInstruction op n) s = .next s) ∧ exec .ecall s = .next s ∧ exec .ebreak s = .next s ∧
      exec (.ixCpy t r d) s = .next s ∧ exec (.ixHreq t r d) s = .next s ∧ exec (.ixHwait t r d) s = .next s ∧ exec (.ixQfence t r d) s = .next s ∧
      exec (.ixFlget t r d) s = .next s ∧ exec (.ixFlput t r d) s = .next s ∧ exec (.ixFlwait t r d) s = .next s ∧ exec (.ixFldrop t r d) s = .next s := by
  have idle (f : Work → Work) : run (fun w => w.onHelper f) s = .next s := congrArg Host.Outcome.next (lift_onHelper_idle h f)
  exact ⟨fun _ _ => idle _, idle _, idle _, idle _, idle _, idle _, idle _, idle _, idle _, idle _, idle _⟩

theorem exec_ecall {s : State} (hr : s.work.hNow.st = .running) :
    ∃ u, exec .ecall s = .next u ∧ u.work.hNow = { s.work.hNow with st := .ended } ∧ u.mem = s.mem :=
  ⟨_, congrArg Host.Outcome.next (lift_onHelper hr _), Work.hNow_modH s.work fun h => { h with st := .ended }, rfl⟩

theorem faults_ebreak {s : State} (hr : s.work.hNow.st = .running) : Faults s .ebreak 3 s.work.hNow.pc := congrArg Host.Outcome.next (lift_onHelper hr _)

theorem auxfault_spec {s : State} {i : Inst} {a b c : Word} (hi : s.work.inst? s.work.hNow.inst = some i) (hf : s.work.hNow.fault = some (a, b, c)) :
    ∃ u, exec .auxfault s = .next u ∧ u.mem = s.mem ∧ u.work.hNow.fault = none ∧
      (∀ x, s.work.reach? i.part i.course i.reach = some x → ∃ y, u.work.reach? i.part i.course i.reach = some y ∧ y.counts.nfault = x.counts.nfault + 1) ∧
      ∀ k n, u.work.ctx k n = if ∃ x, (i.hearers s.focus.core).head? = some x ∧ x.core = k ∧ x.ctx % 4 = n % 4 ∧ (s.work.ctx k n).inst = i.id
        then { s.work.ctx k n with held := (s.work.ctx k n).held ++ [.aux s.focus.outfall a b c] } else s.work.ctx k n := by
  have hid : s.work.inst? i.id = some i := by rw [Work.id_of_inst? hi, hi]
  obtain ⟨hn, hp, hl⟩ := (s.work.auxCounted i).auxHeld_beside i a b c
  obtain ⟨-, hfocus, hlog⟩ := s.work.countInstFault_beside i.id 6 4
  refine ⟨_, exec_auxfault hi hf, congrArg (applyLog s.mem) (hl.trans hlog), (congrArg Helper.fault hn).trans (s.work.auxCounted_hNow i), ?_, ?_⟩
  · intro x hx
    obtain ⟨y, hy, hc⟩ := s.work.auxCounted_reach hid hx
    exact ⟨y, (Work.reach?_of_parts hp _ _ _).trans hy, hc⟩
  · intro k n
    have focus : (s.work.auxCounted i).focus = s.focus := hfocus
    have held := (s.work.auxCounted i).auxHeld_ctx i a b c k n
    rw [Work.auxCounted_ctx, focus] at held
    exact held

/-- Settles O55: each instruction of a helper is one function of its record and its private memory, given as a lemma per instruction. -/
theorem helperCores : Obligations.HelperCores := by
  unfold Obligations.HelperCores
  intro s t r d hs
  refine ⟨fun h => exec_idle h t r d, s.work.hFault_leaves, fun i a b c hi hf => auxfault_spec hi hf, fun hr => ?_⟩
  refine ⟨exec_ecall hr, faults_ebreak hr, ?_, ?_, ?_, fun n m => helperLooks_waiting, qfence_cases hr t r d, ?_, ?_⟩
  · intro n a b op un c i20 i12 o13 o21
    refine ⟨does_set hr (exec_helper hr _ n), does_set hr (exec_helper hr _ n), does_jal hr n d o21, does_jalr hr n d a i12, does_branch hr n a b c o13,
      does_set hr (exec_helper hr _ n), does_set hr (exec_helper hr _ n), does_set hr (exec_helper hr _ n), does_next hr (exec_helper hr _ n),
      faults_of_step hr rfl, fun ad => faults_of_step hr rfl, ?_, ?_⟩
    · intro isImm num
      exact ⟨csr_absent hr n d a isImm .rs, fun ha => csr_written hr n d a isImm .rs (.inr ha), csr_written hr n d a isImm .rw (.inl rfl),
        fun v hv => ⟨csr_read hr n d isImm (by decide) hv, csr_read hr n d isImm (by decide) hv⟩⟩
    · intro z zx dbl amo
      refine ⟨access_misaligned hr n d a b z zx i12, fun h => ⟨load_outside hr n d a z zx i12 (not_not.2 h), does_load hr n d a z zx i12 (not_not.2 h),
        store_outside hr n a b z i12 (not_not.2 h), exec_store hr n a b z i12 (not_not.2 h) hs⟩, atomics_misaligned hr n d a b dbl amo,
        atomics_outside hr n d a b dbl amo, fun h hd => ⟨exec_lr hr n d a dbl h hd, exec_sc hr n d a b dbl h hd hs, exec_amo hr n d a b dbl amo h hd hs⟩⟩
  · exact ⟨ix_misaligned hr t r d, fun h => ⟨cpy_outside hr t r d h, hreq_outside hr t r d h, cpy_data hr t r d h, hreq_data hr t r d h⟩⟩
  · exact ⟨fun v hv => hwait_found hr t r d hv, hwait_waiting hr t r d, hwait_fresh hr t r d⟩
  · exact fun b w1 h i => flume_failed hr t r d h i
  · intro f w1 h
    refine ⟨fun hn => ?_, flume_waits hr t r d h, ?_, fun hu => ⟨?_, ?_⟩, fun pl w2 hu hp => ⟨fun hc => ?_, fun w3 hc hb hw => ?_⟩,
      fun pl w2 hu hp => ⟨fun hc => ?_, fun bs w3 hc hread => ?_⟩⟩
    · rw [exec_ixFlwait hr, hFlume_error (flwaitAcc_beyond h hn)]
      rfl
    · rw [exec_ixFldrop hr, hFlume_some (fldropAcc_eq h)]
    · rw [exec_ixFlget hr, hFlume_error (unitAcc_misaligned h hu).1]
      rfl
    · rw [exec_ixFlput hr, hFlume_error (unitAcc_misaligned h hu).2]
      rfl
    · rw [exec_ixFlget hr, hFlume_none (flgetAcc_empty h hu hp hc)]
    · rw [exec_ixFlget hr, hFlume_some (flgetAcc_takes h hu hp hc hb hw)]
    · rw [exec_ixFlput hr, hFlume_none (flputAcc_full h hu hp hc)]
    · rw [exec_ixFlput hr, hFlume_some (flputAcc_puts h hu hp hc hread)]

end Sys2Proof.Machine
end

section
/-! PROOFS. Why an event that is held is not always taken as stated (14_traps R295, 01_package R18): presenting looks at the frame first, and a look that
reaches past L2 at a stack whose traffic is held is waited for. -/
namespace Sys2Proof.Machine
open Sys2Proof.Claim

/-- A readable page of HBM at address 0, not cached and not to be written. -/
def readOnlyPage : TlbEntry := ⟨0, 0, 65536, 1#64 <<< 53 ||| 7#64⟩

/-- A context for which an event is held, with its frame in that page and the page's stack replaced. -/
def heldBehindStack : State :=
  lift (fun w => { (w.modCore 0 fun c => { c with tlb := [readOnlyPage] }).modCtx 0 0 fun c => { c with held := [.external 0] } with
    stackHeld := setNth w.stackHeld 0 (some 200000) }) State.reset

/-- Does what an outcome leaves wait for a read of held traffic? -/
def waitsToRead (o : Host.Outcome State Fault Refusal) : Bool := match o with | .next u => u.focus.heldRead | _ => false

/-- The look at the frame is a read to be waited for. -/
theorem waitsToRead_present : waitsToRead (present heldBehindStack) = true := by decide +kernel

/-- The trap itself reads nothing: the frame cannot be written. -/
theorem waitsToRead_takeHeld : waitsToRead (.next (lift (fun w => w.takeHeld (.external 0) []) heldBehindStack)) = false := by decide +kernel

/-- Refutes O57: an event held for a rill is taken on a state that has looked at the frame, not on the state as it stands. Where the frame's line is not in L2
and its stack's traffic is held, `present` leaves the note of that read (R18) and `takeHeld` alone does not. -/
theorem not_eventsCompletions : ¬ Obligations.EventsCompletions := by
  unfold Obligations.EventsCompletions
  intro h
  obtain ⟨-, -, -, -, -, taken, -⟩ := h heldBehindStack 0 0 0 0 0
  have same := taken (.external 0) [] (by decide +kernel) (by decide +kernel) (by decide +kernel) (by decide +kernel)
  have differ := waitsToRead_present
  rw [same, waitsToRead_takeHeld] at differ
  exact absurd differ (by decide)

end Sys2Proof.Machine
end

section
/-! PROOFS. SPAWN and DEPDEC (02_execution R43, R49, 13_scheduler R277, 24_ref R456). -/
namespace Sys2Proof.Machine
open Sys2Proof.Claim

/-! ## SPAWN -/

/-- The registers a spawned rill starts with. -/
def spawnArgs (w : Work) (m : BitVec 4) (f : BitVec 6) : List (Nat × Word) :=
  (List.range m.toNat).map fun k => (k + 1, if k < 3 then w.rdS (k + 1) (f + BitVec.ofNat 6 k) else w.me.sReg (f + BitVec.ofNat 6 k))

/-- An instance with a rill more. -/
def Inst.enroll (core c : Nat) (j : Inst) : Inst := { j with rills := j.rills ++ [⟨core, c, false, 0, false⟩] }

/-- The release of SPAWN, and the new rill in its instance. -/
def Work.enrolled (w : Work) (i : Inst) (c : Nat) : Work := w.release.modInst i.id (Inst.enroll w.focus.core c)

/-- A context ready from the next cycle on, and the core's clean lines dropped. -/
def Work.readied (u : Work) (core c : Nat) : Work := (u.modCtx core c fun x => { x with readyAt := u.cycle + 1 }).dropClean core fun _ => true

/-- What SPAWN does once nothing stands against it. -/
def Work.spawned (w : Work) (i : Inst) (c : Nat) (args : List (Nat × Word)) (entry : Word) : Work :=
  ((w.enrolled i c).startRill i w.focus.core c i.rills.length args i.streams entry (Work.clockNext (w.enrolled i c).me.kclk.toNat)).readied w.focus.core c

section
variable {s : State} (c : BitVec 2) (e f : BitVec 6) (m : BitVec 4)

theorem exec_spawn_without (h : s.work.myInst? = none) : exec (.spawn c e m f) s = .next s :=
  (runSlot_ok s _ _ s.work (by rw [spawnAct, act_bind, act_get]; simp only [h]; rfl)).trans (congrArg _ (left_self s))

variable {i : Inst} (h : s.work.myInst? = some i)
include h

theorem exec_spawn_busy (hb : (s.work.ctx s.focus.core c.toNat).st ≠ .idle) :
    exec (.spawn c e m f) s = .next (trapped s (.spawn c e m f) { code := 0x17, info := c.setWidth 64 }) := by
  refine runSlot_trap_here s _ _ _ ?_
  rw [spawnAct, act_bind, act_get]
  simp [h, hb, cSpawnBusy]

theorem exec_spawn_full (hi : (s.work.ctx s.focus.core c.toNat).st = .idle) (hn : 16 ≤ i.rills.length) :
    exec (.spawn c e m f) s = .next (trapped s (.spawn c e m f) { code := 0x18 }) := by
  refine runSlot_trap_here s _ _ _ ?_
  rw [spawnAct, act_bind, act_get]
  simp [h, hi, hn, cSpawnFull]

theorem exec_spawn (hi : (s.work.ctx s.focus.core c.toNat).st = .idle) (hn : i.rills.length < 16) :
    exec (.spawn c e m f) s = .next (left s (s.work.spawned i c.toNat (spawnArgs s.work m f) (s.work.rdS 0 e))) := by
  refine runSlot_ok s _ _ _ ?_
  rw [spawnAct, act_bind, act_get]
  simp only [h]
  simp [hi, Nat.not_le.2 hn]
  rfl

end

/-- Values set at the places from 1 on. -/
theorem nth_foldl_setNth (g : Nat → Word) (x : Vector Word 64) {j : Nat} (hj : j < 64) : ∀ m, m < 64 →
    nth (((List.range m).map fun k => (k + 1, g k)).foldl (fun s (k, v) => setNth s k v) x) j = if 0 < j ∧ j ≤ m then g (j - 1) else nth x j
  | 0, _ => (if_neg (by omega)).symm
  | m + 1, hm => by
    rw [List.range_succ, List.map_append, List.foldl_append]
    show nth (setNth _ (m + 1) (g m)) j = _
    by_cases h : j = m + 1
    · rw [h, nth_setNth_same, if_pos (by omega), Nat.add_sub_cancel]
    · rw [nth_setNth_other _ _ (by omega), nth_foldl_setNth g x hj m (by omega)]
      exact if_congr (by omega) rfl rfl

namespace Work

section
variable {w : Work} {i : Inst} {r : Reach} (core ctx rill : Nat) (args : List (Nat × Word)) (g : Vector Stream 16) (entry : Word) (clk : BitVec 32)

theorem startRill_beside : let v := w.startRill i core ctx rill args g entry clk
    v.insts = w.insts ∧ v.cycle = w.cycle ∧ v.focus = w.focus ∧ ∀ n k, n ≠ core ∨ ctx % 4 ≠ k % 4 → v.ctx n k = w.ctx n k := by
  unfold startRill
  dsimp only
  split
  · exact ⟨rfl, rfl, rfl, fun _ _ _ => rfl⟩
  · refine ⟨rfl, rfl, rfl, fun n k h => ?_⟩
    rw [ctx_modCtx, if_neg fun ⟨hn, hk⟩ => h.elim (fun x => x hn.symm) fun x => x hk]
    rfl

/-- The context that a rill starts on. -/
theorem startRill_ctx (h : w.reach? i.part i.course i.reach = some r) : let n := (w.startRill i core ctx rill args g entry clk).ctx core ctx
    n.st = .ready ∧ n.inst = i.id ∧ n.rill = rill ∧ n.pc = entry ∧ n.kclk = clk ∧
      n.s = args.foldl (fun s (k, v) => setNth s k v) (.replicate 64 0) ∧ n.g = g ∧ n.kstat = (if r.kchk then 2 else 0) ∧
      n.kid = kidWord i.course i.reach i.number core ((i.cores.idxOf? core).getD 0) ctx rill ∧ n.krnd = r.kseed ++ 0#29 ++ r.krm ∧
      n.inflight = [] ∧ n.loop = .none ∧ n.brPend = false := by
  unfold startRill
  rw [h]
  dsimp only
  rw [ctx_modCtx, if_pos ⟨rfl, rfl⟩]
  exact ⟨rfl, rfl, rfl, rfl, rfl, rfl, rfl, rfl, rfl, rfl, rfl, rfl, rfl⟩

end

theorem ctx_dropClean (w : Work) (core : Nat) (which : Nat → Bool) (n k : Nat) : (w.dropClean core which).ctx n k = w.ctx n k := by
  refine ctx_modCore w core ?_ n k
  exact fun _ => rfl

theorem Quiet.cycle {w v : Work} (h : Quiet w v) : v.cycle = w.cycle :=
  have e : v.toChip.apart.cycle = w.toChip.apart.cycle := congrArg Chip.cycle h.apart
  e

theorem inst?_myInst {w : Work} {i : Inst} (h : w.myInst? = some i) : w.inst? i.id = some i := by rw [id_of_inst? h, ← h, myInst?]

theorem readied_insts (u : Work) (core c : Nat) : (u.readied core c).insts = u.insts := rfl
theorem readied_focus (u : Work) (core c : Nat) : (u.readied core c).focus = u.focus := rfl

theorem readied_ctx (u : Work) (core c k : Nat) :
    (u.readied core c).ctx core k = if c % 4 = k % 4 then { u.ctx core k with readyAt := u.cycle + 1 } else u.ctx core k := by
  rw [readied, ctx_dropClean, ctx_modCtx]
  simp only [true_and]

section
variable (w : Work) {i : Inst} (c : Nat)

theorem enrolled_kclk : (w.enrolled i c).me.kclk = clockNext w.me.kclk.toNat := release_kclk w

theorem enrolled_focus : (w.enrolled i c).focus.core = w.focus.core ∧ (w.enrolled i c).focus.ctx = w.focus.ctx :=
  ⟨release_focus w (·.core) fun _ => rfl, release_focus w (·.ctx) fun _ => rfl⟩

theorem enrolled_reach (p seq k : Nat) : (w.enrolled i c).reach? p seq k = w.reach? p seq k := reach?_of_parts (release_quiet w).parts ..

theorem enrolled_inst (hi : w.myInst? = some i) :
    (w.enrolled i c).inst? i.id = some (i.enroll w.focus.core c) :=
  inst?_modInst ((inst?_of_insts (release_quiet w).insts _).trans (inst?_myInst hi)) fun _ => rfl

variable (args : List (Nat × Word)) (entry : Word)

theorem spawned_inst (hi : w.myInst? = some i) :
    (w.spawned i c args entry).inst? i.id = some (i.enroll w.focus.core c) := by
  obtain ⟨insts, -⟩ := startRill_beside (w := w.enrolled i c) (i := i) w.focus.core c i.rills.length args i.streams entry
    (clockNext (w.enrolled i c).me.kclk.toNat)
  rw [spawned, inst?_of_insts ((readied_insts ..).trans insts), enrolled_inst w c hi]

/-- The rill that spawns has released. -/
theorem spawned_kclk (hc : c % 4 ≠ w.focus.ctx % 4) : (w.spawned i c args entry).me.kclk = clockNext w.me.kclk.toNat := by
  obtain ⟨-, -, focus, others⟩ := startRill_beside (w := w.enrolled i c) (i := i) w.focus.core c i.rills.length args i.streams entry
    (clockNext (w.enrolled i c).me.kclk.toNat)
  obtain ⟨hcore, hctx⟩ := w.enrolled_focus (i := i) c
  have hf : (w.spawned i c args entry).focus = (w.enrolled i c).focus := (readied_focus ..).trans focus
  rw [← w.enrolled_kclk (i := i) c, me, me, hf, hcore, hctx, spawned, readied_ctx, if_neg hc, others _ _ (.inr hc)]

/-- The context that the new rill is on. -/
theorem spawned_ctx {r : Reach} (hr : w.reach? i.part i.course i.reach = some r) : let n := (w.spawned i c args entry).ctx w.focus.core c
    n.st = .ready ∧ n.readyAt = w.cycle + 1 ∧ n.inst = i.id ∧ n.rill = i.rills.length ∧ n.pc = entry ∧
      n.kclk = clockNext (clockNext w.me.kclk.toNat).toNat ∧ n.s = args.foldl (fun s (k, v) => setNth s k v) (.replicate 64 0) ∧ n.g = i.streams ∧
      n.kstat = (if r.kchk then 2 else 0) ∧
      n.kid = kidWord i.course i.reach i.number w.focus.core ((i.cores.idxOf? w.focus.core).getD 0) c i.rills.length ∧
      n.krnd = r.kseed ++ 0#29 ++ r.krm ∧ n.inflight = [] ∧ n.loop = .none ∧ n.brPend = false := by
  obtain ⟨-, cycle, -⟩ := startRill_beside (w := w.enrolled i c) (i := i) w.focus.core c i.rills.length args i.streams entry
    (clockNext (w.enrolled i c).me.kclk.toNat)
  obtain ⟨st, inst, rill, pc, kclk, regs, g, kstat, kid, krnd, inflight, loop, br⟩ :=
    startRill_ctx w.focus.core c i.rills.length args i.streams entry (clockNext (w.enrolled i c).me.kclk.toNat) ((w.enrolled_reach (i := i) c ..).trans hr)
  rw [spawned, readied_ctx, if_pos rfl]
  exact ⟨st, congrArg (· + 1) (cycle.trans (release_quiet w).cycle), inst, rill, pc, kclk.trans (by rw [enrolled_kclk]), regs, g, kstat, kid, krnd,
    inflight, loop, br⟩

end

end Work

section
variable {s : State} {i : Inst} (x y : BitVec 6)

/-- SPAWN as it is stated. -/
theorem spawn_cases (c : BitVec 2) (m : BitVec 4) (hi : s.work.myInst? = some i) :
    let core := s.focus.core
    let ins : Instr := .spawn c x m y
    let next : BitVec 32 := Work.clockNext s.work.me.kclk.toNat
    ((s.work.ctx core c.toNat).st ≠ .idle → exec ins s = .next (trapped s ins { code := 0x17, info := c.setWidth 64 })) ∧
    ((s.work.ctx core c.toNat).st = .idle → 16 ≤ i.rills.length → exec ins s = .next (trapped s ins { code := 0x18 })) ∧
    ∀ r, (s.work.ctx core c.toNat).st = .idle → i.rills.length < 16 → s.work.reach? i.part i.course i.reach = some r → ∃ t, exec ins s = .next t ∧
      (let n := t.work.ctx core c.toNat
       n.st = .ready ∧ n.readyAt = s.cycle + 1 ∧ n.inst = i.id ∧ n.rill = i.rills.length ∧ n.pc = sOp s 0 x ∧ n.kclk = Work.clockNext next.toNat ∧
       (∀ k, k < m.toNat → nth n.s (k + 1) = if k < 3 then sOp s (k + 1) (y + BitVec.ofNat 6 k) else s.work.me.sReg (y + BitVec.ofNat 6 k)) ∧
       (∀ k, k < 64 → k = 0 ∨ m.toNat < k → nth n.s k = 0) ∧ n.g = i.streams ∧ n.kstat = (if r.kchk then 2 else 0) ∧
       n.kid = kidWord i.course i.reach i.number core ((i.cores.idxOf? core).getD 0) c.toNat i.rills.length ∧
       n.krnd = r.kseed ++ 0#29 ++ r.krm ∧ n.inflight = [] ∧ n.loop = .none ∧ n.brPend = false) ∧
      t.work.inst? i.id = some { i with rills := i.rills ++ [⟨core, c.toNat, false, 0, false⟩] } ∧
      (c.toNat ≠ s.focus.ctx % 4 → t.work.me.kclk = next) := by
  refine ⟨exec_spawn_busy c x y m hi, exec_spawn_full c x y m hi, fun r hst hn hr => ⟨_, exec_spawn c x y m hi hst hn, ?_, ?_, ?_⟩⟩
  · obtain ⟨st, readyAt, inst, rill, pc, kclk, regs, g, kstat, kid, krnd, inflight, loop, br⟩ :=
      s.work.spawned_ctx c.toNat (spawnArgs s.work m y) (s.work.rdS 0 x) hr
    have reg (k : Nat) (hk : k < 64) := nth_foldl_setNth
      (fun k => if k < 3 then s.work.rdS (k + 1) (y + BitVec.ofNat 6 k) else s.work.me.sReg (y + BitVec.ofNat 6 k)) (.replicate 64 0) hk m.toNat (by omega)
    refine ⟨st, readyAt, inst, rill, pc, kclk, fun k hk => ?_, fun k hk h => ?_, g, kstat, kid, krnd, inflight, loop, br⟩
    · exact (congrArg (nth · (k + 1)) regs).trans ((reg (k + 1) (by omega)).trans (if_pos (by omega)))
    · refine (congrArg (nth · k) regs).trans ((reg k hk).trans ((if_neg (by omega)).trans ?_))
      simp [nth]
  · exact s.work.spawned_inst c.toNat _ _ hi
  · exact fun hne => s.work.spawned_kclk c.toNat _ _ (by rwa [Nat.mod_eq_of_lt c.isLt])

end

/-! ## DEPDEC -/

namespace Work

/-- The release of DEPDEC. -/
def depReleased (w : Work) (part : Nat) : Work :=
  let w0 := w.release.publish
  w0.modPart part fun p => { p with raceClock := max p.raceClock (Work.clockNext w0.me.kclk.toNat).toNat }

theorem reach?_modPart (w : Work) (p : Nat) {f : Partition → Partition} (hf : ∀ q, (f q).courses = q.courses) (seq r : Nat) :
    (w.modPart p f).reach? p seq r = w.reach? p seq r := by
  rw [reach?, reach?, course?, course?, part_modPart_same, hf]

theorem publish_parts (w : Work) : w.publish.parts = w.parts := rfl

theorem depReleased_reach (w : Work) (p seq r : Nat) : (w.depReleased p).reach? p seq r = w.reach? p seq r := by
  rw [depReleased, reach?_modPart w.release.publish p ?_, reach?_of_parts ((publish_parts _).trans (release_quiet w).parts)]
  exact fun _ => rfl

theorem decrement_of_pos {w : Work} {p seq r : Nat} {x : Reach} (h : w.reach? p seq r = some x) (hc : x.counter ≠ 0) :
    (w.decrement p seq r).reach? p seq r = some { x with counter := x.counter - 1 } := by
  unfold decrement
  rw [h]
  dsimp only
  rw [if_neg hc]
  exact reach?_modReach h

theorem decrement_of_zero {w : Work} {p seq r : Nat} {x : Reach} (h : w.reach? p seq r = some x) (hc : x.counter = 0) :
    ∃ z, (w.decrement p seq r).reach? p seq r = some z ∧ z.counter = 0 ∧ z.counts.depuf = true ∧ z.counts.nfault = x.counts.nfault + 1 := by
  unfold decrement
  rw [h]
  dsimp only
  rw [if_pos hc]
  refine ⟨_, reach?_modReach (reach?_modReach h), hc, rfl, ?_⟩
  dsimp only
  split
  · rename_i h0
    rw [h0]
  · rfl

end Work

section
variable {w : Work} {i : Inst} (idx : Word)

theorem depdecAct_without (h : w.myInst? = none) : depdecAct idx w = (.ok (), w) := by
  rw [depdecAct, act_bind, act_get]
  simp only [h]
  rfl

variable (h : w.myInst? = some i)
include h

theorem depdecAct_beyond (hn : ((w.course? i.part i.course).map (·.reaches.length)).getD 0 ≤ idx.toNat) :
    depdecAct idx w = (.error { code := 0x10, addr := Config.freeWord w.freeNext }, { w with freeNext := w.freeNext + 1 }) := by
  rw [depdecAct, act_bind, act_get]
  simp only [h]
  rw [act_ite, if_pos hn]
  rfl

theorem depdecAct_within (hn : idx.toNat < ((w.course? i.part i.course).map (·.reaches.length)).getD 0) {r : Reach}
    (hr : w.reach? i.part i.course idx.toNat = some r) : depdecAct idx w =
      (if r.counter = 0 then .error { code := 0x20, info := idx } else .ok (), (w.depReleased i.part).decrement i.part i.course idx.toNat) := by
  rw [depdecAct, act_bind, act_get]
  simp only [h]
  rw [act_ite, if_neg (Nat.not_le.2 hn), act_bind, act_modify]
  dsimp only
  rw [act_ite, hr]
  by_cases hc : r.counter = 0
  · rw [if_pos hc, if_pos (by simp [hc])]
    rfl
  · rw [if_neg hc, if_neg (by simp [hc])]
    rfl

end

/-- Both forms of DEPDEC are the one action. -/
theorem exec_depdec {s : State} {n : BitVec 8} {x : BitVec 6} {ins : Instr} {idx : Word}
    (h : ins = .depdec n ∧ idx = n.setWidth 64 ∨ ins = .depdecS x ∧ idx = sOp s 0 x) :
    ∃ m, exec ins s = runSlotKeep ins m s ∧ m s.work = depdecAct idx s.work := by
  rcases h with ⟨rfl, rfl⟩ | ⟨rfl, rfl⟩
  · exact ⟨_, rfl, rfl⟩
  · exact ⟨_, rfl, by rw [act_bind, act_get]⟩

/-- DEPDEC as it is stated. -/
theorem depdec_cases {s : State} {n : BitVec 8} {x : BitVec 6} {ins : Instr} {idx : Word}
    (hins : ins = .depdec n ∧ idx = n.setWidth 64 ∨ ins = .depdecS x ∧ idx = sOp s 0 x) :
    (s.work.myInst? = none → exec ins s = .next s) ∧ ∀ i, s.work.myInst? = some i →
      let reaches := ((s.work.course? i.part i.course).map (·.reaches.length)).getD 0
      let w1 := (s.work.depReleased i.part).decrement i.part i.course idx.toNat
      (reaches ≤ idx.toNat → exec ins s = .next (left s ({ s.work with freeNext := s.freeNext + 1 }.slotTrap
        { code := 0x10, addr := Config.freeWord s.freeNext } (Work.operands ins s.work)))) ∧
      ∀ r, idx.toNat < reaches → s.work.reach? i.part i.course idx.toNat = some r →
        (r.counter ≠ 0 → exec ins s = .next (left s w1) ∧ w1.reach? i.part i.course idx.toNat = some { r with counter := r.counter - 1 }) ∧
        (r.counter = 0 → exec ins s = .next (left s (w1.slotTrap { code := 0x20, info := idx } (Work.operands ins s.work))) ∧
          ∃ z, w1.reach? i.part i.course idx.toNat = some z ∧ z.counter = 0 ∧ z.counts.depuf = true ∧ z.counts.nfault = r.counts.nfault + 1) := by
  obtain ⟨m, he, hm⟩ := exec_depdec hins
  refine ⟨fun h => ?_, fun i hi => ⟨fun hn => ?_, fun r hn hr => ?_⟩⟩
  · rw [he, runSlotKeep_ok s ins m s.work (hm.trans (depdecAct_without idx h)), left_self]
  · rw [he, runSlotKeep_trap_left s ins m (hm.trans (depdecAct_beyond idx hi hn))]
    rfl
  · have act := hm.trans (depdecAct_within idx hi hn hr)
    have released := (s.work.depReleased_reach i.part i.course idx.toNat).trans hr
    constructor
    · intro hc
      rw [if_neg hc] at act
      exact ⟨he.trans (runSlotKeep_ok s ins m _ act), Work.decrement_of_pos released hc⟩
    · intro hc
      rw [if_pos hc] at act
      exact ⟨he.trans (runSlotKeep_trap_left s ins m act), Work.decrement_of_zero released hc⟩

end Sys2Proof.Machine
end

section
/-! PROOFS. The flume instructions (23_ref R416 to R418): a look at a descriptor changes nothing, and what an entry put or taken leaves of memory. -/
namespace Sys2Proof.Machine
open Sys2Proof.Claim

theorem access_ok {α : Type} {m : Acc α} {w v : Work} {a : α} (h : m w = (.ok a, v)) : (access m : Act α) w = (.ok a, v) := by rw [act_access, h]

/-! ## A look at a flume -/

theorem checkUnits_same (a : Word) (k n : Nat) (w : Work) : (checkUnits a k n w).2 = w := by
  unfold checkUnits
  split <;> rfl

theorem place_cluster_same (who : Issuer) (rill : Bool) (a : Word) (kind : Access) (w : Work) : (place who rill .cluster a kind w).2 = w := by
  unfold place
  dsimp only
  split
  · rfl
  · split <;> rfl

theorem flumeIn_same (pl : Place) (a : Word) (w : Work) : (flumeIn pl a w).2 = w := by
  unfold flumeIn
  rw [act_ite]
  split
  · simp
  · split
    · rename_i c off
      have hc := checkUnits_same a (tileKey c off) 64 w
      dsimp only
      rw [act_bind]
      split
      · rename_i h
        rw [h] at hc
        subst hc
        dsimp only
        simp only [act_bind, act_get, act_ite]
        split <;> rfl
      · rename_i h
        rw [h] at hc
        exact hc
    · rfl

/-- A look at a flume changes nothing. -/
theorem flumeAt_same (who : Issuer) (a : Word) (w : Work) : (flumeAt who a w).2 = w := by
  unfold flumeAt
  rw [act_ite]
  split
  · simp
  · have hp := place_cluster_same who true a .read w
    dsimp only
    rw [act_bind]
    split
    · rename_i h
      rw [h] at hp
      subst hp
      exact flumeIn_same ..
    · rename_i h
      rw [h] at hp
      exact hp

/-! ## Bytes that a step leaves -/

theorem left_bytes {s : State} {w : Work} (h : s.Inv) (hb : w.base = s.mem) (hf : w.LogFits) (k n : Nat) : (left s w).work.bytes k n = w.bytes k n := by
  rw [Work.bytes_eq_map_byte, Work.bytes_eq_map_byte]
  exact List.map_congr_left fun q _ => left_byte h hb hf (k + q)

namespace Work

/-- A counter of a flume's descriptor, or an entry, written. -/
theorem bytes_write_le (w : Work) (k n x : Nat) : (w.write k (leBytes n x)).bytes k n = leBytes n x := by
  have h := w.bytes_write_same k (leBytes n x)
  rwa [leBytes_length] at h

theorem byte_write_beside (w : Work) {k q : Nat} {bs : List Byte} (h : q < k ∨ k + bs.length ≤ q) : (w.write k bs).byte q = w.byte q := by
  rw [byte_write, if_neg (by omega)]

theorem me_write (w : Work) (k : Nat) (bs : List Byte) : (w.write k bs).me = w.me := by
  rw [me, me, write_focus]
  exact ctx_of_cores (write_cores ..) ..

theorem release_base (w : Work) : w.release.base = w.base := (cleanL1_still w ..).base

theorem release_fits {w : Work} (h : w.LogFits) : w.release.LogFits := (cleanL1_still w ..).fits h

theorem release_rdV (w : Work) (k : Nat) (v : BitVec 5) : w.release.rdV k v = w.rdV k v := by
  have hr : w.release.focus.replay = w.focus.replay := release_focus w (·.replay) fun _ => rfl
  have hv : w.release.me.vReg v = w.me.vReg v := release_me w (·.vReg v) (fun _ => rfl) fun _ _ => rfl
  rw [rdV, rdV, replayed, replayed, hr, hv]

theorem ctx_raiseS_tile (w : Work) (p core off : Nat) (x : BitVec 32) (n m k : Nat) : (w.raiseS p (.tile core off) x n).ctx m k = w.ctx m k := by
  unfold raiseS setTileStamps
  refine ctx_modCore _ _ ?_ m k
  exact fun _ => rfl

/-- A vector result in flight. -/
def vResult (w : Work) (v : BitVec 5) (l : Line) (lat : Nat) : InFlight :=
  ⟨w.focus.issueAt + lat, w.focus.seqNo, w.focus.slot, .vReg, v.toNat, 0, 0, l, false⟩

theorem putV_eq (w : Work) (v : BitVec 5) (l : Line) (lat : Nat) :
    w.putV v l lat = w.modMe fun c => { c with inflight := c.inflight ++ [w.vResult v l lat] } := by
  rw [putV, put_eq _ _ (by simp) rfl, if_neg (by simp [Res.kept])]
  simp [Res.kept, vResult]

theorem acquire_inflight (w : Work) (x : BitVec 32) : (w.acquire x).me.inflight = w.me.inflight := by
  have dropped : (w.dropClean w.focus.core fun _ => true).me = w.me := ctx_dropClean ..
  unfold acquire raiseClock
  rw [me_modMe, me_modMe, dropped]

theorem acquire_log (w : Work) (x : BitVec 32) : (w.acquire x).log = w.log := rfl
theorem acquire_base (w : Work) (x : BitVec 32) : (w.acquire x).base = w.base := rfl

theorem bytes_of_log {w v : Work} (hl : w.log = v.log) (hb : w.base = v.base) (k n : Nat) : w.bytes k n = v.bytes k n := by
  rw [bytes_eq_map_byte, bytes_eq_map_byte]
  exact List.map_congr_left fun q _ => byte_of_log hl hb (k + q)

/-- `n` entries taken off a flume, and the acquire of its stamp. -/
def flumeAcquired (w : Work) (f : Flume) (n : Nat) (x : BitVec 32) : Work := (w.flumeTake f n).acquire x

section
variable (w : Work) (f : Flume) (n : Nat) (x : BitVec 32)

theorem flumeAcquired_base : (w.flumeAcquired f n x).base = w.base := w.write_base ..

theorem flumeAcquired_log : (w.flumeAcquired f n x).log = (w.flumeTake f n).log := acquire_log ..

theorem flumeAcquired_fits {w : Work} (h : w.LogFits) : (w.flumeAcquired f n x).LogFits := by
  rw [LogFits, flumeAcquired_log]
  exact h.write _ _

theorem flumeAcquired_bytes : (w.flumeAcquired f n x).bytes (tileKey f.core (f.off + 16)) 4 = leBytes 4 (f.takes + BitVec.ofNat 32 n).toNat := by
  rw [bytes_of_log (v := w.flumeTake f n) (flumeAcquired_log ..) (acquire_base ..), flumeTake, bytes_write_le]

theorem flumeAcquired_byte {q : Nat} (h : q < tileKey f.core (f.off + 16) ∨ tileKey f.core (f.off + 16) + 4 ≤ q) :
    (w.flumeAcquired f n x).byte q = w.byte q := by
  rw [byte_of_log (w := w.flumeTake f n) (flumeAcquired_log ..) (acquire_base ..), flumeTake, byte_write_beside w (by rwa [leBytes_length])]

theorem flumeAcquired_inflight : (w.flumeAcquired f n x).me.inflight = w.me.inflight :=
  (acquire_inflight ..).trans (congrArg Ctx.inflight (me_write ..))

theorem flumeAcquired_issueAt : (w.flumeAcquired f n x).focus.issueAt = w.focus.issueAt := congrArg Focus.issueAt (w.write_focus ..)

end

/-- A release that raises a flume's stamp. -/
def flumeReleased (w : Work) (f : Flume) : Work := w.release.raiseS w.release.myPart f.line w.release.me.kclk

theorem flumeReleased_base (w : Work) (f : Flume) : (w.flumeReleased f).base = w.base := w.release_base

theorem flumeReleased_fits {w : Work} (h : w.LogFits) (f : Flume) : (w.flumeReleased f).LogFits := release_fits h

theorem flumeReleased_byte (w : Work) (f : Flume) (q : Nat) : (w.flumeReleased f).byte q = w.release.byte q := byte_of_log rfl rfl q

theorem flumeReleased_kclk (w : Work) (f : Flume) : (w.flumeReleased f).me.kclk = clockNext w.me.kclk.toNat := by
  have me : (w.flumeReleased f).me = w.release.me := ctx_raiseS_tile ..
  rw [me, release_kclk]

end Work

section
variable {s : State} {f : Flume} (a : BitVec 4) (hf : flumeAt s.work.issuer (s.work.rdA 0 a) s.work = (.ok f, s.work))

/-- A failed look is the trap of each flume instruction. -/
theorem flumes_failed {t : Trap} {w1 : Work} (x : BitVec 6) (v : BitVec 5)
    (h : access (flumeAt s.work.issuer (s.work.rdA 0 a)) s.work = (.error t, w1)) (i : Instr)
    (hi : i = .flput v a ∨ i = .flget v a ∨ i = .flwait a x ∨ i = .fldrop a x) :
    exec i s = .next (left s ((carried s w1).work.slotTrap t (Work.operands i s.work))) := by
  rcases hi with rfl | rfl | rfl | rfl
  · exact runSlot_trap s _ _ w1 t (by rw [flputAct, act_bind, act_get]; dsimp only; rw [act_bind, h])
  · exact runSlot_trap s _ _ w1 t (by rw [flgetAct, act_bind, act_get]; dsimp only; rw [act_bind, h])
  · exact runSlot_trap s _ _ w1 t (by rw [flwaitAct, act_bind, act_get]; dsimp only; rw [act_bind, h])
  · exact runSlot_trap s _ _ w1 t (by rw [fldropAct, act_bind, act_get]; dsimp only; rw [act_bind, h])

include hf

/-! ## FLPUT -/

theorem exec_flput (v : BitVec 5) : exec (.flput v a) s = .next (left s (if f.count = f.size then s.work.block (.flumeRoom f.core f.off)
    else (s.work.flumeReleased f).flumePut f (lineBytes (s.work.release.rdV 1 v)))) := by
  refine runSlot_ok s _ _ _ ?_
  rw [flputAct, act_bind, act_get]
  dsimp only
  rw [act_bind, access_ok hf]
  dsimp only
  rw [act_ite]
  split <;> rfl

theorem flput_room (v : BitVec 5) (hs : s.Inv) (hc : f.count ≠ f.size) : ∃ t, exec (.flput v a) s = .next t ∧
    t.work.bytes (tileKey f.core (f.off + 8)) 4 = leBytes 4 (f.puts + 1).toNat ∧
    (∀ k, k < tileKey f.core (f.off + 8) ∨ tileKey f.core (f.off + 8) + 4 ≤ k →
      (f.entry f.puts ≤ k → k < f.entry f.puts + 128 → t.work.byte k = (lineBytes (vOp s 1 v)).getD (k - f.entry f.puts) 0) ∧
      (k < f.entry f.puts ∨ f.entry f.puts + 128 ≤ k → t.work.byte k = s.work.release.byte k)) ∧
    t.work.me.kclk = Work.clockNext s.work.me.kclk.toNat := by
  have he := exec_flput a hf v
  rw [if_neg hc, Work.release_rdV] at he
  have len : (lineBytes (s.work.rdV 1 v)).length = 128 := leBytes_length ..
  have put := ((Work.flumeReleased_fits (Work.logFits_work s) f).write (f.entry f.puts) (lineBytes (s.work.rdV 1 v)))
  have base : ((s.work.flumeReleased f).flumePut f (lineBytes (s.work.rdV 1 v))).base = s.mem := by
    rw [Work.flumePut, Work.write_base, Work.write_base, Work.flumeReleased_base]
    rfl
  have fits := put.write (tileKey f.core (f.off + 8)) (leBytes 4 (f.puts + 1).toNat)
  refine ⟨_, he, ?_, fun k hk => ?_, ?_⟩
  · rw [left_bytes hs base fits]
    exact Work.bytes_write_le ..
  · have beside : (left s ((s.work.flumeReleased f).flumePut f (lineBytes (s.work.rdV 1 v)))).work.byte k =
        ((s.work.flumeReleased f).write (f.entry f.puts) (lineBytes (s.work.rdV 1 v))).byte k := by
      rw [left_byte hs base fits]
      exact Work.byte_write_beside _ (by rwa [leBytes_length])
    rw [beside]
    constructor
    · intro hlo hhi
      rw [Work.byte_write, if_pos ⟨hlo, by rw [len]; exact hhi⟩]
      rfl
    · intro hout
      rw [Work.byte_write_beside _ (by rwa [len]), Work.flumeReleased_byte]
  · rw [← Work.flumeReleased_kclk s.work f]
    exact congrArg Ctx.kclk ((Work.me_write ..).trans (Work.me_write ..))

/-! ## FLGET -/

theorem exec_flget (v : BitVec 5) (hb : f.count ≠ 0 → s.work.badUnit (f.entry f.takes) 128 = none) :
    exec (.flget v a) s = .next (left s (if f.count = 0 then s.work.block (.flumeEntries f.core f.off 1)
      else (s.work.flumeAcquired f 1 (s.work.sStamp s.work.myPart f.line)).putV v (lineOf (s.work.bytes (f.entry f.takes) 128)) 5)) := by
  refine runSlot_ok s _ _ _ ?_
  rw [flgetAct, act_bind, act_get]
  dsimp only
  rw [act_bind, access_ok hf]
  dsimp only
  rw [act_ite]
  split
  · rfl
  · rename_i hc
    rw [act_bind, access_ok (checkUnits_ok (hb hc))]
    rfl

theorem flget_takes (v : BitVec 5) (hs : s.Inv) (hc : f.count ≠ 0) (hb : s.work.badUnit (f.entry f.takes) 128 = none) :
    ∃ t g, exec (.flget v a) s = .next t ∧ t.work.bytes (tileKey f.core (f.off + 16)) 4 = leBytes 4 (f.takes + 1).toNat ∧
      (∀ k, k < tileKey f.core (f.off + 16) ∨ tileKey f.core (f.off + 16) + 4 ≤ k → t.work.byte k = s.work.byte k) ∧
      t.work.me.inflight = s.work.me.inflight ++ [g] ∧ g.kind = .vReg ∧ g.reg = v.toNat ∧ g.land = s.focus.issueAt + 5 ∧
      g.value = lineOf (s.work.bytes (f.entry f.takes) 128) := by
  have he := exec_flget a hf v fun _ => hb
  rw [if_neg hc, Work.putV_eq] at he
  generalize lineOf (s.work.bytes (f.entry f.takes) 128) = l at *
  generalize s.work.sStamp s.work.myPart f.line = x at *
  have base := s.work.flumeAcquired_base f 1 x
  have fits := Work.flumeAcquired_fits f 1 x (Work.logFits_work s)
  have me := congrArg Ctx.inflight (Work.me_modMe (s.work.flumeAcquired f 1 x)
    fun c => { c with inflight := c.inflight ++ [(s.work.flumeAcquired f 1 x).vResult v l 5] })
  refine ⟨_, (s.work.flumeAcquired f 1 x).vResult v l 5, he, (left_bytes hs base fits ..).trans (s.work.flumeAcquired_bytes f 1 x),
    fun k hk => (left_byte hs base fits k).trans (s.work.flumeAcquired_byte f 1 x hk), ?_, rfl, rfl, ?_, rfl⟩
  · exact me.trans (congrArg (· ++ _) (s.work.flumeAcquired_inflight f 1 x))
  · exact congrArg (· + 5) (s.work.flumeAcquired_issueAt f 1 x)

/-! ## FLWAIT and FLDROP -/

theorem flwait_beyond (x : BitVec 6) (hn : f.size < (sOp s 1 x).toNat) : exec (.flwait a x) s =
    .next (left s ((carried s s.work).work.slotTrap { code := 0x10, addr := aOp s 0 a } (Work.operands (.flwait a x) s.work))) := by
  refine runSlot_trap s _ _ s.work _ ?_
  rw [flwaitAct, act_bind, act_get]
  dsimp only
  rw [act_bind, access_ok hf]
  dsimp only
  rw [act_ite, if_pos hn]
  rfl

theorem exec_flwait (x : BitVec 6) (hn : (sOp s 1 x).toNat ≤ f.size) : exec (.flwait a x) s = .next (left s (if f.count < (sOp s 1 x).toNat
    then s.work.block (.flumeEntries f.core f.off (sOp s 1 x).toNat) else s.work.acquire (s.work.sStamp s.work.myPart f.line))) := by
  refine runSlot_ok s _ _ _ ?_
  rw [flwaitAct, act_bind, act_get]
  dsimp only
  rw [act_bind, access_ok hf]
  dsimp only
  rw [act_ite, if_neg (Nat.not_lt.2 hn), act_ite]
  split <;> rfl

theorem exec_fldrop (x : BitVec 6) : ∃ y, exec (.fldrop a x) s = .next (left s ((s.work.flumeReleased f).flumeAcquired f (min (sOp s 1 x).toNat f.count) y)) :=
  ⟨_, runSlot_ok s _ _ _ (by
    rw [fldropAct, act_bind, act_get]
    dsimp only
    rw [act_bind, access_ok hf]
    rfl)⟩

theorem fldrop_drops (x : BitVec 6) (hs : s.Inv) : ∃ t, exec (.fldrop a x) s = .next t ∧
    t.work.bytes (tileKey f.core (f.off + 16)) 4 = leBytes 4 (f.takes + BitVec.ofNat 32 (min (sOp s 1 x).toNat f.count)).toNat ∧
    ∀ k, k < tileKey f.core (f.off + 16) ∨ tileKey f.core (f.off + 16) + 4 ≤ k → t.work.byte k = s.work.release.byte k := by
  obtain ⟨y, he⟩ := exec_fldrop a hf x
  generalize min (sOp s 1 x).toNat f.count = n at *
  have base := ((s.work.flumeReleased f).flumeAcquired_base f n y).trans (s.work.flumeReleased_base f)
  have fits := Work.flumeAcquired_fits f n y (Work.flumeReleased_fits (Work.logFits_work s) f)
  exact ⟨_, he, (left_bytes hs base fits ..).trans ((s.work.flumeReleased f).flumeAcquired_bytes f n y), fun k hk =>
    (left_byte hs base fits k).trans (((s.work.flumeReleased f).flumeAcquired_byte f n y hk).trans (s.work.flumeReleased_byte f k))⟩

end

end Sys2Proof.Machine
end

section
/-! PROOFS. ENQ of a course, of a record, and the closing of a list (13_scheduler R257, R269, 23_ref R408 to R410), and the settling of what is stated of SPAWN,
DEPDEC, ENQ and the flume instructions. -/
namespace Sys2Proof.Machine
open Sys2Proof.Claim

theorem act_modifyGet {ε α : Type} (f : Work → α × Work) (w : Work) : (modifyGet f : ExceptT ε (StateM Work) α) w = (.ok (f w).1, (f w).2) := rfl

/-! ## A course -/

section
variable {s : State} (a : BitVec 4) (x : BitVec 6)

theorem enqC_bad (h : 16 ≤ (sOp s 1 x).toNat ∨ (aOp s 0 a).toNat % 128 ≠ 0) :
    exec (.enqC a x) s = .next (trapped s (.enqC a x) { code := 0x10, addr := aOp s 0 a }) := by
  have small : field (sOp s 1 x) 4 60 = 0#60 ↔ (sOp s 1 x).toNat < 16 := field_top_eq_zero (lo := 4) (len := 60) (sOp s 1 x)
  refine runSlot_trap_here s _ _ _ ?_
  rw [enqCAct, act_bind, act_get]
  dsimp only
  rw [act_ite, if_pos (h.imp_left fun h16 h0 => absurd (small.1 h0) (not_lt.2 h16))]
  rfl

variable {bs : List Byte} {w1 : Work} (hn : (s.work.rdS 1 x).toNat < 16) (ha : (s.work.rdA 0 a).toNat % 128 = 0)
  (hu : s.work.badUnit ((s.work.part s.work.issuer.part).qbase + 32 * (s.work.rdS 1 x).toNat) 32 = none)
  (hb : s.work.homeRead s.work.issuer.part ((s.work.part s.work.issuer.part).qbase + 32 * (s.work.rdS 1 x).toNat) 32 = (bs, w1))
include hn ha hu hb

/-- What ENQ of a course does once it has read the queue's descriptor. -/
def enqCRest (s : State) (a : BitVec 4) (x : BitVec 6) (d : QueueDesc) : Act Unit := do
  let who := s.work.issuer
  let n := s.work.rdS 1 x
  let pa := (s.work.part who.part).qbase + 32 * n.toNat
  if d.disabled then trap { code := cAccess, addr := s.work.rdA 0 a }
  if (d.prod - d.cons).toNat = 2 ^ d.logn then modify fun w => w.block (.ring pa)
  else
    let slot := d.slot d.prod
    let pl ← access (place who true .global slot .write)
    let (img, _) ← access (loadAt .global (s.work.rdA 0 a) 128)
    modify fun w => w.release
    modify fun w => w.homeWrite who.part (pa + 12) (leBytes 4 (d.prod + 1).toNat)
    let _ ← access (homeStore .global slot (withPhase img (d.phase d.prod)))
    modify fun w => ((w.raiseS who.part pl w.me.kclk 128).publish).sample 3 (n.setWidth 16) (d.prod + 1 - d.cons).toNat

theorem enqCAct_eq : enqCAct a x s.work = enqCRest s a x (queueDesc ((s.work.part s.work.issuer.part).qbase + 32 * (s.work.rdS 1 x).toNat) bs) w1 := by
  have small : field (sOp s 1 x) 4 60 = 0#60 ↔ (sOp s 1 x).toNat < 16 := field_top_eq_zero (lo := 4) (len := 60) (sOp s 1 x)
  rw [enqCAct, act_bind, act_get]
  dsimp only
  rw [act_ite, if_neg (not_or.2 ⟨not_not.2 (small.2 hn), not_not.2 ha⟩)]
  rw [act_bind, access_ok (checkUnits_ok hu)]
  dsimp only
  rw [act_bind, act_modifyGet, hb]
  rfl

end

section
variable {s : State} (a : BitVec 4) (x : BitVec 6) {d : QueueDesc} {w1 : Work}

theorem enqCRest_disabled (hd : d.disabled = true) : enqCRest s a x d w1 = (.error { code := 0x10, addr := aOp s 0 a }, w1) := by
  rw [enqCRest, act_ite, if_pos hd]
  rfl

variable (hd : d.disabled = false)
include hd

theorem enqCRest_full (hf : (d.prod - d.cons).toNat = 2 ^ d.logn) : enqCRest s a x d w1 =
    (.ok (), w1.block (.ring ((s.work.part s.work.myPart).qbase + 32 * (sOp s 1 x).toNat))) := by
  rw [enqCRest, act_ite, if_neg (by simp [hd])]
  dsimp only
  rw [act_ite, if_pos hf]
  rfl

theorem enqCRest_puts (hf : (d.prod - d.cons).toNat ≠ 2 ^ d.logn) {pl pl2 ph : Place} {img : List Byte} {w2 w3 w4 : Work}
    (hp : place s.work.issuer true .global (d.slot d.prod) .write w1 = (.ok pl, w2)) (hl : loadAt .global (s.work.rdA 0 a) 128 w2 = (.ok (img, ph), w3))
    (hh : homeStore .global (d.slot d.prod) (withPhase img (d.phase d.prod)) (w3.release.homeWrite s.work.issuer.part
      ((s.work.part s.work.issuer.part).qbase + 32 * (s.work.rdS 1 x).toNat + 12) (leBytes 4 (d.prod + 1).toNat)) = (.ok pl2, w4)) :
    enqCRest s a x d w1 = (.ok (), ((w4.raiseS s.work.issuer.part pl w4.me.kclk 128).publish).sample 3 ((s.work.rdS 1 x).setWidth 16)
      (d.prod + 1 - d.cons).toNat) := by
  rw [enqCRest, act_ite, if_neg (by simp [hd])]
  dsimp only
  rw [act_ite, if_neg hf, act_bind, access_ok hp]
  dsimp only
  rw [act_bind, access_ok hl]
  dsimp only
  rw [act_bind, act_modify]
  dsimp only
  rw [act_bind, act_modify]
  dsimp only
  rw [act_bind, access_ok hh]
  rfl

end

/-! ## Lists -/

theorem aligned_ok {a : Word} {n : Nat} (h : a.toNat % n = 0) (w : Work) : aligned a n w = (.ok (), w) := by
  rw [aligned, act_ite, if_neg (not_not.2 h)]
  rfl

theorem aligned_bad {a : Word} {n : Nat} (h : a.toNat % n ≠ 0) (w : Work) : aligned a n w = (.error { code := 0x10, addr := a }, w) := by
  rw [aligned, act_ite, if_pos h]
  rfl

section
variable {s : State} (p a b : BitVec 4)

theorem enq_misaligned (h : (s.work.rdA 0 a).toNat % 64 ≠ 0) :
    exec (.enqR p a b) s = .next (trapped s (.enqR p a b) { code := 0x10, addr := s.work.rdA 0 a }) ∧
      exec (.enqX a) s = .next (trapped s (.enqX a) { code := 0x10, addr := s.work.rdA 0 a }) := by
  constructor
  · exact runSlot_trap_here s _ _ _ (by rw [enqRAct, act_bind, act_get]; dsimp only; rw [act_bind, aligned_bad h])
  · exact runSlot_trap_here s _ _ _ (by rw [enqXAct, act_bind, act_get]; dsimp only; rw [act_bind, aligned_bad h])

variable (hl : (s.work.rdA 0 a).toNat % 64 = 0)
include hl

theorem enqR_misaligned (hr : (s.work.rdA 1 b).toNat % 32 ≠ 0) :
    exec (.enqR p a b) s = .next (trapped s (.enqR p a b) { code := 0x10, addr := s.work.rdA 1 b }) :=
  runSlot_trap_here s _ _ _ (by rw [enqRAct, act_bind, act_get]; dsimp only; rw [act_bind, aligned_ok hl]; dsimp only; rw [act_bind, aligned_bad hr])

theorem enqXAct_failed {t : Trap} {w1 : Work} (h : listAt (s.work.rdA 0 a) s.work = (.error t, w1)) : enqXAct a s.work = (.error t, w1) := by
  rw [enqXAct, act_bind, act_get]
  dsimp only
  rw [act_bind, aligned_ok hl]
  dsimp only
  rw [act_bind, h]

theorem enqX_closes {d : ListDesc} {pl pl2 : Place} {w1 w2 : Work} (h : listAt (s.work.rdA 0 a) s.work = (.ok (d, pl), w1))
    (hs : homeStore .global (s.work.rdA 0 a + 24#64) [1#8] w1.release = (.ok pl2, w2)) :
    exec (.enqX a) s = .next (left s ((w2.raiseS w2.myPart pl2 w2.me.kclk 1).publish)) := by
  refine runSlot_ok s _ _ _ ?_
  rw [enqXAct, act_bind, act_get]
  dsimp only
  rw [act_bind, aligned_ok hl]
  dsimp only
  rw [act_bind, h]
  dsimp only
  rw [act_bind, act_modify]
  dsimp only
  rw [act_bind, access_ok hs]
  rfl

variable (hr : (s.work.rdA 1 b).toNat % 32 = 0)
include hr

theorem enqRAct_failed {t : Trap} {w1 : Work} (h : listAt (s.work.rdA 0 a) s.work = (.error t, w1)) : enqRAct p a b s.work = (.error t, w1) := by
  rw [enqRAct, act_bind, act_get]
  dsimp only
  rw [act_bind, aligned_ok hl]
  dsimp only
  rw [act_bind, aligned_ok hr]
  dsimp only
  rw [act_bind, h]

variable {d : ListDesc} {pl : Place} {w1 : Work} (h : listAt (s.work.rdA 0 a) s.work = (.ok (d, pl), w1))
include h

theorem enqRAct_closed (hd : d.closed = true) : enqRAct p a b s.work = (.ok (), (w1.release.putP p false 1).publish) := by
  rw [enqRAct, act_bind, act_get]
  dsimp only
  rw [act_bind, aligned_ok hl]
  dsimp only
  rw [act_bind, aligned_ok hr]
  dsimp only
  rw [act_bind, h]
  dsimp only
  rw [act_ite, if_pos hd]
  rfl

variable (hd : d.closed = false) {bs : List Byte} {p2 : Place} {w2 : Work} (hb : loadAt .global (s.work.rdA 1 b) 32 w1 = (.ok (bs, p2), w2))
include hd hb

theorem enqRAct_bad (hx : recordBad bs = true) : enqRAct p a b s.work = (.ok (), ((w2.release.putP p false 1).countBadRec (s.work.rdA 0 a)).publish) := by
  rw [enqRAct, act_bind, act_get]
  dsimp only
  rw [act_bind, aligned_ok hl]
  dsimp only
  rw [act_bind, aligned_ok hr]
  dsimp only
  rw [act_bind, h]
  dsimp only
  rw [act_ite, if_neg (by simp [hd]), act_bind, access_ok hb]
  dsimp only
  rw [act_ite, if_pos hx]
  rfl

/-- ENQ of a record waits for room. -/
def enqRWait : Place → Act Unit
  | .phys pa _ _ => modify fun w => w.block (.list pa)
  | .view n off => modify fun w => w.block (.viewList w.myPart n off)
  | _ => pure ()

/-- ENQ of a record writes the slot and the count. -/
def enqRPut (s : State) (p a : BitVec 4) (d : ListDesc) (bs : List Byte) : Act Unit := do
  modify fun w => w.release
  let _ ← access (homeStore .global (d.record d.arrived.toNat) bs)
  let pl ← access (homeStore .global (s.work.rdA 0 a + 16#64) (leBytes 4 (d.arrived + 1).toNat))
  modify fun w => ((w.raiseS s.work.issuer.part pl w.me.kclk 4).putP p true 1).publish

/-- It looks at the slot first. -/
def enqRSlot (s : State) (p a : BitVec 4) (d : ListDesc) (bs : List Byte) : Place → Act Unit
  | .phys pa _ _ => do
    access (checkUnits (d.record d.arrived.toNat) pa 32)
    enqRPut s p a d bs
  | pl => do
    let _ ← access (readPlace s.work.issuer false pl (d.record d.arrived.toNat) 32)
    enqRPut s p a d bs

/-- ENQ of a record once it has read one that is well formed. -/
def enqRTail (s : State) (p a : BitVec 4) (d : ListDesc) (pl : Place) (bs : List Byte) : Act Unit :=
  if (d.arrived - d.retired).toNat = 2 ^ d.logn then enqRWait pl
  else do enqRSlot s p a d bs (← access (place s.work.issuer true .global (d.record d.arrived.toNat) .write))

theorem enqRAct_good (hx : recordBad bs = false) : enqRAct p a b s.work = enqRTail s p a d pl bs w2 := by
  rw [enqRAct, act_bind, act_get]
  dsimp only
  rw [act_bind, aligned_ok hl]
  dsimp only
  rw [act_bind, aligned_ok hr]
  dsimp only
  rw [act_bind, h]
  dsimp only
  rw [act_ite, if_neg (by simp [hd]), act_bind, access_ok hb]
  dsimp only
  rw [act_ite, if_neg (by simp [hx])]
  rfl

end

section
variable {s : State} (p a : BitVec 4) {d : ListDesc} {bs : List Byte} {w2 : Work}

theorem enqRTail_full (hf : (d.arrived - d.retired).toNat = 2 ^ d.logn) (pa : Nat) (mt : BitVec 2) (r : Bool) :
    enqRTail s p a d (.phys pa mt r) bs w2 = (.ok (), w2.block (.list pa)) := by
  rw [enqRTail, act_ite, if_pos hf]
  rfl

theorem enqRPut_puts {p4 p5 : Place} {v3 w4 w5 : Work} (hs : homeStore .global (d.record d.arrived.toNat) bs v3.release = (.ok p4, w4))
    (hc : homeStore .global (s.work.rdA 0 a + 16#64) (leBytes 4 (d.arrived + 1).toNat) w4 = (.ok p5, w5)) :
    enqRPut s p a d bs v3 = (.ok (), ((w5.raiseS s.work.issuer.part p5 w5.me.kclk 4).putP p true 1).publish) := by
  rw [enqRPut, act_bind, act_modify]
  dsimp only
  rw [act_bind, access_ok hs]
  dsimp only
  rw [act_bind, access_ok hc]
  rfl

/-- The slot may be written: no unit of it is uncorrectable, or it can be read. -/
theorem enqRSlot_free {ps : Place} {w3 v3 : Work} (hu : (∃ pa mt r, ps = .phys pa mt r ∧ w3.badUnit pa 32 = none ∧ v3 = w3) ∨
      (∃ z, (∀ pa mt r, ps ≠ .phys pa mt r) ∧ readPlace s.work.issuer false ps (d.record d.arrived.toNat) 32 w3 = (.ok z, v3))) :
    enqRSlot s p a d bs ps w3 = enqRPut s p a d bs v3 := by
  rcases hu with ⟨pa, mt, r, rfl, hb, rfl⟩ | ⟨z, hn, hz⟩
  · rw [enqRSlot, act_bind, access_ok (checkUnits_ok hb)]
  · rw [enqRSlot, act_bind, access_ok hz]
    exact hn

theorem enqRTail_puts {pl ps p4 p5 : Place} {w3 v3 w4 w5 : Work} (hf : (d.arrived - d.retired).toNat ≠ 2 ^ d.logn)
    (hp : place s.work.issuer true .global (d.record d.arrived.toNat) .write w2 = (.ok ps, w3))
    (hu : (∃ pa mt r, ps = .phys pa mt r ∧ w3.badUnit pa 32 = none ∧ v3 = w3) ∨
      (∃ z, (∀ pa mt r, ps ≠ .phys pa mt r) ∧ readPlace s.work.issuer false ps (d.record d.arrived.toNat) 32 w3 = (.ok z, v3)))
    (hs : homeStore .global (d.record d.arrived.toNat) bs v3.release = (.ok p4, w4))
    (hc : homeStore .global (s.work.rdA 0 a + 16#64) (leBytes 4 (d.arrived + 1).toNat) w4 = (.ok p5, w5)) :
    enqRTail s p a d pl bs w2 = (.ok (), ((w5.raiseS s.work.issuer.part p5 w5.me.kclk 4).putP p true 1).publish) := by
  rw [enqRTail, act_ite, if_neg hf, act_bind, access_ok hp]
  exact (enqRSlot_free p a hu).trans (enqRPut_puts p a hs hc)

end

/-! ## What is stated of them -/

/-- ENQ of a course as it is stated. -/
theorem enqC_cases (s : State) (a : BitVec 4) (x : BitVec 6) {bs : List Byte} {w1 : Work} :
    let part := s.work.myPart
    let n := sOp s 1 x
    let ins : Instr := .enqC a x
    let pa := (s.work.part part).qbase + 32 * n.toNat
    n.toNat < 16 → (aOp s 0 a).toNat % 128 = 0 → s.work.badUnit pa 32 = none → s.work.homeRead part pa 32 = (bs, w1) →
      let d := queueDesc pa bs
      (d.disabled = true → exec ins s =
        .next (left s ((carried s w1).work.slotTrap { code := 0x10, addr := aOp s 0 a } (Work.operands ins s.work)))) ∧
      (d.disabled = false → (d.prod - d.cons).toNat = 2 ^ d.logn → exec ins s = .next (left s (w1.block (.ring pa)))) ∧
      ∀ pl w2 img ph w3 pl2 w4, d.disabled = false → (d.prod - d.cons).toNat ≠ 2 ^ d.logn →
        place s.work.issuer true .global (d.slot d.prod) .write w1 = (.ok pl, w2) → loadAt .global (aOp s 0 a) 128 w2 = (.ok (img, ph), w3) →
        homeStore .global (d.slot d.prod) (withPhase img (d.phase d.prod)) (w3.release.homeWrite part (pa + 12) (leBytes 4 (d.prod + 1).toNat)) = (.ok pl2, w4) →
        exec ins s = .next (left s (((w4.raiseS part pl w4.me.kclk 128).publish).sample 3 (n.setWidth 16) (d.prod + 1 - d.cons).toNat)) := by
  intro part n ins pa hn ha hu hb d
  have act := enqCAct_eq a x hn ha hu hb
  refine ⟨fun hd => ?_, fun hd hf => ?_, fun pl w2 img ph w3 pl2 w4 hd hf hp hl hh => ?_⟩
  · exact runSlot_trap s _ _ w1 _ (act.trans (enqCRest_disabled a x hd))
  · exact runSlot_ok s _ _ _ (act.trans (enqCRest_full a x hd hf))
  · exact runSlot_ok s _ _ _ (act.trans (enqCRest_puts a x hd hf hp hl hh))

/-- Settles O54: each instruction's action is followed from one access to the next; what it leaves is read off the last one. -/
theorem spawnsQueuesFlumes : Obligations.SpawnsQueuesFlumes := by
  unfold Obligations.SpawnsQueuesFlumes
  intro s a b x y v hs
  refine ⟨fun c m => ⟨exec_spawn_without c x y m, fun i hi => spawn_cases x y c m hi⟩, fun n ins idx hins => depdec_cases hins, fun t w1 h => ?_, fun f w1 h => ?_,
    ⟨enqC_bad a x, fun bs w1 => enqC_cases s a x⟩, fun p => ⟨enq_misaligned p a b, enqR_misaligned p a b,
      fun t w1 hl h => ⟨?_, fun hr => ?_⟩, fun d pl w1 hl h => ?_⟩⟩
  · have failed := flumes_failed a x v h
    exact ⟨failed _ (.inl rfl), failed _ (.inr (.inl rfl)), failed _ (.inr (.inr (.inl rfl))), failed _ (.inr (.inr (.inr rfl)))⟩
  · obtain rfl : s.work = w1 := (congrArg Prod.snd h ▸ flumeAt_same ..).symm
    refine ⟨fun hc => ?_, flput_room a h v hs, fun hc => ?_, flget_takes a h v hs, flwait_beyond a h x, fun hn hc => ?_, fun hn hc => ?_, fldrop_drops a h x hs⟩
    · rw [exec_flput a h, if_pos hc]
    · rw [exec_flget a h v fun hne => absurd hc hne, if_pos hc]
    · rw [exec_flwait a h x hn, if_pos hc]
    · rw [exec_flwait a h x hn, if_neg (Nat.not_lt.2 hc)]
  · exact runSlot_trap s _ _ w1 t (enqXAct_failed a hl h)
  · exact runSlot_trap s _ _ w1 t (enqRAct_failed p a b hl hr h)
  · refine ⟨fun pl2 w2 hst => enqX_closes a hl h hst, fun hr hd => runSlot_ok s _ _ _ (enqRAct_closed p a b hl hr h hd),
      fun bs p2 w2 hr hd hb => ⟨fun hx => ?_, fun hx => ?_, ?_⟩⟩
    · exact runSlot_ok s _ _ _ (enqRAct_bad p a b hl hr h hd hb hx)
    · intro hf pa mt r hpl
      subst hpl
      exact runSlot_ok s _ _ _ ((enqRAct_good p a b hl hr h hd hb hx).trans (enqRTail_full p a hf pa mt r))
    · intro ps w3 v3 p4 w4 p5 w5 hx hf slot hp hu hst hc
      exact runSlot_ok s _ _ _ ((enqRAct_good p a b hl hr h hd hb hx).trans (enqRTail_puts p a hf hp hu hst hc))

end Sys2Proof.Machine
end

section
/-! PROOFS. Operands as a slot reads them (03_core R71, R75, 14_traps R289): the register, or the replayed frame's operand; streams advanced by the uses that
lower slots have made. -/
namespace Sys2Proof.Machine
open Sys2Proof.Claim

namespace Work

/-- One use of a stream, on numbers: COL's successor is compared with the row's length without wrapping round, since no row is that long. -/
theorem advancePos_eq (layout p : Word) :
    advancePos layout p = if (field p 0 32).toNat + 1 = layoutRowLen layout then (field p 32 32 + 1) ++ 0#32 else field p 32 32 ++ (field p 0 32 + 1) := by
  have hr : layoutRowLen layout < 2 ^ 32 ∧ 0 < layoutRowLen layout := by
    have := (field layout 36 12).isLt
    unfold layoutRowLen
    dsimp only
    split <;> omega
  have hp := (field p 0 32).isLt
  have wraps : field p 0 32 + 1 = BitVec.ofNat 32 (layoutRowLen layout) ↔ (field p 0 32).toNat + 1 = layoutRowLen layout := by
    rw [← BitVec.toNat_inj, BitVec.toNat_add, BitVec.toNat_ofNat, Nat.mod_eq_of_lt hr.1]
    change ((field p 0 32).toNat + 1) % 2 ^ 32 = _ ↔ _
    omega
  exact if_congr wraps rfl rfl

theorem advanceMany_eq (layout : Word) (n : Nat) (p : Word) : advanceMany layout n p = (advancePos layout)^[n] p := by
  induction n generalizing p with
  | zero => rfl
  | succ n ih => exact ih _

variable {w : Work} {k : Nat}

theorem replayed_of_none (h : w.focus.replay = none) : w.replayed k = none := by rw [replayed, h]; rfl

theorem replayed_of_some {ops : List Line} {l : Line} (h : w.focus.replay = some ops) (hk : ops[k]? = some l) : w.replayed k = some l := by
  rw [replayed, h]
  exact hk

section
variable (h : w.replayed k = none)
include h
theorem rdS_of_none (r : BitVec 6) : w.rdS k r = w.me.sReg r := by rw [rdS, h]
theorem rdA_of_none (r : BitVec 4) : w.rdA k r = w.me.aReg r := by rw [rdA, h]
theorem rdP_of_none (r : BitVec 4) : w.rdP k r = w.me.pReg r := by rw [rdP, h]
theorem rdV_of_none (r : BitVec 5) : w.rdV k r = w.me.vReg r := by rw [rdV, h]
theorem rdQ_of_none (r : BitVec 3) : w.rdQ k r = w.me.qReg r := by rw [rdQ, h]
theorem rdG_of_none (r : BitVec 4) : w.rdG k r =
    { w.me.gReg r with pos := (advancePos (w.me.gReg r).layout)^[Tab.get w.focus.uses r.toNat 0] (w.me.gReg r).pos } := by
  rw [rdG, h, ← advanceMany_eq]
end

section
variable {l : Line} (h : w.replayed k = some l)
include h
theorem rdS_of_some (r : BitVec 6) : w.rdS k r = field l 0 64 := by rw [rdS, h]
theorem rdA_of_some (r : BitVec 4) : w.rdA k r = field l 0 64 := by rw [rdA, h]
theorem rdP_of_some (r : BitVec 4) : w.rdP k r = l.getLsbD 0 := by rw [rdP, h]
theorem rdV_of_some (r : BitVec 5) : w.rdV k r = l := by rw [rdV, h]
theorem rdQ_of_some (r : BitVec 3) : w.rdQ k r = field l 0 128 := by rw [rdQ, h]
theorem rdG_of_some (r : BitVec 4) : w.rdG k r =
    ⟨field l 0 64, field l 64 64, (advancePos (field l 64 64))^[Tab.get w.focus.uses r.toNat 0] (field l 128 64)⟩ := by
  rw [rdG, h, ← advanceMany_eq]
end

end Work

theorem pReg_eq (c : Ctx) (r : BitVec 4) : c.pReg r = if r = 0#4 then true else c.p.getLsbD r.toNat := by
  unfold Ctx.pReg
  split <;> simp [*]

/-- `Nat.repeat` iterates. -/
theorem repeat_eq_iterate {α : Type} (f : α → α) (n : Nat) (a : α) : Nat.repeat f n a = f^[n] a := by
  induction n with
  | zero => rfl
  | succ n ih => rw [Nat.repeat, ih, Function.iterate_succ_apply']

/-- Settles O5: each read by whether the slot is replayed; a stream's uses are `advancePos` iterated. -/
theorem operandReads : Obligations.OperandReads := by
  unfold Obligations.OperandReads
  intro s k advance used
  have step (layout : Word) : advance layout = Work.advancePos layout := funext fun p => (Work.advancePos_eq layout p).symm
  have uses (r : BitVec 4) (g : Stream) :
      used r g = { g with pos := (Work.advancePos g.layout)^[Tab.get s.focus.uses r.toNat 0] g.pos } := by
    simp only [used, step, repeat_eq_iterate]
  refine ⟨fun h => ?_, fun ops l h hl => ?_⟩
  · have hn : s.work.replayed k = none := Work.replayed_of_none h
    exact ⟨Work.rdS_of_none hn, Work.rdA_of_none hn, fun r => (Work.rdP_of_none hn r).trans (pReg_eq ..), Work.rdV_of_none hn, Work.rdQ_of_none hn,
      fun r => (Work.rdG_of_none hn r).trans (uses ..).symm⟩
  · have hs : s.work.replayed k = some l := Work.replayed_of_some h hl
    exact ⟨Work.rdS_of_some hs, Work.rdA_of_some hs, Work.rdP_of_some hs, Work.rdV_of_some hs, Work.rdQ_of_some hs,
      fun r => (Work.rdG_of_some hs r).trans (uses r ⟨_, _, _⟩).symm⟩

end Sys2Proof.Machine
end

section
/-! PROOFS. System registers as MFSR, TSTAMP, MTSR and EST read and write them (03_core R76, 24_ref R444, R445, 22_ref R411, 25_ref R462). -/
namespace Sys2Proof.Machine
open Sys2Proof.Claim

section
variable {s : State} {a d k : BitVec 6}

/-! ## Reads -/

/-- KFRAME and KVEC are the registers that user mode does not reach. -/
theorem exec_mfsr_priv (hu : s.focus.super = false) (hk : k = 2 ∨ k = 3) : exec (.mfsr d k) s = .next (trapped s (.mfsr d k) { code := 0x16 }) := by
  refine runSlot_trap_here s _ (mfsrAct d k) _ ?_
  simp [mfsrAct, hu, show k = 2#6 ∨ k = 3#6 from hk, cPriv]

theorem exec_mfsr (h : k = 2 ∨ k = 3 → s.focus.super = true) (hr : s.focus.replay = none) :
    exec (.mfsr d k) s = .next (sResult s d (s.work.sysValue k) 2) := by
  have act : mfsrAct d k s.work = (.ok (), s.work.putS d (s.work.sysValue k) 2) := by
    have hn : ¬ ((k = 2#6 ∨ k = 3#6) ∧ s.focus.super = false) := fun hn => by simp [h hn.1] at hn
    simp [mfsrAct, hn, Work.replayed_of_none (w := s.work) hr]
  exact (runSlot_ok s _ _ _ act).trans (congrArg _ (lift_putS s d _ 2 0 rfl))

theorem sysValue_kfeat (w : Work) (h : 12 ≤ k.toNat) : w.sysValue k = field (w.part w.myPart).feat (64 * (k.toNat - 12)) 64 := by
  have ne (n : BitVec 6) (hn : n.toNat < 12) : k ≠ n := fun e => absurd h (by rw [e]; omega)
  unfold Work.sysValue
  extract_lets c
  rw [if_neg (ne 0#6 (by decide)), if_neg (ne 1#6 (by decide)), if_neg (ne 2#6 (by decide)), if_neg (ne 3#6 (by decide)), if_neg (ne 4#6 (by decide)),
    if_neg (ne 5#6 (by decide)), if_neg (ne 6#6 (by decide)), if_neg (ne 7#6 (by decide)), if_neg (ne 8#6 (by decide)), if_neg (ne 9#6 (by decide)),
    if_neg (ne 10#6 (by decide))]

theorem exec_tstamp : exec (.tstamp d) s = .next (sResult s d (BitVec.ofNat 64 s.ns) 2) :=
  congrArg _ (lift_putS s d (BitVec.ofNat 64 s.ns) 2 0 rfl)

/-! ## Writes -/

theorem exec_mtsr_priv (hu : s.focus.super = false) (hk : k = 2 ∨ k = 3) : exec (.mtsr a k) s = .next (trapped s (.mtsr a k) { code := 0x16 }) := by
  refine runSlot_trap_here s _ (mtsrAct a k) _ ?_
  simp [mtsrAct, hu, show k = 2#6 ∨ k = 3#6 from hk, cPriv]

theorem exec_mtsr_ignored (h : k = 2 ∨ k = 3 → s.focus.super = true) (hi : mtsrIgnored k s.focus.super = true) : exec (.mtsr a k) s = .next s := by
  have act : mtsrAct a k s.work = (.ok (), s.work) := by
    have hn : ¬ ((k = 2#6 ∨ k = 3#6) ∧ s.focus.super = false) := fun hn => by simp [h hn.1] at hn
    simp [mtsrAct, hn, hi]
  exact runSlot_ok s _ _ _ act

/-- A system register's value in flight for 2 cycles. -/
theorem lift_putSys (s : State) (n : Nat) (v : Line) :
    lift (fun w => w.put { kind := .sysReg, reg := n, value := v, lat := 2 }) s = result s .sysReg n v 2 :=
  lift_put s ⟨.sysReg, n, v, 2, 0, 0, false⟩ (BitVec.getLsbD_zero) rfl

theorem exec_mtsr (h : k = 2 ∨ k = 3 → s.focus.super = true) (hi : mtsrIgnored k s.focus.super = false) :
    exec (.mtsr a k) s = .next (result s .sysReg k.toNat ((sOp s 0 a).setWidth 1024) 2) := by
  have act : mtsrAct a k s.work = (.ok (), s.work.put { kind := .sysReg, reg := k.toNat, value := (sOp s 0 a).setWidth 1024, lat := 2 }) := by
    have hn : ¬ ((k = 2#6 ∨ k = 3#6) ∧ s.focus.super = false) := fun hn => by simp [h hn.1] at hn
    simp [mtsrAct, hn, hi]
  exact (runSlot_ok s _ _ _ act).trans (congrArg _ (lift_putSys s ..))

/-- EST's value as it is read when the step begins. -/
theorem lift_putEst (s : State) (f : Work → Word) : lift (fun w => w.putEst (f w)) s = result s .sysReg 6 ((f s.work).setWidth 1024) 2 :=
  (lift_congr rfl).trans (lift_putSys s 6 ((f s.work).setWidth 1024))

theorem exec_est : exec (.est a) s = .next (result s .sysReg 6 ((sOp s 0 a).setWidth 1024) 2) :=
  congrArg Host.Outcome.next (lift_putEst s fun w => w.rdS 0 a)

theorem exec_estI (m : Imm 16) :
    exec (.estI m) s = .next (result s .sysReg 6 (match m with | .short x => x.setWidth 1024 | .long x => x.setWidth 1024) 2) := by
  cases m with
  | short x =>
    dsimp only; rw [← BitVec.setWidth_setWidth (x := x) (v := 64) (by decide)]
    exact congrArg Host.Outcome.next (lift_putEst s fun _ => x.setWidth 64)
  | long x =>
    dsimp only; rw [← BitVec.setWidth_setWidth (x := x) (v := 64) (by decide)]
    exact congrArg Host.Outcome.next (lift_putEst s fun _ => x.setWidth 64)

end

/-- Settles O21: the register that MFSR names is `Work.sysValue`; KFRAME and KVEC alone ask for supervisor mode. -/
theorem systemReads : Obligations.SystemReads := by
  unfold Obligations.SystemReads
  intro s d k c
  refine ⟨fun hu hk => exec_mfsr_priv hu hk, fun hr => ?_, exec_tstamp⟩
  have plain (n : BitVec 6) (h2 : n ≠ 2) (h3 : n ≠ 3) : exec (.mfsr d n) s = .next (sResult s d (s.work.sysValue n) 2) :=
    exec_mfsr (fun h => absurd h (not_or.mpr ⟨h2, h3⟩)) hr
  refine ⟨plain 0 (by decide) (by decide), plain 1 (by decide) (by decide), fun hs => ?_, fun i hi => ?_, plain 5 (by decide) (by decide),
    plain 6 (by decide) (by decide), plain 7 (by decide) (by decide), plain 8 (by decide) (by decide), plain 9 (by decide) (by decide),
    plain 10 (by decide) (by decide), fun h12 _ => ?_⟩
  · have super (n : BitVec 6) : exec (.mfsr d n) s = .next (sResult s d (s.work.sysValue n) 2) :=
      exec_mfsr (fun _ => hs) hr
    exact ⟨super 2, super 3⟩
  · have value : s.work.sysValue 4 = BitVec.ofNat 64 i.counter := by
      show BitVec.ofNat 64 ((s.work.myInst?.map (·.counter)).getD 0) = _
      rw [hi]; rfl
    rw [plain 4 (by decide) (by decide), value]
  · rw [plain k (fun e => by subst e; exact absurd h12 (by decide)) (fun e => by subst e; exact absurd h12 (by decide)), sysValue_kfeat _ h12]

/-- Settles O22: the forms of MTSR parted by what user mode may reach and what `mtsrIgnored` names; EST needs no mode. -/
theorem systemWrites : Obligations.SystemWrites := by
  unfold Obligations.SystemWrites
  intro s a k m
  refine ⟨fun hu hk => exec_mtsr_priv hu hk, fun hu hk => ?_, fun hk => ?_, fun hk => ?_, exec_est, exec_estI m⟩
  · have split : (¬ (k = 2 ∨ k = 3)) ∧ mtsrIgnored k false = true := by rcases hk with rfl | rfl | rfl | rfl <;> decide
    exact exec_mtsr_ignored (fun h => absurd h split.1) (hu ▸ split.2)
  · have ign : (k == 5#6 || k == 7#6 || k == 10#6 || decide (12#6 ≤ k)) = true := by
      rcases hk with rfl | rfl | rfl | ⟨h, -⟩
      · decide
      · decide
      · decide
      · have : 12#6 ≤ k := BitVec.le_def.mpr h
        simp [this]
    refine exec_mtsr_ignored (fun h => ?_) (by rw [mtsrIgnored, ign, Bool.true_or])
    rcases h with rfl | rfl
    · exact absurd ign (by decide)
    · exact absurd ign (by decide)
  · rcases hk with rfl | ⟨rfl, -⟩ | ⟨hs, hk⟩
    · exact exec_mtsr (fun h => absurd h (by decide)) (by cases s.focus.super <;> decide)
    · exact exec_mtsr (fun h => absurd h (by decide)) (by cases s.focus.super <;> decide)
    · refine exec_mtsr (fun _ => hs) ?_
      rw [hs]; rcases hk with rfl | rfl | rfl | rfl | rfl | rfl <;> decide

end Sys2Proof.Machine
end

section
/-! PROOFS. What follows a bundle (03_core R62, 01_package R32): the charge and the barrier aside, the delay slots of a pending branch are counted and the
program counter moves on. -/
namespace Sys2Proof.Machine

/-- The context without what the charge of a cycle and a barrier left behind change of it. -/
def Ctx.begun (c : Ctx) : Ctx := { c with kest := 0, barrGo := [] }

/-- A field that neither touches. -/
theorem Ctx.field_of_begun {α : Type} {c d : Ctx} (f : Ctx → α) (hf : ∀ c, f c.begun = f c) (h : c.begun = d.begun) : f c = f d := by
  rw [← hf c, h, hf]

/-- A field of the focus that accesses leave alone. -/
theorem Focus.field_of_apart {α : Type} {g k : Focus} (f : Focus → α) (hf : ∀ g, f g.apart = f g) (h : g.apart = k.apart) : f g = f k := by
  rw [← hf g, h, hf]

/-- One delay slot fewer. -/
def Ctx.countDelay (c : Ctx) : Ctx := { c with dsRem := if c.brPend then c.dsRem - 1 else c.dsRem }

/-- The program counter moves on: to a branch's target behind its delay slots, else straight. -/
def Ctx.goTo (straight : Word) (c : Ctx) : Ctx :=
  let c := { c with stalled := false, micro := none }
  if c.brPend && c.dsRem == 0 then { c with pc := c.brTgt, tgtFrom := some c.brFrom, brPend := false }
  else { c with pc := straight, tgtFrom := none }

namespace Work
variable {w : Work}

theorem goTo_eq (w : Work) (a : Word) : w.goTo a = w.modMe (Ctx.goTo a) := rfl

theorem ctx_modInst (w : Work) (id : Nat) (f : Inst → Inst) (n k : Nat) : (w.modInst id f).ctx n k = w.ctx n k := rfl

/-- The charge of a cycle on one rill's estimate. -/
def lowerEst (id : Nat) (w : Work) (r : Rill) : Work :=
  if r.ended then w else w.modCtx r.core r.ctx fun c => if c.inst = id ∧ c.kest ≠ 0 then { c with kest := c.kest - 1 } else c

theorem charge_cases (w : Work) (id : Nat) : w.charge id = w ∨ ∃ (f : Inst → Inst) (l : List Rill), w.charge id = l.foldl (lowerEst id) (w.modInst id f) := by
  unfold charge
  split
  · exact .inl rfl
  · split
    · exact .inl rfl
    · exact .inr ⟨_, _, rfl⟩

theorem lowerEst_ctx (id : Nat) (w : Work) (r : Rill) (n k : Nat) : ((lowerEst id w r).ctx n k).begun = (w.ctx n k).begun := by
  unfold lowerEst
  split
  · rfl
  · rw [ctx_modCtx]
    split
    · split <;> rfl
    · rfl

theorem lowerEst_focus (id : Nat) (w : Work) (r : Rill) : (lowerEst id w r).focus = w.focus := by unfold lowerEst; split <;> rfl

/-- The charge lowers estimates alone. -/
theorem charge_ctx (w : Work) (id n k : Nat) : ((w.charge id).ctx n k).begun = (w.ctx n k).begun := by
  obtain h | ⟨f, l, h⟩ := charge_cases w id
  · rw [h]
  · rw [h, foldl_keeps (fun v : Work => (v.ctx n k).begun) (fun v r => lowerEst_ctx id v r n k) l, ctx_modInst]

theorem charge_focus (w : Work) (id : Nat) : (w.charge id).focus = w.focus := by
  obtain h | ⟨f, l, h⟩ := charge_cases w id
  · rw [h]
  · rw [h, foldl_keeps (fun v : Work => v.focus) (lowerEst_focus id) l]
    rfl

theorem forgetBarrier_focus (w : Work) : w.forgetBarrier.focus.apart = w.focus.apart := by
  unfold forgetBarrier
  split
  · rfl
  · dsimp only
    split <;> rfl

theorem forgetBarrier_me (w : Work) : w.forgetBarrier.me.begun = w.me.begun := by
  unfold forgetBarrier
  split
  · rfl
  · dsimp only
    split
    · rfl
    · rw [me_modMe]; rfl

/-- Before a bundle's end moves on: the cycle charged, and a barrier left behind forgotten. -/
theorem begin_finish (w : Work) (id : Nat) : let v := (w.charge id).forgetBarrier
    v.me.begun = w.me.begun ∧ v.focus.apart = w.focus.apart := by
  intro v
  have hf : (w.charge id).focus = w.focus := charge_focus w id
  constructor
  · rw [forgetBarrier_me, me, hf]
    exact charge_ctx w id _ _
  · rw [forgetBarrier_focus, hf]

/-- The code address that stands next behind a bundle, where its slots have left the focus `fc`. -/
def standsNext (w : Work) (fc : Focus) : Word × Work :=
  match fc.redirect with
  | some a => (a, w)
  | none => if w.me.loop.levels.isEmpty then (fc.nextAddr.getD w.me.pc, w) else w.loopNext

/-- What the end of a bundle does once the cycle is charged. -/
def moveOn (w : Work) (id : Nat) (rft : Bool) : Work :=
  if w.me.inst ≠ id || w.focus.ending || (rft && w.focus.redirect.isSome && w.focus.trap.isNone) then w
  else
    let x := (if w.focus.branch.isSome then w else w.modMe Ctx.countDelay).standsNext w.focus
    match w.focus.trap with
    | some r => if (x.2.enterSlotTrap r).me.inst = id then (x.2.enterSlotTrap r).modMe fun c => { c with trapNext := x.1 } else x.2.enterSlotTrap r
    | none => x.2.goTo x.1

theorem finishBundle_eq (w : Work) (id : Nat) (rft : Bool) : w.finishBundle id rft = ((w.charge id).forgetBarrier).moveOn id rft := rfl

/-- After a bundle with neither branch nor trap the program counter moves on to the address that stands next. -/
theorem moveOn_eq {a : Word} (he : w.focus.ending = false) (hb : w.focus.branch = none) (ht : w.focus.trap = none)
    (hn : w.focus.redirect = some a ∨ w.focus.redirect = none ∧ w.me.loop.levels = [] ∧ w.focus.nextAddr = some a) :
    w.moveOn w.me.inst false = (w.modMe Ctx.countDelay).goTo a := by
  have levels : (w.modMe Ctx.countDelay).me.loop.levels = w.me.loop.levels := by rw [me_modMe]; rfl
  have next : (w.modMe Ctx.countDelay).standsNext w.focus = (a, w.modMe Ctx.countDelay) := by
    unfold standsNext
    rw [levels]
    rcases hn with h | ⟨h, hl, ha⟩
    · rw [h]
    · rw [h, hl, ha]; rfl
  unfold moveOn
  rw [if_neg (by simp [he]), if_neg (by simp [hb]), ht]
  dsimp only
  rw [next]

theorem finishBundle_me {a : Word} (he : w.focus.ending = false) (hb : w.focus.branch = none) (ht : w.focus.trap = none)
    (hn : w.focus.redirect = some a ∨ w.focus.redirect = none ∧ w.me.loop.levels = [] ∧ w.focus.nextAddr = some a) :
    ∃ c : Ctx, c.begun = w.me.begun ∧ (w.finishBundle w.me.inst false).me = c.countDelay.goTo a := by
  obtain ⟨hme, hfoc⟩ := begin_finish w w.me.inst
  rw [finishBundle_eq]
  generalize (w.charge w.me.inst).forgetBarrier = v at hme hfoc ⊢
  have inst : v.me.inst = w.me.inst := Ctx.field_of_begun (·.inst) (fun _ => rfl) hme
  have levels : v.me.loop.levels = w.me.loop.levels := Ctx.field_of_begun (·.loop.levels) (fun _ => rfl) hme
  have ending := Focus.field_of_apart (·.ending) (fun _ => rfl) hfoc
  have branch := Focus.field_of_apart (·.branch) (fun _ => rfl) hfoc
  have trap := Focus.field_of_apart (·.trap) (fun _ => rfl) hfoc
  have redirect := Focus.field_of_apart (·.redirect) (fun _ => rfl) hfoc
  have next := Focus.field_of_apart (·.nextAddr) (fun _ => rfl) hfoc
  rw [← ending] at he
  rw [← branch] at hb
  rw [← trap] at ht
  rw [← redirect, ← levels, ← next] at hn
  refine ⟨v.me, hme, ?_⟩
  rw [← inst, moveOn_eq he hb ht hn, goTo_eq, me_modMe, me_modMe]

end Work

/-- What a step leaves of the contexts is what its work holds. -/
theorem lift_ctx (f : Work → Work) (s : State) (n k : Nat) : (lift f s).work.ctx n k = (f s.work).ctx n k := rfl
theorem lift_me (f : Work → Work) (s : State) : (lift f s).work.me = (f s.work).me := rfl

/-- Settles O16: the end of the bundle counts one delay slot, then moves on. -/
theorem delaySlots : Obligations.DelaySlots := by
  unfold Obligations.DelaySlots
  intro s next c t he hb hr ht hn hl
  obtain ⟨x, hx, hme⟩ := Work.finishBundle_me (w := s.work) (a := next) he hb ht (.inr ⟨hr, hl, hn⟩)
  have me : t.work.me = x.countDelay.goTo next := (lift_me _ s).trans hme
  have pend : x.brPend = c.brPend := Ctx.field_of_begun (·.brPend) (fun _ => rfl) hx
  have rem : x.dsRem = c.dsRem := Ctx.field_of_begun (·.dsRem) (fun _ => rfl) hx
  have tgt : x.brTgt = c.brTgt := Ctx.field_of_begun (·.brTgt) (fun _ => rfl) hx
  rw [me]
  refine ⟨fun h => ?_, fun h h2 => ?_, fun h h1 => ?_⟩
  · simp [Ctx.goTo, Ctx.countDelay, pend, h]
  · simp [Ctx.goTo, Ctx.countDelay, pend, rem, h, h2, tgt]
  · simp [Ctx.goTo, Ctx.countDelay, pend, rem, h, h1, tgt]

end Sys2Proof.Machine
end

section
/-! PROOFS. Results land (03_core R55, R56, R60, R75 to R77, R480, 02_execution R39): what one result does to its context, the order of several, and the context of
a rill that has ended. -/
namespace Sys2Proof.Machine
open Sys2Proof.Claim

/-! ## One result -/

/-- What landing leaves of a context: whether it runs, waits or has ended, and what is still in flight. -/
def Ctx.standing (c : Ctx) : CtxState × Option BlockReason × Nat × List InFlight × Bool := (c.st, c.block, c.inst, c.inflight, c.resumed)

/-- A result that is no system register's lands in its context. -/
def Ctx.land (c : Ctx) (f : InFlight) : Ctx :=
  let lo : Word := field f.value 0 64
  let c := match f.kind with
    | .sReg => { c with s := setNth c.s f.reg lo }
    | .aReg => { c with a := setNth c.a f.reg lo }
    | .pReg => { c with p := (c.p &&& ~~~(1#16 <<< f.reg)) ||| (if lo.getLsbD 0 then 1#16 <<< f.reg else 0) }
    | .vReg => { c with v := setNth c.v f.reg f.value }
    | .qReg => { c with q := setNth c.q f.reg (field f.value 0 128) }
    | .gReg => { c with g := setNth c.g f.reg ⟨lo, field f.value 64 64, field f.value 128 64⟩ }
    | .gPos => { c with g := setNth c.g f.reg { nth c.g f.reg with pos := lo } }
    | .gBase => { c with g := setNth c.g f.reg { nth c.g f.reg with base := (nth c.g f.reg).base + lo } }
    | .xaccOp => (c.xaccLand f.xtra lo (field f.value 64 64)).1.addFlags (c.xaccLand f.xtra lo (field f.value 64 64)).2 0
    | .sysReg | .flagsOnly => c
  c.addFlags f.flags f.xtra

theorem snanFlag_getLsbD (vs : List FVal) : (snanFlag vs).getLsbD 0 = false := by unfold snanFlag; split <;> decide

/-- What a finite product adds to the exact accumulator, in units of 2^-2148. -/
def xaccTerm (v : FVal) : Int :=
  let k := v.dyadic.exp + 2148
  if 0 ≤ k then v.dyadic.num * 2 ^ k.toNat else v.dyadic.num / 2 ^ (-k).toNat

/-- A sum that the exact accumulator does not hold raises OF. -/
def xaccOver (s : Int) : Flags := if s < -(2 ^ 4351 : Int) ∨ (2 ^ 4351 : Int) ≤ s then flOf else 0

/-- The exact accumulator takes a product, with the flag that its operands raise. -/
def Ctx.xaccTake (c : Ctx) (sn : Flags) : Option FVal → Ctx × Flags
  | none => ({ c with xclass := 3 }, flNv ||| sn)
  | some (.nan _) => ({ c with xclass := 3 }, sn)
  | some (.inf neg) =>
    if c.xclass = 3#2 then (c, sn)
    else if c.xclass = (if neg then 1#2 else 2#2) then ({ c with xclass := 3 }, flNv ||| sn)
    else ({ c with xclass := if neg then 2#2 else 1#2 }, sn)
  | some v =>
    if c.xclass ≠ 0#2 then (c, sn)
    else
      ({ c with xacc := BitVec.ofInt 4352 (c.xval + xaccTerm v) }, sn ||| xaccOver (c.xval + xaccTerm v))

theorem xaccLand_zero (c : Ctx) (a b : Word) : c.xaccLand 0 a b = ({ c with xacc := 0, xclass := 0 }, 0) := by rw [Ctx.xaccLand, if_pos rfl]

theorem xaccLand_take {op : Word} (h : op ≠ 0) (a b : Word) :
    ∃ (m : Option FVal) (sn : Flags), sn.getLsbD 0 = false ∧ ∀ c : Ctx, c.xaccLand op a b = c.xaccTake sn m := by
  let x := fp64.value a.toNat
  let y := if op = 1 then fp64.value b.toNat else fp64.value 0x3FF0000000000000
  refine ⟨mulVal x y, if op = 1 then snanFlag [x, y] else snanFlag [x], ?_, fun c => ?_⟩
  · split <;> exact snanFlag_getLsbD _
  · rw [Ctx.xaccLand, if_neg h]
    rfl

/-- It changes nothing but itself, by what it holds, and raises NV and OF alone. -/
theorem xaccTake_cases {sn : Flags} (hs : sn.getLsbD 0 = false) (m : Option FVal) (c : Ctx) :
    ∃ x k fl, fl.getLsbD 0 = false ∧ ∀ fs, ({ c with inflight := fs } : Ctx).xaccTake sn m = ({ c with inflight := fs, xacc := x, xclass := k }, fl) := by
  have hn : (flNv ||| sn).getLsbD 0 = false := by rw [BitVec.getLsbD_or, hs]; decide
  match m with
  | none => exact ⟨_, _, _, hn, fun _ => rfl⟩
  | some (.nan _) => exact ⟨_, _, _, hs, fun _ => rfl⟩
  | some (.inf neg) =>
    by_cases h3 : c.xclass = 3#2
    · exact ⟨_, _, _, hs, fun _ => if_pos h3⟩
    · by_cases hc : c.xclass = if neg then 1#2 else 2#2
      · exact ⟨_, _, _, hn, fun _ => (if_neg h3).trans (if_pos hc)⟩
      · exact ⟨_, _, _, hs, fun _ => (if_neg h3).trans (if_neg hc)⟩
  | some (.fin neg sig exp) =>
    by_cases h0 : c.xclass ≠ 0#2
    · exact ⟨_, _, _, hs, fun _ => if_pos h0⟩
    · refine ⟨BitVec.ofInt 4352 (c.xval + xaccTerm (.fin neg sig exp)), c.xclass,
        sn ||| xaccOver (c.xval + xaccTerm (.fin neg sig exp)), ?_, fun _ => if_neg h0⟩
      rw [BitVec.getLsbD_or, hs, Bool.false_or]
      unfold xaccOver
      split <;> decide

theorem xaccLand_cases (c : Ctx) (op a b : Word) :
    ∃ x k fl, fl.getLsbD 0 = false ∧ ∀ fs, ({ c with inflight := fs } : Ctx).xaccLand op a b = ({ c with inflight := fs, xacc := x, xclass := k }, fl) := by
  by_cases h : op = 0
  · subst h
    exact ⟨0, 0, 0, rfl, fun _ => xaccLand_zero ..⟩
  · obtain ⟨m, sn, hs, hm⟩ := xaccLand_take h a b
    obtain ⟨x, k, fl, hf, hx⟩ := xaccTake_cases hs m c
    exact ⟨x, k, fl, hf, fun fs => (hm _).trans (hx fs)⟩

theorem xaccLand_standing (c : Ctx) (op a b : Word) : (c.xaccLand op a b).1.standing = c.standing := by
  obtain ⟨x, k, fl, -, h⟩ := xaccLand_cases c op a b
  have hc : c.xaccLand op a b = ({ c with xacc := x, xclass := k }, fl) := h c.inflight
  rw [hc]; rfl

theorem addFlags_standing (c : Ctx) (fl : Flags) (a : Word) : (c.addFlags fl a).standing = c.standing := rfl

theorem land_standing (c : Ctx) (f : InFlight) : (c.land f).standing = c.standing := by
  unfold Ctx.land
  cases f.kind with
  | xaccOp => exact xaccLand_standing ..
  | _ => rfl

namespace Work

section
variable {w : Work} {n i : Nat} {f : InFlight}

/-- Landing is made of changes of the context that leave what stands there, and of the instance's. -/
theorem landOne_keeps {β : Type} (g : Work → β) (hm : ∀ v h, (∀ c : Ctx, (h c).standing = c.standing) → g (modCtx v n i h) = g v)
    (hi : ∀ v id h, g (modInst v id h) = g v) (w : Work) (f : InFlight) : g (w.landOne n i f) = g w := by
  have sys (w : Work) (r : Nat) (v : Word) : g (w.sysLand n i r v) = g w := by
    unfold sysLand
    have hc {h : Ctx → Ctx} (hh : ∀ c, (h c).standing = c.standing) : g (w.modCtx n i h) = g w := hm w h hh
    split_ifs
    exacts [hc fun _ => rfl, hc fun _ => rfl, hc fun _ => rfl, hc fun _ => rfl, hi .., hi .., hc fun _ => rfl, hc fun _ => rfl, hc fun _ => rfl, rfl]
  unfold landOne
  refine (hm _ (·.addFlags f.flags f.xtra) fun c => addFlags_standing c ..).trans ?_
  cases f.kind with
  | sysReg => exact sys ..
  | flagsOnly => rfl
  | xaccOp => exact hm _ _ fun c => xaccLand_standing ..
  | _ => exact hm _ _ fun _ => rfl

theorem ctx_modCtx_modCtx (w : Work) (n i : Nat) (f g : Ctx → Ctx) (m j : Nat) :
    ((w.modCtx n i f).modCtx n i g).ctx m j = (w.modCtx n i fun c => g (f c)).ctx m j := by
  rw [ctx_modCtx, ctx_modCtx, ctx_modCtx]
  split <;> rfl

theorem landOne_ctx (h : f.kind ≠ .sysReg) (m j : Nat) : (w.landOne n i f).ctx m j = (w.modCtx n i fun c => c.land f).ctx m j := by
  unfold landOne Ctx.land
  cases hk : f.kind with
  | sysReg => exact absurd hk h
  | flagsOnly => rfl
  | _ => exact ctx_modCtx_modCtx ..

/-- Results that are no system registers', one after the other. -/
theorem foldl_landOne_ctx {l : List InFlight} (h : ∀ f ∈ l, f.kind ≠ .sysReg) (w : Work) :
    (l.foldl (fun w f => w.landOne n i f) w).ctx n i = l.foldl Ctx.land (w.ctx n i) := by
  induction l generalizing w with
  | nil => rfl
  | cons f l ih =>
    rw [List.foldl_cons, ih (fun f hf => h f (List.mem_cons_of_mem _ hf)), landOne_ctx (h f List.mem_cons_self), ctx_modCtx_same, List.foldl_cons]

/-! ## The results that are due -/

/-- Is a result due? -/
def isDue (w : Work) (f : InFlight) : Bool := decide (f.land ≤ w.cycle)

theorem landWhere_eq (w : Work) (n i : Nat) (due : InFlight → Bool) : w.landWhere n i due =
    (sortBy landsBefore ((w.ctx n i).inflight.filter due)).foldl (fun w f => w.landOne n i f)
      (w.modCtx n i fun c => { c with inflight := (w.ctx n i).inflight.filter fun f => !due f }) := rfl

theorem landWhere_keeps {β : Type} (g : Work → β) (hm : ∀ v h, g (modCtx v n i h) = g v) (hi : ∀ v id h, g (modInst v id h) = g v) (w : Work)
    (due : InFlight → Bool) : g (w.landWhere n i due) = g w := by
  rw [landWhere_eq, foldl_keeps g fun v f => landOne_keeps g (fun v h _ => hm v h) hi v f]
  exact hm ..

/-- What stands in a context once results have landed: those that were not due are still in flight. -/
theorem landWhere_standing (w : Work) (due : InFlight → Bool) :
    ((w.landWhere n i due).ctx n i).standing = ({ w.ctx n i with inflight := (w.ctx n i).inflight.filter fun f => !due f } : Ctx).standing := by
  rw [landWhere_eq, foldl_keeps (fun v : Work => (v.ctx n i).standing) fun v f =>
    landOne_keeps (fun v : Work => (v.ctx n i).standing) (fun v h hh => by rw [ctx_modCtx_same, hh]) (fun _ _ _ => rfl) v f]
  rw [ctx_modCtx_same]

theorem landWhere_ctx {due : InFlight → Bool} (h : ∀ f ∈ (w.ctx n i).inflight.filter due, f.kind ≠ .sysReg) : (w.landWhere n i due).ctx n i =
    (sortBy landsBefore ((w.ctx n i).inflight.filter due)).foldl Ctx.land { w.ctx n i with inflight := (w.ctx n i).inflight.filter fun f => !due f } := by
  rw [landWhere_eq, foldl_landOne_ctx (fun f hf => h f (mem_sortBy.mp hf)), ctx_modCtx_same]

theorem landDue_of_resumed (h : (w.ctx n i).resumed = true) : w.landDue n i = w := by rw [landDue, if_pos h]

/-- Has the rill of a context ended, and nothing is left in flight that its context waits for (R39)? -/
def endsWith (w : Work) (c : Ctx) : Prop := c.st = .blocked ∧ c.block = none ∧ (c.inflight.filter fun f => !w.isDue f).all (·.interlocked) = true ∧ c.inst ≠ 0

/-- A context that holds no rill any more, where it waited for no handle. -/
def idled (w : Work) (n i : Nat) : Work := (match w.inst? (w.ctx n i).inst with | some x => w.undefer x.part | none => w).freeCtx n i

theorem endsWith_iff : ((w.landWhere n i w.isDue |>.ctx n i).st = .blocked ∧ (w.landWhere n i w.isDue |>.ctx n i).block = none ∧
      (w.landWhere n i w.isDue |>.ctx n i).inflight.all (·.interlocked) ∧ (w.landWhere n i w.isDue |>.ctx n i).inst ≠ 0) ↔ w.endsWith (w.ctx n i) := by
  have hs := landWhere_standing (n := n) (i := i) w w.isDue
  simp only [Ctx.standing, Prod.mk.injEq] at hs
  obtain ⟨st, block, inst, inflight, -⟩ := hs
  rw [st, block, inst, inflight]
  rfl

section
variable (hr : (w.ctx n i).resumed = false)
include hr

theorem landDue_eq : w.landDue n i = if (w.landWhere n i w.isDue |>.ctx n i).st = .blocked ∧ (w.landWhere n i w.isDue |>.ctx n i).block = none ∧
      (w.landWhere n i w.isDue |>.ctx n i).inflight.all (·.interlocked) ∧ (w.landWhere n i w.isDue |>.ctx n i).inst ≠ 0
    then (w.landWhere n i w.isDue).idled n i else w.landWhere n i w.isDue := by
  rw [landDue, if_neg (by rw [hr]; decide)]
  rfl

theorem landDue_of_stays (h : ¬ w.endsWith (w.ctx n i)) : w.landDue n i = w.landWhere n i w.isDue := by
  rw [landDue_eq hr, if_neg (mt endsWith_iff.mp h)]

theorem landDue_of_ends (h : w.endsWith (w.ctx n i)) : w.landDue n i = (w.landWhere n i w.isDue).idled n i := by
  rw [landDue_eq hr, if_pos (endsWith_iff.mpr h)]

end
end

/-- The end of a rill leaves the registers of its context. -/
theorem idled_ctx {w : Work} {n i : Nat} (hb : (w.ctx n i).block = none) :
    ((w.idled n i).ctx n i).st = .idle ∧ ((w.idled n i).ctx n i).inst = 0 ∧ ((w.idled n i).ctx n i).inflight = [] ∧
      ((w.idled n i).ctx n i).s = (w.ctx n i).s := by
  obtain ⟨v, hi, hv⟩ : ∃ v : Work, w.idled n i = v.freeCtx n i ∧ v.ctx n i = w.ctx n i := by
    refine ⟨_, rfl, ?_⟩
    split <;> rfl
  have hf : v.freeCtx n i = v.modCtx n i fun c =>
      { c with st := .idle, inst := 0, inflight := [], block := none, held := [], micro := none, woken := none, hres := none,
               relPending := false, stalled := false, resumed := false, barrDead := false, barrGo := [] } := by
    unfold freeCtx
    rw [hv, hb]
  rw [hi, hf, ctx_modCtx_same, hv]
  exact ⟨rfl, rfl, rfl, rfl⟩

theorem idled_keeps {β : Type} (g : Work → β) (hm : ∀ v h, g (modCtx v n i h) = g v) (hp : ∀ v p h, g (modPart v p h) = g v)
    {w : Work} (hb : (w.ctx n i).block = none) : g (w.idled n i) = g w := by
  obtain ⟨v, hi, hv, hg⟩ : ∃ v : Work, w.idled n i = v.freeCtx n i ∧ v.ctx n i = w.ctx n i ∧ g v = g w := by
    refine ⟨_, rfl, ?_, ?_⟩
    · split <;> rfl
    · split
      · exact hp ..
      · rfl
  rw [hi, ← hg]
  unfold freeCtx
  rw [hv, hb]
  exact hm ..

/-! ## The focused context's results -/

/-- Where landing leaves the focused context's registers. -/
def landed (w : Work) : Ctx := (w.landWhere w.focus.core w.focus.ctx w.isDue).ctx w.focus.core w.focus.ctx

/-- Results land in their own context: nothing is written, and no other context changes. -/
theorem landDue_me_of_stays {w : Work} (hr : w.me.resumed = false) (h : ¬ w.endsWith w.me) :
    (w.landDue w.focus.core w.focus.ctx).log = w.log ∧
    (∀ n k, n ≠ w.focus.core ∨ k % 4 ≠ w.focus.ctx % 4 → (w.landDue w.focus.core w.focus.ctx).ctx n k = w.ctx n k) ∧
    (w.landDue w.focus.core w.focus.ctx).me = w.landed := by
  rw [landDue_of_stays hr h]
  refine ⟨?_, fun n k hk => ?_, ?_⟩
  · exact landWhere_keeps (·.log) (fun _ _ => rfl) (fun _ _ _ => rfl) ..
  · exact landWhere_keeps (·.ctx n k) (fun v f => ctx_modCtx_other v f (hk.imp_right Ne.symm)) (fun _ _ _ => rfl) ..
  · have hf := landWhere_keeps (·.focus) (n := w.focus.core) (i := w.focus.ctx) (fun _ _ => rfl) (fun _ _ _ => rfl) w w.isDue
    rw [landed, me, hf]

/-- A context whose rill has ended is idle. -/
theorem landDue_me_of_ends {w : Work} (hr : w.me.resumed = false) (h : w.endsWith w.me) :
    (w.landDue w.focus.core w.focus.ctx).log = w.log ∧ (w.landDue w.focus.core w.focus.ctx).me.st = .idle ∧
    (w.landDue w.focus.core w.focus.ctx).me.inst = 0 ∧ (w.landDue w.focus.core w.focus.ctx).me.inflight = [] ∧
    (w.landDue w.focus.core w.focus.ctx).me.s = w.landed.s := by
  have hs := landWhere_standing (n := w.focus.core) (i := w.focus.ctx) w w.isDue
  have hb : w.landed.block = none := (congrArg (·.2.1) hs).trans h.2.1
  have hf : ((w.landWhere w.focus.core w.focus.ctx w.isDue).idled w.focus.core w.focus.ctx).focus = w.focus :=
    (idled_keeps (·.focus) (fun _ _ => rfl) (fun _ _ _ => rfl) hb).trans <| landWhere_keeps (·.focus) (fun _ _ => rfl) (fun _ _ _ => rfl) ..
  have hg : ((w.landWhere w.focus.core w.focus.ctx w.isDue).idled w.focus.core w.focus.ctx).log = w.log :=
    (idled_keeps (·.log) (fun _ _ => rfl) (fun _ _ _ => rfl) hb).trans <| landWhere_keeps (·.log) (fun _ _ => rfl) (fun _ _ _ => rfl) ..
  rw [landDue_of_ends hr h, me, hf]
  exact ⟨hg, idled_ctx hb⟩

/-- The register of a system takes another way: what lands in no such register lands in the context itself. -/
theorem landed_eq {w : Work} (h : ∀ f ∈ w.me.inflight.filter w.isDue, f.kind ≠ .sysReg) :
    w.landed = (sortBy landsBefore (w.me.inflight.filter w.isDue)).foldl Ctx.land { w.me with inflight := w.me.inflight.filter fun f => !w.isDue f } :=
  landWhere_ctx h

theorem landed_inflight (w : Work) : w.landed.inflight = w.me.inflight.filter fun f => !w.isDue f :=
  congrArg (·.2.2.2.1) (landWhere_standing w w.isDue)

section
variable {w : Work} {f : InFlight} (hf : w.me.inflight = [f])
include hf

/-- One that is not due stays. -/
theorem landed_of_waiting (h : w.cycle < f.land) : w.landed = w.me := by
  have hd : w.isDue f = false := decide_eq_false (Nat.not_le.mpr h)
  have hn : w.me.inflight.filter w.isDue = [] := by rw [hf, List.filter_singleton, hd]; rfl
  have hk : (w.me.inflight.filter fun f => !w.isDue f) = w.me.inflight := by rw [hf, List.filter_singleton, hd]; rfl
  rw [landed_eq (by rw [hn]; exact fun _ h => absurd h List.not_mem_nil), hn, hk]
  rfl

/-- A rill ends with its last result, and does not wait for an interlocked one. -/
theorem endsWith_of_single (hst : w.me.st = .blocked) (hb : w.me.block = none) (hn : w.me.inst ≠ 0) (h : f.land ≤ w.cycle ∨ f.interlocked = true) :
    w.endsWith w.me := by
  refine ⟨hst, hb, ?_, hn⟩
  rw [hf, List.filter_singleton]
  rcases h with h | h
  · rw [isDue, decide_eq_true h]; rfl
  · cases w.isDue f
    · exact (Bool.and_true _).trans h
    · rfl

theorem interlocked_of_endsWith (hw : ¬ f.land ≤ w.cycle) (h : w.endsWith w.me) : f.interlocked = true := by
  obtain ⟨-, -, hall, -⟩ := h
  rw [hf, List.filter_singleton, isDue, decide_eq_false hw] at hall
  exact (Bool.and_true _).symm.trans hall

theorem landed_of_due (hk : f.kind ≠ .sysReg) (h : f.land ≤ w.cycle) : w.landed = Ctx.land { w.me with inflight := [] } f := by
  have hd : w.isDue f = true := decide_eq_true h
  have hn : w.me.inflight.filter w.isDue = [f] := by rw [hf, List.filter_singleton, hd]; rfl
  have hr : (w.me.inflight.filter fun f => !w.isDue f) = [] := by rw [hf, List.filter_singleton, hd]; rfl
  rw [landed_eq (by rw [hn]; exact fun g hg => List.mem_singleton.mp hg ▸ hk), hn, hr]
  rfl
end
end Work

/-! ## Landing as an instruction -/

section
variable {s : State}

theorem exec_resultLand (s : State) : exec .resultLand s = .next (lift (fun w => w.landDue w.focus.core w.focus.ctx) s) := rfl

theorem exec_resultLand_of_resumed (h : s.work.me.resumed = true) : exec .resultLand s = .next s :=
  (exec_resultLand s).trans (congrArg _ (lift_eq_self (Work.landDue_of_resumed h)))

theorem exec_resultLand_of_stays (hr : s.work.me.resumed = false) (h : ¬ s.work.endsWith s.work.me) : ∃ t, exec .resultLand s = .next t ∧ t.mem = s.mem ∧
    (∀ n k, n ≠ s.focus.core ∨ k % 4 ≠ s.focus.ctx % 4 → t.work.ctx n k = s.work.ctx n k) ∧ t.work.me = s.work.landed := by
  obtain ⟨hl, ho, hm⟩ := Work.landDue_me_of_stays hr h
  exact ⟨_, exec_resultLand s, lift_mem_of_log hl, fun n k hk => (lift_ctx _ s n k).trans (ho n k hk), (lift_me _ s).trans hm⟩

theorem exec_resultLand_of_ends (hr : s.work.me.resumed = false) (h : s.work.endsWith s.work.me) : ∃ t, exec .resultLand s = .next t ∧ t.mem = s.mem ∧
    t.work.me.st = .idle ∧ t.work.me.inst = 0 ∧ t.work.me.inflight = [] ∧ t.work.me.s = s.work.landed.s := by
  obtain ⟨hl, hst, hi, hn, hs⟩ := Work.landDue_me_of_ends hr h
  have hm := lift_me (fun w => w.landDue w.focus.core w.focus.ctx) s
  exact ⟨_, exec_resultLand s, lift_mem_of_log hl, (congrArg Ctx.st hm).trans hst, (congrArg Ctx.inst hm).trans hi,
    (congrArg Ctx.inflight hm).trans hn, (congrArg Ctx.s hm).trans hs⟩
end

/-! ## One result in flight, of each kind -/

/-- The context once a result in flight alone has landed, but for what its kind changes. -/
def Ctx.flagged (c : Ctx) (f : InFlight) : Ctx :=
  { c with inflight := [], kstat := c.kstat ||| (f.flags.setWidth 64 <<< 8), ktsoa := if f.flags.getLsbD 0 && !c.kstat.getLsbD 8 then f.xtra else c.ktsoa }

section
variable (c : Ctx) {f : InFlight}

theorem land_sReg (h : f.kind = .sReg) : Ctx.land { c with inflight := [] } f = { c.flagged f with s := setNth c.s f.reg (field f.value 0 64) } := by
  rw [Ctx.land, h]; rfl
theorem land_aReg (h : f.kind = .aReg) : Ctx.land { c with inflight := [] } f = { c.flagged f with a := setNth c.a f.reg (field f.value 0 64) } := by
  rw [Ctx.land, h]; rfl
theorem land_vReg (h : f.kind = .vReg) : Ctx.land { c with inflight := [] } f = { c.flagged f with v := setNth c.v f.reg f.value } := by
  rw [Ctx.land, h]; rfl
theorem land_qReg (h : f.kind = .qReg) : Ctx.land { c with inflight := [] } f = { c.flagged f with q := setNth c.q f.reg (field f.value 0 128) } := by
  rw [Ctx.land, h]; rfl
theorem land_gReg (h : f.kind = .gReg) : Ctx.land { c with inflight := [] } f =
    { c.flagged f with g := setNth c.g f.reg ⟨field f.value 0 64, field f.value 64 64, field f.value 128 64⟩ } := by
  rw [Ctx.land, h]; rfl
theorem land_gPos (h : f.kind = .gPos) : Ctx.land { c with inflight := [] } f =
    { c.flagged f with g := setNth c.g f.reg { nth c.g f.reg with pos := field f.value 0 64 } } := by
  rw [Ctx.land, h]; rfl
theorem land_gBase (h : f.kind = .gBase) : Ctx.land { c with inflight := [] } f =
    { c.flagged f with g := setNth c.g f.reg { nth c.g f.reg with base := (nth c.g f.reg).base + field f.value 0 64 } } := by
  rw [Ctx.land, h]; rfl
theorem land_flagsOnly (h : f.kind = .flagsOnly) : Ctx.land { c with inflight := [] } f = c.flagged f := by
  rw [Ctx.land, h]; rfl

/-- A predicate register takes the lowest bit alone. -/
theorem land_pReg (h : f.kind = .pReg) : ∃ p, Ctx.land { c with inflight := [] } f = { c.flagged f with p := p } ∧
    ∀ j, j < 16 → p.getLsbD j = if j = f.reg then f.value.getLsbD 0 else c.p.getLsbD j := by
  refine ⟨_, by rw [Ctx.land, h]; rfl, fun j hj => ?_⟩
  have hone : (1#16 <<< f.reg).getLsbD j = decide (j = f.reg) := by
    rw [BitVec.getLsbD_shiftLeft, BitVec.getLsbD_one]
    grind
  have hlow : (field f.value 0 64 : Word).getLsbD 0 = f.value.getLsbD 0 := by
    simp [field]
  have hz : (0 : BitVec 16).getLsbD j = false := BitVec.getLsbD_zero
  dsimp only
  rw [hlow, BitVec.getLsbD_or, BitVec.getLsbD_and, BitVec.getLsbD_not, hone]
  by_cases he : j = f.reg
  · subst he
    cases f.value.getLsbD 0 <;> simp only [hone, hz, if_true, Bool.false_eq_true, if_false, decide_true, Bool.not_true, Bool.and_false, Bool.or_false, Bool.or_true]
  · cases f.value.getLsbD 0 <;> simp only [hone, hz, he, hj, if_true, Bool.false_eq_true, if_false, decide_true, decide_false, Bool.not_false, Bool.and_true, Bool.or_false]

/-- The exact accumulator's own flags come first; TSO is not among them. -/
theorem land_xaccOp (h : f.kind = .xaccOp) : Ctx.land { c with inflight := [] } f =
    let z := c.xaccLand f.xtra (field f.value 0 64) (field f.value 64 64)
    { c.flagged f with kstat := c.kstat ||| (f.flags.setWidth 64 <<< 8) ||| (z.2.setWidth 64 <<< 8), xacc := z.1.xacc, xclass := z.1.xclass } := by
  obtain ⟨x, k, fl, hfl, hx⟩ := xaccLand_cases c f.xtra (field f.value 0 64) (field f.value 64 64)
  have hc : c.xaccLand f.xtra (field f.value 0 64) (field f.value 64 64) = ({ c with xacc := x, xclass := k }, fl) := hx c.inflight
  have h8 : (c.kstat ||| (fl.setWidth 64 <<< 8)).getLsbD 8 = c.kstat.getLsbD 8 := by
    rw [BitVec.getLsbD_or, BitVec.getLsbD_shiftLeft, BitVec.getLsbD_setWidth, hfl, Bool.and_false, Bool.and_false, Bool.or_false]
  have hk : c.kstat ||| (fl.setWidth 64 <<< 8) ||| (f.flags.setWidth 64 <<< 8) = c.kstat ||| (f.flags.setWidth 64 <<< 8) ||| (fl.setWidth 64 <<< 8) :=
    by ac_rfl
  rw [Ctx.land, h]
  dsimp only
  rw [hx [], hc]
  simp only [Ctx.addFlags, Ctx.flagged, hfl, h8, hk, Bool.false_and, Bool.false_eq_true, if_false]
end

/-! ## Two results -/

open Work

theorem sortBy_pair {α : Type} (le : α → α → Bool) (x y : α) : sortBy le [x, y] = if le x y then [x, y] else [y, x] := rfl

/-- Of two results of one register the one that lands later stays. -/
theorem landed_pair {w : Work} {f g : InFlight} (hi : w.me.inflight = [f, g]) (hf : f.kind = .sReg) (hg : g.kind = .sReg) (hr : f.reg = g.reg)
    (df : f.land ≤ w.cycle) (dg : g.land ≤ w.cycle) (hs : f.seqNo < g.seqNo ∨ f.seqNo = g.seqNo ∧ f.slot < g.slot) :
    nth w.landed.s f.reg = if g.land < f.land then field f.value 0 64 else field g.value 0 64 := by
  have hd : w.me.inflight.filter w.isDue = [f, g] := by
    rw [hi, List.filter_eq_self]
    rintro x hx
    rcases List.mem_pair.mp hx with rfl | rfl
    · exact decide_eq_true df
    · exact decide_eq_true dg
  have ho : landsBefore f g = decide (¬ g.land < f.land) := by
    unfold landsBefore
    simp only [hf, hg]
    grind
  have hk : ∀ x ∈ w.me.inflight.filter w.isDue, x.kind ≠ .sysReg := by
    rw [hd]
    rintro x hx
    rcases List.mem_pair.mp hx with rfl | rfl
    · rw [hf]; decide
    · rw [hg]; decide
  have last (c : Ctx) {x : InFlight} (h : x.kind = .sReg) : nth (c.land x).s x.reg = field x.value 0 64 := by
    rw [Ctx.land, h]
    exact nth_setNth_same ..
  rw [Work.landed_eq hk, hd, sortBy_pair, ho]
  by_cases h : g.land < f.land
  · rw [if_pos h, if_neg (by simpa using h)]
    exact last _ hf
  · rw [if_neg h, if_pos (by simpa using h), hr]
    exact last _ hg

/-- Settles O13: each kind of result by what landing does to its context. -/
theorem resultLanding : Obligations.ResultLanding := by
  unfold Obligations.ResultLanding
  have stays {s : State} (h : s.work.me.st ≠ .blocked ∨ s.work.me.block ≠ none ∨ s.work.me.inst = 0) : ¬ s.work.endsWith s.work.me := by
    rintro ⟨hst, hb, -, hi⟩
    rcases h with h | h | h
    exacts [h hst, h hb, hi h]
  refine ⟨?_, fun s h => exec_resultLand_of_resumed h, ?_, ?_⟩
  · intro s f c hi hr hs
    obtain ⟨t, ht, hm, ho, hc⟩ := exec_resultLand_of_stays hr (stays hs)
    refine ⟨t, ht, hm, ho, fun hd => hc.trans (landed_of_waiting hi hd), fun hd => ?_⟩
    have due {k : ResKind} (hk : f.kind = k) (hne : k ≠ .sysReg) : t.work.me = Ctx.land { c with inflight := [] } f :=
      hc.trans (landed_of_due hi (hk ▸ hne) hd)
    refine ⟨fun h => ?_, fun h => ?_, fun h => ?_, fun h => ?_, fun h => ?_, fun h => ?_, fun h => ?_, fun h => ?_, fun h => ?_, fun h => ?_⟩
    · exact (due h (by decide)).trans (land_sReg c h)
    · exact (due h (by decide)).trans (land_aReg c h)
    · exact (due h (by decide)).trans (land_vReg c h)
    · exact (due h (by decide)).trans (land_qReg c h)
    · exact (due h (by decide)).trans (land_gReg c h)
    · exact (due h (by decide)).trans (land_gPos c h)
    · exact (due h (by decide)).trans (land_gBase c h)
    · exact (due h (by decide)).trans (land_flagsOnly c h)
    · exact (due h (by decide)).trans (land_xaccOp c h)
    · obtain ⟨p, hp, hb⟩ := land_pReg c h
      exact ⟨p, (due h (by decide)).trans hp, hb⟩
  · intro s f c hi hr hst hb hn
    by_cases he : f.land ≤ s.cycle ∨ f.interlocked = true
    · obtain ⟨t, ht, hm, tst, tinst, tnone, ts⟩ := exec_resultLand_of_ends hr (endsWith_of_single hi hst hb hn he)
      refine ⟨t, ht, hm, fun _ => ⟨tst, tinst, tnone⟩, fun h => ?_, fun h hf => ?_, fun h hk => ?_⟩
      · rw [ts, landed_of_waiting hi h]
      · exact absurd he (not_or.mpr ⟨Nat.not_le.mpr h, Bool.eq_false_iff.mp hf⟩)
      · rw [ts, landed_of_due hi (by rw [hk]; decide) h, land_sReg _ hk]
    · obtain ⟨hw, hf⟩ := not_or.mp he
      have hkeep := landed_of_waiting hi (Nat.not_le.mp hw)
      obtain ⟨t, ht, hm, -, hc⟩ := exec_resultLand_of_stays hr fun h => hf (interlocked_of_endsWith hi hw h)
      exact ⟨t, ht, hm, fun h => absurd h he, fun _ => by rw [hc, hkeep], fun _ _ => hc.trans hkeep, fun h => absurd h hw⟩
  · intro s f g c hi hr hs _ _ kf kg hreg df dg ho
    obtain ⟨t, ht, -, -, hc⟩ := exec_resultLand_of_stays hr (stays hs)
    exact ⟨t, ht, (congrArg (fun c => nth (Ctx.s c) f.reg) hc).trans (landed_pair hi kf kg hreg df dg ho)⟩

end Sys2Proof.Machine
end

section
/-! PROOFS. What translation and the fetch of code leave of contexts and of the step's focus (08_memory R168 to R171, R184, 03_core R81, R86): all but what an
access notes there. -/
namespace Sys2Proof.Machine.Work
variable {u w : Work}

namespace Still

theorem l2Trim (h : Still u w) : Still u w.l2Trim := ite h (foldl h fun _ _ hv => foldl hv fun _ _ hx => hx.evictLine)

theorem l2Touch {part line : Nat} (h : Still u w) : Still u (w.l2Touch part line) := ite (ite h h.joinWindow) h.l2Fill

theorem l2Read {part pa n : Nat} {mt : BitVec 2} (h : Still u w) : Still u (w.l2Read part pa n mt).2 := by
  unfold Work.l2Read
  split
  · exact h
  · exact h.l2Touch.l2Data

theorem recallLine {line : Nat} (h : Still u w) : Still u (w.recallLine line) :=
  foldl h fun _ _ hv => by
    split
    · exact hv.mergeUpd
    · exact hv

theorem walk (part va : Nat) : ∀ (lvl t : Nat) {w : Work}, Still u w → Still u (Work.walk part va lvl t w).2
  | 0, _, _, h => h
  | lvl + 1, t, w, h => by
    have hr : Still u ((w.recallLine ((t + 8 * vaIndex va (lvl + 1)) / 128)).l2Read part (t + 8 * vaIndex va (lvl + 1)) 8 0#2).2 := h.recallLine.l2Read
    unfold Work.walk
    split
    · exact h
    · dsimp only
      split
      · exact h.recallLine
      · split
        · exact hr
        · split
          · exact hr
          · split
            · exact hr
            · exact walk part va lvl _ hr

theorem translate {core part : Nat} {rill super : Bool} {va : Word} {kind : Access} (h : Still u w) :
    Still u (w.translate core part rill va kind super).2 := by
  unfold Work.translate
  split
  · exact h
  · extract_lets v die coreHit dieHit
    split
    rename_i found w1 e
    have h1 : Still u w1 := by
      rw [← show _ = w1 from congrArg Prod.snd e]
      cases coreHit with
      | some _ => exact h
      | none =>
        cases dieHit with
        | some _ => exact h
        | none =>
          have hw := walk part v 5 (w.part part).ptroot h
          revert hw
          rcases Work.walk part v 5 (w.part part).ptroot w with ⟨_ | _, _⟩
          · exact id
          · exact id
    split
    · exact h1
    · split
      · exact h1
      · extract_lets w2 w3
        have h2 : Still u w2 := ite (h1.modCore fun _ => rfl) h1
        exact ite (h2.beside rfl rfl rfl rfl) h2

/-! ## Code -/

theorem fetchPacket (w : Work) (pkt : Word) : Still w (w.fetchPacket pkt).2 := by
  unfold Work.fetchPacket
  extract_lets core part
  have ht : Still w (w.translate core part true pkt .fetch w.focus.super).2 := (refl w).translate
  split
  · exact refl w
  · split
    · exact refl w
    · split
      · rename_i e
        rw [e] at ht
        exact ht
      · rename_i pa pte v e
        rw [e] at ht
        split
        · exact ht
        · have hr : Still w ((v.recallLine (pa / 128)).l2Read part pa 64 (pteMt pte)).2 := ht.recallLine.l2Read
          exact hr

theorem successor (w : Work) (pkt : Word) (p : BitVec 512) (h : Nat) : Still w (w.successor pkt p h).2 := by
  have hf := fetchPacket w (pkt + 64#64)
  unfold Work.successor
  split
  · exact refl w
  · split
    · exact refl w
    · extract_lets nx
      split
      · rename_i e
        rw [e] at hf
        split
        · exact hf
        · split <;> exact hf
      · rename_i e
        rw [e] at hf
        exact hf

theorem following (w : Work) (pc : Word) : Still w (w.following pc).2 := by
  have hf := fetchPacket w (packetOf pc)
  unfold Work.following
  split
  · exact refl w
  · extract_lets pkt
    split
    · rename_i e
      rw [e] at hf
      exact hf
    · rename_i v e
      rw [e] at hf
      extract_lets h addr
      split
      · exact hf
      · split
        · split
          · exact hf
          · exact hf.trans (successor v ..)
        · exact hf.trans (successor v ..)

/-- The addresses of the bundles that follow are read as code is. -/
theorem addrAfter : ∀ (n : Nat) (w : Work) (pc : Word), Still w (w.addrAfter pc n).2
  | 0, w, _ => refl w
  | n + 1, w, pc => (following w pc).trans (addrAfter n ..)

end Still
end Sys2Proof.Machine.Work
end

section
/-! PROOFS. Branches, calls and returns (03_core R62, R63, 22_ref R386, 24_ref R454): the target that a taken one leaves pending, its link, and the flag of a
second one. -/
namespace Sys2Proof.Machine
open Sys2Proof.Claim

/-! ## Updates beside memory -/

section
variable (s : State) (w : Work)

theorem left_modMe (f : Ctx → Ctx) : left s (w.modMe f) = onMe (left s w) f := rfl
theorem left_modFocus (f : Focus → Focus) : left s (w.modFocus f) = onFocus (left s w) f := rfl
theorem left_work_me : (left s w).work.me = w.me := rfl

/-- A scalar register's result, once what came before it in the slot has been done. -/
theorem left_putS {d : BitVec 6} (hd : d ≠ 0#6) (v : Word) (lat : Nat) : left s (w.putS d v lat) = sResult (left s w) d v lat := by
  have hn : d.toNat ≠ 0 := fun h => hd (BitVec.eq_of_toNat_eq h)
  rw [sResult, if_pos hd, Work.putS, put_eq w _ BitVec.getLsbD_zero rfl]
  simp only [Res.kept, hn, and_false, false_and, if_false, reduceCtorEq]
  rfl
end

/-! ## A taken branch -/

namespace Work

/-- A taken branch's target pends, and its bundle has taken one. -/
def pend (w : Work) (tgt : Word) : Work :=
  (w.modMe fun c => { c with brPend := true, brTgt := tgt, brFrom := c.pc, dsRem := 2 }).modFocus fun g => { g with branch := some tgt }

/-- What a call does before its target pends. -/
def putLink (w : Work) : Work := (w.addrAfter w.me.pc 3).2.putS 62#6 ((w.addrAfter w.me.pc 3).1 &&& ~~~1#64) 1

theorem pend_me (w : Work) (tgt : Word) : (w.pend tgt).me = { w.me with brPend := true, brTgt := tgt, brFrom := w.me.pc, dsRem := 2 } :=
  (me_modFocus (w.modMe _) _ rfl rfl).trans (me_modMe ..)

variable {w : Work} {tgt : Word}

theorem branchTo_of_taken (h : w.focus.branch.isSome = true) (link : Bool) : w.branchTo tgt link = w.putFlags flBr2 0 1 := if_pos h

theorem branchTo_jump (h : w.focus.branch = none) : w.branchTo tgt false = w.pend tgt := by
  rw [branchTo, if_neg (by simp [h])]
  rfl

theorem branchTo_call (h : w.focus.branch = none) : w.branchTo tgt true = w.putLink.pend tgt := by
  rw [branchTo, if_neg (by simp [h])]
  rfl

end Work

theorem branched_eq (s : State) (tgt : Word) : branched s tgt = left s (s.work.pend tgt) := by
  rw [Work.pend, left_modFocus, left_modMe, left_self, branched]

theorem left_pend (s : State) (w : Work) (tgt : Word) : left s (w.pend tgt) = branched (left s w) tgt := by
  rw [Work.pend, left_modFocus, left_modMe, branched]

theorem left_putLink {s : State} {w v : Work} {link : Word} (h : w.addrAfter w.me.pc 3 = (link, v)) :
    left s w.putLink = sResult (left s v) 62 (link &&& ~~~1#64) 1 := by
  rw [Work.putLink, h]
  exact left_putS s v (by decide) ..

/-! ## Targets -/

theorem codeByte_toNat (a : Word) : (codeByte a).toNat = a.toNat % 2 ^ 56 := by
  refine (BitVec.toNat_append (0#8) (field a 0 56)).trans ?_
  rw [BitVec.toNat_ofNat, Nat.zero_mod, Nat.zero_shiftLeft, Nat.zero_or, field, BitVec.extractLsb'_toNat, Nat.shiftRight_zero]

theorem relTarget_toNat (here off : Word) : ((relTarget here off).toNat : Int) = ((here.toNat : Int) + 2 * off.toInt) % 2 ^ 56 := by
  have ho : off.toInt % 2 ^ 64 = off.toNat := by
    have := off.isLt
    rw [BitVec.toInt_eq_toNat_cond]
    split <;> omega
  rw [relTarget, codeByte_toNat, BitVec.toNat_add, BitVec.toNat_mul, codeByte_toNat]
  push_cast
  rw [← ho]
  norm_num
  omega

/-! ## The instructions -/

section
variable {s : State} {i : Instr}

/-- A branch of slot s0 or a return. -/
def Instr.branchesFirst (i : Instr) : Prop := (∃ o, i = .br o ∨ i = .call o) ∨ (∃ a, i = .brx a ∨ i = .callx a) ∨ i = .ret

/-- A branch of slot s1. -/
def Instr.branchesSecond (i : Instr) : Prop := (∃ o, i = .brS1 o ∨ i = .callS1 o) ∨ ∃ a, i = .brxS1 a ∨ i = .callxS1 a

/-- Every branch is a taken branch of `Work.branchTo`. -/
theorem exec_branch (h : Instr.branchesFirst i ∨ Instr.branchesSecond i) (s : State) :
    ∃ tgt link, exec i s = .next (left s (s.work.branchTo tgt link)) := by
  rcases h with (⟨o, rfl | rfl⟩ | ⟨a, rfl | rfl⟩ | rfl) | ⟨o, rfl | rfl⟩ | ⟨a, rfl | rfl⟩
  all_goals exact ⟨_, _, rfl⟩

theorem exec_second (h : Instr.branchesSecond i) {b : Word} (hb : s.focus.branch = some b) : exec i s = .next (result s .flagsOnly 0 0 1 0x02) := by
  obtain ⟨tgt, link, he⟩ := exec_branch (.inr h) s
  have hw : s.work.branchTo tgt link = s.work.putFlags flBr2 0 1 := Work.branchTo_of_taken (congrArg Option.isSome hb) _
  rw [he, hw]
  exact congrArg _ (lift_put s ⟨.flagsOnly, 0, 0, 1, flBr2, 0, false⟩ (by decide) rfl)

end

/-- Settles O14: all the branches are `Work.branchTo`, whose target `relTarget_toNat` gives. -/
theorem branches : Obligations.Branches := by
  unfold Obligations.Branches
  refine ⟨fun s o a hb => ?_, fun s o a b hb i hi => ?_, fun s w o a link hb hl => ?_⟩
  · have jump (tgt : Word) : left s (s.work.branchTo tgt false) = branched s tgt := by rw [Work.branchTo_jump hb, branched_eq]
    refine ⟨fun i hi => ⟨relTarget s.work.me.pc o.value, ?_, relTarget_toNat ..⟩, congrArg _ (jump _), congrArg _ (jump _), congrArg _ (jump _)⟩
    rcases hi with rfl | rfl
    · exact congrArg _ (jump _)
    · exact congrArg _ (jump _)
  · refine exec_second ?_ hb
    rcases hi with rfl | rfl | rfl | rfl
    · exact .inl ⟨o, .inl rfl⟩
    · exact .inr ⟨a, .inl rfl⟩
    · exact .inl ⟨o, .inr rfl⟩
    · exact .inr ⟨a, .inr rfl⟩
  · intro s'
    have call (tgt : Word) : left s (s.work.branchTo tgt true) = branched (sResult s' 62 (link &&& ~~~1#64) 1) tgt := by
      rw [Work.branchTo_call hb, left_pend, left_putLink hl]
    refine ⟨fun i hi => ⟨relTarget s.work.me.pc o.value, ?_, relTarget_toNat ..⟩, congrArg _ (call _), congrArg _ (call _)⟩
    rcases hi with rfl | rfl
    · exact congrArg _ (call _)
    · exact congrArg _ (call _)

end Sys2Proof.Machine
end

section
/-! PROOFS. The slots of a bundle (03_core R54, R65, R67, R68, 04_encoding R87 to R90): which there are, what each one reads, and when it holds. -/
namespace Sys2Proof.Machine

/-! ## Guards -/

theorem field_two_cases (x : BitVec 2) : x = 0#2 ∨ x = 1#2 ∨ x = 2#2 ∨ x = 3#2 := by
  revert x; decide

theorem field_field {m n lo len : Nat} (x : BitVec m) (k : Nat) (h : lo + len ≤ n) : field (field x k n) lo len = field x (k + lo) len := by
  refine BitVec.eq_of_getLsbD_eq fun i hi => ?_
  simp only [field, BitVec.getLsbD_extractLsb']
  rw [decide_eq_true (show lo + i < n by omega), Bool.true_and, Nat.add_assoc]

theorem guardReg_field (b : Bundle) (k : Nat) : guardReg (field b k 5) = field b (k + 4) 1 ++ field b k 3 := by
  rw [guardReg, field_field b k (by decide), field_field b k (by decide)]
  rfl

namespace Work
variable {w : Work} {b : Bundle}

theorem guardHolds_of_field (w : Work) (b : Bundle) (k : Nat) : (w.me.pReg (guardReg (field b k 5)) != (field b k 5).getLsbD 3) = true ↔
    w.me.pReg (field b (k + 4) 1 ++ field b k 3) ≠ b.getLsbD (k + 3) := by
  have h3 : (field b k 5).getLsbD 3 = b.getLsbD (k + 3) := by
    simp [field]
  rw [guardReg_field, h3, bne_iff_ne]

/-- None, PA or PB of the header. -/
theorem guardHolds_iff (w : Work) (b : Bundle) (g : BitVec 2) : w.guardHolds b g = true ↔
    g = 0#2 ∨ (g = 1#2 ∧ w.me.pReg (field b 23 1 ++ field b 19 3) ≠ b.getLsbD 22) ∨
      (g = 2#2 ∧ w.me.pReg (field b 28 1 ++ field b 24 3) ≠ b.getLsbD 27) := by
  rcases field_two_cases g with rfl | rfl | rfl | rfl
  · simp [guardHolds]
  · have h := guardHolds_of_field w b 19
    simpa [guardHolds, guardOf] using h
  · have h := guardHolds_of_field w b 24
    simpa [guardHolds, guardOf] using h
  · simp [guardHolds]

/-! ## Qualifiers and stages -/

theorem passes_eq (l : LoopLevel) : l.passes = if l.modulo = true ∧ l.total ≠ 0 then l.total + l.stages - 1 else l.total := by
  unfold LoopLevel.passes
  by_cases hm : l.modulo = true
  · by_cases ht : l.total = 0
    · simp [hm, ht]
    · simp [hm, ht]
  · simp [hm]

theorem qualified_iff (w : Work) (b : Bundle) : w.qualified b = true ↔
    field b 14 2 = 0#2 ∨ ∀ l : LoopLevel, w.me.loop.levels[(field b 16 3).toNat]? = some l → l.first ≤ w.me.loop.offset ∧ w.me.loop.offset ≤ l.last ∧
      if field b 14 2 = 1#2 then l.left ≠ 0 ∧ l.left = (if l.modulo = true ∧ l.total ≠ 0 then l.total + l.stages - 1 else l.total) else l.left = 1 := by
  unfold qualified hdrMode hdrLevel
  by_cases h0 : field b 14 2 = 0#2
  · simp [h0]
  · cases hl : w.me.loop.levels[(field b 16 3).toNat]? with
    | none => simp [h0]
    | some l =>
      by_cases h1 : field b 14 2 = 1#2
      · simp [h1, passes_eq, and_assoc]
      · simp [h0, h1, and_assoc]

theorem moduloLevel_eq_some {l : LoopLevel} : w.moduloLevel = some l ↔
    w.me.loop.levels.getLast? = some l ∧ l.modulo = true ∧ l.first ≤ w.me.loop.offset ∧ w.me.loop.offset ≤ l.last := by
  unfold moduloLevel
  rw [Option.bind_eq_some_iff]
  constructor
  · rintro ⟨x, hx, h⟩
    split at h
    · obtain rfl := Option.some.inj h
      simp_all
    · exact absurd h (by simp)
  · rintro ⟨hx, hm, hf, hl⟩
    exact ⟨l, hx, by simp [hm, hf, hl]⟩

/-- Of pass p the kernel bundles of stage s execute for iteration p - s, where there is one. -/
theorem inStage_iff (w : Work) (s : Nat) : w.inStage s = true ↔
    ∀ l : LoopLevel, w.me.loop.levels.getLast? = some l → l.modulo = true → l.first ≤ w.me.loop.offset → w.me.loop.offset ≤ l.last →
      s ≤ l.pass ∧ l.pass < s + l.total := by
  unfold inStage
  cases h : w.moduloLevel with
  | none =>
    refine iff_of_true rfl fun l hl hm hf ho => ?_
    rw [moduloLevel_eq_some.mpr ⟨hl, hm, hf, ho⟩] at h
    cases h
  | some l =>
    obtain ⟨hl, hm, hf, ho⟩ := moduloLevel_eq_some.mp h
    rw [Bool.and_eq_true, decide_eq_true_iff, decide_eq_true_iff]
    constructor
    · rintro ⟨h1, h2⟩ k hk - - -
      obtain rfl := Option.some.inj (hl.symm.trans hk)
      omega
    · intro h
      have := h l hl hm hf ho
      omega

/-! ## The slots -/

/-- The view of a slot. -/
def slotView (w : Work) (b : Bundle) (i : Nat) : SlotView :=
  let x := slotWordOf b i
  let ext := if i < 9 && hdrSurr b (i + 1) then some (slotWordOf b (i + 1)) else none
  let held := w.qualified b && w.inStage (hdrStage b i) && w.guardHolds b (field x 30 2)
  { n := i, word := x, ext := ext, held := held, instr := if held then decodeSlot (slotClass i) x ext else none }

theorem slotViews_eq (w : Work) (b : Bundle) : w.slotViews b = ((List.range 10).filter fun i => !hdrSurr b i).map (w.slotView b) := rfl

theorem mem_slotViews {v : SlotView} : v ∈ w.slotViews b ↔ ∃ k, k < 10 ∧ hdrSurr b k = false ∧ v = w.slotView b k := by
  rw [slotViews_eq, List.mem_map]
  constructor
  · rintro ⟨k, hk, rfl⟩
    obtain ⟨hr, hs⟩ := List.mem_filter.mp hk
    exact ⟨k, List.mem_range.mp hr, by simpa using hs, rfl⟩
  · rintro ⟨k, hk, hs, rfl⟩
    exact ⟨k, List.mem_filter.mpr ⟨List.mem_range.mpr hk, by simpa using hs⟩, rfl⟩

/-- They stand in the order of their positions. -/
theorem slotViews_sorted (w : Work) (b : Bundle) : (w.slotViews b).Pairwise (·.n < ·.n) := by
  rw [slotViews_eq, List.pairwise_map]
  exact List.pairwise_lt_range.sublist List.filter_sublist

theorem slotView_held_iff (w : Work) (b : Bundle) (k : Nat) : (w.slotView b k).held = true ↔
    w.guardHolds b (field (slotWordOf b k) 30 2) = true ∧ w.qualified b = true ∧ w.inStage (hdrStage b k) = true := by
  simp only [slotView, Bool.and_eq_true]
  tauto

theorem slotView_instr (w : Work) (b : Bundle) (k : Nat) : (w.slotView b k).instr =
    if (w.slotView b k).held = true then decodeSlot (slotClass k) (w.slotView b k).word (w.slotView b k).ext else none := rfl

theorem held_of_instr {v : SlotView} (hv : v ∈ w.slotViews b) {i : Instr} (hi : v.instr = some i) : v.held = true := by
  obtain ⟨k, -, -, rfl⟩ := mem_slotViews.mp hv
  by_contra h
  rw [slotView_instr, if_neg h] at hi
  cases hi

end Work
end Sys2Proof.Machine
end

section
/-! PROOFS. The issue checks (03_core R57 to R69): the order in which they come, and what makes a slot take each. -/
namespace Sys2Proof.Machine

/-! ## The lowest slot that a check picks -/

section
variable {vs : List SlotView} {v : SlotView} {i : Instr}

theorem find?_le (hs : vs.Pairwise (·.n < ·.n)) (hv : v ∈ vs) {p : SlotView → Bool} (hp : p v = true) : ∃ u, vs.find? p = some u ∧ u.n ≤ v.n := by
  induction vs with
  | nil => exact absurd hv List.not_mem_nil
  | cons x xs ih =>
    obtain ⟨hx, hxs⟩ := List.pairwise_cons.mp hs
    rcases List.mem_cons.mp hv with rfl | hm
    · exact ⟨v, List.find?_cons_of_pos hp, le_rfl⟩
    · by_cases h : p x = true
      · exact ⟨x, List.find?_cons_of_pos h, (hx v hm).le⟩
      · obtain ⟨u, hu, hle⟩ := ih hxs hm
        exact ⟨u, (List.find?_cons_of_neg h).trans hu, hle⟩

namespace Work

theorem firstSlot_cons (x : SlotView) (xs : List SlotView) (f : SlotView → Instr → Option Trap) :
    firstSlot (x :: xs) f = ((x.instr.bind fun i => (f x i).map fun t => (⟨x.n, t⟩ : IssueTrap)).or (firstSlot xs f)) := by
  unfold firstSlot
  rw [List.findSome?_cons]
  cases x.instr.bind fun i => (f x i).map fun t => (⟨x.n, t⟩ : IssueTrap) <;> rfl

theorem firstSlot_le (hs : vs.Pairwise (·.n < ·.n)) (hv : v ∈ vs) (hi : v.instr = some i) {f : SlotView → Instr → Option Trap} {c : Nat}
    (hc : ∀ v i t, f v i = some t → t.code = c) (hf : f v i ≠ none) : ∃ k t, k ≤ v.n ∧ firstSlot vs f = some ⟨k, t⟩ ∧ t.code = c := by
  induction vs with
  | nil => exact absurd hv List.not_mem_nil
  | cons x xs ih =>
    obtain ⟨hx, hxs⟩ := List.pairwise_cons.mp hs
    rw [firstSlot_cons]
    cases hr : x.instr.bind fun i => (f x i).map fun t => (⟨x.n, t⟩ : IssueTrap) with
    | some r =>
      obtain ⟨j, hj, ht⟩ := Option.bind_eq_some_iff.mp hr
      obtain ⟨t, hft, rfl⟩ := Option.map_eq_some_iff.mp ht
      refine ⟨x.n, t, ?_, rfl, hc x j t hft⟩
      rcases List.mem_cons.mp hv with rfl | hm
      · exact le_rfl
      · exact (hx v hm).le
    | none =>
      rcases List.mem_cons.mp hv with rfl | hm
      · rw [hi] at hr
        exact absurd (Option.map_eq_none_iff.mp hr) hf
      · exact ih hxs hm

theorem firstSlot_none {f : SlotView → Instr → Option Trap} (h : ∀ v ∈ vs, ∀ i, v.instr = some i → f v i = none) : firstSlot vs f = none := by
  refine List.findSome?_eq_none_iff.mpr fun v hv => ?_
  cases hi : v.instr with
  | none => rfl
  | some i => exact Option.map_eq_none_iff.mpr (h v hv i hi)

theorem find?_none {p : SlotView → Bool} (h : ∀ v ∈ vs, p v = false) : vs.find? p = none :=
  List.find?_eq_none.mpr fun v hv => by rw [h v hv]; decide

end Work
end

namespace Work
variable {w : Work} {b : Bundle} {vs : List SlotView}

/-- Some slot not above slot n reports cause x. -/
def trapsBy (w : Work) (b : Bundle) (vs : List SlotView) (n x : Nat) : Prop := ∃ k t, k ≤ n ∧ w.issueCheck b vs = some ⟨k, t⟩ ∧ t.code = x

/-! ## The checks in their order -/

/-- The checks of results, which CHK asks for: STALLSHORT, WRCLASH and DBLBR. -/
def resultCheck (w : Work) (b : Bundle) (vs : List SlotView) : Option IssueTrap :=
  match firstSlot vs fun v i => (w.stallShort b v i).map fun x => { code := cStallShort, info := x } with
  | some t => some t
  | none =>
  match firstSlot vs fun v i =>
      (w.wrClash ((vs.filter fun u => decide (u.n < v.n)).filterMap (·.instr)) i).map fun x => { code := cWrClash, info := x } with
  | some t => some t
  | none => if 1 < (vs.filter fun v => v.instr.any isBranch).length then some ⟨0, { code := cDblBr }⟩ else none

/-- The check of branches and loops, and those behind it. -/
def loopCheck (w : Work) (b : Bundle) (vs : List SlotView) : Option IssueTrap :=
  match firstSlot vs fun _ i => if w.loopSeqBad i then some { code := cLoopSeq } else none with
  | some t => some t
  | none => if !w.focus.chk then none else w.resultCheck b vs

/-- The check of delay slots, and those behind it. -/
def delayCheck (w : Work) (b : Bundle) (vs : List SlotView) : Option IssueTrap :=
  match (if w.me.brPend then vs.find? noDelay else none) with
  | some v => some ⟨v.n, { code := cDslot }⟩
  | none => w.loopCheck b vs

theorem issueCheck_eq (w : Work) (b : Bundle) (vs : List SlotView) : w.issueCheck b vs =
    if w.illBundle b then some ⟨15, { code := cIllBundle }⟩
    else match vs.find? (w.slotIll vs) with
      | some v => some ⟨v.n, { code := cIllOp }⟩
      | none => w.delayCheck b vs := rfl

theorem issueCheck_of_illBundle (h : w.illBundle b = true) : w.issueCheck b vs = some ⟨15, { code := 0x01 }⟩ := if_pos h

section
variable (hb : w.illBundle b = false)
include hb

theorem trapsBy_illOp (hs : vs.Pairwise (·.n < ·.n)) {v : SlotView} (hv : v ∈ vs) (h : w.slotIll vs v = true) : w.trapsBy b vs v.n 0x02 := by
  obtain ⟨u, hu, hle⟩ := find?_le hs hv h
  refine ⟨u.n, { code := cIllOp }, hle, ?_, rfl⟩
  rw [issueCheck_eq, hb, hu]
  rfl

variable (hi : ∀ v ∈ vs, w.slotIll vs v = false)
include hi

theorem issueCheck_delay : w.issueCheck b vs = w.delayCheck b vs := by
  rw [issueCheck_eq, hb, find?_none hi]
  rfl

theorem trapsBy_delay (hs : vs.Pairwise (·.n < ·.n)) (hp : w.me.brPend = true) {v : SlotView} (hv : v ∈ vs) (h : noDelay v = true) :
    w.trapsBy b vs v.n 0x03 := by
  obtain ⟨u, hu, hle⟩ := find?_le hs hv h
  refine ⟨u.n, { code := cDslot }, hle, ?_, rfl⟩
  rw [issueCheck_delay hb hi, delayCheck, hp, if_pos rfl, hu]

variable (hd : w.me.brPend = true → ∀ v ∈ vs, noDelay v = false)
include hd

theorem issueCheck_loop : w.issueCheck b vs = w.loopCheck b vs := by
  have hn : (if w.me.brPend then vs.find? noDelay else none) = none := by
    split
    · exact find?_none (hd ‹_›)
    · rfl
  rw [issueCheck_delay hb hi, delayCheck, hn]

theorem trapsBy_loop (hs : vs.Pairwise (·.n < ·.n)) {v : SlotView} {i : Instr} (hv : v ∈ vs) (hvi : v.instr = some i) (h : w.loopSeqBad i = true) :
    w.trapsBy b vs v.n 0x04 := by
  obtain ⟨k, t, hk, hf, ht⟩ := firstSlot_le (f := fun _ i => if w.loopSeqBad i then some { code := cLoopSeq } else none) (c := 0x04) hs hv hvi
    (fun v i t h => by
      split at h
      · obtain rfl := Option.some.inj h
        rfl
      · cases h) (by rw [if_pos h]; exact Option.some_ne_none _)
  refine ⟨k, t, hk, ?_, ht⟩
  rw [issueCheck_loop hb hi hd, loopCheck, hf]

variable (hl : ∀ v ∈ vs, ∀ i, v.instr = some i → w.loopSeqBad i = false)
include hl

theorem issueCheck_result : w.issueCheck b vs = if w.focus.chk then w.resultCheck b vs else none := by
  have hn : firstSlot vs (fun _ i => if w.loopSeqBad i then some { code := cLoopSeq } else none) = none :=
    firstSlot_none fun v hv i hvi => if_neg (by rw [hl v hv i hvi]; decide)
  rw [issueCheck_loop hb hi hd, loopCheck, hn]
  cases w.focus.chk <;> rfl

variable (hc : w.focus.chk = true)
include hc

theorem trapsBy_stallShort (hs : vs.Pairwise (·.n < ·.n)) {v : SlotView} {i : Instr} (hv : v ∈ vs) (hvi : v.instr = some i)
    (h : w.stallShort b v i ≠ none) : w.trapsBy b vs v.n 0x05 := by
  obtain ⟨k, t, hk, hf, ht⟩ := firstSlot_le (f := fun v i => (w.stallShort b v i).map fun x => { code := cStallShort, info := x }) (c := 0x05) hs hv hvi
    (fun v i t h => by obtain ⟨x, -, rfl⟩ := Option.map_eq_some_iff.mp h; rfl) (mt Option.map_eq_none_iff.mp h)
  refine ⟨k, t, hk, ?_, ht⟩
  rw [issueCheck_result hb hi hd hl, hc, if_pos rfl, resultCheck, hf]

variable (hss : ∀ v ∈ vs, ∀ i, v.instr = some i → w.stallShort b v i = none)
include hss

theorem trapsBy_wrClash (hs : vs.Pairwise (·.n < ·.n)) {v : SlotView} {i : Instr} (hv : v ∈ vs) (hvi : v.instr = some i)
    (h : w.wrClash ((vs.filter fun u => decide (u.n < v.n)).filterMap (·.instr)) i ≠ none) : w.trapsBy b vs v.n 0x06 := by
  obtain ⟨k, t, hk, hf, ht⟩ := firstSlot_le (f := fun v i => (w.wrClash ((vs.filter fun u => decide (u.n < v.n)).filterMap (·.instr)) i).map fun x =>
      { code := cWrClash, info := x }) (c := 0x06) hs hv hvi
    (fun v i t h => by obtain ⟨x, -, rfl⟩ := Option.map_eq_some_iff.mp h; rfl) (mt Option.map_eq_none_iff.mp h)
  refine ⟨k, t, hk, ?_, ht⟩
  rw [issueCheck_result hb hi hd hl, hc, if_pos rfl, resultCheck, firstSlot_none fun v hv i hvi => Option.map_eq_none_iff.mpr (hss v hv i hvi), hf]

variable (hw : ∀ v ∈ vs, ∀ i, v.instr = some i → w.wrClash ((vs.filter fun u => decide (u.n < v.n)).filterMap (·.instr)) i = none)
include hw

theorem issueCheck_dblBr : w.issueCheck b vs =
    if 1 < (vs.filter fun v => v.instr.any isBranch).length then some ⟨0, { code := 0x07 }⟩ else none := by
  rw [issueCheck_result hb hi hd hl, hc, if_pos rfl, resultCheck, firstSlot_none fun v hv i hvi => Option.map_eq_none_iff.mpr (hss v hv i hvi),
    firstSlot_none fun v hv i hvi => Option.map_eq_none_iff.mpr (hw v hv i hvi)]
  rfl

end

/-- Two slots that branch. -/
theorem two_branches_iff (hs : vs.Pairwise (·.n < ·.n)) : 1 < (vs.filter fun v => v.instr.any isBranch).length ↔
    ∃ u ∈ vs, ∃ v ∈ vs, u.n ≠ v.n ∧ u.instr.any isBranch = true ∧ v.instr.any isBranch = true := by
  have hmem {v : SlotView} : v ∈ (vs.filter fun v => v.instr.any isBranch) ↔ v ∈ vs ∧ v.instr.any isBranch = true := List.mem_filter
  have hf : (vs.filter fun v => v.instr.any isBranch).Pairwise (·.n < ·.n) := hs.sublist List.filter_sublist
  generalize vs.filter (fun v => v.instr.any isBranch) = l at hmem hf
  constructor
  · intro h
    match l with
    | [] => exact absurd h (by decide)
    | [_] => exact absurd h (by simp)
    | u :: v :: _ =>
      obtain ⟨hu, hub⟩ := hmem.mp List.mem_cons_self
      obtain ⟨hv, hvb⟩ := hmem.mp (List.mem_cons_of_mem _ List.mem_cons_self)
      exact ⟨u, hu, v, hv, ((List.pairwise_cons.mp hf).1 v List.mem_cons_self).ne, hub, hvb⟩
  · rintro ⟨u, hu, v, hv, hne, hub, hvb⟩
    have hul := hmem.mpr ⟨hu, hub⟩
    have hvl := hmem.mpr ⟨hv, hvb⟩
    match l with
    | [] => exact absurd hul List.not_mem_nil
    | [x] => exact absurd (by rw [List.mem_singleton.mp hul, List.mem_singleton.mp hvl]) hne
    | _ :: _ :: _ => exact Nat.succ_lt_succ (Nat.succ_pos _)

end Work
end Sys2Proof.Machine
end

section
/-! PROOFS. What makes a slot or a bundle take each issue check (03_core R57 to R69, R78, 04_encoding R87 to R98), and what a presented bundle comes to
(03_core R61, 02_execution R31). -/
namespace Sys2Proof.Machine
namespace Work
variable {w : Work} {b : Bundle} {vs : List SlotView} {v : SlotView} {i : Instr}

/-! ## ILLBUNDLE -/

theorem illBundle_iff (w : Work) (b : Bundle) : w.illBundle b = true ↔
    field b 49 15 ≠ 0#15 ∨ hdrSurr b 0 = true ∨ (∃ k, k < 9 ∧ hdrSurr b (k + 1) = true ∧ (hdrSurr b k = true ∨ hdrStage b (k + 1) ≠ 0)) ∨
    (∃ k, k < 10 ∧ match w.moduloLevel with | some l => l.stages ≤ hdrStage b k | none => hdrStage b k ≠ 0) ∨
    hdrMode b = 3#2 ∨ hdrMode b ≠ 0#2 ∧ w.me.loop.levels.length ≤ hdrLevel b := by
  unfold illBundle
  simp only [Bool.or_eq_true, bne_iff_ne, ne_eq, List.any_eq_true, List.mem_range, Bool.and_eq_true, decide_eq_true_eq, beq_iff_eq, or_assoc]
  cases w.moduloLevel <;> simp

theorem hdrStage_ne_zero (b : Bundle) (k : Nat) : hdrStage b k ≠ 0 ↔ field b (29 + 2 * k) 2 ≠ 0#2 := by
  rw [hdrStage, ne_eq, ne_eq, BitVec.toNat_eq]
  rfl

theorem moduloLevel_of_idle (h : w.me.loop.levels = []) : w.moduloLevel = none := by
  rw [moduloLevel, h]
  rfl

/-! ## ILLOP -/

theorem slotIll_of_guard (h : field v.word 30 2 = 3#2) : w.slotIll vs v = true := by
  rw [slotIll, SlotView.guard, h]
  rfl

theorem isEmpty_iff (v : SlotView) : v.isEmpty = true ↔ field v.word 23 7 = 0#7 ∧ v.ext = none := by
  simp [SlotView.isEmpty, SlotView.op]

theorem slotIll_of_undecoded (hh : v.held = true) (he : ¬(field v.word 23 7 = 0#7 ∧ v.ext = none)) (hi : v.instr = none) : w.slotIll vs v = true := by
  rw [slotIll, hh, Bool.eq_false_iff.mpr (mt (isEmpty_iff v).mp he), hi]
  exact Bool.or_true _

/-- A decoded slot's instruction may not be issued here: its feature is missing, its slot's unit is another rill's, slot s5 multiplies too, or its entry says so. -/
theorem slotIll_of_instr (hh : v.held = true) (he : ¬(field v.word 23 7 = 0#7 ∧ v.ext = none)) (hi : v.instr = some i)
    (h : (∃ k, gate i = some k ∧ (w.part w.myPart).hasFeat k = false) ∨ ((v.n = 7 ∨ v.n = 8) ∧ w.ownsHere = false) ∨
      (v.n = 6 ∧ (∃ a c m, i = .xfma a c m) ∧ ∃ u ∈ vs, u.n = 5 ∧ ∃ a c m, u.instr = some (.xfma a c m)) ∨ w.illOperand i = true) :
    w.slotIll vs v = true := by
  rw [slotIll, hh, Bool.eq_false_iff.mpr (mt (isEmpty_iff v).mp he), hi]
  dsimp only
  rcases h with ⟨k, hk, hf⟩ | ⟨hn, ho⟩ | ⟨hn, ⟨a, c, m, rfl⟩, u, hu, hun, a', c', m', hui⟩ | h
  · simp [hk, hf]
  · rcases hn with hn | hn <;> simp [hn, ho]
  · have any (f : SlotView → Bool) (h : f u = true) : vs.any f = true := List.any_eq_true.mpr ⟨u, hu, h⟩
    rw [any]
    · simp only [hn, beq_self_eq_true, Bool.true_and, Bool.or_true, Bool.true_or, Bool.not_false]
    · rw [hun, hui]
      rfl
  · rw [h]
    simp only [Bool.true_and, Bool.or_true, Bool.not_false]

theorem handler_eq (w : Work) : (w.frameBusy.1 == some true) = decide (w.frameBusy.1 = some true) := by
  rcases w.frameBusy.1 with - | - | - <;> rfl

theorem illOperand_loop_eq (w : Work) (l c : BitVec 6) : w.illOperand (.loop l c) =
    match w.loopDesc (w.frameBusy.1 == some true) l.toNat with
    | some (some d) => loopIllOp d false c || loopIdleC d c
    | some none => false
    | none => true := rfl

theorem illOperand_loopm_eq (w : Work) (l c : BitVec 6) : w.illOperand (.loopm l c) =
    match w.loopDesc (w.frameBusy.1 == some true) l.toNat with
    | some (some d) => loopIllOp d true c || loopIdleC d c
    | some none => false
    | none => true := rfl

theorem illOperand_loop {handler : Bool} {l c : BitVec 6} {m : Bool} (hh : handler = decide (w.frameBusy.1 = some true))
    (hi : (i = .loop l c ∧ m = false) ∨ (i = .loopm l c ∧ m = true))
    (h : w.loopDesc handler l.toNat = none ∨ ∃ d, w.loopDesc handler l.toNat = some (some d) ∧ (loopIllOp d m c = true ∨ loopIdleC d c = true)) :
    w.illOperand i = true := by
  rw [hh, ← handler_eq] at h
  rcases hi with ⟨rfl, rfl⟩ | ⟨rfl, rfl⟩
  · rw [illOperand_loop_eq]
    rcases h with h | ⟨d, h, hd⟩
    · rw [h]
    · rw [h]
      exact (Bool.or_eq_true ..).mpr hd
  · rw [illOperand_loopm_eq]
    rcases h with h | ⟨d, h, hd⟩
    · rw [h]
    · rw [h]
      exact (Bool.or_eq_true ..).mpr hd

theorem illOperand_krnd {a : BitVec 6} (h : 5 ≤ (w.me.sReg a).toNat % 8) : w.illOperand (.mtsr a 8) = true := by
  have h5 : 5#3 ≤ field (w.me.sReg a) 0 3 := by
    rw [BitVec.le_def, field, BitVec.extractLsb'_toNat, Nat.shiftRight_zero]
    exact h
  exact decide_eq_true h5

theorem illOperand_vwait {a : BitVec 4} {x : BitVec 6} (h : 16 ≤ (w.me.sReg x).toNat) : w.illOperand (.vwait a x) = true := by
  have hx : field (w.me.sReg x) 4 60 ≠ 0#60 := fun hz => by
    have := (field_top_eq_zero (lo := 4) (len := 60) (w.me.sReg x)).mp hz
    omega
  exact bne_iff_ne.mpr hx

theorem illOperand_mpushV {x : BitVec 5} (hx : x.toNat % 2 = 1) (hm : w.here.arr.mode = 1#3 ∨ w.here.arr.mode = 2#3 ∨ w.here.arr.mode = 3#3) :
    w.illOperand (.mpushV x) = true := by
  have h0 : x.getLsbD 0 = true := by
    rw [BitVec.getLsbD, Nat.testBit_zero]
    exact decide_eq_true hx
  have hw : wideMode w.here.arr.mode = true := by
    rcases hm with h | h | h <;> rw [h] <;> rfl
  exact (Bool.and_eq_true ..).mpr ⟨hw, h0⟩

/-! ## DSLOT -/

theorem noDelay_of_op (h : (v.n = 0 ∧ (field v.word 23 7).toNat ∈ [1, 2, 3, 4, 5, 8, 9, 0xA, 0x10, 0x18, 0x19]) ∨
    (v.n = 1 ∧ (field v.word 23 7).toNat ∈ [0x70, 0x71, 0x72, 0x73]) ∨ (v.n = 9 ∧ field v.word 23 7 = 0x28#7)) : noDelay v = true := by
  have op {k : Nat} (hk : (field v.word 23 7).toNat = k) : v.op = BitVec.ofNat 7 k := by rw [SlotView.op, ← hk, BitVec.ofNat_toNat, BitVec.setWidth_eq]
  unfold noDelay
  rcases h with ⟨hn, hm⟩ | ⟨hn, hm⟩ | ⟨hn, hm⟩
  · simp only [List.mem_cons, List.not_mem_nil, or_false] at hm
    rcases hm with h | h | h | h | h | h | h | h | h | h | h
    all_goals rw [hn, op h]; rfl
  · simp only [List.mem_cons, List.not_mem_nil, or_false] at hm
    rcases hm with h | h | h | h
    all_goals rw [hn, op h]; rfl
  · rw [hn, SlotView.op, hm]
    rfl

/-! ## LOOPSEQ -/

theorem isBranch_iff : isBranch i = true ↔ Instr.branchesFirst i ∨ Instr.branchesSecond i := by
  constructor
  · unfold isBranch
    split
    · exact fun _ => .inl (.inl ⟨_, .inl rfl⟩)
    · exact fun _ => .inr (.inl ⟨_, .inl rfl⟩)
    · exact fun _ => .inl (.inr (.inl ⟨_, .inl rfl⟩))
    · exact fun _ => .inr (.inr ⟨_, .inl rfl⟩)
    · exact fun _ => .inl (.inl ⟨_, .inr rfl⟩)
    · exact fun _ => .inr (.inl ⟨_, .inr rfl⟩)
    · exact fun _ => .inl (.inr (.inl ⟨_, .inr rfl⟩))
    · exact fun _ => .inr (.inr ⟨_, .inr rfl⟩)
    · exact fun _ => .inl (.inr (.inr rfl))
    · exact fun h => absurd h (by decide)
  · rintro ((⟨o, rfl | rfl⟩ | ⟨a, rfl | rfl⟩ | rfl) | ⟨o, rfl | rfl⟩ | ⟨a, rfl | rfl⟩)
    all_goals rfl

theorem loopSeqBad_of_active (ha : w.me.loop.levels ≠ []) (h : isBranch i = true ∨ i = .rft ∨ ∃ l c, i = .loop l c ∨ i = .loopm l c) :
    w.loopSeqBad i = true := by
  have active : (!w.me.loop.levels.isEmpty) = true := by simpa using ha
  rcases h with h | rfl | ⟨l, c, rfl | rfl⟩
  · rcases isBranch_iff.mp h with (⟨o, rfl | rfl⟩ | ⟨a, rfl | rfl⟩ | rfl) | ⟨o, rfl | rfl⟩ | ⟨a, rfl | rfl⟩
    all_goals exact active
  · exact active
  · exact (Bool.or_eq_true ..).mpr (.inl active)
  · exact (Bool.or_eq_true ..).mpr (.inl active)

theorem loopSeqBad_loop_eq (w : Work) (l c : BitVec 6) (h : i = .loop l c ∨ i = .loopm l c) : w.loopSeqBad i =
    (!w.me.loop.levels.isEmpty || match w.loopDesc (w.frameBusy.1 == some true) l.toNat with | some (some d) => loopBadShape d | _ => false) := by
  rcases h with rfl | rfl <;> rfl

theorem loopSeqBad_of_shape {handler : Bool} {l c : BitVec 6} {d : BitVec 1024} (hh : handler = decide (w.frameBusy.1 = some true))
    (hi : i = .loop l c ∨ i = .loopm l c) (hd : w.loopDesc handler l.toNat = some (some d)) (h : loopBadShape d = true) : w.loopSeqBad i = true := by
  rw [hh, ← handler_eq] at hd
  rw [loopSeqBad_loop_eq w l c hi, hd]
  exact (Bool.or_eq_true ..).mpr (.inr h)

theorem loopSeqBad_of_lexit {l : BitVec 3} (h : w.me.loop.levels.length ≤ l.toNat) : w.loopSeqBad (.lexit l) = true := decide_eq_true h

/-! ## STALLSHORT and WRCLASH -/

theorem pendingFixed_of_mem {r : RegRef} (h : ∃ f ∈ w.me.inflight, f.interlocked = false ∧ w.cycle < f.land ∧ r.hit f = true) : w.pendingFixed r = true := by
  obtain ⟨f, hf, hi, hc, hr⟩ := h
  exact List.any_eq_true.mpr ⟨f, hf, by simp [hi, hc, hr]⟩

theorem stallShort_of_pending {r : RegRef} (hr : r ∈ w.slotSources b v i) (h : w.pendingFixed r = true) : w.stallShort b v i ≠ none := by
  unfold stallShort
  cases hf : (w.slotSources b v i).find? w.pendingFixed with
  | none => exact absurd h (List.find?_eq_none.mp hf r hr)
  | some _ => exact Option.some_ne_none _

theorem mem_slotSources {r : RegRef}
    (h : r ∈ sources w i ∨ ((field v.word 30 2 = 1#2 ∨ field v.word 30 2 = 2#2) ∧ r = .p (guardReg (guardOf b (field v.word 30 2))))) :
    r ∈ w.slotSources b v i := by
  unfold slotSources SlotView.guard
  rcases h with h | ⟨hg, rfl⟩
  · exact List.mem_append_right _ h
  · rw [if_pos hg]
    exact List.mem_append_left _ (List.mem_singleton.mpr rfl)

theorem mem_slotDests {d : Dest} (h : d ∈ dests i) : d ∈ slotDests i := List.mem_append_left _ h

theorem wrClash_ne_none {below : List Instr} {d : Dest} (hd : d ∈ dests i) (hs : d.reg ≠ .s 0#6) (hp : d.reg ≠ .p 0#4)
    (h : (w.clashes (isXclr i) d || clashBelow below i d) = true) : w.wrClash below i ≠ none := by
  have lands : Work.Dest.lands d = true := by simp [Dest.lands, hs, hp]
  intro hn
  have := List.findSome?_eq_none_iff.mp hn d (List.mem_filter.mpr ⟨mem_slotDests hd, lands⟩)
  rw [h] at this
  cases this

theorem clashes_of_mem {d : Dest} {clr : Bool} (hx : d.reg ≠ .x)
    (h : ∃ f ∈ w.me.inflight, f.interlocked = false ∧ f.land = w.cycle + d.lat ∧ f.kind ≠ .gBase ∧ d.reg.hit f = true) : w.clashes clr d = true := by
  obtain ⟨f, hf, hi, hl, hk, hh⟩ := h
  exact List.any_eq_true.mpr ⟨f, hf, by simp [hi, hl, hk, hh, hx]⟩

theorem clashBelow_of_mem {below : List Instr} {d e : Dest} {j : Instr} (hx : d.reg ≠ .x) (hj : j ∈ below) (he : e ∈ dests j) (hr : e.reg = d.reg)
    (hl : e.lat = d.lat) : clashBelow below i d = true :=
  List.any_eq_true.mpr ⟨j, hj, List.any_eq_true.mpr ⟨e, mem_slotDests he, by simp [hr, hl, hx]⟩⟩

theorem mem_below {u : SlotView} {j : Instr} (hu : u ∈ vs) (hn : u.n < v.n) (hj : u.instr = some j) :
    j ∈ (vs.filter fun u => decide (u.n < v.n)).filterMap (·.instr) :=
  List.mem_filterMap.mpr ⟨u, List.mem_filter.mpr ⟨hu, decide_eq_true hn⟩, hj⟩

end Work
end Sys2Proof.Machine
end

section
/-! PROOFS. What a presented bundle comes to (03_core R61, R86, 02_execution R31): a stall, a trap before issue, or its slots. -/
namespace Sys2Proof.Machine
namespace Work
variable {w v : Work} {b : Bundle} {vs : List SlotView}

/-- The work of a presented bundle: the sequencer has noted it, and the step knows what follows. -/
def presented (v : Work) (f : Fetched) : Work :=
  (v.modMe fun c => { c with
    pc := f.addr
    loop := if c.loop.levels.isEmpty then c.loop else { c.loop with replay := Tab.set c.loop.replay c.loop.offset f } }).modFocus
      fun g => { g with nextAddr := f.next, hdr := field f.bundle 0 64 }

theorem presented_hdr (v : Work) (f : Fetched) : (v.presented f).focus.hdr = field f.bundle 0 64 := rfl

/-- A trap before issue draws a free value where it is STALLSHORT. -/
def drawn (x : Work) (t : IssueTrap) : Work := { x with freeNext := if t.trap.code = 0x05 then x.freeNext + 1 else x.freeNext }

theorem drawn_eq (x : Work) (t : IssueTrap) : x.drawn t = if t.trap.code = cStallShort then { x with freeNext := x.freeNext + 1 } else x := by
  by_cases h : t.trap.code = 0x05
  · rw [drawn, if_pos h]
    exact (if_pos h).symm
  · rw [drawn, if_neg h]
    exact (if_neg h).symm

/-- SLOTW of a trap before issue. -/
def slotwAt (vs : List SlotView) (n : Nat) : Word := match vs.find? fun v => v.n == n with | some v => v.ext.getD 0 ++ v.word | none => 0

theorem slotwAt_of_mem (hs : vs.Pairwise (·.n < ·.n)) {u : SlotView} (hu : u ∈ vs) : slotwAt vs u.n = u.ext.getD 0 ++ u.word := by
  have distinct : (vs.map (·.n)).Nodup := List.pairwise_map.mpr (hs.imp Nat.ne_of_lt)
  obtain ⟨x, hx, -⟩ := find?_le hs hu (p := fun v => v.n == u.n) (beq_self_eq_true _)
  have hn : x.n = u.n := by simpa using List.find?_some hx
  obtain rfl := List.inj_on_of_nodup_map distinct (List.mem_of_find?_eq_some hx) hu hn
  rw [slotwAt, hx]

theorem slotwAt_of_none {n : Nat} (h : ∀ u ∈ vs, u.n ≠ n) : slotwAt vs n = 0 := by
  rw [slotwAt, find?_none fun u hu => beq_false_of_ne (h u hu)]

/-- What a fetched bundle comes to. -/
def presentBundle (x : Work) (b : Bundle) (idle : Bool) : Prepared × Work :=
  if hdrStall b ≠ 0 ∧ !x.me.stalled then (.stop, x.modMe fun c => { c with stalled := true, notBefore := x.cycle + hdrStall b })
  else if x.cycle < x.stallsUntil b (x.slotViews b) then (.stop, x.modMe fun c => { c with stalled := true, notBefore := x.stallsUntil b (x.slotViews b) })
  else if x.poisonedLoop (x.slotViews b) then (.stop, x.enterTrap (x.siteAt { code := cCodeEcc, addr := x.me.pc } 15 0 0))
  else match x.issueCheck b (x.slotViews b) with
    | some t => (.stop, (x.drawn t).enterTrap ((x.drawn t).siteAt t.trap t.slot (x.drawn t).focus.hdr (slotwAt (x.slotViews b) t.slot)))
    | none => (.bundle b idle (x.slotViews b), x)

theorem prepare_of_error {e : FetchTrap} (h : w.fetchHere = (.error e, v)) (hr : v.focus.heldRead = false) :
    w.prepare = (.stop, v.enterTrap (v.siteAt { code := e.code, addr := e.addr, info := if e.code = cBadTarget then v.me.tgtFrom.getD 0 else 0, sub := e.sub } 15 0 0)) := by
  unfold prepare
  rw [h]
  dsimp only
  rw [hr, if_neg (by simp)]

theorem prepare_of_fetched {f : Fetched} (h : w.fetchHere = (.ok f, v)) (hr : v.focus.heldRead = false) (hm : v.me.micro ≠ some .skip) :
    w.prepare = (v.presented f).presentBundle f.bundle f.isIdle := by
  have hs : (v.me.micro == some .skip) = false := beq_false_of_ne hm
  unfold prepare
  rw [h]
  dsimp only
  rw [hr, if_neg (by simp), hs]
  simp only [Bool.false_eq_true, if_false, Bool.not_false, Bool.and_true, presentBundle, drawn_eq]
  rfl

/-- A fetched bundle's stall count holds it once. -/
theorem presentBundle_of_stall {idle : Bool} (hn : (field b 0 4).toNat ≠ 0) (h : w.me.stalled = false) :
    w.presentBundle b idle = (.stop, w.modMe fun c => { c with stalled := true, notBefore := w.cycle + (field b 0 4).toNat }) :=
  if_pos ⟨hn, by rw [h]; rfl⟩

section
variable {idle : Bool} (h : (field b 0 4).toNat = 0 ∨ w.me.stalled = true)
include h

theorem presentBundle_of_held (hu : w.cycle < w.stallsUntil b (w.slotViews b)) :
    w.presentBundle b idle = (.stop, w.modMe fun c => { c with stalled := true, notBefore := w.stallsUntil b (w.slotViews b) }) := by
  have hn : ¬ (hdrStall b ≠ 0 ∧ (!w.me.stalled) = true) := fun ⟨hz, hs⟩ => h.elim hz fun hw => by rw [hw] at hs; cases hs
  rw [presentBundle, if_neg hn, if_pos hu]

variable (hu : w.stallsUntil b (w.slotViews b) ≤ w.cycle)
include hu

theorem presentBundle_of_poisoned (hp : w.poisonedLoop (w.slotViews b) = true) :
    w.presentBundle b idle = (.stop, w.enterTrap (w.siteAt { code := 0x09, addr := w.me.pc } 15 0 0)) := by
  have hn : ¬ (hdrStall b ≠ 0 ∧ (!w.me.stalled) = true) := fun ⟨hz, hs⟩ => h.elim hz fun hw => by rw [hw] at hs; cases hs
  rw [presentBundle, if_neg hn, if_neg (Nat.not_lt.mpr hu), if_pos hp]
  rfl

theorem presentBundle_checked (hp : w.poisonedLoop (w.slotViews b) = false) : w.presentBundle b idle = match w.issueCheck b (w.slotViews b) with
    | some t => (.stop, (w.drawn t).enterTrap ((w.drawn t).siteAt t.trap t.slot (w.drawn t).focus.hdr (slotwAt (w.slotViews b) t.slot)))
    | none => (.bundle b idle (w.slotViews b), w) := by
  have hn : ¬ (hdrStall b ≠ 0 ∧ (!w.me.stalled) = true) := fun ⟨hz, hs⟩ => h.elim hz fun hw => by rw [hw] at hs; cases hs
  rw [presentBundle, if_neg hn, if_neg (Nat.not_lt.mpr hu), if_neg (by rw [hp]; decide)]

end
end Work

open Work

/-! ## The obligation's three parts -/

/-- Settles O36: the views by `Work.mem_slotViews`, the checks by the lemmas `Work.trapsBy_…`, what is presented by `Work.presentBundle`. -/
theorem slotsAreDecoded : Obligations.SlotsAreDecoded := by
  unfold Obligations.SlotsAreDecoded
  refine ⟨fun w b => ⟨fun k hk => ?_, fun v hv => ?_⟩, ?_, fun w v => ⟨fun e he hr => ?_, ?_⟩⟩
  · constructor
    · exact fun h => ⟨w.slotView b k, mem_slotViews.mpr ⟨k, hk, h, rfl⟩, rfl⟩
    · rintro ⟨v, hv, rfl⟩
      obtain ⟨j, -, hs, rfl⟩ := mem_slotViews.mp hv
      exact hs
  · obtain ⟨k, hk, hs, rfl⟩ := mem_slotViews.mp hv
    refine ⟨rfl, ?_, fun h => ?_, fun h => ?_, ?_⟩
    · show (if (decide (k < 9) && hdrSurr b (k + 1)) = true then _ else _) = _
      simp only [Bool.and_eq_true, decide_eq_true_eq]
      rfl
    · rw [slotView_instr, if_pos h]
      rfl
    · rw [slotView_instr, if_neg (by rw [h]; decide)]
    · rw [slotView_held_iff, guardHolds_iff, qualified_iff, inStage_iff]
      rfl
  · intro w b vs levels handler traps slots loops
    have sorted : vs.Pairwise (·.n < ·.n) := slotViews_sorted w b
    refine ⟨fun h => issueCheck_of_illBundle ((illBundle_iff w b).mpr ?_), fun hb => ⟨fun v hv h => ?_, fun v hv i hi he h => ?_, fun hill => ⟨fun hp v hv h => ?_,
      fun hd => ⟨fun v hv i hi h => ?_, fun hl => ⟨fun hc => ?_, fun hc => ⟨fun v hv i hi r hr h => ?_, fun hss => ⟨fun v hv i hi d hdst hs hp hx h => ?_, fun hw => ⟨fun h => ?_, fun h => ?_⟩⟩⟩⟩⟩⟩⟩⟩
    · rcases h with h | h | ⟨k, hk, h, h2⟩ | ⟨hn, k, hk, h⟩ | ⟨l, k, hl, hk, h⟩ | h | ⟨h, h2⟩
      · exact .inl h
      · exact .inr (.inl h)
      · refine .inr (.inr (.inl ⟨k, hk, by rw [hdrSurr, show 4 + (k + 1) = 5 + k by omega]; exact h, h2.imp_right fun h => ?_⟩))
        rw [hdrStage_ne_zero, show 29 + 2 * (k + 1) = 31 + 2 * k by omega]
        exact h
      · exact .inr (.inr (.inr (.inl ⟨k, hk, by rw [moduloLevel_of_idle hn]; exact (hdrStage_ne_zero b k).mpr h⟩)))
      · exact .inr (.inr (.inr (.inl ⟨k, hk, by rw [hl]; exact h⟩)))
      · exact .inr (.inr (.inr (.inr (.inl h))))
      · exact .inr (.inr (.inr (.inr (.inr ⟨h, h2⟩))))
    · refine trapsBy_illOp hb sorted hv ?_
      rcases h with h | ⟨hh, he, hi⟩
      · exact slotIll_of_guard h
      · exact slotIll_of_undecoded hh he hi
    · refine trapsBy_illOp hb sorted hv (slotIll_of_instr (held_of_instr hv hi) he hi ?_)
      rcases h with h | ⟨h, ho⟩ | h | ⟨a, rfl, h⟩ | ⟨a, x, rfl, h⟩ | ⟨x, rfl, h, hm⟩ | ⟨t, n, k, c, rfl, hm⟩ | ⟨l, c, m, hlo, h⟩
      · exact .inl h
      · rcases h with h | h | ⟨d, rfl | rfl⟩
        · exact .inr (.inl ⟨.inl h, ho⟩)
        · exact .inr (.inl ⟨.inr h, ho⟩)
        · exact .inr (.inr (.inr (congrArg (!·) ho)))
        · exact .inr (.inr (.inr (congrArg (!·) ho)))
      · exact .inr (.inr (.inl h))
      · exact .inr (.inr (.inr (illOperand_krnd h)))
      · exact .inr (.inr (.inr (illOperand_vwait h)))
      · exact .inr (.inr (.inr (illOperand_mpushV h hm)))
      · exact .inr (.inr (.inr (bne_iff_ne.mpr hm)))
      · exact .inr (.inr (.inr (illOperand_loop rfl hlo h)))
    · exact trapsBy_delay hb hill sorted hp hv (noDelay_of_op h)
    · refine trapsBy_loop hb hill hd sorted hv hi ?_
      have either {l c : BitVec 6} {m : Bool} (h : loops i l c m) : i = .loop l c ∨ i = .loopm l c := h.imp And.left And.left
      rcases h with ⟨ha, h⟩ | ⟨l, c, m, d, hlo, hdesc, h⟩ | ⟨l, rfl, h⟩
      · exact loopSeqBad_of_active ha (h.imp_right (·.imp_right fun ⟨l, c, m, h⟩ => ⟨l, c, either h⟩))
      · exact loopSeqBad_of_shape rfl (either hlo) hdesc h
      · exact loopSeqBad_of_lexit h
    · rw [issueCheck_result hb hill hd hl, hc]
      rfl
    · exact trapsBy_stallShort hb hill hd hl hc sorted hv hi (stallShort_of_pending (mem_slotSources hr) (pendingFixed_of_mem h))
    · refine trapsBy_wrClash hb hill hd hl hc hss sorted hv hi (wrClash_ne_none hdst hs hp ((Bool.or_eq_true ..).mpr ?_))
      rcases h with h | ⟨u, hu, j, hn, hj, e, he, hr, hlat⟩
      · exact .inl (clashes_of_mem hx h)
      · exact .inr (clashBelow_of_mem hx (mem_below hu hn hj) he hr hlat)
    · rw [issueCheck_dblBr hb hill hd hl hc hss hw, if_pos ((two_branches_iff sorted).mpr h)]
    · rw [issueCheck_dblBr hb hill hd hl hc hss hw, if_neg (mt (two_branches_iff sorted).mp h)]
  · rw [prepare_of_error he hr]
    rfl
  · intro f hf hr hm b x vs stall
    have hprep : w.prepare = x.presentBundle b f.isIdle := prepare_of_fetched hf hr hm
    rw [hprep]
    refine ⟨fun hs h => presentBundle_of_stall hs h, fun h => ⟨fun hu => presentBundle_of_held h hu, fun hu => ⟨fun hp => presentBundle_of_poisoned h hu hp, fun hp => ⟨fun hc => ?_, fun t hc => ?_⟩⟩⟩⟩
    · rw [presentBundle_checked h hu hp, hc]
    · refine ⟨slotwAt vs t.slot, ?_, fun u hu hn => ?_, fun hn => slotwAt_of_none hn⟩
      · rw [presentBundle_checked h hu hp, hc]
        rfl
      · rw [← hn]
        exact slotwAt_of_mem (slotViews_sorted x b) hu

end Sys2Proof.Machine
end

section
/-! PROOFS. Two branches of a bundle (03_core R63): slot s0's is taken, and slot s1's sets BR2, or the bundle takes DBLBR. -/
namespace Sys2Proof.Machine
open Sys2Proof.Claim

/-! ## Flags that land -/

/-- A result that lands clears no flag, and sets its own. -/
theorem land_kstat (c : Ctx) (f : InFlight) : ∃ x : Word, (c.land f).kstat = c.kstat ||| x ||| (f.flags.setWidth 64 <<< 8) := by
  have hz : c.kstat ||| (0 : Word) = c.kstat := BitVec.or_zero
  unfold Ctx.land Ctx.addFlags
  cases f.kind with
  | xaccOp =>
    obtain ⟨x, k, fl, -, h⟩ := xaccLand_cases c f.xtra (field f.value 0 64) (field f.value 64 64)
    have hc : c.xaccLand f.xtra (field f.value 0 64) (field f.value 64 64) = ({ c with xacc := x, xclass := k }, fl) := h c.inflight
    exact ⟨fl.setWidth 64 <<< 8, by dsimp only; rw [hc]⟩
  | _ => exact ⟨0, by rw [hz]⟩

theorem foldl_land_kstat {l : List InFlight} {c : Ctx} {i : Nat} (h : c.kstat.getLsbD i = true) : (l.foldl Ctx.land c).kstat.getLsbD i = true := by
  induction l generalizing c with
  | nil => exact h
  | cons f l ih =>
    obtain ⟨x, hx⟩ := land_kstat c f
    exact ih (by rw [hx, BitVec.getLsbD_or, BitVec.getLsbD_or, h]; rfl)

/-- A flag is set once its result has landed, whatever lands with it. -/
theorem foldl_land_sets {l : List InFlight} {c : Ctx} {f : InFlight} {i : Nat} (hf : f ∈ l) (h : (f.flags.setWidth 64 <<< 8 : Word).getLsbD i = true) :
    (l.foldl Ctx.land c).kstat.getLsbD i = true := by
  induction l generalizing c with
  | nil => exact absurd hf List.not_mem_nil
  | cons g l ih =>
    rcases List.mem_cons.mp hf with rfl | hm
    · obtain ⟨x, hx⟩ := land_kstat c f
      exact foldl_land_kstat (c := c.land f) (by rw [hx, BitVec.getLsbD_or, h, Bool.or_true])
    · exact ih hm

theorem landed_sets {w : Work} (hk : ∀ g ∈ w.me.inflight, g.kind ≠ .sysReg) {f : InFlight} (hf : f ∈ w.me.inflight) (hd : f.land ≤ w.cycle) {i : Nat}
    (h : (f.flags.setWidth 64 <<< 8 : Word).getLsbD i = true) : w.landed.kstat.getLsbD i = true := by
  rw [Work.landed_eq fun g hg => hk g (List.mem_filter.mp hg).1]
  exact foldl_land_sets (mem_sortBy.mpr (List.mem_filter.mpr ⟨hf, decide_eq_true hd⟩)) h

/-! ## The first branch taken -/

namespace Work

/-- What a taken branch's slot leaves of what is in flight: at most the link more. -/
structure Linked (w v : Work) : Prop where
  resumed : v.me.resumed = w.me.resumed
  st : v.me.st = w.me.st
  inflight : ∀ g ∈ v.me.inflight, g ∈ w.me.inflight ∨ g.kind = .sReg

theorem linked_refl (w : Work) : Linked w w := ⟨rfl, rfl, fun _ h => .inl h⟩

/-- A call's link is in flight beside what was. -/
theorem linked_putLink (w : Work) : Linked w w.putLink := by
  have hs := Still.addrAfter 3 w w.me.pc
  unfold putLink
  generalize w.addrAfter w.me.pc 3 = r at hs
  obtain ⟨a, v⟩ := r
  have resumed : v.me.resumed = w.me.resumed := hs.meField (·.resumed) fun _ => rfl
  have st : v.me.st = w.me.st := hs.meField (·.st) fun _ => rfl
  have inflight : v.me.inflight = w.me.inflight := hs.meField (·.inflight) fun _ => rfl
  dsimp only
  rw [putS, put_eq v _ BitVec.getLsbD_zero rfl]
  have kept : ¬ (Res.kept { kind := .sReg, reg := (62#6).toNat, value := (a &&& ~~~1#64).setWidth 1024, lat := 1 } = .flagsOnly ∧ (0 : Flags) = 0) := by
    simp [Res.kept]
  rw [if_neg kept]
  refine ⟨?_, ?_, fun g hg => ?_⟩
  · rw [me_modMe]; exact resumed
  · rw [me_modMe]; exact st
  · rw [me_modMe] at hg
    rcases List.mem_append.mp hg with h | h
    · exact .inl (inflight ▸ h)
    · exact .inr (by rw [List.mem_singleton.mp h]; rfl)

theorem branchTo_untaken {w : Work} (h : w.focus.branch = none) (tgt : Word) (link : Bool) : ∃ v, w.branchTo tgt link = v.pend tgt ∧ Linked w v := by
  cases link with
  | false => exact ⟨w, branchTo_jump h, linked_refl w⟩
  | true => exact ⟨w.putLink, branchTo_call h, linked_putLink w⟩

theorem pend_linked {w v : Work} (h : Linked w v) (tgt : Word) : Linked w (v.pend tgt) := by
  refine ⟨?_, ?_, ?_⟩ <;> rw [pend_me]
  · exact h.resumed
  · exact h.st
  · exact h.inflight

end Work

section
variable {s : State} {i j : Instr}

/-- A branch of either slot, where none of the bundle has been taken, is taken. -/
theorem exec_branch_untaken (h : Instr.branchesFirst i ∨ Instr.branchesSecond i) (hb : s.focus.branch = none) :
    ∃ tgt t, exec i s = .next t ∧ t.focus.branch = some tgt ∧ t.work.me.brPend = true ∧ t.work.me.brTgt = tgt ∧ t.work.me.dsRem = 2 ∧
      Work.Linked s.work t.work := by
  obtain ⟨tgt, link, he⟩ := exec_branch h s
  obtain ⟨v, hv, hl⟩ := Work.branchTo_untaken (w := s.work) hb tgt link
  obtain ⟨resumed, st, inflight⟩ := Work.pend_linked hl tgt
  have me := left_work_me s (v.pend tgt)
  have hp := Work.pend_me v tgt
  refine ⟨tgt, left s (v.pend tgt), by rw [he, hv], rfl, ?_, ?_, ?_, ?_, ?_, ?_⟩ <;> rw [me]
  · rw [hp]
  · rw [hp]
  · rw [hp]
  · exact resumed
  · exact st
  · exact inflight

theorem addResult_me (t : State) (f : InFlight) : (addResult t f).work.me = { t.work.me with inflight := t.work.me.inflight ++ [f] } :=
  (lift_me (fun w => w.modMe fun c => { c with inflight := c.inflight ++ [f] }) t).trans (Work.me_modMe ..)

theorem atCycle_me (u : State) (now : Nat) : (lift (fun w => { w with cycle := now }) u).work.me = u.work.me := rfl

/-- A flag that is in flight beside a branch's link is set once it has landed. -/
theorem exec_resultLand_sets {t : State} {f : InFlight} {now : Nat} (hl : Work.Linked s.work t.work) (hr : s.work.me.resumed = false) (hst : s.work.me.st ≠ .blocked)
    (hk : ∀ g ∈ s.work.me.inflight, g.kind ≠ .sysReg) (hf : f.kind = .flagsOnly) (hd : f.land ≤ now) {k : Nat}
    (hb : (f.flags.setWidth 64 <<< 8 : Word).getLsbD k = true) :
    ∃ z, exec .resultLand (lift (fun w => { w with cycle := now }) (addResult t f)) = .next z ∧ z.work.me.kstat.getLsbD k = true := by
  have me : (lift (fun w => { w with cycle := now }) (addResult t f)).work.me = { t.work.me with inflight := t.work.me.inflight ++ [f] } :=
    (atCycle_me ..).trans (addResult_me ..)
  have cycle : (lift (fun w => { w with cycle := now }) (addResult t f)).work.cycle = now := rfl
  generalize lift (fun w => { w with cycle := now }) (addResult t f) = u at me cycle ⊢
  obtain ⟨z, hz, -, -, hme⟩ := exec_resultLand_of_stays (s := u) (by rw [me]; exact hl.resumed.trans hr) fun h => hst (hl.st.symm.trans (by rw [me] at h; exact h.1))
  have kinds : ∀ g ∈ u.work.me.inflight, g.kind ≠ .sysReg := by
    rw [me]
    intro g hg
    rcases List.mem_append.mp hg with h | h
    · rcases hl.inflight g h with h | h
      · exact hk g h
      · rw [h]; decide
    · rw [List.mem_singleton.mp h, hf]; decide
  refine ⟨z, hz, ?_⟩
  rw [hme]
  exact landed_sets kinds (by rw [me]; exact List.mem_append_right _ (List.mem_singleton.mpr rfl)) (by rw [cycle]; exact hd) hb

end

/-! ## The check -/

namespace Work
variable {w : Work} {b : Bundle} {vs : List SlotView}

theorem firstSlot_code {f : SlotView → Instr → Option Trap} {c : Nat} (hc : ∀ v i t, f v i = some t → t.code = c) {t : IssueTrap}
    (h : firstSlot vs f = some t) : t.trap.code = c := by
  obtain ⟨v, -, hv⟩ := List.exists_of_findSome?_eq_some h
  obtain ⟨i, -, hi⟩ := Option.bind_eq_some_iff.mp hv
  obtain ⟨u, hu, rfl⟩ := Option.map_eq_some_iff.mp hi
  exact hc v i u hu

theorem loopSeq_code (_ : SlotView) (i : Instr) (t : Trap) (h : (if w.loopSeqBad i then some ({ code := cLoopSeq } : Trap) else none) = some t) :
    t.code = cLoopSeq := by
  split at h
  · obtain rfl := Option.some.inj h
    rfl
  · cases h

/-- Without CHK no bundle takes DBLBR. -/
theorem issueCheck_of_unchecked (hc : w.focus.chk = false) {t : IssueTrap} (h : w.issueCheck b vs = some t) : t.trap.code ≠ 0x07 := by
  rw [issueCheck_eq] at h
  split at h
  · obtain rfl := Option.some.inj h
    exact show cIllBundle ≠ 0x07 by decide
  · split at h
    · obtain rfl := Option.some.inj h
      exact show cIllOp ≠ 0x07 by decide
    · unfold delayCheck at h
      split at h
      · obtain rfl := Option.some.inj h
        exact show cDslot ≠ 0x07 by decide
      · unfold loopCheck at h
        split at h
        · obtain rfl := Option.some.inj h
          rename_i hf
          rw [firstSlot_code loopSeq_code hf]
          decide
        · rw [hc] at h
          cases h

/-- With CHK a bundle of two branches takes a trap. -/
theorem issueCheck_of_two (hc : w.focus.chk = true) (h : 1 < (vs.filter fun v => v.instr.any isBranch).length) : ∃ t, w.issueCheck b vs = some t := by
  have result : ∃ t, w.resultCheck b vs = some t := by
    unfold resultCheck
    split
    · exact ⟨_, rfl⟩
    · split
      · exact ⟨_, rfl⟩
      · exact ⟨_, if_pos h⟩
  have loop : ∃ t, w.loopCheck b vs = some t := by
    unfold loopCheck
    split
    · exact ⟨_, rfl⟩
    · rw [hc]
      exact result
  have delay : ∃ t, w.delayCheck b vs = some t := by
    unfold delayCheck
    split
    · exact ⟨_, rfl⟩
    · exact loop
  rw [issueCheck_eq]
  split
  · exact ⟨_, rfl⟩
  · split
    · exact ⟨_, rfl⟩
    · exact delay

end Work

/-- Settles O15: with CHK = 0 `exec_branch_untaken` and `exec_second`, with CHK = 1 the last of the issue checks. -/
theorem secondBranch : Obligations.SecondBranch := by
  unfold Obligations.SecondBranch
  intro first second
  refine ⟨fun s i j hi hj hb => ?_, ?_, fun s i h hb => ?_⟩
  · obtain ⟨tgt, t, he, hbr, hp, ht, -, hl⟩ := exec_branch_untaken (i := i) (.inl hi) hb
    obtain ⟨f, hf, kind, flags⟩ : ∃ f, result t .flagsOnly 0 0 1 0x02 = addResult t f ∧ f.kind = .flagsOnly ∧ f.flags = 0x02 := ⟨_, rfl, rfl, rfl⟩
    refine ⟨t, addResult t f, f, tgt, he, (exec_second hj hbr).trans (congrArg _ hf), hbr, hp, ht, rfl, kind, flags, fun hr hst hk now hd => ?_⟩
    exact exec_resultLand_sets hl hr hst hk kind hd (by rw [flags]; decide)
  · intro w b vs h
    obtain ⟨x, hx, y, hy, hx0, hy1, ⟨i, hxi, hi⟩, j, hyj, hj⟩ := h
    have two : 1 < (vs.filter fun v => v.instr.any Work.isBranch).length := by
      refine (Work.two_branches_iff (Work.slotViews_sorted w b)).mpr ⟨x, hx, y, hy, by omega, ?_, ?_⟩
      · rw [hxi]; exact Work.isBranch_iff.mpr (.inl hi)
      · rw [hyj]; exact Work.isBranch_iff.mpr (.inr hj)
    refine ⟨fun hc t ht => Work.issueCheck_of_unchecked hc ht, fun hc => ⟨Work.issueCheck_of_two hc two, fun hb hill hd hrest => ?_⟩⟩
    rw [Work.issueCheck_dblBr hb hill hd (fun v hv i hi => (hrest v hv i hi).1) hc (fun v hv i hi => (hrest v hv i hi).2.1) (fun v hv i hi => (hrest v hv i hi).2.2),
      if_pos two]
  · obtain ⟨tgt, t, he, hbr, hp, ht, hd, -⟩ := exec_branch_untaken h hb
    exact ⟨t, tgt, he, hbr, hp, ht, hd⟩

end Sys2Proof.Machine
end

section
/-! PROOFS. How the loop sequencer finds the next bundle (03_core R66, R67): one equation per step of `seek`, and the courses they make. -/
namespace Sys2Proof.Machine

/-- A level with one more of its iterations issued. -/
def LoopLevel.done (l : LoopLevel) : LoopLevel := { l with left := l.left - 1, pass := l.pass + 1 }

theorem restart_done (l : LoopLevel) : l.done.restart = l.restart := rfl

theorem passes_restart (l : LoopLevel) : l.restart.passes = l.passes := rfl

/-- The times that a level of trip count N issues, as the spec counts them. -/
theorem passes_of_pos {l : LoopLevel} (h : 0 < l.total) : l.passes = if l.modulo then l.total + l.stages - 1 else l.total := by
  unfold LoopLevel.passes
  rw [if_neg (Nat.pos_iff_ne_zero.mp h)]

theorem passes_of_zero {l : LoopLevel} (h : l.total = 0) : l.passes = 0 := by
  unfold LoopLevel.passes
  rw [if_pos h, h, ite_self]

theorem passes_pos {l : LoopLevel} (h : 0 < l.total) (hs : l.modulo = true → 1 ≤ l.stages) : 0 < l.passes := by
  rw [passes_of_pos h]
  split
  · have := hs ‹_›
    omega
  · exact h

/-! ## The steps -/

section
variable {f o k n : Nat} {ls : List LoopLevel} {incs : List (Nat × Word)} {l : LoopLevel}

theorem seek_out : seek (f + 1) true ls incs o 0 = ⟨ls, incs, none⟩ := rfl

theorem seek_onward (hl : ls[k]? = some l) (h : l.last ≠ o) : seek (f + 1) true ls incs o (k + 1) = seek f false ls incs (o + 1) (k + 1) := by
  rw [seek, hl]
  exact if_pos h

theorem seek_again (hl : ls[k]? = some l) (h : l.last = o) (hn : 1 < l.left) :
    seek (f + 1) true ls incs o (k + 1) = seek f false (ls.set k l.done) (incs ++ l.incs) l.first (k + 1) := by
  rw [seek, hl]
  exact (if_neg (not_not.mpr h)).trans (if_pos hn)

theorem seek_leave (hl : ls[k]? = some l) (h : l.last = o) (hn : l.left ≤ 1) :
    seek (f + 1) true ls incs o (k + 1) = seek f true (ls.set k l.done) (incs ++ l.incs) o k := by
  rw [seek, hl]
  exact (if_neg (not_not.mpr h)).trans (if_neg (Nat.not_lt.mpr hn))

theorem seek_stay (h : ∀ l, ls[n]? = some l → l.first ≠ o) : seek (f + 1) false ls incs o n = ⟨ls, incs, some o⟩ := by
  rw [seek]
  cases hl : ls[n]? with
  | none => rfl
  | some l => exact if_pos (h l hl)

theorem seek_skip (hl : ls[n]? = some l) (h : l.first = o) (hp : l.passes = 0) :
    seek (f + 1) false ls incs o n = seek f true (ls.set n l.restart) incs l.last n := by
  rw [seek, hl]
  exact (if_neg (not_not.mpr h)).trans (if_pos hp)

theorem seek_hollow (hl : ls[n]? = some l) (h : l.first = o) (hp : l.passes ≠ 0) (hh : hollow (ls.set n l.restart) n = true) :
    seek (f + 1) false ls incs o n =
      seek f true ((ls.set n l.restart).set n l.over) (incs ++ hollowIncs 1 ((ls.set n l.restart).drop n)) l.last n := by
  rw [seek, hl]
  exact (if_neg (not_not.mpr h)).trans ((if_neg hp).trans (if_pos hh))

theorem seek_enter (hl : ls[n]? = some l) (h : l.first = o) (hp : l.passes ≠ 0) (hh : hollow (ls.set n l.restart) n = false) :
    seek (f + 1) false ls incs o n = seek f false (ls.set n l.restart) incs o (n + 1) := by
  rw [seek, hl]
  exact (if_neg (not_not.mpr h)).trans ((if_neg hp).trans (if_neg (by rw [hh]; decide)))

/-! ## Hollow levels -/

/-- Where no level further in is without iterations no level is hollow. -/
theorem not_hollow (h : ∀ j m, k < j → ls[j]? = some m → m.passes = 0 → ∀ l, ls[k]? = some l → m.first = l.first → m.last ≠ l.last) : hollow ls k = false := by
  unfold hollow
  cases hl : ls[k]? with
  | none => rfl
  | some l =>
    refine List.any_eq_false.mpr fun j _ => ?_
    cases hm : ls[j]? with
    | none => simp
    | some m =>
      simp only [Bool.and_eq_true, decide_eq_true_eq, beq_iff_eq, not_and]
      intro hj h1 h2
      exact absurd h1.2 (h j m hj hm h2 l hl h1.1)

theorem hollow_of_mem {j : Nat} {m : LoopLevel} (hl : ls[k]? = some l) (hm : ls[j]? = some m) (hj : k < j) (hf : m.first = l.first) (he : m.last = l.last)
    (hp : m.passes = 0) : hollow ls k = true := by
  unfold hollow
  rw [hl]
  refine List.any_eq_true.mpr ⟨j, List.mem_range.mpr (List.getElem?_eq_some_iff.mp hm).1, ?_⟩
  rw [hm]
  simp [hj, hf, he, hp]

end

/-! ## Courses -/

theorem getElem?_mid {α : Type} (xs ys : List α) (x : α) : (xs ++ x :: ys)[xs.length]? = some x := by
  rw [List.getElem?_append_right le_rfl, Nat.sub_self]
  rfl

theorem set_mid {α : Type} (xs ys : List α) (x y : α) : (xs ++ x :: ys).set xs.length y = xs ++ y :: ys := by
  rw [List.set_append_right _ _ le_rfl, Nat.sub_self]
  rfl

theorem getElem?_behind {α : Type} (xs ys : List α) (x : α) : (xs ++ x :: ys)[xs.length + 1]? = ys.head? := by
  rw [List.append_cons, show xs.length + 1 = (xs ++ [x]).length by simp, List.getElem?_append_right le_rfl, Nat.sub_self, List.head?_eq_getElem?]

section
variable {f o : Nat} {incs : List (Nat × Word)}

/-- Levels in their last iteration that end at one bundle end together, the innermost first. -/
theorem seek_leaves (pre post : List LoopLevel) (h : ∀ k ∈ post, k.last = o ∧ k.left ≤ 1) (tail : List LoopLevel) :
    seek (f + post.length) true (pre ++ (post ++ tail)) incs o (pre.length + post.length) =
      seek f true (pre ++ (post.map LoopLevel.done ++ tail)) (incs ++ (post.reverse.map LoopLevel.incs).flatten) o pre.length := by
  induction post using List.reverseRecOn generalizing f incs tail with
  | nil => simp
  | append_singleton post l ih =>
    obtain ⟨hl, hn⟩ := h l (List.mem_append_right _ List.mem_cons_self)
    have shape (x : LoopLevel) : pre ++ ((post ++ [x]) ++ tail) = (pre ++ post) ++ x :: tail := by simp
    have depth : pre.length + (post ++ [l]).length = (pre ++ post).length + 1 := by simp [Nat.add_assoc]
    have fuel : f + (post ++ [l]).length = f + post.length + 1 := by simp [Nat.add_assoc]
    rw [shape, depth, fuel, seek_leave (getElem?_mid ..) hl hn, set_mid, List.append_assoc, List.length_append,
      ih (fun k hk => h k (List.mem_append_left _ hk))]
    simp

variable {pre post : List LoopLevel} {z : LoopLevel} (hpost : ∀ k ∈ post, k.last = o ∧ k.left ≤ 1)
include hpost

/-- What the levels in `z` leave when they end. -/
theorem seek_inner (f : Nat) : seek (f + post.length) true (pre ++ z :: post) [] o (pre.length + 1 + post.length) =
    seek f true (pre ++ z :: post.map LoopLevel.done) (post.reverse.map LoopLevel.incs).flatten o (pre.length + 1) := by
  have h := seek_leaves (f := f) (incs := []) (pre ++ [z]) post hpost []
  simpa using h

/-- The innermost level that does not end here goes on behind those that do. -/
theorem seek_nest_onward (hz : o < z.last) (hf : ∀ k ∈ post, k.first ≤ o) (f : Nat) :
    seek (f + 2 + post.length) true (pre ++ z :: post) [] o (pre.length + 1 + post.length) =
      ⟨pre ++ z :: post.map LoopLevel.done, (post.reverse.map LoopLevel.incs).flatten, some (o + 1)⟩ := by
  rw [seek_inner hpost, seek_onward (getElem?_mid ..) hz.ne', seek_stay]
  intro l hl
  rw [getElem?_behind, List.head?_map, Option.map_eq_some_iff] at hl
  obtain ⟨k, hk, rfl⟩ := hl
  have := hf k (List.mem_of_mem_head? hk)
  exact (Nat.lt_succ_of_le this).ne

/-- It goes back to its first bundle while it has iterations left. -/
theorem seek_nest_again (hz : z.last = o) (hn : 1 < z.left) (hf : ∀ k, post.head? = some k → z.first < k.first) (f : Nat) :
    seek (f + 2 + post.length) true (pre ++ z :: post) [] o (pre.length + 1 + post.length) =
      ⟨pre ++ z.done :: post.map LoopLevel.done, (post.reverse.map LoopLevel.incs).flatten ++ z.incs, some z.first⟩ := by
  rw [seek_inner hpost, seek_again (getElem?_mid ..) hz hn, set_mid, seek_stay]
  intro l hl
  rw [getElem?_behind, List.head?_map, Option.map_eq_some_iff] at hl
  obtain ⟨k, hk, rfl⟩ := hl
  exact (hf k hk).ne'

end

/-- Where all levels end the body does. -/
theorem seek_nest_out {o : Nat} {post : List LoopLevel} {z : LoopLevel} (hpost : ∀ k ∈ post, k.last = o ∧ k.left ≤ 1) (hz : z.last = o) (hn : z.left ≤ 1) (f : Nat) :
    seek (f + 2 + post.length) true (z :: post) [] o (1 + post.length) =
      ⟨z.done :: post.map LoopLevel.done, (post.reverse.map LoopLevel.incs).flatten ++ z.incs, none⟩ := by
  have h := seek_inner (pre := []) (z := z) hpost (f + 2)
  rw [List.nil_append, List.nil_append, List.length_nil, Nat.zero_add] at h
  rw [h, seek_leave rfl hz hn, seek_out]
  rfl

/-! ## Two levels -/

section
variable {f o : Nat} {x y : LoopLevel} {incs : List (Nat × Word)}

/-- An inner level is entered at its first bundle. -/
theorem seek_two_enter (hy : y.first = o) (hp : y.passes ≠ 0) : seek (f + 2) false [x, y] incs o 1 = ⟨[x, y.restart], incs, some o⟩ := by
  rw [seek_enter (l := y) rfl hy hp (not_hollow fun j m hj hm => ?_), seek_stay fun l hl => ?_]
  · rfl
  · cases hl
  · match j, hj, hm with
    | j + 2, _, hm => cases hm

/-- One without iterations is skipped, and the outer level goes on behind it, -/
theorem seek_two_skip_onward (hy : y.first = o) (hp : y.passes = 0) (hle : y.first ≤ y.last) (hx : y.last < x.last) :
    seek (f + 3) false [x, y] incs o 1 = ⟨[x, y.restart], incs, some (y.last + 1)⟩ := by
  rw [seek_skip (l := y) rfl hy hp, seek_onward (l := x) rfl hx.ne', seek_stay fun l hl => ?_]
  · rfl
  · obtain rfl : y.restart = l := Option.some.inj hl
    exact (Nat.lt_succ_of_le hle).ne

/-- or back at its first bundle, where it ends there too. -/
theorem seek_two_skip_again (hy : y.first = o) (hp : y.passes = 0) (hx : y.last = x.last) (hn : 1 < x.left) (hf : x.first < y.first) :
    seek (f + 3) false [x, y] incs o 1 = ⟨[x.done, y.restart], incs ++ x.incs, some x.first⟩ := by
  rw [seek_skip (l := y) rfl hy hp, seek_again (l := x) rfl hx.symm hn, seek_stay fun l hl => ?_]
  · rfl
  · obtain rfl : y.restart = l := Option.some.inj hl
    exact hf.ne'

end

/-! ## Depth -/

theorem depthAt_all {ls : List LoopLevel} {o : Nat} (h : ∀ k ∈ ls, k.first ≤ o ∧ o ≤ k.last) : depthAt ls o = ls.length := by
  unfold depthAt
  rw [List.takeWhile_eq_self_iff.mpr fun k hk => by simp [h k hk]]

/-- The levels up to one that does not hold the offset. -/
theorem depthAt_append {pre post : List LoopLevel} {y : LoopLevel} {o : Nat} (h : ∀ k ∈ pre, k.first ≤ o ∧ o ≤ k.last) (hy : ¬ (y.first ≤ o ∧ o ≤ y.last)) :
    depthAt (pre ++ y :: post) o = pre.length := by
  unfold depthAt
  rw [List.takeWhile_append_of_pos fun k hk => by simp [h k hk], List.takeWhile_cons_of_neg (by simpa using hy), List.append_nil]

end Sys2Proof.Machine
end

section
/-! PROOFS. The end of a body bundle (03_core R66, R67): the increments that are put in flight, the address of the next bundle, and the iterations of levels. -/
namespace Sys2Proof.Machine

/-- An increment in flight, put there by the bundle at work. -/
def Focus.increment (g : Focus) (k : Nat × Word) : InFlight := ⟨g.issueAt + 1, g.seqNo, 10, .gBase, k.1, 0, 0, k.2.setWidth 1024, false⟩

namespace Work
variable {w : Work} {q : LoopSeq} {o : Nat} {e : Nat × Fetched}

/-! ## Increments -/

/-- One increment is put in flight. -/
def putInc (w : Work) (k : Nat × Word) : Work := w.put { kind := .gBase, reg := k.1, value := k.2.setWidth 1024, lat := 1 }

theorem putInc_eq (w : Work) (k : Nat × Word) :
    w.putInc k = w.modMe fun c => { c with inflight := c.inflight ++ [⟨w.focus.issueAt + 1, w.focus.seqNo, w.focus.slot, .gBase, k.1, 0, 0, k.2.setWidth 1024, false⟩] } := by
  rw [putInc, put_eq w _ BitVec.getLsbD_zero rfl]
  exact if_neg fun h => nomatch h.1

theorem putIncs_eq (w : Work) (incs : List (Nat × Word)) :
    w.putIncs incs = (incs.foldl putInc (w.modFocus fun g => { g with slot := 10 })).modFocus fun g => { g with slot := w.focus.slot } := rfl

theorem putIncs_nil (w : Work) : w.putIncs [] = w := rfl

theorem foldl_putInc_focus (incs : List (Nat × Word)) (w : Work) : (incs.foldl putInc w).focus = w.focus :=
  foldl_keeps (fun w => w.focus) (fun w k => by rw [putInc_eq]; rfl) incs w

theorem foldl_putInc_me (incs : List (Nat × Word)) {w : Work} (h : w.focus.slot = 10) :
    (incs.foldl putInc w).me = { w.me with inflight := w.me.inflight ++ incs.map w.focus.increment } := by
  induction incs generalizing w with
  | nil => rw [List.map_nil, List.append_nil]; rfl
  | cons k incs ih =>
    have hf : (w.putInc k).focus = w.focus := by rw [putInc_eq]; rfl
    have hm : (w.putInc k).me = { w.me with inflight := w.me.inflight ++ [w.focus.increment k] } := by
      rw [putInc_eq, me_modMe, h]; rfl
    rw [List.foldl_cons, ih (by rw [hf]; exact h), hm, hf]
    dsimp only
    rw [List.append_assoc, List.map_cons]
    rfl

theorem putIncs_focus (w : Work) (incs : List (Nat × Word)) : (w.putIncs incs).focus = w.focus := by
  rw [putIncs_eq]
  show { (incs.foldl putInc (w.modFocus fun g => { g with slot := 10 })).focus with slot := w.focus.slot } = w.focus
  rw [foldl_putInc_focus]
  rfl

/-- Increments are in flight for the next cycle, in their order. -/
theorem putIncs_me (w : Work) (incs : List (Nat × Word)) :
    (w.putIncs incs).me = { w.me with inflight := w.me.inflight ++ incs.map w.focus.increment } := by
  rw [putIncs_eq, me_modFocus _ _ rfl rfl, foldl_putInc_me incs rfl]
  rfl

theorem putIncs_log (w : Work) (incs : List (Nat × Word)) : (w.putIncs incs).log = w.log :=
  foldl_keeps (fun w => w.log) (fun w k => by show (w.putInc k).log = w.log; rw [putInc_eq]; rfl) incs (w.modFocus fun g => { g with slot := 10 })

/-! ## The address of a bundle of the body -/

theorem loopAddr_of_replay (h : q.replay.find? (fun e => e.1 == o) = some e) : w.loopAddr q o = (e.2.addr, w) := by
  rw [loopAddr, h]

theorem loopAddr_of_before (h : q.replay.find? (fun e => e.1 == o) = none) (ho : o ≠ 0) (he : q.replay.find? (fun e => e.1 + 1 == o) = some e) :
    w.loopAddr q o = (e.2.next.getD e.2.addr, w) := by
  rw [loopAddr, h]
  dsimp only
  rw [if_neg ho, he]

theorem loopAddr_of_new (h : q.replay.find? (fun e => e.1 == o) = none) (he : o = 0 ∨ q.replay.find? (fun e => e.1 + 1 == o) = none) :
    w.loopAddr q o = w.addrAfter q.start o := by
  rw [loopAddr, h]
  dsimp only
  split
  · rename_i k hk
    split at hk
    · cases hk
    · rw [he.resolve_left ‹_›] at hk
      cases hk
  · rfl

/-! ## The sequencer goes on -/

theorem follow_of_some {c : Cursor} (hc : c.offset = some o) :
    w.follow q c = ((w.putIncs c.incs).modMe fun x => { x with loop := { q with levels := c.levels, offset := o } }).loopAddr { q with levels := c.levels, offset := o } o := by
  rw [follow, hc]

theorem follow_of_none {c : Cursor} (hc : c.offset = none) :
    w.follow q c = (((w.putIncs c.incs).loopAddr q q.bodyLen).1, ((w.putIncs c.incs).loopAddr q q.bodyLen).2.modMe fun x => { x with loop := .none }) := by
  rw [follow, hc]

section
variable {ls : List LoopLevel} {incs : List (Nat × Word)}

/-- To a bundle of the replay buffer. -/
theorem follow_replay (he : q.replay.find? (fun e => e.1 == o) = some e) : w.follow q ⟨ls, incs, some o⟩ =
    (e.2.addr, (w.putIncs incs).modMe fun x => { x with loop := { q with levels := ls, offset := o } }) := by
  rw [follow_of_some rfl]
  exact loopAddr_of_replay (q := { q with levels := ls, offset := o }) he

/-- Out of the body, whose last bundle is in the replay buffer. -/
theorem follow_out (hb : q.bodyLen ≠ 0) (hn : q.replay.find? (fun e => e.1 == q.bodyLen) = none) (he : q.replay.find? (fun e => e.1 + 1 == q.bodyLen) = some e) :
    w.follow q ⟨ls, incs, none⟩ = (e.2.next.getD e.2.addr, (w.putIncs incs).modMe fun x => { x with loop := .none }) := by
  rw [follow_of_none rfl, loopAddr_of_before hn hb he]

/-- What a body's next bundle is, what is put in flight, and where the sequencer stands. -/
theorem follow_replay_me (he : q.replay.find? (fun e => e.1 == o) = some e) :
    (w.follow q ⟨ls, incs, some o⟩).1 = e.2.addr ∧
    (w.follow q ⟨ls, incs, some o⟩).2.me.inflight = w.me.inflight ++ incs.map w.focus.increment ∧
    (w.follow q ⟨ls, incs, some o⟩).2.me.loop = { q with levels := ls, offset := o } := by
  rw [follow_replay he]
  dsimp only
  rw [me_modMe, putIncs_me]
  exact ⟨rfl, rfl, rfl⟩

theorem follow_out_me (hb : q.bodyLen ≠ 0) (hn : q.replay.find? (fun e => e.1 == q.bodyLen) = none) (he : q.replay.find? (fun e => e.1 + 1 == q.bodyLen) = some e) :
    (w.follow q ⟨ls, incs, none⟩).1 = e.2.next.getD e.2.addr ∧
    (w.follow q ⟨ls, incs, none⟩).2.me.inflight = w.me.inflight ++ incs.map w.focus.increment ∧
    (w.follow q ⟨ls, incs, none⟩).2.me.loop = .none := by
  rw [follow_out hb hn he]
  dsimp only
  rw [me_modMe, putIncs_me]
  exact ⟨rfl, rfl, rfl⟩

end
end Work

/-! ## A level's increments in flight -/

/-- The increments of a level that amount to something, as they are in flight. -/
def LoopLevel.flying (g : Focus) (z : LoopLevel) : List InFlight := ([(z.inc0, z.amt0), (z.inc1, z.amt1)].filter fun k => k.2 != 0).map fun k =>
  ⟨g.issueAt + 1, g.seqNo, 10, .gBase, k.1.toNat, 0, 0, (k.2.signExtend 64).setWidth 1024, false⟩

theorem signExtend_eq_zero_iff (a : BitVec 32) : a.signExtend 64 = 0#64 ↔ a = 0#32 := by
  constructor
  · intro h
    have := congrArg BitVec.toInt h
    rw [BitVec.toInt_signExtend_of_le (by decide)] at this
    exact BitVec.eq_of_toInt_eq this
  · rintro rfl
    rfl

theorem incs_eq (z : LoopLevel) : z.incs =
    ([(z.inc0, z.amt0), (z.inc1, z.amt1)].filter fun k => k.2 != 0).map fun k => (k.1.toNat, k.2.signExtend 64) := by
  have pairs : z.incs = ([(z.inc0, z.amt0), (z.inc1, z.amt1)].map fun k => (k.1.toNat, k.2.signExtend 64)).filter fun x => x.2 != 0 := rfl
  have counts (k : BitVec 4 × BitVec 32) : ((k.2.signExtend 64 : Word) != 0) = (k.2 != 0) :=
    Bool.eq_iff_iff.mpr (by rw [bne_iff_ne, bne_iff_ne]; exact (signExtend_eq_zero_iff k.2).not)
  rw [pairs, List.filter_map]
  exact congrArg (List.map _) (List.filter_congr fun k _ => counts k)

theorem incs_increment (g : Focus) (z : LoopLevel) : z.incs.map g.increment = z.flying g := by
  rw [incs_eq, List.map_map]
  rfl

theorem flatten_increment (g : Focus) (l : List LoopLevel) : (l.map LoopLevel.incs).flatten.map g.increment = (l.map (·.flying g)).flatten := by
  rw [List.map_flatten, List.map_map]
  exact congrArg List.flatten (List.map_congr_left fun z _ => incs_increment g z)

theorem nest_increment (g : Focus) (l : List LoopLevel) (z : LoopLevel) :
    ((l.map LoopLevel.incs).flatten ++ z.incs).map g.increment = (l.map (·.flying g)).flatten ++ z.flying g := by
  rw [List.map_append, flatten_increment, incs_increment]

/-! ## After a bundle of the body -/

namespace Work
variable {w : Work} {ls : List LoopLevel} {incs : List (Nat × Word)} {fs : List InFlight} {o : Nat} {e : Nat × Fetched}

/-- The body goes on at offset o, with the levels `ls` and the increments `fs` in flight. -/
def Goes (w : Work) (o : Nat) (ls : List LoopLevel) (fs : List InFlight) : Prop := ∀ e, w.me.loop.replay.find? (fun e => e.1 == o) = some e →
  w.loopNext.1 = e.2.addr ∧ w.loopNext.2.me.inflight = w.me.inflight ++ fs ∧ w.loopNext.2.me.loop = { w.me.loop with levels := ls, offset := o }

/-- The body ends, with the increments `fs` in flight. -/
def Ends (w : Work) (fs : List InFlight) : Prop := ∀ e, 0 < w.me.loop.bodyLen → w.me.loop.replay.find? (fun e => e.1 == w.me.loop.bodyLen) = none →
  w.me.loop.replay.find? (fun e => e.1 + 1 == w.me.loop.bodyLen) = some e →
  w.loopNext.1 = e.2.next.getD e.2.addr ∧ w.loopNext.2.me.inflight = w.me.inflight ++ fs ∧ w.loopNext.2.me.loop = .none

theorem loopNext_eq (w : Work) : w.loopNext = w.follow w.me.loop (seek seekFuel true w.me.loop.levels [] w.me.loop.offset (depthAt w.me.loop.levels w.me.loop.offset)) := rfl

theorem goes_of_seek (hs : seek seekFuel true w.me.loop.levels [] w.me.loop.offset (depthAt w.me.loop.levels w.me.loop.offset) = ⟨ls, incs, some o⟩)
    (hf : incs.map w.focus.increment = fs) : w.Goes o ls fs := by
  intro e he
  rw [loopNext_eq, hs, ← hf]
  exact follow_replay_me he

theorem ends_of_seek (hs : seek seekFuel true w.me.loop.levels [] w.me.loop.offset (depthAt w.me.loop.levels w.me.loop.offset) = ⟨ls, incs, none⟩)
    (hf : incs.map w.focus.increment = fs) : w.Ends fs := by
  intro e hb hn he
  rw [loopNext_eq, hs, ← hf]
  exact follow_out_me hb.ne' hn he

/-! ## Nests -/

/-- Nests are at most six levels deep. -/
theorem seekFuel_nest {pre post : List LoopLevel} {z : LoopLevel} (h : (pre ++ z :: post).length ≤ 6) :
    seekFuel = seekFuel - 2 - post.length + 2 + post.length := by
  have : post.length ≤ 6 := by
    rw [List.length_append, List.length_cons] at h
    omega
  have : seekFuel = 2000 := rfl
  omega

section
variable {pre post : List LoopLevel} {z : LoopLevel} (hl : w.me.loop.levels = pre ++ z :: post) (h6 : w.me.loop.levels.length ≤ 6)
  (hpre : ∀ k ∈ pre ++ [z], k.first ≤ w.me.loop.offset ∧ w.me.loop.offset ≤ k.last)
  (hpost : ∀ k ∈ post, k.first ≤ w.me.loop.offset ∧ k.last = w.me.loop.offset ∧ k.left ≤ 1)
include hl hpre hpost

/-- All levels hold the offset. -/
theorem depthAt_nest : depthAt w.me.loop.levels w.me.loop.offset = pre.length + 1 + post.length := by
  rw [hl, depthAt_all]
  · simp [Nat.add_assoc, Nat.add_comm 1]
  · intro k hk
    rw [List.append_cons] at hk
    rcases List.mem_append.mp hk with h | h
    · exact hpre k h
    · exact ⟨(hpost k h).1, (hpost k h).2.1.ge⟩

include h6

theorem goes_onward (hz : w.me.loop.offset < z.last) :
    w.Goes (w.me.loop.offset + 1) (pre ++ z :: post.map LoopLevel.done) (post.reverse.map (·.flying w.focus)).flatten := by
  refine goes_of_seek ?_ (flatten_increment ..)
  rw [depthAt_nest hl hpre hpost, seekFuel_nest (hl ▸ h6), hl]
  exact seek_nest_onward (fun k hk => (hpost k hk).2) hz (fun k hk => (hpost k hk).1) _

theorem goes_again (hz : z.last = w.me.loop.offset) (hn : 1 < z.left) (hf : ∀ k, post.head? = some k → z.first < k.first) :
    w.Goes z.first (pre ++ z.done :: post.map LoopLevel.done) ((post.reverse.map (·.flying w.focus)).flatten ++ z.flying w.focus) := by
  refine goes_of_seek ?_ (nest_increment ..)
  rw [depthAt_nest hl hpre hpost, seekFuel_nest (hl ▸ h6), hl]
  exact seek_nest_again (fun k hk => (hpost k hk).2) hz hn hf _

theorem ends_nest (hp : pre = []) (hz : z.last = w.me.loop.offset) (hn : z.left ≤ 1) : w.Ends ((post.reverse.map (·.flying w.focus)).flatten ++ z.flying w.focus) := by
  subst hp
  refine ends_of_seek (ls := z.done :: post.map LoopLevel.done) ?_ (nest_increment ..)
  rw [depthAt_nest hl hpre hpost, seekFuel_nest (hl ▸ h6), hl, List.length_nil, Nat.zero_add]
  exact seek_nest_out (fun k hk => (hpost k hk).2) hz hn _

end

/-! ## Entering an inner level -/

section
variable {x y : LoopLevel} (hl : w.me.loop.levels = [x, y]) (hx : x.first ≤ w.me.loop.offset)
include hl hx

/-- Before the inner level's range. -/
theorem depthAt_outer (hxl : w.me.loop.offset ≤ x.last) (hy : ¬(y.first ≤ w.me.loop.offset ∧ w.me.loop.offset ≤ y.last)) :
    depthAt w.me.loop.levels w.me.loop.offset = 1 := by
  rw [hl]
  exact depthAt_append (pre := [x]) (post := []) (by simpa using ⟨hx, hxl⟩) hy

theorem seek_before (hin : y.first ≤ y.last) (hyx : y.last ≤ x.last) (hy : w.me.loop.offset + 1 = y.first) :
    seek seekFuel true w.me.loop.levels [] w.me.loop.offset (depthAt w.me.loop.levels w.me.loop.offset) = seek (seekFuel - 1) false [x, y] [] y.first 1 := by
  rw [depthAt_outer hl hx (by omega) (by omega), hl, ← hy]
  exact seek_onward (l := x) rfl (by omega)

/-- The outer level goes back to its first bundle, behind the inner one. -/
theorem seek_back (hxl : w.me.loop.offset = x.last) (hn : 1 < x.left) (hy : y.last < x.last) :
    seek seekFuel true w.me.loop.levels [] w.me.loop.offset (depthAt w.me.loop.levels w.me.loop.offset) = seek (seekFuel - 1) false [x.done, y] x.incs x.first 1 := by
  rw [depthAt_outer hl hx hxl.le (by omega), hl, hxl]
  exact seek_again (l := x) rfl rfl hn

/-- The outer level goes back to its first bundle, where both end. -/
theorem seek_back_both (hxl : w.me.loop.offset = x.last) (hn : 1 < x.left) (hyf : y.first ≤ w.me.loop.offset) (hy : y.last = x.last) (hyn : y.left ≤ 1) :
    seek seekFuel true w.me.loop.levels [] w.me.loop.offset (depthAt w.me.loop.levels w.me.loop.offset) =
      seek (seekFuel - 2) false [x.done, y.done] (y.incs ++ x.incs) x.first 1 := by
  have depth : depthAt w.me.loop.levels w.me.loop.offset = 2 := by
    rw [hl]
    exact depthAt_all (by
      intro k hk
      rcases List.mem_pair.mp hk with rfl | rfl
      · exact ⟨hx, hxl.le⟩
      · exact ⟨hyf, (hxl.trans hy.symm).le⟩)
  rw [depth, hl, hxl]
  exact (seek_leave (l := y) rfl hy hyn).trans (seek_again (l := x) rfl rfl hn)

end
end Work

/-- An inner level at its first iteration, -/
theorem restart_of_pos {y : LoopLevel} (h : 0 < y.total) : y.restart = { y with left := if y.modulo then y.total + y.stages - 1 else y.total, pass := 0 } := by
  rw [LoopLevel.restart, passes_of_pos h]

/-- or without any. -/
theorem restart_of_zero {y : LoopLevel} (h : y.total = 0) : y.restart = { y with left := 0, pass := 0 } := by
  rw [LoopLevel.restart, passes_of_zero h]

theorem incs_nil (g : Focus) : ([] : List (Nat × Word)).map g.increment = [] := rfl

namespace Work

section
variable {w : Work} {x y : LoopLevel} (hl : w.me.loop.levels = [x, y])
include hl

/-- Two levels at the inner one's last bundle: it goes back; it ends, and the outer one goes on behind it; both end, and the outer one goes back. -/
theorem goes_of_two (ho : w.me.loop.offset = y.last) (hxy : x.first ≤ y.first) (hle : y.first ≤ y.last) (hyx : y.last ≤ x.last) :
    (1 < y.left → w.Goes y.first [x, y.done] (y.flying w.focus)) ∧
    (y.left ≤ 1 → y.last < x.last → w.Goes (y.last + 1) [x, y.done] (y.flying w.focus)) ∧
    (y.left ≤ 1 → y.last = x.last → 1 < x.left → x.first < y.first → w.Goes x.first [x.done, y.done] (y.flying w.focus ++ x.flying w.focus)) := by
  have h6 : w.me.loop.levels.length ≤ 6 := by
    rw [hl]
    exact show 2 ≤ 6 by decide
  have hx : x.first ≤ w.me.loop.offset ∧ w.me.loop.offset ≤ x.last := by omega
  have hy : y.first ≤ w.me.loop.offset ∧ w.me.loop.offset ≤ y.last := by omega
  have outer (k : LoopLevel) (hk : k ∈ [] ++ [x]) : k.first ≤ w.me.loop.offset ∧ w.me.loop.offset ≤ k.last := by
    obtain rfl : k = x := List.mem_singleton.mp hk
    exact hx
  have both (k : LoopLevel) (hk : k ∈ [x] ++ [y]) : k.first ≤ w.me.loop.offset ∧ w.me.loop.offset ≤ k.last := by
    rcases List.mem_pair.mp hk with rfl | rfl
    · exact hx
    · exact hy
  have inner (hn : y.left ≤ 1) (k : LoopLevel) (hk : k ∈ [y]) : k.first ≤ w.me.loop.offset ∧ k.last = w.me.loop.offset ∧ k.left ≤ 1 :=
    List.mem_singleton.mp hk ▸ ⟨hy.1, ho.symm, hn⟩
  refine ⟨fun hn => ?_, fun hn hlt => ?_, fun hn hlt hxn hf => ?_⟩
  · exact goes_again (pre := [x]) (post := []) hl h6 both (fun _ h => absurd h List.not_mem_nil) ho.symm hn (fun _ h => nomatch h)
  · have h := goes_onward (pre := []) hl h6 outer (inner hn) (ho ▸ hlt)
    rw [ho] at h
    simpa using h
  · have h := goes_again (pre := []) hl h6 outer (inner hn) (hlt.symm.trans ho.symm) hxn fun k hk => by
      obtain rfl := Option.some.inj hk
      exact hf
    simpa using h

/-- At the bundle before an inner level's first one: the level is entered; or it has no iterations, and is skipped. -/
theorem goes_into (hxo : x.first ≤ w.me.loop.offset) (hle : y.first ≤ y.last) (hyx : y.last ≤ x.last) (ho : w.me.loop.offset + 1 = y.first) :
    (0 < y.passes → w.Goes y.first [x, y.restart] []) ∧
    (y.passes = 0 → y.last < x.last → w.Goes (y.last + 1) [x, y.restart] []) ∧
    (y.passes = 0 → y.last = x.last → 1 < x.left → x.first < y.first → w.Goes x.first [x.done, y.restart] (x.flying w.focus)) := by
  have hs := seek_before hl hxo hle hyx ho
  refine ⟨fun hp => ?_, fun hp hlt => ?_, fun hp hlast hn hf => ?_⟩
  · exact goes_of_seek (hs.trans (seek_two_enter rfl hp.ne')) (incs_nil _)
  · exact goes_of_seek (hs.trans (seek_two_skip_onward rfl hp hle hlt)) (incs_nil _)
  · exact goes_of_seek (hs.trans (seek_two_skip_again rfl hp hlast hn hf)) (incs_increment ..)

/-- The outer level goes back to where the inner one begins. -/
theorem goes_back (hxo : x.first ≤ w.me.loop.offset) (ho : w.me.loop.offset = x.last) (hf : x.first = y.first) (hn : 1 < x.left) (hp : 0 < y.passes) :
    (y.last = x.last → y.left ≤ 1 → w.Goes x.first [x.done, y.restart] (y.flying w.focus ++ x.flying w.focus)) ∧
    (y.last < x.last → w.Goes x.first [x.done, y.restart] (x.flying w.focus)) := by
  refine ⟨fun hy hyn => ?_, fun hy => ?_⟩
  · exact goes_of_seek ((seek_back_both hl hxo ho hn (hf ▸ hxo) hy hyn).trans (seek_two_enter (y := y.done) hf.symm hp.ne'))
      (by rw [List.map_append, incs_increment, incs_increment])
  · exact goes_of_seek ((seek_back hl hxo ho hn hy).trans (seek_two_enter hf.symm hp.ne')) (incs_increment ..)

end
end Work

/-- Settles O18: nests by `goes_onward`, `goes_again` and `ends_nest`; an inner level's first bundle by `goes_into` and `goes_back`. -/
theorem loopIteration : Obligations.LoopIteration := by
  unfold Obligations.LoopIteration
  intro s x y e q r incs done goes ends
  refine ⟨fun hl ho hle => ?_, fun hl ho hxy hle hyx => ?_, fun pre post z hl h6 hpre hpost => ?_, ?_⟩
  · have h6 : q.levels.length ≤ 6 := by
      rw [hl]
      exact show 1 ≤ 6 by decide
    have hpre (k : LoopLevel) (hk : k ∈ [] ++ [x]) : k.first ≤ q.offset ∧ q.offset ≤ k.last := by
      obtain rfl : k = x := List.mem_singleton.mp hk
      exact ⟨ho ▸ hle, ho.le⟩
    exact ⟨fun hn => Work.goes_again (pre := []) (post := []) hl h6 hpre (fun _ h => absurd h List.not_mem_nil) ho.symm hn (fun _ h => nomatch h) e,
      fun hn => Work.ends_nest (pre := []) (post := []) hl h6 hpre (fun _ h => absurd h List.not_mem_nil) rfl ho.symm hn e⟩
  · obtain ⟨again, onward, both⟩ := Work.goes_of_two (w := s.work) hl ho hxy hle hyx
    exact ⟨fun hn => again hn e, fun hn hlt => onward hn hlt e, fun hn hlt hxn hf => both hn hlt hxn hf e⟩
  · exact ⟨fun hz => Work.goes_onward hl h6 hpre hpost hz e, fun hz hn hf => Work.goes_again hl h6 hpre hpost hz hn hf e,
      fun hp hz hn => Work.ends_nest hl h6 hpre hpost hp hz hn e⟩
  · intro hl hxo hox hxy hle hyx hs start skip
    refine ⟨fun ho => ?_, fun ho hf hn hp => ?_⟩
    · obtain ⟨enter, onward, again⟩ := Work.goes_into (w := s.work) hl hxo hle hyx ho
      refine ⟨fun hp => ?_, fun hp hlt => ?_, fun hp hlast hn hf => ?_⟩
      · have h := enter (passes_pos hp hs) e
        rwa [restart_of_pos hp] at h
      · have h := onward (passes_of_zero hp) hlt e
        rwa [restart_of_zero hp] at h
      · have h := again (passes_of_zero hp) hlast hn hf e
        rwa [restart_of_zero hp] at h
    · obtain ⟨both, outer⟩ := Work.goes_back (w := s.work) hl hxo ho hf hn (passes_pos hp hs)
      rw [restart_of_pos hp] at both outer
      exact ⟨fun hy hyn => both hy hyn e, fun hy => outer hy e⟩

end Sys2Proof.Machine
end

section
/-! PROOFS. LEXIT (03_core R69, 23_ref R434): where the sequencer stands behind it, and the uses of the sequencer that take LOOPSEQ. -/
namespace Sys2Proof.Machine
open Sys2Proof.Claim

/-! ## Levels that have been left -/

theorem over_incs (l : LoopLevel) : l.over.first = l.first ∧ l.over.last = l.last ∧ l.over.left = 0 := ⟨rfl, rfl, rfl⟩

namespace Work
variable {w : Work} {x y : LoopLevel} {o : Nat}

theorem exitLoop_eq {l : Nat} (h : w.me.loop.levels[l]? = some x) : w.exitLoop l =
    (w.follow w.me.loop (seek seekFuel true (w.me.loop.levels.take l ++ (w.me.loop.levels.drop l).map LoopLevel.over) [] x.last l)).2.modFocus fun g =>
      { g with redirect := some (w.follow w.me.loop (seek seekFuel true (w.me.loop.levels.take l ++ (w.me.loop.levels.drop l).map LoopLevel.over) [] x.last l)).1 } := by
  rw [exitLoop, h]

/-- Level 0 is left: no increment is applied, and the bundle behind the body is next. -/
theorem exitLoop_outer {xs : List LoopLevel} (h : w.me.loop.levels = x :: xs) : w.exitLoop 0 =
    ((w.loopAddr w.me.loop w.me.loop.bodyLen).2.modMe fun c => { c with loop := .none }).modFocus fun g =>
      { g with redirect := some (w.loopAddr w.me.loop w.me.loop.bodyLen).1 } := by
  rw [exitLoop_eq (x := x) (by rw [h]; rfl), show seekFuel = 1999 + 1 from rfl, seek_out, follow_of_none rfl, putIncs_nil]

section
variable {pre post : List LoopLevel} (hl : w.me.loop.levels = pre ++ x :: y :: post)
include hl

theorem exit_levels : w.me.loop.levels.take (pre.length + 1) ++ (w.me.loop.levels.drop (pre.length + 1)).map LoopLevel.over =
    pre ++ x :: (y :: post).map LoopLevel.over := by
  rw [hl, List.append_cons, show pre.length + 1 = (pre ++ [x]).length by simp, List.take_left, List.drop_left, List.append_assoc]
  rfl

theorem exit_level : w.me.loop.levels[pre.length + 1]? = some y := by
  rw [hl, getElem?_behind]
  rfl

/-- An inner level is left, and the enclosing one goes on behind it. -/
theorem exitLoop_inner (hle : y.first ≤ y.last) (hyx : y.last < x.last) {q : LoopSeq} {a : Word} {v : Work}
    (hq : q = { w.me.loop with levels := pre ++ x :: (y :: post).map LoopLevel.over, offset := y.last + 1 })
    (ha : (w.modMe fun c => { c with loop := q }).loopAddr q (y.last + 1) = (a, v)) :
    w.exitLoop (pre.length + 1) = v.modFocus fun g => { g with redirect := some a } := by
  have hs : seek seekFuel true (pre ++ x :: (y :: post).map LoopLevel.over) [] y.last (pre.length + 1) =
      ⟨pre ++ x :: (y :: post).map LoopLevel.over, [], some (y.last + 1)⟩ := by
    rw [show seekFuel = 1998 + 1 + 1 from rfl, seek_onward (getElem?_mid ..) hyx.ne', seek_stay]
    intro l h
    rw [getElem?_behind] at h
    obtain rfl := Option.some.inj h
    exact (Nat.lt_succ_of_le hle).ne
  rw [exitLoop_eq (exit_level hl), exit_levels hl, hs, follow_of_some rfl, putIncs_nil]
  subst hq
  rw [ha]

end

/-- An inner level is left where the enclosing one's iteration ends too. -/
theorem exitLoop_both (hl : w.me.loop.levels = [x, y]) (hf : x.first < y.first) (hyx : y.last = x.last) (hn : 1 < x.left) {a : Word} {v : Work}
    (ha : w.follow w.me.loop ⟨[x.done, y.over], x.incs, some x.first⟩ = (a, v)) : w.exitLoop 1 = v.modFocus fun g => { g with redirect := some a } := by
  have hs : seek seekFuel true ([x, y.over]) [] y.last 1 = ⟨[x.done, y.over], x.incs, some x.first⟩ := by
    rw [show seekFuel = 1998 + 1 + 1 from rfl, seek_again (l := x) rfl hyx.symm hn, seek_stay]
    · rfl
    · intro l h
      obtain rfl : y.over = l := Option.some.inj h
      exact hf.ne'
  rw [exitLoop_eq (x := y) (by rw [hl]; rfl), hl]
  rw [show List.take 1 [x, y] ++ (List.drop 1 [x, y]).map LoopLevel.over = [x, y.over] from rfl, hs, ha]

theorem before_eq {q : LoopSeq} (ho : o ≠ 0) : q.replay.find? (fun e => e.1 + 1 == o) = q.replay.find? (fun e => e.1 == o - 1) := by
  congr 1
  funext e
  rw [Bool.eq_iff_iff, beq_iff_eq, beq_iff_eq]
  omega

/-- Where the replay buffer holds a bundle or the one before it, its address is known without a fetch. -/
theorem loopAddr_of_kept {q : LoopSeq} {k : Nat × Fetched} (h : q.replay.find? (fun e => e.1 == o + 1) = some k ∨ q.replay.find? (fun e => e.1 == o) = some k) :
    ∃ a, w.loopAddr q (o + 1) = (a, w) := by
  cases hf : q.replay.find? fun e => e.1 == o + 1 with
  | some e => exact ⟨_, loopAddr_of_replay hf⟩
  | none =>
    rcases h with h | h
    · rw [hf] at h
      cases h
    · exact ⟨_, loopAddr_of_before hf (Nat.succ_ne_zero o) ((before_eq (Nat.succ_ne_zero o)).trans h)⟩

/-- A sequencer that holds no level, or whose innermost level does not hold the offset, is at no kernel bundle. -/
theorem moduloLevel_none (h : ∀ l, w.me.loop.levels.getLast? = some l → w.me.loop.offset ≤ l.last → l.modulo = false) : w.moduloLevel = none := by
  cases hm : w.moduloLevel with
  | none => rfl
  | some l =>
    obtain ⟨hl, hmod, -, ho⟩ := moduloLevel_eq_some.mp hm
    rw [h l hl ho] at hmod
    cases hmod

end Work

/-! ## A slot that decodes is not empty -/

theorem decodeSlot_of_empty (c : SlotClass) {w : BitVec 32} (h : field w 23 7 = 0#7) : decodeSlot c w none = none := by
  have fields : decodeFields c w none = none := by
    cases c
    · rw [decodeFields, decodeCtrl, h]; rfl
    · rw [decodeFields, decodeInt, decodeIntBranch, h]; rfl
    · rw [decodeFields, decodeInt, h]; rfl
    · rw [decodeFields, decodeMem, h]; rfl
    · rw [decodeFields, decodeVec, h]; rfl
    · rw [decodeFields, decodeMtx, h]; rfl
    · rw [decodeFields, decodeScl, h]; rfl
    · rw [decodeFields, decodeFlow, h]; rfl
  rw [decodeSlot, fields]
  rfl

theorem not_empty_of_instr {w : Work} {b : Bundle} {v : SlotView} (hv : v ∈ w.slotViews b) {i : Instr} (hi : v.instr = some i) :
    ¬(field v.word 23 7 = 0#7 ∧ v.ext = none) := by
  rintro ⟨hop, hext⟩
  have hh := Work.held_of_instr hv hi
  obtain ⟨k, -, -, rfl⟩ := Work.mem_slotViews.mp hv
  rw [Work.slotView_instr, if_pos hh, hext, decodeSlot_of_empty _ hop] at hi
  cases hi

/-! ## Shapes that take LOOPSEQ -/

theorem loopIllOp_of_empty {d : BitVec 1024} (h : descByte d 0 = 0) (m : Bool) (c : BitVec 6) : loopIllOp d m c = true := by
  unfold loopIllOp
  simp only [h, beq_self_eq_true, Bool.or_true, Bool.true_or]

theorem loopBadShape_of_long {d : BitVec 1024} (h : 64 < descByte d 1) : loopBadShape d = true := by
  unfold loopBadShape
  simp only [h, decide_true, Bool.true_or]

theorem loopBadShape_of_nest {d : BitVec 1024} {j : Nat} (hj : j + 1 < descByte d 0)
    (h : descByte d (36 + 16 * j) < descByte d (20 + 16 * j) ∨ descByte d (21 + 16 * j) < descByte d (37 + 16 * j)) : loopBadShape d = true := by
  have any : ((List.range (descByte d 0)).any fun j => j != 0 && (decide (descByte d (20 + 16 * j) < descByte d (20 + 16 * (j - 1))) ||
      decide (descByte d (21 + 16 * (j - 1)) < descByte d (21 + 16 * j)))) = true := by
    refine List.any_eq_true.mpr ⟨j + 1, List.mem_range.mpr hj, ?_⟩
    rw [Nat.add_sub_cancel, show 20 + 16 * (j + 1) = 36 + 16 * j by omega, show 21 + 16 * (j + 1) = 37 + 16 * j by omega]
    simpa using h
  unfold loopBadShape
  simp only [any, Bool.or_true, Bool.true_or]

theorem loopBadShape_of_modulo {d : BitVec 1024} (hn : descByte d 0 ≠ 0) (hm : descByte d 2 = 1)
    (h : descByte d (5 + 16 * descByte d 0) + 1 - descByte d (4 + 16 * descByte d 0) ≠ descByte d 3) : loopBadShape d = true := by
  have he : 21 + 16 * (descByte d 0 - 1) = 5 + 16 * descByte d 0 := by omega
  have hf : 20 + 16 * (descByte d 0 - 1) = 4 + 16 * descByte d 0 := by omega
  unfold loopBadShape
  simp only [he, hf, hm, bne_iff_ne.mpr h, beq_self_eq_true, Bool.and_true, Bool.or_true]


/-! ## LEXIT as an instruction -/

section
variable {s : State} {w v : Work} {a : Word} {l : BitVec 3}

theorem exec_lexit (h : s.work.exitLoop l.toNat = v) : exec (.lexit l) s = .next (left s v) := congrArg (fun w => Host.Outcome.next (left s w)) h

/-- What LEXIT leaves: the address that is next, beside the work of finding it. -/
theorem exec_lexit_redirect (h : s.work.exitLoop l.toNat = w.modFocus fun g => { g with redirect := some a }) : ∃ t, exec (.lexit l) s = .next t ∧
    t.mem = (left s w).mem ∧ t.focus.redirect = some a ∧ t.work.me = w.me :=
  ⟨_, exec_lexit h, rfl, rfl, (left_work_me ..).trans (Work.me_modFocus w (fun g => { g with redirect := some a }) rfl rfl)⟩

end

theorem moduloLevel_congr {w v : Work} (h : w.me = v.me) : w.moduloLevel = v.moduloLevel := by
  rw [Work.moduloLevel, Work.moduloLevel, h]

/-- The loop's LOOPSEQ cases that the descriptor's shape makes; a descriptor without a level has taken ILLOP before. -/
theorem loopBadShape_of_cases {d : BitVec 1024} (hn : descByte d 0 ≠ 0) (h : 64 < descByte d 1 ∨
    (∃ j, j + 1 < descByte d 0 ∧ (descByte d (36 + 16 * j) < descByte d (20 + 16 * j) ∨ descByte d (21 + 16 * j) < descByte d (37 + 16 * j))) ∨
    (descByte d 2 = 1 ∧ descByte d (5 + 16 * descByte d 0) + 1 - descByte d (4 + 16 * descByte d 0) ≠ descByte d 3)) : loopBadShape d = true := by
  rcases h with h | ⟨j, hj, h⟩ | ⟨hm, h⟩
  · exact loopBadShape_of_long h
  · exact loopBadShape_of_nest hj h
  · exact loopBadShape_of_modulo hn hm h

/-- A LOOP that no slot's ILLOP stops names a level. -/
theorem levels_of_not_ill {w : Work} {b : Bundle} {v : SlotView} {i : Instr} {l c : BitVec 6} {d : BitVec 1024} (hv : v ∈ w.slotViews b) (hi : v.instr = some i)
    (hill : w.slotIll (w.slotViews b) v = false) (hlo : i = .loop l c ∨ i = .loopm l c)
    (hd : w.loopDesc (decide (w.frameBusy.1 = some true)) l.toNat = some (some d)) : descByte d 0 ≠ 0 := by
  intro hn
  have ill {m : Bool} (h : (i = .loop l c ∧ m = false) ∨ (i = .loopm l c ∧ m = true)) : w.illOperand i = true :=
    Work.illOperand_loop rfl h (.inr ⟨d, hd, .inl (loopIllOp_of_empty hn m c)⟩)
  have hill' : w.illOperand i = true := by
    rcases hlo with h | h
    · exact ill (m := false) (.inl ⟨h, rfl⟩)
    · exact ill (m := true) (.inr ⟨h, rfl⟩)
  have := Work.slotIll_of_instr (w := w) (vs := w.slotViews b) (Work.held_of_instr hv hi) (not_empty_of_instr hv hi) hi (.inr (.inr (.inr hill')))
  rw [hill] at this
  cases this

/-- Settles O19: where LEXIT leaves the sequencer by `exitLoop_outer`, `exitLoop_inner` and `exitLoop_both`; LOOPSEQ is the fourth issue check. -/
theorem loopExit : Obligations.LoopExit := by
  unfold Obligations.LoopExit
  refine ⟨?_, ?_, ?_, fun z => ⟨rfl, rfl, rfl⟩, fun w q o => ⟨fun e he => Work.loopAddr_of_replay he, fun hn => ⟨fun e ho he => ?_, fun ho => ?_⟩⟩, ?_, ?_, ?_⟩
  · intro s w1 x xs a q hl ha
    have hx : s.work.exitLoop 0 = (w1.modMe fun c => { c with loop := .none }).modFocus fun g => { g with redirect := some a } := by
      rw [Work.exitLoop_outer hl, ha]
    obtain ⟨t, ht, hm, hr, hme⟩ := exec_lexit_redirect (l := 0) hx
    have me : t.work.me = { w1.me with loop := .none } := hme.trans (Work.me_modMe ..)
    refine ⟨t, ht, by rw [me]; rfl, hr, by rw [me], hm, Work.moduloLevel_of_idle (by rw [me]; rfl)⟩
  · intro s x y e q hl hxy hle hyx he
    have hx := Work.exitLoop_inner (pre := []) (post := []) hl hle hyx rfl (Work.loopAddr_of_replay he)
    obtain ⟨t, ht, hm, hr, hme⟩ := exec_lexit_redirect (l := 1) hx
    have me := hme.trans (Work.me_modMe ..)
    exact ⟨t, y.over, ht, hm, hr, by rw [me], by rw [me]; rfl, rfl, rfl, rfl⟩
  · intro s pre post x y l a w1 q q1 hl h6 hlen hxy hle hyx hpost ha
    have hx : s.work.exitLoop l.toNat = w1.modFocus fun g => { g with redirect := some a } := by
      rw [hlen]
      exact Work.exitLoop_inner hl hle hyx rfl ha
    obtain ⟨t, ht, hm, hr, hme⟩ := exec_lexit_redirect hx
    refine ⟨t, ht, hm, hr, by rw [hme], by rw [hme], fun k hk => ?_⟩
    have hw : w1 = s.work.modMe fun c => { c with loop := q1 } := by
      obtain ⟨a', ha'⟩ := Work.loopAddr_of_kept (w := s.work.modMe fun c => { c with loop := q1 }) (q := q1) hk
      rw [ha'] at ha
      exact (Prod.mk.inj ha).2.symm
    subst hw
    have me := hme.trans (Work.me_modMe ..)
    refine ⟨hm, by rw [me], by rw [me], Work.moduloLevel_none fun z hz ho => ?_⟩
    rw [me] at hz ho
    have hz' : ((y :: post).map LoopLevel.over).getLast? = some z := by
      have : (pre ++ x :: (y :: post).map LoopLevel.over).getLast? = some z := hz
      rwa [List.append_cons, List.getLast?_append_of_ne_nil _ (by simp)] at this
    obtain ⟨k, hk, rfl⟩ := List.mem_map.mp (List.mem_of_getLast? hz')
    have hlast : k.last ≤ y.last := by
      rcases List.mem_cons.mp hk with rfl | h
      · exact le_rfl
      · exact (hpost k h).2
    exact absurd ho (Nat.not_le.mpr (Nat.lt_succ_of_le hlast))
  · exact Work.loopAddr_of_before hn ho (by rw [Work.before_eq ho]; exact he)
  · refine Work.loopAddr_of_new hn ?_
    rcases Nat.eq_zero_or_pos o with h | h
    · exact .inl h
    · rw [Work.before_eq h.ne']
      exact .inr (ho.resolve_left h.ne')
  · intro s x y e q hl hxy hle hyx hn he
    have hx := Work.exitLoop_both hl hxy hyx hn (Work.follow_replay he)
    obtain ⟨t, ht, hm, hr, hme⟩ := exec_lexit_redirect (l := 1) hx
    have me := hme.trans (Work.me_modMe ..)
    have log : ((s.work.putIncs x.incs).modMe fun c => { c with loop := { q with levels := [x.done, y.over], offset := x.first } }).log = [] := Work.putIncs_log ..
    refine ⟨t, y.over, ht, hm.trans (congrArg (applyLog s.mem) log), hr, by rw [me]; rfl, rfl, ?_⟩
    rw [me]
    show (s.work.putIncs x.incs).me.inflight = _
    rw [Work.putIncs_me]
    exact congrArg (s.work.me.inflight ++ ·) (incs_increment ..)
  · intro w a he hb ht hr hp
    obtain ⟨x, hx, hme⟩ := Work.finishBundle_me (w := w) he hb ht (.inl hr)
    have pend : x.brPend = w.me.brPend := Ctx.field_of_begun (·.brPend) (fun _ => rfl) hx
    rw [hme]
    simp [Ctx.goTo, Ctx.countDelay, pend, hp]
  · intro w b vs handler hb hill hd v hv i hi loops h
    refine Work.trapsBy_loop hb hill hd (Work.slotViews_sorted w b) hv hi ?_
    rcases h with ⟨ha, h⟩ | ⟨l, c, d, hlo, hdesc, h⟩ | ⟨l, rfl, h⟩
    · refine Work.loopSeqBad_of_active ha ?_
      rcases h with ⟨o, h⟩ | ⟨o, h⟩ | h | ⟨l, c, h⟩
      · exact .inl (by rcases h with rfl | rfl | rfl | rfl <;> rfl)
      · exact .inl (by rcases h with rfl | rfl | rfl | rfl <;> rfl)
      · exact .inl (by rw [h]; rfl)
      · exact .inr (.inr ⟨l, c, h⟩)
    · exact Work.loopSeqBad_of_shape rfl hlo hdesc (loopBadShape_of_cases (levels_of_not_ill hv hi (hill v hv) hlo hdesc) h)
    · exact Work.loopSeqBad_of_lexit h

end Sys2Proof.Machine
end

section
/-! PROOFS. LOOP and LOOPM (03_core R66, R67, 23_ref R431 to R433, 14_traps R292): the descriptor they read, the levels it sets up, and the bundle that is next. -/
namespace Sys2Proof.Machine
open Sys2Proof.Claim

/-! ## Levels that begin with the body -/

/-- Levels from the outermost one inwards are at their first iteration, as far as they begin at an offset. -/
def startsAt (o : Nat) : List LoopLevel → List LoopLevel
  | [] => []
  | l :: ls => if l.first = o then l.restart :: startsAt o ls else l :: ls

theorem startsAt_length (o : Nat) (ls : List LoopLevel) : (startsAt o ls).length = ls.length := by
  induction ls with
  | nil => rfl
  | cons l ls ih =>
    rw [startsAt]
    split
    · rw [List.length_cons, ih, List.length_cons]
    · rfl

theorem startsAt_getElem? {o : Nat} {ls : List LoopLevel} {j : Nat} {m : LoopLevel} (h : ls[j]? = some m) :
    ∃ x, (startsAt o ls)[j]? = some x ∧ (x = m ∨ x = m.restart) ∧ ((∀ k, k ≤ j → ∀ l, ls[k]? = some l → l.first = o) → x = m.restart) := by
  induction ls generalizing j with
  | nil => cases h
  | cons l ls ih =>
    rw [startsAt]
    by_cases hl : l.first = o
    · rw [if_pos hl]
      match j with
      | 0 =>
        obtain rfl := Option.some.inj h
        exact ⟨l.restart, rfl, .inr rfl, fun _ => rfl⟩
      | j + 1 =>
        obtain ⟨x, hx, hor, hall⟩ := ih (j := j) h
        exact ⟨x, hx, hor, fun hk => hall fun k hkj l' hl' => hk (k + 1) (Nat.succ_le_succ hkj) l' hl'⟩
    · rw [if_neg hl]
      exact ⟨m, h, .inl rfl, fun hk => absurd (hk 0 (Nat.zero_le _) l rfl) hl⟩

/-- Levels that all have iterations are entered, the outer ones first. -/
theorem seek_enters {o : Nat} (f : Nat) (pre post : List LoopLevel) (h : ∀ m ∈ pre ++ post, m.passes ≠ 0) (incs : List (Nat × Word)) :
    seek (f + post.length + 1) false (pre ++ post) incs o pre.length = ⟨pre ++ startsAt o post, incs, some o⟩ := by
  induction post generalizing pre with
  | nil =>
    rw [seek_stay]
    · rfl
    · intro l hl
      rw [List.append_nil, List.getElem?_eq_none le_rfl] at hl
      cases hl
  | cons l post ih =>
    by_cases hl : l.first = o
    · have all (m : LoopLevel) (hm : m ∈ pre ++ l.restart :: post) : m.passes ≠ 0 := by
        rcases List.mem_append.mp hm with h1 | h1
        · exact h m (List.mem_append_left _ h1)
        · rcases List.mem_cons.mp h1 with rfl | h2
          · exact h l (List.mem_append_right _ List.mem_cons_self)
          · exact h m (List.mem_append_right _ (List.mem_cons_of_mem _ h2))
      have hh : hollow (pre ++ l.restart :: post) pre.length = false :=
        not_hollow fun j m _ hm hp => absurd hp (all m (List.mem_of_getElem? hm))
      rw [seek_enter (getElem?_mid ..) hl (h l (List.mem_append_right _ List.mem_cons_self)) (by rw [set_mid]; exact hh), set_mid, startsAt, if_pos hl]
      have hi := ih (pre ++ [l.restart]) (by rwa [List.append_assoc])
      rw [List.append_assoc, List.append_assoc, List.length_append] at hi
      exact hi
    · rw [startsAt, if_neg hl, seek_stay]
      intro m hm
      rw [getElem?_mid] at hm
      obtain rfl := Option.some.inj hm
      exact hl

/-! ## Two levels of which the inner one has no iterations -/

section
variable {x y : LoopLevel} (hx : x.first = 0) (hy : y.first = 0) (hp : x.passes ≠ 0) (hz : y.passes = 0)
include hx hy hp hz

/-- It is skipped. -/
theorem seek_start_skip (f : Nat) (he : y.last < x.last) : seek (f + 4) false [x, y] [] 0 0 = ⟨[x.restart, y.restart], [], some (y.last + 1)⟩ := by
  have hh : hollow [x.restart, y] 0 = false := by
    refine not_hollow fun j m hj hm _ k hk _ => ?_
    obtain rfl : x.restart = k := Option.some.inj hk
    match j, hj, hm with
    | 1, _, hm =>
      obtain rfl : y = m := Option.some.inj hm
      exact he.ne
  have enter : seek (f + 4) false [x, y] [] 0 0 = seek (f + 3) false [x.restart, y] [] 0 1 := seek_enter (l := x) rfl hx hp hh
  exact enter.trans (seek_two_skip_onward (x := x.restart) hy hz (by omega) he)

/-- Where its range is the outer one's, all the outer one's iterations are empty. -/
theorem seek_start_hollow (f : Nat) (he : y.last = x.last) :
    ∃ ls, seek (f + 2) false [x, y] [] 0 0 = ⟨ls, x.incs.map fun k => (k.1, k.2 * BitVec.ofNat 64 x.passes), none⟩ := by
  have hf : y.first = x.restart.first := hy.trans hx.symm
  have hh : hollow [x.restart, y] 0 = true := hollow_of_mem (l := x.restart) (j := 1) (m := y) rfl rfl Nat.zero_lt_one hf he hz
  have inner : hollowIncs (1 * x.restart.passes) [y] = [] := if_pos hz
  have hi : hollowIncs 1 [x.restart, y] = x.incs.map fun k => (k.1, k.2 * BitVec.ofNat 64 x.passes) := by
    rw [hollowIncs, if_neg (show x.restart.passes ≠ 0 from hp)]
    dsimp only
    rw [if_pos (show y.first = x.restart.first ∧ y.last = x.restart.last from ⟨hf, he⟩), inner, List.append_nil, Nat.one_mul]
    rfl
  have enter : seek (f + 2) false [x, y] [] 0 0 = seek (f + 1) true [x.over, y] (hollowIncs 1 [x.restart, y]) x.last 0 := seek_hollow (l := x) rfl hx hp hh
  exact ⟨[x.over, y], by rw [enter, hi, seek_out]⟩

end

/-! ## The levels of a descriptor -/

namespace Work

/-- Trip count of a level: the descriptor's, or a register's low half. -/
def tripCount (w : Work) (d : BitVec 1024) (c : BitVec 6) (j : Nat) : Nat :=
  if descByte d (22 + 16 * j) % 2 = 1 then (field (w.me.sReg (c + BitVec.ofNat 6 j)) 0 32).toNat else (descWord d (16 + 16 * j)).toNat

/-- Is a level of a descriptor a modulo one? -/
def isModulo (d : BitVec 1024) (j : Nat) : Bool := descByte d 2 % 2 == 1 && j + 1 == descByte d 0

/-- A level as a descriptor's record sets it up. -/
def loopLevel (w : Work) (d : BitVec 1024) (handler : Bool) (l c : BitVec 6) (j : Nat) : LoopLevel :=
  { total := w.tripCount d c j, left := 0, first := descByte d (20 + 16 * j), last := descByte d (21 + 16 * j), modulo := isModulo d j, handler := handler,
    stages := if isModulo d j then descByte d 4 else 0, ii := if isModulo d j then descByte d 3 else 0,
    inc0 := BitVec.ofNat 4 (descByte d (23 + 16 * j)), inc1 := BitVec.ofNat 4 (descByte d (23 + 16 * j) / 16),
    amt0 := descWord d (24 + 16 * j), amt1 := descWord d (28 + 16 * j), ldi := l.toNat, pass := 0 }

variable {w : Work} {d : BitVec 1024} {handler : Bool} {l c : BitVec 6} {j : Nat}

theorem loopLevels_eq (w : Work) (d : BitVec 1024) (handler : Bool) (l c : BitVec 6) :
    w.loopLevels d handler l c = (List.range (descByte d 0)).map (w.loopLevel d handler l c) := by
  unfold loopLevels
  refine List.map_congr_left fun j _ => ?_
  dsimp only
  rw [show 16 + 16 * j + 6 = 22 + 16 * j by omega, show 16 + 16 * j + 4 = 20 + 16 * j by omega, show 16 + 16 * j + 5 = 21 + 16 * j by omega,
    show 16 + 16 * j + 7 = 23 + 16 * j by omega, show 16 + 16 * j + 8 = 24 + 16 * j by omega, show 16 + 16 * j + 12 = 28 + 16 * j by omega]
  rfl

theorem loopLevels_getElem? (h : j < descByte d 0) : (w.loopLevels d handler l c)[j]? = some (w.loopLevel d handler l c j) := by
  rw [loopLevels_eq, List.getElem?_map, List.getElem?_range h]
  rfl

theorem loopLevels_length (w : Work) (d : BitVec 1024) (handler : Bool) (l c : BitVec 6) : (w.loopLevels d handler l c).length = descByte d 0 := by
  rw [loopLevels_eq, List.length_map, List.length_range]

theorem loopLevel_passes (h : 0 < w.tripCount d c j) :
    (w.loopLevel d handler l c j).passes = if isModulo d j then w.tripCount d c j + descByte d 4 - 1 else w.tripCount d c j := by
  rw [passes_of_pos (l := w.loopLevel d handler l c j) h]
  show (if isModulo d j then w.tripCount d c j + (if isModulo d j then descByte d 4 else 0) - 1 else _) = _
  split <;> rfl

theorem loopLevel_restart_left : (w.loopLevel d handler l c j).restart.left = (w.loopLevel d handler l c j).passes := rfl

theorem isModulo_single (h : descByte d 0 = 1) : isModulo d 0 = (descByte d 2 % 2 == 1) := by
  rw [isModulo, h]
  exact Bool.and_true _

theorem loopLevel_passes_pos (hs : descByte d 2 % 2 = 1 → 1 ≤ descByte d 4) (h : 0 < w.tripCount d c j) : (w.loopLevel d handler l c j).passes ≠ 0 := by
  rw [loopLevel_passes h]
  split
  · rename_i hm
    have := hs (by simpa using (Bool.and_eq_true .. |>.mp hm).1)
    omega
  · exact h.ne'

/-! ## The sequencer that LOOP leaves -/

/-- The sequencer before its first bundle. -/
def newLoop (w : Work) (d : BitVec 1024) (handler : Bool) (l c : BitVec 6) (start : Word) : LoopSeq :=
  ⟨start, 0, descByte d 1, w.loopLevels d handler l c, []⟩

theorem setupLoop_eq {v0 w1 v : Work} {start a : Word} (hb : w.frameBusy = (some handler, v0)) (hd : v0.loopDesc handler l.toNat = some (some d))
    (ha : (v0.readLoopLine handler l.toNat).addrAfter (v0.readLoopLine handler l.toNat).me.pc 1 = (start, w1))
    (hf : w1.follow (w1.newLoop d handler l c start) (seek seekFuel false (w1.loopLevels d handler l c) [] 0 0) = (a, v)) :
    w.setupLoop l c = v.modFocus fun g => { g with redirect := some a } := by
  have hh : (some handler == some true) = handler := by cases handler <;> rfl
  unfold newLoop at hf
  unfold setupLoop
  rw [hb]
  dsimp only
  rw [hh, hd]
  dsimp only
  rw [ha]
  dsimp only
  rw [hf]

section
variable {q : LoopSeq} {ls : List LoopLevel} {incs : List (Nat × Word)} (hq : q.replay = [])
include hq

theorem follow_first : w.follow q ⟨ls, [], some 0⟩ = (q.start, w.modMe fun x => { x with loop := { q with levels := ls, offset := 0 } }) := by
  rw [follow_of_some rfl, putIncs_nil, loopAddr_of_new (by rw [hq]; rfl) (.inl rfl)]
  rfl

theorem follow_new {o : Nat} {r : Word × Work} (h : (w.modMe fun x => { x with loop := { q with levels := ls, offset := o } }).addrAfter q.start o = r) :
    w.follow q ⟨ls, [], some o⟩ = r := by
  rw [follow_of_some rfl, putIncs_nil, loopAddr_of_new (by rw [hq]; rfl) (.inr (by rw [hq]; rfl))]
  exact h

theorem follow_past {a : Word} {v : Work} (h : (w.putIncs incs).addrAfter q.start q.bodyLen = (a, v)) :
    w.follow q ⟨ls, incs, none⟩ = (a, v.modMe fun x => { x with loop := .none }) := by
  rw [follow_of_none rfl, loopAddr_of_new (by rw [hq]; rfl) (.inr (by rw [hq]; rfl)), h]

end
/-! ## Descriptors -/

/-- Where no core holds a partial update of a line there is nothing to merge into it. -/
theorem recallLine_of_clean (h : ∀ c ∈ w.cores, c.2.upd = []) (line : Nat) : w.recallLine line = w := by
  have step (l : List (Nat × Core)) (hl : ∀ c ∈ l, c.2.upd = []) : l.foldl (fun (w : Work) c =>
      match c.2.upd.find? (·.line == line) with
      | some u => w.mergeUpd c.1 u
      | none => w) w = w := by
    induction l with
    | nil => rfl
    | cons c l ih =>
      rw [List.foldl_cons, hl c List.mem_cons_self]
      exact ih fun c hc => hl c (List.mem_cons_of_mem _ hc)
  exact step w.cores h

theorem loopDesc_dictionary (w : Work) (k : Nat) : w.loopDesc false k = match w.here.dict with | some d => d.loops[k]? | none => none := rfl

theorem loopDesc_outside {k : Nat} (h : (w.part w.myPart).hlcnt ≤ k) : w.loopDesc true k = none := by
  rw [loopDesc, if_pos rfl]
  exact if_neg (Nat.not_lt.mpr h)

theorem loopDesc_handler {k : Nat} (h : k < (w.part w.myPart).hlcnt) (hc : ∀ c ∈ w.cores, c.2.upd = []) : w.loopDesc true k =
    if (w.badUnit (128 * (w.part w.myPart).hltab + 128 * k) 128).isSome then some none
    else some (some (lineOf (w.bytes (128 * (w.part w.myPart).hltab + 128 * k) 128))) := by
  rw [loopDesc, if_pos rfl]
  dsimp only
  rw [if_pos h, recallLine_of_clean hc, Nat.mul_comm (w.part w.myPart).hltab]

/-- The outermost level's increments, as the descriptor gives them, a number of times over. -/
theorem loopLevel_incs (n : Word) : ((w.loopLevel d handler l c 0).incs.map fun x => (x.1, x.2 * n)) =
    ([(descByte d 23 % 16, descWord d 24), (descByte d 23 / 16, descWord d 28)].filter fun k => k.2 != 0).map fun k => (k.1, k.2.signExtend 64 * n) := by
  have byte : descByte d 23 < 256 := (field d (8 * 23) 8).isLt
  have pairs : [(descByte d 23 % 16, descWord d 24), (descByte d 23 / 16, descWord d 28)] =
      [((BitVec.ofNat 4 (descByte d 23)), descWord d 24), (BitVec.ofNat 4 (descByte d 23 / 16), descWord d 28)].map fun k => (k.1.toNat, k.2) := by
    simp only [List.map_cons, List.map_nil, BitVec.toNat_ofNat, Nat.reducePow]
    rw [Nat.mod_eq_of_lt (show descByte d 23 / 16 < 16 by omega)]
  rw [pairs, List.filter_map, List.map_map, incs_eq, List.map_map]
  rfl

/-! ## Where the sequencer begins -/

section
variable (h0 : descByte d 20 = 0)
include h0

/-- Level 0 without iterations: the body is skipped whole. -/
theorem seek_setup_empty (hn : 1 ≤ descByte d 0) (hc : w.tripCount d c 0 = 0) : ∃ ls, seek seekFuel false (w.loopLevels d handler l c) [] 0 0 = ⟨ls, [], none⟩ := by
  refine ⟨(w.loopLevels d handler l c).set 0 (w.loopLevel d handler l c 0).restart, ?_⟩
  rw [show seekFuel = 1998 + 1 + 1 from rfl, seek_skip (loopLevels_getElem? hn) h0 (passes_of_zero hc), seek_out]

end

section
variable (hn : descByte d 0 = 2)
include hn

theorem loopLevels_two : w.loopLevels d handler l c = [w.loopLevel d handler l c 0, w.loopLevel d handler l c 1] := by
  rw [loopLevels_eq, hn]
  rfl

theorem not_modulo_zero : isModulo d 0 = false := by
  rw [isModulo, hn, Bool.and_eq_false_iff]
  exact .inr rfl

/-- The outer of two levels issues as often as its trip count says. -/
theorem outer_passes (hp : 0 < w.tripCount d c 0) : (w.loopLevel d handler l c 0).passes = w.tripCount d c 0 := by
  rw [loopLevel_passes hp, not_modulo_zero hn]
  rfl

variable (h0 : descByte d 20 = 0) (hp : 0 < w.tripCount d c 0) (hz : w.tripCount d c 1 = 0) (h1 : descByte d 36 = 0)
include h0 hp hz h1

theorem seek_setup_skip (he : descByte d 37 < descByte d 21) : seek seekFuel false (w.loopLevels d handler l c) [] 0 0 =
    ⟨[(w.loopLevel d handler l c 0).restart, (w.loopLevel d handler l c 1).restart], [], some (descByte d 37 + 1)⟩ := by
  rw [loopLevels_two hn]
  exact seek_start_skip (x := w.loopLevel d handler l c 0) (y := w.loopLevel d handler l c 1) h0 h1 (by rw [outer_passes hn hp]; exact hp.ne')
    (passes_of_zero hz) 1996 he

theorem seek_setup_hollow (he : descByte d 37 = descByte d 21) : ∃ ls, seek seekFuel false (w.loopLevels d handler l c) [] 0 0 =
    ⟨ls, (w.loopLevel d handler l c 0).incs.map fun x => (x.1, x.2 * BitVec.ofNat 64 (w.tripCount d c 0)), none⟩ := by
  have h := seek_start_hollow (x := w.loopLevel d handler l c 0) (y := w.loopLevel d handler l c 1) h0 h1 (by rw [outer_passes hn hp]; exact hp.ne')
    (passes_of_zero hz) 1998 he
  rw [outer_passes hn hp] at h
  rw [loopLevels_two hn]
  exact h

end

/-- Levels that all have iterations: those whose range begins with the body are at their first one. -/
theorem seek_setup_all (h6 : descByte d 0 ≤ 6) (hs : descByte d 2 % 2 = 1 → 1 ≤ descByte d 4) (hp : ∀ j, j < descByte d 0 → 0 < w.tripCount d c j) :
    seek seekFuel false (w.loopLevels d handler l c) [] 0 0 = ⟨startsAt 0 (w.loopLevels d handler l c), [], some 0⟩ := by
  have all (m : LoopLevel) (hm : m ∈ [] ++ w.loopLevels d handler l c) : m.passes ≠ 0 := by
    rw [List.nil_append, loopLevels_eq] at hm
    obtain ⟨j, hj, rfl⟩ := List.mem_map.mp hm
    exact loopLevel_passes_pos hs (hp j (List.mem_range.mp hj))
  have h := seek_enters (o := 0) (seekFuel - 1 - (w.loopLevels d handler l c).length) [] (w.loopLevels d handler l c) all []
  have fuel : seekFuel - 1 - (w.loopLevels d handler l c).length + (w.loopLevels d handler l c).length + 1 = seekFuel := by
    have : seekFuel = 2000 := rfl
    rw [loopLevels_length]
    omega
  rw [fuel] at h
  exact h

end Work

section
variable {s : State} {i : Instr} {l c : BitVec 6}

theorem exec_loop (hi : i = .loop l c ∨ i = .loopm l c) {v : Work} (h : s.work.setupLoop l c = v) : exec i s = .next (left s v) := by
  subst h
  rcases hi with rfl | rfl <;> rfl

end

/-- Settles O17: the descriptor by the lemmas `loopDesc_…`, where the sequencer begins by the lemmas `seek_setup_…`. -/
theorem loopSetup : Obligations.LoopSetup := by
  unfold Obligations.LoopSetup
  refine ⟨fun s l c => ⟨⟨_, exec_loop (.inl rfl) rfl⟩, ⟨_, exec_loop (.inr rfl) rfl⟩⟩, ?_, ?_⟩
  · intro w k p pa
    refine ⟨fun d hd => by rw [Work.loopDesc_dictionary, hd], fun hd => by rw [Work.loopDesc_dictionary, hd], Work.loopDesc_outside, fun hk hc => ?_⟩
    rw [Work.loopDesc_handler hk hc]
    exact ⟨fun hu => by rw [hu]; rfl, fun u hu => by rw [hu]; rfl⟩
  · intro s v0 w1 h l c d start i hi hb hd w0 ha n B count F E md leaves behind hn1 hn6 h0 hE hs
    have leaves_of {a : Word} {v : Work} (hf : w1.follow (w1.newLoop d h l c start) (seek seekFuel false (w1.loopLevels d h l c) [] 0 0) = (a, v)) :
        exec i s = .next (left s (v.modFocus fun g => { g with redirect := some a })) := exec_loop hi (Work.setupLoop_eq hb hd ha hf)
    have skipped (h00 : count 0 = 0) (a : Word) (v : Work) (hv : behind w1 a v) : leaves v .none a := by
      obtain ⟨ls, hseek⟩ := Work.seek_setup_empty (w := w1) (handler := h) (l := l) (c := c) h0 hn1 h00
      refine leaves_of ?_
      rw [hseek]
      exact Work.follow_past rfl hv
    have entered (hp : ∀ j, j < n → 0 < count j) : leaves w1 ⟨start, 0, B, startsAt 0 (w1.loopLevels d h l c), []⟩ start := by
      refine leaves_of ?_
      rw [Work.seek_setup_all hn6 hs hp]
      exact Work.follow_first rfl
    refine ⟨fun hn => ⟨fun hp => ?_, skipped⟩, skipped, fun hp => ?_, fun hn hp hz h1 he => ?_, ?_⟩
    · have hp' : ∀ j, j < n → 0 < count j := fun j hj => by
        obtain rfl : j = 0 := by omega
        exact hp
      have one : startsAt 0 (w1.loopLevels d h l c) = [(w1.loopLevel d h l c 0).restart] := by
        rw [Work.loopLevels_eq, show descByte d 0 = 1 from hn]
        exact if_pos h0
      refine ⟨(w1.loopLevel d h l c 0).restart, one ▸ entered hp', ?_, rfl, rfl, h0, rfl, rfl, rfl, rfl⟩
      rw [Work.loopLevel_restart_left, Work.loopLevel_passes hp, Work.isModulo_single hn]
      simp only [beq_iff_eq]
      rfl
    · refine ⟨_, entered hp, (startsAt_length ..).trans (Work.loopLevels_length ..), fun j hj => ?_⟩
      obtain ⟨x, hx, hor, hall⟩ := startsAt_getElem? (o := 0) (Work.loopLevels_getElem? (w := w1) (handler := h) (l := l) (c := c) hj)
      refine ⟨x, hx, ?_⟩
      have left (hk : ∀ k, k ≤ j → F k = 0) : x.left = if md j then count j + descByte d 4 - 1 else count j := by
        have : x = _ := hall fun k hkj m hm => by
          rw [Work.loopLevels_getElem? (Nat.lt_of_le_of_lt hkj hj)] at hm
          obtain rfl := Option.some.inj hm
          exact hk k hkj
        rw [this]
        exact Work.loopLevel_passes (hp j hj)
      rcases hor with rfl | rfl
      · exact ⟨rfl, rfl, rfl, rfl, rfl, rfl, rfl, rfl, rfl, rfl, rfl, rfl, rfl, left⟩
      · exact ⟨rfl, rfl, rfl, rfl, rfl, rfl, rfl, rfl, rfl, rfl, rfl, rfl, rfl, left⟩
    · refine ⟨(w1.loopLevel d h l c 0).restart, (w1.loopLevel d h l c 1).restart, Work.outer_passes hn hp, rfl, rfl, passes_of_zero hz, h1, rfl, ?_⟩
      intro q a v hv
      refine leaves_of ?_
      rw [Work.seek_setup_skip hn h0 hp hz h1 he]
      exact Work.follow_new rfl hv
    · intro hn hp hz h1 he incs a v hv
      obtain ⟨ls, hseek⟩ := Work.seek_setup_hollow (w := w1) (handler := h) (l := l) (c := c) hn h0 hp hz h1 he
      refine leaves_of ?_
      rw [hseek, Work.loopLevel_incs]
      exact Work.follow_past rfl hv

end Sys2Proof.Machine
end

section
/-! PROOFS. The matrix array's control state (06_matrix R129 to R131, R137, R138, 24_ref R455): modes, the A latch loaded from vector registers, arming and
staging change the array and nothing else. -/
namespace Sys2Proof.Machine
open Sys2Proof.Claim

/-- From `w` to `v` only arrays have changed; that of the focus's core has become `B`. -/
structure Work.ArrayIs (w v : Work) (B : Arr) : Prop where
  arr : v.here.arr = B
  log : v.log = w.log
  focus : v.focus = w.focus
  ctx : ∀ n k, v.ctx n k = w.ctx n k

/-- What `exec` leaves where only the array has changed. -/
def Becomes (s : State) (i : Instr) (B : Arr) : Prop :=
  ∃ t, exec i s = .next t ∧ t.work.here.arr = B ∧ t.mem = s.mem ∧ ∀ n k, t.work.ctx n k = s.work.ctx n k

namespace Work.ArrayIs
variable {w v : Work} {B : Arr}

theorem refl (w : Work) : ArrayIs w w w.here.arr := ⟨rfl, rfl, rfl, fun _ _ => rfl⟩

theorem modArr (h : ArrayIs w v B) (f : Arr → Arr) : ArrayIs w (v.modArr v.focus.core f) (f B) where
  arr := (congrArg Core.arr (here_modHere v fun c => { c with arr := f c.arr })).trans (congrArg f h.arr)
  log := h.log
  focus := h.focus
  ctx n k := (ctx_modCore v v.focus.core (f := fun c => { c with arr := f c.arr }) (fun _ => rfl) n k).trans (h.ctx n k)

/-- Staging one write after another appends them to those staged. -/
theorem foldl_stage {α : Type} (top : Bool) (seg lo : α → Nat) (codes : α → List Byte) :
    ∀ (xs : List α) {v : Work} {B : Arr}, ArrayIs w v B →
      ArrayIs w (xs.foldl (fun u x => u.stage top (seg x) (lo x) (codes x)) v)
        { B with staged := B.staged ++ xs.map fun x => ⟨3, top, seg x, lo x, codes x⟩ }
  | [], _, B, h => (List.append_nil B.staged).symm ▸ h
  | x :: xs, v, B, h => by
    have hx := foldl_stage top seg lo codes xs (h.modArr fun a => { a with staged := a.staged ++ [⟨3, top, seg x, lo x, codes x⟩] })
    rwa [List.append_assoc] at hx

theorem becomes {s : State} {i : Instr} {f : Work → Work} (he : exec i s = .next (lift f s)) (h : ArrayIs s.work (f s.work) B) : Becomes s i B :=
  ⟨lift f s, he, h.arr, congrArg (applyLog s.mem) h.log, h.ctx⟩

end Work.ArrayIs

section
variable (s : State)

/-- An instruction that changes the array by `f`, which may read the step's work. -/
theorem becomes_modArr {i : Instr} {f : Work → Arr → Arr} (he : exec i s = .next (lift (fun w => w.modArr w.focus.core (f w)) s)) :
    Becomes s i (f s.work s.work.here.arr) := Work.ArrayIs.becomes he ((Work.ArrayIs.refl s.work).modArr (f s.work))

theorem exec_mmode_becomes (m : BitVec 3) (src : BitVec 2) :
    Becomes s (.mmode m src) { s.work.here.arr with mode := m, bsrc := src, aLatch := 0, aPoison := false } :=
  becomes_modArr s (f := fun _ a => { a with mode := m, bsrc := src, aLatch := 0, aPoison := false }) rfl

theorem wideMode_iff (m : BitVec 3) : wideMode m = true ↔ m = 1 ∨ m = 2 ∨ m = 3 := by
  simp [wideMode, or_assoc]

theorem aUnits_eq (m : BitVec 3) : aUnits m = if m = 1 ∨ m = 2 ∨ m = 3 then 2 else 1 := if_congr (wideMode_iff m) rfl rfl

/-- The A latch from one vector register, or in a wide mode from two. -/
theorem exec_mpushV_becomes (v : BitVec 5) :
    Becomes s (.mpushV v)
      { s.work.here.arr with aLatch := (if aUnits s.work.here.arr.mode = 2 then vOp s 1 (v + 1) else 0) ++ vOp s 0 v, aPoison := false } := by
  have h := becomes_modArr s (i := .mpushV v)
    (f := fun w a => { a with
      aLatch := ((if wideMode w.here.arr.mode then [w.rdV 0 v, w.rdV 1 (v + 1)] else [w.rdV 0 v]).getD 1 0) ++
        ((if wideMode w.here.arr.mode then [w.rdV 0 v, w.rdV 1 (v + 1)] else [w.rdV 0 v]).getD 0 0), aPoison := false }) rfl
  cases hm : wideMode s.work.here.arr.mode with
  | false => rw [hm] at h; rw [aUnits, hm]; exact h
  | true => rw [hm] at h; rw [aUnits, hm]; exact h

/-! ## Arming -/

/-- The arm state that a register's word and the columns give. -/
def armed (v : Word) (add : Bool) (c d : BitVec 4) : Arm :=
  ⟨add, (field v 0 10).toNat, if (field v 10 11).toNat = 0 then 1024 else (field v 10 11).toNat, (field v 0 10).toNat, c.toNat, d.toNat⟩

theorem exec_maccArmSet_becomes (x : BitVec 6) (c d : BitVec 4) :
    Becomes s (.maccArmSet x c d) { s.work.here.arr with arm := some (armed (sOp s 0 x) false c d) } :=
  becomes_modArr s (f := fun w a => { a with arm := some (armed (w.rdS 0 x) false c d) }) rfl

theorem exec_maccArmAdd_becomes (x : BitVec 6) (c d : BitVec 4) :
    Becomes s (.maccArmAdd x c d) { s.work.here.arr with arm := some (armed (sOp s 0 x) true c d) } :=
  becomes_modArr s (f := fun w a => { a with arm := some (armed (w.rdS 0 x) true c d) }) rfl

theorem exec_maccOff_becomes : Becomes s .maccOff { s.work.here.arr with arm := none } := becomes_modArr s (f := fun _ a => { a with arm := none }) rfl

/-- The row that follows, for a row and a count that are in range. -/
theorem Arm.next_eq (k : Arm) (h : k.first ≤ k.ptr) (hp : k.ptr < 1024) :
    k.next = { k with ptr := (k.first + (k.ptr - k.first + 1) % k.count) % 1024 } := by
  have e : (k.ptr + 1024 - k.first) % 1024 = k.ptr - k.first := by omega
  rw [Arm.next, e]

/-! ## Staging -/

/-- The array with writes staged. -/
def Arr.staging (a : Arr) (ls : List LatchWrite) : Arr := { a with staged := a.staged ++ ls }

theorem exec_sclA_becomes (v : BitVec 5) : Becomes s (.sclA v) (s.work.here.arr.staging [⟨3, false, 0, 0, (lineBytes (vOp s 0 v)).take 16⟩]) :=
  becomes_modArr s (f := fun w a => a.staging [⟨3, false, 0, 0, (lineBytes (w.rdV 0 v)).take 16⟩]) rfl

theorem exec_sclB_becomes (v : BitVec 5) (e : BitVec 4) (h : BitVec 1) :
    Becomes s (.sclB v e h) (s.work.here.arr.staging [⟨3, true, e.toNat, 128 * h.toNat, lineBytes (vOp s 0 v)⟩]) :=
  becomes_modArr s (f := fun w a => a.staging [⟨3, true, e.toNat, 128 * h.toNat, lineBytes (w.rdV 0 v)⟩]) rfl

theorem exec_scliA_short_becomes (e : BitVec 4) (q : BitVec 8) :
    Becomes s (.scliA e (.short q)) (s.work.here.arr.staging [⟨3, false, 0, 0, List.replicate 16 q⟩]) :=
  becomes_modArr s (f := fun _ a => a.staging [⟨3, false, 0, 0, List.replicate 16 q⟩]) rfl

theorem exec_scliB_short_becomes (e : BitVec 4) (q : BitVec 8) :
    Becomes s (.scliB e (.short q)) (s.work.here.arr.staging [⟨3, true, e.toNat, 0, List.replicate 256 q⟩]) :=
  becomes_modArr s (f := fun _ a => a.staging [⟨3, true, e.toNat, 0, List.replicate 256 q⟩]) rfl

theorem codes4_eq (w : BitVec 32) : codes4 w = [field w (8 * 0) 8, field w (8 * 1) 8, field w (8 * 2) 8, field w (8 * 3) 8] := rfl

theorem exec_scliA_long_becomes (e : BitVec 4) (w : BitVec 32) :
    Becomes s (.scliA e (.long w)) (s.work.here.arr.staging [⟨3, false, 0, 4 * e.toNat, codes4 w⟩]) :=
  becomes_modArr s (f := fun _ a => a.staging [⟨3, false, 0, 4 * e.toNat, codes4 w⟩]) rfl

theorem exec_scliB_long (e : BitVec 4) (w : BitVec 32) : exec (.scliB e (.long w)) s = .next (lift (fun u =>
    ((List.range 4).zip (codes4 w)).foldl (fun u x => u.stage true (4 * e.toNat + x.1) 0 (List.replicate 256 x.2)) u) s) := rfl

/-- A list of four numbered by its places. -/
theorem map_zip_range_four {α β : Type} (g : Nat → α) (h : Nat × α → β) :
    ((List.range 4).zip ((List.range 4).map g)).map h = (List.range 4).map fun j => h (j, g j) := rfl

/-- A long form fills the top latches of four segments, one staged write for each. -/
theorem exec_scliB_long_becomes (e : BitVec 4) (w : BitVec 32) :
    Becomes s (.scliB e (.long w))
      (s.work.here.arr.staging ((List.range 4).map fun j => ⟨3, true, 4 * e.toNat + j, 0, List.replicate 256 (field w (8 * j) 8)⟩)) := by
  have h := Work.ArrayIs.foldl_stage true (fun x : Nat × Byte => 4 * e.toNat + x.1) (fun _ => 0) (fun x => List.replicate 256 x.2)
    ((List.range 4).zip (codes4 w)) (Work.ArrayIs.refl s.work)
  rw [codes4, map_zip_range_four] at h
  exact Work.ArrayIs.becomes (exec_scliB_long s e w) h

end

end Sys2Proof.Machine
end

section
/-! PROOFS. GSET, GADV and GLDD (03_core R75, 22_ref R421): a stream register replaced, moved by columns and rows, or loaded from memory. -/
namespace Sys2Proof.Machine
open Sys2Proof.Claim

section
variable {s : State}

/-- A stream register in flight. -/
theorem lift_put_gReg (s : State) (n lat : Nat) (v : Line) :
    lift (fun w => w.put { kind := .gReg, reg := n, value := v, lat := lat }) s = result s .gReg n v lat :=
  lift_put s ⟨.gReg, n, v, lat, 0, 0, false⟩ BitVec.getLsbD_zero rfl

theorem lift_putG (s : State) (g : Stream) (d : BitVec 4) (lat : Nat) :
    lift (fun w => w.putG d g lat) s = result s .gReg d.toNat ((g.pos ++ g.layout ++ g.base).setWidth 1024) lat := by
  unfold Work.putG
  generalize (g.pos ++ g.layout ++ g.base).setWidth 1024 = v
  exact lift_put_gReg s d.toNat lat v

theorem lift_putG_of (s : State) (f : Work → Stream) (d : BitVec 4) (lat : Nat) :
    lift (fun w => w.putG d (f w) lat) s = result s .gReg d.toNat (((f s.work).pos ++ (f s.work).layout ++ (f s.work).base).setWidth 1024) lat :=
  (lift_congr (g := fun w => w.putG d (f s.work) lat) rfl).trans (lift_putG s (f s.work) d lat)

theorem exec_gset (g : BitVec 4) (x y : BitVec 6) :
    exec (.gset g x y) s = .next (result s .gReg g.toNat ((0#64 ++ sOp s 1 y ++ sOp s 0 x).setWidth 1024) 1) :=
  congrArg Host.Outcome.next (lift_putG_of s (fun w => ⟨w.rdS 0 x, w.rdS 1 y, 0⟩) g 1)

theorem exec_gadv (g : BitVec 4) (x : BitVec 6) :
    exec (.gadv g x) s = .next (result s .gReg g.toNat
      ((gadvPos (s.work.me.gReg g).layout (s.work.me.gReg g).pos (sOp s 1 x) ++ (s.work.me.gReg g).layout ++ (s.work.me.gReg g).base).setWidth 1024) 1) :=
  congrArg Host.Outcome.next
    (lift_putG_of s (fun w => { w.me.gReg g with pos := gadvPos (w.me.gReg g).layout (w.me.gReg g).pos (w.rdS 1 x) }) g 1)

theorem exec_gldd_misaligned {g a : BitVec 4} (h : (aOp s 0 a).toNat % 32 ≠ 0) :
    exec (.gldd g a) s = .next (trapped s (.gldd g a) { code := 0x10, addr := aOp s 0 a }) := by
  refine runSlotKeep_trap s _ (glddAct g a) _ ?_
  simp [glddAct, aligned, h, cAccess]

/-- 24 bytes from a multiple of 32 on lie in one line. -/
theorem pieces_of_aligned {n : Nat} (h : n % 32 = 0) : pieces n 3 24 = [(0, 24)] := by
  have hk : min 24 (128 - n % 128) = 24 := by omega
  simp [pieces, hk]

theorem exec_gldd {g a : BitVec 4} {bs : List Byte} {pl : Place} {w : Work} (h : (aOp s 0 a).toNat % 32 = 0)
    (hl : loadAt .global (aOp s 0 a) 24 s.work = (.ok (bs, pl), w)) :
    exec (.gldd g a) s = .next (left s
      (w.put ⟨.gReg, g.toNat, BitVec.ofNat 1024 (leNat bs), max 1 (loadLatency s.work s.focus.core pl), 0, 0, true⟩)) := by
  refine runSlotKeep_ok s _ (glddAct g a) _ ?_
  have hz : s.work.rdA 0 a + BitVec.ofNat 64 0 = s.work.rdA 0 a := BitVec.add_zero _
  have hl' : loadAt .global (s.work.rdA 0 a) 24 s.work = (.ok (bs, pl), w) := hl
  simp only [glddAct, aligned, act_bind, act_get, act_pure, h, ne_eq, not_true_eq_false, if_false, pieces_of_aligned h, List.mapM_cons,
    List.mapM_nil, hz, act_access, hl', act_modify]
  simp
end

end Sys2Proof.Machine
end

section
/-! PROOFS. Digits of numbers, and the scale latches that a staged write reaches byte by byte (06_matrix R138). -/
namespace Sys2Proof
open Sys2Proof.Machine

/-! ## Digits -/

/-- A field of a number's bits. -/
theorem field_ofNat {n lo len : Nat} (x : Nat) (h : lo + len ≤ n) : field (BitVec.ofNat n x) lo len = BitVec.ofNat len (x / 2 ^ lo) := by
  refine BitVec.eq_of_getLsbD_eq fun i hi => ?_
  rw [field, BitVec.getLsbD_extractLsb', BitVec.getLsbD_ofNat, BitVec.getLsbD_ofNat, Nat.testBit_div_two_pow]
  simp [hi, show lo + i < n by omega, Nat.add_comm]

/-- Digit `j` of a number given by its digits. -/
theorem ofDigits_digit {p j x : Nat} {l : List Nat} (hl : ∀ d ∈ l, d < p) (h : l[j]? = some x) : Nat.ofDigits p l / p ^ j % p = x := by
  have hx : x < p := hl x (List.mem_of_getElem? h)
  obtain ⟨hj, hg⟩ := List.getElem?_eq_some_iff.mp h
  rw [Nat.ofDigits_div_pow_eq_ofDigits_drop j (by omega) l hl, List.drop_eq_getElem_cons hj, hg, Nat.ofDigits_cons, Nat.add_mul_mod_self_left,
    Nat.mod_eq_of_lt hx]

/-- A field that is one digit, where the digits have as many bits. -/
theorem field_ofDigits {n k j x : Nat} {l : List Nat} (hl : ∀ d ∈ l, d < 2 ^ k) (h : l[j]? = some x) (hn : k * j + k ≤ n) :
    field (BitVec.ofNat n (Nat.ofDigits (2 ^ k) l)) (k * j) k = BitVec.ofNat k x := by
  rw [field_ofNat _ hn, pow_mul]
  apply BitVec.eq_of_toNat_eq
  rw [BitVec.toNat_ofNat, BitVec.toNat_ofNat, ofDigits_digit hl h, Nat.mod_eq_of_lt (hl x (List.mem_of_getElem? h))]

/-- A sum of places, one after the other. -/
theorem foldl_places_eq_ofDigits (f : Nat → Nat) (m : Nat) :
    (List.range m).foldl (fun acc i => acc + f i * 2 ^ (8 * i)) 0 = Nat.ofDigits (2 ^ 8) ((List.range m).map f) := by
  induction m with
  | zero => rfl
  | succ m ih =>
    rw [List.range_succ, List.foldl_append, ih, List.map_append, Nat.ofDigits_append, List.length_map, List.length_range, ← pow_mul, mul_comm]
    simp [mul_comm]

end Sys2Proof

namespace Sys2Proof.Machine
open Sys2Proof.Claim

/-! ## Scale latches -/

/-- Byte `i` of a latch after a staged write. -/
def LatchWrite.code (l : LatchWrite) {n : Nat} (v : BitVec n) (i : Nat) : Byte :=
  if l.lo ≤ i ∧ i < l.lo + l.codes.length then l.codes.getD (i - l.lo) 0 else field v (8 * i) 8

/-- A latch after a staged write. -/
def LatchWrite.latch (l : LatchWrite) {n : Nat} (v : BitVec n) : BitVec n :=
  BitVec.ofNat n (Nat.ofDigits (2 ^ 8) ((List.range (n / 8)).map fun i => (l.code v i).toNat))

theorem LatchWrite.field_latch (l : LatchWrite) {n j : Nat} (v : BitVec n) (h : j < n / 8) : field (l.latch v) (8 * j) 8 = l.code v j := by
  have hj : ((List.range (n / 8)).map fun i => (l.code v i).toNat)[j]? = some (l.code v j).toNat := by simp [h]
  have hl : ∀ d ∈ (List.range (n / 8)).map (fun i => (l.code v i).toNat), d < 2 ^ 8 := by
    simp only [List.mem_map]
    rintro _ ⟨i, -, rfl⟩
    exact (l.code v i).isLt
  rw [LatchWrite.latch, field_ofDigits hl hj (by omega), BitVec.ofNat_toNat, BitVec.setWidth_eq]

theorem Arr.activate_eq (a : Arr) (l : LatchWrite) :
    a.activate l = if l.top then { a with topT := setNth a.topT l.seg (l.latch (nth a.topT l.seg)) } else { a with leftL := l.latch a.leftL } := by
  have latch {n : Nat} (v : BitVec n) : BitVec.ofNat n ((List.range (n / 8)).foldl (fun acc i =>
      acc + (if l.lo ≤ i ∧ i < l.lo + l.codes.length then (l.codes.getD (i - l.lo) 0).toNat else (field v (8 * i) 8).toNat) * 2 ^ (8 * i)) 0) = l.latch v := by
    rw [foldl_places_eq_ofDigits, LatchWrite.latch]
    congr 3
    funext i
    exact (apply_ite BitVec.toNat ..).symm
  unfold Arr.activate
  extract_lets put
  have hput : put = fun n v => l.latch v := by
    funext n v
    exact latch v
  rw [hput]

theorem Arr.activate_left {a : Arr} {l : LatchWrite} (h : l.top = false) :
    (a.activate l).topT = a.topT ∧ ∀ j, j < 16 → field (a.activate l).leftL (8 * j) 8 = l.code a.leftL j := by
  rw [Arr.activate_eq, h, if_neg Bool.false_ne_true]
  exact ⟨rfl, fun _ hj => l.field_latch a.leftL hj⟩

theorem Arr.activate_top {a : Arr} {l : LatchWrite} (h : l.top = true) :
    (a.activate l).leftL = a.leftL ∧ ∀ j, j < 256 → field (nth (a.activate l).topT l.seg) (8 * j) 8 = l.code (nth a.topT l.seg) j := by
  rw [Arr.activate_eq, h, if_pos rfl]
  refine ⟨rfl, fun j hj => ?_⟩
  dsimp only
  rw [nth_setNth_same]
  exact l.field_latch (nth a.topT l.seg) hj

theorem Arr.activate_staged (a : Arr) (l : LatchWrite) : (a.activate l).staged = a.staged := by
  rw [Arr.activate_eq]
  split <;> rfl

/-- Writes of which none is due come closer. -/
theorem Arr.advanceLatches_of_none_due {a : Arr} (h : ∀ l ∈ a.staged, 1 < l.left) :
    a.advanceLatches = { a with staged := a.staged.map fun l => { l with left := l.left - 1 } } := by
  have due : (a.staged.map fun l => { l with left := l.left - 1 }).filter (·.left == 0) = [] := by
    rw [List.filter_eq_nil_iff]
    simp only [List.mem_map]
    rintro _ ⟨l, hl, rfl⟩
    have := h l hl
    simp; omega
  have kept : (a.staged.map fun l => { l with left := l.left - 1 }).filter (·.left != 0) = a.staged.map fun l => { l with left := l.left - 1 } := by
    rw [List.filter_eq_self]
    simp only [List.mem_map]
    rintro _ ⟨l, hl, rfl⟩
    have := h l hl
    simp; omega
  unfold Arr.advanceLatches
  dsimp only
  rw [due, kept]
  rfl

/-- The only staged write, which is due, becomes active. -/
theorem Arr.advanceLatches_of_due {a : Arr} {l : LatchWrite} (h : a.staged = [l]) (hl : l.left = 1) :
    a.advanceLatches = { a with staged := [] }.activate { l with left := 0 } := by
  unfold Arr.advanceLatches
  simp [h, hl]

section
variable {s : State}

theorem exec_latchActivate_becomes : Becomes s .latchActivate s.work.here.arr.advanceLatches := becomes_modArr s (f := fun _ => Arr.advanceLatches) rfl

/-- What the write that becomes active leaves: its latch with its codes, the others as they were. -/
theorem exec_latchActivate_due {l : LatchWrite} (h : s.work.here.arr.staged = [l]) (hl : l.left = 1) :
    ∃ B, Becomes s .latchActivate B ∧ B.staged = [] ∧
      (l.top = false → B.topT = s.work.here.arr.topT ∧ ∀ j, j < 16 → field B.leftL (8 * j) 8 = l.code s.work.here.arr.leftL j) ∧
      (l.top = true → B.leftL = s.work.here.arr.leftL ∧
        ∀ j, j < 256 → field (nth B.topT l.seg) (8 * j) 8 = l.code (nth s.work.here.arr.topT l.seg) j) := by
  refine ⟨_, exec_latchActivate_becomes, ?_⟩
  rw [Arr.advanceLatches_of_due h hl]
  exact ⟨Arr.activate_staged _ _, fun ht => Arr.activate_left (l := { l with left := 0 }) ht, fun ht => Arr.activate_top (l := { l with left := 0 }) ht⟩

end

/-- An exact sum: both terms brought to the smaller exponent. -/
theorem Dyadic.add_spec (x y : Machine.Dyadic) : (x.add y).exp ≤ x.exp ∧ (x.add y).exp ≤ y.exp ∧
    (x.add y).num = x.num * 2 ^ (x.exp - (x.add y).exp).toNat + y.num * 2 ^ (y.exp - (x.add y).exp).toNat := by
  unfold Dyadic.add
  by_cases h : x.exp ≤ y.exp
  · rw [if_pos h]
    exact ⟨le_rfl, h, by simp⟩
  · rw [if_neg h]
    exact ⟨by dsimp only; omega, le_rfl, by simp⟩

end Sys2Proof.Machine
end

section
/-! PROOFS. A beat's columns (06_matrix R124, R129 to R132, R134): codes, segments, their sums, and what a column makes of them. -/
namespace Sys2Proof.Machine

/-! ## Lists in pieces of one length -/

section
variable {α : Type} {n c : Nat} {f : Nat → List α} (hf : ∀ i, (f i).length = c)
include hf

theorem length_flatten_map_range : ((List.range n).map f).flatten.length = c * n := by
  simp [List.length_flatten, Function.comp_def, hf, mul_comm]

/-- The member at a place of a piece. -/
theorem getElem?_flatten_map_range {i j : Nat} (hi : i < n) (hj : j < c) : ((List.range n).map f).flatten[c * i + j]? = (f i)[j]? := by
  induction n generalizing f i with
  | zero => omega
  | succ n ih =>
    rw [List.range_succ_eq_map, List.map_cons, List.flatten_cons, List.map_map]
    cases i with
    | zero => rw [Nat.mul_zero, Nat.zero_add, List.getElem?_append_left (by rw [hf]; exact hj)]
    | succ i =>
      rw [List.getElem?_append_right (by rw [hf, Nat.mul_succ]; omega), hf, show c * (i + 1) + j - c = c * i + j by rw [Nat.mul_succ]; omega]
      exact ih (fun i => hf (i + 1)) (by omega)

end

/-- Numbered pieces, joined. -/
theorem flatten_map_range_map_range {α : Type} {c : Nat} (hc : 0 < c) (n : Nat) (f : Nat → Nat → α) :
    ((List.range n).map fun i => (List.range c).map (f i)).flatten = (List.range (c * n)).map fun m => f (m / c) (m % c) := by
  have hf (i : Nat) : ((List.range c).map (f i)).length = c := by simp
  refine List.ext_getElem? fun m => ?_
  by_cases hm : m < c * n
  · have hi : m / c < n := Nat.div_lt_of_lt_mul hm
    have hj : m % c < c := Nat.mod_lt m hc
    have h := getElem?_flatten_map_range hf hi hj
    rw [Nat.div_add_mod] at h
    rw [h]
    simp [hm, hj]
  · rw [List.getElem?_eq_none (by rw [length_flatten_map_range hf]; omega), List.getElem?_eq_none (by simp; omega)]

theorem chunks_map_range (n k : Nat) (f : Nat → Int) :
    chunks n k ((List.range (n * k)).map f) = (List.range k).map fun g => (List.range n).map fun i => f (n * g + i) := by
  induction k generalizing f with
  | zero => rfl
  | succ k ih =>
    have hl : ((List.range n).map f).length = n := by simp
    rw [show n * (k + 1) = n + n * k by rw [Nat.mul_succ, Nat.add_comm], List.range_add, List.map_append, List.map_map, chunks, List.take_left' hl, List.drop_left' hl, ih,
      List.range_succ_eq_map, List.map_cons, List.map_map]
    simp [Function.comp_def, Nat.mul_succ, Nat.add_assoc, Nat.add_comm n]

theorem evens_map_range (n : Nat) (f : Nat → Int) : evens ((List.range (2 * n)).map f) = (List.range n).map fun k => f (2 * k) := by
  induction n generalizing f with
  | zero => rfl
  | succ n ih =>
    rw [Nat.mul_succ, List.range_succ_eq_map, List.range_succ_eq_map, List.range_succ_eq_map]
    simp [evens, Function.comp_def, ih, Nat.mul_succ]

theorem odds_map_range (n : Nat) (f : Nat → Int) : odds ((List.range (2 * n)).map f) = (List.range n).map fun k => f (2 * k + 1) := by
  induction n generalizing f with
  | zero => rfl
  | succ n ih =>
    rw [Nat.mul_succ, List.range_succ_eq_map, List.range_succ_eq_map, List.range_succ_eq_map]
    simp [odds, Function.comp_def, ih, Nat.mul_succ]

theorem segSum_map_range (m : Nat) (f g : Nat → Int) :
    segSum ((List.range m).map f) ((List.range m).map g) = ((List.range m).map fun k => f k * g k).sum := by
  rw [segSum, List.zip_map', List.map_map, ← List.sum_eq_foldl]
  rfl

/-! ## Codes -/

theorem intVal_true {w : Nat} (hw : 0 < w) (x : Nat) : intVal w true x = (BitVec.ofNat w x).toInt := by
  obtain ⟨k, rfl⟩ : ∃ k, w = k + 1 := ⟨w - 1, by omega⟩
  have hp : 2 ^ (k + 1) = 2 * 2 ^ k := pow_succ' 2 k
  rw [BitVec.toInt_eq_toNat_cond, BitVec.toNat_ofNat, intVal]
  generalize x % 2 ^ (k + 1) = y
  simp only [Nat.add_sub_cancel, Bool.true_and, decide_eq_true_eq]
  by_cases h : 2 ^ k ≤ y
  · rw [if_pos h, if_neg (by omega)]
    norm_cast
  · rw [if_neg h, if_pos (by omega)]

theorem intVal_false (w x : Nat) : intVal w false x = (BitVec.ofNat w x).toNat := rfl

theorem aWidth_pos (m : BitVec 3) : 0 < aWidth m := by revert m; decide

/-- Code `k` of the A latch. -/
def Beat.aVal (b : Beat) (k : Nat) : Int := (field b.a (aWidth b.mode * k) (aWidth b.mode)).toInt

theorem Beat.aCode_eq (b : Beat) (k : Nat) : aCode b.mode b.a.toNat k = b.aVal k := by
  rw [aCode, intVal_true (aWidth_pos b.mode), ← Nat.shiftRight_eq_div_pow]
  rfl

/-- Width of the B codes in bits. -/
def Beat.bBits (b : Beat) : Nat := if b.bsrc = 0#2 then aWidth b.mode else 4

/-- The value that a B code enters the product with. -/
def Beat.bVal (b : Beat) {n : Nat} (code : BitVec n) : Int :=
  if b.bsrc = 1#2 then 16 * code.toInt else if b.bsrc = 2#2 ∨ b.mode = 3#3 then code.toNat else code.toInt

theorem Beat.bCode_eq (b : Beat) (h : b.bsrc.toNat < 3) (bits k : Nat) :
    bCode b.mode b.bsrc bits k = b.bVal (BitVec.ofNat b.bBits (bits / 2 ^ (b.bBits * k))) := by
  unfold bCode bVal bBits
  by_cases h1 : b.bsrc = 1#2
  · rw [if_pos h1, if_pos h1, if_neg (by rw [h1]; decide), intVal_true (by decide)]
  · rw [if_neg h1, if_neg h1]
    by_cases h2 : b.bsrc = 2#2
    · rw [if_pos h2, if_pos (Or.inl h2), if_neg (by rw [h2]; decide), intVal_false]
    · have h0 : b.bsrc = 0#2 := by
        rw [← BitVec.toNat_inj] at h1 h2 ⊢
        change b.bsrc.toNat ≠ 1 at h1
        change b.bsrc.toNat ≠ 2 at h2
        change b.bsrc.toNat = 0
        omega
      rw [if_neg h2, if_pos h0]
      by_cases h3 : b.mode = 3#3
      · rw [if_pos (Or.inr h3), show (b.mode != 3#3) = false by simp [h3], intVal_false]
      · rw [if_neg (by simp [h2, h3]), show (b.mode != 3#3) = true by simp [h3], intVal_true (aWidth_pos b.mode)]

/-! ## What a column makes of segment sums -/

/-- The value of column `j` from segment sums: NaN where a scale code is 0xFF, else the exact sum of the scaled segments, rounded once. -/
def Beat.ColumnIs (b : Beat) (segs : Nat) (frac : Int) (j : Nat) (S : Nat → Int) (v : Nat) : Prop :=
  ((∃ g, g < segs ∧ ((field b.left (8 * g) 8).toNat = 255 ∨ (field (nth b.top g) (8 * j) 8).toNat = 255)) → v = 0x7FC00000) ∧
  ((∀ g, g < segs → (field b.left (8 * g) 8).toNat ≠ 255 ∧ (field (nth b.top g) (8 * j) 8).toNat ≠ 255) → v = (fp32.roundDy .even false
    (((List.range segs).map fun g => (⟨S g, ((field b.left (8 * g) 8).toNat : Int) + (field (nth b.top g) (8 * j) 8).toNat - 254 - frac⟩ :
      Machine.Dyadic)).foldl Machine.Dyadic.add ⟨0, 0⟩)).bits)

theorem Beat.columnIs_columnValue (b : Beat) (fa fb segs j : Nat) (S : Nat → Int) :
    b.ColumnIs segs (fa + fb) j S (columnValue fa fb ((List.range segs).map fun g => (S g, b.scales g j))) := by
  have any : ((List.range segs).map fun g => (S g, b.scales g j)).any (fun (_, ea, eb) => ea == 255 || eb == 255) = true ↔
      ∃ g, g < segs ∧ ((field b.left (8 * g) 8).toNat = 255 ∨ (field (nth b.top g) (8 * j) 8).toNat = 255) := by
    simp [scales]
  unfold columnValue
  constructor
  · intro h
    rw [if_pos (any.mpr h)]
    rfl
  · intro h
    have hn : ¬ ∃ g, g < segs ∧ ((field b.left (8 * g) 8).toNat = 255 ∨ (field (nth b.top g) (8 * j) 8).toNat = 255) :=
      fun ⟨g, hg, hx⟩ => hx.elim (h g hg).1 (h g hg).2
    rw [if_neg (mt any.mp hn), List.map_map]
    simp only [Function.comp_def, scales, Int.sub_sub, Int.add_assoc]

/-! ## Columns -/

theorem aCount_eq (m : BitVec 3) : aCount m = 32 * modeSegs m := by revert m; decide
theorem modeSegs_pos (m : BitVec 3) : 0 < modeSegs m := by revert m; decide

/-- Segment `g` of codes given by their number. -/
def segment (F : Nat → Int) (g : Nat) : List Int := (List.range 32).map fun k => F (32 * g + k)

/-- Column values made of each segment's codes by `f`. -/
def Beat.value (b : Beat) (A B : Nat → Int) (j : Nat) (f : List Int → List Int → Int) : Nat :=
  columnValue (aFrac b.mode) (bFrac b.mode) ((List.range (modeSegs b.mode)).map fun g => (f (segment A g) (segment B g), b.scales g j))

theorem Beat.columns_eq (b : Beat) {bits : Nat} {B : Nat → Int} (hB : ∀ k, bCode b.mode b.bsrc bits k = B k) (j : Nat) :
    b.columns ((List.range (aCount b.mode)).map (aCode b.mode b.a.toNat)) bits j =
      if modeComplex b.mode then
        [b.value b.aVal B j fun x y => if b.z0 then segSum (evens x) (evens y) else segSum (evens x) (evens y) - segSum (odds x) (odds y),
          b.value b.aVal B j fun x y => if b.z0 then segSum (odds x) (odds y) else segSum (evens x) (odds y) + segSum (odds x) (evens y)]
      else [b.value b.aVal B j segSum] := by
  have hd : aCount b.mode / modeSegs b.mode = 32 := by rw [aCount_eq, Nat.mul_div_cancel _ (modeSegs_pos _)]
  have codes (F : Nat → Int) : chunks (aCount b.mode / modeSegs b.mode) (modeSegs b.mode) ((List.range (aCount b.mode)).map F) =
      (List.range (modeSegs b.mode)).map (segment F) := by
    rw [hd, aCount_eq, chunks_map_range]
    rfl
  have hA : aCode b.mode b.a.toNat = b.aVal := funext b.aCode_eq
  have hBs : (fun k => bCode b.mode b.bsrc bits k) = B := funext hB
  unfold columns
  extract_lets m n segs bcodes as bs value
  have hv (f : List Int → List Int → Int) : value f = b.value b.aVal B j f := by
    have has : as = (List.range segs).map (segment b.aVal) := (congrArg (fun F => chunks (n / segs) segs ((List.range n).map F)) hA).trans (codes _)
    have hbs : bs = (List.range segs).map (segment B) := (congrArg (fun F => chunks (n / segs) segs ((List.range n).map F)) hBs).trans (codes _)
    show columnValue _ _ (((as.zip bs).zip (List.range segs)).map _) = _
    conv_lhs => rw [has, hbs, List.zip_map', ← List.map_id (List.range segs), List.map_map, List.zip_map', List.map_map]
    rfl
  simp only [hv]
  rfl

/-- The sums that a column has of its segments. -/
def sumOf (m : Nat) (f : Nat → Int) : Int := ((List.range m).map f).sum

theorem segSum_segment (A B : Nat → Int) (g : Nat) : segSum (segment A g) (segment B g) = sumOf 32 fun k => A (32 * g + k) * B (32 * g + k) :=
  segSum_map_range ..

theorem evens_segment (F : Nat → Int) (g : Nat) : evens (segment F g) = (List.range 16).map fun k => F (32 * g + 2 * k) :=
  evens_map_range 16 fun k => F (32 * g + k)
theorem odds_segment (F : Nat → Int) (g : Nat) : odds (segment F g) = (List.range 16).map fun k => F (32 * g + 2 * k + 1) :=
  odds_map_range 16 fun k => F (32 * g + k)

theorem sumOf_add (m : Nat) (f g : Nat → Int) : sumOf m f + sumOf m g = sumOf m fun k => f k + g k := List.sum_map_add.symm

theorem sumOf_sub (m : Nat) (f g : Nat → Int) : sumOf m f - sumOf m g = sumOf m fun k => f k - g k := by
  rw [sub_eq_iff_eq_add, sumOf_add]
  simp

end Sys2Proof.Machine
end

section
/-! PROOFS. All columns of a beat, from the codes of the B-plane (06_matrix R124, R130, R132, R134). -/
namespace Sys2Proof.Machine
open Sys2Proof.Claim

/-! ## The B codes of a column -/

namespace Work
variable (w : Work) (core at0 : Nat) (b : Beat)

/-- The bytes of column `j` from unit `at0` on, as one number. -/
def bSlice (j : Nat) : Nat :=
  leNat ((List.range (32 * modeSegs b.mode * b.bBits / 8)).map fun m => w.byte (bplaneKey core j ((at0 + m / 64) % 256) (m % 64)))

/-- B code `k` of column `j`, as it enters the product. -/
def bAt (j k : Nat) : Int := b.bVal (BitVec.ofNat b.bBits (w.bSlice core at0 b j / 2 ^ (b.bBits * k)))

/-- The bytes of a column's units. -/
theorem bplaneRead_bytes (j units : Nat) : (w.bplaneRead core j at0 units).1 =
    (List.range (64 * units)).map fun m => w.byte (bplaneKey core j ((at0 + m / 64) % 256) (m % 64)) := by
  have unit (u : Nat) : w.bytes (bplaneKey core j ((at0 + u) % 256) 0) 64 =
      (List.range 64).map fun i => w.byte (bplaneKey core j ((at0 + u) % 256) i) := bytes_eq_map_byte ..
  unfold bplaneRead
  dsimp only
  rw [List.map_map, ← flatten_map_range_map_range (by decide) units fun u i => w.byte (bplaneKey core j ((at0 + u) % 256) i)]
  exact congrArg List.flatten (List.map_congr_left fun u _ => unit u)

theorem bplaneRead_bad (j units : Nat) : (w.bplaneRead core j at0 units).2 = true ↔
    ∃ u, u < units ∧ (w.badUnit (bplaneKey core j ((at0 + u) % 256) 0) 64).isSome = true := by
  simp [bplaneRead]

variable {b}

/-- The B sources read as many units as the codes fill (R130). -/
theorem bUnits_eq (h : b.bsrc = 0 ∨ b.mode = 0 ∨ b.mode = 4 ∨ b.mode = 5) : 32 * modeSegs b.mode * b.bBits / 8 = 64 * bUnits b.mode b.bsrc := by
  have all : ∀ (m : BitVec 3) (src : BitVec 2), src = 0#2 ∨ m = 0#3 ∨ m = 4#3 ∨ m = 5#3 →
      32 * modeSegs m * (if src = 0#2 then aWidth m else 4) / 8 = 64 * bUnits m src := by decide
  exact all b.mode b.bsrc h

section
variable (hs : b.bsrc.toNat < 3) (h : b.bsrc = 0 ∨ b.mode = 0 ∨ b.mode = 4 ∨ b.mode = 5)
include hs h

theorem bCode_bplaneRead (j k : Nat) :
    bCode b.mode b.bsrc (leNat (w.bplaneRead core j at0 (bUnits b.mode b.bsrc)).1) k = w.bAt core at0 b j k := by
  rw [b.bCode_eq hs, bplaneRead_bytes, ← bUnits_eq h]
  rfl

/-! ## The columns -/

/-- What the columns of B column `j` are made of. -/
theorem columns_bplaneRead (j : Nat) :
    b.columns ((List.range (aCount b.mode)).map (aCode b.mode b.a.toNat)) (leNat (w.bplaneRead core j at0 (bUnits b.mode b.bsrc)).1) j =
      if modeComplex b.mode then
        [b.value b.aVal (w.bAt core at0 b j) j fun x y =>
            if b.z0 then segSum (evens x) (evens y) else segSum (evens x) (evens y) - segSum (odds x) (odds y),
          b.value b.aVal (w.bAt core at0 b j) j fun x y =>
            if b.z0 then segSum (odds x) (odds y) else segSum (evens x) (odds y) + segSum (odds x) (evens y)]
      else [b.value b.aVal (w.bAt core at0 b j) j segSum] :=
  b.columns_eq (w.bCode_bplaneRead core at0 hs h j) j

end

/-- The columns of a beat are those that its B columns make, in order. -/
theorem beatColumns_fst : (w.beatColumns core at0 b).1 = ((List.range (256 / if modeComplex b.mode then 2 else 1)).map fun c =>
    b.columns ((List.range (aCount b.mode)).map (aCode b.mode b.a.toNat))
      (leNat (w.bplaneRead core ((if modeComplex b.mode then 2 else 1) * c) at0 (bUnits b.mode b.bsrc)).1)
      ((if modeComplex b.mode then 2 else 1) * c)).flatten := by
  unfold beatColumns
  dsimp only
  rw [List.map_map]
  rfl

theorem beatColumns_bad : (w.beatColumns core at0 b).2 = true ↔ ∃ j u, j < 256 ∧ (modeComplex b.mode = true → j % 2 = 0) ∧ u < bUnits b.mode b.bsrc ∧
    (w.badUnit (bplaneKey core j ((at0 + u) % 256) 0) 64).isSome = true := by
  have any : (w.beatColumns core at0 b).2 = true ↔ ∃ c, c < 256 / (if modeComplex b.mode then 2 else 1) ∧
      (w.bplaneRead core ((if modeComplex b.mode then 2 else 1) * c) at0 (bUnits b.mode b.bsrc)).2 = true := by
    simp [beatColumns]
  simp only [any, bplaneRead_bad]
  cases modeComplex b.mode with
  | false =>
    simp only [Bool.false_eq_true, if_false, Nat.one_mul, false_implies, true_and]
    exact ⟨fun ⟨c, hc, u, hu⟩ => ⟨c, u, hc, hu⟩, fun ⟨c, u, hc, hu⟩ => ⟨c, hc, u, hu⟩⟩
  | true =>
    simp only [if_true, true_implies]
    constructor
    · rintro ⟨c, hc, u, hu⟩
      exact ⟨2 * c, u, by omega, by omega, hu⟩
    · rintro ⟨j, u, hj, he, hu⟩
      obtain ⟨c, rfl⟩ : ∃ c, j = 2 * c := ⟨j / 2, by omega⟩
      exact ⟨c, by omega, u, hu⟩

/-- How many columns one B column makes. -/
theorem columns_length (acodes : List Int) (bits j : Nat) : (b.columns acodes bits j).length = if modeComplex b.mode then 2 else 1 := by
  unfold Beat.columns
  dsimp only
  split <;> rfl

theorem beatColumns_length : (w.beatColumns core at0 b).1.length = 256 := by
  rw [beatColumns_fst, length_flatten_map_range fun _ => columns_length ..]
  split <;> rfl

section
variable (hs : b.bsrc.toNat < 3) (h : b.bsrc = 0 ∨ b.mode = 0 ∨ b.mode = 4 ∨ b.mode = 5)
include hs h

theorem beatColumns_real (hc : modeComplex b.mode = false) {j : Nat} (hj : j < 256) :
    (w.beatColumns core at0 b).1[j]? = some (b.value b.aVal (w.bAt core at0 b j) j segSum) := by
  have hl (c : Nat) : (b.columns ((List.range (aCount b.mode)).map (aCode b.mode b.a.toNat))
      (leNat (w.bplaneRead core (1 * c) at0 (bUnits b.mode b.bsrc)).1) (1 * c)).length = 1 := by rw [columns_length, hc]; rfl
  have hat := getElem?_flatten_map_range hl hj Nat.one_pos
  rw [beatColumns_fst, hc]
  rw [Nat.add_zero, Nat.one_mul, w.columns_bplaneRead core at0 hs h, hc] at hat
  exact hat

theorem beatColumns_complex (hc : modeComplex b.mode = true) {j : Nat} (hj : j < 128) :
    (w.beatColumns core at0 b).1[2 * j]? = some (b.value b.aVal (w.bAt core at0 b (2 * j)) (2 * j) fun x y =>
      if b.z0 then segSum (evens x) (evens y) else segSum (evens x) (evens y) - segSum (odds x) (odds y)) ∧
    (w.beatColumns core at0 b).1[2 * j + 1]? = some (b.value b.aVal (w.bAt core at0 b (2 * j)) (2 * j) fun x y =>
      if b.z0 then segSum (odds x) (odds y) else segSum (evens x) (odds y) + segSum (odds x) (evens y)) := by
  have hl (c : Nat) : (b.columns ((List.range (aCount b.mode)).map (aCode b.mode b.a.toNat))
      (leNat (w.bplaneRead core (2 * c) at0 (bUnits b.mode b.bsrc)).1) (2 * c)).length = 2 := by rw [columns_length, hc]; rfl
  have hat0 := getElem?_flatten_map_range hl hj Nat.two_pos
  have hat1 := getElem?_flatten_map_range hl hj Nat.one_lt_two
  rw [beatColumns_fst, hc]
  rw [w.columns_bplaneRead core at0 hs h, hc] at hat0 hat1
  exact ⟨hat0, hat1⟩

end
end Work

/-! ## The segment sums of each kind of column -/

namespace Beat
variable (b : Beat) (A B : Nat → Int) (j : Nat)

/-- A column made of segment sums. -/
theorem columnIs_value {f : List Int → List Int → Int} {S : Nat → Int} (hf : ∀ g, f (segment A g) (segment B g) = S g) :
    b.ColumnIs (modeSegs b.mode) (aFrac b.mode + bFrac b.mode) j S (b.value A B j f) := by
  obtain rfl : (fun g => f (segment A g) (segment B g)) = S := funext hf
  exact b.columnIs_columnValue ..

theorem columnIs_real : b.ColumnIs (modeSegs b.mode) (aFrac b.mode + bFrac b.mode) j
    (fun g => sumOf 32 fun k => A (32 * g + k) * B (32 * g + k)) (b.value A B j segSum) := b.columnIs_value A B j (segSum_segment A B)

/-- The four sums of products of real and imaginary parts. -/
theorem segSum_evens_evens (g : Nat) : segSum (evens (segment A g)) (evens (segment B g)) = sumOf 16 fun k => A (32 * g + 2 * k) * B (32 * g + 2 * k) := by
  rw [evens_segment, evens_segment, segSum_map_range]; rfl
theorem segSum_odds_odds (g : Nat) :
    segSum (odds (segment A g)) (odds (segment B g)) = sumOf 16 fun k => A (32 * g + 2 * k + 1) * B (32 * g + 2 * k + 1) := by
  rw [odds_segment, odds_segment, segSum_map_range]; rfl
theorem segSum_evens_odds (g : Nat) :
    segSum (evens (segment A g)) (odds (segment B g)) = sumOf 16 fun k => A (32 * g + 2 * k) * B (32 * g + 2 * k + 1) := by
  rw [evens_segment, odds_segment, segSum_map_range]; rfl
theorem segSum_odds_evens (g : Nat) :
    segSum (odds (segment A g)) (evens (segment B g)) = sumOf 16 fun k => A (32 * g + 2 * k + 1) * B (32 * g + 2 * k) := by
  rw [odds_segment, evens_segment, segSum_map_range]; rfl

theorem columnIs_re (hz : b.z0 = false) : b.ColumnIs (modeSegs b.mode) (aFrac b.mode + bFrac b.mode) j
    (fun g => sumOf 16 fun k => A (32 * g + 2 * k) * B (32 * g + 2 * k) - A (32 * g + 2 * k + 1) * B (32 * g + 2 * k + 1))
    (b.value A B j fun x y => if b.z0 then segSum (evens x) (evens y) else segSum (evens x) (evens y) - segSum (odds x) (odds y)) :=
  b.columnIs_value A B j fun g => by
    rw [hz, if_neg Bool.false_ne_true, segSum_evens_evens, segSum_odds_odds, sumOf_sub]

theorem columnIs_im (hz : b.z0 = false) : b.ColumnIs (modeSegs b.mode) (aFrac b.mode + bFrac b.mode) j
    (fun g => sumOf 16 fun k => A (32 * g + 2 * k) * B (32 * g + 2 * k + 1) + A (32 * g + 2 * k + 1) * B (32 * g + 2 * k))
    (b.value A B j fun x y => if b.z0 then segSum (odds x) (odds y) else segSum (evens x) (odds y) + segSum (odds x) (evens y)) :=
  b.columnIs_value A B j fun g => by
    rw [hz, if_neg Bool.false_ne_true, segSum_evens_odds, segSum_odds_evens, sumOf_add]

theorem columnIs_re_z0 (hz : b.z0 = true) : b.ColumnIs (modeSegs b.mode) (aFrac b.mode + bFrac b.mode) j
    (fun g => sumOf 16 fun k => A (32 * g + 2 * k) * B (32 * g + 2 * k))
    (b.value A B j fun x y => if b.z0 then segSum (evens x) (evens y) else segSum (evens x) (evens y) - segSum (odds x) (odds y)) :=
  b.columnIs_value A B j fun g => by rw [hz, if_pos rfl, segSum_evens_evens]

theorem columnIs_im_z0 (hz : b.z0 = true) : b.ColumnIs (modeSegs b.mode) (aFrac b.mode + bFrac b.mode) j
    (fun g => sumOf 16 fun k => A (32 * g + 2 * k + 1) * B (32 * g + 2 * k + 1))
    (b.value A B j fun x y => if b.z0 then segSum (odds x) (odds y) else segSum (evens x) (odds y) + segSum (odds x) (evens y)) :=
  b.columnIs_value A B j fun g => by rw [hz, if_pos rfl, segSum_odds_odds]

end Beat
end Sys2Proof.Machine
end

section
/-! PROOFS. Beats without an A operand, their feet, and the owner bundle that moves the feet on (06_matrix R134, R135, R137). -/
namespace Sys2Proof
open Sys2Proof.Machine

theorem leNat_append (a b : List Byte) : leNat (a ++ b) = leNat a + 256 ^ a.length * leNat b := by
  induction a with
  | nil => simp [leNat]
  | cons x a ih => simp [leNat, ih, pow_succ']; ring

/-- Numbers of four bytes each, one after the other, are digits. -/
theorem leNat_flatten_leBytes_four (qs : List Nat) : leNat ((qs.map (leBytes 4)).flatten) = Nat.ofDigits (2 ^ 32) (qs.map (· % 2 ^ 32)) := by
  induction qs with
  | nil => rfl
  | cons q qs ih =>
    rw [List.map_cons, List.flatten_cons, leNat_append, ih, leNat_leBytes, leBytes_length, List.map_cons, Nat.ofDigits_cons]
    rfl

/-- Column `j` of a result given by its columns. -/
theorem field_columns {n j q : Nat} {qs : List Nat} (h : qs[j]? = some q) (hn : 32 * j + 32 ≤ n) :
    field (BitVec.ofNat n (leNat ((qs.map (leBytes 4)).flatten))) (32 * j) 32 = BitVec.ofNat 32 q := by
  have hd : ∀ d ∈ qs.map (· % 2 ^ 32), d < 2 ^ 32 := by
    simp only [List.mem_map]
    rintro _ ⟨x, -, rfl⟩
    exact Nat.mod_lt _ (by decide)
  have hj : (qs.map (· % 2 ^ 32))[j]? = some (q % 2 ^ 32) := by rw [List.getElem?_map, h]; rfl
  rw [leNat_flatten_leBytes_four, field_ofDigits hd hj hn]
  exact BitVec.eq_of_toNat_eq (by simp)

end Sys2Proof

namespace Sys2Proof.Machine
open Sys2Proof.Claim

/-! ## A beat -/

namespace Work

/-- What a beat uses of the array. -/
def beatOf (w : Work) (z0 : Bool) : Beat := ⟨w.here.arr.mode, w.here.arr.bsrc, w.here.arr.aLatch, w.here.arr.leftL, w.here.arr.topT, z0⟩

/-- The foot that a beat begins. -/
def footOf (w : Work) (z0 : Bool) (at0 : Nat) : Foot :=
  ⟨6, BitVec.ofNat 8192 (leNat (((w.beatColumns w.focus.core at0 (w.beatOf z0)).1.map (leBytes 4)).flatten)),
    w.here.arr.aPoison || (w.beatColumns w.focus.core at0 (w.beatOf z0)).2, w.here.arr.arm.map Arm.tag⟩

theorem beat_eq (w : Work) (z0 : Bool) (at0 : Nat) :
    w.beat z0 at0 = w.modArr w.focus.core fun a => { a with feet := a.feet ++ [w.footOf z0 at0], arm := a.arm.map Arm.next } := rfl

end Work

section
variable {s : State}

/-- The B-plane unit of a beat that loads no A operand. -/
theorem exec_mshift_plain (z : BitVec 1) (g : BitVec 4) (i : BitVec 1) (row : BitVec 8) :
    exec (.mshift z 0 g i row) s = .next (left s (s.work.beat (z == 1)
      (if i = 1#1 then (field (s.work.rdS 0 (row.setWidth 6)) 0 8).toNat else row.toNat))) := by
  refine runSlotKeep_ok s _ (mshiftAct z 0 g i row) _ ?_
  have ht : ¬ (0 : BitVec 1) = 1#1 := by decide
  simp only [mshiftAct, act_bind, act_get, ht, if_false, act_modify]
  rfl

theorem exec_mshift_becomes (z : BitVec 1) (g : BitVec 4) (i : BitVec 1) (row : BitVec 8) (at0 : Nat)
    (h : (if i = 1#1 then (field (s.work.rdS 0 (row.setWidth 6)) 0 8).toNat else row.toNat) = at0) :
    Becomes s (.mshift z 0 g i row)
      { s.work.here.arr with feet := s.work.here.arr.feet ++ [s.work.footOf (z == 1) at0], arm := s.work.here.arr.arm.map Arm.next } := by
  have he := exec_mshift_plain (s := s) z g i row
  rw [h, Work.beat_eq] at he
  exact becomes_modArr s (f := fun w a => { a with feet := a.feet ++ [w.footOf (z == 1) at0], arm := a.arm.map Arm.next }) he

/-- A foot's columns. -/
theorem field_footOf (w : Work) (z0 : Bool) (at0 : Nat) {j q : Nat} (hj : j < 256)
    (h : (w.beatColumns w.focus.core at0 (w.beatOf z0)).1[j]? = some q) : field (w.footOf z0 at0).result (32 * j) 32 = BitVec.ofNat 32 q :=
  field_columns h (by omega)

end

/-! ## Feet move on -/

/-- The feet one owner bundle on. -/
def Arr.feetOn (a : Arr) : Arr := { a with feet := (a.feet.filter fun f => f.left != 0).map fun f => { f with left := f.left - 1 } }

namespace Work
variable (w : Work) (core : Nat)

theorem putAcc_cores (row c : Nat) (vs : List Nat) : (w.putAcc core row c vs).cores = w.cores := write_cores ..

/-- A MACC changes an accumulator row and its poison bit: no foot, no context. -/
theorem macc_feet (f : Foot) (t : FootTag) (n : Nat) : ((w.macc core f t).core n).arr.feet = (w.core n).arr.feet ∧
    ∀ k, (w.macc core f t).ctx n k = w.ctx n k := by
  have poison (v : Work) (row : Nat) (on : Bool) (hv : v.cores = w.cores) : ((v.poisonRow core row on).core n).arr.feet = (w.core n).arr.feet ∧
      ∀ k, (v.poisonRow core row on).ctx n k = w.ctx n k := by
    have hc (m : Nat) : v.core m = w.core m := congrArg (fun l => Tab.get l m Core.reset) hv
    refine ⟨?_, fun k => ?_⟩
    · unfold poisonRow modArr
      by_cases h : n = core
      · rw [h, core_modCore_same, ← hc]
      · rw [core_modCore_other _ _ h, hc]
    · refine (ctx_modCore v core ?_ n k).trans ?_
      · exact fun _ => rfl
      exact congrArg (fun c : Core => nth c.ctxs k) (hc n)
  unfold macc
  extract_lets lo m foot vs v
  have hv : v.cores = w.cores := putAcc_cores ..
  split
  · exact poison v _ _ hv
  · split
    · exact poison v _ _ hv
    · have hc : v.core n = w.core n := congrArg (fun l => Tab.get l n Core.reset) hv
      exact ⟨congrArg (fun c : Core => c.arr.feet) hc, fun k => congrArg (fun c : Core => nth c.ctxs k) hc⟩

theorem macc_focus (f : Foot) (t : FootTag) : (w.macc core f t).focus = w.focus := by
  unfold macc putAcc
  dsimp only
  split
  · exact write_focus ..
  · split <;> exact write_focus ..

/-- A foot that emerges was due. -/
theorem emerging_feetOn {f : Foot} (h : (w.modArr core Arr.feetOn).emerging core = some f) :
    ∃ g ∈ (w.core core).arr.feet, g.left = 1 ∧ f.tag = g.tag := by
  have hm : (w.modArr core Arr.feetOn).core core = { w.core core with arr := (w.core core).arr.feetOn } := core_modCore_same ..
  rw [emerging, hm] at h
  have h0 := List.find?_some h
  obtain ⟨g, hg, rfl⟩ := List.mem_map.mp (List.mem_of_find?_eq_some h)
  obtain ⟨hg, hl⟩ := List.mem_filter.mp hg
  have hl : g.left ≠ 0 := by simpa using hl
  have h0 : g.left - 1 = 0 := by simpa using h0
  exact ⟨g, hg, by omega, rfl⟩

theorem advanceFeet_eq (w : Work) (core : Nat) : w.advanceFeet core =
    if w.focus.direct then w.modArr core Arr.feetOn
    else match (w.modArr core Arr.feetOn).emerging core with
      | some f => match f.tag with | some t => (w.modArr core Arr.feetOn).macc core f t | none => w.modArr core Arr.feetOn
      | none => w.modArr core Arr.feetOn := rfl

/-- What an owner bundle leaves of feet and contexts. -/
theorem advanceFeet_feet : ((w.advanceFeet core).core core).arr.feet = (w.core core).arr.feetOn.feet ∧
    ∀ n k, (w.advanceFeet core).ctx n k = w.ctx n k := by
  have hm : ((w.modArr core Arr.feetOn).core core).arr.feet = (w.core core).arr.feetOn.feet ∧
      ∀ n k, (w.modArr core Arr.feetOn).ctx n k = w.ctx n k :=
    ⟨congrArg (fun c : Core => c.arr.feet) (core_modCore_same ..), ctx_modCore w core (f := fun c => { c with arr := c.arr.feetOn }) fun _ => rfl⟩
  rw [advanceFeet_eq]
  split
  · exact hm
  · split
    · rename_i f _
      split
      · rename_i t _
        have ha (n : Nat) := macc_feet (w.modArr core Arr.feetOn) core f t n
        exact ⟨(ha core).1.trans hm.1, fun n k => ((ha n).2 k).trans (hm.2 n k)⟩
      · exact hm
    · exact hm

theorem advanceFeet_focus : (w.advanceFeet core).focus = w.focus := by
  rw [advanceFeet_eq]
  split
  · rfl
  · split
    · split
      · exact macc_focus ..
      · rfl
    · rfl

/-- Without a tagged foot that emerges, or with a direct MACC, nothing is written. -/
theorem advanceFeet_log (h : w.focus.direct = true ∨ ∀ f ∈ (w.core core).arr.feet, f.left = 1 → f.tag = none) : (w.advanceFeet core).log = w.log := by
  rw [advanceFeet_eq]
  split
  · rfl
  · rename_i hd
    split
    · rename_i f hf
      obtain ⟨g, hg, hl, ht⟩ := emerging_feetOn w core hf
      rw [ht, h.resolve_left hd g hg hl]
      rfl
    · rfl

end Work

theorem exec_footEmerge (s : State) : exec .footEmerge s = .next (lift (fun w => w.advanceFeet w.focus.core) s) := rfl

/-- What FOOT_EMERGE leaves: the feet one bundle on, the contexts, and memory unless a tagged foot is applied. -/
theorem footEmerge_leaves (s : State) : ∃ t, exec .footEmerge s = .next t ∧
    t.work.here.arr.feet = (s.work.here.arr.feet.filter fun f => f.left != 0).map (fun f => { f with left := f.left - 1 }) ∧
    (∀ n k, t.work.ctx n k = s.work.ctx n k) ∧
    (s.focus.direct = true ∨ (∀ f ∈ s.work.here.arr.feet, f.left = 1 → f.tag = none) → t.mem = s.mem) := by
  obtain ⟨hf, hc⟩ := Work.advanceFeet_feet s.work s.work.focus.core
  refine ⟨_, exec_footEmerge s, ?_, hc, fun h => lift_mem_of_log (Work.advanceFeet_log s.work s.work.focus.core h)⟩
  show ((s.work.advanceFeet s.work.focus.core).core (s.work.advanceFeet s.work.focus.core).focus.core).arr.feet = _
  rw [Work.advanceFeet_focus]
  exact hf

end Sys2Proof.Machine
end

section
/-! PROOFS. What the read of a stream leaves of stream registers, whatever it answers (03_core R75, 06_matrix R131, 08_memory R173 to R184, 09_ordering R201,
R202): all of them, the uses that lower slots have made, and the replayed frame. -/
namespace Sys2Proof.Machine
open Sys2Proof.Claim

/-! ## Reads at a place -/

namespace Work.Still
variable {u w v : Work} {core part pa n line : Nat} {mt : BitVec 2}

section
variable (h : Still u w)
include h

theorem free : Still u w.free.2 := h.beside rfl rfl rfl rfl

theorem sendLine : Still u (w.sendLine core part pa) := ite h (ite h.sample h.free.sample)

theorem l1Drop : Still u (w.l1Drop core line) := h.modCore fun _ => rfl

theorem l1Room : Still u (w.l1Room part core) := by
  unfold Work.l1Room
  extract_lets c
  refine ite h ?_
  split
  · exact h.l1Clean.l1Drop
  · exact h.mergeUpd
  · exact h

theorem l1Fill {l : L1Line} : Still u (w.l1Fill part core l) := h.l1Room.modCore fun _ => rfl

theorem flushLine : Still u (w.flushLine part core line) := h.l1Clean.l1Drop

theorem l2Through : Still u (w.l2Through core part pa n mt).2 := by
  have hr : Still u ((if mt = 3#2 ∧ isHost pa then w else w.sendLine core part pa).l2Read part pa n mt).2 := l2Read (ite h h.sendLine)
  unfold Work.l2Through
  dsimp only
  split
  · exact hr
  · exact hr

theorem physRead {engine race : Bool} : Still u (w.physRead core part engine pa n mt race).2 := by
  unfold Work.physRead
  extract_lets line w1
  have h1 : Still u w1 := ite h.recallLine h
  split
  · exact h1.l2Through
  · split
    · split
      · exact h1
      · exact h1
    · split
      · exact h1.l2Through
      · exact ite h1.l2Through.l1Fill (h1.l2Through.modCore fun _ => rfl)

theorem openView {who : Issuer} {engine : Bool} {k off : Nat} : Still u (w.openView who engine k off n) :=
  ite h (foldl h fun _ _ hv => hv.flushLine)

theorem raceCheck {who : Issuer} {pl : Place} {addr : Word} {write : Bool} (hv : w.raceCheck who pl addr n write = .ok v) : Still u v := by
  unfold Work.raceCheck at hv
  split at hv
  · obtain rfl := Except.ok.inj hv
    exact h
  · split at hv
    · split at hv
      · obtain rfl := Except.ok.inj hv
        exact ite h (h.modCore fun _ => rfl)
      · exact nomatch hv
    · split at hv
      · obtain rfl := Except.ok.inj hv
        exact ite h h.l2Fill.setL2Stamps
      · exact nomatch hv
    · obtain rfl := Except.ok.inj hv
      exact h

end
end Work.Still

/-! ## The streams -/

/-- In `v` every stream register is as in `w`, and so is what a slot reads one by. -/
structure Work.SameStreams (w v : Work) : Prop where
  regs : ∀ n k r, (v.ctx n k).gReg r = (w.ctx n k).gReg r
  core : v.focus.core = w.focus.core
  ctx : v.focus.ctx = w.focus.ctx
  replay : v.focus.replay = w.focus.replay
  uses : v.focus.uses = w.focus.uses

namespace Work.SameStreams
variable {u w v : Work}

theorem trans (h : SameStreams u w) (k : SameStreams w v) : SameStreams u v :=
  ⟨fun n i r => (k.regs n i r).trans (h.regs n i r), k.core.trans h.core, k.ctx.trans h.ctx, k.replay.trans h.replay, k.uses.trans h.uses⟩

theorem of_still (h : Still w v) : SameStreams w v :=
  ⟨fun n k r => h.ctxField (·.gReg r) (fun _ => rfl) n k, h.focusField (·.core) fun _ => rfl, h.focusField (·.ctx) fun _ => rfl,
    h.focusField (·.replay) fun _ => rfl, h.focusField (·.uses) fun _ => rfl⟩

theorem refl (w : Work) : SameStreams w w := ⟨fun _ _ _ => rfl, rfl, rfl, rfl, rfl⟩

theorem noteRead (w : Work) (pl : Place) (n : Nat) : SameStreams w (w.noteRead pl n) := by
  refine ⟨fun m k r => ?_, rfl, rfl, rfl, rfl⟩
  unfold Work.noteRead Work.modMe
  dsimp only
  rw [ctx_modCtx]
  split <;> rfl

/-- A stream register that a slot reads is the same. -/
theorem rdG (h : SameStreams w v) (k : Nat) (r : BitVec 4) : v.rdG k r = w.rdG k r := by
  have hr : v.replayed k = w.replayed k := congrArg (Option.bind · (·[k]?)) h.replay
  have hm : v.me.gReg r = w.me.gReg r := by rw [me, me, h.core, h.ctx]; exact h.regs ..
  unfold Work.rdG
  rw [hr, hm, h.uses]

end Work.SameStreams
end Sys2Proof.Machine
end

section
/-! PROOFS. The same of accesses and of streams' reads as actions (03_core R75, 06_matrix R131): MPUSH, and MSHIFT with an A operand, by what their stream gives. -/
namespace Sys2Proof.Machine
open Sys2Proof.Claim Work

/-- Whatever the action answers, it leaves stream registers as they are. -/
def KeepsStreams {ε α : Type} (m : ExceptT ε (StateM Work) α) : Prop := ∀ w, SameStreams w (m w).2

namespace KeepsStreams
variable {ε α β : Type}

theorem pure (a : α) : KeepsStreams (Pure.pure a : ExceptT ε (StateM Work) α) := SameStreams.refl
theorem throw (e : ε) : KeepsStreams (MonadExcept.throw e : ExceptT ε (StateM Work) α) := SameStreams.refl
theorem get : KeepsStreams (MonadState.get : ExceptT ε (StateM Work) Work) := SameStreams.refl
theorem modify {f : Work → Work} (h : ∀ w, SameStreams w (f w)) : KeepsStreams (modify f : ExceptT ε (StateM Work) PUnit) := h
theorem modifyGet {f : Work → α × Work} (h : ∀ w, SameStreams w (f w).2) : KeepsStreams (modifyGet f : ExceptT ε (StateM Work) α) := h

theorem bind {m : ExceptT ε (StateM Work) α} {f : α → ExceptT ε (StateM Work) β} (hm : KeepsStreams m) (hf : ∀ a, KeepsStreams (f a)) :
    KeepsStreams (m >>= f) := by
  intro w
  have h := hm w
  rw [act_bind]
  revert h
  rcases m w with ⟨a | a, v⟩
  · exact id
  · exact fun h => h.trans (hf a v)

theorem ite {p : Prop} [Decidable p] {m n : ExceptT ε (StateM Work) α} (hm : KeepsStreams m) (hn : KeepsStreams n) : KeepsStreams (if p then m else n) := by
  split
  · exact hm
  · exact hn

theorem mapM {f : α → ExceptT ε (StateM Work) β} (hf : ∀ a, KeepsStreams (f a)) : ∀ l : List α, KeepsStreams (l.mapM f)
  | [] => by
    rw [List.mapM_nil]
    exact pure []
  | a :: l => by
    rw [List.mapM_cons]
    exact (hf a).bind fun _ => (mapM hf l).bind fun _ => pure _

theorem forM {f : α → ExceptT ε (StateM Work) PUnit} (hf : ∀ a, KeepsStreams (f a)) : ∀ l : List α, KeepsStreams (l.forM f)
  | [] => pure _
  | a :: l => (hf a).bind fun _ => forM hf l

theorem access {m : Acc α} (h : KeepsStreams m) : KeepsStreams (access m) := by
  intro w
  have hw := h w
  rw [act_access]
  revert hw
  rcases m w with ⟨a | a, v⟩
  · exact id
  · exact id

/-- What leaves contexts all but their waits leaves stream registers. -/
theorem of_still {m : Acc α} (h : ∀ w, Still w (m w).2) : KeepsStreams m := fun w => SameStreams.of_still (h w)

/-! ## Accesses -/

variable {who : Issuer} {pl : Place} {addr : Word} {n : Nat}

theorem place {rill : Bool} {sp : Space} {kind : Access} : KeepsStreams (place who rill sp addr kind) := by
  refine of_still fun w => ?_
  have h := Still.refl w
  unfold Machine.place
  cases sp with
  | tile =>
    dsimp only
    split
    · exact h
    · split
      · exact h
      · exact h
  | cluster =>
    dsimp only
    split
    · exact h
    · split
      · exact h
      · exact h
  | global =>
    dsimp only
    have ht : Still w (w.translate who.core who.part rill addr kind who.super).2 := h.translate
    split
    · exact h
    · split
      · split
        · exact h
        · split
          · exact h
          · exact h
      · split
        · rename_i e
          rw [e] at ht
          exact ht
        · rename_i e
          rw [e] at ht
          split
          · exact ht
          · exact ht

theorem checkSpan : KeepsStreams (checkSpan who pl addr n) := by
  intro w
  unfold Machine.checkSpan
  split
  · dsimp only
    split
    · exact .refl w
    · exact .refl w
  · exact .refl w

theorem checkRace {write : Bool} : KeepsStreams (checkRace who pl addr n write) := by
  intro w
  unfold Machine.checkRace
  split
  · rename_i v hv
    exact .of_still ((Still.refl w).raceCheck hv)
  · exact .refl w

theorem checkUnits {k : Nat} : KeepsStreams (checkUnits addr k n) := by
  intro w
  unfold Machine.checkUnits
  split
  · exact .refl w
  · exact .refl w

theorem viewCheck {k off : Nat} : KeepsStreams (viewCheck who k off addr) := by
  intro w
  unfold Machine.viewCheck
  extract_lets a srcs
  split
  · exact .refl w
  · split
    · exact .refl w
    · exact .refl w

theorem viewByteAt {k off : Nat} : KeepsStreams (viewByteAt who k off) := by
  intro w
  unfold Machine.viewByteAt
  dsimp only
  split
  · exact .of_still (Still.refl w).free
  · exact .refl w

theorem viewRead {k off : Nat} : KeepsStreams (viewRead who k off n) :=
  bind (modify fun w => .of_still (Still.foldl (.refl w) fun _ _ hv => hv.recallLine.sendLine.l2Touch)) fun _ => mapM (fun _ => viewByteAt) _

theorem checkReadable {engine : Bool} : KeepsStreams (checkReadable who engine pl addr n) := by
  cases pl with
  | past => exact pure _
  | tile core off => exact checkUnits
  | phys pa mt race => exact bind get fun w => ite checkUnits (pure _)
  | view a off => exact bind (modify fun w => .of_still (Still.refl w).openView) fun _ => forM (fun _ => viewCheck) _

theorem readPlace {engine : Bool} : KeepsStreams (readPlace who engine pl addr n) := by
  refine bind checkReadable fun _ => ?_
  cases pl with
  | past => exact pure _
  | tile core off => exact bind get fun _ => pure _
  | phys pa mt race => exact modifyGet fun w => .of_still (Still.refl w).physRead
  | view a off => exact viewRead

theorem readThrough {engine : Bool} : KeepsStreams (readThrough who engine pl addr n) := by
  intro w
  cases pl with
  | past => exact .refl w
  | tile core off => exact .refl w
  | phys pa mt race => exact .of_still (Still.refl w).physRead
  | view a off =>
    have h : SameStreams w (Machine.readPlace who engine (.view a off) addr n w).2 := readPlace w
    unfold Machine.readThrough
    revert h
    rcases Machine.readPlace who engine (.view a off) addr n w with ⟨e | a, v⟩
    · cases e <;> exact id
    · exact id

/-! ## Streams -/

variable {g : Stream}

theorem streamPlace {kind : Access} : KeepsStreams (streamPlace g kind) := by
  have rest : KeepsStreams (spaceAct (layoutSpace g.layout) >>= fun sp => (MonadState.get : Act Work) >>= fun w =>
      Machine.access (Machine.place w.issuer true sp g.addr kind) >>= fun pl =>
      Machine.access (Machine.checkSpan w.issuer pl g.addr 128) >>= fun _ => (Pure.pure pl : Act Place)) := by
    refine bind ?_ fun sp => bind get fun w => bind (access place) fun pl => bind (access checkSpan) fun _ => pure pl
    unfold spaceAct
    split
    · exact pure _
    · exact throw _
  exact ite (bind (throw _) fun _ => rest) rest

theorem streamCheck : KeepsStreams (streamCheck g) := by
  refine bind streamPlace fun pl => bind get fun w => ?_
  cases pl with
  | tile c off =>
    have rest : KeepsStreams (if w.swzTag c off ≠ layoutSwz g.layout then
        (trap { code := cSwz, addr := g.addr, info := (w.swzTag c off).setWidth 64 } : Act PUnit) >>= fun _ => Pure.pure (Place.tile c off)
        else (Pure.pure (Place.tile c off) : Act Place)) := ite (bind (throw _) fun _ => pure _) (pure _)
    exact ite (bind (throw _) fun _ => rest) rest
  | _ => exact pure _

theorem streamRead : KeepsStreams (streamRead g pl) := by
  refine bind get fun w => ?_
  cases pl with
  | tile c off =>
    exact bind (access checkRace) fun _ => bind (access readThrough) fun _ => bind (modify fun w => SameStreams.noteRead w ..) fun _ => pure _
  | _ =>
    exact bind (access checkRace) fun _ => bind (access readThrough) fun _ => bind (modify fun w => SameStreams.noteRead w ..) fun _ => pure _

end KeepsStreams

/-- An action that, where it fails, leaves stream registers as they are. -/
def FailsKeepingStreams {ε α : Type} (m : ExceptT ε (StateM Work) α) : Prop := ∀ w e v, m w = (.error e, v) → SameStreams w v

namespace FailsKeepingStreams
variable {ε α β : Type}

theorem bind {m : ExceptT ε (StateM Work) α} {f : α → ExceptT ε (StateM Work) β} (hm : KeepsStreams m) (hf : ∀ a, FailsKeepingStreams (f a)) :
    FailsKeepingStreams (m >>= f) := by
  intro w e v h
  have hw := hm w
  rw [act_bind] at h
  revert h hw
  rcases m w with ⟨x | a, u⟩
  · intro h hw
    obtain ⟨-, rfl⟩ := Prod.mk.inj h
    exact hw
  · exact fun h hw => hw.trans (hf a u e v h)

/-- A change and an answer do not fail. -/
theorem modify_pure (f : Work → Work) (a : α) : FailsKeepingStreams (modify f >>= fun _ => Pure.pure a : ExceptT ε (StateM Work) α) := by
  intro w e v h
  change (Except.ok a, f w) = (.error e, v) at h
  exact nomatch congrArg Prod.fst h

/-- A stream is advanced when its units have been read. -/
theorem streamUnits (r : BitVec 4) (g : Stream) (n : Nat) : FailsKeepingStreams (streamUnits r g n) :=
  bind (.mapM (fun _ => .streamCheck) _) fun _ =>
    bind (.mapM (fun (_, _) => .bind .streamRead fun (_, _) => .pure _) _) fun _ => modify_pure _ _

end FailsKeepingStreams

/-! ## MPUSH, and MSHIFT with an A operand -/

section
variable {s : State} {g : BitVec 4} {w : Work}

theorem exec_mpush {ls : List Line} {bad : Bool} (h : streamUnits g (s.work.rdG 0 g) (aUnits s.work.here.arr.mode) s.work = (.ok (ls, bad), w)) :
    exec (.mpush g) s = .next (left s (w.loadA ls bad)) := by
  refine runSlotKeep_ok s _ (mpushAct g) _ ?_
  simp only [mpushAct, act_bind, act_get, h, act_modify]

theorem operands_mpush (w : Work) : Work.operands (.mpush g) w = [((w.rdG 0 g).pos ++ (w.rdG 0 g).layout ++ (w.rdG 0 g).base).setWidth 1024] := rfl

/-- The trap of MPUSH's stream; the frame holds the stream as it was read. -/
theorem exec_mpush_trap {t : Trap} (h : streamUnits g (s.work.rdG 0 g) (aUnits s.work.here.arr.mode) s.work = (.error t, w)) :
    exec (.mpush g) s = .next (left s (w.slotTrap t (Work.operands (.mpush g) w))) := by
  have act : mpushAct g s.work = (.error t, w) := by simp only [mpushAct, act_bind, act_get, h]
  have ops : Work.operands (.mpush g) w = Work.operands (.mpush g) s.work := by
    rw [operands_mpush, operands_mpush, (FailsKeepingStreams.streamUnits g _ _ _ _ _ h).rdG]
  rw [ops]
  exact runSlotKeep_trap_left s _ (mpushAct g) act

/-- The B-plane unit that MSHIFT names. -/
theorem exec_mshift_stream {ls : List Line} {bad : Bool} (z i : BitVec 1) (row : BitVec 8)
    (h : streamUnits g (s.work.rdG 0 g) (aUnits s.work.here.arr.mode) s.work = (.ok (ls, bad), w)) :
    exec (.mshift z 1 g i row) s = .next (left s ((w.loadA ls bad).beat (z == 1)
      (if i = 1#1 then (field (s.work.rdS 1 (row.setWidth 6)) 0 8).toNat else row.toNat))) := by
  refine runSlotKeep_ok s _ (mshiftAct z 1 g i row) _ ?_
  have ht : (1 : BitVec 1) = 1#1 := rfl
  simp only [mshiftAct, act_bind, act_get, ht, if_true, act_modify, h]
  rfl

end

end Sys2Proof.Machine
end

section
/-! PROOFS. Streams and the matrix array (03_core R75, 06_matrix R124, R129 to R138), assembled. -/
namespace Sys2Proof.Machine
open Sys2Proof.Claim

/-! ## A beat's columns, in the terms of the rules -/

/-- Fraction bits of a product of codes (R129). -/
def Beat.frac (b : Beat) : Int := if b.mode = 1#3 then 4 + 4 else if b.mode = 2#3 then 2 + 2 else if b.mode = 3#3 then 2 + 6 else 6 + 6

theorem Beat.frac_eq (b : Beat) : (aFrac b.mode : Int) + bFrac b.mode = b.frac := by
  have all : ∀ m : BitVec 3, (aFrac m : Int) + bFrac m = if m = 1#3 then 4 + 4 else if m = 2#3 then 2 + 2 else if m = 3#3 then 2 + 6 else 6 + 6 := by decide
  exact all b.mode

theorem modeComplex_iff (m : BitVec 3) : modeComplex m = true ↔ m = 4#3 ∨ m = 5#3 := by simp [modeComplex]

namespace Work
variable (w : Work) (core at0 : Nat) {b : Beat} (hs : b.bsrc.toNat < 3) (h : b.bsrc = 0 ∨ b.mode = 0 ∨ b.mode = 4 ∨ b.mode = 5)

section
include hs h

theorem column_real (hc : ¬ (b.mode = 4#3 ∨ b.mode = 5#3)) {j : Nat} (hj : j < 256) : ∃ v, (w.beatColumns core at0 b).1[j]? = some v ∧
    b.ColumnIs (modeSegs b.mode) b.frac j (fun g => sumOf 32 fun k => b.aVal (32 * g + k) * w.bAt core at0 b j (32 * g + k)) v := by
  have hf : modeComplex b.mode = false := Bool.eq_false_iff.mpr (mt (modeComplex_iff _).mp hc)
  exact ⟨_, w.beatColumns_real core at0 hs h hf hj, b.frac_eq ▸ b.columnIs_real ..⟩

theorem column_complex (hc : b.mode = 4#3 ∨ b.mode = 5#3) {j : Nat} (hj : j < 128) : ∃ re im,
    (w.beatColumns core at0 b).1[2 * j]? = some re ∧ (w.beatColumns core at0 b).1[2 * j + 1]? = some im ∧
    (b.z0 = false →
      b.ColumnIs (modeSegs b.mode) b.frac (2 * j) (fun g => sumOf 16 fun k => b.aVal (32 * g + 2 * k) * w.bAt core at0 b (2 * j) (32 * g + 2 * k) -
        b.aVal (32 * g + 2 * k + 1) * w.bAt core at0 b (2 * j) (32 * g + 2 * k + 1)) re ∧
      b.ColumnIs (modeSegs b.mode) b.frac (2 * j) (fun g => sumOf 16 fun k => b.aVal (32 * g + 2 * k) * w.bAt core at0 b (2 * j) (32 * g + 2 * k + 1) +
        b.aVal (32 * g + 2 * k + 1) * w.bAt core at0 b (2 * j) (32 * g + 2 * k)) im) ∧
    (b.z0 = true →
      b.ColumnIs (modeSegs b.mode) b.frac (2 * j) (fun g => sumOf 16 fun k => b.aVal (32 * g + 2 * k) * w.bAt core at0 b (2 * j) (32 * g + 2 * k)) re ∧
      b.ColumnIs (modeSegs b.mode) b.frac (2 * j)
        (fun g => sumOf 16 fun k => b.aVal (32 * g + 2 * k + 1) * w.bAt core at0 b (2 * j) (32 * g + 2 * k + 1)) im) := by
  obtain ⟨hre, him⟩ := w.beatColumns_complex core at0 hs h ((modeComplex_iff _).mpr hc) hj
  refine ⟨_, _, hre, him, fun hz => ?_, fun hz => ?_⟩
  · rw [← b.frac_eq]
    exact ⟨b.columnIs_re _ _ _ hz, b.columnIs_im _ _ _ hz⟩
  · rw [← b.frac_eq]
    exact ⟨b.columnIs_re_z0 _ _ _ hz, b.columnIs_im_z0 _ _ _ hz⟩

end

include h in
/-- A beat is poisoned by any of the units that it reads. -/
theorem beatColumns_bad_iff : (w.beatColumns core at0 b).2 = true ↔ ∃ j u, j < 256 ∧ (b.mode = 4#3 ∨ b.mode = 5#3 → j % 2 = 0) ∧
    u < 32 * modeSegs b.mode * b.bBits / 8 / 64 ∧ (w.badUnit (bplaneKey core j ((at0 + u) % 256) 0) 64).isSome = true := by
  rw [beatColumns_bad, bUnits_eq h, Nat.mul_div_cancel_left _ (by decide)]
  simp only [modeComplex_iff]

end Work

/-- Settles O50: each instruction by what it makes of the array or of a stream; a beat by its B columns, a foot by its digits. -/
theorem matrixArray : Obligations.MatrixArray := by
  unfold Obligations.MatrixArray
  intro s g r4 x y v m src e c d h z row core A quiet becomes stages units
  have hu : units = aUnits A.mode := (aUnits_eq A.mode).symm
  refine ⟨exec_gset g x y, exec_gadv g x, exec_gldd_misaligned, fun bs pl w1 => exec_gldd, Work.advancePos_eq, exec_mmode_becomes s m src, ?_, ?_, ?_, ?_, ?_,
    Dyadic.add_spec, fun k _ hf hp _ => k.next_eq hf hp, footEmerge_leaves s, ?_, fun l => exec_latchActivate_due,
    ⟨exec_maccArmSet_becomes s x c d, exec_maccArmAdd_becomes s x c d, exec_maccOff_becomes s⟩, exec_sclA_becomes s v, exec_sclB_becomes s v e h, ?_⟩
  case refine_1 => rw [hu]; exact exec_mpushV_becomes s v
  case refine_2 =>
    intro ls bad w1 hl
    rw [hu] at hl
    exact ⟨exec_mpush hl, exec_mshift_stream z 0 row hl, exec_mshift_stream z 1 row hl⟩
  case refine_3 =>
    intro t w1 hl
    rw [hu] at hl
    exact exec_mpush_trap hl
  case refine_4 =>
    intro i at0 made
    exact ⟨s.work.footOf (z == 1) at0, exec_mshift_becomes z g i row at0 rfl, rfl, rfl, rfl, fun j q hj hq => field_footOf s.work (z == 1) at0 hj hq⟩
  case refine_5 =>
    intro w at0 b _ hs hb
    exact ⟨fun hc j hj => w.column_real core at0 hs hb hc hj, fun hc j hj => w.column_complex core at0 hs hb hc hj, w.beatColumns_length core at0,
      w.beatColumns_bad_iff core at0 hb⟩
  case refine_6 =>
    intro hl
    have hb := exec_latchActivate_becomes (s := s)
    rwa [Arr.advanceLatches_of_none_due hl] at hb
  case refine_7 =>
    intro q w b
    exact ⟨exec_scliA_short_becomes s e q, exec_scliB_short_becomes s e q, exec_scliA_long_becomes s e w, exec_scliB_long_becomes s e w⟩

end Sys2Proof.Machine
end

section
/-! PROOFS. What an encoding puts into a slot word is what its class's decoder reads there (04_encoding R88 to R92): the opcode field selects the
instruction's arm, and every operand is read back from its field. -/
namespace Sys2Proof

/-! ## Fields of a word laid out from pieces

These are stated for simp: a word's width is written as one number and its pieces' as a sum, which match by evaluation only. -/

/-- A field above the last piece lies in the pieces before it. -/
theorem field_above {m n : Nat} (a : BitVec m) (b : BitVec n) (lo len : Nat) (h : n ≤ lo) :
    field (no_index (a ++ b)) lo len = field a (lo - n) len := BitVec.extractLsb'_append_eq_of_le h

/-- A field within the last piece lies in it alone. -/
theorem field_within {m n : Nat} (a : BitVec m) (b : BitVec n) (lo len : Nat) (h : lo + len ≤ n) :
    field (no_index (a ++ b)) lo len = field b lo len := field_append_low a b lo len h

/-- The lowest bit is the last piece's. -/
theorem getLsbD_zero_within {m n : Nat} (a : BitVec m) (b : BitVec n) (h : 0 < n) : (no_index (a ++ b)).getLsbD 0 = b.getLsbD 0 := by
  rw [BitVec.getLsbD_append, if_pos h]

/-- A field one bit of which is set is not zero, whatever pieces it spans. -/
theorem field_ne_zero_of_bit {n lo len : Nat} {w : BitVec n} (k : Nat) (hk : k < len) (h : field w (lo + k) 1 = 1#1) : field w lo len ≠ 0#len := by
  intro h0
  rw [← Machine.field_field w lo (n := len) (by omega), h0] at h
  simp [field] at h

/-! ## Each class

An instruction's opcode field selects its arm of the decoder; the fields of the arm's guard are those the encoding fixes, and the operands' fields lie in
pieces of their own. Three kinds of instructions need a word more: one with an immediate has a short and a long form; one whose opcode has another form
before it must be told from that form; STL's range form puts its register pair number into two fields. -/

section
variable {g : BitVec 2} {i : Instr} {w : BitVec 32} {x : Option (BitVec 32)}

theorem decodeFields_encode_ctrl (h : encode g i = some (.slot .ctrl w x)) : decodeFields .ctrl w x = some i := by
  cases i <;> cases h
  case br m | call m | estI m =>
    cases m with
    | short => simp [decodeFields, decodeCtrl, Imm.low, Imm.ext, field_above, field_within]
    | long => simp [decodeFields, decodeCtrlLong, Imm.low, Imm.ext, field_above, field_within]
  case fenceR k s a l =>
    -- the range form's bit 17 tells it from the plain fence
    have other : field (g ++ 0x20#7 ++ k ++ s ++ 1#1 ++ a ++ l ++ 0#7 : BitVec 32) 0 18 ≠ 0#18 :=
      field_ne_zero_of_bit 17 (by omega) (by simp [field_above, field_within])
    simp [decodeFields, decodeCtrl, field_above, field_within, other]
  all_goals simp [decodeFields, decodeCtrl, field_above, field_within]

theorem decodeFields_encode_int1 (h : encode g i = some (.slot .int1 w x)) : decodeFields .int1 w x = some i := by
  cases i <;> cases h
  case brS1 m | callS1 m =>
    cases m with
    | short => simp [decodeFields, decodeInt, decodeIntBranch, Imm.low, Imm.ext, field_above, field_within]
    | long => simp [decodeFields, decodeIntLong, decodeIntBranchLong, Imm.low, Imm.ext, field_above, field_within]
  all_goals simp [decodeFields, decodeInt, decodeIntBranch, field_above, field_within]

theorem decodeFields_encode_int2 (h : encode g i = some (.slot .int2 w x)) : decodeFields .int2 w x = some i := by
  cases i <;> cases h
  case addI m | addaI m | andI m | andnI m | subI m | mulI m | mulhI m | madI m | divI m | remI m | orI m | xorI m | minI m | maxI m | cmpI m =>
    cases m with
    | short => simp [decodeFields, decodeInt, XImm.low, XImm.ext, field_above, field_within]
    | long => simp [decodeFields, decodeIntLong, XImm.low, XImm.ext, field_above, field_within, getLsbD_zero_within, -BitVec.getLsbD_eq_getElem]
  case movi m =>
    cases m with
    | short => simp [decodeFields, decodeInt, Imm.low, Imm.ext, field_above, field_within]
    | long => simp [decodeFields, decodeIntLong, Imm.low, Imm.ext, field_above, field_within]
  all_goals simp [decodeFields, decodeInt, field_above, field_within]

theorem decodeFields_encode_mem (h : encode g i = some (.slot .mem w x)) : decodeFields .mem w x = some i := by
  cases i <;> cases h
  case ld m | st m | vld m | vst m =>
    cases m with
    | short => simp [decodeFields, decodeMem, Imm.low, Imm.ext, field_above, field_within]
    | long => simp [decodeFields, decodeMemLong, Imm.low, Imm.ext, field_above, field_within]
  case stlR => simp [decodeFields, decodeMem, field_above, field_within, field_split]
  case allocNf d p c =>
    -- the form without a fault is told from ALLOC by bit 16
    have other : field (g ++ 0x0c#7 ++ d ++ 1#1 ++ p : BitVec 20) 0 5 ≠ 0#5 := field_ne_zero_of_bit 4 (by omega) (by simp [field_above, field_within])
    simp [decodeFields, decodeMem, field_above, field_within, other]
  all_goals simp [decodeFields, decodeMem, field_above, field_within]

theorem decodeFields_encode_vec (h : encode g i = some (.slot .vec w x)) : decodeFields .vec w x = some i := by
  cases i <;> cases h
  case vbcstI m =>
    cases m with
    | short => simp [decodeFields, decodeVec, Imm.low, Imm.ext, field_above, field_within]
    | long => simp [decodeFields, decodeVecLong, Imm.low, Imm.ext, field_above, field_within]
  all_goals simp [decodeFields, decodeVec, field_above, field_within]

theorem decodeFields_encode_mtx (h : encode g i = some (.slot .mtx w x)) : decodeFields .mtx w x = some i := by
  cases i <;> cases h
  case mxcpOut | mxcpIn =>
    cases x with
    | none => simp [decodeFields, decodeMtx, field_above, field_within]
    | some => simp [decodeFields, decodeMtxLong, field_above, field_within]
  case mpushV v =>
    -- bit 22 marks the form that names a vector register
    have other : field (g ++ 0x02#7 ++ 1#1 ++ v : BitVec 15) 4 2 ≠ 0#2 := field_ne_zero_of_bit 1 (by omega) (by simp [field_above, field_within])
    simp [decodeFields, decodeMtx, field_above, field_within, other]
  all_goals simp [decodeFields, decodeMtx, field_above, field_within, field]

theorem decodeFields_encode_scl (h : encode g i = some (.slot .scl w x)) : decodeFields .scl w x = some i := by
  cases i <;> cases h
  case scliA m | scliB m =>
    cases m with
    | short => simp [decodeFields, decodeScl, Imm.low, Imm.ext, field_above, field_within]
    | long => simp [decodeFields, decodeSclLong, Imm.low, Imm.ext, field_above, field_within]
  all_goals simp [decodeFields, decodeScl, field_above, field_within]

theorem decodeFields_encode_flow (h : encode g i = some (.slot .flow w x)) : decodeFields .flow w x = some i := by
  cases i <;> cases h
  case enqR p l r =>
    -- ENQ's forms differ in bits 22 and 21
    have other : field (g ++ 0x29#7 ++ 1#2 ++ p : BitVec 15) 0 6 ≠ 0#6 := field_ne_zero_of_bit 4 (by omega) (by simp [field_above, field_within, field])
    simp [decodeFields, decodeFlow, field_above, field_within, other]
  case depdecS s =>
    -- bit 22 marks the form that names a scalar register
    have other : field (g ++ 0x2a#7 ++ 1#1 ++ s : BitVec 16) 0 7 ≠ 0#7 := field_ne_zero_of_bit 6 (by omega) (by simp [field_above, field_within])
    simp [decodeFields, decodeFlow, field_above, field_within, other]
  all_goals simp [decodeFields, decodeFlow, field_above, field_within, field]

/-- R88 to R90: the decoder of its class reads every instruction's fields back from its words. -/
theorem decodeFields_encode {c : SlotClass} (h : encode g i = some (.slot c w x)) : decodeFields c w x = some i := by
  cases c with
  | ctrl => exact decodeFields_encode_ctrl h
  | int1 => exact decodeFields_encode_int1 h
  | int2 => exact decodeFields_encode_int2 h
  | mem => exact decodeFields_encode_mem h
  | vec => exact decodeFields_encode_vec h
  | mtx => exact decodeFields_encode_mtx h
  | scl => exact decodeFields_encode_scl h
  | flow => exact decodeFields_encode_flow h

/-- R92: what the entry's limits allow is not refused. -/
theorem decodeSlot_encode {c : SlotClass} (hi : i.wellFormed = true) (h : encode g i = some (.slot c w x)) : decodeSlot c w x = some i := by
  rw [decodeSlot, decodeFields_encode h, Option.filter_some, if_pos hi]

/-! ## The helper cores' words (R99) -/

theorem decodeHelper_of_ix {j : Instr} (hq : field w 0 2 = 3#2) (h : decodeIx w = some j) (he : field w 0 7 ≠ 0x73#7) : decodeHelper w = j := by
  have ne (v : BitVec 32) (hv : field v 0 7 = 0x73#7) : w ≠ v := fun hw => he (hw ▸ hv)
  rw [decodeHelper, if_pos hq, if_neg (ne _ (by decide)), if_neg (ne _ (by decide)), h]

theorem decodeHelper_encode (h : encode g i = some (.ix w)) : decodeHelper w = i := by
  cases i <;> cases h
  case ecall | ebreak => decide
  all_goals
    refine decodeHelper_of_ix ?_ ?_ ?_
    · simp [field_within, field]
    · simp [decodeIx, field_above, field_within]
    · simp [field_within]

end

/-- Settles O2: the decoder of each class, CTRL and INT among them, reads an encoding back. -/
theorem roundTripCtrlInt : Obligations.RoundTripCtrlInt := fun _ _ _ _ _ hi h _ => decodeSlot_encode hi h

/-- Settles O3: as O2, with MEM and VEC for the classes. -/
theorem roundTripMemVec : Obligations.RoundTripMemVec := fun _ _ _ _ _ hi h _ => decodeSlot_encode hi h

/-- Settles O4: the slot words as O2, the helper cores' words by their own decoder. -/
theorem roundTripEngines : Obligations.RoundTripEngines := ⟨fun _ _ _ _ _ hi h _ => decodeSlot_encode hi h, fun _ _ _ h => decodeHelper_encode h⟩

/-- Settles O1: each word is closed, and decodes by evaluation. -/
theorem decodeSampleWords : Obligations.DecodeSampleWords := by
  unfold Obligations.DecodeSampleWords
  decide +kernel

end Sys2Proof
end

section
/-! PROOFS. Packets and their code words, the bundle that a code address gives, and the one that follows (04_encoding R80 to R86). -/
namespace Sys2Proof

/-! ## Packets (R80 to R83) -/

section
variable (p : BitVec 512) (h : Nat)

theorem packetStart_iff : packetStart p h = true ↔ 2 ≤ h ∧ h ≤ 31 ∧ p.getLsbD (h - 2) = true := by simp [packetStart, and_assoc]

/-- A code word begins in the payload's halfwords (R80). -/
theorem payload_of_start {p : BitVec 512} {h : Nat} (hs : packetStart p h = true) : 2 ≤ h ∧ h < 32 := by
  obtain ⟨hl, hu, -⟩ := (packetStart_iff p h).mp hs
  omega

theorem isLiteralAt_iff : isLiteralAt p h = true ↔ packetStart p h = true ∧ field p (16 * h) 16 = 0xFFFF#16 := by simp [isLiteralAt, packetHalf]

theorem packetMalformed_iff : packetMalformed p = true ↔ p.getLsbD 31 = true ∨ field p 0 30 = 0#30 ∨
    ∃ k, isLiteralAt p k = true ∧ (31 < k + 24 ∨ ∃ j, k < j ∧ j ≤ k + 24 ∧ packetStart p j = true) := by
  have inside (k : Nat) : (∃ i, i < 24 ∧ packetStart p (k + 1 + i) = true) ↔ ∃ j, k < j ∧ j ≤ k + 24 ∧ packetStart p j = true := by
    constructor
    · rintro ⟨i, hi, hs⟩
      exact ⟨k + 1 + i, by omega, by omega, hs⟩
    · rintro ⟨j, hk, hj, hs⟩
      exact ⟨j - (k + 1), by omega, by rwa [show k + 1 + (j - (k + 1)) = j by omega]⟩
  have low {k : Nat} (hk : isLiteralAt p k = true) : k < 32 := (payload_of_start ((isLiteralAt_iff p k).mp hk).1).2
  simp only [packetMalformed, Bool.or_eq_true, beq_iff_eq, List.any_eq_true, List.mem_range, Bool.and_eq_true, decide_eq_true_eq, inside, or_assoc]
  exact or_congr_right (or_congr_right (exists_congr fun k => ⟨fun hk => hk.2, fun hk => ⟨low hk.1, hk⟩⟩))

theorem packetNext_eq_some {k : Nat} :
    packetNext p h = some k ↔ h < k ∧ packetStart p k = true ∧ ∀ j, h < j → j < k → packetStart p j = false := by
  simp only [packetNext, List.find?_range_eq_some, List.mem_range, Bool.and_eq_true, decide_eq_true_eq, Bool.not_eq_true', Bool.and_eq_false_iff,
    decide_eq_false_iff_not]
  constructor
  · rintro ⟨⟨hk, hs⟩, -, first⟩
    exact ⟨hk, hs, fun j hj hjk => (first j hjk).resolve_left (not_not_intro hj)⟩
  · rintro ⟨hk, hs, first⟩
    exact ⟨⟨hk, hs⟩, (payload_of_start hs).2, fun j hjk => or_iff_not_imp_left.mpr fun hj => first j (not_not.mp hj) hjk⟩

/-- A well-formed packet has a first code word (R83: START is not zero). -/
theorem firstWord_of_wellFormed (hm : packetMalformed p = false) :
    ∃ k, Machine.Work.firstWord p = some k ∧ packetStart p k = true ∧ ∀ j, j < k → packetStart p j = false := by
  have starts : ∃ k, packetStart p k = true := by
    by_contra none
    refine Bool.eq_false_iff.mp hm ((packetMalformed_iff p).mpr (.inr (.inl (BitVec.eq_of_getLsbD_eq fun i hi => ?_))))
    have no : p.getLsbD i = false := Bool.eq_false_iff.mpr fun hb => none ⟨i + 2, (packetStart_iff p _).mpr ⟨by omega, by omega, hb⟩⟩
    simpa [field] using fun _ => no
  have hs := Nat.find_spec starts
  have first : ∀ j, j < Nat.find starts → packetStart p j = false := fun j hj => Bool.eq_false_iff.mpr (Nat.find_min starts hj)
  exact ⟨_, (packetNext_eq_some p 1).mpr ⟨(payload_of_start hs).1, hs, fun j _ hj => first j hj⟩, hs, first⟩

/-- R82, R87: what a code word's halfword says, by its number. -/
theorem codeWordAt_eq : codeWordAt p h =
    if (field p (16 * h) 16).toNat < 0x1000 then .dictionary (field p (16 * h) 16).toNat
    else if (field p (16 * h) 16).toNat < 0x1100 then .idle (field (field p (16 * h) 16) 0 8)
    else if field p (16 * h) 16 = 0xFFFF#16 then .literal (field p (16 * (h + 1)) 384) else .reservedWord := by
  simp only [codeWordAt, packetHalf, BitVec.le_def, BitVec.toNat_ofNat, Nat.reducePow, Nat.reduceMod, Nat.lt_succ_iff (n := 0xFFF),
    Nat.lt_succ_iff (n := 0x10FF)]
  rfl

theorem codeWordAt_literal (hc : field p (16 * h) 16 = 0xFFFF#16) : codeWordAt p h = .literal (field p (16 * (h + 1)) 384) := by
  rw [codeWordAt_eq, hc, if_neg (by decide), if_neg (by decide), if_pos rfl]

/-- A code word that begins at a halfword: its length is 25 halfwords if it is a literal escape. -/
theorem wordLen_of_start (hs : packetStart p h = true) : Machine.Work.wordLen p h = if field p (16 * h) 16 = 0xFFFF#16 then 25 else 1 := by
  simp [Machine.Work.wordLen, isLiteralAt, packetHalf, hs]

end
end Sys2Proof

namespace Sys2Proof.Machine
open Sys2Proof.Claim

/-! ## The bundle at a code address (R84 to R86) -/

namespace Work

section
variable {w w1 w2 : Work} {pc next : Word} (target : Bool) {p : BitVec 512}

theorem fetchAt_target_bad (h : pc.getLsbD 0 = true ∨ halfOf pc < 2) : w.fetchAt pc true = (.error ⟨cBadTarget, pc, 0⟩, w) := by
  cases h0 : pc.getLsbD 0 with
  | true => simp [fetchAt, h0, -BitVec.getLsbD_eq_getElem]
  | false => simp [fetchAt, h0, h.resolve_left (by simp [h0, -BitVec.getLsbD_eq_getElem]), -BitVec.getLsbD_eq_getElem]

theorem fetchAt_behind (h : pc.getLsbD 0 = true) (hr : runPos pc = 0) : w.fetchAt pc false = (.error ⟨cIllCode, pc &&& ~~~1#64, 0⟩, w) := by
  simp [fetchAt, h, hr, -BitVec.getLsbD_eq_getElem]

/-- A code address in a packet's payload is not zero. -/
theorem codeByte_ne_zero (h2 : 2 ≤ halfOf pc) : codeByte pc ≠ 0#64 := by
  intro h
  have half : field (codeByte pc) 1 5 = field pc 1 5 := (field_append_low 0#8 (field pc 0 56) 1 5 (by omega)).trans (field_field pc 0 (by omega))
  rw [h] at half
  have none : halfOf pc = 0 := congrArg BitVec.toNat half.symm
  omega

/-- What fetch asks of a code address in a packet's payload. -/
theorem payload_checks (h2 : 2 ≤ halfOf pc) : codeByte pc ≠ 0#64 ∧ halfOf pc ≠ 0 ∧ ¬ halfOf pc < 2 := ⟨codeByte_ne_zero h2, by omega, by omega⟩

variable (h0 : pc.getLsbD 0 = false) (h2 : 2 ≤ halfOf pc) (hf : w.fetchPacket (packetOf pc) = (.ok p, w1))
include h0 h2 hf

theorem fetchAt_malformed (hm : packetMalformed p = true) : w.fetchAt pc target = (.error ⟨cIllCode, pc, 0⟩, w1) := by
  simp [fetchAt, h0, payload_checks h2, hf, hm, -BitVec.getLsbD_eq_getElem]

variable (hm : packetMalformed p = false)
include hm

theorem fetchAt_no_start (hs : packetStart p (halfOf pc) = false) :
    w.fetchAt pc target = (.error ⟨if target then cBadTarget else cIllCode, pc, 0⟩, w1) := by
  cases target <;> simp [fetchAt, h0, payload_checks h2, hf, hm, hs, -BitVec.getLsbD_eq_getElem]

variable (hs : packetStart p (halfOf pc) = true)
include hs

theorem fetchAt_run_of_not_idle (hr : runPos pc ≠ 0) (hc : ∀ n, codeWordAt p (halfOf pc) ≠ .idle n) :
    w.fetchAt pc target = (.error ⟨cBadTarget, pc, 0⟩, w1) := by
  cases hcw : codeWordAt p (halfOf pc) with
  | idle n => exact absurd hcw (hc n)
  | _ => simp [fetchAt, h0, payload_checks h2, hf, hm, hs, hcw, hr, -BitVec.getLsbD_eq_getElem]

theorem fetchAt_reserved (hr : runPos pc = 0) (hc : codeWordAt p (halfOf pc) = .reservedWord) :
    w.fetchAt pc target = (.error ⟨cIllCode, pc, 0⟩, w1) := by
  simp [fetchAt, h0, payload_checks h2, hf, hm, hs, hc, hr, -BitVec.getLsbD_eq_getElem]

theorem fetchAt_dictionary_error {i : Nat} {e : FetchTrap} (hr : runPos pc = 0) (hc : codeWordAt p (halfOf pc) = .dictionary i)
    (he : w1.dictEntry pc i = .error e) : w.fetchAt pc target = (.error e, w1) := by
  simp [fetchAt, h0, payload_checks h2, hf, hm, hs, hc, hr, he, -BitVec.getLsbD_eq_getElem]

variable (hn : w1.successor (packetOf pc) p (halfOf pc) = (next, w2))
include hn

theorem fetchAt_dictionary {i : Nat} {b : Bundle} (hr : runPos pc = 0) (hc : codeWordAt p (halfOf pc) = .dictionary i)
    (hb : w1.dictEntry pc i = .ok b) : w.fetchAt pc target = (.ok ⟨pc, b, false, some next⟩, w2) := by
  simp [fetchAt, h0, payload_checks h2, hf, hm, hs, hc, hr, hb, hn, -BitVec.getLsbD_eq_getElem]

theorem fetchAt_literal {b : Bundle} (hr : runPos pc = 0) (hc : codeWordAt p (halfOf pc) = .literal b) :
    w.fetchAt pc target = (.ok ⟨pc, b, false, some next⟩, w2) := by
  simp [fetchAt, h0, payload_checks h2, hf, hm, hs, hc, hr, hn, -BitVec.getLsbD_eq_getElem]

theorem fetchAt_idle {n : BitVec 8} (hc : codeWordAt p (halfOf pc) = .idle n) :
    w.fetchAt pc target =
      if n.toNat < runPos pc then (.error ⟨cBadTarget, pc, 0⟩, w1)
      else if runPos pc < n.toNat then (.ok ⟨pc, emptyBundle, true, some (withRun pc (runPos pc + 1))⟩, w1)
      else (.ok ⟨pc, emptyBundle, true, some next⟩, w2) := by
  simp [fetchAt, h0, payload_checks h2, hf, hm, hs, hc, hn, -BitVec.getLsbD_eq_getElem]

end

section
variable {w : Work} {d : DictStore} (hd : w.here.dict = some d) (addr : Word) {i : Nat}
include hd

theorem dictEntry_ok {b : Bundle} (h : d.bundles[i]? = some (.ok b)) : w.dictEntry addr i = .ok b := by simp [dictEntry, hd, h]

theorem dictEntry_bad {r : Nat} (h : d.bundles[i]? = some (.bad r)) :
    w.dictEntry addr i = .error (if r = 0 then ⟨cCodeEcc, addr, 0⟩ else ⟨cFetch, addr, r⟩) := by simp [dictEntry, hd, h]

theorem dictEntry_past (h : d.bundles.length ≤ i) : w.dictEntry addr i = .error ⟨cIllCode, addr, 0⟩ := by
  simp [dictEntry, hd, List.getElem?_eq_none h]

end

/-! ## The bundle that follows (R81, R84) -/

section
variable {w w1 : Work} (pkt : Word) {p : BitVec 512} {h : Nat}

theorem successor_within {k : Nat} (hn : packetNext p h = some k) : w.successor pkt p h = (pkt + BitVec.ofNat 64 (2 * k), w) := by
  simp only [successor, hn]

theorem successor_end (hn : packetNext p h = none) (he : packetEnd p = true) :
    w.successor pkt p h = ((pkt + BitVec.ofNat 64 (2 * (h + wordLen p h))) ||| 1#64, w) := by
  simp only [successor, hn, he, if_true]

variable (hn : packetNext p h = none) (he : packetEnd p = false)
include hn he

theorem successor_packet {q : BitVec 512} {k : Nat} (hf : w.fetchPacket (pkt + 64#64) = (.ok q, w1)) (hm : packetMalformed q = false)
    (hk : firstWord q = some k) : w.successor pkt p h = (pkt + 64#64 + BitVec.ofNat 64 (2 * k), w1) := by
  simp [successor, hn, he, hf, hm, hk]

theorem successor_malformed {q : BitVec 512} (hf : w.fetchPacket (pkt + 64#64) = (.ok q, w1)) (hm : packetMalformed q = true) :
    w.successor pkt p h = (pkt + 64#64, w1) := by
  simp [successor, hn, he, hf, hm]

theorem successor_unread {e : FetchTrap} (hf : w.fetchPacket (pkt + 64#64) = (.error e, w1)) :
    w.successor pkt p h = (pkt + 64#64, w1) := by
  simp [successor, hn, he, hf]

end

theorem following_odd {w : Work} {pc : Word} (h : pc.getLsbD 0 = true) : w.following pc = (pc, w) := by
  rw [following, if_pos h]

theorem following_payload {w w1 : Work} {pc : Word} {p : BitVec 512} (h0 : pc.getLsbD 0 = false) (h2 : 2 ≤ halfOf pc)
    (hf : w.fetchPacket (packetOf pc) = (.ok p, w1)) (hm : packetMalformed p = false) (hs : packetStart p (halfOf pc) = true) :
    w.following pc = match codeWordAt p (halfOf pc) with
      | .idle n => if runPos pc < n.toNat then (withRun pc (runPos pc + 1), w1) else w1.successor (packetOf pc) p (halfOf pc)
      | _ => w1.successor (packetOf pc) p (halfOf pc) := by
  cases hc : codeWordAt p (halfOf pc) <;> simp [following, h0, payload_checks h2, hf, hm, hs, hc, -BitVec.getLsbD_eq_getElem]

end Work

/-! ## Idle runs (R82, R84) -/

theorem exec_idleRun_within {s : State} {n : BitVec 8} (hn : runPos s.work.me.pc < n.toNat) :
    exec (.idleRun n) s = .next (onFocus s fun g => { g with nextAddr := some (withRun s.work.me.pc (runPos s.work.me.pc + 1)) }) :=
  congrArg Host.Outcome.next (lift_congr (if_pos hn))

theorem exec_idleRun_last {s : State} {n : BitVec 8} {w1 w2 : Work} {p : BitVec 512} {next : Word} (hn : n.toNat ≤ runPos s.work.me.pc)
    (hf : s.work.fetchPacket (packetOf s.work.me.pc) = (.ok p, w1)) (hs : w1.successor (packetOf s.work.me.pc) p (halfOf s.work.me.pc) = (next, w2)) :
    exec (.idleRun n) s = .next (onFocus (left s w2) fun g => { g with nextAddr := some next }) := by
  rw [← left_modFocus]
  refine congrArg Host.Outcome.next (congrArg (left s) (a₁ := ite _ _ _) ((if_neg (Nat.not_lt.mpr hn)).trans ?_))
  simp only [hf, hs]

/-- Settles O20: the run goes on while its position is below its length; after its last bundle comes the code word's successor. -/
theorem idleRuns : Obligations.IdleRuns := fun _ _ => ⟨exec_idleRun_within, fun _ _ _ _ => exec_idleRun_last⟩

/-! ## Fetching, assembled -/

/-- Settles O35: the address first, then its packet, then the code word that stands there; a packet and its code words as R80 to R83 lay them out; and the
successor within the packet, past its END, or in the next packet. -/
theorem fetchReadsCodeWords : Obligations.FetchReadsCodeWords := by
  unfold Obligations.FetchReadsCodeWords
  refine ⟨?_, fun w pc => ⟨Work.fetchAt_target_bad, Work.fetchAt_behind⟩, ?_, ?_⟩
  · intro w w1 w2 pc next target p h0 h2 hf
    refine ⟨Work.fetchAt_malformed target h0 h2 hf, Work.fetchAt_no_start target h0 h2 hf, fun hm hs hn => ⟨fun b hc => ?_, fun j hc hr d hd => ?_,
      fun hc hr => Work.fetchAt_reserved target h0 h2 hf hm hs hr hc, Work.fetchAt_run_of_not_idle target h0 h2 hf hm hs, fun n hc => ?_⟩⟩
    · split
      case isTrue hr => exact Work.fetchAt_literal target h0 h2 hf hm hs hn hr hc
      case isFalse hr => exact Work.fetchAt_run_of_not_idle target h0 h2 hf hm hs hr (by simp [hc])
    · refine ⟨fun b hb => ?_, fun hb => ?_, fun r hr0 hb => ?_, fun hb => ?_⟩
      · exact Work.fetchAt_dictionary target h0 h2 hf hm hs hn hr hc (Work.dictEntry_ok hd pc hb)
      · exact Work.fetchAt_dictionary_error target h0 h2 hf hm hs hr hc (Work.dictEntry_bad hd pc hb)
      · exact Work.fetchAt_dictionary_error target h0 h2 hf hm hs hr hc ((Work.dictEntry_bad hd pc hb).trans (by rw [if_neg hr0]; rfl))
      · exact Work.fetchAt_dictionary_error target h0 h2 hf hm hs hr hc (Work.dictEntry_past hd pc hb)
    · have he := Work.fetchAt_idle target h0 h2 hf hm hs hn hc
      exact ⟨fun hle => he.trans (if_neg (by omega)), fun hlt => he.trans (if_pos hlt)⟩
  · intro p h half literal
    refine ⟨packetStart_iff p h, Iff.rfl, ?_, ?_, ?_, ?_, ?_, fun k => packetNext_eq_some p h⟩
    · simp only [packetMalformed_iff, isLiteralAt_iff]
      rfl
    · exact fun hc => (codeWordAt_eq p h).trans (if_pos hc)
    · exact fun hl hu => (codeWordAt_eq p h).trans ((if_neg (Nat.not_lt.mpr hl)).trans (if_pos hu))
    · exact codeWordAt_literal p h
    · exact fun (hl : _ ≤ (field p (16 * h) 16).toNat) hne => (codeWordAt_eq p h).trans ((if_neg (by omega)).trans ((if_neg (by omega)).trans (if_neg hne)))
  · intro w w1 pkt p h
    refine ⟨fun k => Work.successor_within pkt, ?_, ?_, ?_⟩
    · intro hn he hs
      rw [Work.successor_end pkt hn he, wordLen_of_start p h hs]
    · intro hn he
      refine ⟨fun q hf => ⟨fun hm => ?_, Work.successor_malformed pkt hn he hf⟩, fun e => Work.successor_unread pkt hn he⟩
      obtain ⟨k, hk, hs, first⟩ := firstWord_of_wellFormed q hm
      exact ⟨k, hs, first, Work.successor_packet pkt hn he hf hm hk⟩
    · intro pc
      refine ⟨rfl, fun n a v hfo => ?_, Work.following_odd, fun h0 h2 hf hm hs => (Work.following_payload h0 h2 hf hm hs).trans ?_⟩
      · rw [Work.addrAfter, hfo]
      · rfl

end Sys2Proof.Machine
end

section
/-! PROOFS. A result in flight, and nothing else, of an instruction that may have taken a draw (03_core R55, R56, 05_numbers R119). -/
namespace Sys2Proof.Machine
open Sys2Proof.Claim

/-- Only scalar and predicate registers discard writes. -/
theorem Res.kept_of_kind {r : Res} (hs : r.kind ≠ .sReg) (hp : r.kind ≠ .pReg) : r.kept = r.kind := if_neg fun h => h.1.elim hs hp

namespace Work

section
variable (w : Work) (r : Res)

/-- Whatever its kind, a result changes only what is in flight in the context at work. -/
theorem put_cases : w.put r = w ∨ ∃ old : List InFlight → List InFlight, w.put r = w.modMe fun c => { c with inflight := old c.inflight } := by
  unfold put
  extract_lets k fc x f
  split
  · exact .inl rfl
  · right
    by_cases h : r.flags.getLsbD 0 = true
    · exact ⟨fun l => (l.map fun g => if g.seqNo = fc.seqNo ∧ fc.slot < g.slot ∧ g.flags.getLsbD 0 then { g with xtra := x } else g) ++ [f],
        by simp only [h, if_true]⟩
    · exact ⟨fun l => l ++ [f], by simp only [h, Bool.false_eq_true, if_false]⟩

theorem put_regsOf : regsOf (w.put r).me = regsOf w.me := by
  rcases put_cases w r with h | ⟨old, h⟩
  · rw [h]
  · rw [h, me_modMe]; rfl

theorem put_ctx_other {n k : Nat} (h : n ≠ w.focus.core ∨ k % 4 ≠ w.focus.ctx % 4) : (w.put r).ctx n k = w.ctx n k := by
  rcases put_cases w r with e | ⟨old, e⟩
  · rw [e]
  · rw [e]; exact ctx_modCtx_other w _ (h.imp_right Ne.symm)

/-- A result that a register keeps is the last in flight. -/
theorem put_getLast (h : r.kept ≠ .flagsOnly) : ∃ f, (w.put r).me.inflight.getLast? = some f ∧ f.kind = r.kept ∧ f.reg = r.reg ∧
    f.land = w.focus.issueAt + r.lat ∧ f.value = r.value ∧ f.flags = r.flags := by
  unfold put
  extract_lets k fc x f
  have hk : ¬ (decide (k = .flagsOnly) && decide (r.flags = 0)) = true := by
    rw [decide_eq_false h, Bool.false_and]; exact Bool.false_ne_true
  rw [if_neg hk, me_modMe]
  exact ⟨f, List.getLast?_concat, rfl, rfl, rfl, rfl, rfl⟩

/-- Without flags, what is in flight beside it stays as it is. -/
theorem put_of_no_flags (h : r.kept ≠ .flagsOnly) (hz : r.flags = 0) : w.put r = w.modMe fun c => { c with inflight := c.inflight ++
    [⟨w.focus.issueAt + r.lat, w.focus.seqNo, w.focus.slot, r.kept, r.reg, 0, r.xtra, r.value, r.interlocked⟩] } := by
  have hb : (0 : Flags).getLsbD 0 = false := BitVec.getLsbD_zero
  unfold put
  simp only [hz, hb, h, decide_false, Bool.false_and, Bool.false_eq_true, if_false]

/-- The generator is no register that a program reads. -/
theorem setGen_regsOf (g : BitVec 32) : regsOf (w.setGen g).me = regsOf w.me := by
  rw [setGen, me_modMe]; rfl
end
end Work

section
variable {s : State} {i : Instr} {g : BitVec 32} {r : Res}

/-- An instruction that takes a draw and puts one result in flight. -/
theorem produces_put {P : Line → Flags → Prop} (he : exec i s = .next (left s ((s.work.setGen g).put r))) (hk : r.kept ≠ .flagsOnly)
    (hP : P r.value r.flags) :
    produces s i r.kept r.reg r.lat P := by
  obtain ⟨f, last, kind, reg, land, value, flags⟩ := Work.put_getLast (s.work.setGen g) r hk
  refine ⟨_, f, he, last, kind, reg, land, ?_, ?_, ?_, ?_, fun n c h => ?_, by rw [value, flags]; exact hP⟩
  · exact (Work.put_regsOf ..).trans (Work.setGen_regsOf ..)
  · exact congrArg (applyLog s.mem) (Work.put_log (s.work.setGen g) r)
  · exact Work.put_insts (s.work.setGen g) r
  · exact Work.put_handles (s.work.setGen g) r
  · exact (Work.put_ctx_other (s.work.setGen g) r h).trans (Work.ctx_modCtx_other s.work _ (h.imp_right Ne.symm))

/-- ... whether or not its register keeps it, changes no register and no memory. -/
theorem exec_put_frame (he : exec i s = .next (left s ((s.work.setGen g).put r))) :
    ∃ t, exec i s = .next t ∧ regsOf t.work.me = regsOf s.work.me ∧ t.mem = s.mem :=
  ⟨_, he, (Work.put_regsOf ..).trans (Work.setGen_regsOf ..), congrArg (applyLog s.mem) (Work.put_log (s.work.setGen g) r)⟩
end

end Sys2Proof.Machine
end

section
/-! PROOFS. Products of values, exact before they are rounded or added (05_numbers R109 to R111, R126). -/
namespace Sys2Proof.Machine

/-- A finite value's last bit weighs no less than a subnormal's. -/
theorem Fmt.qmin_le_of_value {f : Fmt} {x m : Nat} {neg : Bool} {e : Int} (h : f.value x = .fin neg m e) : f.qmin ≤ e := by
  unfold Fmt.value at h
  extract_lets sign exp frac at h
  split at h
  · split at h <;> cases h
  · split at h
    · cases h
    · split at h
      · obtain ⟨-, -, rfl⟩ := FVal.fin.inj h
        exact le_rfl
      · obtain ⟨-, -, rfl⟩ := FVal.fin.inj h
        unfold Fmt.qmin Fmt.emin
        omega

theorem mulVal_comm (x y : FVal) : mulVal x y = mulVal y x := by
  have hz : (x.isZero && y.isInf || x.isInf && y.isZero) = (y.isZero && x.isInf || y.isInf && x.isZero) := by
    rw [Bool.or_comm, Bool.and_comm x.isInf, Bool.and_comm x.isZero]
  unfold mulVal
  rw [hz, Bool.or_comm x.isNan, Bool.or_comm x.isInf, bne_comm (a := x.sign), Nat.mul_comm, Int.add_comm]

theorem mulVal_nan {x : FVal} (h : x.isNan = true) (y : FVal) : mulVal x y = some (.nan false) := by
  cases x <;> cases h
  rfl

theorem mulVal_inf_inf (a b : Bool) : mulVal (.inf a) (.inf b) = some (.inf (a != b)) := rfl

/-- Infinity times zero has no value. -/
theorem mulVal_inf_fin (a b : Bool) (m : Nat) (e : Int) : mulVal (.inf a) (.fin b m e) = if m = 0 then none else some (.inf (a != b)) := by
  cases m <;> rfl

theorem natAbs_dyadic_num (a : Bool) (m : Nat) (e : Int) : (FVal.fin a m e).dyadic.num.natAbs = m := by
  cases a
  · exact Int.natAbs_natCast m
  · exact (Int.natAbs_neg m).trans (Int.natAbs_natCast m)

theorem mulVal_fin_fin (a b : Bool) (m n : Nat) (d e : Int) : mulVal (.fin a m d) (.fin b n e) = some (.fin (a != b) (m * n) (d + e)) := by
  have h : mulVal (.fin a m d) (.fin b n e) =
      some (.fin (a != b) ((FVal.fin a m d).dyadic.num.natAbs * (FVal.fin b n e).dyadic.num.natAbs) (d + e)) := by
    cases m <;> cases n <;> rfl
  rw [h, natAbs_dyadic_num, natAbs_dyadic_num]

theorem snanFlag_pair (x y : FVal) : snanFlag [x, y] = if x.isSnan || y.isSnan then flNv else 0 := by
  simp only [snanFlag, List.any_cons, List.any_nil, Bool.or_false]

theorem snanFlag_single (x : FVal) : snanFlag [x] = if x.isSnan then flNv else 0 := by
  simp only [snanFlag, List.any_cons, List.any_nil, Bool.or_false]

theorem snanFlag_comm (x y : FVal) : snanFlag [x, y] = snanFlag [y, x] := by
  rw [snanFlag_pair, snanFlag_pair, Bool.or_comm]

/-- 1.0 as an FP64 operand. -/
theorem fp64_value_one : fp64.value 0x3FF0000000000000 = .fin false (2 ^ 52) (-52) := by decide +kernel

end Sys2Proof.Machine
end

section
/-! PROOFS. The exact accumulator (05_numbers R126, R127, 25_ref R480): operations in flight, what each does as it lands, their order, and the reads. -/
namespace Sys2Proof.Machine
open Sys2Proof.Claim Work

/-! ## Operations in flight -/

section
variable (s : State)

/-- The record of an operation on the exact accumulator: 0 XCLR, 1 XFMA, 2 XADD. -/
def xaccEntry (op a b : Word) (lat : Nat) : InFlight :=
  ⟨s.focus.issueAt + lat, s.focus.seqNo, s.focus.slot, .xaccOp, 0, 0, op, (b ++ a).setWidth 1024, false⟩

theorem putX_eq (w : Work) (op a b : Word) (lat : Nat) : w.putX op a b lat = w.modMe fun c => { c with inflight := c.inflight ++
    [⟨w.focus.issueAt + lat, w.focus.seqNo, w.focus.slot, .xaccOp, 0, 0, op, (b ++ a).setWidth 1024, false⟩] } :=
  have hk := Res.kept_of_kind (r := ⟨.xaccOp, 0, (b ++ a).setWidth 1024, lat, 0, op, false⟩) nofun nofun
  (Work.put_of_no_flags w _ (by rw [hk]; nofun) rfl).trans (by rw [hk])

theorem putX_focus (w : Work) (op a b : Word) (lat : Nat) : (w.putX op a b lat).focus = w.focus := Work.put_focus ..

theorem lift_putX (op a b : Word) (lat : Nat) : lift (fun w => w.putX op a b lat) s = addResult s (xaccEntry s op a b lat) :=
  lift_congr (putX_eq ..)

/-- The same of operands that the step's start gives. -/
theorem lift_putX_of (op : Word) (f g : Work → Word) (lat : Nat) :
    lift (fun w => w.putX op (f w) (g w) lat) s = addResult s (xaccEntry s op (f s.work) (g s.work) lat) := lift_congr (putX_eq ..)

theorem exec_xclr : exec .xclr s = .next (addResult s (xaccEntry s 0 0 0 2)) := congrArg Host.Outcome.next (lift_putX s ..)

theorem exec_xadd (a : BitVec 6) (t : BitVec 1) : exec (.xadd a t) s = .next (addResult s (xaccEntry s 2 (xaccOperand t (sOp s 0 a)) 0 2)) :=
  congrArg Host.Outcome.next (lift_putX_of s 2 (fun w => xaccOperand t (w.rdS 0 a)) (fun _ => 0) 2)

/-- XFMA also notes its cycle: one in the next cycle stalls (R57). -/
theorem exec_xfma (a b : BitVec 6) (t : BitVec 1) :
    exec (.xfma a b t) s = .next (lift (fun w => w.modHere fun c => { c with lastXfma := some w.focus.issueAt })
      (addResult s (xaccEntry s 1 (xaccOperand t (sOp s 0 a)) (xaccOperand t (sOp s 1 b)) 6))) := by
  rw [← lift_putX, lift_lift (Work.put_log ..) (Work.put_base ..)]
  simp only [putX_focus]
  exact congrArg Host.Outcome.next (lift_congr rfl)
end

/-! ## What one operation does as it lands -/

section
variable (c : Ctx) (x y : Word)

theorem xaccLand_mul : c.xaccLand 1 x y =
    c.xaccTake (snanFlag [fp64.value x.toNat, fp64.value y.toNat]) (mulVal (fp64.value x.toNat) (fp64.value y.toNat)) := by
  rw [Ctx.xaccLand, if_neg (by decide)]
  rfl

/-- XADD is a product with 1.0. -/
theorem xaccLand_add : c.xaccLand 2 x y = c.xaccTake (snanFlag [fp64.value x.toNat]) (mulVal (fp64.value x.toNat) (.fin false (2 ^ 52) (-52))) := by
  rw [← fp64_value_one, Ctx.xaccLand, if_neg (by decide)]
  rfl

theorem xaccLand_mul_comm : c.xaccLand 1 y x = c.xaccLand 1 x y := by
  rw [xaccLand_mul, xaccLand_mul, snanFlag_comm, mulVal_comm]

variable {c x y}

/-! ### NaN operands -/

theorem xaccLand_mul_nan (h : (fp64.value x.toNat).isNan = true) :
    c.xaccLand 1 x y = ({ c with xclass := 3 }, if (fp64.value x.toNat).isSnan || (fp64.value y.toNat).isSnan then 0x04 else 0) := by
  rw [xaccLand_mul, mulVal_nan h, snanFlag_pair]
  rfl

theorem xaccLand_add_nan (h : (fp64.value x.toNat).isNan = true) :
    c.xaccLand 2 x y = ({ c with xclass := 3 }, if (fp64.value x.toNat).isSnan then 0x04 else 0) := by
  rw [xaccLand_add, mulVal_nan h, snanFlag_single]
  rfl

/-! ### Infinite operands -/

/-- An infinite product meets the class. -/
def Ctx.xaccMeet (c : Ctx) (neg : Bool) : Ctx × Flags :=
  if c.xclass = 3 then (c, 0) else if c.xclass = (if neg then 1 else 2) then ({ c with xclass := 3 }, 0x04) else ({ c with xclass := if neg then 2 else 1 }, 0)

theorem xaccTake_none : c.xaccTake 0 none = ({ c with xclass := 3 }, 0x04) := rfl

theorem xaccTake_inf (neg : Bool) : c.xaccTake 0 (some (.inf neg)) = c.xaccMeet neg := rfl

section
variable {neg : Bool} (hx : fp64.value x.toNat = .inf neg)
include hx

theorem xaccLand_mul_inf_inf {k : Bool} (hy : fp64.value y.toNat = .inf k) : c.xaccLand 1 x y = c.xaccMeet (neg != k) := by
  rw [xaccLand_mul, hx, hy, mulVal_inf_inf]
  exact xaccTake_inf _

theorem xaccLand_mul_inf_fin {k : Bool} {q : Nat} {j : Int} (hy : fp64.value y.toNat = .fin k q j) :
    c.xaccLand 1 x y = if q = 0 then ({ c with xclass := 3 }, 0x04) else c.xaccMeet (neg != k) := by
  have hn : snanFlag [.inf neg, .fin k q j] = 0 := rfl
  rw [xaccLand_mul, hx, hy, mulVal_inf_fin, hn]
  split
  · exact xaccTake_none
  · exact xaccTake_inf _

theorem xaccLand_add_inf : c.xaccLand 2 x y = c.xaccMeet neg := by
  rw [xaccLand_add, hx, mulVal_inf_fin, if_neg (by decide), Bool.bne_false]
  exact xaccTake_inf _
end

/-! ### Finite operands -/

/-- A product that is a multiple of 2^-2148 is added with its sign, in those units. -/
theorem xaccTerm_fin (neg : Bool) (m : Nat) {e : Int} (h : 0 ≤ e + 2148) :
    xaccTerm (.fin neg m e) = (if neg then -1 else 1) * ((m * 2 ^ (e + 2148).toNat : Nat) : Int) := by
  have ht : xaccTerm (.fin neg m e) = (if neg then -(m : Int) else m) * 2 ^ (e + 2148).toNat := if_pos h
  rw [ht]
  push_cast
  split <;> ring

/-- A finite term is added where the class is finite, and has no effect elsewhere. -/
theorem xaccTake_fin (neg : Bool) (m : Nat) (e : Int) (h : c.xclass = 0) : c.xaccTake 0 (some (.fin neg m e)) =
    ({ c with xacc := BitVec.ofInt 4352 (c.xacc.toInt + xaccTerm (.fin neg m e)) }, xaccOver (c.xacc.toInt + xaccTerm (.fin neg m e))) := by
  have ht : c.xaccTake 0 (some (.fin neg m e)) =
      ({ c with xacc := BitVec.ofInt 4352 (c.xval + xaccTerm (.fin neg m e)) }, 0 ||| xaccOver (c.xval + xaccTerm (.fin neg m e))) := if_neg (not_not_intro h)
  rw [ht]
  exact congrArg (Prod.mk _) BitVec.zero_or

theorem xaccTake_fin_class (neg : Bool) (m : Nat) (e : Int) (h : c.xclass ≠ 0) : c.xaccTake 0 (some (.fin neg m e)) = (c, 0) := if_pos h

theorem fp64_value_exp {v m : Nat} {neg : Bool} {e : Int} (h : fp64.value v = .fin neg m e) : -1074 ≤ e :=
  (by decide +kernel : (-1074 : Int) ≤ fp64.qmin).trans (Fmt.qmin_le_of_value h)

section
variable {na nb : Bool} {p q : Nat} {i j : Int} (hx : fp64.value x.toNat = .fin na p i)
include hx

theorem xaccLand_add_take : c.xaccLand 2 x y = c.xaccTake 0 (some (.fin na (p * 2 ^ 52) (i + -52))) := by
  rw [xaccLand_add, hx, mulVal_fin_fin, Bool.bne_false]
  rfl

/-- 1.0's own fraction bits leave the weight of the sum's last bit as it is. -/
theorem xaccTerm_add : xaccTerm (.fin na (p * 2 ^ 52) (i + -52)) = (if na then -1 else 1) * ((p * 2 ^ (i + 2148).toNat : Nat) : Int) := by
  have hi := fp64_value_exp hx
  rw [xaccTerm_fin _ _ (by omega), Nat.mul_assoc, ← Nat.pow_add, show 52 + (i + -52 + 2148).toNat = (i + 2148).toNat by omega]

variable (hy : fp64.value y.toNat = .fin nb q j)
include hy

theorem xaccLand_mul_take : c.xaccLand 1 x y = c.xaccTake 0 (some (.fin (na != nb) (p * q) (i + j))) := by
  rw [xaccLand_mul, hx, hy, mulVal_fin_fin]
  rfl

theorem xaccTerm_mul : xaccTerm (.fin (na != nb) (p * q) (i + j)) = (if na = nb then 1 else -1) * ((p * q * 2 ^ (i + j + 2148).toNat : Nat) : Int) := by
  have hi := fp64_value_exp hx
  have hj := fp64_value_exp hy
  have hs : (if (na != nb) then -1 else 1 : Int) = if na = nb then 1 else -1 := by cases na <;> cases nb <;> rfl
  rw [xaccTerm_fin _ _ (by omega), hs]
end
end

/-! ## Operations that are due -/

/-- An operation acts on X and its class alone, and by them alone. -/
theorem xaccLand_of_same {c d : Ctx} (hx : d.xacc = c.xacc) (hk : d.xclass = c.xclass) (op a b : Word) : d.xaccLand op a b =
    ({ d with xacc := (c.xaccLand op a b).1.xacc, xclass := (c.xaccLand op a b).1.xclass }, (c.xaccLand op a b).2) := by
  by_cases h : op = 0
  · subst h
    rw [xaccLand_zero, xaccLand_zero]
  · obtain ⟨m, sn, -, hm⟩ := xaccLand_take h a b
    rw [hm, hm]
    obtain ⟨⟩ := c
    obtain ⟨⟩ := d
    cases hx
    cases hk
    match m with
    | none => rfl
    | some (.nan _) => rfl
    | some (.inf neg) =>
      unfold Ctx.xaccTake
      dsimp only
      split_ifs <;> rfl
    | some (.fin ..) =>
      unfold Ctx.xaccTake
      dsimp only
      split_ifs <;> rfl

/-- A context once its operations have landed: nothing in flight, the flags that they raised, and what they made of X and its class. -/
def Ctx.withX (c z : Ctx) (fl : Flags) : Ctx := { c with inflight := [], kstat := c.kstat ||| (fl.setWidth 64 <<< 8), xacc := z.xacc, xclass := z.xclass }

/-- The operation that a record in flight stands for. -/
def Ctx.xaccApply (c : Ctx) (f : InFlight) : Ctx × Flags := c.xaccLand f.xtra (field f.value 0 64) (field f.value 64 64)

section
variable {c : Ctx} {f g : InFlight} (hf : f.kind = .xaccOp) (zf : f.flags = 0)

include hf zf in
theorem land_xaccOp_eq_withX : Ctx.land { c with inflight := [] } f = c.withX (c.xaccApply f).1 (c.xaccApply f).2 := by
  have hk : c.kstat ||| ((0 : Flags).setWidth 64 <<< 8) = c.kstat := BitVec.or_zero
  rw [land_xaccOp c hf]
  dsimp only
  rw [Ctx.flagged, zf, hk]
  rfl

theorem withX_withX (z y : Ctx) (fl gl : Flags) : (c.withX z fl).withX y gl = c.withX y (fl ||| gl) := by
  have hk : c.kstat ||| (fl.setWidth 64 <<< 8) ||| (gl.setWidth 64 <<< 8) = c.kstat ||| ((fl ||| gl).setWidth 64 <<< 8) := by
    rw [BitVec.or_assoc, ← BitVec.shiftLeft_or_distrib, BitVec.setWidth_or]
  unfold Ctx.withX
  dsimp only
  rw [hk]

/-- What an operation does after others is decided by what they left of X and its class. -/
theorem xaccApply_withX (z : Ctx) (fl : Flags) : (c.withX z fl).xaccApply g =
    ({ c.withX z fl with xacc := (z.xaccApply g).1.xacc, xclass := (z.xaccApply g).1.xclass }, (z.xaccApply g).2) :=
  xaccLand_of_same (c := z) (d := c.withX z fl) rfl rfl ..

variable (hg : g.kind = .xaccOp) (zg : g.flags = 0)
include hf zf hg zg

/-- The later one acts on what the earlier one left. -/
theorem land_land_xaccOp : Ctx.land (Ctx.land { c with inflight := [] } f) g =
    c.withX ((c.xaccApply f).1.xaccApply g).1 ((c.xaccApply f).2 ||| ((c.xaccApply f).1.xaccApply g).2) := by
  have hl := land_xaccOp_eq_withX (c := c.withX (c.xaccApply f).1 (c.xaccApply f).2) hg zg
  rw [land_xaccOp_eq_withX hf zf]
  refine hl.trans ?_
  rw [xaccApply_withX, ← withX_withX]
  rfl
end

/-- Does a result land before another: in an earlier cycle, or in one cycle from an earlier bundle, or of one bundle from a lower slot (R60, R480)? -/
def landsFirst (f g : InFlight) : Prop := f.land < g.land ∨ f.land = g.land ∧ (f.seqNo < g.seqNo ∨ f.seqNo = g.seqNo ∧ f.slot < g.slot)

theorem sortBy_of_landsFirst {f g : InFlight} {l : List InFlight} (hl : l = [f, g] ∨ l = [g, f]) (hf : f.kind = .xaccOp) (hg : g.kind = .xaccOp)
    (h : landsFirst f g) : sortBy landsBefore l = [f, g] := by
  unfold landsFirst at h
  have before : landsBefore f g = true := by
    simp only [landsBefore, hf, hg, reduceCtorEq, if_false, lt_irrefl, decide_false, beq_self_eq_true, Bool.false_or, Bool.true_and, Bool.or_eq_true,
      Bool.and_eq_true, decide_eq_true_eq, beq_iff_eq]
    omega
  have after : landsBefore g f = false := by
    simp only [landsBefore, hf, hg, reduceCtorEq, if_false, lt_irrefl, decide_false, beq_self_eq_true, Bool.false_or, Bool.true_and, Bool.or_eq_false_iff,
      Bool.and_eq_false_iff, decide_eq_false_iff_not, beq_eq_false_iff_ne]
    omega
  rcases hl with rfl | rfl
  · rw [sortBy_pair, if_pos before]
  · rw [sortBy_pair, if_neg (by rw [after]; exact Bool.false_ne_true)]

namespace Work

section
variable {w : Work} {f g : InFlight} (hf : f.kind = .xaccOp) (zf : f.flags = 0) (df : f.land ≤ w.cycle)
include hf zf df

theorem landed_xaccOp (hi : w.me.inflight = [f]) : w.landed = w.me.withX (w.me.xaccApply f).1 (w.me.xaccApply f).2 :=
  (landed_of_due hi (by rw [hf]; decide) df).trans (land_xaccOp_eq_withX hf zf)

theorem landed_xaccOp_pair (hi : w.me.inflight = [f, g] ∨ w.me.inflight = [g, f]) (hg : g.kind = .xaccOp) (zg : g.flags = 0) (dg : g.land ≤ w.cycle)
    (h : landsFirst f g) :
    w.landed = w.me.withX ((w.me.xaccApply f).1.xaccApply g).1 ((w.me.xaccApply f).2 ||| ((w.me.xaccApply f).1.xaccApply g).2) := by
  have mem {x : InFlight} (hx : x ∈ w.me.inflight) : x = f ∨ x = g := by
    rcases hi with e | e <;> rw [e] at hx
    · exact List.mem_pair.mp hx
    · exact (List.mem_pair.mp hx).symm
  have due {x : InFlight} (hx : x ∈ w.me.inflight) : w.isDue x = true := by
    rcases mem hx with rfl | rfl
    exacts [decide_eq_true df, decide_eq_true dg]
  have all : w.me.inflight.filter w.isDue = w.me.inflight := List.filter_eq_self.mpr fun _ => due
  have none : (w.me.inflight.filter fun x => !w.isDue x) = [] := List.filter_eq_nil_iff.mpr fun _ hx => by rw [due hx]; decide
  have kinds : ∀ x ∈ w.me.inflight.filter w.isDue, x.kind ≠ .sysReg := fun x hx => by
    rcases mem (List.mem_filter.mp hx).1 with rfl | rfl
    · rw [hf]; decide
    · rw [hg]; decide
  rw [landed_eq kinds, none, all, sortBy_of_landsFirst hi hf hg h]
  exact land_land_xaccOp hf zf hg zg
end

/-- A rill that runs, or waits, or is none, does not end. -/
theorem not_endsWith {w : Work} (h : w.me.st ≠ .blocked ∨ w.me.block ≠ none ∨ w.me.inst = 0) : ¬ w.endsWith w.me := by
  rintro ⟨hst, hb, -, hi⟩
  rcases h with h | h | h
  exacts [h hst, h hb, hi h]
end Work

/-! ## Reads -/

theorem field_setWidth_low (v : Word) : field (v.setWidth 1024) 0 64 = v :=
  BitVec.eq_of_getLsbD_eq fun j hj => by simp [field, hj, Nat.lt_trans hj]

/-- What XRND puts in flight. -/
def xrndRes (s : State) (d : BitVec 6) (r : BitVec 3) (t : BitVec 1) : Res :=
  let x := xaccRound s.work.me (if t = 1#1 then fp32 else fp64) (drawRm (s.work.rmCode r) s.work.me.gen).1
  { kind := .sReg, reg := d.toNat, value := (BitVec.ofNat 64 x.bits).setWidth 1024, lat := 12, flags := x.flags }

section
variable (s : State) (d : BitVec 6) (r : BitVec 3) (t : BitVec 1)

theorem exec_xrnd : exec (.xrnd d r t) s = .next (left s ((s.work.setGen (drawRm (s.work.rmCode r) s.work.me.gen).2).put (xrndRes s d r t))) := rfl

theorem xrndRes_kept {d : BitVec 6} (h : d ≠ 0) : (xrndRes s d r t).kept = .sReg := by
  have hn : d.toNat ≠ 0 := fun e => h (BitVec.eq_of_toNat_eq e)
  exact if_neg fun e => hn e.2

/-- Where the mode is not the stochastic one, XRND takes no draw. -/
theorem drawRm_of_ne {code : BitVec 3} (h : code ≠ 4) (st : BitVec 32) : drawRm code st = (rmOf code 0, st) := if_neg h

theorem exec_xrnd_produces {d : BitVec 6} (h : d ≠ 0) : produces s (.xrnd d r t) .sReg d.toNat 12 fun v fl => s.work.rmCode r ≠ 4 →
    let z := xaccRound s.work.me (if t = 1 then fp32 else fp64) (rmOf (s.work.rmCode r) 0)
    field v 0 64 = BitVec.ofNat 64 z.bits ∧ fl = z.flags := by
  have hk := xrndRes_kept s r t h
  refine hk ▸ produces_put (exec_xrnd s d r t) (by rw [hk]; decide) fun hr => ?_
  have hd := drawRm_of_ne hr s.work.me.gen
  unfold xrndRes
  rw [hd]
  exact ⟨field_setWidth_low _, rfl⟩

theorem exec_xsgn (n m : BitVec 4) : exec (.xsgn n m) s = .next (pResult (pResult s n (xaccSign s.work.me).1 2) m (xaccSign s.work.me).2 2) := by
  rw [← lift_putP s n _ 2 0 (by decide), ← lift_putP _ m _ 2 0 (by decide), lift_lift (Work.put_log ..) (Work.put_base ..)]
  exact congrArg Host.Outcome.next (lift_congr rfl)
end

theorem xaccSign_fin {c : Ctx} (h : c.xclass = 0) : xaccSign c = (decide (c.xacc.toInt < 0), decide (c.xacc.toInt = 0)) := if_pos h

theorem xaccSign_class {c : Ctx} {k : BitVec 2} (h : c.xclass = k) (h0 : k ≠ 0) : xaccSign c = (k != 1, k == 3) := by
  subst h
  exact if_neg h0

/-- Settles O42: a product of values by `mulVal`, what it does to X and its class by `Ctx.xaccTake`; operations due by `Work.landed`, in the order that
`sortBy_of_landsFirst` gives; the reads by what they put in flight. -/
theorem exactAccumulator : Obligations.ExactAccumulator := by
  unfold Obligations.ExactAccumulator
  intro s a b d n m c x y
  refine ⟨exec_xclr s, exec_xfma s a b 0, exec_xfma s a b 1, exec_xadd s a 0, exec_xadd s a 1, ?_, ?_, ?_, ?_, ?_, ?_, ?_, ?_, ?_, ?_⟩
  · exact ⟨by decide +kernel, by decide +kernel⟩
  · rw [xaccLand_zero]
    exact ⟨rfl, rfl⟩
  · intro na nb p q i j hx hy h sum flag u v
    have hf (z : Int) : flag z = xaccOver z := rfl
    have hu : u = c.xacc.toInt + xaccTerm (.fin (na != nb) (p * q) (i + j)) := by rw [xaccTerm_mul hx hy]
    have hv : v = c.xacc.toInt + xaccTerm (.fin na (p * 2 ^ 52) (i + -52)) := by rw [xaccTerm_add hx]
    rw [hf, hf, hu, hv]
    exact ⟨(xaccLand_mul_take hx hy).trans (xaccTake_fin _ _ _ h), (xaccLand_add_take hx).trans (xaccTake_fin _ _ _ h)⟩
  · exact fun h => ⟨xaccLand_mul_nan h, xaccLand_mul_comm .., xaccLand_add_nan h⟩
  · exact fun neg hx => ⟨xaccLand_add_inf hx, fun k hy => xaccLand_mul_inf_inf hx hy, fun k q j hy => ⟨xaccLand_mul_comm .., xaccLand_mul_inf_fin hx hy⟩⟩
  · intro na nb p q i j hx hy h
    rw [xaccLand_mul_take hx hy, xaccLand_add_take hx]
    exact ⟨xaccTake_fin_class _ _ _ h, xaccTake_fin_class _ _ _ h⟩
  · intro f g k hr hs hf hg zf zg df one two done
    obtain ⟨t, ht, hm, -, hc⟩ := exec_resultLand_of_stays hr (Work.not_endsWith hs)
    exact ⟨fun hi => ⟨t, ht, hm, hc.trans (Work.landed_xaccOp hf zf df hi)⟩,
      fun hi dg ho => ⟨t, ht, hm, hc.trans (Work.landed_xaccOp_pair hf zf df hi hg zg dg ho)⟩⟩
  · exact fun h r t => exec_xrnd_produces s r t h
  · exact fun r t => exec_put_frame (exec_xrnd s 0 r t)
  · refine ⟨_, _, exec_xsgn s n m, fun h => ?_, fun h => ?_, fun h => ?_, fun h => ?_⟩
    · simp only [xaccSign_fin h, and_self]
    · rw [xaccSign_class h (by decide)]
      decide
    · rw [xaccSign_class h (by decide)]
      decide
    · rw [xaccSign_class h (by decide)]
      decide

end Sys2Proof.Machine
end

section
/-! PROOFS. Lists of pieces of one length, and the lines made of them (00_scope R2, 06_matrix R141). -/
namespace Sys2Proof.Machine

/-- The member at a place of a piece. -/
theorem getElem?_flatten_of_pieces {α : Type} {c i j : Nat} {L : List (List α)} {l : List α} (hL : ∀ l ∈ L, l.length = c) (h : L[i]? = some l) (hj : j < c) :
    L.flatten[c * i + j]? = l[j]? := by
  induction L generalizing i with
  | nil => simp at h
  | cons x L ih =>
    obtain ⟨hx, hL⟩ := List.forall_mem_cons.mp hL
    rw [List.flatten_cons]
    cases i with
    | zero =>
      obtain rfl := Option.some.inj h
      rw [Nat.mul_zero, Nat.zero_add, List.getElem?_append_left (by omega)]
    | succ i =>
      rw [List.getElem?_append_right (by rw [hx, Nat.mul_succ]; omega), hx, show c * (i + 1) + j - c = c * i + j by rw [Nat.mul_succ]; omega]
      exact ih hL h

theorem getElem?_take_drop {α : Type} (xs : List α) {c j : Nat} (k : Nat) (hj : j < c) : ((xs.drop (c * k)).take c)[j]? = xs[c * k + j]? := by
  rw [List.getElem?_take_of_lt hj, List.getElem?_drop]

theorem getElem?_map_range {α : Type} {n k : Nat} (f : Nat → α) (hk : k < n) : ((List.range n).map f)[k]? = some (f k) := by
  rw [List.getElem?_map, List.getElem?_range hk, Option.map_some]

theorem leNat_eq_ofDigits (bs : List Byte) : leNat bs = Nat.ofDigits (2 ^ 8) (bs.map BitVec.toNat) := by
  induction bs with
  | nil => rfl
  | cons b bs ih => rw [leNat, ih, List.map_cons, Nat.ofDigits_cons]; rfl

theorem leNat_lt (bs : List Byte) : leNat bs < 256 ^ bs.length := by
  induction bs with
  | nil => exact Nat.one_pos
  | cons b bs ih =>
    have hb : b.toNat < 256 := b.isLt
    rw [leNat, List.length_cons, pow_succ']
    omega

/-- Numbers of `m` bytes each, one after the other, are digits. -/
theorem leNat_flatten_leBytes (m : Nat) (qs : List Nat) :
    leNat ((qs.map (leBytes m)).flatten) = Nat.ofDigits (2 ^ (8 * m)) (qs.map (· % 2 ^ (8 * m))) := by
  have hp : 256 ^ m = 2 ^ (8 * m) := (pow_mul 2 8 m).symm
  induction qs with
  | nil => rfl
  | cons q qs ih => rw [List.map_cons, List.flatten_cons, leNat_append, ih, leNat_leBytes, leBytes_length, List.map_cons, Nat.ofDigits_cons, hp]

theorem length_flatten_leBytes (m : Nat) (qs : List Nat) : ((qs.map (leBytes m)).flatten).length = m * qs.length := by
  simp [List.length_flatten, Function.comp_def, mul_comm]

/-- Number `j` of a line that holds numbers of `m` bytes each. -/
theorem field_lineOf_leBytes {m j q : Nat} {qs : List Nat} (h : qs[j]? = some q) (hn : 8 * m * j + 8 * m ≤ 1024) :
    field (lineOf ((qs.map (leBytes m)).flatten)) (8 * m * j) (8 * m) = BitVec.ofNat (8 * m) q := by
  have hd : ∀ d ∈ qs.map (· % 2 ^ (8 * m)), d < 2 ^ (8 * m) := by
    simp only [List.mem_map]
    rintro _ ⟨x, -, rfl⟩
    exact Nat.mod_lt _ (Nat.two_pow_pos _)
  have hj : (qs.map (· % 2 ^ (8 * m)))[j]? = some (q % 2 ^ (8 * m)) := by rw [List.getElem?_map, h]; rfl
  rw [lineOf, leNat_flatten_leBytes, field_ofDigits hd hj hn]
  exact BitVec.eq_of_toNat_eq (by simp)

/-- A byte of a line given by its bytes. -/
theorem field_lineOf {j : Nat} {b : Byte} {bs : List Byte} (h : bs[j]? = some b) (hn : 8 * j + 8 ≤ 1024) : field (lineOf bs) (8 * j) 8 = b := by
  have hd : ∀ d ∈ bs.map BitVec.toNat, d < 2 ^ 8 := by
    simp only [List.mem_map]
    rintro _ ⟨x, -, rfl⟩
    exact x.isLt
  have hj : (bs.map BitVec.toNat)[j]? = some b.toNat := by rw [List.getElem?_map, h]; rfl
  rw [lineOf, leNat_eq_ofDigits, field_ofDigits hd hj hn, BitVec.ofNat_toNat, BitVec.setWidth_eq]

/-- Past its bytes a line is zero. -/
theorem field_lineOf_past {bs : List Byte} {n len : Nat} (h : bs.length ≤ n) (hn : 8 * n + len ≤ 1024) : field (lineOf bs) (8 * n) len = 0 := by
  have hlt : leNat bs < 2 ^ (8 * n) := by
    rw [pow_mul]
    exact (leNat_lt bs).trans_le (Nat.pow_le_pow_right (by decide) h)
  rw [lineOf, field_ofNat _ hn, Nat.div_eq_of_lt hlt]
  rfl

/-- A field is the upper part after the lower one. -/
theorem field_add {n : Nat} (x : BitVec n) (lo a b : Nat) : field x lo (b + a) = field x (lo + a) b ++ field x lo a := by
  refine BitVec.eq_of_getLsbD_eq fun i hi => ?_
  rw [BitVec.getLsbD_append]
  simp only [field, BitVec.getLsbD_extractLsb']
  by_cases h : i < a
  · simp [h, hi]
  · have hb : i - a < b := by omega
    simp [h, hi, hb, show lo + a + (i - a) = lo + i by omega]

end Sys2Proof.Machine
end

section
/-! PROOFS. Rows of the accumulator store (06_matrix R139, R140): their bytes, their values, their poison bits, and what writing some of them leaves. -/
namespace Sys2Proof.Machine
open Sys2Proof.Claim

theorem accKey_row_end (core row : Nat) : accKey core row 0 + 1024 = accKey core row 1024 := by simp only [accKey, Nat.add_zero]

/-! ## Poison bits -/

/-- An array with a row's poison bit set or cleared. -/
def Arr.poisoned (a : Arr) (row : Nat) (on : Bool) : Arr :=
  { a with rowPoison := if on then a.rowPoison ||| (1#1024 <<< row) else a.rowPoison &&& ~~~(1#1024 <<< row) }

theorem Arr.poisoned_getLsbD (a : Arr) {row x : Nat} (on : Bool) (hx : x < 1024) :
    (a.poisoned row on).rowPoison.getLsbD x = if x = row then on else a.rowPoison.getLsbD x := by
  have hbit : (1#1024 <<< row).getLsbD x = decide (x = row) := by
    rw [BitVec.getLsbD_shiftLeft, BitVec.getLsbD_one]
    by_cases h : x = row
    · simp [h]
      omega
    · by_cases hl : x < row
      · simp [hl, h]
      · simp [show x - row ≠ 0 by omega, h]
  unfold poisoned
  cases on
  · simp only [Bool.false_eq_true, if_false, BitVec.getLsbD_and, BitVec.getLsbD_not, hbit, hx]
    by_cases h : x = row <;> simp [h]
  · simp only [if_true, BitVec.getLsbD_or, hbit]
    by_cases h : x = row <;> simp [h]

/-! ## What leaves the focus and all contexts as they are -/

/-- From `w` to `v` no context and nothing of the focus has changed. -/
structure Work.SameContexts (w v : Work) : Prop where
  focus : v.focus = w.focus
  ctx : ∀ n k, v.ctx n k = w.ctx n k

namespace Work.SameContexts
variable {u w v : Work}

theorem refl (w : Work) : SameContexts w w := ⟨rfl, fun _ _ => rfl⟩

theorem trans (h : SameContexts u w) (k : SameContexts w v) : SameContexts u v := ⟨k.focus.trans h.focus, fun n i => (k.ctx n i).trans (h.ctx n i)⟩

theorem write (w : Work) (k : Nat) (bs : List Byte) : SameContexts w (w.write k bs) := ⟨w.write_focus k bs, ctx_of_cores (w.write_cores k bs)⟩

theorem modArr (w : Work) (n : Nat) (f : Arr → Arr) : SameContexts w (w.modArr n f) :=
  ⟨rfl, ctx_modCore w n (f := fun c => { c with arr := f c.arr }) fun _ => rfl⟩

theorem me (h : SameContexts w v) : v.me = w.me := by rw [Work.me, Work.me, h.focus, h.ctx]

end Work.SameContexts

namespace Work
variable (w : Work) (core row : Nat)

theorem here_of_cores {w v : Work} (hc : v.cores = w.cores) (hf : v.focus = w.focus) : v.here = w.here := by rw [here, here, hf, Work.core, Work.core, hc]

theorem here_modArr (f : Arr → Arr) : (w.modArr w.focus.core f).here.arr = f w.here.arr :=
  congrArg Core.arr (here_modHere w fun c => { c with arr := f c.arr })

theorem poisonRow_eq (on : Bool) : w.poisonRow core row on = w.modArr core fun a => a.poisoned row on := rfl

/-! ## Values of a row -/

/-- Value `j` of a row: its four bytes. -/
theorem accRow_getElem? {j : Nat} (hj : j < 256) : (w.accRow core row)[j]? = some (leNat (w.bytes (accKey core row (4 * j)) 4)) := by
  have piece : ((w.bytes (accKey core row 0) 1024).drop (4 * j)).take 4 = w.bytes (accKey core row (4 * j)) 4 := by
    rw [bytes_eq_map_byte, bytes_eq_map_byte]
    refine List.ext_getElem? fun i => ?_
    by_cases hi : i < 4
    · rw [getElem?_take_drop _ _ hi, getElem?_map_range _ hi, getElem?_map_range _ (by omega)]
      exact congrArg (fun k => some (w.byte k)) (Nat.add_assoc ..).symm
    · rw [List.getElem?_eq_none (by simp; omega), List.getElem?_eq_none (by simp; omega)]
  rw [accRow, getElem?_map_range _ hj, piece]

theorem accRow_length : (w.accRow core row).length = 256 := by simp [accRow]

/-- Value `j` of a row, and 0 past the row. -/
def accAt (j : Nat) : Nat := (w.accRow core row).getD j 0

theorem accRow_eq_map_accAt : w.accRow core row = (List.range 256).map (w.accAt core row) := by
  refine List.ext_getElem (by simp [accRow_length]) fun j hj _ => ?_
  rw [List.getElem_map, List.getElem_range, accAt, List.getD_eq_getElem _ _ hj]

theorem accAt_lt (j : Nat) : w.accAt core row j < 2 ^ 32 := by
  by_cases hj : j < 256
  · have h := leNat_lt (w.bytes (accKey core row (4 * j)) 4)
    rw [bytes_length] at h
    rw [accAt, List.getD_eq_getElem?_getD, accRow_getElem? w core row hj]
    exact h
  · rw [accAt, List.getD_eq_default _ _ (by rw [accRow_length]; omega)]
    decide

/-- A piece of what is written reads back. -/
theorem bytes_write_piece {k c i : Nat} {L : List (List Byte)} {l : List Byte} (hL : ∀ l ∈ L, l.length = c) (h : L[i]? = some l) :
    (w.write k L.flatten).bytes (k + c * i) c = l := by
  have hlen : l.length = c := hL l (List.mem_of_getElem? h)
  rw [bytes_eq_map_byte]
  refine List.ext_getElem (by simp [hlen]) fun b hb hbl => ?_
  have hb : b < c := by simpa using hb
  have piece := getElem?_flatten_of_pieces hL h hb
  have hin : c * i + b < L.flatten.length := (List.getElem?_eq_some_iff.mp (piece.trans (List.getElem?_eq_getElem hbl))).1
  rw [List.getElem_map, List.getElem_range, byte_write, if_pos (by omega), show k + c * i + b - k = c * i + b by omega, List.getD_eq_getElem?_getD, piece,
    List.getElem?_eq_getElem hbl, Option.getD_some]

/-- A value that is written reads back, to 32 bits; the others are as they were. -/
theorem accRow_putAcc {c j : Nat} {vs : List Nat} (hj : j < 256) : ((w.putAcc core row c vs).accRow core row)[j]? =
    some (if c ≤ j ∧ j < c + vs.length then vs.getD (j - c) 0 % 2 ^ 32 else w.accAt core row j) := by
  rw [accRow_getElem? _ core row hj, putAcc]
  split
  · rename_i h
    have hlt : j - c < vs.length := by omega
    have piece : (vs.map (leBytes 4))[j - c]? = some (leBytes 4 (vs.getD (j - c) 0)) := by
      rw [List.getElem?_map, List.getD_eq_getElem _ _ hlt, List.getElem?_eq_getElem hlt, Option.map_some]
    have key : accKey core row (4 * j) = accKey core row (4 * c) + 4 * (j - c) := by simp only [accKey]; omega
    rw [key, bytes_write_piece w (by simp) piece, leNat_leBytes]
    rfl
  · rw [bytes_write_disjoint w (by rw [length_flatten_leBytes]; simp only [accKey]; omega), accAt, List.getD_eq_getElem?_getD, accRow_getElem? w core row hj, Option.getD_some]

/-! ## Rows written whole -/

/-- A row with new bytes and a new poison bit. -/
def setRow (x : Nat) (bs : List Byte) (bad : Bool) : Work := (w.write (accKey core x 0) bs).poisonRow core x bad

theorem setRow_same (x : Nat) (bs : List Byte) (bad : Bool) : SameContexts w (w.setRow core x bs bad) :=
  (SameContexts.write w (accKey core x 0) bs).trans (.modArr _ core fun a => a.poisoned x bad)

theorem setRow_log (x : Nat) (bs : List Byte) (bad : Bool) : (w.setRow core x bs bad).log = (w.write (accKey core x 0) bs).log := rfl

theorem setRow_here (x : Nat) (bs : List Byte) (bad : Bool) : (w.setRow w.focus.core x bs bad).here.arr = w.here.arr.poisoned x bad := by
  have h := here_modArr (w.write (accKey w.focus.core x 0) bs) fun a => a.poisoned x bad
  rw [write_focus, here_of_cores (w.write_cores ..) (w.write_focus ..)] at h
  exact h

/-- `m` rows from `row` on, row 0 after the last. -/
def setRows (bs : Nat → List Byte) (bad : Nat → Bool) (m : Nat) : Work :=
  (List.range m).foldl (fun w k => w.setRow core ((row + k) % 1024) (bs k) (bad k)) w

variable (bs : Nat → List Byte) (bad : Nat → Bool) (m : Nat)

theorem setRows_succ : w.setRows core row bs bad (m + 1) = (w.setRows core row bs bad m).setRow core ((row + m) % 1024) (bs m) (bad m) := by
  rw [setRows, List.range_succ, List.foldl_append]
  rfl

theorem setRows_same : SameContexts w (w.setRows core row bs bad m) := by
  induction m with
  | zero => exact .refl w
  | succ m ih =>
    rw [setRows_succ]
    exact ih.trans (setRow_same ..)

/-- Rows that each step takes from the focus as it finds it. -/
theorem foldl_setRow_focus : (List.range m).foldl (fun w k => w.setRow w.focus.core ((row + k) % 1024) (bs k) (bad k)) w =
    w.setRows w.focus.core row bs bad m := by
  induction m with
  | zero => rw [setRows, List.range_zero, List.foldl_nil, List.foldl_nil]
  | succ m ih =>
    have hf : (w.setRows w.focus.core row bs bad m).focus.core = w.focus.core := congrArg Focus.core (setRows_same ..).focus
    rw [setRows_succ, List.range_succ, List.foldl_append, ih, List.foldl_cons, List.foldl_nil, hf]

/-- Rows whose poison is cleared: their bits, and nothing else of the array. -/
theorem setRows_cleared : (w.setRows w.focus.core row bs (fun _ => false) m).here.arr.nanInf = w.here.arr.nanInf ∧
    (w.setRows w.focus.core row bs (fun _ => false) m).here.arr.sat = w.here.arr.sat ∧
    ∀ x, x < 1024 → (w.setRows w.focus.core row bs (fun _ => false) m).here.arr.rowPoison.getLsbD x =
      (w.here.arr.rowPoison.getLsbD x && !decide (∃ j, j < m ∧ x = (row + j) % 1024)) := by
  induction m with
  | zero => exact ⟨rfl, rfl, fun x _ => by simp [setRows]⟩
  | succ m ih =>
    obtain ⟨hn, hs, hx⟩ := ih
    have hf := (setRows_same w w.focus.core row bs (fun _ => false) m).focus
    have hh := setRow_here (w.setRows w.focus.core row bs (fun _ => false) m) ((row + m) % 1024) (bs m) false
    rw [hf, ← setRows_succ w w.focus.core row bs (fun _ => false) m] at hh
    rw [hh]
    refine ⟨hn, hs, fun x h => ?_⟩
    rw [Arr.poisoned_getLsbD _ _ h, hx x h]
    simp only [Nat.lt_succ_iff_lt_or_eq, or_and_right, exists_or, exists_eq_left]
    by_cases he : x = (row + m) % 1024
    · simp [he]
    · simp [he]

section
variable {mem : Memory} (hw : Memory.wf mem = true) {bs} (hl : ∀ k, k < m → (bs k).length = 1024)
include hw hl

/-- Memory apart from the rows that are written. -/
theorem get_setRows_beside {a : Nat} (h : ∀ j, j < m → ¬ (accKey core ((row + j) % 1024) 0 ≤ a ∧ a < accKey core ((row + j) % 1024) 1024)) :
    (applyLog mem (w.setRows core row bs bad m).log).get a = (applyLog mem w.log).get a := by
  induction m with
  | zero => rfl
  | succ m ih =>
    have hm := h m m.lt_succ_self
    rw [setRows_succ, setRow_log, get_applyLog_write _ hw, hl m m.lt_succ_self, if_neg (by rwa [accKey_row_end])]
    exact ih (fun k hk => hl k (by omega)) fun j hj => h j (by omega)

/-- A byte of a row that is written, where no row is written twice. -/
theorem get_setRows_row (hm : m ≤ 1024) {j x : Nat} (hj : j < m) (hx : x < 1024) :
    (applyLog mem (w.setRows core row bs bad m).log).get (accKey core ((row + j) % 1024) x) = (bs j).getD x 0 := by
  induction m with
  | zero => omega
  | succ m ih =>
    rw [setRows_succ, setRow_log, get_applyLog_write _ hw, hl m m.lt_succ_self]
    by_cases he : j = m
    · subst he
      rw [if_pos (by simp only [accKey]; omega), show accKey core ((row + j) % 1024) x - accKey core ((row + j) % 1024) 0 = x by simp only [accKey]; omega]
      rfl
    · rw [if_neg (by simp only [accKey]; omega)]
      exact ih (fun k hk => hl k (by omega)) (by omega) (by omega)

end
end Work

end Sys2Proof.Machine
end

section
/-! PROOFS. MZERO and MACC (06_matrix R136, R140): what each leaves of rows, poison bits and memory. -/
namespace Sys2Proof.Machine
open Sys2Proof.Claim

/-! ## MZERO -/

theorem exec_mzero (s : State) (i : BitVec 1) (r : BitVec 10) (n : BitVec 6) : exec (.mzero i r n) s =
    .next (left s (s.work.setRows s.focus.core (s.work.rowOperand i r) (fun _ => List.replicate 1024 0#8) (fun _ => false) (n.toNat + 1))) :=
  congrArg (fun w => Host.Outcome.next (left s w))
    (s.work.foldl_setRow_focus (s.work.rowOperand i r) (fun _ => List.replicate 1024 0#8) (fun _ => false) (n.toNat + 1))

/-- Rows of zeros: every byte of theirs is 0, the rest of memory as it was. -/
theorem Work.get_setRows_zero (w : Work) (core row m : Nat) {mem : Memory} (hw : Memory.wf mem = true) (hm : m ≤ 1024) (bad : Nat → Bool) (a : Nat) :
    (applyLog mem (w.setRows core row (fun _ => List.replicate 1024 0#8) bad m).log).get a =
      if ∃ j, j < m ∧ accKey core ((row + j) % 1024) 0 ≤ a ∧ a < accKey core ((row + j) % 1024) 1024 then 0 else (applyLog mem w.log).get a := by
  have hl : ∀ k, k < m → (List.replicate 1024 0#8).length = 1024 := fun _ _ => List.length_replicate
  split
  · rename_i h
    obtain ⟨j, hj, lo, hi⟩ := h
    obtain ⟨x, rfl⟩ := Nat.exists_eq_add_of_le lo
    rw [← accKey_row_end] at hi
    have hx : x < 1024 := by omega
    have hr := w.get_setRows_row core row bad m hw (bs := fun _ => List.replicate 1024 0#8) hl hm hj hx
    rw [List.getD_replicate _ hx] at hr
    exact hr
  · rename_i h
    exact w.get_setRows_beside core row bad m hw (bs := fun _ => List.replicate 1024 0#8) hl fun j hj hk => h ⟨j, hj, hk⟩

/-! ## MACC -/

/-- Column `j` of a foot. -/
def Foot.column (f : Foot) (j : Nat) : Nat := (field f.result (32 * j) 32).toNat

namespace Work
variable (w : Work) (core : Nat) (f : Foot) (t : FootTag)

/-- What a MACC writes from its first column on. -/
def maccValues : List Nat :=
  let foot := (List.range (16 * (t.c1 + 1 - t.c0))).map fun j => f.column (16 * t.c0 + j)
  if t.add then (((w.accRow core t.row).drop (16 * t.c0)).zip foot).map fun (x, y) => (fp32.add .even x y).bits else foot

theorem macc_eq : w.macc core f t =
    if f.poison then (w.putAcc core t.row (16 * t.c0) (w.maccValues core f t)).poisonRow core t.row true
    else if !t.add && t.c0 == 0 && t.c1 == 15 then (w.putAcc core t.row (16 * t.c0) (w.maccValues core f t)).poisonRow core t.row false
    else w.putAcc core t.row (16 * t.c0) (w.maccValues core f t) := rfl

/-- A MACC's one write. -/
theorem macc_log : (w.macc core f t).log = (w.putAcc core t.row (16 * t.c0) (w.maccValues core f t)).log := by
  rw [macc_eq]
  split
  · rfl
  · split <;> rfl

theorem LogFits.macc {w : Work} (h : w.LogFits) (core : Nat) (f : Foot) (t : FootTag) : (w.macc core f t).LogFits := by
  rw [LogFits, macc_log]
  exact h.write _ _

theorem macc_base : (w.macc core f t).base = w.base := by
  rw [macc_eq]
  split
  · exact write_base ..
  · split <;> exact write_base ..

theorem macc_same : SameContexts w (w.macc core f t) := ⟨macc_focus .., fun n k => (macc_feet w core f t n).2 k⟩

section
variable (h : t.c0 ≤ t.c1) (h15 : t.c1 ≤ 15)
include h h15

theorem maccValues_length : (w.maccValues core f t).length = 16 * (t.c1 + 1 - t.c0) := by
  rw [maccValues]
  split
  · simp only [List.length_map, List.length_zip, List.length_drop, accRow_length, List.length_range]
    omega
  · simp

theorem maccValues_getD {j : Nat} (hl : 16 * t.c0 ≤ j) (hj : j < 16 * t.c1 + 16) : (w.maccValues core f t).getD (j - 16 * t.c0) 0 =
    if t.add then (fp32.add .even (w.accAt core t.row j) (f.column j)).bits else f.column j := by
  have hi : j - 16 * t.c0 < 16 * (t.c1 + 1 - t.c0) := by omega
  have he : 16 * t.c0 + (j - 16 * t.c0) = j := by omega
  have old : (w.accRow core t.row)[j]? = some (w.accAt core t.row j) := by
    rw [accRow_eq_map_accAt, getElem?_map_range _ (by omega)]
  have new : ((List.range (16 * (t.c1 + 1 - t.c0))).map fun j => f.column (16 * t.c0 + j))[j - 16 * t.c0]? = some (f.column j) := by
    rw [getElem?_map_range _ hi, he]
  rw [← he, ← List.getElem?_drop, he] at old
  have pair := List.getElem?_zip_eq_some (z := (w.accAt core t.row j, f.column j)).mpr ⟨old, new⟩
  rw [List.getD_eq_getElem?_getD, maccValues]
  cases t.add
  · simp only [Bool.false_eq_true, if_false, new, Option.getD_some]
  · simp only [if_true, List.getElem?_map, pair, Option.map_some, Option.getD_some]

/-- The columns of the row that a MACC writes, and those that it leaves. -/
theorem macc_accRow {j : Nat} (hj : j < 256) : ((w.macc core f t).accRow core t.row)[j]? = some (
    if 16 * t.c0 ≤ j ∧ j < 16 * t.c1 + 16 then
      if t.add then (fp32.add .even (w.accAt core t.row j) (f.column j)).bits % 2 ^ 32 else f.column j
    else w.accAt core t.row j) := by
  have hb : (w.macc core f t).base = (w.putAcc core t.row (16 * t.c0) (w.maccValues core f t)).base := (macc_base ..).trans (write_base ..).symm
  have same : (w.macc core f t).accRow core t.row = (w.putAcc core t.row (16 * t.c0) (w.maccValues core f t)).accRow core t.row := by
    rw [accRow, accRow, bytes_of_log (macc_log ..) hb]
  have hc : 16 * t.c0 + (w.maccValues core f t).length = 16 * t.c1 + 16 := by rw [maccValues_length _ _ _ _ h h15]; omega
  rw [same, accRow_putAcc _ _ _ hj, hc]
  refine congrArg some ?_
  split
  · rename_i hin
    rw [maccValues_getD _ _ _ _ h h15 hin.1 hin.2]
    have hlt : f.column j < 2 ^ 32 := (field f.result (32 * j) 32).isLt
    cases t.add
    · exact Nat.mod_eq_of_lt hlt
    · rfl
  · rfl

/-- Memory apart from the row. -/
theorem get_macc_beside {mem : Memory} (hw : Memory.wf mem = true) {a : Nat} (ha : a < accKey core t.row 0 ∨ accKey core t.row 1024 ≤ a) :
    (applyLog mem (w.macc core f t).log).get a = (applyLog mem w.log).get a := by
  rw [macc_log, putAcc, get_applyLog_write _ hw, if_neg]
  rw [length_flatten_leBytes, maccValues_length _ _ _ _ h h15]
  simp only [accKey] at ha ⊢
  omega

end

/-- A poisoned foot poisons its row; one that sets all columns of it clears the poison. -/
theorem macc_rowPoison (hr : t.row < 1024) : (w.macc w.focus.core f t).here.arr.rowPoison.getLsbD t.row =
    (f.poison || (w.here.arr.rowPoison.getLsbD t.row && !(!t.add && t.c0 == 0 && t.c1 == 15))) := by
  have hput : (w.putAcc w.focus.core t.row (16 * t.c0) (w.maccValues w.focus.core f t)).here.arr = w.here.arr :=
    congrArg Core.arr (here_of_cores (write_cores ..) (write_focus ..))
  have poison (on : Bool) :
      ((w.putAcc w.focus.core t.row (16 * t.c0) (w.maccValues w.focus.core f t)).poisonRow w.focus.core t.row on).here.arr.rowPoison.getLsbD t.row = on := by
    have hh := here_modArr (w.putAcc w.focus.core t.row (16 * t.c0) (w.maccValues w.focus.core f t)) fun a => a.poisoned t.row on
    rw [putAcc, write_focus] at hh
    rw [poisonRow_eq, putAcc, hh, Arr.poisoned_getLsbD _ _ hr, if_pos rfl]
  rw [macc_eq]
  cases f.poison with
  | true => exact poison true
  | false =>
    rw [if_neg Bool.false_ne_true]
    split
    · rename_i hs
      rw [poison, hs]
      simp
    · rename_i hs
      rw [hput, Bool.eq_false_iff.mpr hs]
      simp

end Work

section
variable {s : State} {i : BitVec 1} {r : BitVec 10} {c d : BitVec 4}

/-- The direct MACC by whether it adds. -/
def directMacc (add : Bool) (i : BitVec 1) (r : BitVec 10) (c d : BitVec 4) : Instr := if add then .maccAdd i r c d else .maccSet i r c d

theorem exec_directMacc (add : Bool) : exec (directMacc add i r c d) s = .next (left s (s.work.directMacc add i r c d)) := by
  cases add <;> rfl

theorem exec_directMacc_none {add : Bool} (h : ∀ g ∈ s.work.here.arr.feet, g.left ≠ 0) : exec (directMacc add i r c d) s = .next s := by
  have hf : s.work.emerging s.work.focus.core = none := List.find?_eq_none.mpr fun g hg => by simpa using h g hg
  rw [exec_directMacc, Work.directMacc, hf]
  rfl

theorem exec_directMacc_foot {add : Bool} {g : Foot} (h : s.work.here.arr.feet.find? (fun g => g.left == 0) = some g) :
    exec (directMacc add i r c d) s = .next (left s (s.work.macc s.focus.core g ⟨s.work.rowOperand i r, add, c.toNat, d.toNat⟩)) := by
  have hf : s.work.emerging s.work.focus.core = some g := h
  rw [exec_directMacc, Work.directMacc, hf]
  rfl

theorem rowOperand_lt (w : Work) (i : BitVec 1) (r : BitVec 10) : w.rowOperand i r < 1024 := by
  unfold Work.rowOperand
  split
  · exact (field _ 0 10).isLt
  · exact r.isLt

theorem left_accRow {w : Work} (h : s.Inv) (hb : w.base = s.mem) (hf : w.LogFits) (core row : Nat) :
    (left s w).work.accRow core row = w.accRow core row := by
  rw [Work.accRow, Work.accRow, left_bytes h hb hf]

end

end Sys2Proof.Machine
end

section
/-! PROOFS. The four formats of a drained row (06_matrix R116, R141, R144): what its lines hold and what its flags say. -/
namespace Sys2Proof.Machine
open Sys2Proof.Claim

/-! ## Lines of numbers of one length -/

/-- Number `j` of line `k`, where each line holds `c` numbers of `m` bytes. -/
theorem field_line {c m j k q : Nat} {xs : List Nat} (hc : 8 * m * c ≤ 1024) (hj : j < c) (h : xs[c * k + j]? = some q) :
    field (lineOf (((xs.drop (c * k) |>.take c).map (leBytes m)).flatten)) (8 * m * j) (8 * m) = BitVec.ofNat (8 * m) q := by
  have hm : 8 * m * j + 8 * m ≤ 8 * m * c := by
    rw [← Nat.mul_succ]
    exact Nat.mul_le_mul_left _ hj
  exact field_lineOf_leBytes ((getElem?_take_drop xs k hj).trans h) (hm.trans hc)

section
variable (v : Nat → Nat)

/-- A row of 256 values. -/
abbrev rowOf : List Nat := (List.range 256).map v

theorem rowOf_getElem? {j : Nat} (hj : j < 256) : (rowOf v)[j]? = some (v j) := getElem?_map_range v hj

theorem any_rowOf (p : Nat → Bool) : (rowOf v).any p = true ↔ ∃ j, j < 256 ∧ p (v j) = true := by simp

theorem notFinite_iff (f : Fmt) (x : Nat) : notFinite f x = true ↔ (f.value x).isNan = true ∨ (f.value x).isInf = true := Bool.or_eq_true_iff

/-! ## FP32 -/

theorem drainRow_f32 : drainRow 0 (rowOf v) =
    ((List.range 8).map fun k => lineOf ((((rowOf v).drop (32 * k) |>.take 32).map (leBytes 4)).flatten), (rowOf v).any (notFinite fp32), false) := rfl

theorem drainRow_cf32 : drainRow 1 (rowOf v) =
    ((List.range 8).map fun k => lineOf ((((canonPairs (rowOf v)).drop (32 * k) |>.take 32).map (leBytes 4)).flatten),
      (rowOf v).any (notFinite fp32), false) := rfl

theorem drainRow_f32_value {k j : Nat} (hk : k < 8) (hj : j < 32) (hv : v (32 * k + j) < 2 ^ 32) :
    ∃ l, (drainRow 0 (rowOf v)).1[k]? = some l ∧ (field l (32 * j) 32).toNat = v (32 * k + j) := by
  rw [drainRow_f32]
  refine ⟨_, getElem?_map_range _ hk, ?_⟩
  rw [field_line (c := 32) (m := 4) (by decide) hj (rowOf_getElem? v (by omega)), BitVec.toNat_ofNat, Nat.mod_eq_of_lt hv]

/-! ## Complex FP32 -/

/-- A pair of values as a complex drain writes it. -/
def canonPair (x y : Nat) : Nat × Nat := if (fp32.value x).isNan || (fp32.value y).isNan then (fp32.nan, fp32.nan) else (x, y)

theorem canonPairs_cons (x y : Nat) (xs : List Nat) : canonPairs (x :: y :: xs) = (canonPair x y).1 :: (canonPair x y).2 :: canonPairs xs := by
  rw [canonPairs, canonPair]
  split <;> rfl

theorem canonPairs_map_range (n : Nat) (v : Nat → Nat) (i : Nat) (hi : i < n) :
    (canonPairs ((List.range (2 * n)).map v))[2 * i]? = some (canonPair (v (2 * i)) (v (2 * i + 1))).1 ∧
    (canonPairs ((List.range (2 * n)).map v))[2 * i + 1]? = some (canonPair (v (2 * i)) (v (2 * i + 1))).2 := by
  induction n generalizing v i with
  | zero => omega
  | succ n ih =>
    have split : (List.range (2 * (n + 1))).map v = v 0 :: v 1 :: (List.range (2 * n)).map fun j => v (j + 2) := by
      rw [Nat.mul_succ, List.range_succ_eq_map, List.range_succ_eq_map]
      simp [Function.comp_def]
    rw [split, canonPairs_cons]
    cases i with
    | zero => exact ⟨rfl, rfl⟩
    | succ i => exact ih (fun j => v (j + 2)) i (by omega)

theorem drainRow_cf32_pair {k j : Nat} (hk : k < 8) (hj : j < 16) : ∃ l, (drainRow 1 (rowOf v)).1[k]? = some l ∧
    field l (64 * j) 32 = BitVec.ofNat 32 (canonPair (v (32 * k + 2 * j)) (v (32 * k + 2 * j + 1))).1 ∧
    field l (64 * j + 32) 32 = BitVec.ofNat 32 (canonPair (v (32 * k + 2 * j)) (v (32 * k + 2 * j + 1))).2 := by
  obtain ⟨re, im⟩ := canonPairs_map_range 128 v (16 * k + j) (by omega)
  rw [show 2 * (16 * k + j) = 32 * k + 2 * j by omega] at re im
  rw [drainRow_cf32]
  refine ⟨_, getElem?_map_range _ hk, ?_, ?_⟩
  · have h := field_line (c := 32) (m := 4) (by decide) (show 2 * j < 32 by omega) re
    rwa [show 8 * 4 * (2 * j) = 64 * j by omega] at h
  · have h := field_line (c := 32) (m := 4) (by decide) (show 2 * j + 1 < 32 by omega) im
    rwa [show 8 * 4 * (2 * j + 1) = 64 * j + 32 by omega] at h

theorem field_drained_nan {l : Line} {j x y : Nat} (h : (fp32.value x).isNan = true ∨ (fp32.value y).isNan = true)
    (re : field l (64 * j) 32 = BitVec.ofNat 32 (canonPair x y).1) (im : field l (64 * j + 32) 32 = BitVec.ofNat 32 (canonPair x y).2) :
    field l (64 * j) 64 = 0x7FC000007FC00000#64 := by
  rw [canonPair, if_pos (by simpa using h)] at re im
  rw [field_add l (64 * j) 32 32, re, im]
  decide

theorem field_drained_pair {l : Line} {j x y : Nat} (hx : ¬ (fp32.value x).isNan = true) (hy : ¬ (fp32.value y).isNan = true)
    (hxl : x < 2 ^ 32) (hyl : y < 2 ^ 32)
    (re : field l (64 * j) 32 = BitVec.ofNat 32 (canonPair x y).1) (im : field l (64 * j + 32) 32 = BitVec.ofNat 32 (canonPair x y).2) :
    (field l (64 * j) 32).toNat = x ∧ (field l (64 * j + 32) 32).toNat = y := by
  rw [canonPair, if_neg (by simp [hx, hy])] at re im
  rw [re, im, BitVec.toNat_ofNat, BitVec.toNat_ofNat, Nat.mod_eq_of_lt hxl, Nat.mod_eq_of_lt hyl]
  exact ⟨rfl, rfl⟩

/-! ## BF16 -/

/-- A value rounded to BF16. -/
def shortOf (x : Nat) : Nat := (fp32.convert bf16 .even x).bits

theorem drainRow_bf16 : drainRow 2 (rowOf v) =
    ((List.range 4).map fun k => lineOf (((((rowOf v).map shortOf).drop (64 * k) |>.take 64).map (leBytes 2)).flatten),
      (rowOf v).any (notFinite fp32) || ((rowOf v).map shortOf).any (notFinite bf16), false) := rfl

theorem drainRow_bf16_value {k j : Nat} (hk : k < 4) (hj : j < 64) :
    ∃ l, (drainRow 2 (rowOf v)).1[k]? = some l ∧ (field l (16 * j) 16).toNat = shortOf (v (64 * k + j)) % 2 ^ 16 := by
  have h : ((rowOf v).map shortOf)[64 * k + j]? = some (shortOf (v (64 * k + j))) := by
    rw [List.getElem?_map, rowOf_getElem? v (by omega), Option.map_some]
  rw [drainRow_bf16]
  refine ⟨_, getElem?_map_range _ hk, ?_⟩
  rw [field_line (c := 64) (m := 2) (by decide) hj h, BitVec.toNat_ofNat]

theorem drainRow_bf16_bad : (drainRow 2 (rowOf v)).2.1 = true ↔
    ∃ j, j < 256 ∧ (notFinite fp32 (v j) = true ∨ notFinite bf16 (shortOf (v j)) = true) := by
  rw [drainRow_bf16, Bool.or_eq_true, any_rowOf, List.any_map, any_rowOf, ← exists_or]
  exact exists_congr fun j => and_or_left.symm

/-! ## MXINT8 -/

/-- Block `n` of a row, quantised. -/
def blockOf (n : Nat) : Quantised := quantise 0 ((List.range 32).map fun j => fp32.value (v (32 * n + j))) (List.replicate 32 .even)

theorem blocksOf_map_range (k : Nat) (v : Nat → Nat) :
    blocksOf k ((List.range (32 * k)).map v) = (List.range k).map fun n => (List.range 32).map fun j => v (32 * n + j) := by
  induction k generalizing v with
  | zero => rfl
  | succ k ih =>
    have hl : ((List.range 32).map v).length = 32 := by simp
    rw [show 32 * (k + 1) = 32 + 32 * k by omega, List.range_add, List.map_append, List.map_map, blocksOf, List.take_left' hl, List.drop_left' hl, ih,
      List.range_succ_eq_map (n := k), List.map_cons, List.map_map]
    simp only [Function.comp_def, Nat.mul_succ, Nat.mul_zero, Nat.zero_add, Nat.add_assoc, Nat.add_left_comm 32]

theorem blocks_quantised : (blocksOf 8 (rowOf v)).map (fun b => quantise 0 (b.map fp32.value) (b.map fun _ => .even)) = (List.range 8).map (blockOf v) := by
  rw [show rowOf v = (List.range (32 * 8)).map v from rfl, blocksOf_map_range, List.map_map]
  refine List.map_congr_left fun n _ => ?_
  have even : (((List.range 32).map fun j => v (32 * n + j)).map fun _ => Rm.even) = List.replicate 32 .even := by
    rw [List.map_const', List.length_map, List.length_range]
  rw [Function.comp_apply, even, List.map_map]
  rfl

theorem quantise_codes_length (f : Nat) (vs : List FVal) (rms : List Rm) (h : vs.length = rms.length) : (quantise f vs rms).codes.length = vs.length := by
  unfold quantise
  split
  · simp
  · dsimp only
    split
    · simp
    · simp [h]

theorem blockOf_codes_length (n : Nat) : (blockOf v n).codes.length = 32 := by
  rw [blockOf, quantise_codes_length _ _ _ (by simp)]
  simp

/-- The codes of a row, block after block. -/
def rowCodes : List Int := ((List.range 8).map fun n => (blockOf v n).codes).flatten

theorem rowCodes_getElem? {n j : Nat} (hn : n < 8) (hj : j < 32) : (rowCodes v)[32 * n + j]? = (blockOf v n).codes[j]? :=
  getElem?_flatten_map_range (blockOf_codes_length v) hn hj

theorem packCodes_eq_ofDigits (n : Nat) (cs : List Int) : packCodes n cs = Nat.ofDigits (2 ^ n) (cs.map (intBits n)) := by
  induction cs with
  | nil => rfl
  | cons c cs ih => rw [packCodes, ih, List.map_cons, Nat.ofDigits_cons]

theorem field_packCodes {j : Nat} {x : Int} {cs : List Int} (h : cs[j]? = some x) (hn : 8 * j + 8 ≤ 1024) :
    field (BitVec.ofNat 1024 (packCodes 8 cs)) (8 * j) 8 = BitVec.ofInt 8 x := by
  have hlt (c : Int) : intBits 8 c < 2 ^ 8 := by unfold intBits; omega
  have hd : ∀ d ∈ cs.map (intBits 8), d < 2 ^ 8 := by
    simp only [List.mem_map]
    rintro _ ⟨c, -, rfl⟩
    exact hlt c
  have hj : (cs.map (intBits 8))[j]? = some (intBits 8 x) := by rw [List.getElem?_map, h]; rfl
  rw [packCodes_eq_ofDigits, field_ofDigits hd hj hn]
  exact BitVec.eq_of_toNat_eq (by rw [BitVec.toNat_ofNat, Nat.mod_eq_of_lt (hlt x), BitVec.toNat_ofInt]; rfl)

/-- The line of elements `k`, and the line of scales. -/
def elementLine (k : Nat) : Line := BitVec.ofNat 1024 (packCodes 8 ((rowCodes v).drop (128 * k) |>.take 128))
def scaleLine : Line := lineOf ((List.range 8).map fun n => BitVec.ofNat 8 (blockOf v n).scale)

theorem drainRow_mx8 : drainRow 3 (rowOf v) = ([elementLine v 0, elementLine v 1, scaleLine v], (rowOf v).any (notFinite fp32),
    ((List.range 8).map (blockOf v)).any fun q => q.sat || q.rowBad) := by
  have hq := blocks_quantised v
  show drainRow 3#2 _ = _
  unfold drainRow
  rw [if_neg (by decide), if_pos rfl, hq]
  dsimp only
  rw [List.map_map, List.map_map]
  rfl

theorem elementLine_code {k j : Nat} (hk : k < 2) (hj : j < 128) :
    ∃ x, (blockOf v (4 * k + j / 32)).codes[j % 32]? = some x ∧ field (elementLine v k) (8 * j) 8 = BitVec.ofInt 8 x := by
  have hn : 4 * k + j / 32 < 8 := by omega
  have hm : j % 32 < 32 := Nat.mod_lt _ (by decide)
  obtain ⟨x, hx⟩ : ∃ x, (blockOf v (4 * k + j / 32)).codes[j % 32]? = some x :=
    ⟨_, List.getElem?_eq_getElem (by rw [blockOf_codes_length]; exact hm)⟩
  have at0 : (rowCodes v)[128 * k + j]? = some x := by
    rw [show 128 * k + j = 32 * (4 * k + j / 32) + j % 32 by omega, rowCodes_getElem? v hn hm, hx]
  exact ⟨x, hx, field_packCodes ((getElem?_take_drop _ k hj).trans at0) (by omega)⟩

theorem scaleLine_scale {n : Nat} (hn : n < 8) : field (scaleLine v) (8 * n) 8 = BitVec.ofNat 8 (blockOf v n).scale :=
  field_lineOf (getElem?_map_range _ hn) (by omega)

theorem scaleLine_past : field (scaleLine v) 64 960 = 0#960 := field_lineOf_past (n := 8) (by simp) (by decide)

theorem drainRow_mx8_sat : (drainRow 3 (rowOf v)).2.2 = true ↔ ∃ n, n < 8 ∧ ((blockOf v n).sat = true ∨ (blockOf v n).rowBad = true) := by
  rw [drainRow_mx8]
  simp

/-! ## The flags -/

/-- Outside BF16 a drain reports the values it met. -/
theorem drainRow_bad {f : BitVec 2} (hf : f ≠ 2#2) : (drainRow f (rowOf v)).2.1 = true ↔ ∃ j, j < 256 ∧ notFinite fp32 (v j) = true := by
  have h : (drainRow f (rowOf v)).2.1 = (rowOf v).any (notFinite fp32) := by
    unfold drainRow
    dsimp only
    rw [if_neg hf]
    split <;> rfl
  rw [h, any_rowOf]

/-- Only MXINT8 saturates. -/
theorem drainRow_sat {f : BitVec 2} (hf : f ≠ 3#2) (row : List Nat) : (drainRow f row).2.2 = false := by
  unfold drainRow
  dsimp only
  rw [if_neg hf]
  split <;> rfl

end

end Sys2Proof.Machine
end

section
/-! PROOFS. MDRAIN and MSTAT (06_matrix R141, R143, R144): what a drain puts in flight or on its stream, the status file it marks, and the word it reads as. -/
namespace Sys2Proof.Machine
open Sys2Proof.Claim

/-- An array after a drain of a row: its tile's NANINF and SAT bits, and the time. -/
def Arr.drained (a : Arr) (row : Nat) (bad sat : Bool) (at0 : Nat) : Arr :=
  { a with nanInf := if bad then a.nanInf ||| (1#16 <<< (row / 64)) else a.nanInf, sat := if sat then a.sat ||| (1#16 <<< (row / 64)) else a.sat,
           lastDrain := some at0 }

namespace Work
variable (w : Work)

/-- The vector results of a drain, from the first register of its group on. -/
def putLines (d : BitVec 4) (ls : List Line) : Work :=
  ((List.range ls.length).zip ls).foldl (fun w x => w.putV (d.setWidth 5 * 8 + BitVec.ofNat 5 x.1) x.2 5) w

theorem foldl_putV_inflight {α : Type} (reg : α → BitVec 5) (val : α → Line) (lat : Nat) (xs : List α) :
    (xs.foldl (fun w x => w.putV (reg x) (val x) lat) w).me.inflight = w.me.inflight ++ xs.map fun x => w.vResult (reg x) (val x) lat := by
  induction xs generalizing w with
  | nil => simp
  | cons x xs ih =>
    have head : (w.putV (reg x) (val x) lat).me.inflight = w.me.inflight ++ [w.vResult (reg x) (val x) lat] := by rw [putV_eq, me_modMe]
    have same (y : α) : (w.putV (reg x) (val x) lat).vResult (reg y) (val y) lat = w.vResult (reg y) (val y) lat := by rw [putV_eq]; rfl
    rw [List.foldl_cons, ih, head, List.append_assoc]
    simp only [same]
    rfl

variable (d : BitVec 4) (ls : List Line)

theorem putLines_focus : (w.putLines d ls).focus = w.focus :=
  foldl_keeps (fun v : Work => v.focus) (fun v x => by rw [putV_eq]; rfl) _ w

theorem putLines_log : (w.putLines d ls).log = w.log :=
  foldl_keeps Work.log (fun v x => by rw [putV_eq]; rfl) _ w

theorem core_arr_modMe (f : Ctx → Ctx) (n : Nat) : ((w.modMe f).core n).arr = (w.core n).arr := by
  unfold modMe modCtx
  by_cases h : n = w.focus.core
  · rw [h, core_modCore_same]
  · rw [core_modCore_other _ _ h]

theorem putLines_here : (w.putLines d ls).here.arr = w.here.arr := by
  rw [here, putLines_focus]
  exact foldl_keeps (fun v : Work => (v.core w.focus.core).arr) (fun v x => by rw [putV_eq]; exact core_arr_modMe ..) _ w

theorem putLines_length : (w.putLines d ls).me.inflight.length = w.me.inflight.length + ls.length := by
  rw [putLines, foldl_putV_inflight, List.length_append, List.length_map, List.length_zip, List.length_range, min_self]

theorem putLines_getElem? {k : Nat} {l : Line} (h : ls[k]? = some l) :
    (w.putLines d ls).me.inflight[w.me.inflight.length + k]? = some (w.vResult (d.setWidth 5 * 8 + BitVec.ofNat 5 k) l 5) := by
  have hk : k < ls.length := (List.getElem?_eq_some_iff.mp h).1
  have hz : ((List.range ls.length).zip ls)[k]? = some (k, l) := List.getElem?_zip_eq_some.mpr ⟨List.getElem?_range hk, h⟩
  rw [putLines, foldl_putV_inflight, List.getElem?_append_right (Nat.le_add_right ..), Nat.add_sub_cancel_left, List.getElem?_map, hz, Option.map_some]

end Work

section
variable {s : State} {f : BitVec 2} {d : BitVec 4} {i : BitVec 1} {r : BitVec 10}

/-! ## MDRAIN -/

theorem exec_mdrain_poisoned (k : BitVec 1) (h : s.work.here.arr.rowPoison.getLsbD (s.work.rowOperand i r) = true) :
    exec (.mdrain f k d i r) s = .next (trapped s (.mdrain f k d i r) { code := 0x15, addr := BitVec.ofNat 64 (s.work.rowOperand i r) }) := by
  refine runSlotKeep_trap s _ (mdrainAct f k d i r) _ ?_
  simp only [mdrainAct, act_bind, act_get, act_ite, h, if_true, act_trap]
  rfl

section
variable (h : s.work.here.arr.rowPoison.getLsbD (s.work.rowOperand i r) = false)
include h

/-- A drain to vector registers. -/
theorem exec_mdrain_vector {out : List Line × Bool × Bool} (ho : drainRow f (s.work.accRow s.focus.core (s.work.rowOperand i r)) = out) :
    exec (.mdrain f 1 d i r) s = .next (left s ((s.work.putLines d out.1).modArr s.focus.core fun a =>
      a.drained (s.work.rowOperand i r) out.2.1 out.2.2 (s.work.putLines d out.1).focus.issueAt)) := by
  subst ho
  refine runSlotKeep_ok s _ (mdrainAct f 1 d i r) _ ?_
  have hk : (1 : BitVec 1) = 1#1 := rfl
  simp only [mdrainAct, act_bind, act_get, act_ite, h, Bool.false_eq_true, if_false, hk, if_true, act_modify]
  rfl

/-- A drain to a stream. -/
theorem exec_mdrain_stream {w : Work} {out : List Line × Bool × Bool} (ho : drainRow f (s.work.accRow s.focus.core (s.work.rowOperand i r)) = out)
    (hp : streamPut d (s.work.rdG i.toNat d) out.1 5 s.work = (.ok (), w)) :
    exec (.mdrain f 0 d i r) s = .next (left s (w.modArr s.focus.core fun a =>
      a.drained (s.work.rowOperand i r) out.2.1 out.2.2 w.focus.issueAt)) := by
  subst ho
  refine runSlotKeep_ok s _ (mdrainAct f 0 d i r) _ ?_
  have hk : ¬ (0 : BitVec 1) = 1#1 := by decide
  simp only [mdrainAct, act_bind, act_get, act_ite, h, Bool.false_eq_true, if_false, hk, act_modify]
  rw [show s.work.focus.core = s.focus.core from rfl, hp]
  rfl

/-- What a drain to vector registers leaves. -/
theorem mdrain_vector_leaves {out : List Line × Bool × Bool} (ho : drainRow f (s.work.accRow s.focus.core (s.work.rowOperand i r)) = out) :
    ∃ t, exec (.mdrain f 1 d i r) s = .next t ∧ t.mem = s.mem ∧
      (∀ k l, out.1[k]? = some l → t.work.me.inflight[s.work.me.inflight.length + k]? =
        some (s.work.vResult (d.setWidth 5 * 8 + BitVec.ofNat 5 k) l 5)) ∧
      t.work.me.inflight.length = s.work.me.inflight.length + out.1.length ∧
      t.work.here.arr = s.work.here.arr.drained (s.work.rowOperand i r) out.2.1 out.2.2 s.focus.issueAt := by
  have hf := s.work.putLines_focus d out.1
  have hme (g : Arr → Arr) : ((s.work.putLines d out.1).modArr s.focus.core g).me = (s.work.putLines d out.1).me := (Work.SameContexts.modArr ..).me
  refine ⟨_, exec_mdrain_vector h ho, ?_, ?_, ?_, ?_⟩
  · exact congrArg (applyLog s.mem) (s.work.putLines_log d out.1)
  · intro k l hl
    rw [left_work_me, hme]
    exact s.work.putLines_getElem? d out.1 hl
  · rw [left_work_me, hme]
    exact s.work.putLines_length d out.1
  · have hh := (s.work.putLines d out.1).here_modArr fun a => a.drained (s.work.rowOperand i r) out.2.1 out.2.2 (s.work.putLines d out.1).focus.issueAt
    rw [s.work.putLines_here d out.1, hf] at hh
    rw [hf]
    exact hh

theorem mdrain_stream_leaves {w : Work} {out : List Line × Bool × Bool} (ho : drainRow f (s.work.accRow s.focus.core (s.work.rowOperand i r)) = out)
    (hp : streamPut d (s.work.rdG i.toNat d) out.1 5 s.work = (.ok (), w)) :
    ∃ t, exec (.mdrain f 0 d i r) s = .next t ∧ t.mem = applyLog s.mem w.log ∧ t.work.me.inflight = w.me.inflight := by
  refine ⟨_, exec_mdrain_stream h ho hp, rfl, ?_⟩
  rw [left_work_me]
  exact congrArg Ctx.inflight (Work.SameContexts.modArr ..).me

end

/-! ## MSTAT -/

/-- Places counted from `base` where `p` holds, as a number. -/
theorem foldl_filter_places (p : Nat → Bool) (base a n : Nat) : ((List.range n).filter p).foldl (fun x j => x + 2 ^ (base + j)) a =
    a + 2 ^ base * (List.range n).foldl (fun x j => x + if p j then 2 ^ j else 0) 0 := by
  induction n with
  | zero => rfl
  | succ n ih =>
    rw [List.range_succ, List.filter_append, List.foldl_append, List.foldl_append, ih, List.foldl_cons, List.foldl_nil]
    cases hp : p n
    · simp [hp]
    · simp [hp]
      ring

theorem foldl_places_lt (p : Nat → Bool) (n : Nat) : (List.range n).foldl (fun x j => x + if p j then 2 ^ j else 0) 0 < 2 ^ n := by
  induction n with
  | zero => exact Nat.one_pos
  | succ n ih =>
    rw [List.range_succ, List.foldl_append, List.foldl_cons, List.foldl_nil, pow_succ]
    split <;> omega

/-- The status file's word: NANINF, SAT above it, and a bit for each tile that has a poisoned row. -/
def Arr.statusWord (a : Arr) : Word :=
  BitVec.ofNat 64 (((List.range 16).filter fun j => field a.rowPoison (64 * j) 64 != 0#64).foldl (fun x j => x + 2 ^ (32 + j)) (a.nanInf.toNat + 2 ^ 16 * a.sat.toNat))

theorem Arr.status_eq (a : Arr) : a.status = a.statusWord := by
  have bits : (List.range 16).foldl (fun acc j => acc + if field a.rowPoison (64 * j) 64 = 0#64 then 0 else 2 ^ j) 0 =
      (List.range 16).foldl (fun x j => x + if field a.rowPoison (64 * j) 64 != 0#64 then 2 ^ j else 0) 0 := by
    congr 1
    funext x j
    by_cases h : field a.rowPoison (64 * j) 64 = 0#64 <;> simp [h]
  have hp := foldl_places_lt (fun j => field a.rowPoison (64 * j) 64 != 0#64) 16
  have hn := a.nanInf.isLt
  have hs := a.sat.isLt
  unfold status statusWord
  rw [bits, foldl_filter_places]
  generalize (List.range 16).foldl (fun x j => x + if field a.rowPoison (64 * j) 64 != 0#64 then 2 ^ j else 0) 0 = p at hp
  apply BitVec.eq_of_toNat_eq
  simp only [BitVec.toNat_append, BitVec.toNat_ofNat]
  rw [Nat.mod_eq_of_lt hp, ← Nat.shiftLeft_add_eq_or_of_lt hn, ← Nat.shiftLeft_add_eq_or_of_lt hs, ← Nat.shiftLeft_add_eq_or_of_lt hp]
  simp only [Nat.shiftLeft_eq]
  omega

/-- Cycles until the word arrives, 6 after the last drain at the earliest. -/
def Arr.statusDelay (a : Arr) (now : Nat) : Nat := match a.lastDrain with | some t => max 1 (t + 6 - now) | none => 1

/-- MSTAT's result. -/
def statusRes (s : State) (e : BitVec 6) : Res :=
  ⟨.sReg, e.toNat, s.work.here.arr.statusWord.setWidth 1024, s.work.here.arr.statusDelay s.focus.issueAt, 0, 0, true⟩

theorem putStatus_eq (s : State) (e : BitVec 6) : s.work.putStatus e = s.work.put (statusRes s e) := by
  rw [statusRes, ← Arr.status_eq]
  rfl

theorem exec_mstat (s : State) (e : BitVec 6) : exec (.mstat e) s = .next (left s (s.work.put (statusRes s e))) :=
  congrArg (fun w => Host.Outcome.next (left s w)) (putStatus_eq s e)

theorem exec_mstatClr (s : State) (e : BitVec 6) :
    exec (.mstatClr e) s = .next (left s ((s.work.put (statusRes s e)).modArr s.focus.core fun a => { a with nanInf := 0, sat := 0 })) :=
  congrArg (fun w : Work => Host.Outcome.next (left s (w.modArr s.focus.core fun a => { a with nanInf := 0, sat := 0 }))) (putStatus_eq s e)

end

end Sys2Proof.Machine
end

section
/-! PROOFS. MXCP (06_matrix R142, 24_ref R438): the checks of its address, rows to memory, and rows from memory. -/
namespace Sys2Proof.Machine
open Sys2Proof.Claim

theorem spaceAct_ok {sp : BitVec 2} {space : Space} (h : spaceOf sp = some space) (w : Work) : spaceAct sp w = (.ok space, w) := by
  unfold spaceAct
  rw [h]
  rfl

theorem aligned_trap {a : Word} {n : Nat} (h : a.toNat % n ≠ 0) (w : Work) : aligned a n w = (.error { code := 0x10, addr := a }, w) := by
  rw [aligned, if_pos h]
  rfl

section
variable {s : State} {sp : BitVec 2} {space : Space} (hs : spaceOf sp = some space) (a : BitVec 4) (r : BitVec 10) (n : BitVec 6) (off : Option (BitVec 32))

/-- The rows of a copy. -/
def copyRows (r : BitVec 10) (n : BitVec 6) : List Nat := (List.range (n.toNat + 1)).map fun k => (r.toNat + k) % 1024

/-- One unit of a copy out. -/
def copyOut (who : Issuer) (data : List Byte) (x : Nat × Word × Place) : Act Unit := do
  access (writePlace who false x.2.2 x.2.1 (data.drop (128 * x.1) |>.take 128))
  modify fun w => w.noteWrite x.2.2 128

/-- One unit of a copy in. -/
def copyIn (who : Issuer) (x : Word × Place) : Act (List Byte × Bool) := do
  let (bs, bad) ← access (readThrough who false x.2 x.1 128)
  modify fun w => w.noteRead x.2 128
  return (bs, bad)

/-- What memory gives for row `k` of a copy in: its bytes, and whether a unit of it was uncorrectable. -/
def copied (got : List (List Byte × Bool)) (k : Nat) : List (List Byte × Bool) := got.drop (8 * k) |>.take 8

include hs

theorem exec_mxcp_misaligned (h : (s.work.mxcpBase a off).toNat % 128 ≠ 0) :
    exec (.mxcpOut sp a r n off) s = .next (trapped s (.mxcpOut sp a r n off) { code := 0x10, addr := s.work.mxcpBase a off }) ∧
    exec (.mxcpIn sp a r n off) s = .next (trapped s (.mxcpIn sp a r n off) { code := 0x10, addr := s.work.mxcpBase a off }) := by
  constructor
  · refine runSlot_trap_here s _ (mxcpOutAct sp a r n off) _ ?_
    simp only [mxcpOutAct, act_bind, act_get, spaceAct_ok hs, aligned_trap h]
  · refine runSlot_trap_here s _ (mxcpInAct sp a r n off) _ ?_
    simp only [mxcpInAct, act_bind, act_get, spaceAct_ok hs, aligned_trap h]

section
variable (h : (s.work.mxcpBase a off).toNat % 128 = 0) {us : List (Word × Place)} {w1 w2 : Work}
include h

theorem exec_mxcpOut (hc : mxcpCheck space (s.work.mxcpBase a off) (n.toNat + 1) true s.work = (.ok us, w1))
    (hp : ((copyRows r n).any fun x => s.work.here.arr.rowPoison.getLsbD x) = false)
    (hw : ((List.range us.length).zip us).forM
      (copyOut s.work.issuer ((copyRows r n).map fun x => s.work.bytes (accKey s.work.issuer.core x 0) 1024).flatten) w1 = (.ok (), w2)) :
    exec (.mxcpOut sp a r n off) s = .next (left s ((w2.modMe fun c => { c with relPending := false }).copying (n.toNat + 1))) := by
  refine runSlot_ok s _ (mxcpOutAct sp a r n off) _ ?_
  unfold copyRows at hp hw
  unfold copyOut at hw
  simp only [mxcpOutAct, act_bind, act_get, spaceAct_ok hs, aligned_ok h, hc, hp, Bool.false_eq_true, if_false, hw]
  rfl

/-- Rows that a copy in writes. -/
theorem exec_mxcpIn {got : List (List Byte × Bool)} (hc : mxcpCheck space (s.work.mxcpBase a off) (n.toNat + 1) false s.work = (.ok us, w1))
    (hg : us.mapM (copyIn s.work.issuer) w1 = (.ok got, w2)) :
    exec (.mxcpIn sp a r n off) s = .next (left s ((w2.setRows s.focus.core r.toNat (fun k => ((copied got k).map (·.1)).flatten)
      (fun k => (copied got k).any (·.2)) (n.toNat + 1)).copying (n.toNat + 1))) := by
  refine runSlot_ok s _ (mxcpInAct sp a r n off) _ ?_
  unfold copyIn at hg
  simp only [mxcpInAct, act_bind, act_get, spaceAct_ok hs, aligned_ok h, hc, hg]
  rfl

end
end

/-! ## What a copy leaves -/

theorem Work.copying_same (w : Work) (m : Nat) : SameContexts w (w.copying m) := .modArr w _ fun a => { a with copyUntil := w.focus.issueAt + 8 * m }

theorem Work.here_copying (w : Work) (m : Nat) : (w.copying m).here.arr.copyUntil = w.focus.issueAt + 8 * m :=
  congrArg Arr.copyUntil (w.here_modArr fun a => { a with copyUntil := w.focus.issueAt + 8 * m })

section
variable {got : List (List Byte × Bool)} {m k : Nat} (hl : ∀ x ∈ got, x.1.length = 128) (hg : got.length = 8 * m) (hk : k < m)
include hl

theorem copied_pieces : ∀ b ∈ (copied got k).map (·.1), b.length = 128 := by
  intro b hb
  obtain ⟨x, hx, rfl⟩ := List.mem_map.mp hb
  exact hl x (List.mem_of_mem_drop (List.mem_of_mem_take hx))

include hg hk

theorem copied_length : ((copied got k).map (·.1)).flatten.length = 1024 := by
  have h8 : (copied got k).length = 8 := by
    rw [copied, List.length_take, List.length_drop]
    omega
  have hc : ((copied got k).map (·.1)).map List.length = List.replicate 8 128 := by
    refine List.eq_replicate_iff.mpr ⟨by simp [h8], fun c hc => ?_⟩
    obtain ⟨b, hb, rfl⟩ := List.mem_map.mp hc
    exact copied_pieces hl b hb
  rw [List.length_flatten, hc]
  rfl

/-- Byte `x` of a row: of the unit that holds it. -/
theorem copied_getD {x : Nat} (hx : x < 1024) : ((copied got k).map (·.1)).flatten.getD x 0 = ((got.getD (8 * k + x / 128) ([], false)).1).getD (x % 128) 0 := by
  have hi : x / 128 < 8 := by omega
  have hu : 8 * k + x / 128 < got.length := by omega
  have unit : ((copied got k).map (·.1))[x / 128]? = some (got[8 * k + x / 128]).1 := by
    rw [List.getElem?_map, copied, getElem?_take_drop _ _ hi, List.getElem?_eq_getElem hu, Option.map_some]
  have piece := getElem?_flatten_of_pieces (copied_pieces hl) unit (Nat.mod_lt x (by decide))
  rw [Nat.div_add_mod] at piece
  rw [List.getD_eq_getElem _ _ hu, List.getD_eq_getElem?_getD, piece, List.getD_eq_getElem?_getD]

end

/-- What a copy in leaves: the contexts, and every byte of its rows. -/
theorem setRows_copied (s : State) (hI : s.Inv) (w : Work) (r : BitVec 10) (n : BitVec 6) {got : List (List Byte × Bool)} (bad : Nat → Bool)
    (hl : ∀ x ∈ got, x.1.length = 128) (hg : got.length = 8 * (n.toNat + 1)) {k x : Nat} (hk : k ≤ n.toNat) (hx : x < 1024) :
    (left s ((w.setRows s.focus.core r.toNat (fun k => ((copied got k).map (·.1)).flatten) bad (n.toNat + 1)).copying (n.toNat + 1))).work.byte
      (accKey s.focus.core ((r.toNat + k) % 1024) x) = ((got.getD (8 * k + x / 128) ([], false)).1).getD (x % 128) 0 := by
  have hn := n.isLt
  rw [← copied_getD hl hg (Nat.lt_succ_of_le hk) hx]
  exact w.get_setRows_row s.focus.core r.toNat bad (n.toNat + 1) hI (fun k hk => copied_length hl hg hk) (by omega) (Nat.lt_succ_of_le hk) hx

end Sys2Proof.Machine
end

section
/-! PROOFS. The accumulator store (06_matrix R136, R139 to R144), assembled. -/
namespace Sys2Proof.Machine
open Sys2Proof.Claim

section
variable (s : State) (hI : s.Inv) (i : BitVec 1) (r : BitVec 10) (c d : BitVec 4) (n : BitVec 6)
include hI

/-! ## MZERO and MACC -/

/-- What MZERO leaves. -/
theorem mzero_leaves : ∃ t, exec (.mzero i r n) s = .next t ∧
    (∀ k, Memory.get t.mem k = if ∃ j, j ≤ n.toNat ∧ accKey s.focus.core ((s.work.rowOperand i r + j) % 1024) 0 ≤ k ∧
      k < accKey s.focus.core ((s.work.rowOperand i r + j) % 1024) 1024 then 0 else Memory.get s.mem k) ∧
    (∀ x, x < 1024 → t.work.here.arr.rowPoison.getLsbD x =
      (s.work.here.arr.rowPoison.getLsbD x && !decide (∃ j, j ≤ n.toNat ∧ x = (s.work.rowOperand i r + j) % 1024))) ∧
    t.work.here.arr.nanInf = s.work.here.arr.nanInf ∧ t.work.here.arr.sat = s.work.here.arr.sat ∧
    ∀ m k, t.work.ctx m k = s.work.ctx m k := by
  obtain ⟨hnan, hsat, hpoison⟩ := s.work.setRows_cleared (s.work.rowOperand i r) (fun _ => List.replicate 1024 0#8) (n.toNat + 1)
  have hn := n.isLt
  refine ⟨_, exec_mzero s i r n, fun k => ?_, fun x hx => ?_, hnan, hsat, (Work.setRows_same ..).ctx⟩
  · have hk := s.work.get_setRows_zero s.focus.core (s.work.rowOperand i r) (n.toNat + 1) hI (by omega) (fun _ => false) k
    simp only [Nat.lt_succ_iff] at hk
    exact hk
  · have hp := hpoison x hx
    simp only [Nat.lt_succ_iff] at hp
    exact hp

/-- What a direct MACC leaves that takes a foot. -/
theorem directMacc_leaves {add : Bool} {g : Foot} (hg : s.work.here.arr.feet.find? (fun g => g.left == 0) = some g) (hcd : c.toNat ≤ d.toNat) :
    ∃ t, exec (directMacc add i r c d) s = .next t ∧ (∀ m k, t.work.ctx m k = s.work.ctx m k) ∧
      (∀ j, j < 256 → (t.work.accRow s.focus.core (s.work.rowOperand i r))[j]? = some (
        if 16 * c.toNat ≤ j ∧ j < 16 * d.toNat + 16 then
          if add then (fp32.add .even (s.work.accAt s.focus.core (s.work.rowOperand i r) j) (g.column j)).bits % 2 ^ 32 else g.column j
        else s.work.accAt s.focus.core (s.work.rowOperand i r) j)) ∧
      (∀ k, k < accKey s.focus.core (s.work.rowOperand i r) 0 ∨ accKey s.focus.core (s.work.rowOperand i r) 1024 ≤ k →
        Memory.get t.mem k = Memory.get s.mem k) ∧
      t.work.here.arr.rowPoison.getLsbD (s.work.rowOperand i r) =
        (g.poison || (s.work.here.arr.rowPoison.getLsbD (s.work.rowOperand i r) && !(!add && c == 0 && d == 15))) := by
  have h15 : d.toNat ≤ 15 := Nat.le_of_lt_succ d.isLt
  have hc : (c == 0) = (c.toNat == 0) := Bool.eq_iff_iff.mpr (by simp [BitVec.toNat_eq])
  have hd : (d == 15) = (d.toNat == 15) := Bool.eq_iff_iff.mpr (by simp [BitVec.toNat_eq])
  refine ⟨_, exec_directMacc_foot hg, (Work.macc_same ..).ctx, fun j hj => ?_, fun k hk => ?_, ?_⟩
  · rw [left_accRow hI (Work.macc_base ..) ((Work.logFits_work s).macc _ _ _)]
    exact s.work.macc_accRow s.focus.core g ⟨s.work.rowOperand i r, add, c.toNat, d.toNat⟩ hcd h15 hj
  · exact s.work.get_macc_beside s.focus.core g ⟨s.work.rowOperand i r, add, c.toNat, d.toNat⟩ hcd h15 hI hk
  · rw [hc, hd]
    exact s.work.macc_rowPoison g ⟨s.work.rowOperand i r, add, c.toNat, d.toNat⟩ (rowOperand_lt ..)

end

/-! ## The formats of a drain, in the terms of the rule -/

section
variable (v : Nat → Nat)

theorem drainRow_f32_is (hv : ∀ j, v j < 2 ^ 32) : (drainRow 0 (rowOf v)).1.length = 8 ∧
    ∀ k j, k < 8 → j < 32 → ∃ l, (drainRow 0 (rowOf v)).1[k]? = some l ∧ (field l (32 * j) 32).toNat = v (32 * k + j) :=
  ⟨by rw [drainRow_f32]; simp, fun _ _ hk hj => drainRow_f32_value v hk hj (hv _)⟩

theorem drainRow_cf32_is (hv : ∀ j, v j < 2 ^ 32) : (drainRow 1 (rowOf v)).1.length = 8 ∧
    ∀ k j, k < 8 → j < 16 → ∃ l, (drainRow 1 (rowOf v)).1[k]? = some l ∧
      ((fp32.value (v (32 * k + 2 * j))).isNan = true ∨ (fp32.value (v (32 * k + 2 * j + 1))).isNan = true → field l (64 * j) 64 = 0x7FC000007FC00000#64) ∧
      (¬ (fp32.value (v (32 * k + 2 * j))).isNan = true → ¬ (fp32.value (v (32 * k + 2 * j + 1))).isNan = true →
        (field l (64 * j) 32).toNat = v (32 * k + 2 * j) ∧ (field l (64 * j + 32) 32).toNat = v (32 * k + 2 * j + 1)) := by
  refine ⟨by rw [drainRow_cf32]; simp, fun k j hk hj => ?_⟩
  obtain ⟨l, hl, re, im⟩ := drainRow_cf32_pair v hk hj
  exact ⟨l, hl, fun h => field_drained_nan h re im, fun hx hy => field_drained_pair hx hy (hv _) (hv _) re im⟩

theorem drainRow_bf16_is : (drainRow 2 (rowOf v)).1.length = 4 ∧
    ∀ k j, k < 4 → j < 64 → ∃ l, (drainRow 2 (rowOf v)).1[k]? = some l ∧ (field l (16 * j) 16).toNat = shortOf (v (64 * k + j)) % 2 ^ 16 :=
  ⟨by rw [drainRow_bf16]; simp, fun _ _ => drainRow_bf16_value v⟩

theorem drainRow_mx8_is : ∃ l0 l1 l2, (drainRow 3 (rowOf v)).1 = [l0, l1, l2] ∧
    (∀ j, j < 128 → ∃ x y, (blockOf v (j / 32)).codes[j % 32]? = some x ∧ field l0 (8 * j) 8 = BitVec.ofInt 8 x ∧
      (blockOf v (4 + j / 32)).codes[j % 32]? = some y ∧ field l1 (8 * j) 8 = BitVec.ofInt 8 y) ∧
    (∀ n, n < 8 → field l2 (8 * n) 8 = BitVec.ofNat 8 (blockOf v n).scale) ∧ field l2 64 960 = 0#960 := by
  refine ⟨elementLine v 0, elementLine v 1, scaleLine v, by rw [drainRow_mx8], fun j hj => ?_, fun n hn => scaleLine_scale v hn, scaleLine_past v⟩
  obtain ⟨x, hx, ex⟩ := elementLine_code v (k := 0) (by decide) hj
  obtain ⟨y, hy, ey⟩ := elementLine_code v (k := 1) (by decide) hj
  rw [Nat.mul_zero, Nat.zero_add] at hx
  exact ⟨x, y, hx, ex, hy, ey⟩

end

/-- Settles O51: rows by what writing them leaves, a drain by the digits of its lines, the status file by its word, a copy by its units. -/
theorem accumulatorStore : Obligations.AccumulatorStore := by
  unfold Obligations.AccumulatorStore
  intro s i r c d n f e sp a off hI core A row
  refine ⟨mzero_leaves s hI i r n, ?macc, fun h k g => exec_mdrain_poisoned k h, ?drain, ⟨exec_mstat s e, exec_mstatClr s e⟩, ?copy⟩
  case macc =>
    intro add ins hins
    subst hins
    exact ⟨fun h => exec_directMacc_none h, fun g hg hcd => directMacc_leaves s hI i r c d hg hcd⟩
  case drain =>
    intro h out
    refine ⟨mdrain_vector_leaves h rfl, ?formats, fun w1 hp => mdrain_stream_leaves h rfl hp⟩
    intro at0 nan odd short block
    have hv : ∀ j, at0 j < 2 ^ 32 := s.work.accAt_lt core row
    have hout : out = drainRow f (rowOf at0) := congrArg (drainRow f) (s.work.accRow_eq_map_accAt core row)
    rw [hout]
    refine ⟨?_, ?_, ?_, ?_, fun hf => ?_, ?_, fun hf => drainRow_sat hf _, ?_⟩
    · rintro rfl
      exact drainRow_f32_is at0 hv
    · rintro rfl
      exact drainRow_cf32_is at0 hv
    · rintro rfl
      exact drainRow_bf16_is at0
    · rintro rfl
      exact drainRow_mx8_is at0
    · simp only [drainRow_bad at0 hf, notFinite_iff]
      rfl
    · rintro rfl
      simp only [drainRow_bf16_bad, notFinite_iff]
      rfl
    · rintro rfl
      exact drainRow_mx8_sat at0
  case copy =>
    intro space hs base rows poisoned
    refine ⟨exec_mxcp_misaligned hs a r n off, fun h us w1 w2 hc hp hw => ?_, fun h us w1 got w2 hc hg hl hlen => ?_⟩
    · exact ⟨_, exec_mxcpOut hs a r n off h hc hp hw, rfl, Work.here_copying ..⟩
    · exact ⟨_, exec_mxcpIn hs a r n off h hc hg, ((Work.setRows_same ..).trans (Work.copying_same ..)).ctx,
        fun k x hk hx => setRows_copied s hI w2 r n _ hl hlen hk hx⟩

end Sys2Proof.Machine
end

section
/-! PROOFS. The lines of L2 (08_memory R177, R182, 09_ordering R201): which lines L2 holds after a fill, an eviction and a write, and what they write to
memory. -/
namespace Sys2Proof.Machine

/-! ## Tables -/

theorem Tab.set_of_new {α : Type} {t : List (Nat × α)} {k : Nat} (h : k ∉ t.map (·.1)) (x : α) : Tab.set t k x = t ++ [(k, x)] := by
  induction t with
  | nil => rfl
  | cons e t ih =>
    obtain ⟨hk, ht⟩ := not_or.mp (List.mem_cons.not.mp h)
    rw [Tab.set, if_neg (Ne.symm hk), ih ht, List.cons_append]

theorem Tab.mem_set {α : Type} {t : List (Nat × α)} {k : Nat} {x : α} {e : Nat × α} (h : e ∈ Tab.set t k x) : e ∈ t ∨ e = (k, x) := by
  induction t with
  | nil => exact .inr (List.mem_singleton.mp h)
  | cons a t ih =>
    rw [Tab.set] at h
    split at h
    · exact (List.mem_cons.mp h).symm.imp_left (List.mem_cons_of_mem _)
    · rcases List.mem_cons.mp h with rfl | h
      · exact .inl List.mem_cons_self
      · exact (ih h).imp_left (List.mem_cons_of_mem _)

theorem Tab.mem_keys_set {α : Type} (t : List (Nat × α)) (k : Nat) (x : α) : k ∈ (Tab.set t k x).map (·.1) := by
  induction t with
  | nil => exact List.mem_cons_self
  | cons e t ih =>
    rw [Tab.set]
    split
    · exact List.mem_cons_self
    · exact List.mem_cons_of_mem _ ih

namespace Work

/-! ## Lines that come to L2 and leave it -/

variable {w v : Work}

theorem inL2_iff {line : Nat} : w.inL2 line = true ↔ line ∈ w.l2.map (·.1) := by simp [inL2, List.mem_map]

theorem inL2_of_l2 {line : Nat} (h : v.l2 = w.l2) : v.inL2 line = w.inL2 line := congrArg (List.any · _) h

theorem sample_l2 (src : BitVec 8) (watched : BitVec 16) (x : Nat) : (w.sample src watched x).l2 = w.l2 := by unfold sample; split <;> rfl

theorem l2Fill_of_inL2 {line : Nat} (h : w.inL2 line = true) (part : Nat) (write : Bool) (joined : Nat) : w.l2Fill part line write joined = w := if_pos h

/-- What writes and the list of HOST lines do not touch, cleaning a HOST line leaves. -/
theorem cleanHost_keeps {β : Type} (g : Work → β) (hw : ∀ (v : Work) k bs, g (v.write k bs) = g v) (hh : ∀ (v : Work) hs, g { v with hostL2 := hs } = g v)
    (w : Work) (line : Nat) : g (w.cleanHost line) = g w := by
  unfold cleanHost
  split
  · rfl
  · exact (hh ..).trans (foldl_keeps g (fun _ _ => hw ..) _ w)

theorem cleanHost_of_none {line : Nat} (h : w.hostL2.find? (·.line == line) = none) : w.cleanHost line = w := by rw [cleanHost, h]

/-- A HOST line whose dirty bytes are one run is written back by one write. -/
theorem cleanHost_log {line i n : Nat} {x : L1Line} (h : w.hostL2.find? (·.line == line) = some x) (hr : runs x.dirty = [(i, n)]) :
    (w.cleanHost line).log = (w.write (line * 128 + i) (((lineBytes x.data).drop i).take n)).log := by
  rw [cleanHost, h]
  dsimp only
  rw [hr]
  rfl

theorem evictLine_keeps {β : Type} (g : Work → β) (hw : ∀ (v : Work) k bs, g (v.write k bs) = g v) (hh : ∀ (v : Work) hs, g { v with hostL2 := hs } = g v)
    (hl : ∀ (v : Work) ls fl, g { v with l2 := ls, floors := fl } = g v) (w : Work) (line : Nat) : g (w.evictLine line) = g w := by
  have clean := cleanHost_keeps g hw hh w line
  unfold evictLine
  extract_lets w1 w2
  have h2 : g w2 = g w := (hh ..).trans clean
  split
  · exact h2
  · exact (hl ..).trans h2

theorem evictLine_l2 (w : Work) (line : Nat) : (w.evictLine line).l2 = Tab.erase w.l2 line := by
  have clean : (w.cleanHost line).l2 = w.l2 := cleanHost_keeps (·.l2) write_l2 (fun _ _ => rfl) w line
  unfold evictLine
  extract_lets w1 w2
  have h2 : w2.l2 = w.l2 := clean
  split
  case h_1 h =>
    rw [h2] at h ⊢
    exact (List.filter_eq_self.mpr fun e he => by simpa using List.find?_eq_none.mp h e he).symm
  case h_2 => exact congrArg (Tab.erase · line) h2

theorem evictLine_log (w : Work) (line : Nat) : (w.evictLine line).log = (w.cleanHost line).log := by
  unfold evictLine
  extract_lets w1 w2
  split <;> rfl

theorem evictLine_hostL2 {line : Nat} (h : w.hostL2.find? (·.line == line) = none) : (w.evictLine line).hostL2 = w.hostL2 := by
  have stays : w.hostL2.filter (·.line != line) = w.hostL2 := List.filter_eq_self.mpr fun x hx => by simpa using List.find?_eq_none.mp h x hx
  unfold evictLine
  rw [cleanHost_of_none h]
  extract_lets w1
  split <;> exact stays

/-- A full slice evicts the line it has held longest. -/
theorem l2Room_of_full {slice line : Nat} {more : List Nat} (h : (w.l2.map (·.1)).filter (fun l => sliceOf (l * 128) == slice) = line :: more)
    (hn : w.sliceLines ≤ more.length + 1) : w.l2Room slice = w.evictLine line := by
  rw [List.filter_map] at h
  obtain ⟨e, rest, he, rfl, rfl⟩ := List.map_eq_cons_iff.mp h
  have short : rest.length + 1 ≤ w.l2.length := by
    calc rest.length + 1 = (e :: rest).length := rfl
      _ ≤ w.l2.length := by rw [← he]; exact List.length_filter_le ..
  rw [List.length_map] at hn
  have he' : w.l2.filter (fun e => sliceOf (e.1 * 128) == slice) = e :: rest := he
  unfold l2Room
  rw [if_neg (by omega), he']
  dsimp only
  rw [if_neg (by omega)]

theorem endWindow_log (line : Nat) : (w.endWindow line).log = w.log := by
  unfold endWindow
  split
  · rfl
  · exact sample_log ..

theorem endWindow_l2 (line : Nat) : (w.endWindow line).l2 = w.l2 := by
  unfold endWindow
  split
  · rfl
  · exact sample_l2 ..

theorem inL2_l2Fill (part line : Nat) (b : Bool) (joined : Nat) : (w.l2Fill part line b joined).inL2 line = true := by
  unfold l2Fill
  split
  · assumption
  · extract_lets w1 w2 w3 w4
    have h3 : w3.inL2 line = true := inL2_iff.mpr (Tab.mem_keys_set ..)
    have h4 : w4.inL2 line = true := (inL2_of_l2 (w3.endWindow_l2 line)).trans h3
    split
    · exact (inL2_of_l2 rfl).trans h3
    · exact (inL2_of_l2 rfl).trans h4

/-- A miss writes what its slice writes to make room. -/
theorem l2Fill_log {line : Nat} (h : w.inL2 line ≠ true) (part : Nat) (b : Bool) (joined : Nat) :
    (w.l2Fill part line b joined).log = (w.l2Room (sliceOf (line * 128))).log := by
  unfold l2Fill
  rw [if_neg h]
  extract_lets w1 w2 w3 w4
  have h3 : w3.log = w1.log := by
    show w2.log = w1.log
    unfold w2
    split <;> rfl
  split
  · exact h3
  · exact (w3.endWindow_log line).trans h3

theorem noteWaits_l2 (pa n : Nat) : (w.noteWaits pa n).l2 = w.l2 :=
  foldl_keeps (·.l2) (fun v x => foldl_keeps (·.l2) (fun u i => by
    split
    · split <;> rfl
    · rfl) _ v) _ w

theorem l2Write_l2 (part pa : Nat) (bs : List Byte) :
    (w.l2Write part pa bs (mtOf pa)).l2 = ((w.afterWindow (pa / 128)).l2Fill part (pa / 128) true 0).l2 := by
  have direct : ¬ (mtOf pa = 3#2 ∧ isHost pa = true) := by
    unfold mtOf
    split <;> simp
  unfold l2Write
  rw [if_neg direct]
  extract_lets line w1 w2
  have h2 : w2.l2 = w1.l2 := by
    unfold w2
    split <;> rfl
  split
  · exact h2
  · exact (noteWaits_l2 ..).trans (write_l2 ..)

/-- A line that is written at its home slice is in L2 then. -/
theorem inL2_homeWrite (part pa : Nat) (bs : List Byte) : (w.homeWrite part pa bs).inL2 (pa / 128) = true :=
  (inL2_of_l2 (l2Write_l2 ..)).trans (inL2_l2Fill ..)

theorem l2Write_hbm {pa : Nat} (h : isHost pa = false) (part : Nat) (bs : List Byte) : w.l2Write part pa bs (mtOf pa) =
    (((w.afterWindow (pa / 128)).l2Fill part (pa / 128) true 0).write pa bs).noteWaits pa bs.length := by
  have direct : ¬ (mtOf pa = 3#2 ∧ isHost pa = true) := by simp [h]
  have apart : ¬ hostLine pa (mtOf pa) = true := by simp [hostLine, h]
  unfold l2Write
  dsimp only
  rw [if_neg direct, if_neg apart]

/-- The allocator's read of a line of HBM. -/
theorem allocRead_hbm {pa : Nat} (hb : w.poison = []) (hc : ∀ c ∈ w.cores, c.2.upd = []) (h : isHost pa = false) (n name : Nat) :
    allocRead pa n name w = (.ok ((w.l2Touch w.myPart (pa / 128)).bytes pa n), w.l2Touch w.myPart (pa / 128)) := by
  have good : ¬ (w.badUnit pa n).isSome = true := by simp [badUnit, hb]
  have direct : ¬ (mtOf pa = 3#2 ∧ isHost pa = true) := by simp [h]
  have apart : ¬ hostLine pa (mtOf pa) = true := by simp [hostLine, h]
  unfold allocRead
  rw [if_neg good, homeRead, recallLine_of_clean hc, l2Read, if_neg direct, l2Data, if_neg apart]

theorem l2Touch_of_inL2 {line : Nat} (h : w.inL2 line = true) (hw : w.windows = []) (part : Nat) : w.l2Touch part line = w := by
  rw [l2Touch, if_pos h, hw]
  rfl

theorem l2Touch_of_miss {line : Nat} (h : w.inL2 line ≠ true) (part : Nat) : w.l2Touch part line = w.l2Fill part line false 1 := if_neg h

/-! ## Releases and stamps -/

theorem myPart_of (hq : Quiet w v) (hs : Still w v) : v.myPart = w.myPart := by
  unfold myPart myInst? inst?
  rw [hq.insts, hs.meField (·.inst) fun _ => rfl]

theorem raiseS_log {pa : Nat} (part : Nat) (race : Bool) (x : BitVec 32) :
    (w.raiseS part (.phys pa 0#2 race) x).log = (w.l2Fill part (pa / 128) true 0).log := by
  have direct : ¬ ((0#2) = 3#2 ∧ isHost pa = true) := by simp
  unfold raiseS
  dsimp only
  rw [if_neg direct]
  rfl

theorem sliceLines_of_parts (h : v.parts = w.parts) : v.sliceLines = w.sliceLines := by rw [sliceLines, sliceLines, swapOn, swapOn, h]

/-! ## L2 followed over a run of accesses -/

/-- L2 holds just these lines, the oldest first, and of HOST lines these; the step has written `log`; slices have their whole size, and no L1 holds a
line. -/
structure L2Is (w : Work) (lines : List Nat) (hosts : List L1Line) (log : List Chunk) : Prop where
  lines : w.l2.map (·.1) = lines
  hosts : w.hostL2 = hosts
  log : w.log = log
  whole : w.sliceLines = 262144
  clean : ∀ c ∈ w.cores, c.2.l1 = [] ∧ c.2.upd = []

namespace L2Is

variable {lines lines' : List Nat} {hosts hosts' : List L1Line} {log log' : List Chunk} {line : Nat}

/-- An update that leaves L2, memory's log, partitions and cores alone. -/
theorem beside (h : w.L2Is lines hosts log) (h2 : v.l2 = w.l2) (hh : v.hostL2 = w.hostL2) (hl : v.log = w.log) (hp : v.parts = w.parts)
    (hc : v.cores = w.cores) : v.L2Is lines hosts log :=
  ⟨h2 ▸ h.lines, hh.trans h.hosts, hl.trans h.log, (sliceLines_of_parts hp).trans h.whole, hc ▸ h.clean⟩

theorem ite {p : Prop} [Decidable p] (h : w.L2Is lines hosts log) (k : v.L2Is lines hosts log) : (if p then w else v).L2Is lines hosts log := by
  split
  · exact h
  · exact k

theorem foldl {α : Type} {f : Work → α → Work} {l : List α} (h : w.L2Is lines hosts log) (hf : ∀ v x, v.L2Is lines hosts log → (f v x).L2Is lines hosts log) :
    (l.foldl f w).L2Is lines hosts log := by
  induction l generalizing w with
  | nil => exact h
  | cons x xs ih => exact ih (hf w x h)

section
variable (h : w.L2Is lines hosts log)
include h

theorem inL2 : w.inL2 line = true ↔ line ∈ lines := by rw [inL2_iff, h.lines]

theorem partials : ∀ c ∈ w.cores, c.2.upd = [] := fun c hc => (h.clean c hc).2

theorem core_empty (n : Nat) : (w.core n).l1 = [] ∧ (w.core n).upd = [] := by
  unfold core Tab.get
  split
  case h_1 e he => exact h.clean e (List.mem_of_find?_eq_some he)
  case h_2 => exact ⟨rfl, rfl⟩

theorem modCtx (n i : Nat) (f : Ctx → Ctx) : (w.modCtx n i f).L2Is lines hosts log :=
  ⟨h.lines, h.hosts, h.log, h.whole, fun c hc => by
    rcases Tab.mem_set hc with hc | rfl
    · exact h.clean c hc
    · exact h.core_empty n⟩

theorem modFocus (f : Focus → Focus) : (w.modFocus f).L2Is lines hosts log := h.beside rfl rfl rfl rfl rfl

theorem write (k : Nat) (bs : List Byte) : (w.write k bs).L2Is lines hosts (⟨k, bs.length, bs⟩ :: log) :=
  ⟨(w.write_l2 k bs) ▸ h.lines, (w.write_hostL2 k bs).trans h.hosts, by rw [write_log, h.log], (sliceLines_of_parts (w.write_parts k bs)).trans h.whole,
    (w.write_cores k bs) ▸ h.clean⟩

theorem setL2Stamps (hm : line ∉ lines) (s : LineStamps) : (w.setL2Stamps line s).L2Is (lines ++ [line]) hosts log := by
  refine ⟨?_, h.hosts, h.log, h.whole, h.clean⟩
  rw [← h.lines] at hm ⊢
  exact (congrArg (List.map (·.1)) (Tab.set_of_new hm s)).trans List.map_append

theorem endWindow : (w.endWindow line).L2Is lines hosts log := by
  unfold Work.endWindow sample
  split
  · exact h
  · split <;> exact h.beside rfl rfl rfl rfl rfl

theorem afterWindow : (w.afterWindow line).L2Is lines hosts log := ite h (ite (h.modFocus _) h)

theorem noteWaits (pa n : Nat) : (w.noteWaits pa n).L2Is lines hosts log :=
  foldl h fun _ _ hv => foldl hv fun _ _ hx => by
    split
    · exact ite (hx.modCtx ..) hx
    · exact hx

/-- A line that L2 does not hold joins those that the slice's room leaves. -/
theorem l2Fill (hm : line ∉ lines) (hr : (w.l2Room (sliceOf (line * 128))).L2Is lines' hosts' log') (hm' : line ∉ lines') (part : Nat) (b : Bool) (joined : Nat) :
    (w.l2Fill part line b joined).L2Is (lines' ++ [line]) hosts' log' := by
  unfold Work.l2Fill
  rw [if_neg (h.inL2.not.mpr hm)]
  extract_lets w1 w2 w3 w4
  have h3 : w3.L2Is (lines' ++ [line]) hosts' log' := setL2Stamps (ite (modFocus hr _) hr) hm' _
  have h4 : w4.L2Is (lines' ++ [line]) hosts' log' := h3.endWindow
  refine ite (h3.beside rfl rfl rfl rfl rfl) (modFocus ?_ _)
  exact h4.beside rfl rfl rfl rfl rfl

/-- A line that is no HOST line leaves L2 unwritten. -/
theorem evictLine (hn : hosts.find? (·.line == line) = none) : (w.evictLine line).L2Is (lines.filter (· != line)) hosts log := by
  rw [← h.hosts] at hn
  refine ⟨?_, (evictLine_hostL2 hn).trans h.hosts, ?_, ?_, ?_⟩
  · rw [evictLine_l2, Tab.erase, ← h.lines, List.filter_map]
    rfl
  · rw [w.evictLine_log, cleanHost_of_none hn, h.log]
  · have parts : (w.evictLine line).parts = w.parts := evictLine_keeps (·.parts) write_parts (fun _ _ => rfl) (fun _ _ _ => rfl) w line
    exact (sliceLines_of_parts parts).trans h.whole
  · have cores : (w.evictLine line).cores = w.cores := evictLine_keeps (·.cores) write_cores (fun _ _ => rfl) (fun _ _ _ => rfl) w line
    exact cores ▸ h.clean

/-- A full slice evicts the line it has held longest. -/
theorem l2Room {slice : Nat} {more : List Nat} (hs : lines.filter (fun l => sliceOf (l * 128) == slice) = line :: more) (hn : 262144 ≤ more.length + 1) :
    w.l2Room slice = w.evictLine line :=
  l2Room_of_full (by rw [h.lines, hs]) (h.whole.trans_le hn)

theorem release : w.release.L2Is lines hosts log := by
  obtain ⟨hl, hu⟩ := h.core_empty w.focus.core
  rw [Work.release, cleanL1_of_empty hl hu, tick, modMe]
  exact h.modCtx ..

/-- A write to a line of HBM that L2 holds. -/
theorem homeWrite {pa : Nat} (hm : pa / 128 ∈ lines) (hp : isHost pa = false) (part : Nat) (bs : List Byte) :
    (w.homeWrite part pa bs).L2Is lines hosts (⟨pa, bs.length, bs⟩ :: log) := by
  have ha : (w.afterWindow (pa / 128)).L2Is lines hosts log := h.afterWindow
  rw [Work.homeWrite, recallLine_of_clean h.partials, l2Write_hbm hp, l2Fill_of_inL2 (ha.inL2.mpr hm)]
  exact (ha.write pa bs).noteWaits pa bs.length

end
end L2Is

end Work
end Sys2Proof.Machine
end

section
/-! PROOFS. FREE (08_memory R186, R187): what it leaves in memory, and the refutation of O49, whose clause on it leaves out what raising the class's stamp
may put out of L2. -/
namespace Sys2Proof.Machine
open Sys2Proof.Claim

/-- The number of the block of class `c` that an address names. -/
def AllocClass.blockAt (k : AllocClass) (c : BitVec 3) (addr : Word) : Nat := (addr.toNat - k.base.toNat) / (256 * 2 ^ c.toNat)

/-- Does an address begin a block of class `c`? -/
def AllocClass.Names (k : AllocClass) (c : BitVec 3) (addr : Word) : Prop :=
  k.enabled = true ∧ k.base.toNat ≤ addr.toNat ∧ (addr.toNat - k.base.toNat) % (256 * 2 ^ c.toNat) = 0 ∧ k.blockAt c addr < k.count

/-- Where the word of the bitmap with bit `i` lies. -/
def AllocClass.wordAt (k : AllocClass) (i : Nat) : Nat := k.bitmap + i / 64 * 8

/-- What FREE leaves of bit `i` of a bitmap whose word is `v`, and of FREECNT, before it raises the stamp of the class (R187). -/
def Work.freed (w : Work) (k : AllocClass) (i v : Nat) : Work :=
  (w.release.homeWrite w.release.myPart (k.wordAt i) (leBytes 8 (v - 2 ^ (i % 64)))).homeWrite w.release.myPart (k.at0 + 12) (leBytes 4 (k.free + 1))

/-- FREE of a block that is allocated: its bit, FREECNT, then the stamp of the line in which the class's descriptor begins. -/
theorem exec_free {s : State} {a : BitVec 4} {c : BitVec 3} {k : AllocClass} {w1 w2 : Work} {bs : List Byte} {i : Nat}
    (hk : readClass c s.work = (.ok k, w1)) (hn : k.Names c (aOp s 0 a)) (hi : k.blockAt c (aOp s 0 a) = i)
    (hb : allocRead (k.wordAt i) 8 (k.wordAt i) w1 = (.ok bs, w2)) (hv : leNat bs / 2 ^ (i % 64) % 2 = 1) :
    exec (.free a c) s = .next (left s (let v := w2.freed k i (leNat bs); v.raiseS v.myPart (.phys k.at0 0#2 false) v.me.kclk)) := by
  obtain ⟨he, hle, hz, hlt⟩ := hn
  rw [hi] at hlt
  have offset : (aOp s 0 a - k.base).toNat = (aOp s 0 a).toNat - k.base.toNat := BitVec.toNat_sub_of_le hle
  have hd : (aOp s 0 a - k.base).toNat / (256 * 2 ^ c.toNat) = i := (congrArg (· / (256 * 2 ^ c.toNat)) offset).trans hi
  have part : (w2.release.homeWrite w2.release.myPart (k.wordAt i) (leBytes 8 (leNat bs - 2 ^ (i % 64)))).myPart = w2.release.myPart :=
    Work.myPart_of (Work.Quiet.refl _).homeWrite (Work.Still.refl _).recallLine.l2Write
  unfold AllocClass.wordAt at hb part
  refine runSlot_ok s _ _ _ ?_
  rw [freeAct, act_bind, act_get]
  dsimp only
  rw [act_bind, hk]
  dsimp only
  rw [hd, act_ite, if_neg (by simpa [he, offset, hz] using And.intro hle hlt), act_bind, hb]
  dsimp only
  rw [act_ite, if_neg (by omega), act_modify, Work.freed, AllocClass.wordAt, part]

/-- What FREE leaves in memory: its two writes, and what bringing the line of the stamp to L2 writes. -/
theorem free_mem {s t : State} {a : BitVec 4} {c : BitVec 3} {k : AllocClass} {w1 w2 : Work} {bs : List Byte} {i : Nat}
    (hk : readClass c s.work = (.ok k, w1)) (hn : k.Names c (aOp s 0 a)) (hi : k.blockAt c (aOp s 0 a) = i)
    (hb : allocRead (k.wordAt i) 8 (k.wordAt i) w1 = (.ok bs, w2)) (hv : leNat bs / 2 ^ (i % 64) % 2 = 1) (ht : exec (.free a c) s = .next t) :
    t.mem = applyLog s.mem ((w2.freed k i (leNat bs)).l2Fill (w2.freed k i (leNat bs)).myPart (k.at0 / 128) true 0).log := by
  rw [exec_free hk hn hi hb hv] at ht
  injection ht with ht
  rw [← ht, ← Work.raiseS_log _ false (w2.freed k i (leNat bs)).me.kclk]
  rfl

/-- What holds in the place of O49's clause: memory is as the two writes leave it where FREECNT stands in the line in which the descriptor begins. -/
theorem free_mem_of_within {s t : State} {a : BitVec 4} {c : BitVec 3} {k : AllocClass} {w1 w2 : Work} {bs : List Byte} {i : Nat}
    (hk : readClass c s.work = (.ok k, w1)) (hn : k.Names c (aOp s 0 a)) (hi : k.blockAt c (aOp s 0 a) = i)
    (hb : allocRead (k.wordAt i) 8 (k.wordAt i) w1 = (.ok bs, w2)) (hv : leNat bs / 2 ^ (i % 64) % 2 = 1) (ht : exec (.free a c) s = .next t)
    (hw : k.at0 / 128 = (k.at0 + 12) / 128) : t.mem = applyLog s.mem (w2.freed k i (leNat bs)).log := by
  have held : (w2.freed k i (leNat bs)).inL2 (k.at0 / 128) = true := by
    rw [hw]
    exact Work.inL2_homeWrite ..
  rw [free_mem hk hn hi hb hv ht, Work.l2Fill_of_inL2 held]

/-- A class whose descriptor stands within a line, and an address that names block 2 of it, which is allocated (`Tests.witness_CachesAllocator`). -/
theorem witness_free_mem_of_within : (let s := Tests.regs [] [0x100400] (Tests.heap 1 3 [7])
    Tests.answersWith (readClass 1 s.work) fun k => k.at0 / 128 == (k.at0 + 12) / 128 && k.enabled && decide (k.base.toNat ≤ (aOp s 0 1).toNat) &&
      ((aOp s 0 1).toNat - k.base.toNat) % 512 == 0 && k.blockAt 1 (aOp s 0 1) == 2 && decide (2 < k.count)) = true := by decide +kernel

/-- What O49 says of the same FREE: memory is as the two writes leave it. -/
theorem free_mem_of_cachesAllocator (h : Obligations.CachesAllocator) {s : State} {a : BitVec 4} {c : BitVec 3} {k : AllocClass} {w1 w2 : Work} {bs : List Byte}
    {i : Nat} (hk : readClass c s.work = (.ok k, w1)) (hn : k.Names c (aOp s 0 a)) (hi : k.blockAt c (aOp s 0 a) = i)
    (hb : allocRead (k.wordAt i) 8 (k.wordAt i) w1 = (.ok bs, w2)) (hv : leNat bs / 2 ^ (i % 64) % 2 = 1) :
    ∃ t, exec (.free a c) s = .next t ∧ t.mem = applyLog s.mem (w2.freed k i (leNat bs)).log := by
  subst hi
  obtain ⟨-, -, -, -, -, -, -, -, -, free⟩ := h s 0 0 a 0 0 0 c
  exact ((free k w1 hk).2 hn bs w2 hb).2 hv

/-! ## Where O49's clause on FREE and the model part -/

/-- All but two of the lines that slice 0 can hold; neither line 0 nor the bitmap's line is one of them. -/
structure FillsSlice (ls : List Nat) : Prop where
  length : ls.length = 262142
  slice : ls.filter (fun l => Work.sliceOf (l * 128) == 0) = ls
  line0 : 0 ∉ ls
  bitmap : 2 ^ 30 ∉ ls

/-- A HOST line whose first byte is 7 and dirty. -/
def dirtyHostLine : L1Line := Work.wholeLine (2 ^ 44) 7 1

/-- The class of 256-byte blocks whose descriptor begins at address 116: one block, at address 0, and its bitmap at 2^37. -/
def crossingClass : AllocClass := ⟨116, 0, 2 ^ 37, 0, 1, 0, true⟩

/-- That class in memory, its block allocated. In L2 are line 0, the oldest, then the dirty HOST line, line 1, which is of another slice, and `ls`. -/
def crowded (ls : List Nat) : State :=
  { State.reset with
    mem := [(116, 1), (124, 1), (136, 32), (2 ^ 37, 1)], hostL2 := [dirtyHostLine]
    l2 := (0 :: 2 ^ 44 :: 1 :: ls).map fun l => (l, ⟨⟨0, 0, 0⟩, ⟨0, 0, 0⟩, 0, 0⟩)
    parts := setNth State.reset.parts 0 { Partition.absent with desc := 116 <<< 256 } }

/-- The work when FREE has read the bitmap, whose line is then in L2. -/
def bitmapRead (ls : List Nat) : Work := (crowded ls).work.l2Fill 0 (2 ^ 30) false 1

/-- The writes of FREE before it raises the stamp: the bitmap's word, then FREECNT. -/
def freeLog : List Chunk := [⟨128, 4, leBytes 4 1⟩, ⟨2 ^ 37, 8, leBytes 8 0⟩]

section
variable (ls : List Nat)

theorem crowded_l2Is : (crowded ls).work.L2Is (0 :: 2 ^ 44 :: 1 :: ls) [dirtyHostLine] [] := by
  have whole : (crowded []).work.sliceLines = 262144 := by decide +kernel
  exact ⟨(List.map_map ..).trans (List.map_id _), rfl, rfl, (Work.sliceLines_of_parts rfl).trans whole, fun _ hc => absurd hc List.not_mem_nil⟩

theorem crowded_bytes (k n : Nat) : (crowded ls).work.bytes k n = (crowded []).work.bytes k n := Work.bytes_of_log rfl rfl k n

theorem readClass_crowded : readClass 0 (crowded ls).work = (.ok crossingClass, (crowded ls).work) := by
  have bytes : (crowded []).work.bytes 116 32 = leBytes 32 (1 + 2 ^ 64 + 2 ^ 165) := by decide +kernel
  have part : (crowded ls).work.part (crowded ls).work.myPart = (crowded []).work.part (crowded []).work.myPart := rfl
  have table : ((crowded []).work.part (crowded []).work.myPart).dword 32 = 116 := by decide +kernel
  have held : (crowded ls).work.inL2 (116 / 128) = true := (crowded_l2Is ls).inL2.mpr List.mem_cons_self
  rw [readClass, act_bind, act_get]
  dsimp only
  rw [part, table, act_bind, show (116 : Word).toNat + 32 * (0 : BitVec 3).toNat = 116 by decide,
    Work.allocRead_hbm rfl (crowded_l2Is ls).partials (by decide), Work.l2Touch_of_inL2 held rfl, crowded_bytes, bytes]
  rfl

theorem crowded_addr : aOp (crowded ls) 0 0 = 0 := rfl

theorem crowded_names : crossingClass.Names 0 (aOp (crowded ls) 0 0) := by
  rw [crowded_addr]
  unfold AllocClass.Names AllocClass.blockAt
  decide

end

section
variable {ls : List Nat} (h : FillsSlice ls)
include h

theorem bitmapLine_not_mem : 2 ^ 30 ∉ 0 :: 2 ^ 44 :: 1 :: ls := by
  simp only [List.mem_cons, not_or]
  exact ⟨by decide, by decide, by decide, h.bitmap⟩

/-- Reading the bitmap puts line 0, the oldest of its slice, out of L2. -/
theorem bitmapRead_l2Is : (bitmapRead ls).L2Is (2 ^ 44 :: 1 :: ls ++ [2 ^ 30]) [dirtyHostLine] [] := by
  have slice : (0 :: 2 ^ 44 :: 1 :: ls).filter (fun l => Work.sliceOf (l * 128) == 0) = 0 :: 2 ^ 44 :: ls := by
    rw [List.filter_cons_of_pos (by decide), List.filter_cons_of_pos (by decide), List.filter_cons_of_neg (by decide), h.slice]
  have others : (0 :: 2 ^ 44 :: 1 :: ls).filter (· != 0) = 2 ^ 44 :: 1 :: ls := by
    have stay : ls.filter (· != 0) = ls := List.filter_eq_self.mpr fun l hl => bne_iff_ne.mpr fun e => h.line0 (e ▸ hl)
    rw [List.filter_cons_of_neg (by decide), List.filter_cons_of_pos (by decide), List.filter_cons_of_pos (by decide), stay]
  have room : ((crowded ls).work.l2Room (Work.sliceOf (2 ^ 30 * 128))).L2Is (2 ^ 44 :: 1 :: ls) [dirtyHostLine] [] := by
    rw [show Work.sliceOf (2 ^ 30 * 128) = 0 by decide, (crowded_l2Is ls).l2Room slice (by simp [h.length]), ← others]
    exact (crowded_l2Is ls).evictLine (by decide)
  exact (crowded_l2Is ls).l2Fill (bitmapLine_not_mem h) room (fun e => bitmapLine_not_mem h (List.mem_cons_of_mem _ e)) 0 false 1

theorem allocRead_crowded : allocRead (2 ^ 37) 8 (2 ^ 37) (crowded ls).work = (.ok (leBytes 8 1), bitmapRead ls) := by
  have miss : (crowded ls).work.inL2 (2 ^ 37 / 128) ≠ true := (crowded_l2Is ls).inL2.not.mpr (bitmapLine_not_mem h)
  have bytes : (crowded []).work.bytes (2 ^ 37) 8 = leBytes 8 1 := by decide +kernel
  have same : (bitmapRead ls).bytes (2 ^ 37) 8 = (crowded ls).work.bytes (2 ^ 37) 8 :=
    Work.bytes_of_log (bitmapRead_l2Is h).log ((Work.Still.refl _).l2Fill).base _ _
  rw [Work.allocRead_hbm rfl (crowded_l2Is ls).partials (by decide), Work.l2Touch_of_miss miss, ← bytes, ← crowded_bytes ls, ← same]
  rfl

theorem freed_l2Is : ((bitmapRead ls).freed crossingClass 0 1).L2Is (2 ^ 44 :: 1 :: ls ++ [2 ^ 30]) [dirtyHostLine] freeLog := by
  have bitmap : crossingClass.wordAt 0 / 128 ∈ 2 ^ 44 :: 1 :: ls ++ [2 ^ 30] := List.mem_append_right _ List.mem_cons_self
  have count : (crossingClass.at0 + 12) / 128 ∈ 2 ^ 44 :: 1 :: ls ++ [2 ^ 30] := List.mem_cons_of_mem _ List.mem_cons_self
  exact ((bitmapRead_l2Is h).release.homeWrite bitmap (by decide) _ (leBytes 8 0)).homeWrite count (by decide) _ (leBytes 4 1)

/-- The line of the stamp is line 0; bringing it back puts the HOST line out, and its dirty byte goes to the host's memory. -/
theorem stampLine_log (part : Nat) :
    (((bitmapRead ls).freed crossingClass 0 1).l2Fill part (crossingClass.at0 / 128) true 0).log = ⟨2 ^ 51, 1, [7]⟩ :: freeLog := by
  have freed := freed_l2Is h
  have gone : 0 ∉ 2 ^ 44 :: 1 :: ls ++ [2 ^ 30] := by
    simp only [List.mem_append, List.mem_cons, List.not_mem_nil, or_false, not_or]
    exact ⟨⟨by decide, by decide, h.line0⟩, by decide⟩
  have slice : (2 ^ 44 :: 1 :: ls ++ [2 ^ 30]).filter (fun l => Work.sliceOf (l * 128) == 0) = 2 ^ 44 :: (ls ++ [2 ^ 30]) := by
    rw [List.filter_append, List.filter_cons_of_pos (by decide), List.filter_cons_of_neg (by decide), h.slice, List.filter_cons_of_pos (by decide)]
    rfl
  have host : ((bitmapRead ls).freed crossingClass 0 1).hostL2.find? (·.line == 2 ^ 44) = some dirtyHostLine := by
    rw [freed.hosts]
    exact List.find?_cons_of_pos (beq_self_eq_true (2 ^ 44))
  have dirty : Work.runs dirtyHostLine.dirty = [(0, 1)] := by decide +kernel
  have byte : ((lineBytes dirtyHostLine.data).drop 0).take 1 = [7#8] := by decide +kernel
  have miss : ((bitmapRead ls).freed crossingClass 0 1).inL2 (crossingClass.at0 / 128) ≠ true := freed.inL2.not.mpr gone
  rw [Work.l2Fill_log miss, show Work.sliceOf (crossingClass.at0 / 128 * 128) = 0 by decide,
    freed.l2Room slice (by simp [h.length]), Work.evictLine_log, Work.cleanHost_log host dirty, Work.write_log, freed.log, byte]
  rfl

/-- With such lines in L2, what O49 says of memory after FREE is not so: the host's byte is missing. -/
theorem not_cachesAllocator_of_fillsSlice : ¬ Obligations.CachesAllocator := by
  intro ho
  have bit : leNat (leBytes 8 1) / 2 ^ (0 % 64) % 2 = 1 := by decide
  have block : crossingClass.blockAt 0 (aOp (crowded ls) 0 0) = 0 := by rw [crowded_addr]; decide
  have read : allocRead (crossingClass.wordAt 0) 8 (crossingClass.wordAt 0) (crowded ls).work = (.ok (leBytes 8 1), bitmapRead ls) := allocRead_crowded h
  obtain ⟨t, ht, stated⟩ := free_mem_of_cachesAllocator ho (readClass_crowded ls) (crowded_names ls) block read bit
  have one : leNat (leBytes 8 1) = 1 := by decide
  have mem : (crowded ls).mem = (crowded []).mem := rfl
  have left := free_mem (readClass_crowded ls) (crowded_names ls) block read bit ht
  rw [stated, one, stampLine_log h, (freed_l2Is h).log, mem] at left
  exact absurd left (by decide +kernel)

end

/-- 262,142 lines, each of slice 0. -/
def sliceZeroLines : List Nat := (List.range 262142).map fun j => (j + 1) * 4096

theorem mem_sliceZeroLines {l : Nat} : l ∈ sliceZeroLines ↔ ∃ j < 262142, (j + 1) * 4096 = l := by simp only [sliceZeroLines, List.mem_map, List.mem_range]

theorem sliceOf_sliceZeroLines {l : Nat} (h : l ∈ sliceZeroLines) : Work.sliceOf (l * 128) = 0 := by
  obtain ⟨j, -, rfl⟩ := mem_sliceZeroLines.mp h
  have page : (j + 1) * 4096 * 128 / 4096 % 8 = 0 := by omega
  have line : (j + 1) * 4096 * 128 / 128 % 16 = 0 := by omega
  have group : (j + 1) * 4096 * 128 / 32768 % 16 = 0 := by omega
  rw [Work.sliceOf, homeDie, homeSlice, page, line, group]
  rfl

theorem fillsSlice_sliceZeroLines : FillsSlice sliceZeroLines where
  length := by rw [sliceZeroLines, List.length_map, List.length_range]
  slice := List.filter_eq_self.mpr fun _ hl => beq_iff_eq.mpr (sliceOf_sliceZeroLines hl)
  line0 := by
    rw [mem_sliceZeroLines]
    omega
  bitmap := by
    rw [mem_sliceZeroLines]
    omega

/-- Refutes O49: its clause on FREE has memory as the writes of the bitmap and of FREECNT leave it. FREE also raises the S stamp of the line in which the
class's descriptor begins (R187, R203), which is not FREECNT's line where the descriptor crosses lines; R186 asks for no alignment of ALLOCPA. In
`crowded sliceZeroLines` reading the bitmap puts that line out of its full slice, and bringing it back evicts a dirty HOST line, whose byte goes to memory.
`free_mem_of_within` is the clause for a descriptor that does not cross. -/
theorem not_cachesAllocator : ¬ Obligations.CachesAllocator := not_cachesAllocator_of_fillsSlice fillsSlice_sliceZeroLines

end Sys2Proof.Machine
end
